-- ==== Sys2Proof/Word.lean ====
section
/-! DEFINITION. The word types of the Doroskiq 9 and the names of its register numbers.
Bits are numbered from 0 at the least significant end (R3); memory is little-endian (R4). -/

namespace Sys2Proof

/-- A 32-bit register or instruction word. -/
abbrev Word := BitVec 32
/-- A 64-bit value: a pair of registers (R5), an address, a handle. -/
abbrev DWord := BitVec 64
/-- One byte of memory. -/
abbrev Byte := BitVec 8

/-- Number of a g-register (R49, R208). -/
abbrev GReg := BitVec 7
/-- Number of a yoke register (R208). -/
abbrev YReg := BitVec 6
/-- Number of a predicate (R208). -/
abbrev PReg := BitVec 3
/-- Number of a queue register. -/
abbrev QReg := BitVec 3
/-- Number of a hitch, tile or tile control register. -/
abbrev Reg4 := BitVec 4
/-- Number of a permutation register. -/
abbrev PmReg := BitVec 2

end Sys2Proof
end

