-- ==== Sys2Proof/Syntax.lean ====
section
/-! DEFINITION. The one inductive of instructions and device steps, one constructor per row of spec/opcode_table.json.
The first part of `Instr` holds the instruction words of Table 9.9, with their operands pulled out of the encoding; the
first argument `q` of each is its guard predicate (R209). The second part holds the device steps of the table, which have
no encoding: their arguments name the unit or the record in flight they act on. -/

namespace Sys2Proof

/-- Operand B: a g-register, or with YB = 1 a yoke register of the thread's team (R220). -/
inductive Src where
  | g (r : GReg)
  | y (r : YReg)
deriving DecidableEq, Repr, Inhabited

/-- A memory operand `[gA+off]` with a signed 16-bit byte offset (R271). -/
structure MemOp where
  base : GReg
  off : BitVec 16
deriving DecidableEq, Repr, Inhabited

/-- A memory operand `[gA+off]` with OFF12 in units of 16 bytes (R307). -/
structure MemOp12 where
  base : GReg
  off : BitVec 12
deriving DecidableEq, Repr, Inhabited

/-- The scopes of Table 3.1. -/
inductive Scope where
  | blk | grp | dev | dom | sys
deriving DecidableEq, Repr, Inhabited

/-- Rounding modes (R170, Table 11.1). -/
inductive Rm where
  | rne | rz | ru | rd
deriving DecidableEq, Repr, Inhabited

/-- The format codes of Table 7.1. -/
inductive Fmt where
  | none | fp64 | fp32 | fp16 | bf16 | e4m3 | e5m2 | e3m2 | e2m3 | e2m1 | e8m0 | int8 | n8 | int4 | n4 | int32
deriving DecidableEq, Repr, Inhabited

/-- The types of majors 0x40 to 0x43 (R253). -/
inductive FpTy where
  | f32 | f64 | f16 | bf16
deriving DecidableEq, Repr, Inhabited

/-- The types of `cvt` (Table 11.7). -/
inductive CvtTy where
  | n32 | f64 | f32 | f16 | bf16 | i32
deriving DecidableEq, Repr, Inhabited

/-- Position and length of `bfe` and `bfi`: an immediate pair or a register (R234). -/
inductive BfArg where
  | imm (pos : BitVec 5) (len : BitVec 6)
  | reg (c : GReg)
deriving DecidableEq, Repr, Inhabited

/-- Amount of `shf` (R234). -/
inductive ShfArg where
  | imm (n : BitVec 5)
  | reg (c : GReg)
deriving DecidableEq, Repr, Inhabited

/-- Selector of `prmt` (R234). -/
inductive PrmtArg where
  | imm (sel : BitVec 16)
  | reg (c : GReg)
deriving DecidableEq, Repr, Inhabited

/-- The conditions of `setp` (Table 10.6). -/
inductive ICond where
  | eq | ne | lt | le | gt | ge
deriving DecidableEq, Repr, Inhabited

/-- Condition and type of `setp` (Table 10.6). -/
inductive SetpOp where
  | i32 (c : ICond)
  | tst
  | n32 (c : ICond)
  | i64 (c : ICond)
  | n64 (c : ICond)
deriving DecidableEq, Repr, Inhabited

/-- Second operand of `setp` (R235). -/
inductive SetpArg where
  | src (b : Src)
  | imm (v : BitVec 16)
deriving DecidableEq, Repr, Inhabited

/-- Amount of the 64-bit shifts (R243). -/
inductive Sh64Arg where
  | imm (n : BitVec 6)
  | src (b : Src)
deriving DecidableEq, Repr, Inhabited

/-- The special registers of Table 2.3. -/
inductive Special where
  | tid | team | block | grp | launch | stage | core | cluster | bulkhead | die | chip | clock | fpflags
deriving DecidableEq, Repr, Inhabited

/-- The conditions of `fsetp` (Table 11.5). -/
inductive FCond where
  | eq | lt | le | gt | ge | ne | num | nan
deriving DecidableEq, Repr, Inhabited

/-- The forms of `dp4` (Table 11.8). -/
inductive Dp4Form where
  | i8 | n8 | i8n8 | e4m3 | e5m2
deriving DecidableEq, Repr, Inhabited

/-- The forms of `dp8` (Table 11.8). -/
inductive Dp8Form where
  | i4 | n4 | i4n4 | e2m1
deriving DecidableEq, Repr, Inhabited

/-- Ordering of an atomic (Table 12.5). -/
inductive Ord where
  | relaxed | acq | rel | acqrel
deriving DecidableEq, Repr, Inhabited

/-- Operands shared by the atomics: scope, ordering, width (`wide`: 64 bits), destination, address, operand (R285, R286). -/
structure AtomArgs where
  scope : Scope
  ord : Ord
  wide : Bool
  d : GReg
  mem : MemOp
  b : Src
deriving DecidableEq, Repr, Inhabited

/-- Operands shared by the reductions (R285, R286). -/
structure RedArgs where
  scope : Scope
  wide : Bool
  mem : MemOp
  b : Src
deriving DecidableEq, Repr, Inhabited

/-- Operands of the queue operations (R295): `.team` form, scope (none: the block's own), element size code, registers. -/
structure QueueArgs where
  team : Bool
  scope : Option Scope
  esz : BitVec 3
  d : GReg
  mem : MemOp
  b : GReg
deriving DecidableEq, Repr, Inhabited

/-- Cell types of the accumulator moves (R317). -/
inductive CellTy where
  | f32 | f64 | i32
deriving DecidableEq, Repr, Inhabited

/-- The fields of `mma`, `mma.sp` and `mma.spt` (R312, Table 13.3). -/
structure MmaArgs where
  row0 : BitVec 7
  a : Reg4
  f : Src
  mf : BitVec 2
  nf : BitVec 6
  h : Reg4
  tb : Reg4
  col : BitVec 6
  p : BitVec 2
deriving DecidableEq, Repr, Inhabited

/-- The fields of the factorisations (R314). -/
structure FactArgs where
  d : GReg
  o : GReg
  f64 : Bool
  flag : Bool
  pm : PmReg
  h : Reg4
deriving DecidableEq, Repr, Inhabited

/-- The fields of `mtrsm` (R314). -/
structure TrsmArgs where
  d : GReg
  o : GReg
  f64 : Bool
  flag : Bool
  up : Bool
  unit : Bool
  h : Reg4
deriving DecidableEq, Repr, Inhabited

/-- The fields of `copy` and `copy.mc` (R321): status register, first coordinate, scratch pair, layout record number K,
successor pair when named. -/
structure CopyArgs where
  d : GReg
  a : GReg
  b : GReg
  k : BitVec 3
  c : Option GReg
deriving DecidableEq, Repr, Inhabited

/-- The liveness operands of `phint` and `commit` (R329): yoke pair of the scratch ranges when S = 1. -/
structure HintArgs where
  gmask : BitVec 16
  pmask : BitVec 7
  k : Option YReg
deriving DecidableEq, Repr, Inhabited

/-- A thread of a block: block number of the model, leader or wheeler copy (R200), thread index (R13). -/
structure ThreadId where
  blk : Nat
  wheel : Bool
  tid : Nat
deriving DecidableEq, Repr, Inhabited

/-- A function of the endpoint (R372): the physical function or a virtual function 0 to 383. -/
inductive Fn where
  | pf
  | vf (f : Nat)
deriving DecidableEq, Repr, Inhabited

/-- The rings the device writes and software reads (R425). -/
inductive Ring where
  | fault (part : BitVec 6)
  | event (part : BitVec 6)
  | error
deriving DecidableEq, Repr, Inhabited

/-- What a patrol read of a sector finds (R419). -/
inductive ScrubFinding where
  | clean | corrected | uncorrected
deriving DecidableEq, Repr, Inhabited

/-- A page walker at work: its die, and the partition whose tables it walks (R402, R403). -/
structure Walker where
  die : Nat
  part : BitVec 6
deriving DecidableEq, Repr, Inhabited

/-- A DQO object handed to the loader with the placement the driver chose for it (R357, R367). -/
structure LoadRequest where
  part : BitVec 6
  /-- the bytes of the DQO file -/
  file : List Byte
  /-- object-table slot chosen by the driver -/
  slot : BitVec 24
  textVa : DWord
  textPa : BitVec 56
  dataVa : DWord
  dataPa : BitVec 56
  entVa : DWord
  entPa : BitVec 56
  /-- heap pages the driver could reserve, in 64 KiB pages (R366, R367 step 3) -/
  heapPages : Nat
  /-- page-table entries the driver writes at step 5: address and 16-byte entry (R401) -/
  ptes : List (BitVec 56 × BitVec 128)
  /-- the driver asks for interlocked mode (R345) -/
  interlocked : Bool
deriving DecidableEq, Repr, Inhabited

/-- The device steps with their arguments, as the agenda of the state holds them: what has been started and not yet
happened. Each stands for the constructor of `Instr` of the same name (`runEv`, Machine/Agenda.lean). -/
inductive Ev where
  -- device steps: issue and hitches
  | stringIssue (core picker : Nat)
  | sleepExpiry (th : ThreadId)
  | hitchFireComplete (blk : Nat) (wheel : Bool) (h : Reg4)
  -- device steps: memory system
  | loadReturn (id : Nat)
  | storeAccept (id : Nat)
  | releaseComplete (id : Nat)
  | writeBack (id : Nat)
  | invalidation (id agent : Nat)
  | invalidationAck (id agent : Nat)
  | l1Eviction (core line : Nat)
  | evictionNotice (agent line : Nat)
  | directoryDrop (line : Nat)
  | discovery (line : Nat)
  | l2ReadRequest (id : Nat)
  | atomicAtHome (id : Nat)
  | updateLineMerge (core line : Nat)
  | remoteAccess (id : Nat)
  | ntStoreAck (id : Nat)
  | hostAccess (write : Bool) (pa : BitVec 56) (sz : BitVec 2) (data : DWord)
  | viewLineCompose (id : Nat)
  | viewStoreCheck (id : Nat)
  | viewStoreScatter (id : Nat)
  | viewStoreAck (id : Nat)
  -- device steps: queues and engines
  | queueRequest (id : Nat)
  | queueRequestResend (id : Nat)
  | queueWithdrawal (id : Nat)
  | queueRequestComplete (id : Nat)
  | gatherRowReturn (id : Nat)
  | copyChunk (die engine : Nat)
  | copyComplete (id : Nat)
  | copyCommandRead (id : Nat)
  -- device steps: relay records, launches, blocks
  | joinDecrement (part : BitVec 6) (handle : DWord)
  | relayPost (id : Nat)
  | launchPacket (vf q : Nat)
  | launchExpansion (launch die : Nat)
  | recordGenerationResume (launch die : Nat)
  | blockAdmission (bulkhead : Nat)
  | blockSave (blk : Nat)
  | blockSaveComplete (blk : Nat)
  | blockRestore (bulkhead : Nat)
  | blockRetire (blk : Nat)
  | launchComplete (launch : Nat)
  | preemptTimeout (blk : Nat)
  | storeFault (th : ThreadId) (cause : BitVec 8) (addr : DWord) (pc : Word)
  | readAheadDiscard (pa : BitVec 56)
  | containedRelaunch (blk : Nat)
  | commitStoreRelease (blk : Nat)
  | signatureCompare (blk team : Nat)
  | loadValueEntry (id : Nat)
  -- device steps: matrix array
  | pendingMatrixOpBegin (blk : Nat) (wheel : Bool) (id : Nat)
  | matrixOpComplete (blk : Nat) (wheel : Bool) (id : Nat)
  | factorisationColumn (blk : Nat) (wheel : Bool)
  -- device steps: translation, faults, host commands
  | pageWalk (walker : Walker) (va : DWord) (write : Bool)
  | faultRecordPost (part : BitVec 6)
  | sqtailWrite (vf q : Nat) (v : Word)
  | sqctlWrite (vf q : Nat) (v : Word)
  | preempt (fn : Fn) (arg : DWord)
  | resume (fn : Fn) (arg : DWord)
  | cancel (fn : Fn) (arg : DWord)
  | trapreplyRetry (fn : Fn) (arg : DWord)
  | trapreplySkip (fn : Fn) (arg : DWord)
  | trapreplyKill (fn : Fn) (arg : DWord)
  | codeinval (fn : Fn)
  | objlive (fn : Fn) (arg : DWord)
  | objunload (fn : Fn) (arg : DWord)
  | objfree (fn : Fn) (arg : DWord)
  | objectLoad (r : LoadRequest)
  | ractlWrite (part : BitVec 6) (die : Nat) (v : Word)
  | relayAreaFillComplete (part : BitVec 6) (die : Nat)
  | vtbaseWrite (part : BitVec 6) (v : DWord)
  | viewTableFillComplete (part : BitVec 6)
  | prtbaseWrite (part : BitVec 6) (ctl : Bool) (v : DWord)
  | prinv (part : BitVec 6) (v : Word)
  | tlbinv (part : BitVec 6) (v : DWord)
  | invalidationComplete (part : BitVec 6)
  | ringHeadWrite (r : Ring) (v : Word)
  | ringCtlWrite (r : Ring) (v : Word)
  -- device steps: bulkheads, partitions, windows, gangs, keys
  | bulkheadReset (b : Nat)
  | bulkheadResetDone (b : Nat) (ok : Bool)
  | bulkheadHwFault (b : Nat)
  | partitionChange (b : Nat) (assigned : Bool) (part : BitVec 6)
  | frameownWrite (v : Word)
  | frameownChangeComplete (frame : Nat)
  | windowEntryStage (part : BitVec 6) (w : Nat) (hi : DWord)
  | windowEntryInstall (part : BitVec 6) (w : Nat) (lo : DWord)
  | sliceEntryStage (e : BitVec 6) (lo : DWord)
  | sliceEntryInstall (e : BitVec 6) (hi : DWord)
  | gangSliceStart (e : BitVec 6)
  | gangReady (e : BitVec 6) (pkg : BitVec 14)
  | gangGraceExpiry (e : BitVec 6)
  | gangSliceEnd (e : BitVec 6)
  | keyLoad (slot : BitVec 9)
  | keyClear (slot : BitVec 9)
  | injWrite (v : BitVec 128)
  | registerWrite (fn : Fn) (off : BitVec 16) (v : DWord)
  -- device steps: reliability, boot, management
  | scrubSector (controller sector : Nat) (found : ScrubFinding)
  | linkRetry (die link : Nat) (ok : Bool)
  | linkRetraining (die link : Nat)
  | telemetrySample (power : Nat) (temps : List Nat)
  | heartbeatMiss (pkg : BitVec 14)
  | agentLoss (agent : BitVec 6)
  | agentRejoin (agent : BitVec 6)
  | directorySweep (home : Nat) (agent : BitVec 6)
  | coldReset
  | getVersion
  | getCapabilities
  | negotiateAlgorithms (algs : Word)
  | getDigests
  | getCertificate (slot : BitVec 3) (off len : BitVec 16)
  | challenge (nonce : BitVec 256)
  | getMeasurements (nonce : BitVec 256)
  | keyExchange (pub : BitVec 768)
  | finish (verify : BitVec 384)
  | pendingResultWritten (th : ThreadId) (i : Nat)
  | memoryBulkheadFatal (die : Nat)
  | keySlotBusyClear
  | commandTakesEffect (fn : Fn)
  | vendorDefinedMessage (body : List Byte)
deriving DecidableEq, Repr, Inhabited

/-- Instruction words and device steps. -/
inductive Instr where
  -- integer and logic, format G (R229)
  | add (q : PReg) (d a : GReg) (b : Src)
  | sub (q : PReg) (d a : GReg) (b : Src)
  | mul (q : PReg) (d a : GReg) (b : Src)
  | mulhiI32 (q : PReg) (d a : GReg) (b : Src)
  | mulhiN32 (q : PReg) (d a : GReg) (b : Src)
  | divI32 (q : PReg) (d a : GReg) (b : Src)
  | divN32 (q : PReg) (d a : GReg) (b : Src)
  | remI32 (q : PReg) (d a : GReg) (b : Src)
  | remN32 (q : PReg) (d a : GReg) (b : Src)
  | minI32 (q : PReg) (d a : GReg) (b : Src)
  | minN32 (q : PReg) (d a : GReg) (b : Src)
  | maxI32 (q : PReg) (d a : GReg) (b : Src)
  | maxN32 (q : PReg) (d a : GReg) (b : Src)
  | and (q : PReg) (d a : GReg) (b : Src)
  | or (q : PReg) (d a : GReg) (b : Src)
  | xor (q : PReg) (d a : GReg) (b : Src)
  | shl (q : PReg) (d a : GReg) (b : Src)
  | shr (q : PReg) (d a : GReg) (b : Src)
  | sar (q : PReg) (d a : GReg) (b : Src)
  | rol (q : PReg) (d a : GReg) (b : Src)
  -- format I (R231)
  | addi (q : PReg) (d a : GReg) (imm : BitVec 8)
  | shli (q : PReg) (d a : GReg) (imm : BitVec 8)
  | shri (q : PReg) (d a : GReg) (imm : BitVec 8)
  | sari (q : PReg) (d a : GReg) (imm : BitVec 8)
  | andi (q : PReg) (d a : GReg) (imm : BitVec 8)
  | ori (q : PReg) (d a : GReg) (imm : BitVec 8)
  | xori (q : PReg) (d a : GReg) (imm : BitVec 8)
  -- multiply-add (R232)
  | mad (q : PReg) (d a : GReg) (b : Src) (c : GReg)
  | madHiI32 (q : PReg) (d a : GReg) (b : Src) (c : GReg)
  | madHiN32 (q : PReg) (d a : GReg) (b : Src) (c : GReg)
  | madWideI32 (q : PReg) (d a : GReg) (b : Src) (c : GReg)
  | madWideN32 (q : PReg) (d a : GReg) (b : Src) (c : GReg)
  -- unary (R233)
  | popc (q : PReg) (d a : GReg)
  | clz (q : PReg) (d a : GReg)
  | ctz (q : PReg) (d a : GReg)
  | brev (q : PReg) (d a : GReg)
  | not (q : PReg) (d a : GReg)
  | abs (q : PReg) (d a : GReg)
  | neg (q : PReg) (d a : GReg)
  -- bit fields (R234)
  | bfeI32 (q : PReg) (d a : GReg) (x : BfArg)
  | bfeN32 (q : PReg) (d a : GReg) (x : BfArg)
  | bfi (q : PReg) (d a : GReg) (b : Src) (x : BfArg)
  | shfL (q : PReg) (d a : GReg) (b : Src) (x : ShfArg)
  | shfR (q : PReg) (d a : GReg) (b : Src) (x : ShfArg)
  | prmt (q : PReg) (d a : GReg) (b : Src) (x : PrmtArg)
  | bitfn (q : PReg) (d a : GReg) (b : Src) (c : GReg) (fn : BitVec 8)
  -- compares, predicates, select (R235 to R237)
  | setp (q : PReg) (op : SetpOp) (d : PReg) (a : GReg) (b : SetpArg)
  | pand (q : PReg) (d a b : PReg)
  | por (q : PReg) (d a b : PReg)
  | pxor (q : PReg) (d a b : PReg)
  | pnot (q : PReg) (d a : PReg)
  | p2g (q : PReg) (d : GReg)
  | g2p (q : PReg) (a : GReg) (mask : BitVec 7)
  | sel (q : PReg) (d a : GReg) (b : Src) (c : PReg)
  -- moves (R238 to R240)
  | mov (q : PReg) (d : GReg) (b : Src)
  | movi (q : PReg) (d : GReg) (lit : Word)
  | movs (q : PReg) (d : GReg) (s : Special)
  -- yoke (R241)
  | ymov (q : PReg) (w : Bool) (d : YReg) (b : Src)
  | ymovl (q : PReg) (d : YReg) (imm : BitVec 16)
  | ymovh (q : PReg) (d : YReg) (imm : BitVec 16)
  | yadd (q : PReg) (w : Bool) (d a : YReg) (b : Src)
  | yaddi (q : PReg) (w : Bool) (d a : YReg) (imm : BitVec 16)
  -- 64-bit (R243)
  | addI64 (q : PReg) (d a : GReg) (b : Src)
  | subI64 (q : PReg) (d a : GReg) (b : Src)
  | addiI64 (q : PReg) (d a : GReg) (imm : BitVec 16)
  | lea (q : PReg) (sx : Bool) (sh : BitVec 3) (d a : GReg) (b : Src) (off : BitVec 16)
  | shlI64 (q : PReg) (d a : GReg) (b : Sh64Arg)
  | shrI64 (q : PReg) (d a : GReg) (b : Sh64Arg)
  | sarI64 (q : PReg) (d a : GReg) (b : Sh64Arg)
  | minN64 (q : PReg) (d a : GReg) (b : Src)
  | maxN64 (q : PReg) (d a : GReg) (b : Src)
  -- terminators (R223, R224)
  | next (q : PReg)
  | jmp (q : PReg) (off : BitVec 22)
  | br (q : PReg) (neg : Bool) (c : PReg) (off : BitVec 18)
  | brx (q : PReg) (a : GReg)
  | call (q : PReg) (off : BitVec 22)
  | callx (q : PReg) (a : GReg)
  | ret (q : PReg)
  | exit (q : PReg)
  -- floating point (R253 to R260)
  | fadd (q : PReg) (t : FpTy) (rm : Rm) (d a : GReg) (b : Src)
  | fsub (q : PReg) (t : FpTy) (rm : Rm) (d a : GReg) (b : Src)
  | fmul (q : PReg) (t : FpTy) (rm : Rm) (d a : GReg) (b : Src)
  | fma (q : PReg) (t : FpTy) (rm : Rm) (d a : GReg) (b : Src) (c : GReg)
  | fmin (q : PReg) (t : FpTy) (d a : GReg) (b : Src)
  | fmax (q : PReg) (t : FpTy) (d a : GReg) (b : Src)
  | fdiv (q : PReg) (dbl : Bool) (rm : Rm) (d a : GReg) (b : Src)
  | fsqrt (q : PReg) (dbl : Bool) (rm : Rm) (d a : GReg)
  | fabs (q : PReg) (t : FpTy) (d a : GReg)
  | fneg (q : PReg) (t : FpTy) (d a : GReg)
  | frcp (q : PReg) (dbl : Bool) (d a : GReg)
  | frsq (q : PReg) (dbl : Bool) (d a : GReg)
  | fex2 (q : PReg) (d a : GReg)
  | flg2 (q : PReg) (d a : GReg)
  | fsin (q : PReg) (d a : GReg)
  | fcos (q : PReg) (d a : GReg)
  | ffloor (q : PReg) (dbl : Bool) (d a : GReg)
  | fceil (q : PReg) (dbl : Bool) (d a : GReg)
  | ftrunc (q : PReg) (dbl : Bool) (d a : GReg)
  | frint (q : PReg) (dbl : Bool) (rm : Rm) (d a : GReg)
  | fcopysign (q : PReg) (dbl : Bool) (d a : GReg) (b : Src)
  | fsetp (q : PReg) (dbl : Bool) (c : FCond) (d : PReg) (a : GReg) (b : Src)
  | fclass (q : PReg) (dbl : Bool) (d a : GReg)
  -- conversions (R263 to R269)
  | cvt (q : PReg) (rm : Rm) (dt st : CvtTy) (d a : GReg)
  | cvtSr (q : PReg) (dt : Fmt) (pos : BitVec 3) (d a : GReg)
  | srseed (q : PReg) (b : Src)
  | pack (q : PReg) (rm : Rm) (it : Bool) (dt : Fmt) (pos : BitVec 3) (d a : GReg)
  | unpack (q : PReg) (rm : Rm) (it : Bool) (st : Fmt) (pos : BitVec 3) (d a : GReg)
  | dp4 (q : PReg) (f : Dp4Form) (d a : GReg) (b : Src) (c : GReg)
  | dp8 (q : PReg) (f : Dp8Form) (d a : GReg) (b : Src) (c : GReg)
  | fscale (q : PReg) (dbl : Bool) (rm : Rm) (pos : BitVec 3) (d a : GReg) (b : Src)
  -- loads and stores (R277 to R283)
  | ld (q : PReg) (sz : BitVec 3) (sx : Bool) (d : GReg) (m : MemOp)
  | ldAcq (q : PReg) (sc : Scope) (sz : BitVec 3) (sx : Bool) (d : GReg) (m : MemOp)
  | ldQ (q : PReg) (sz : BitVec 3) (d : GReg) (a : QReg)
  | st (q : PReg) (sz : BitVec 3) (m : MemOp) (b : Src)
  | stRel (q : PReg) (sc : Scope) (sz : BitVec 3) (m : MemOp) (b : Src)
  | stNt (q : PReg) (sz : BitVec 3) (m : MemOp) (b : Src)
  | stQ (q : PReg) (sz : BitVec 3) (a : QReg) (b : Src)
  | drainNt (q : PReg)
  | prefetchL1 (q : PReg) (m : MemOp)
  | prefetchL2 (q : PReg) (m : MemOp)
  -- views (R284)
  | viewDefG (q : PReg) (slot : BitVec 8) (k : BitVec 3)
  | viewDefX (q : PReg) (slot : BitVec 8) (k : BitVec 3)
  | viewDel (q : PReg) (slot : BitVec 8)
  | viewQ (q : PReg) (k : BitVec 3) (slot : BitVec 8) (half : Bool)
  -- atomics and reductions (R285 to R289)
  | atomExch (q : PReg) (x : AtomArgs)
  | atomCas (q : PReg) (x : AtomArgs)
  | atomAdd (q : PReg) (x : AtomArgs)
  | atomAnd (q : PReg) (x : AtomArgs)
  | atomOr (q : PReg) (x : AtomArgs)
  | atomXor (q : PReg) (x : AtomArgs)
  | atomMinI (q : PReg) (x : AtomArgs)
  | atomMinN (q : PReg) (x : AtomArgs)
  | atomMaxI (q : PReg) (x : AtomArgs)
  | atomMaxN (q : PReg) (x : AtomArgs)
  | atomFadd (q : PReg) (x : AtomArgs)
  | atomInc (q : PReg) (x : AtomArgs)
  | atomDec (q : PReg) (x : AtomArgs)
  | redAdd (q : PReg) (x : RedArgs)
  | redAnd (q : PReg) (x : RedArgs)
  | redOr (q : PReg) (x : RedArgs)
  | redXor (q : PReg) (x : RedArgs)
  | redMinI (q : PReg) (x : RedArgs)
  | redMinN (q : PReg) (x : RedArgs)
  | redMaxI (q : PReg) (x : RedArgs)
  | redMaxN (q : PReg) (x : RedArgs)
  | redFadd (q : PReg) (x : RedArgs)
  -- fences, barriers, hitches (R290 to R294)
  | fence (q : PReg) (sc : Scope)
  | barBlk (q : PReg)
  | barGrp (q : PReg)
  | barGrid (q : PReg)
  | hitchDecl (q : PReg) (h : Reg4) (b : Src) (mask : BitVec 8)
  | hitchSign (q : PReg) (h : Reg4)
  | pfoldAnd (q : PReg) (h : Reg4) (d a : PReg)
  | pfoldOr (q : PReg) (h : Reg4) (d a : PReg)
  | pcount (q : PReg) (h : Reg4) (d : GReg) (a : PReg)
  | prank (q : PReg) (h : Reg4) (d : GReg) (a : PReg)
  | agree (q : PReg) (h : Reg4) (d : PReg) (a : GReg)
  | pbits (q : PReg) (h : Reg4) (d : GReg) (a : PReg) (w : BitVec 5)
  | cycle (q : PReg) (h : Reg4) (d a : GReg) (b : Src)
  | xrank (q : PReg) (h : Reg4) (d a : GReg) (b : Src)
  | foldAdd (q : PReg) (h : Reg4) (d a : GReg)
  | scanAdd (q : PReg) (h : Reg4) (d a : GReg)
  | foldMinI (q : PReg) (h : Reg4) (d a : GReg)
  | foldMaxI (q : PReg) (h : Reg4) (d a : GReg)
  -- queues (R295 to R299)
  | enq (q : PReg) (x : QueueArgs)
  | deq (q : PReg) (x : QueueArgs)
  | enqTry (q : PReg) (x : QueueArgs)
  | deqTry (q : PReg) (x : QueueArgs)
  | qbindQueue (q : PReg) (d : QReg) (m : MemOp)
  | qbindCopy (q : PReg) (d : QReg)
  | qbindGather (q : PReg) (d : QReg) (k : BitVec 4)
  | qunbind (q : PReg) (d : QReg)
  | qstat (q : PReg) (d : YReg) (a : QReg)
  | wait (q : PReg) (nl ns na nt : BitVec 6)
  -- tiles and matrices (R307 to R320)
  | tcfg (q : PReg) (d : Reg4) (b : Src)
  | tld (q : PReg) (h : Reg4) (d : Reg4) (m : MemOp12) (b : Src)
  | tst (q : PReg) (h : Reg4) (d : Reg4) (m : MemOp12) (b : Src)
  | tmov (q : PReg) (h : Reg4) (t : Bool) (rm : Rm) (d a : Reg4)
  | tzero (q : PReg) (h : Reg4) (d : Reg4) (n : BitVec 2)
  | mma (q : PReg) (x : MmaArgs)
  | mmaSp (q : PReg) (x : MmaArgs)
  | mmaSpt (q : PReg) (x : MmaArgs)
  | mfactLu (q : PReg) (x : FactArgs)
  | mfactChol (q : PReg) (x : FactArgs)
  | mfactQr (q : PReg) (x : FactArgs)
  | mtrsm (q : PReg) (x : TrsmArgs)
  | accLdTile (q : PReg) (h : Reg4) (ct : CellTy) (d : Reg4) (b : Src)
  | accLdMem (q : PReg) (h : Reg4) (ct : CellTy) (f : Fmt) (d : GReg) (m : MemOp12) (b : Src)
  | accStTile (q : PReg) (h : Reg4) (ct : CellTy) (d : Reg4) (b : Src)
  | accStMem (q : PReg) (h : Reg4) (ct : CellTy) (f : Fmt) (d : GReg) (m : MemOp12) (b : Src)
  | accSnap (q : PReg) (h : Reg4) (ct : CellTy) (d : GReg) (a : Reg4) (b : Src)
  | accZero (q : PReg) (h : Reg4) (ct : CellTy) (b : Src)
  | pmLd (q : PReg) (h : Reg4) (d : PmReg) (m : MemOp12)
  | pmSt (q : PReg) (h : Reg4) (d : PmReg) (m : MemOp12)
  | pmApply (q : PReg) (h : Reg4) (ct : CellTy) (d : PmReg) (b : Src)
  | pmApplyInv (q : PReg) (h : Reg4) (ct : CellTy) (d : PmReg) (b : Src)
  -- engines (R321 to R326)
  | copy (q : PReg) (x : CopyArgs)
  | copyMc (q : PReg) (x : CopyArgs) (m : GReg)
  | ftest (q : PReg) (d a : GReg)
  | fcancel (q : PReg) (a : GReg)
  | relay (q : PReg) (d : GReg) (m : MemOp)
  | join (q : PReg) (a : GReg)
  -- system (R327 to R331)
  | nop (q : PReg)
  | trap (q : PReg) (code : BitVec 8)
  | brk (q : PReg) (code : BitVec 8)
  | commit (q : PReg) (x : HintArgs)
  | phint (q : PReg) (x : HintArgs)
  | sleep (q : PReg) (n : BitVec 16)
  /-- majors 0x7e and 0x7f, permanently illegal (R222): the major's low bit and the other 25 bits -/
  | illegalMajor (x : Bool) (a : BitVec 25)
  -- device steps: issue and hitches
  | stringIssue (core picker : Nat)
  | sleepExpiry (th : ThreadId)
  | hitchFireComplete (blk : Nat) (wheel : Bool) (h : Reg4)
  -- device steps: memory system
  | loadReturn (id : Nat)
  | storeAccept (id : Nat)
  | releaseComplete (id : Nat)
  | writeBack (id : Nat)
  | invalidation (id agent : Nat)
  | invalidationAck (id agent : Nat)
  | l1Eviction (core line : Nat)
  | evictionNotice (agent line : Nat)
  | directoryDrop (line : Nat)
  | discovery (line : Nat)
  | l2ReadRequest (id : Nat)
  | atomicAtHome (id : Nat)
  | updateLineMerge (core line : Nat)
  | remoteAccess (id : Nat)
  | ntStoreAck (id : Nat)
  | hostAccess (write : Bool) (pa : BitVec 56) (sz : BitVec 2) (data : DWord)
  | viewLineCompose (id : Nat)
  | viewStoreCheck (id : Nat)
  | viewStoreScatter (id : Nat)
  | viewStoreAck (id : Nat)
  -- device steps: queues and engines
  | queueRequest (id : Nat)
  | queueRequestResend (id : Nat)
  | queueWithdrawal (id : Nat)
  | queueRequestComplete (id : Nat)
  | gatherRowReturn (id : Nat)
  | copyChunk (die engine : Nat)
  | copyComplete (id : Nat)
  | copyCommandRead (id : Nat)
  -- device steps: relay records, launches, blocks
  | joinDecrement (part : BitVec 6) (handle : DWord)
  | relayPost (id : Nat)
  | launchPacket (vf q : Nat)
  | launchExpansion (launch die : Nat)
  | recordGenerationResume (launch die : Nat)
  | blockAdmission (bulkhead : Nat)
  | blockSave (blk : Nat)
  | blockSaveComplete (blk : Nat)
  | blockRestore (bulkhead : Nat)
  | blockRetire (blk : Nat)
  | launchComplete (launch : Nat)
  | preemptTimeout (blk : Nat)
  | storeFault (th : ThreadId) (cause : BitVec 8) (addr : DWord) (pc : Word)
  | readAheadDiscard (pa : BitVec 56)
  | containedRelaunch (blk : Nat)
  | commitStoreRelease (blk : Nat)
  | signatureCompare (blk team : Nat)
  | loadValueEntry (id : Nat)
  -- device steps: matrix array
  | pendingMatrixOpBegin (blk : Nat) (wheel : Bool) (id : Nat)
  | matrixOpComplete (blk : Nat) (wheel : Bool) (id : Nat)
  | factorisationColumn (blk : Nat) (wheel : Bool)
  -- device steps: translation, faults, host commands
  | pageWalk (walker : Walker) (va : DWord) (write : Bool)
  | faultRecordPost (part : BitVec 6)
  | sqtailWrite (vf q : Nat) (v : Word)
  | sqctlWrite (vf q : Nat) (v : Word)
  | preempt (fn : Fn) (arg : DWord)
  | resume (fn : Fn) (arg : DWord)
  | cancel (fn : Fn) (arg : DWord)
  | trapreplyRetry (fn : Fn) (arg : DWord)
  | trapreplySkip (fn : Fn) (arg : DWord)
  | trapreplyKill (fn : Fn) (arg : DWord)
  | codeinval (fn : Fn)
  | objlive (fn : Fn) (arg : DWord)
  | objunload (fn : Fn) (arg : DWord)
  | objfree (fn : Fn) (arg : DWord)
  | objectLoad (r : LoadRequest)
  | ractlWrite (part : BitVec 6) (die : Nat) (v : Word)
  | relayAreaFillComplete (part : BitVec 6) (die : Nat)
  | vtbaseWrite (part : BitVec 6) (v : DWord)
  | viewTableFillComplete (part : BitVec 6)
  | prtbaseWrite (part : BitVec 6) (ctl : Bool) (v : DWord)
  | prinv (part : BitVec 6) (v : Word)
  | tlbinv (part : BitVec 6) (v : DWord)
  | invalidationComplete (part : BitVec 6)
  | ringHeadWrite (r : Ring) (v : Word)
  | ringCtlWrite (r : Ring) (v : Word)
  -- device steps: bulkheads, partitions, windows, gangs, keys
  | bulkheadReset (b : Nat)
  | bulkheadResetDone (b : Nat) (ok : Bool)
  | bulkheadHwFault (b : Nat)
  | partitionChange (b : Nat) (assigned : Bool) (part : BitVec 6)
  | frameownWrite (v : Word)
  | frameownChangeComplete (frame : Nat)
  | windowEntryStage (part : BitVec 6) (w : Nat) (hi : DWord)
  | windowEntryInstall (part : BitVec 6) (w : Nat) (lo : DWord)
  | sliceEntryStage (e : BitVec 6) (lo : DWord)
  | sliceEntryInstall (e : BitVec 6) (hi : DWord)
  | gangSliceStart (e : BitVec 6)
  | gangReady (e : BitVec 6) (pkg : BitVec 14)
  | gangGraceExpiry (e : BitVec 6)
  | gangSliceEnd (e : BitVec 6)
  | keyLoad (slot : BitVec 9)
  | keyClear (slot : BitVec 9)
  | injWrite (v : BitVec 128)
  | registerWrite (fn : Fn) (off : BitVec 16) (v : DWord)
  -- device steps: reliability, boot, management
  | scrubSector (controller sector : Nat) (found : ScrubFinding)
  | linkRetry (die link : Nat) (ok : Bool)
  | linkRetraining (die link : Nat)
  | telemetrySample (power : Nat) (temps : List Nat)
  | heartbeatMiss (pkg : BitVec 14)
  | agentLoss (agent : BitVec 6)
  | agentRejoin (agent : BitVec 6)
  | directorySweep (home : Nat) (agent : BitVec 6)
  | coldReset
  | getVersion
  | getCapabilities
  | negotiateAlgorithms (algs : Word)
  | getDigests
  | getCertificate (slot : BitVec 3) (off len : BitVec 16)
  | challenge (nonce : BitVec 256)
  | getMeasurements (nonce : BitVec 256)
  | keyExchange (pub : BitVec 768)
  | finish (verify : BitVec 384)
  | pendingResultWritten (th : ThreadId) (i : Nat)
  | memoryBulkheadFatal (die : Nat)
  | keySlotBusyClear
  | commandTakesEffect (fn : Fn)
  | vendorDefinedMessage (body : List Byte)
deriving DecidableEq, Repr, Inhabited

end Sys2Proof
end

