-- ==== Sys2Proof/WellFormed.lean ====
section
/-! DEFINITION. When the operands of an instruction word are ones its encoding admits: alignment of pairs and quads (R208,
R220), values that a MOD subfield or an immediate may not take (R221 with the rule of each instruction). A word whose
fields fail these checks is an encoding fault. The register set of a shape (R49) is no part of them: it is checked at issue. -/

namespace Sys2Proof

/-- An even register number: the name of a pair (R220). -/
def GReg.pair (r : GReg) : Bool := r.extractLsb' 0 1 == 0
/-- A multiple of 4: the name of a quad (R220). -/
def GReg.quad (r : GReg) : Bool := r.extractLsb' 0 2 == 0
/-- A multiple of 8 (R295). -/
def GReg.oct (r : GReg) : Bool := r.extractLsb' 0 3 == 0

/-- A yoke pair or a yoke quad. -/
def YReg.pair (r : YReg) : Bool := r.extractLsb' 0 1 == 0
def YReg.quad (r : YReg) : Bool := r.extractLsb' 0 2 == 0

/-- Alignment of operand B as a pair, in either register class (R220). -/
def Src.pair : Src → Bool
  | .g r => r.pair
  | .y r => r.pair
/-- Alignment of operand B as a quad. -/
def Src.quad : Src → Bool
  | .g r => r.quad
  | .y r => r.quad

/-- Alignment of a register that an access of 2^sz bytes names (R278): any, pair or quad. -/
def sizedG (sz : BitVec 3) (r : GReg) : Bool :=
  match sz.toNat with
  | 0 | 1 | 2 => true
  | 3 => r.pair
  | 4 => r.quad
  | _ => false
/-- The same for the source of a store. -/
def sizedSrc (sz : BitVec 3) (b : Src) : Bool :=
  match sz.toNat with
  | 0 | 1 | 2 => true
  | 3 => b.pair
  | 4 => b.quad
  | _ => false

/-- Elements of a format in a packed register (R251). -/
def Fmt.packed : Fmt → Nat
  | .fp16 | .bf16 => 2
  | .e4m3 | .e5m2 | .e3m2 | .e2m3 | .e8m0 | .int8 | .n8 => 4
  | .e2m1 | .int4 | .n4 => 8
  | _ => 0

/-- A register operand of a scalar of 64 bits when `dbl` (R250). -/
def dblG (dbl : Bool) (r : GReg) : Bool := !dbl || r.pair
def dblSrc (dbl : Bool) (b : Src) : Bool := !dbl || b.pair
/-- The same by type (R253). -/
def FpTy.dbl : FpTy → Bool
  | .f64 => true
  | _ => false
/-- Whether a `cvt` operand is a pair (R263). -/
def CvtTy.dbl : CvtTy → Bool
  | .f64 => true
  | _ => false

/-- Position and length of a bit field: an immediate length above 32 is an encoding fault (R234). -/
def BfArg.wf : BfArg → Bool
  | .imm _ len => len.toNat ≤ 32
  | .reg _ => true

/-- Whether a compare reads pairs (R235). -/
def SetpOp.wide : SetpOp → Bool
  | .i64 _ | .n64 _ => true
  | _ => false
/-- `.eq` and `.ne` on unsigned types are encoded as the signed ones (R225). -/
def SetpOp.wf : SetpOp → Bool
  | .n32 c | .n64 c => c != .eq && c != .ne
  | _ => true

/-- Loads of 1 or 2 bytes may sign-extend (R277). -/
def sxOk (sz : BitVec 3) (sx : Bool) : Bool := !sx || decide (sz.toNat < 2)

/-- Operands of an atomic (R286): pairs for 64 bits. -/
def AtomArgs.wf (x : AtomArgs) : Bool := x.mem.base.pair && dblG x.wide x.d && dblSrc x.wide x.b
/-- Operands of `.cas` (R286): B names two operands. -/
def AtomArgs.wfCas (x : AtomArgs) : Bool :=
  x.mem.base.pair && dblG x.wide x.d && (if x.wide then x.b.quad else x.b.pair)
/-- `.inc` and `.dec` have 32 bits only (Table 12.6). -/
def AtomArgs.wf32 (x : AtomArgs) : Bool := x.wf && !x.wide
def RedArgs.wf (x : RedArgs) : Bool := x.mem.base.pair && dblSrc x.wide x.b

/-- Operands of a queue operation (R295). -/
def QueueArgs.wf (x : QueueArgs) : Bool :=
  x.mem.base.pair &&
  match x.esz.toNat with
  | 0 => true
  | 1 => x.b.pair
  | 2 => x.b.quad
  | 3 | 4 | 5 => x.b.oct
  | _ => false

/-- M code 3 is unassigned; P is 0 in `mma` and below 3 in the sparse forms (Table 13.3). -/
def MmaArgs.wf (x : MmaArgs) (sparse : Bool) : Bool := x.mf != 3 && (if sparse then x.p != 3 else x.p == 0)
def FactArgs.wf (x : FactArgs) : Bool := x.d.pair && x.o.pair
def TrsmArgs.wf (x : TrsmArgs) : Bool := x.d.pair && x.o.pair
/-- A copy's first coordinate, scratch pair and successor pair (Table 13.7). -/
def CopyArgs.wf (x : CopyArgs) : Bool := x.a.quad && x.b.pair && (match x.c with | some c => c.pair | none => true)
def HintArgs.wf (x : HintArgs) : Bool := match x.k with | some k => k.pair | none => true

/-- The operand checks of every instruction word; the device steps have none. -/
def Instr.wf : Instr → Bool
  | .shli _ _ _ i | .shri _ _ _ i | .sari _ _ _ i => i.toNat < 32
  | .madWideI32 _ d _ _ c | .madWideN32 _ d _ _ c => d.pair && c.pair
  | .bfeI32 _ _ _ x | .bfeN32 _ _ _ x | .bfi _ _ _ _ x => x.wf
  | .setp _ op _ a b =>
    op.wf && (!op.wide || (a.pair && match b with | .src b => b.pair | .imm _ => true))
  | .movs _ d .clock => d.pair
  | .ymov _ w d b => !w || (d.pair && b.pair)
  | .yadd _ w d a b => !w || (d.pair && a.pair && b.pair)
  | .yaddi _ w d a _ => !w || (d.pair && a.pair)
  | .addI64 _ d a b | .subI64 _ d a b | .minN64 _ d a b | .maxN64 _ d a b => d.pair && a.pair && b.pair
  | .addiI64 _ d a _ | .lea _ _ _ d a _ _ | .shlI64 _ d a _ | .shrI64 _ d a _ | .sarI64 _ d a _ => d.pair && a.pair
  | .fadd _ t _ d a b | .fsub _ t _ d a b | .fmul _ t _ d a b | .fmin _ t d a b | .fmax _ t d a b =>
    dblG t.dbl d && dblG t.dbl a && dblSrc t.dbl b
  | .fma _ t _ d a b c => dblG t.dbl d && dblG t.dbl a && dblSrc t.dbl b && dblG t.dbl c
  | .fabs _ t d a | .fneg _ t d a => dblG t.dbl d && dblG t.dbl a
  | .fdiv _ w _ d a b | .fcopysign _ w d a b => dblG w d && dblG w a && dblSrc w b
  | .fsqrt _ w _ d a | .frcp _ w d a | .frsq _ w d a | .ffloor _ w d a | .fceil _ w d a | .ftrunc _ w d a
  | .frint _ w _ d a => dblG w d && dblG w a
  | .fsetp _ w _ _ a b => dblG w a && dblSrc w b
  | .fclass _ w _ a => dblG w a
  | .cvt _ _ dt sy d a => dt != sy && dblG dt.dbl d && dblG sy.dbl a
  | .cvtSr _ dt pos _ _ =>
    (match dt with | .fp16 | .bf16 | .e4m3 | .e5m2 | .e3m2 | .e2m3 | .e2m1 => true | _ => false) && decide (pos.toNat < dt.packed)
  | .pack _ _ _ dt pos _ _ => decide (pos.toNat < dt.packed)
  | .unpack _ _ _ sy pos _ _ => decide (pos.toNat < sy.packed)
  | .fscale _ w _ pos d a _ => decide (pos.toNat < 4) && dblG w d && dblG w a
  | .ld _ sz sx d m | .ldAcq _ _ sz sx d m => sxOk sz sx && sizedG sz d && m.base.pair
  | .ldQ _ sz d _ => sizedG sz d
  | .st _ sz m b | .stNt _ sz m b | .stRel _ _ sz m b => sizedSrc sz b && m.base.pair
  | .stQ _ sz _ b => sizedSrc sz b
  | .prefetchL1 _ m | .prefetchL2 _ m | .qbindQueue _ _ m => m.base.pair
  | .relay _ d m => d.pair && m.base.pair
  | .atomExch _ x | .atomAdd _ x | .atomAnd _ x | .atomOr _ x | .atomXor _ x | .atomMinI _ x | .atomMinN _ x
  | .atomMaxI _ x | .atomMaxN _ x | .atomFadd _ x => x.wf
  | .atomCas _ x => x.wfCas
  | .atomInc _ x | .atomDec _ x => x.wf32
  | .redAdd _ x | .redAnd _ x | .redOr _ x | .redXor _ x | .redMinI _ x | .redMinN _ x | .redMaxI _ x | .redMaxN _ x
  | .redFadd _ x => x.wf
  | .enq _ x | .deq _ x | .enqTry _ x | .deqTry _ x => x.wf
  | .tld _ _ _ m _ | .tst _ _ _ m _ | .pmLd _ _ _ m | .pmSt _ _ _ m => m.base.pair
  | .accLdMem _ _ _ _ _ m _ | .accStMem _ _ _ _ _ m _ => m.base.pair
  | .tzero _ _ _ n => n != 3
  | .mma _ x => x.wf false
  | .mmaSp _ x | .mmaSpt _ x => x.wf true
  | .mfactLu _ x | .mfactChol _ x | .mfactQr _ x => x.wf
  | .mtrsm _ x => x.wf
  | .copy _ x | .copyMc _ x _ => x.wf
  | .ftest _ d a => d != a
  | .join _ a => a.pair
  | .commit _ x | .phint _ x => x.wf
  | _ => true

end Sys2Proof
end

