-- ==== Sys2Proof/Decode.lean ====
section
/-! DEFINITION. Instruction words to instructions and back (file 09, Tables 9.7 to 9.10, with the field tables of files 10
to 13). `decode` is total on any list of words and refuses by name; `encode` is written from the same tables. -/

namespace Sys2Proof

/-- Why a word is no instruction: every one of these is an encoding fault of R221 (`short`: the second word is missing). -/
inductive DecodeError where
  /-- a major that Table 9.9 does not assign -/
  | major
  /-- an XOP that Table 9.9 does not assign -/
  | xop
  /-- a MOD value without meaning, a non-zero reserved or unused field, or a field outside its register class -/
  | field
  /-- an operand that `Instr.wf` refuses -/
  | operand
  | short
deriving DecidableEq, Repr

/-- The bit fields of an instruction by format: `one` G, `imm` I, `term` T (with the illegal majors), `two` X, `lit` L. -/
inductive Enc where
  | one (maj d a b : BitVec 7) (yb : Bool) (q : PReg)
  | imm (maj d a : BitVec 7) (i : BitVec 8) (q : PReg)
  | term (maj : BitVec 7) (body : BitVec 22) (q : PReg)
  | two (maj d a b : BitVec 7) (yb : Bool) (q : PReg) (xop md : BitVec 8) (low : BitVec 16)
  | lit (maj d a b : BitVec 7) (yb : Bool) (q : PReg) (v : Word)
deriving DecidableEq, Repr

/-- The formats of Tables 9.7 and 9.8. -/
inductive Format where
  | g | i | t | x | l
deriving DecidableEq, Repr

/-- The format of a major (Table 9.9); none where the major is unassigned. Majors 0x7e and 0x7f are one-word (R222). -/
def formatOf (maj : BitVec 7) : Option Format :=
  let n := maj.toNat
  if n ≤ 0x13 then some .g
  else if n ≤ 0x1a then some .i
  else if n ≤ 0x20 then some .x
  else if n = 0x21 then some .g
  else if n = 0x22 then some .l
  else if n = 0x23 then some .i
  else if n ≤ 0x25 then some .x
  else if n < 0x30 then none
  else if n ≤ 0x37 then some .t
  else if n < 0x40 then none
  else if n = 0x47 then some .g
  else if n ≤ 0x4c then some .x
  else if n < 0x60 then none
  else if n = 0x62 then some .g
  else if n ≤ 0x64 then some .x
  else if n < 0x70 then none
  else if n ≤ 0x7d then some .x
  else some .t

/-- The major of a word, bits 31:25 (R219). -/
def majorOf (w : Word) : BitVec 7 := w.extractLsb' 25 7

/-- Whether an instruction that begins with this word has a second word (R214, R219): unassigned majors have one. -/
def isTwoWord (w : Word) : Bool :=
  match formatOf (majorOf w) with
  | some .x | some .l => true
  | _ => false

/-- The bits of an instruction as words, the first first (Tables 9.7, 9.8). -/
def Enc.words : Enc → List Word
  | .one maj d a b yb q => [maj ++ d ++ a ++ b ++ BitVec.ofBool yb ++ q]
  | .imm maj d a i q => [maj ++ d ++ a ++ i ++ q]
  | .term maj body q => [maj ++ body ++ q]
  | .two maj d a b yb q xop md low => [maj ++ d ++ a ++ b ++ BitVec.ofBool yb ++ q, xop ++ md ++ low]
  | .lit maj d a b yb q v => [maj ++ d ++ a ++ b ++ BitVec.ofBool yb ++ q, v]

/-- The fields of the instruction at the head of a list of words, and the words after it. -/
def Enc.ofWords : List Word → Except DecodeError (Enc × List Word)
  | [] => .error .short
  | w :: rest =>
    let maj := majorOf w
    let d : BitVec 7 := w.extractLsb' 18 7
    let a : BitVec 7 := w.extractLsb' 11 7
    let b : BitVec 7 := w.extractLsb' 4 7
    let yb : Bool := w.getLsbD 3
    let q : PReg := w.extractLsb' 0 3
    match formatOf maj with
    | none => .error .major
    | some .g => .ok (.one maj d a b yb q, rest)
    | some .i => .ok (.imm maj d a (w.extractLsb' 3 8) q, rest)
    | some .t => .ok (.term maj (w.extractLsb' 3 22) q, rest)
    | some .x =>
      match rest with
      | [] => .error .short
      | v :: rest => .ok (.two maj d a b yb q (v.extractLsb' 24 8) (v.extractLsb' 16 8) (v.extractLsb' 0 16), rest)
    | some .l =>
      match rest with
      | [] => .error .short
      | v :: rest => .ok (.lit maj d a b yb q v, rest)

/-! Fields to operands. Each answers none where the field is outside its register class or a reserved bit is set (R220). -/

/-- `x` when the check holds. -/
def when {α : Type} (c : Bool) (x : α) : Option α := if c then some x else none

def pField (x : BitVec 7) : Option PReg := when (x.extractLsb' 3 4 == 0) (x.extractLsb' 0 3)
def yField (x : BitVec 7) : Option YReg := when (x.extractLsb' 6 1 == 0) (x.extractLsb' 0 6)
def qField (x : BitVec 7) : Option QReg := when (x.extractLsb' 3 4 == 0) (x.extractLsb' 0 3)
def r4Field (x : BitVec 7) : Option Reg4 := when (x.extractLsb' 4 3 == 0) (x.extractLsb' 0 4)
def pmField (x : BitVec 7) : Option PmReg := when (x.extractLsb' 2 5 == 0) (x.extractLsb' 0 2)
/-- A yoke register field that names y8k (R284). -/
def y8Field (x : BitVec 7) : Option (BitVec 3) := when (x.extractLsb' 6 1 == 0 && x.extractLsb' 0 3 == 0) (x.extractLsb' 3 3)
/-- A yoke register field that names y4k (Table 12.9). -/
def y4Field (x : BitVec 7) : Option (BitVec 4) := when (x.extractLsb' 6 1 == 0 && x.extractLsb' 0 2 == 0) (x.extractLsb' 2 4)
/-- Six low bits with the top bit zero (R299). -/
def six (x : BitVec 7) : Option (BitVec 6) := when (x.extractLsb' 6 1 == 0) (x.extractLsb' 0 6)

/-- Operand B with YB (R220). -/
def srcField (yb : Bool) (b : BitVec 7) : Option Src := if yb then (yField b).map .y else some (.g b)
/-- LOW holding C in bits 15:9 with bits 8:0 zero (Table 9.8). -/
def cField (low : BitVec 16) : Option GReg := when (low.extractLsb' 0 9 == 0) (low.extractLsb' 9 7)
/-- LOW holding a hitch in bits 15:12 with bits 11:0 zero. -/
def hField (low : BitVec 16) : Option Reg4 := when (low.extractLsb' 0 12 == 0) (low.extractLsb' 12 4)
/-- Fields B and YB unused. -/
def noB (yb : Bool) (b : BitVec 7) : Bool := !yb && b == 0

def Rm.code : Rm → BitVec 2
  | .rne => 0 | .rz => 1 | .ru => 2 | .rd => 3
def Rm.ofCode (x : BitVec 2) : Rm :=
  match x.toNat with
  | 0 => .rne | 1 => .rz | 2 => .ru | _ => .rd

/-- Table 7.1. -/
def Fmt.code : Fmt → BitVec 4
  | .none => 0 | .fp64 => 1 | .fp32 => 2 | .fp16 => 3 | .bf16 => 4 | .e4m3 => 5 | .e5m2 => 6 | .e3m2 => 7
  | .e2m3 => 8 | .e2m1 => 9 | .e8m0 => 10 | .int8 => 11 | .n8 => 12 | .int4 => 13 | .n4 => 14 | .int32 => 15
def Fmt.ofCode (x : BitVec 4) : Fmt :=
  match x.toNat with
  | 0 => .none | 1 => .fp64 | 2 => .fp32 | 3 => .fp16 | 4 => .bf16 | 5 => .e4m3 | 6 => .e5m2 | 7 => .e3m2
  | 8 => .e2m3 | 9 => .e2m1 | 10 => .e8m0 | 11 => .int8 | 12 => .n8 | 13 => .int4 | 14 => .n4 | _ => .int32

/-- Table 11.7. -/
def CvtTy.code : CvtTy → BitVec 4
  | .n32 => 0 | .f64 => 1 | .f32 => 2 | .f16 => 3 | .bf16 => 4 | .i32 => 15
def CvtTy.ofCode (x : BitVec 4) : Option CvtTy :=
  match x.toNat with
  | 0 => some .n32 | 1 => some .f64 | 2 => some .f32 | 3 => some .f16 | 4 => some .bf16 | 15 => some .i32 | _ => none

/-- Scope codes of Table 12.1. -/
def Scope.code : Scope → BitVec 3
  | .blk => 0 | .grp => 1 | .dev => 2 | .dom => 3 | .sys => 4
def Scope.ofCode (x : BitVec 3) : Option Scope :=
  match x.toNat with
  | 0 => some .blk | 1 => some .grp | 2 => some .dev | 3 => some .dom | 4 => some .sys | _ => none
/-- Scope codes of Table 12.8: 0 is the scope of the queue control block. -/
def scopeOptCode : Option Scope → BitVec 3
  | none => 0 | some .blk => 1 | some .grp => 2 | some .dev => 3 | some .dom => 4 | some .sys => 5
def scopeOptOfCode (x : BitVec 3) : Option (Option Scope) :=
  match x.toNat with
  | 0 => some none | 1 => some (some .blk) | 2 => some (some .grp) | 3 => some (some .dev) | 4 => some (some .dom)
  | 5 => some (some .sys) | _ => none

def Ord.code : Ord → BitVec 2
  | .relaxed => 0 | .acq => 1 | .rel => 2 | .acqrel => 3
def Ord.ofCode (x : BitVec 2) : Ord :=
  match x.toNat with
  | 0 => .relaxed | 1 => .acq | 2 => .rel | _ => .acqrel

/-- Selectors of Table 2.3. -/
def Special.code : Special → BitVec 8
  | .tid => 0 | .team => 1 | .block => 2 | .grp => 3 | .launch => 4 | .stage => 5 | .core => 6 | .cluster => 7
  | .bulkhead => 8 | .die => 9 | .chip => 10 | .clock => 11 | .fpflags => 12
def Special.ofCode (x : BitVec 8) : Option Special :=
  match x.toNat with
  | 0 => some .tid | 1 => some .team | 2 => some .block | 3 => some .grp | 4 => some .launch | 5 => some .stage
  | 6 => some .core | 7 => some .cluster | 8 => some .bulkhead | 9 => some .die | 10 => some .chip | 11 => some .clock
  | 12 => some .fpflags | _ => none

/-- Compare XOPs of Table 10.6. -/
def SetpOp.code : SetpOp → BitVec 8
  | .i32 .eq => 0x00 | .i32 .ne => 0x01 | .i32 .lt => 0x02 | .i32 .le => 0x03 | .i32 .gt => 0x04 | .i32 .ge => 0x05
  | .tst => 0x06
  | .n32 .lt => 0x08 | .n32 .le => 0x09 | .n32 .gt => 0x0a | .n32 .ge => 0x0b
  | .i64 .eq => 0x10 | .i64 .ne => 0x11 | .i64 .lt => 0x12 | .i64 .le => 0x13 | .i64 .gt => 0x14 | .i64 .ge => 0x15
  | .n64 .lt => 0x18 | .n64 .le => 0x19 | .n64 .gt => 0x1a | .n64 .ge => 0x1b
  -- equality does not depend on signedness: R225 encodes these as the signed ones, and `SetpOp.wf` refuses them
  | .n32 .eq => 0x00 | .n32 .ne => 0x01 | .n64 .eq => 0x10 | .n64 .ne => 0x11
def SetpOp.ofCode (x : BitVec 8) : Option SetpOp :=
  match x.toNat with
  | 0x00 => some (.i32 .eq) | 0x01 => some (.i32 .ne) | 0x02 => some (.i32 .lt) | 0x03 => some (.i32 .le)
  | 0x04 => some (.i32 .gt) | 0x05 => some (.i32 .ge) | 0x06 => some .tst
  | 0x08 => some (.n32 .lt) | 0x09 => some (.n32 .le) | 0x0a => some (.n32 .gt) | 0x0b => some (.n32 .ge)
  | 0x10 => some (.i64 .eq) | 0x11 => some (.i64 .ne) | 0x12 => some (.i64 .lt) | 0x13 => some (.i64 .le)
  | 0x14 => some (.i64 .gt) | 0x15 => some (.i64 .ge)
  | 0x18 => some (.n64 .lt) | 0x19 => some (.n64 .le) | 0x1a => some (.n64 .gt) | 0x1b => some (.n64 .ge)
  | _ => none

/-- Conditions of Table 11.5 by position. -/
def FCond.code : FCond → BitVec 3
  | .eq => 0 | .lt => 1 | .le => 2 | .gt => 3 | .ge => 4 | .ne => 5 | .num => 6 | .nan => 7
def FCond.ofCode (x : BitVec 3) : FCond :=
  match x.toNat with
  | 0 => .eq | 1 => .lt | 2 => .le | 3 => .gt | 4 => .ge | 5 => .ne | 6 => .num | _ => .nan

/-- Forms of Table 11.8. -/
def Dp4Form.code : Dp4Form → BitVec 8
  | .i8 => 0 | .n8 => 1 | .i8n8 => 2 | .e4m3 => 3 | .e5m2 => 4
def Dp4Form.ofCode (x : BitVec 8) : Option Dp4Form :=
  match x.toNat with
  | 0 => some .i8 | 1 => some .n8 | 2 => some .i8n8 | 3 => some .e4m3 | 4 => some .e5m2 | _ => none
def Dp8Form.code : Dp8Form → BitVec 8
  | .i4 => 0 | .n4 => 1 | .i4n4 => 2 | .e2m1 => 3
def Dp8Form.ofCode (x : BitVec 8) : Option Dp8Form :=
  match x.toNat with
  | 0 => some .i4 | 1 => some .n4 | 2 => some .i4n4 | 3 => some .e2m1 | _ => none

/-- CT of R317. -/
def CellTy.code : CellTy → BitVec 2
  | .f32 => 0 | .f64 => 1 | .i32 => 2
def CellTy.ofCode (x : BitVec 2) : Option CellTy :=
  match x.toNat with
  | 0 => some .f32 | 1 => some .f64 | 2 => some .i32 | _ => none

/-- Type of majors 0x40 to 0x43. -/
def FpTy.major : FpTy → BitVec 7
  | .f32 => 0x40 | .f64 => 0x41 | .f16 => 0x42 | .bf16 => 0x43
def dblMajor (dbl : Bool) : BitVec 7 := if dbl then 0x41 else 0x40

/-! Encoding. -/

def Src.yb : Src → Bool
  | .g _ => false
  | .y _ => true
def Src.num : Src → BitVec 7
  | .g r => r
  | .y r => r.setWidth 7

def encG (maj : BitVec 7) (q : PReg) (d a : GReg) (b : Src) : Enc := .one maj d a b.num b.yb q
/-- Format X without a use of B. -/
def encX0 (maj : BitVec 7) (xop md : BitVec 8) (q : PReg) (d a : BitVec 7) (low : BitVec 16) : Enc :=
  .two maj d a 0 false q xop md low
/-- Format X with a source B. -/
def encXB (maj : BitVec 7) (xop md : BitVec 8) (q : PReg) (d a : BitVec 7) (b : Src) (low : BitVec 16) : Enc :=
  .two maj d a b.num b.yb q xop md low
def lowC (c : GReg) : BitVec 16 := c ++ (0 : BitVec 9)
def lowH (h : Reg4) : BitVec 16 := h ++ (0 : BitVec 12)
/-- MOD of Table 11.1. -/
def mdF (it : Bool) (pos : BitVec 3) (rm : Rm) : BitVec 8 := (0 : BitVec 2) ++ BitVec.ofBool it ++ pos ++ rm.code
def mdRm (rm : Rm) : BitVec 8 := mdF false 0 rm
/-- MOD of Table 12.1. -/
def mdMem (queue : Bool) (sc : BitVec 3) (sx : Bool) (sz : BitVec 3) : BitVec 8 :=
  BitVec.ofBool queue ++ sc ++ BitVec.ofBool sx ++ sz
/-- A flag in MOD bit 0. -/
def mdBit (i : Bool) : BitVec 8 := (0 : BitVec 7) ++ BitVec.ofBool i

def encBf (xop : BitVec 8) (q : PReg) (d a : GReg) (b : Src) (x : BfArg) : Enc :=
  match x with
  | .imm pos len => encXB 0x1d xop 1 q d a b ((0 : BitVec 5) ++ len ++ pos)
  | .reg c => encXB 0x1d xop 0 q d a b (lowC c)
def encShf (r : Bool) (q : PReg) (d a : GReg) (b : Src) (x : ShfArg) : Enc :=
  match x with
  | .imm n => encXB 0x1d 0x03 ((0 : BitVec 6) ++ BitVec.ofBool r ++ (1 : BitVec 1)) q d a b ((0 : BitVec 11) ++ n)
  | .reg c => encXB 0x1d 0x03 ((0 : BitVec 6) ++ BitVec.ofBool r ++ (0 : BitVec 1)) q d a b (lowC c)
def encSh64 (xop : BitVec 8) (q : PReg) (d a : GReg) (x : Sh64Arg) : Enc :=
  match x with
  | .imm n => encX0 0x25 xop 1 q d a ((0 : BitVec 10) ++ n)
  | .src b => encXB 0x25 xop 0 q d a b 0
def encAtom (xop : BitVec 8) (q : PReg) (x : AtomArgs) : Enc :=
  encXB 0x70 xop ((0 : BitVec 1) ++ x.scope.code ++ (0 : BitVec 1) ++ x.ord.code ++ BitVec.ofBool x.wide) q x.d x.mem.base x.b
    x.mem.off
def encRed (xop : BitVec 8) (q : PReg) (x : RedArgs) : Enc :=
  encXB 0x71 xop ((0 : BitVec 1) ++ x.scope.code ++ (0 : BitVec 3) ++ BitVec.ofBool x.wide) q 0 x.mem.base x.b x.mem.off
def encQueue (xop : BitVec 8) (q : PReg) (x : QueueArgs) : Enc :=
  .two 0x75 x.d x.mem.base x.b false q xop (BitVec.ofBool x.team ++ scopeOptCode x.scope ++ (0 : BitVec 1) ++ x.esz) x.mem.off
/-- The collectives of Table 12.7 without an operand B. -/
def encColl (xop md : BitVec 8) (q : PReg) (d a : BitVec 7) (h : Reg4) : Enc := encX0 0x74 xop md q d a (lowH h)
def encMma (xop : BitVec 8) (q : PReg) (x : MmaArgs) : Enc :=
  .two 0x79 x.row0 (x.a.setWidth 7) x.f.num x.f.yb q xop (x.mf ++ x.nf) (x.h ++ x.tb ++ x.col ++ x.p)
def encFact (xop : BitVec 8) (q : PReg) (x : FactArgs) : Enc :=
  encX0 0x7a xop ((0 : BitVec 4) ++ x.pm ++ BitVec.ofBool x.flag ++ BitVec.ofBool x.f64) q x.d x.o (lowH x.h)
/-- MOD of R317. -/
def mdCell (m : Bool) (ct : CellTy) (f : BitVec 4) : BitVec 8 := f ++ (0 : BitVec 1) ++ ct.code ++ BitVec.ofBool m
def lowH12 (h : Reg4) (off : BitVec 12) : BitVec 16 := h ++ off
def encCopy (xop : BitVec 8) (q : PReg) (x : CopyArgs) (m : BitVec 7) : Enc :=
  .two 0x7c x.d x.a x.b false q xop ((0 : BitVec 4) ++ x.k ++ BitVec.ofBool x.c.isSome)
    ((match x.c with | some c => c | none => 0) ++ m ++ (0 : BitVec 2))
def encHint (xop : BitVec 8) (q : PReg) (x : HintArgs) : Enc :=
  encX0 0x7d xop (BitVec.ofBool x.k.isSome ++ x.pmask) q 0 (match x.k with | some k => k.setWidth 7 | none => 0) x.gmask
/-- Destination field of a tile, hitch or permutation register. -/
def r7 {n : Nat} (x : BitVec n) : BitVec 7 := x.setWidth 7
/-- A yoke field that names y8k. -/
def y8 (k : BitVec 3) : BitVec 7 := (0 : BitVec 1) ++ k ++ (0 : BitVec 3)
def y4 (k : BitVec 4) : BitVec 7 := (0 : BitVec 1) ++ k ++ (0 : BitVec 2)

/-- The fields of an instruction word; none for a device step, which has no encoding. -/
def toEnc : Instr → Option Enc
  | .add q d a b => some (encG 0x00 q d a b)
  | .sub q d a b => some (encG 0x01 q d a b)
  | .mul q d a b => some (encG 0x02 q d a b)
  | .mulhiI32 q d a b => some (encG 0x03 q d a b)
  | .mulhiN32 q d a b => some (encG 0x04 q d a b)
  | .divI32 q d a b => some (encG 0x05 q d a b)
  | .divN32 q d a b => some (encG 0x06 q d a b)
  | .remI32 q d a b => some (encG 0x07 q d a b)
  | .remN32 q d a b => some (encG 0x08 q d a b)
  | .minI32 q d a b => some (encG 0x09 q d a b)
  | .minN32 q d a b => some (encG 0x0a q d a b)
  | .maxI32 q d a b => some (encG 0x0b q d a b)
  | .maxN32 q d a b => some (encG 0x0c q d a b)
  | .and q d a b => some (encG 0x0d q d a b)
  | .or q d a b => some (encG 0x0e q d a b)
  | .xor q d a b => some (encG 0x0f q d a b)
  | .shl q d a b => some (encG 0x10 q d a b)
  | .shr q d a b => some (encG 0x11 q d a b)
  | .sar q d a b => some (encG 0x12 q d a b)
  | .rol q d a b => some (encG 0x13 q d a b)
  | .addi q d a i => some (.imm 0x14 d a i q)
  | .shli q d a i => some (.imm 0x15 d a i q)
  | .shri q d a i => some (.imm 0x16 d a i q)
  | .sari q d a i => some (.imm 0x17 d a i q)
  | .andi q d a i => some (.imm 0x18 d a i q)
  | .ori q d a i => some (.imm 0x19 d a i q)
  | .xori q d a i => some (.imm 0x1a d a i q)
  | .mad q d a b c => some (encXB 0x1b 0x00 0 q d a b (lowC c))
  | .madHiI32 q d a b c => some (encXB 0x1b 0x01 0 q d a b (lowC c))
  | .madHiN32 q d a b c => some (encXB 0x1b 0x02 0 q d a b (lowC c))
  | .madWideI32 q d a b c => some (encXB 0x1b 0x03 0 q d a b (lowC c))
  | .madWideN32 q d a b c => some (encXB 0x1b 0x04 0 q d a b (lowC c))
  | .popc q d a => some (encX0 0x1c 0x00 0 q d a 0)
  | .clz q d a => some (encX0 0x1c 0x01 0 q d a 0)
  | .ctz q d a => some (encX0 0x1c 0x02 0 q d a 0)
  | .brev q d a => some (encX0 0x1c 0x03 0 q d a 0)
  | .not q d a => some (encX0 0x1c 0x04 0 q d a 0)
  | .abs q d a => some (encX0 0x1c 0x05 0 q d a 0)
  | .neg q d a => some (encX0 0x1c 0x06 0 q d a 0)
  | .bfeI32 q d a x => some (encBf 0x00 q d a (.g 0) x)
  | .bfeN32 q d a x => some (encBf 0x01 q d a (.g 0) x)
  | .bfi q d a b x => some (encBf 0x02 q d a b x)
  | .shfL q d a b x => some (encShf false q d a b x)
  | .shfR q d a b x => some (encShf true q d a b x)
  | .prmt q d a b (.imm s) => some (encXB 0x1d 0x04 1 q d a b s)
  | .prmt q d a b (.reg c) => some (encXB 0x1d 0x04 0 q d a b (lowC c))
  | .bitfn q d a b c fn => some (encXB 0x1d 0x05 fn q d a b (lowC c))
  | .setp q op d a (.src b) => some (encXB 0x1e op.code 0 q (r7 d) a b 0)
  | .setp q op d a (.imm v) => some (encX0 0x1e op.code 1 q (r7 d) a v)
  | .pand q d a b => some (.two 0x1f (r7 d) (r7 a) (r7 b) false q 0x00 0 0)
  | .por q d a b => some (.two 0x1f (r7 d) (r7 a) (r7 b) false q 0x01 0 0)
  | .pxor q d a b => some (.two 0x1f (r7 d) (r7 a) (r7 b) false q 0x02 0 0)
  | .pnot q d a => some (encX0 0x1f 0x03 0 q (r7 d) (r7 a) 0)
  | .p2g q d => some (encX0 0x1f 0x04 0 q d 0 0)
  | .g2p q a m => some (encX0 0x1f 0x05 0 q 0 a ((0 : BitVec 9) ++ m))
  | .sel q d a b c => some (encXB 0x20 0x00 0 q d a b (lowC (r7 c)))
  | .mov q d b => some (encG 0x21 q d 0 b)
  | .movi q d v => some (.lit 0x22 d 0 0 false q v)
  | .movs q d s => some (.imm 0x23 d 0 s.code q)
  | .ymov q w d b => some (encXB 0x24 0x00 (mdBit w) q (r7 d) 0 b 0)
  | .ymovl q d i => some (encX0 0x24 0x01 0 q (r7 d) 0 i)
  | .ymovh q d i => some (encX0 0x24 0x02 0 q (r7 d) 0 i)
  | .yadd q w d a b => some (encXB 0x24 0x03 (mdBit w) q (r7 d) (r7 a) b 0)
  | .yaddi q w d a i => some (encX0 0x24 0x04 (mdBit w) q (r7 d) (r7 a) i)
  | .addI64 q d a b => some (encXB 0x25 0x00 0 q d a b 0)
  | .subI64 q d a b => some (encXB 0x25 0x01 0 q d a b 0)
  | .addiI64 q d a i => some (encX0 0x25 0x02 0 q d a i)
  | .lea q sx sh d a b off => some (encXB 0x25 0x03 ((0 : BitVec 4) ++ BitVec.ofBool sx ++ sh) q d a b off)
  | .shlI64 q d a x => some (encSh64 0x04 q d a x)
  | .shrI64 q d a x => some (encSh64 0x05 q d a x)
  | .sarI64 q d a x => some (encSh64 0x06 q d a x)
  | .minN64 q d a b => some (encXB 0x25 0x07 0 q d a b 0)
  | .maxN64 q d a b => some (encXB 0x25 0x08 0 q d a b 0)
  | .next q => some (.term 0x30 0 q)
  | .jmp q off => some (.term 0x31 off q)
  | .br q neg c off => some (.term 0x32 (BitVec.ofBool neg ++ c ++ off) q)
  | .brx q a => some (.term 0x33 (a ++ (0 : BitVec 15)) q)
  | .call q off => some (.term 0x34 off q)
  | .callx q a => some (.term 0x35 (a ++ (0 : BitVec 15)) q)
  | .ret q => some (.term 0x36 0 q)
  | .exit q => some (.term 0x37 0 q)
  | .fadd q t rm d a b => some (encXB t.major 0x00 (mdRm rm) q d a b 0)
  | .fsub q t rm d a b => some (encXB t.major 0x01 (mdRm rm) q d a b 0)
  | .fmul q t rm d a b => some (encXB t.major 0x02 (mdRm rm) q d a b 0)
  | .fma q t rm d a b c => some (encXB t.major 0x03 (mdRm rm) q d a b (lowC c))
  | .fmin q t d a b => some (encXB t.major 0x04 0 q d a b 0)
  | .fmax q t d a b => some (encXB t.major 0x05 0 q d a b 0)
  | .fdiv q w rm d a b => some (encXB (dblMajor w) 0x06 (mdRm rm) q d a b 0)
  | .fsqrt q w rm d a => some (encX0 (dblMajor w) 0x07 (mdRm rm) q d a 0)
  | .fabs q t d a => some (encX0 t.major 0x08 0 q d a 0)
  | .fneg q t d a => some (encX0 t.major 0x09 0 q d a 0)
  | .frcp q w d a => some (encX0 (dblMajor w) 0x0a 0 q d a 0)
  | .frsq q w d a => some (encX0 (dblMajor w) 0x0b 0 q d a 0)
  | .fex2 q d a => some (encX0 0x40 0x0c 0 q d a 0)
  | .flg2 q d a => some (encX0 0x40 0x0d 0 q d a 0)
  | .fsin q d a => some (encX0 0x40 0x0e 0 q d a 0)
  | .fcos q d a => some (encX0 0x40 0x0f 0 q d a 0)
  | .ffloor q w d a => some (encX0 (dblMajor w) (if w then 0x0c else 0x10) 0 q d a 0)
  | .fceil q w d a => some (encX0 (dblMajor w) (if w then 0x0d else 0x11) 0 q d a 0)
  | .ftrunc q w d a => some (encX0 (dblMajor w) (if w then 0x0e else 0x12) 0 q d a 0)
  | .frint q w rm d a => some (encX0 (dblMajor w) (if w then 0x0f else 0x13) (mdRm rm) q d a 0)
  | .fcopysign q w d a b => some (encXB (dblMajor w) (if w then 0x10 else 0x14) 0 q d a b 0)
  | .fsetp q w c d a b => some (encXB 0x44 ((0 : BitVec 4) ++ BitVec.ofBool w ++ c.code) 0 q (r7 d) a b 0)
  | .fclass q w d a => some (encX0 0x44 (if w then 0x11 else 0x10) 0 q d a 0)
  | .cvt q rm dt sy d a => some (encX0 0x45 (dt.code ++ sy.code) (mdRm rm) q d a 0)
  | .cvtSr q dt pos d a => some (encX0 0x46 ((0 : BitVec 4) ++ dt.code) (mdF false pos .rne) q d a 0)
  | .srseed q b => some (encG 0x47 q 0 0 b)
  | .pack q rm it dt pos d a => some (encX0 0x48 ((0 : BitVec 4) ++ dt.code) (mdF it pos rm) q d a 0)
  | .unpack q rm it sy pos d a => some (encX0 0x49 ((0 : BitVec 4) ++ sy.code) (mdF it pos rm) q d a 0)
  | .dp4 q f d a b c => some (encXB 0x4a f.code 0 q d a b (lowC c))
  | .dp8 q f d a b c => some (encXB 0x4b f.code 0 q d a b (lowC c))
  | .fscale q w rm pos d a b => some (encXB 0x4c (mdBit w) (mdF false pos rm) q d a b 0)
  | .ld q sz sx d m => some (encX0 0x60 0x00 (mdMem false 0 sx sz) q d m.base m.off)
  | .ldAcq q sc sz sx d m => some (encX0 0x60 0x01 (mdMem false sc.code sx sz) q d m.base m.off)
  | .ldQ q sz d a => some (encX0 0x60 0x00 (mdMem true 0 false sz) q d (r7 a) 0)
  | .st q sz m b => some (encXB 0x61 0x00 (mdMem false 0 false sz) q 0 m.base b m.off)
  | .stRel q sc sz m b => some (encXB 0x61 0x01 (mdMem false sc.code false sz) q 0 m.base b m.off)
  | .stNt q sz m b => some (encXB 0x61 0x02 (mdMem false 0 false sz) q 0 m.base b m.off)
  | .stQ q sz a b => some (encXB 0x61 0x00 (mdMem true 0 false sz) q 0 (r7 a) b 0)
  | .drainNt q => some (.one 0x62 0 0 0 false q)
  | .prefetchL1 q m => some (encX0 0x63 0x00 0 q 0 m.base m.off)
  | .prefetchL2 q m => some (encX0 0x63 0x01 0 q 0 m.base m.off)
  | .viewDefG q s k => some (encX0 0x64 0x00 0 q 0 (y8 k) ((0 : BitVec 8) ++ s))
  | .viewDefX q s k => some (encX0 0x64 0x01 0 q 0 (y8 k) ((0 : BitVec 8) ++ s))
  | .viewDel q s => some (encX0 0x64 0x02 0 q 0 0 ((0 : BitVec 8) ++ s))
  | .viewQ q k s half => some (encX0 0x64 0x03 0 q (y8 k) 0 ((0 : BitVec 7) ++ BitVec.ofBool half ++ s))
  | .atomExch q x => some (encAtom 0x00 q x)
  | .atomCas q x => some (encAtom 0x01 q x)
  | .atomAdd q x => some (encAtom 0x02 q x)
  | .atomAnd q x => some (encAtom 0x03 q x)
  | .atomOr q x => some (encAtom 0x04 q x)
  | .atomXor q x => some (encAtom 0x05 q x)
  | .atomMinI q x => some (encAtom 0x06 q x)
  | .atomMinN q x => some (encAtom 0x07 q x)
  | .atomMaxI q x => some (encAtom 0x08 q x)
  | .atomMaxN q x => some (encAtom 0x09 q x)
  | .atomFadd q x => some (encAtom 0x0a q x)
  | .atomInc q x => some (encAtom 0x0b q x)
  | .atomDec q x => some (encAtom 0x0c q x)
  | .redAdd q x => some (encRed 0x02 q x)
  | .redAnd q x => some (encRed 0x03 q x)
  | .redOr q x => some (encRed 0x04 q x)
  | .redXor q x => some (encRed 0x05 q x)
  | .redMinI q x => some (encRed 0x06 q x)
  | .redMinN q x => some (encRed 0x07 q x)
  | .redMaxI q x => some (encRed 0x08 q x)
  | .redMaxN q x => some (encRed 0x09 q x)
  | .redFadd q x => some (encRed 0x0a q x)
  | .fence q sc => some (encX0 0x72 0x00 (mdMem false sc.code false 0) q 0 0 0)
  | .barBlk q => some (encX0 0x73 0x00 0 q 0 0 0)
  | .barGrp q => some (encX0 0x73 0x01 0 q 0 0 0)
  | .barGrid q => some (encX0 0x73 0x02 0 q 0 0 0)
  | .hitchDecl q h b m => some (encXB 0x74 0x00 0 q 0 0 b (h ++ (0 : BitVec 4) ++ m))
  | .hitchSign q h => some (encColl 0x01 0 q 0 0 h)
  | .pfoldAnd q h d a => some (encColl 0x02 0 q (r7 d) (r7 a) h)
  | .pfoldOr q h d a => some (encColl 0x03 0 q (r7 d) (r7 a) h)
  | .pcount q h d a => some (encColl 0x04 0 q d (r7 a) h)
  | .prank q h d a => some (encColl 0x05 0 q d (r7 a) h)
  | .agree q h d a => some (encColl 0x06 0 q (r7 d) a h)
  | .pbits q h d a w => some (encX0 0x74 0x07 0 q d (r7 a) (h ++ (0 : BitVec 7) ++ w))
  | .cycle q h d a b => some (encXB 0x74 0x08 0 q d a b (lowH h))
  | .xrank q h d a b => some (encXB 0x74 0x09 0 q d a b (lowH h))
  | .foldAdd q h d a => some (encColl 0x0a 0 q d a h)
  | .scanAdd q h d a => some (encColl 0x0b 0 q d a h)
  | .foldMinI q h d a => some (encColl 0x0c 0 q d a h)
  | .foldMaxI q h d a => some (encColl 0x0c 1 q d a h)
  | .enq q x => some (encQueue 0x00 q x)
  | .deq q x => some (encQueue 0x01 q x)
  | .enqTry q x => some (encQueue 0x02 q x)
  | .deqTry q x => some (encQueue 0x03 q x)
  | .qbindQueue q d m => some (encX0 0x76 0x00 0 q (r7 d) m.base m.off)
  | .qbindCopy q d => some (encX0 0x76 0x01 0 q (r7 d) 0 0)
  | .qbindGather q d k => some (encX0 0x76 0x02 0 q (r7 d) (y4 k) 0)
  | .qunbind q d => some (encX0 0x76 0x03 0 q (r7 d) 0 0)
  | .qstat q d a => some (encX0 0x76 0x04 0 q (r7 d) (r7 a) 0)
  | .wait q nl ns na nt => some (encX0 0x77 0x00 0 q (r7 nl) (r7 ns) ((0 : BitVec 4) ++ nt ++ na))
  | .tcfg q d b => some (encXB 0x78 0x00 0 q (r7 d) 0 b 0)
  | .tld q h d m b => some (encXB 0x78 0x01 0 q (r7 d) m.base b (lowH12 h m.off))
  | .tst q h d m b => some (encXB 0x78 0x02 0 q (r7 d) m.base b (lowH12 h m.off))
  | .tmov q h t rm d a => some (encX0 0x78 0x03 ((0 : BitVec 5) ++ BitVec.ofBool t ++ rm.code) q (r7 d) (r7 a) (lowH h))
  | .tzero q h d n => some (encX0 0x78 0x04 ((0 : BitVec 6) ++ n) q (r7 d) 0 (lowH h))
  | .mma q x => some (encMma 0x00 q x)
  | .mmaSp q x => some (encMma 0x01 q x)
  | .mmaSpt q x => some (encMma 0x02 q x)
  | .mfactLu q x => some (encFact 0x00 q x)
  | .mfactChol q x => some (encFact 0x01 q x)
  | .mfactQr q x => some (encFact 0x02 q x)
  | .mtrsm q x =>
    some (encX0 0x7a 0x03 ((0 : BitVec 2) ++ BitVec.ofBool x.unit ++ BitVec.ofBool x.up ++ (0 : BitVec 2)
      ++ BitVec.ofBool x.flag ++ BitVec.ofBool x.f64) q x.d x.o (lowH x.h))
  | .accLdTile q h ct d b => some (encXB 0x7b 0x00 (mdCell false ct 0) q (r7 d) 0 b (lowH h))
  | .accLdMem q h ct f d m b => some (encXB 0x7b 0x00 (mdCell true ct f.code) q d m.base b (lowH12 h m.off))
  | .accStTile q h ct d b => some (encXB 0x7b 0x01 (mdCell false ct 0) q (r7 d) 0 b (lowH h))
  | .accStMem q h ct f d m b => some (encXB 0x7b 0x01 (mdCell true ct f.code) q d m.base b (lowH12 h m.off))
  | .accSnap q h ct d a b => some (encXB 0x7b 0x02 (mdCell false ct 0) q d (r7 a) b (lowH h))
  | .accZero q h ct b => some (encXB 0x7b 0x03 (mdCell false ct 0) q 0 0 b (lowH h))
  | .pmLd q h d m => some (encX0 0x7b 0x04 0 q (r7 d) m.base (lowH12 h m.off))
  | .pmSt q h d m => some (encX0 0x7b 0x05 0 q (r7 d) m.base (lowH12 h m.off))
  | .pmApply q h ct d b => some (encXB 0x7b 0x06 (mdCell false ct 0) q (r7 d) 0 b (lowH h))
  | .pmApplyInv q h ct d b => some (encXB 0x7b 0x07 (mdCell false ct 0) q (r7 d) 0 b (lowH h))
  | .copy q x => some (encCopy 0x00 q x 0)
  | .copyMc q x m => some (encCopy 0x01 q x m)
  | .ftest q d a => some (encX0 0x7c 0x02 0 q d a 0)
  | .fcancel q a => some (encX0 0x7c 0x03 0 q 0 a 0)
  | .relay q d m => some (encX0 0x7c 0x04 0 q d m.base m.off)
  | .join q a => some (encX0 0x7c 0x05 0 q 0 a 0)
  | .nop q => some (encX0 0x7d 0x00 0 q 0 0 0)
  | .trap q c => some (encX0 0x7d 0x01 0 q 0 0 ((0 : BitVec 8) ++ c))
  | .brk q c => some (encX0 0x7d 0x02 0 q 0 0 ((0 : BitVec 8) ++ c))
  | .commit q x => some (encHint 0x03 q x)
  | .phint q x => some (encHint 0x04 q x)
  | .sleep q n => some (encX0 0x7d 0x05 0 q 0 0 n)
  | .illegalMajor x a => some (.term (if x then 0x7f else 0x7e) (a.extractLsb' 3 22) (a.extractLsb' 0 3))
  | _ => none

/-- The words of an instruction, empty for a device step. -/
def encode (i : Instr) : List Word :=
  match toEnc i with
  | some e => e.words
  | none => []

/-! Decoding, major by major. -/

/-- A refused field. -/
def orField (o : Option Instr) : Except DecodeError Instr :=
  match o with
  | some i => .ok i
  | none => .error .field

/-- Format G. -/
def ofOne (maj d a b : BitVec 7) (yb : Bool) (q : PReg) : Except DecodeError Instr :=
  match maj.toNat with
  | 0x00 => orField ((srcField yb b).map (.add q d a))
  | 0x01 => orField ((srcField yb b).map (.sub q d a))
  | 0x02 => orField ((srcField yb b).map (.mul q d a))
  | 0x03 => orField ((srcField yb b).map (.mulhiI32 q d a))
  | 0x04 => orField ((srcField yb b).map (.mulhiN32 q d a))
  | 0x05 => orField ((srcField yb b).map (.divI32 q d a))
  | 0x06 => orField ((srcField yb b).map (.divN32 q d a))
  | 0x07 => orField ((srcField yb b).map (.remI32 q d a))
  | 0x08 => orField ((srcField yb b).map (.remN32 q d a))
  | 0x09 => orField ((srcField yb b).map (.minI32 q d a))
  | 0x0a => orField ((srcField yb b).map (.minN32 q d a))
  | 0x0b => orField ((srcField yb b).map (.maxI32 q d a))
  | 0x0c => orField ((srcField yb b).map (.maxN32 q d a))
  | 0x0d => orField ((srcField yb b).map (.and q d a))
  | 0x0e => orField ((srcField yb b).map (.or q d a))
  | 0x0f => orField ((srcField yb b).map (.xor q d a))
  | 0x10 => orField ((srcField yb b).map (.shl q d a))
  | 0x11 => orField ((srcField yb b).map (.shr q d a))
  | 0x12 => orField ((srcField yb b).map (.sar q d a))
  | 0x13 => orField ((srcField yb b).map (.rol q d a))
  | 0x21 => orField (do let b ← srcField yb b; when (a == 0) (.mov q d b))
  | 0x47 => orField (do let b ← srcField yb b; when (d == 0 && a == 0) (.srseed q b))
  | 0x62 => orField (when (d == 0 && a == 0 && noB yb b) (.drainNt q))
  | _ => .error .major

/-- Format I. -/
def ofImm (maj d a : BitVec 7) (i : BitVec 8) (q : PReg) : Except DecodeError Instr :=
  match maj.toNat with
  | 0x14 => .ok (.addi q d a i)
  | 0x15 => .ok (.shli q d a i)
  | 0x16 => .ok (.shri q d a i)
  | 0x17 => .ok (.sari q d a i)
  | 0x18 => .ok (.andi q d a i)
  | 0x19 => .ok (.ori q d a i)
  | 0x1a => .ok (.xori q d a i)
  | 0x23 => orField (do let s ← Special.ofCode i; when (a == 0) (.movs q d s))
  | _ => .error .major

/-- Format T (Table 9.10) and the illegal majors (R222). -/
def ofTerm (maj : BitVec 7) (body : BitVec 22) (q : PReg) : Except DecodeError Instr :=
  match maj.toNat with
  | 0x30 => orField (when (body == 0) (.next q))
  | 0x31 => .ok (.jmp q body)
  | 0x32 => .ok (.br q (body.getLsbD 21) (body.extractLsb' 18 3) (body.extractLsb' 0 18))
  | 0x33 => orField (when (body.extractLsb' 0 15 == 0) (.brx q (body.extractLsb' 15 7)))
  | 0x34 => .ok (.call q body)
  | 0x35 => orField (when (body.extractLsb' 0 15 == 0) (.callx q (body.extractLsb' 15 7)))
  | 0x36 => orField (when (body == 0) (.ret q))
  | 0x37 => orField (when (body == 0) (.exit q))
  | 0x7e => .ok (.illegalMajor false (body ++ q))
  | 0x7f => .ok (.illegalMajor true (body ++ q))
  | _ => .error .major

/-- Fields of word 0 that the X decoders share. -/
structure XF where
  q : PReg
  d : BitVec 7
  a : BitVec 7
  b : BitVec 7
  yb : Bool
  md : BitVec 8
  low : BitVec 16

def XF.src (x : XF) : Option Src := srcField x.yb x.b
/-- B and YB zero. -/
def XF.nob (x : XF) : Bool := noB x.yb x.b
def XF.c (x : XF) : Option GReg := cField x.low
def XF.h (x : XF) : Option Reg4 := hField x.low
def XF.rm (x : XF) : Rm := .ofCode (x.md.extractLsb' 0 2)
def XF.it (x : XF) : Bool := x.md.getLsbD 5
def XF.pos (x : XF) : BitVec 3 := x.md.extractLsb' 2 3
/-- MOD holds RM alone. -/
def XF.rmOnly (x : XF) : Bool := x.md.extractLsb' 2 6 == 0
def XF.bit0 (x : XF) : Bool := x.md.getLsbD 0
/-- MOD holds bit 0 alone. -/
def XF.bitOnly (x : XF) : Bool := x.md.extractLsb' 1 7 == 0
def XF.sz (x : XF) : BitVec 3 := x.md.extractLsb' 0 3
def XF.sx (x : XF) : Bool := x.md.getLsbD 3
def XF.sc (x : XF) : BitVec 3 := x.md.extractLsb' 4 3
def XF.qf (x : XF) : Bool := x.md.getLsbD 7
def XF.mem (x : XF) : MemOp := { base := x.a, off := x.low }
def XF.mem12 (x : XF) : MemOp12 := { base := x.a, off := x.low.extractLsb' 0 12 }
def XF.hh (x : XF) : Reg4 := x.low.extractLsb' 12 4

/-- 0x1b: multiply-add. -/
def of1b (xop : BitVec 8) (x : XF) : Except DecodeError Instr :=
  let f (k : Src → GReg → Instr) := orField (do let b ← x.src; let c ← x.c; when (x.md == 0) (k b c))
  match xop.toNat with
  | 0x00 => f (.mad x.q x.d x.a)
  | 0x01 => f (.madHiI32 x.q x.d x.a)
  | 0x02 => f (.madHiN32 x.q x.d x.a)
  | 0x03 => f (.madWideI32 x.q x.d x.a)
  | 0x04 => f (.madWideN32 x.q x.d x.a)
  | _ => .error .xop

/-- 0x1c: unary. -/
def of1c (xop : BitVec 8) (x : XF) : Except DecodeError Instr :=
  let f (i : Instr) := orField (when (x.nob && x.md == 0 && x.low == 0) i)
  match xop.toNat with
  | 0x00 => f (.popc x.q x.d x.a)
  | 0x01 => f (.clz x.q x.d x.a)
  | 0x02 => f (.ctz x.q x.d x.a)
  | 0x03 => f (.brev x.q x.d x.a)
  | 0x04 => f (.not x.q x.d x.a)
  | 0x05 => f (.abs x.q x.d x.a)
  | 0x06 => f (.neg x.q x.d x.a)
  | _ => .error .xop

/-- Position and length of Table 10.5. -/
def bfField (x : XF) : Option BfArg :=
  if !x.bitOnly then none
  else if x.bit0 then when (x.low.extractLsb' 11 5 == 0) (.imm (x.low.extractLsb' 0 5) (x.low.extractLsb' 5 6))
  else x.c.map .reg
def shfField (x : XF) : Option ShfArg :=
  if x.md.extractLsb' 2 6 != 0 then none
  else if x.bit0 then when (x.low.extractLsb' 5 11 == 0) (.imm (x.low.extractLsb' 0 5))
  else x.c.map .reg
def prmtField (x : XF) : Option PrmtArg :=
  if !x.bitOnly then none
  else if x.bit0 then some (.imm x.low)
  else x.c.map .reg

/-- 0x1d: bit fields. -/
def of1d (xop : BitVec 8) (x : XF) : Except DecodeError Instr :=
  match xop.toNat with
  | 0x00 => orField (do let v ← bfField x; when x.nob (.bfeI32 x.q x.d x.a v))
  | 0x01 => orField (do let v ← bfField x; when x.nob (.bfeN32 x.q x.d x.a v))
  | 0x02 => orField (do let v ← bfField x; let b ← x.src; some (.bfi x.q x.d x.a b v))
  | 0x03 => orField (do
      let v ← shfField x; let b ← x.src
      some (if x.md.getLsbD 1 then .shfR x.q x.d x.a b v else .shfL x.q x.d x.a b v))
  | 0x04 => orField (do let v ← prmtField x; let b ← x.src; some (.prmt x.q x.d x.a b v))
  | 0x05 => orField (do let b ← x.src; let c ← x.c; some (.bitfn x.q x.d x.a b c x.md))
  | _ => .error .xop

/-- 0x1e: `setp`. -/
def of1e (xop : BitVec 8) (x : XF) : Except DecodeError Instr :=
  match SetpOp.ofCode xop with
  | none => .error .xop
  | some op =>
    orField (do
      let d ← pField x.d
      if !x.bitOnly then none
      else if x.bit0 then when x.nob (.setp x.q op d x.a (.imm x.low))
      else do let b ← x.src; when (x.low == 0) (.setp x.q op d x.a (.src b)))

/-- 0x1f: predicates. -/
def of1f (xop : BitVec 8) (x : XF) : Except DecodeError Instr :=
  let f (k : PReg → PReg → PReg → Instr) :=
    orField (do let d ← pField x.d; let a ← pField x.a; let b ← pField x.b; when (!x.yb && x.md == 0 && x.low == 0) (k d a b))
  match xop.toNat with
  | 0x00 => f (.pand x.q)
  | 0x01 => f (.por x.q)
  | 0x02 => f (.pxor x.q)
  | 0x03 => orField (do let d ← pField x.d; let a ← pField x.a; when (x.nob && x.md == 0 && x.low == 0) (.pnot x.q d a))
  | 0x04 => orField (when (x.a == 0 && x.nob && x.md == 0 && x.low == 0) (.p2g x.q x.d))
  | 0x05 => orField (when (x.d == 0 && x.nob && x.md == 0 && x.low.extractLsb' 7 9 == 0) (.g2p x.q x.a (x.low.extractLsb' 0 7)))
  | _ => .error .xop

/-- 0x20: `sel`. -/
def of20 (xop : BitVec 8) (x : XF) : Except DecodeError Instr :=
  match xop.toNat with
  | 0x00 => orField (do let b ← x.src; let c ← x.c; let p ← pField c; when (x.md == 0) (.sel x.q x.d x.a b p))
  | _ => .error .xop

/-- 0x24: yoke. -/
def of24 (xop : BitVec 8) (x : XF) : Except DecodeError Instr :=
  match xop.toNat with
  | 0x00 => orField (do
      let d ← yField x.d; let b ← x.src; when (x.a == 0 && x.low == 0 && x.bitOnly) (.ymov x.q x.bit0 d b))
  | 0x01 => orField (do let d ← yField x.d; when (x.a == 0 && x.nob && x.md == 0) (.ymovl x.q d x.low))
  | 0x02 => orField (do let d ← yField x.d; when (x.a == 0 && x.nob && x.md == 0) (.ymovh x.q d x.low))
  | 0x03 => orField (do
      let d ← yField x.d; let a ← yField x.a; let b ← x.src; when (x.low == 0 && x.bitOnly) (.yadd x.q x.bit0 d a b))
  | 0x04 => orField (do let d ← yField x.d; let a ← yField x.a; when (x.nob && x.bitOnly) (.yaddi x.q x.bit0 d a x.low))
  | _ => .error .xop

def sh64Field (x : XF) : Option Sh64Arg :=
  if !x.bitOnly then none
  else if x.bit0 then when (x.nob && x.low.extractLsb' 6 10 == 0) (.imm (x.low.extractLsb' 0 6))
  else do let b ← x.src; when (x.low == 0) (.src b)

/-- 0x25: 64-bit. -/
def of25 (xop : BitVec 8) (x : XF) : Except DecodeError Instr :=
  let f (k : Src → Instr) := orField (do let b ← x.src; when (x.md == 0 && x.low == 0) (k b))
  match xop.toNat with
  | 0x00 => f (.addI64 x.q x.d x.a)
  | 0x01 => f (.subI64 x.q x.d x.a)
  | 0x02 => orField (when (x.nob && x.md == 0) (.addiI64 x.q x.d x.a x.low))
  | 0x03 => orField (do
      let b ← x.src; when (x.md.extractLsb' 4 4 == 0) (.lea x.q x.sx x.sz x.d x.a b x.low))
  | 0x04 => orField ((sh64Field x).map (.shlI64 x.q x.d x.a))
  | 0x05 => orField ((sh64Field x).map (.shrI64 x.q x.d x.a))
  | 0x06 => orField ((sh64Field x).map (.sarI64 x.q x.d x.a))
  | 0x07 => f (.minN64 x.q x.d x.a)
  | 0x08 => f (.maxN64 x.q x.d x.a)
  | _ => .error .xop

/-- XOPs 0x00 to 0x05, 0x08 and 0x09 of majors 0x40 to 0x43. -/
def ofFp (t : FpTy) (xop : BitVec 8) (x : XF) : Except DecodeError Instr :=
  let un (i : Instr) := orField (when (x.nob && x.md == 0 && x.low == 0) i)
  let bin (md : Bool) (k : Src → Instr) := orField (do let b ← x.src; when (md && x.low == 0) (k b))
  match xop.toNat with
  | 0x00 => bin x.rmOnly (.fadd x.q t x.rm x.d x.a)
  | 0x01 => bin x.rmOnly (.fsub x.q t x.rm x.d x.a)
  | 0x02 => bin x.rmOnly (.fmul x.q t x.rm x.d x.a)
  | 0x03 => orField (do let b ← x.src; let c ← x.c; when x.rmOnly (.fma x.q t x.rm x.d x.a b c))
  | 0x04 => bin (x.md == 0) (.fmin x.q t x.d x.a)
  | 0x05 => bin (x.md == 0) (.fmax x.q t x.d x.a)
  | 0x08 => un (.fabs x.q t x.d x.a)
  | 0x09 => un (.fneg x.q t x.d x.a)
  | _ => .error .xop

/-- The other XOPs of 0x40 and 0x41 (Table 11.3); the rounding-to-integral ones and `fcopysign` begin at 0x10 and 0x0c. -/
def ofFp2 (w : Bool) (xop : BitVec 8) (x : XF) : Except DecodeError Instr :=
  let un (md : Bool) (i : Instr) := orField (when (x.nob && md && x.low == 0) i)
  let sfn (i : Instr) := if w then .error .xop else un (x.md == 0) i
  match xop.toNat with
  | 0x06 => orField (do let b ← x.src; when (x.rmOnly && x.low == 0) (.fdiv x.q w x.rm x.d x.a b))
  | 0x07 => un x.rmOnly (.fsqrt x.q w x.rm x.d x.a)
  | 0x0a => un (x.md == 0) (.frcp x.q w x.d x.a)
  | 0x0b => un (x.md == 0) (.frsq x.q w x.d x.a)
  | 0x0c => if w then un (x.md == 0) (.ffloor x.q true x.d x.a) else sfn (.fex2 x.q x.d x.a)
  | 0x0d => if w then un (x.md == 0) (.fceil x.q true x.d x.a) else sfn (.flg2 x.q x.d x.a)
  | 0x0e => if w then un (x.md == 0) (.ftrunc x.q true x.d x.a) else sfn (.fsin x.q x.d x.a)
  | 0x0f => if w then un x.rmOnly (.frint x.q true x.rm x.d x.a) else sfn (.fcos x.q x.d x.a)
  | 0x10 =>
    if w then orField (do let b ← x.src; when (x.md == 0 && x.low == 0) (.fcopysign x.q true x.d x.a b))
    else sfn (.ffloor x.q false x.d x.a)
  | 0x11 => sfn (.fceil x.q false x.d x.a)
  | 0x12 => sfn (.ftrunc x.q false x.d x.a)
  | 0x13 => if w then .error .xop else un x.rmOnly (.frint x.q false x.rm x.d x.a)
  | 0x14 =>
    if w then .error .xop
    else orField (do let b ← x.src; when (x.md == 0 && x.low == 0) (.fcopysign x.q false x.d x.a b))
  | _ => ofFp (if w then .f64 else .f32) xop x

/-- 0x44: compares and `fclass`. -/
def of44 (xop : BitVec 8) (x : XF) : Except DecodeError Instr :=
  if xop.extractLsb' 4 4 == 0 then
    orField (do
      let d ← pField x.d; let b ← x.src
      when (x.md == 0 && x.low == 0) (.fsetp x.q (xop.getLsbD 3) (.ofCode (xop.extractLsb' 0 3)) d x.a b))
  else if xop == 0x10 then orField (when (x.nob && x.md == 0 && x.low == 0) (.fclass x.q false x.d x.a))
  else if xop == 0x11 then orField (when (x.nob && x.md == 0 && x.low == 0) (.fclass x.q true x.d x.a))
  else .error .xop

/-- 0x45: `cvt` (R226): a pair of equal codes is refused with the operands. -/
def of45 (xop : BitVec 8) (x : XF) : Except DecodeError Instr :=
  match CvtTy.ofCode (xop.extractLsb' 4 4), CvtTy.ofCode (xop.extractLsb' 0 4) with
  | some dt, some sy => orField (when (x.nob && x.rmOnly && x.low == 0) (.cvt x.q x.rm dt sy x.d x.a))
  | _, _ => .error .xop

/-- The format named by the XOP of 0x46, 0x48 and 0x49, from code 3 to `top`. -/
def fmtXop (top : Nat) (xop : BitVec 8) : Option Fmt :=
  when (xop.extractLsb' 4 4 == 0 && decide (3 ≤ xop.toNat) && decide (xop.toNat ≤ top)) (.ofCode (xop.extractLsb' 0 4))

/-- 0x46, 0x48, 0x49: packed conversions. -/
def of46 (xop : BitVec 8) (x : XF) : Except DecodeError Instr :=
  match fmtXop 9 xop with
  | none => .error .xop
  | some dt =>
    orField (when (x.nob && x.low == 0 && x.md.extractLsb' 5 3 == 0 && x.md.extractLsb' 0 2 == 0) (.cvtSr x.q dt x.pos x.d x.a))
def of48 (xop : BitVec 8) (x : XF) : Except DecodeError Instr :=
  match fmtXop 14 xop with
  | none => .error .xop
  | some dt => orField (when (x.nob && x.low == 0 && x.md.extractLsb' 6 2 == 0) (.pack x.q x.rm x.it dt x.pos x.d x.a))
def of49 (xop : BitVec 8) (x : XF) : Except DecodeError Instr :=
  match fmtXop 14 xop with
  | none => .error .xop
  | some sy => orField (when (x.nob && x.low == 0 && x.md.extractLsb' 6 2 == 0) (.unpack x.q x.rm x.it sy x.pos x.d x.a))

/-- 0x4a, 0x4b: dot products. -/
def of4a (xop : BitVec 8) (x : XF) : Except DecodeError Instr :=
  match Dp4Form.ofCode xop with
  | none => .error .xop
  | some f => orField (do let b ← x.src; let c ← x.c; when (x.md == 0) (.dp4 x.q f x.d x.a b c))
def of4b (xop : BitVec 8) (x : XF) : Except DecodeError Instr :=
  match Dp8Form.ofCode xop with
  | none => .error .xop
  | some f => orField (do let b ← x.src; let c ← x.c; when (x.md == 0) (.dp8 x.q f x.d x.a b c))

/-- 0x4c: `fscale`. -/
def of4c (xop : BitVec 8) (x : XF) : Except DecodeError Instr :=
  let f (w : Bool) :=
    orField (do let b ← x.src; when (x.low == 0 && x.md.extractLsb' 5 3 == 0) (.fscale x.q w x.rm x.pos x.d x.a b))
  match xop.toNat with
  | 0x00 => f false
  | 0x01 => f true
  | _ => .error .xop

/-- 0x60: loads (Table 12.2). -/
def of60 (xop : BitVec 8) (x : XF) : Except DecodeError Instr :=
  match xop.toNat with
  | 0x00 =>
    if x.qf then
      orField (do let a ← qField x.a; when (x.nob && x.low == 0 && x.sc == 0 && !x.sx) (.ldQ x.q x.sz x.d a))
    else orField (when (x.nob && x.sc == 0) (.ld x.q x.sz x.sx x.d x.mem))
  | 0x01 => orField (do let sc ← Scope.ofCode x.sc; when (x.nob && !x.qf) (.ldAcq x.q sc x.sz x.sx x.d x.mem))
  | _ => .error .xop

/-- 0x61: stores (Table 12.2). -/
def of61 (xop : BitVec 8) (x : XF) : Except DecodeError Instr :=
  match xop.toNat with
  | 0x00 =>
    if x.qf then
      orField (do
        let a ← qField x.a; let b ← x.src
        when (x.d == 0 && x.low == 0 && x.sc == 0 && !x.sx) (.stQ x.q x.sz a b))
    else orField (do let b ← x.src; when (x.d == 0 && x.sc == 0 && !x.sx) (.st x.q x.sz x.mem b))
  | 0x01 => orField (do
      let sc ← Scope.ofCode x.sc; let b ← x.src; when (x.d == 0 && !x.sx && !x.qf) (.stRel x.q sc x.sz x.mem b))
  | 0x02 => orField (do let b ← x.src; when (x.d == 0 && x.sc == 0 && !x.sx && !x.qf) (.stNt x.q x.sz x.mem b))
  | _ => .error .xop

/-- 0x63: prefetches. -/
def of63 (xop : BitVec 8) (x : XF) : Except DecodeError Instr :=
  match xop.toNat with
  | 0x00 => orField (when (x.d == 0 && x.nob && x.md == 0) (.prefetchL1 x.q x.mem))
  | 0x01 => orField (when (x.d == 0 && x.nob && x.md == 0) (.prefetchL2 x.q x.mem))
  | _ => .error .xop

/-- 0x64: views (Table 12.4). -/
def of64 (xop : BitVec 8) (x : XF) : Except DecodeError Instr :=
  let slot : BitVec 8 := x.low.extractLsb' 0 8
  let def_ (k : BitVec 3 → Instr) :=
    orField (do let y ← y8Field x.a; when (x.d == 0 && x.nob && x.md == 0 && x.low.extractLsb' 8 8 == 0) (k y))
  match xop.toNat with
  | 0x00 => def_ (.viewDefG x.q slot)
  | 0x01 => def_ (.viewDefX x.q slot)
  | 0x02 => orField (when (x.d == 0 && x.a == 0 && x.nob && x.md == 0 && x.low.extractLsb' 8 8 == 0) (.viewDel x.q slot))
  | 0x03 => orField (do
      let y ← y8Field x.d
      when (x.a == 0 && x.nob && x.md == 0 && x.low.extractLsb' 9 7 == 0) (.viewQ x.q y slot (x.low.getLsbD 8)))
  | _ => .error .xop

/-- Operands of Table 12.5. -/
def atomField (x : XF) : Option AtomArgs := do
  let b ← x.src
  let sc ← Scope.ofCode x.sc
  when (!x.qf && !x.sx)
    { scope := sc, ord := .ofCode (x.md.extractLsb' 1 2), wide := x.bit0, d := x.d, mem := x.mem, b := b }
def redField (x : XF) : Option RedArgs := do
  let b ← x.src
  let sc ← Scope.ofCode x.sc
  when (x.d == 0 && !x.qf && x.md.extractLsb' 1 3 == 0) { scope := sc, wide := x.bit0, mem := x.mem, b := b }

/-- 0x70: atomics. -/
def of70 (xop : BitVec 8) (x : XF) : Except DecodeError Instr :=
  let f (k : AtomArgs → Instr) := orField ((atomField x).map k)
  match xop.toNat with
  | 0x00 => f (.atomExch x.q)
  | 0x01 => f (.atomCas x.q)
  | 0x02 => f (.atomAdd x.q)
  | 0x03 => f (.atomAnd x.q)
  | 0x04 => f (.atomOr x.q)
  | 0x05 => f (.atomXor x.q)
  | 0x06 => f (.atomMinI x.q)
  | 0x07 => f (.atomMinN x.q)
  | 0x08 => f (.atomMaxI x.q)
  | 0x09 => f (.atomMaxN x.q)
  | 0x0a => f (.atomFadd x.q)
  | 0x0b => f (.atomInc x.q)
  | 0x0c => f (.atomDec x.q)
  | _ => .error .xop

/-- 0x71: reductions. -/
def of71 (xop : BitVec 8) (x : XF) : Except DecodeError Instr :=
  let f (k : RedArgs → Instr) := orField ((redField x).map k)
  match xop.toNat with
  | 0x02 => f (.redAdd x.q)
  | 0x03 => f (.redAnd x.q)
  | 0x04 => f (.redOr x.q)
  | 0x05 => f (.redXor x.q)
  | 0x06 => f (.redMinI x.q)
  | 0x07 => f (.redMinN x.q)
  | 0x08 => f (.redMaxI x.q)
  | 0x09 => f (.redMaxN x.q)
  | 0x0a => f (.redFadd x.q)
  | _ => .error .xop

/-- 0x72, 0x73: fence and barriers. -/
def of72 (xop : BitVec 8) (x : XF) : Except DecodeError Instr :=
  match xop.toNat with
  | 0x00 => orField (do
      let sc ← Scope.ofCode x.sc
      when (x.d == 0 && x.a == 0 && x.nob && x.low == 0 && !x.qf && !x.sx && x.sz == 0) (.fence x.q sc))
  | _ => .error .xop
def of73 (xop : BitVec 8) (x : XF) : Except DecodeError Instr :=
  let f (i : Instr) := orField (when (x.d == 0 && x.a == 0 && x.nob && x.md == 0 && x.low == 0) i)
  match xop.toNat with
  | 0x00 => f (.barBlk x.q)
  | 0x01 => f (.barGrp x.q)
  | 0x02 => f (.barGrid x.q)
  | _ => .error .xop

/-- 0x74: hitches and collectives (Table 12.7). -/
def of74 (xop : BitVec 8) (x : XF) : Except DecodeError Instr :=
  let pp (k : Reg4 → PReg → PReg → Instr) :=
    orField (do let h ← x.h; let d ← pField x.d; let a ← pField x.a; when (x.nob && x.md == 0) (k h d a))
  let gp (k : Reg4 → GReg → PReg → Instr) :=
    orField (do let h ← x.h; let a ← pField x.a; when (x.nob && x.md == 0) (k h x.d a))
  let gg (k : Reg4 → GReg → GReg → Instr) := orField (do let h ← x.h; when (x.nob && x.md == 0) (k h x.d x.a))
  let ggb (k : Reg4 → GReg → GReg → Src → Instr) :=
    orField (do let h ← x.h; let b ← x.src; when (x.md == 0) (k h x.d x.a b))
  match xop.toNat with
  | 0x00 => orField (do
      let b ← x.src
      when (x.d == 0 && x.a == 0 && x.md == 0 && x.low.extractLsb' 8 4 == 0) (.hitchDecl x.q x.hh b (x.low.extractLsb' 0 8)))
  | 0x01 => orField (do let h ← x.h; when (x.d == 0 && x.a == 0 && x.nob && x.md == 0) (.hitchSign x.q h))
  | 0x02 => pp (.pfoldAnd x.q)
  | 0x03 => pp (.pfoldOr x.q)
  | 0x04 => gp (.pcount x.q)
  | 0x05 => gp (.prank x.q)
  | 0x06 => orField (do let h ← x.h; let d ← pField x.d; when (x.nob && x.md == 0) (.agree x.q h d x.a))
  | 0x07 => orField (do
      let a ← pField x.a
      when (x.nob && x.md == 0 && x.low.extractLsb' 5 7 == 0) (.pbits x.q x.hh x.d a (x.low.extractLsb' 0 5)))
  | 0x08 => ggb (.cycle x.q)
  | 0x09 => ggb (.xrank x.q)
  | 0x0a => gg (.foldAdd x.q)
  | 0x0b => gg (.scanAdd x.q)
  | 0x0c => orField (do
      let h ← x.h
      when (x.nob && x.bitOnly) (if x.bit0 then .foldMaxI x.q h x.d x.a else .foldMinI x.q h x.d x.a))
  | _ => .error .xop

/-- 0x75: queue operations. -/
def of75 (xop : BitVec 8) (x : XF) : Except DecodeError Instr :=
  let f (k : QueueArgs → Instr) :=
    orField (do
      let sc ← scopeOptOfCode x.sc
      when (!x.yb && !x.sx) (k { team := x.qf, scope := sc, esz := x.sz, d := x.d, mem := x.mem, b := x.b }))
  match xop.toNat with
  | 0x00 => f (.enq x.q)
  | 0x01 => f (.deq x.q)
  | 0x02 => f (.enqTry x.q)
  | 0x03 => f (.deqTry x.q)
  | _ => .error .xop

/-- 0x76: bindings (Table 12.9). -/
def of76 (xop : BitVec 8) (x : XF) : Except DecodeError Instr :=
  match xop.toNat with
  | 0x00 => orField (do let d ← qField x.d; when (x.nob && x.md == 0) (.qbindQueue x.q d x.mem))
  | 0x01 => orField (do let d ← qField x.d; when (x.a == 0 && x.nob && x.md == 0 && x.low == 0) (.qbindCopy x.q d))
  | 0x02 => orField (do
      let d ← qField x.d; let k ← y4Field x.a; when (x.nob && x.md == 0 && x.low == 0) (.qbindGather x.q d k))
  | 0x03 => orField (do let d ← qField x.d; when (x.a == 0 && x.nob && x.md == 0 && x.low == 0) (.qunbind x.q d))
  | 0x04 => orField (do let d ← yField x.d; let a ← qField x.a; when (x.nob && x.md == 0 && x.low == 0) (.qstat x.q d a))
  | _ => .error .xop

/-- 0x77: `wait`. -/
def of77 (xop : BitVec 8) (x : XF) : Except DecodeError Instr :=
  match xop.toNat with
  | 0x00 => orField (do
      let nl ← six x.d; let ns ← six x.a
      when (x.nob && x.md == 0 && x.low.extractLsb' 12 4 == 0) (.wait x.q nl ns (x.low.extractLsb' 0 6) (x.low.extractLsb' 6 6)))
  | _ => .error .xop

/-- 0x78: tiles (Table 13.2). -/
def of78 (xop : BitVec 8) (x : XF) : Except DecodeError Instr :=
  match xop.toNat with
  | 0x00 => orField (do let d ← r4Field x.d; let b ← x.src; when (x.a == 0 && x.md == 0 && x.low == 0) (.tcfg x.q d b))
  | 0x01 => orField (do let d ← r4Field x.d; let b ← x.src; when (x.md == 0) (.tld x.q x.hh d x.mem12 b))
  | 0x02 => orField (do let d ← r4Field x.d; let b ← x.src; when (x.md == 0) (.tst x.q x.hh d x.mem12 b))
  | 0x03 => orField (do
      let d ← r4Field x.d; let a ← r4Field x.a; let h ← x.h
      when (x.nob && x.md.extractLsb' 3 5 == 0) (.tmov x.q h (x.md.getLsbD 2) x.rm d a))
  | 0x04 => orField (do
      let d ← r4Field x.d; let h ← x.h
      when (x.a == 0 && x.nob && x.md.extractLsb' 2 6 == 0) (.tzero x.q h d (x.md.extractLsb' 0 2)))
  | _ => .error .xop

/-- 0x79: matrix multiply (Table 13.3). -/
def of79 (xop : BitVec 8) (x : XF) : Except DecodeError Instr :=
  let f (k : MmaArgs → Instr) :=
    orField (do
      let a ← r4Field x.a; let b ← x.src
      some (k { row0 := x.d, a := a, f := b, mf := x.md.extractLsb' 6 2, nf := x.md.extractLsb' 0 6, h := x.hh,
                tb := x.low.extractLsb' 8 4, col := x.low.extractLsb' 2 6, p := x.low.extractLsb' 0 2 }))
  match xop.toNat with
  | 0x00 => f (.mma x.q)
  | 0x01 => f (.mmaSp x.q)
  | 0x02 => f (.mmaSpt x.q)
  | _ => .error .xop

/-- 0x7a: factorisations (R314). -/
def of7a (xop : BitVec 8) (x : XF) : Except DecodeError Instr :=
  let f (k : FactArgs → Instr) :=
    orField (do
      let h ← x.h
      when (x.nob && x.md.extractLsb' 4 4 == 0)
        (k { d := x.d, o := x.a, f64 := x.bit0, flag := x.md.getLsbD 1, pm := x.md.extractLsb' 2 2, h := h }))
  match xop.toNat with
  | 0x00 => f (.mfactLu x.q)
  | 0x01 => f (.mfactChol x.q)
  | 0x02 => f (.mfactQr x.q)
  | 0x03 => orField (do
      let h ← x.h
      when (x.nob && x.md.extractLsb' 6 2 == 0 && x.md.extractLsb' 2 2 == 0)
        (.mtrsm x.q { d := x.d, o := x.a, f64 := x.bit0, flag := x.md.getLsbD 1, up := x.md.getLsbD 4,
                      unit := x.md.getLsbD 5, h := h }))
  | _ => .error .xop

/-- 0x7b: accumulator and permutation moves (Table 13.6). -/
def of7b (xop : BitVec 8) (x : XF) : Except DecodeError Instr :=
  let ct := CellTy.ofCode (x.md.extractLsb' 1 2)
  let f : Fmt := .ofCode (x.md.extractLsb' 4 4)
  let ctOnly : Bool := !x.bit0 && x.md.extractLsb' 3 5 == 0
  match xop.toNat with
  | 0x00 => orField (do
      let t ← ct; let b ← x.src
      if x.bit0 then when (!x.sx) (.accLdMem x.q x.hh t f x.d x.mem12 b)
      else do let d ← r4Field x.d; let h ← x.h; when (ctOnly && x.a == 0) (.accLdTile x.q h t d b))
  | 0x01 => orField (do
      let t ← ct; let b ← x.src
      if x.bit0 then when (!x.sx) (.accStMem x.q x.hh t f x.d x.mem12 b)
      else do let d ← r4Field x.d; let h ← x.h; when (ctOnly && x.a == 0) (.accStTile x.q h t d b))
  | 0x02 => orField (do
      let t ← ct; let b ← x.src; let a ← r4Field x.a; let h ← x.h; when ctOnly (.accSnap x.q h t x.d a b))
  | 0x03 => orField (do let t ← ct; let b ← x.src; let h ← x.h; when (ctOnly && x.d == 0 && x.a == 0) (.accZero x.q h t b))
  | 0x04 => orField (do let d ← pmField x.d; when (x.nob && x.md == 0) (.pmLd x.q x.hh d x.mem12))
  | 0x05 => orField (do let d ← pmField x.d; when (x.nob && x.md == 0) (.pmSt x.q x.hh d x.mem12))
  | 0x06 => orField (do
      let t ← ct; let b ← x.src; let d ← pmField x.d; let h ← x.h; when (ctOnly && x.a == 0) (.pmApply x.q h t d b))
  | 0x07 => orField (do
      let t ← ct; let b ← x.src; let d ← pmField x.d; let h ← x.h; when (ctOnly && x.a == 0) (.pmApplyInv x.q h t d b))
  | _ => .error .xop

/-- Operands of Table 13.7's copies. -/
def copyField (x : XF) : Option CopyArgs :=
  when (!x.yb && x.md.extractLsb' 4 4 == 0 && (x.bit0 || x.low.extractLsb' 9 7 == 0) && x.low.extractLsb' 0 2 == 0)
    { d := x.d, a := x.a, b := x.b, k := x.md.extractLsb' 1 3, c := if x.bit0 then some (x.low.extractLsb' 9 7) else none }

/-- 0x7c: engines. -/
def of7c (xop : BitVec 8) (x : XF) : Except DecodeError Instr :=
  match xop.toNat with
  | 0x00 => orField (do let c ← copyField x; when (x.low.extractLsb' 2 7 == 0) (.copy x.q c))
  | 0x01 => orField (do let c ← copyField x; some (.copyMc x.q c (x.low.extractLsb' 2 7)))
  | 0x02 => orField (when (x.nob && x.md == 0 && x.low == 0) (.ftest x.q x.d x.a))
  | 0x03 => orField (when (x.d == 0 && x.nob && x.md == 0 && x.low == 0) (.fcancel x.q x.a))
  | 0x04 => orField (when (x.nob && x.md == 0) (.relay x.q x.d x.mem))
  | 0x05 => orField (when (x.d == 0 && x.nob && x.md == 0 && x.low == 0) (.join x.q x.a))
  | _ => .error .xop

/-- Operands of R329. -/
def hintField (x : XF) : Option HintArgs :=
  if x.qf then do let k ← yField x.a; some { gmask := x.low, pmask := x.md.extractLsb' 0 7, k := some k }
  else when (x.a == 0) { gmask := x.low, pmask := x.md.extractLsb' 0 7, k := none }

/-- 0x7d: system (Table 13.9). -/
def of7d (xop : BitVec 8) (x : XF) : Except DecodeError Instr :=
  let z : Bool := x.d == 0 && x.nob
  match xop.toNat with
  | 0x00 => orField (when (z && x.a == 0 && x.md == 0 && x.low == 0) (.nop x.q))
  | 0x01 => orField (when (z && x.a == 0 && x.md == 0 && x.low.extractLsb' 8 8 == 0) (.trap x.q (x.low.extractLsb' 0 8)))
  | 0x02 => orField (when (z && x.a == 0 && x.md == 0 && x.low.extractLsb' 8 8 == 0) (.brk x.q (x.low.extractLsb' 0 8)))
  | 0x03 => orField (do let k ← hintField x; when z (.commit x.q k))
  | 0x04 => orField (do let k ← hintField x; when z (.phint x.q k))
  | 0x05 => orField (when (z && x.a == 0 && x.md == 0) (.sleep x.q x.low))
  | _ => .error .xop

/-- Format X by major. -/
def ofTwo (maj : BitVec 7) (xop : BitVec 8) (x : XF) : Except DecodeError Instr :=
  match maj.toNat with
  | 0x1b => of1b xop x
  | 0x1c => of1c xop x
  | 0x1d => of1d xop x
  | 0x1e => of1e xop x
  | 0x1f => of1f xop x
  | 0x20 => of20 xop x
  | 0x24 => of24 xop x
  | 0x25 => of25 xop x
  | 0x40 => ofFp2 false xop x
  | 0x41 => ofFp2 true xop x
  | 0x42 => ofFp .f16 xop x
  | 0x43 => ofFp .bf16 xop x
  | 0x44 => of44 xop x
  | 0x45 => of45 xop x
  | 0x46 => of46 xop x
  | 0x48 => of48 xop x
  | 0x49 => of49 xop x
  | 0x4a => of4a xop x
  | 0x4b => of4b xop x
  | 0x4c => of4c xop x
  | 0x60 => of60 xop x
  | 0x61 => of61 xop x
  | 0x63 => of63 xop x
  | 0x64 => of64 xop x
  | 0x70 => of70 xop x
  | 0x71 => of71 xop x
  | 0x72 => of72 xop x
  | 0x73 => of73 xop x
  | 0x74 => of74 xop x
  | 0x75 => of75 xop x
  | 0x76 => of76 xop x
  | 0x77 => of77 xop x
  | 0x78 => of78 xop x
  | 0x79 => of79 xop x
  | 0x7a => of7a xop x
  | 0x7b => of7b xop x
  | 0x7c => of7c xop x
  | 0x7d => of7d xop x
  | _ => .error .major

/-- Fields to an instruction, before the operand checks. -/
def ofEnc : Enc → Except DecodeError Instr
  | .one maj d a b yb q => ofOne maj d a b yb q
  | .imm maj d a i q => ofImm maj d a i q
  | .term maj body q => ofTerm maj body q
  | .two maj d a b yb q xop md low => ofTwo maj xop { q, d, a, b, yb, md, low }
  | .lit maj d a b yb q v =>
    match maj.toNat with
    | 0x22 => orField (when (a == 0 && noB yb b) (.movi q d v))
    | _ => .error .major

/-- The decoder: the instruction at the head of a list of words and the words after it, or the encoding fault. -/
def decode (ws : List Word) : Except DecodeError (Instr × List Word) :=
  match Enc.ofWords ws with
  | .error e => .error e
  | .ok (e, rest) =>
    match ofEnc e with
    | .error x => .error x
    | .ok i => if i.wf then .ok (i, rest) else .error .operand

/-- A little-endian word (R4). -/
def wordOfBytes (b0 b1 b2 b3 : Byte) : Word := b3 ++ b2 ++ b1 ++ b0

/-- Bytes to words, the word at the lowest address first; bytes that fill no word are dropped. -/
def wordsOfBytes : List Byte → List Word
  | b0 :: b1 :: b2 :: b3 :: rest => wordOfBytes b0 b1 b2 b3 :: wordsOfBytes rest
  | _ => []

/-- Words to bytes, as memory holds them. -/
def bytesOfWords : List Word → List Byte
  | [] => []
  | w :: rest => w.extractLsb' 0 8 :: w.extractLsb' 8 8 :: w.extractLsb' 16 8 :: w.extractLsb' 24 8 :: bytesOfWords rest

/-- The two words of an instruction whose bits are `w`, its first word the least significant; the second word follows it. -/
def tableWords (w : Nat) : List Word := [BitVec.ofNat 32 w, BitVec.ofNat 32 (w / 4294967296)]

/-- The instruction this decoder reads from the bits of an opcode-table row; bits from `nbits` up are zero. -/
def decodeTableWord (nbits w : Nat) : Option Instr :=
  match decode (wordsOfBytes (bytesOfWords (tableWords (w % 2 ^ nbits)))) with
  | .ok (i, _) => some i
  | .error _ => none

end Sys2Proof
end

