-- ==== Sys2Proof/Machine/Num.lean ====
section
/-! DEFINITION. Number formats and rounding (file 07): encodings to values, exact arithmetic on values, one rounding to an
encoding, with the flags of R182. Everything is computed on naturals and integers and narrowed once at the end. -/

namespace Sys2Proof.Machine

/-- The five flags in the bit order of Table 2.4: NV, DZ, OF, UF, NX. -/
abbrev Flags5 := BitVec 5
def flNV : Flags5 := 1
def flDZ : Flags5 := 2
def flOF : Flags5 := 4
def flUF : Flags5 := 8
def flNX : Flags5 := 16

/-- What the top exponent of a format encodes (R165, R166). -/
inductive NanKind where
  /-- infinity and NaN, quiet when the top fraction bit is set -/
  | ieee
  /-- infinity and NaN, every NaN quiet (E5M2) -/
  | quiet
  /-- one NaN per sign, no infinity (E4M3) -/
  | one
  /-- numbers only -/
  | none
deriving DecidableEq, Repr

/-- The parameters of a floating-point format other than E8M0 (Tables 7.2, 7.3): fraction bits, width, bias, pattern of the
largest finite magnitude, default NaN. -/
structure FFmt where
  m : Nat
  w : Nat
  bias : Nat
  top : Nat
  kind : NanKind
  nan : Nat
deriving DecidableEq, Repr

def f64 : FFmt := { m := 52, w := 64, bias := 1023, top := 0x7fefffffffffffff, kind := .ieee, nan := 0x7ff8000000000000 }
def f32 : FFmt := { m := 23, w := 32, bias := 127, top := 0x7f7fffff, kind := .ieee, nan := 0x7fc00000 }
def f16 : FFmt := { m := 10, w := 16, bias := 15, top := 0x7bff, kind := .ieee, nan := 0x7e00 }
def bf16 : FFmt := { m := 7, w := 16, bias := 127, top := 0x7f7f, kind := .ieee, nan := 0x7fc0 }
def e4m3 : FFmt := { m := 3, w := 8, bias := 7, top := 0x7e, kind := .one, nan := 0x7f }
def e5m2 : FFmt := { m := 2, w := 8, bias := 15, top := 0x7b, kind := .quiet, nan := 0x7f }
def e3m2 : FFmt := { m := 2, w := 6, bias := 3, top := 0x1f, kind := .none, nan := 0 }
def e2m3 : FFmt := { m := 3, w := 6, bias := 1, top := 0x1f, kind := .none, nan := 0 }
def e2m1 : FFmt := { m := 1, w := 4, bias := 1, top := 0x7, kind := .none, nan := 0 }

/-- The exact value of an encoding: `fin s m e` is (-1)^s m 2^e. -/
inductive FV where
  | nan (s sig : Bool) (frac : Nat)
  | inf (s : Bool)
  | fin (s : Bool) (m : Nat) (e : Int)
deriving DecidableEq, Repr, Inhabited

namespace FFmt

/-- Bits of the sign. -/
def sbit (f : FFmt) (s : Bool) : Nat := if s then 2 ^ (f.w - 1) else 0
/-- Smallest normal exponent (R170). -/
def emin (f : FFmt) : Int := 1 - (f.bias : Int)
/-- Whether the format has infinities. -/
def hasInf (f : FFmt) : Bool := f.kind == .ieee || f.kind == .quiet
/-- Pattern of +infinity: the one after the largest finite magnitude. -/
def infP (f : FFmt) : Nat := f.top + 1

/-- The value of an encoding (R165, R166). -/
def val (f : FFmt) (x : Nat) : FV :=
  let s : Bool := x / 2 ^ (f.w - 1) % 2 == 1
  let mag := x % 2 ^ (f.w - 1)
  let frac := mag % 2 ^ f.m
  let e := mag / 2 ^ f.m
  if mag ≤ f.top then
    if e = 0 then .fin s frac (f.emin - f.m) else .fin s (2 ^ f.m + frac) ((e : Int) - f.bias - f.m)
  else if f.hasInf && mag == f.infP then .inf s
  else .nan s (f.kind == .ieee && frac / 2 ^ (f.m - 1) % 2 == 0) frac

end FFmt

/-- An exact value or one known to lie strictly between two neighbouring multiples of 2^e: (-1)^s (m + sticky) 2^e. -/
structure Exact where
  s : Bool
  m : Nat
  e : Int
  sticky : Bool
deriving DecidableEq, Repr

/-- An encoding with the flags its computation sets. -/
structure FR where
  bits : Nat
  fl : Flags5
deriving DecidableEq, Repr, Inhabited

/-- The integer that a mode takes for `c + fraction`, the fraction given by its remainder `r` of `d` and a sticky bit (R170). -/
def roundInt (rm : Rm) (s : Bool) (c r d : Nat) (sticky : Bool) : Nat :=
  let exact : Bool := r == 0 && !sticky
  match rm with
  | .rz => c
  | .ru => if exact || s then c else c + 1
  | .rd => if exact || !s then c else c + 1
  | .rne => if d < 2 * r || (2 * r == d && (sticky || c % 2 == 1)) then c + 1 else c

/-- m 2^e as a multiple c of 2^q with the remainder r of d. -/
def scaleTo (m : Nat) (e q : Int) : Nat × Nat × Nat :=
  if q ≤ e then (m * 2 ^ (e - q).toNat, 0, 1)
  else
    let d := 2 ^ (q - e).toNat
    (m / d, m % d, d)

/-- Overflow of a magnitude (R171): the pattern of the result. -/
def overflowP (f : FFmt) (rm : Rm) (s : Bool) : Nat :=
  if f.hasInf && (rm == .rne || (rm == .ru && !s) || (rm == .rd && s)) then f.infP else f.top

/-- Round of R170 and R171 on an exact value. -/
def roundTo (f : FFmt) (rm : Rm) (x : Exact) : FR :=
  if x.m = 0 && !x.sticky then { bits := f.sbit x.s, fl := 0 }
  else
    let lg : Int := (Nat.log2 x.m : Int) + x.e
    let e := max lg f.emin
    let q := e - f.m
    let (c, r, d) := scaleTo x.m x.e q
    let exact : Bool := r == 0 && !x.sticky
    let n := roundInt rm x.s c r d x.sticky
    let pat := if n < 2 ^ f.m then n else (e - f.emin).toNat * 2 ^ f.m + n
    if f.top < pat then { bits := f.sbit x.s + overflowP f rm x.s, fl := flOF ||| flNX }
    else
      { bits := f.sbit x.s + pat,
        fl := if exact then 0 else if lg < f.emin then flNX ||| flUF else flNX }

/-- A NaN with the top bit of its fraction set (R252). -/
def quietP (f : FFmt) (x : Nat) : Nat := x ||| 2 ^ (f.m - 1)
/-- Infinity of a sign. -/
def infOf (f : FFmt) (s : Bool) : Nat := f.sbit s + f.infP

def FV.isNan : FV → Bool
  | .nan _ _ _ => true
  | _ => false
def FV.isSig : FV → Bool
  | .nan _ b _ => b
  | _ => false
def FV.isInf : FV → Bool
  | .inf _ => true
  | _ => false
def FV.isZero : FV → Bool
  | .fin _ 0 _ => true
  | _ => false
def FV.sign : FV → Bool
  | .nan s _ _ => s
  | .inf s => s
  | .fin s _ _ => s

/-- The result of an operation with a NaN operand or an invalid operation (R252): operands in order. -/
def nanRule (f : FFmt) (ops : List Nat) (invalid : Bool) : FR :=
  let fl := if invalid || ops.any (fun x => (f.val x).isSig) then flNV else 0
  match ops.find? (fun x => (f.val x).isNan) with
  | some x => { bits := quietP f x, fl := fl }
  | none => { bits := f.nan, fl := fl }

/-- The exact sum of two finite values; an exact zero takes the sign of R254. -/
def addExact (rm : Rm) (sa : Bool) (ma : Nat) (ea : Int) (sb : Bool) (mb : Nat) (eb : Int) : Exact :=
  let e := min ea eb
  let a : Int := ((ma * 2 ^ (ea - e).toNat : Nat) : Int)
  let b : Int := ((mb * 2 ^ (eb - e).toNat : Nat) : Int)
  let v := (if sa then -a else a) + (if sb then -b else b)
  let s := if v = 0 then (if sa == sb then sa else rm == .rd) else decide (v < 0)
  { s := s, m := v.natAbs, e := e, sticky := false }

/-- a + b (R253 to R255). -/
def fpAdd (f : FFmt) (rm : Rm) (a b : Nat) : FR :=
  match f.val a, f.val b with
  | .fin sa ma ea, .fin sb mb eb => roundTo f rm (addExact rm sa ma ea sb mb eb)
  | .inf sa, .inf sb => if sa == sb then { bits := infOf f sa, fl := 0 } else nanRule f [a, b] true
  | .inf sa, .fin _ _ _ => { bits := infOf f sa, fl := 0 }
  | .fin _ _ _, .inf sb => { bits := infOf f sb, fl := 0 }
  | _, _ => nanRule f [a, b] false

/-- Sign flipped, NaNs untouched in kind. -/
def flipSign (f : FFmt) (x : Nat) : Nat := x ^^^ 2 ^ (f.w - 1)

/-- a - b: the sum with b's sign inverted; a NaN operand keeps its own sign (R252). -/
def fpSub (f : FFmt) (rm : Rm) (a b : Nat) : FR :=
  if (f.val a).isNan || (f.val b).isNan then nanRule f [a, b] false else
    fpAdd f rm a (flipSign f b)

/-- a * b. -/
def fpMul (f : FFmt) (rm : Rm) (a b : Nat) : FR :=
  match f.val a, f.val b with
  | .fin sa ma ea, .fin sb mb eb => roundTo f rm { s := sa != sb, m := ma * mb, e := ea + eb, sticky := false }
  | .inf sa, .inf sb => { bits := infOf f (sa != sb), fl := 0 }
  | .inf sa, .fin sb m _ => if m = 0 then nanRule f [a, b] true else { bits := infOf f (sa != sb), fl := 0 }
  | .fin sa m _, .inf sb => if m = 0 then nanRule f [a, b] true else { bits := infOf f (sa != sb), fl := 0 }
  | _, _ => nanRule f [a, b] false

/-- Whether a * b is 0 times infinity. -/
def zeroTimesInf (f : FFmt) (a b : Nat) : Bool :=
  ((f.val a).isZero && (f.val b).isInf) || ((f.val a).isInf && (f.val b).isZero)

/-- a * b + c, rounded once. 0 times infinity is invalid even beside a NaN c (R255). -/
def fpFma (f : FFmt) (rm : Rm) (a b c : Nat) : FR :=
  if zeroTimesInf f a b then nanRule f [a, b, c] true else
  match f.val a, f.val b, f.val c with
  | .fin sa ma ea, .fin sb mb eb, .fin sc mc ec => roundTo f rm (addExact rm (sa != sb) (ma * mb) (ea + eb) sc mc ec)
  | .fin _ _ _, .fin _ _ _, .inf sc => { bits := infOf f sc, fl := 0 }
  | va, vb, vc =>
    if va.isNan || vb.isNan || vc.isNan then nanRule f [a, b, c] false
    else if vc.isInf && vc.sign != (va.sign != vb.sign) then nanRule f [a, b, c] true
    else { bits := infOf f (va.sign != vb.sign), fl := 0 }

/-- a / b with enough quotient bits and a sticky remainder. -/
def fpDiv (f : FFmt) (rm : Rm) (a b : Nat) : FR :=
  match f.val a, f.val b with
  | .fin sa ma ea, .fin sb mb eb =>
    if mb = 0 then
      if ma = 0 then nanRule f [a, b] true else { bits := infOf f (sa != sb), fl := flDZ }
    else
      let k := f.m + 4 + Nat.log2 mb
      let n := ma * 2 ^ k
      roundTo f rm { s := sa != sb, m := n / mb, e := ea - eb - k, sticky := n % mb != 0 }
  | .inf _, .inf _ => nanRule f [a, b] true
  | .inf sa, .fin sb _ _ => { bits := infOf f (sa != sb), fl := 0 }
  | .fin sa _ _, .inf sb => { bits := f.sbit (sa != sb), fl := 0 }
  | _, _ => nanRule f [a, b] false

/-- The bits of the integer square root of n from bit `k - 1` down. -/
def isqrtGo (n : Nat) : Nat → Nat → Nat
  | 0, acc => acc
  | k + 1, acc => if (acc + 2 ^ k) * (acc + 2 ^ k) ≤ n then isqrtGo n k (acc + 2 ^ k) else isqrtGo n k acc
/-- floor of the square root. -/
def isqrt (n : Nat) : Nat := isqrtGo n (Nat.log2 n / 2 + 1) 0

/-- The square root of a positive dyadic m 2^e as a dyadic with a sticky bit and at least `bits` bits. -/
def sqrtExact (m : Nat) (e : Int) (bits : Nat) : Exact :=
  let odd := e % 2 != 0
  let n := m * 2 ^ (2 * bits) * (if odd then 2 else 1)
  let r := isqrt n
  { s := false, m := r, e := ((if odd then e - 1 else e) - 2 * bits) / 2, sticky := r * r != n }

/-- √a. -/
def fpSqrt (f : FFmt) (rm : Rm) (a : Nat) : FR :=
  match f.val a with
  | .fin s m e =>
    if m = 0 then { bits := a, fl := 0 }
    else if s then nanRule f [a] true
    else roundTo f rm (sqrtExact m e (f.m + 3))
  | .inf s => if s then nanRule f [a] true else { bits := a, fl := 0 }
  | .nan _ _ _ => nanRule f [a] false

/-- 1.0 of a format. -/
def onePat (f : FFmt) : Nat := f.bias * 2 ^ f.m

/-- Order of two values neither of which is a NaN, with -0 below +0 when `zeros`. -/
def fvLt (zeros : Bool) : FV → FV → Bool
  | .inf sa, y => sa && !(match y with | .inf sb => sb | _ => false)
  | .fin _ _ _, .inf sb => !sb
  | .fin sa ma ea, .fin sb mb eb =>
    if ma = 0 && mb = 0 then zeros && sa && !sb
    else
      let e := min ea eb
      let a : Int := ((ma * 2 ^ (ea - e).toNat : Nat) : Int)
      let b : Int := ((mb * 2 ^ (eb - e).toNat : Nat) : Int)
      decide ((if sa then -a else a) < (if sb then -b else b))
  | _, _ => false

/-- `fmin` and `fmax` (R256). -/
def fpMinMax (f : FFmt) (isMax : Bool) (a b : Nat) : FR :=
  let va := f.val a
  let vb := f.val b
  let fl := if va.isSig || vb.isSig then flNV else 0
  { bits :=
      if va.isNan && vb.isNan then f.nan
      else if va.isNan then b
      else if vb.isNan then a
      else if isMax then (if fvLt true va vb then b else a)
      else (if fvLt true vb va then b else a),
    fl := fl }

/-- The rounding-to-integral operations (R258): NX only when `nx`. -/
def fpIntegral (f : FFmt) (rm : Rm) (nx : Bool) (a : Nat) : FR :=
  match f.val a with
  | .fin s m e =>
    if 0 ≤ e then { bits := a, fl := 0 }
    else
      let (c, r, d) := scaleTo m e 0
      let n := roundInt rm s c r d false
      let y := roundTo f rm { s := s, m := n, e := 0, sticky := false }
      { bits := y.bits, fl := if nx && r != 0 then flNX else 0 }
  | .inf _ => { bits := a, fl := 0 }
  | .nan _ _ _ => nanRule f [a] false

/-- The conditions of Table 11.5. -/
def fpCond (f : FFmt) (c : FCond) (a b : Nat) : Bool × Flags5 :=
  let va := f.val a
  let vb := f.val b
  let un := va.isNan || vb.isNan
  let sig := if va.isSig || vb.isSig then flNV else 0
  let unNV := if un then flNV else 0
  let lt := fvLt false va vb
  let gt := fvLt false vb va
  match c with
  | .eq => (!un && !lt && !gt, sig)
  | .ne => (un || lt || gt, sig)
  | .lt => (!un && lt, unNV)
  | .le => (!un && !gt, unNV)
  | .gt => (!un && gt, unNV)
  | .ge => (!un && !lt, unNV)
  | .num => (!un, sig)
  | .nan => (un, sig)

/-- `fclass` (Table 11.6). -/
def fpClass (f : FFmt) (a : Nat) : Word :=
  match f.val a with
  | .nan _ sig _ => if sig then 1 else 2
  | .inf s => if s then 4 else 512
  | .fin s m e =>
    if m = 0 then (if s then 32 else 64)
    else if m < 2 ^ f.m && e = f.emin - f.m then (if s then 16 else 128) else (if s then 8 else 256)

/-! Conversions (R172 to R177). -/

/-- A NaN carried into a format (R172). -/
def nanInto (f g : FFmt) (s sig : Bool) (frac : Nat) : FR :=
  let nv := if sig then flNV else 0
  match g.kind with
  | .ieee =>
    let fr := if f.m ≤ g.m then frac * 2 ^ (g.m - f.m) else frac / 2 ^ (f.m - g.m)
    { bits := g.sbit s + g.infP + (fr ||| 2 ^ (g.m - 1)), fl := nv }
  | .quiet | .one => { bits := g.nan, fl := nv }
  | .none => { bits := 0, fl := flNV }

/-- An infinity carried into a format (R172). -/
def infInto (g : FFmt) (s : Bool) : FR :=
  if g.hasInf then { bits := infOf g s, fl := 0 } else { bits := g.sbit s + g.top, fl := flNV }

/-- Round(x, g, rm) of an encoding of f (R170 to R172). -/
def cvtFF (f g : FFmt) (rm : Rm) (x : Nat) : FR :=
  match f.val x with
  | .nan s sig frac => nanInto f g s sig frac
  | .inf s => infInto g s
  | .fin s m e => roundTo g rm { s := s, m := m, e := e, sticky := false }

/-- Saturation to a range: the integer and whether it moved. -/
def saturate (lo hi v : Int) : Int × Bool := if v < lo then (lo, true) else if hi < v then (hi, true) else (v, false)

/-- Conversion to an integer range (R173). -/
def cvtFI (f : FFmt) (lo hi : Int) (rm : Rm) (x : Nat) : Int × Flags5 :=
  match f.val x with
  | .nan _ _ _ => (0, flNV)
  | .inf s => (if s then lo else hi, flNV)
  | .fin s m e =>
    let (c, r, d) := scaleTo m e 0
    let n : Int := ((roundInt rm s c r d false : Nat) : Int)
    let (v, sat) := saturate lo hi (if s then -n else n)
    (v, if sat then flNV else if r != 0 then flNX else 0)

/-- An exact integer into a floating-point format. -/
def cvtIF (g : FFmt) (rm : Rm) (v : Int) : FR := roundTo g rm { s := decide (v < 0), m := v.natAbs, e := 0, sticky := false }

/-- A positive finite value m 2^e to E8M0 (R174). -/
def e8m0Of (rm : Rm) (m : Nat) (e : Int) : FR :=
  let a : Int := (Nat.log2 m : Int) + e
  let pow := m == 2 ^ Nat.log2 m
  let up : Bool :=
    match rm with
    | .rz | .rd => false
    | .ru => true
    | .rne =>
      let t := 2 * m
      let h := 3 * 2 ^ Nat.log2 m
      decide (h < t) || (t == h && (a + 127) % 2 != 0)
  let k := if pow then a else if up then a + 1 else a
  let r := k + 127
  if r < 0 then { bits := 0, fl := flUF ||| flNX }
  else if 254 < r then { bits := 254, fl := flOF ||| flNX }
  else { bits := r.toNat, fl := if pow then 0 else flNX }

/-- Conversion to E8M0 of an encoding of f (R174). -/
def cvtFE (f : FFmt) (rm : Rm) (x : Nat) : FR :=
  match f.val x with
  | .nan _ _ _ => { bits := 0xff, fl := flNV }
  | .inf s => if s then { bits := 0xff, fl := flNV } else { bits := 0xfe, fl := flNV }
  | .fin s m e => if s || m = 0 then { bits := 0xff, fl := flNV } else e8m0Of rm m e

/-- Parameters of a floating-point format code other than E8M0. -/
def ffmt : Fmt → Option FFmt
  | .fp64 => some f64 | .fp32 => some f32 | .fp16 => some f16 | .bf16 => some bf16 | .e4m3 => some e4m3
  | .e5m2 => some e5m2 | .e3m2 => some e3m2 | .e2m3 => some e2m3 | .e2m1 => some e2m1 | _ => none

/-- Element width in bits (Table 7.1). -/
def fbits : Fmt → Nat
  | .none => 0 | .fp64 => 64 | .fp32 => 32 | .fp16 => 16 | .bf16 => 16 | .e4m3 => 8 | .e5m2 => 8 | .e3m2 => 6 | .e2m3 => 6
  | .e2m1 => 4 | .e8m0 => 8 | .int8 => 8 | .n8 => 8 | .int4 => 4 | .n4 => 4 | .int32 => 32

/-- Range of an integer format (R168). -/
def frange : Fmt → Option (Int × Int)
  | .int8 => some (-128, 127) | .n8 => some (0, 255) | .int4 => some (-8, 7) | .n4 => some (0, 15)
  | .int32 => some (-2147483648, 2147483647) | _ => none

/-- The integer that an integer encoding stands for. -/
def intVal (f : Fmt) (x : Nat) : Int :=
  match f with
  | .int8 | .int4 | .int32 => if x % 2 ^ (fbits f) < 2 ^ ((fbits f) - 1) then ((x % 2 ^ (fbits f) : Nat) : Int) else ((x % 2 ^ (fbits f) : Nat) : Int) - 2 ^ (fbits f)
  | _ => ((x % 2 ^ (fbits f) : Nat) : Int)

/-- An integer as the low bits of a field. -/
def intBits (w : Nat) (v : Int) : Nat := (v % 2 ^ w).toNat

/-- The E8M0 value of a field as an FP32-like exact value (R167). -/
def e8m0Val (x : Nat) : FV := if x % 256 = 255 then .nan false false 0 else .fin false 1 (((x % 256 : Nat) : Int) - 127)

/-- Conversion of an element between any two formats (R175): destination, source, mode, source bits. A NaN of E8M0 converts
as a quiet NaN without payload. -/
def convert (g f : Fmt) (rm : Rm) (x : Nat) : FR :=
  let x := x % 2 ^ (fbits f)
  match ffmt f with
  | some ff =>
    match ffmt g, frange g with
    | some gg, _ => cvtFF ff gg rm x
    | none, some (lo, hi) => let r := cvtFI ff lo hi rm x; { bits := intBits (fbits g) r.1, fl := r.2 }
    | none, none => cvtFE ff rm x
  | none =>
    match frange f with
    | some _ =>
      let v := intVal f x
      match ffmt g, frange g with
      | some gg, _ => cvtIF gg rm v
      | none, some (lo, hi) => { bits := intBits (fbits g) (saturate lo hi v).1, fl := 0 }
      | none, none => if v ≤ 0 then { bits := 0xff, fl := flNV } else e8m0Of rm v.natAbs 0
    | none =>
      match e8m0Val x with
      | .fin s m e =>
        match ffmt g, frange g with
        | some gg, _ => roundTo gg rm { s := s, m := m, e := e, sticky := false }
        | none, some (lo, hi) =>
          let (c, r, d) := scaleTo m e 0
          let n : Int := ((roundInt rm s c r d false : Nat) : Int)
          let (v, sat) := saturate lo hi n
          { bits := intBits (fbits g) v, fl := if sat then flNV else if r != 0 then flNX else 0 }
        | none, none => { bits := x, fl := 0 }
      | _ =>
        match ffmt g, frange g with
        | some gg, _ => nanInto f32 gg false false 0
        | none, some _ => { bits := 0, fl := flNV }
        | none, none => { bits := 0xff, fl := flNV }

/-- Stochastic rounding of R179: `w` is the drawn word. Larger magnitudes, infinities and NaNs convert as under RNE. -/
def convertSr (g : FFmt) (w : Word) (x : Nat) : FR :=
  match f32.val x with
  | .fin s m e =>
    if m = 0 then cvtFF f32 g .rne x
    else
      let lo := roundTo g .rz { s := s, m := m, e := e, sticky := false }
      if lo.fl = 0 then lo
      else if lo.fl &&& flOF != 0 then cvtFF f32 g .rne x
      else
        let lg : Int := (Nat.log2 m : Int) + e
        let q := max lg g.emin - g.m
        let (_, r, d) := scaleTo m e q
        let t := r * 4294967296 / d
        let pat := lo.bits % 2 ^ (g.w - 1)
        if pat = g.top then cvtFF f32 g .rne x
        else if w.toNat < t then { bits := lo.bits + 1, fl := lo.fl } else lo
  | _ => cvtFF f32 g .rne x

/-- One Galois step of a generator (R178). -/
def galois (g : Word) : Word := if g.getLsbD 0 then (g >>> 1) ^^^ 0x80200003 else g >>> 1

end Sys2Proof.Machine
end

