-- ==== Sys2Proof/Config.lean ====
section
/-! DEFINITION. What an implementation or the surroundings fix, and the free values: opaque constants, so no proof can
see what they are (notes/assumptions/3.md). The numbers the spec itself fixes for the part stand here as plain definitions. -/

namespace Sys2Proof.Config

/-- FREE VALUE: a choice the spec leaves open, drawn with a fresh number each time (R42, R78, R89, R144, R218). -/
opaque choice : Nat → Nat
/-- FREE VALUE: the word an implementation chooses within Table 11.4 for `frsq`, `fex2`, `flg2`, `fsin`, `fcos` (R259):
operation code, operand, number of allowed results; the same operand always gives the same result. -/
opaque approx : Nat → BitVec 64 → Nat → Nat
/-- FREE VALUE: the non-zero value a waiter-list head holds for a request (R119 gives no encoding). -/
opaque waiterHead : Nat → BitVec 31
/-- FREE VALUE: the byte read at an address through a key slot other than the one that wrote its sector (R412). -/
opaque wrongKeyByte : (writer reader : BitVec 9) → (pa : Nat) → BitVec 8 → BitVec 8
/-- FREE VALUE: the device's STATE field of a relay slot (R32: device-owned). -/
opaque slotState : Nat → BitVec 64
/-- What a native instruction of a translation is there for: it is a Hinus instruction; a `next` that cuts a segment; a move of a value, the
zero that a word of a virtual register starts with, a save to a spill slot or a load from one; or it makes addresses and frames. -/
inductive HinRole where
  | own | cut | move | zero (v w : Nat) | save (slot : Nat) | load (slot : Nat) | frame
deriving DecidableEq, Repr
/-- The segment and body word that a native instruction stands for, and its role (R365). -/
structure HinPlace where
  seg : Nat
  body : Nat
  role : HinRole
deriving DecidableEq, Repr
/-- What the Hinus translator answers: native text with the segment addresses in place, the text offset of each segment's first
clause, the STACK of each symbol with its spill slots, and the place of each native instruction in the Hinus code (R359, R363 to R365). -/
structure Translated where
  text : List (BitVec 32)
  segs : List (BitVec 32)
  stk : List (BitVec 32)
  places : List HinPlace
/-- FREE VALUE: the translator's choice for the words of a well-formed HINUS section, the sites whose literal is the address of a
segment, and the symbol records; none where its virtual registers cannot be placed (R363, R364, Table 17.7). An answer that is no
translation in the sense of `translationOk` counts as none. -/
opaque hinusTranslate : List (BitVec 32) → List (Nat × Nat) → List (BitVec 256) → Option Translated
/-- FREE VALUE: whether the boot images verify: Farrier, security engine, core images (R414). -/
opaque imageVerifies : Fin 3 → Bool
/-- FREE VALUE: digest of a boot image (R414). -/
opaque imageDigest : Fin 3 → BitVec 512
/-- FREE VALUE: security version of an image and the fused minimum (R414). -/
opaque imageVersion : Nat
opaque fusedMinimum : Nat
/-- FREE VALUE: whether a bulkhead passes self-test at boot, and its working cores up to 24 (R391, R414, R420). -/
opaque selfTest : Nat → Bool
opaque workingCores : Nat → Nat
/-- FREE VALUE: SHA-512 of a byte string, named by R414 and not defined by the spec. -/
opaque sha512 : List (BitVec 8) → BitVec 512
/-- FREE VALUE: unwrapping of a key blob (R413) with the key of the session that these answers were given in: none when it fails. -/
opaque keyUnwrap : List (List (BitVec 8)) → BitVec 576 → Option (BitVec 512)
/-- FREE VALUE: answers of the Farrier's SPDM responder: request kind, request bytes, session phase (R415). -/
opaque spdmAnswer : Nat → BitVec 768 → Nat → List (BitVec 8)
/-- FREE VALUE: whether the FINISH verification of a session holds (R415). -/
opaque spdmFinishOk : BitVec 384 → Bool
/-- FREE VALUE: the syndrome of a logged error (R418). -/
opaque syndrome : Nat → BitVec 32
/-- FREE VALUE: the gang that a partition belongs to, 0 for none, and the packages of a gang (R383 names no register for them). -/
opaque gangOf : BitVec 6 → BitVec 16
opaque gangPackages : BitVec 16 → List (BitVec 14)
/-- FREE VALUE: STRUCT and KIND of the operator's record of a completion record that could not be written (R379). -/
opaque complErr : BitVec 8 × BitVec 8
/-- FREE VALUE: STRUCT of the operator's record of a repair by a spare core (R420; Table 21.1 names no structure for one). -/
opaque repairStruct : BitVec 8
/-- FREE VALUE: the random key of slot 0, drawn at each boot (R412). -/
opaque slot0Key : Nat → BitVec 512
/-- FREE VALUE: the instance number with which an error at an address is logged: slice or controller (Table 21.2). -/
opaque errInstance : Nat → BitVec 13
/-- FREE VALUE: the local address below 2^37 of the n-th sector that a controller scrubs (R419). -/
opaque scrubAddr : Nat → Nat → Nat
/-- FREE VALUE: the die and link at the other end of a die's link (Table 0.1 gives no numbering), and the links that are down after boot. -/
opaque linkPeer : Nat → Nat → Nat × Nat
opaque bootLinkDown : Nat → Nat → Bool
/-- FREE VALUE: the units that a die has working after boot: PCH, SLICES, MEMGIB (R420, Table 21.5). -/
opaque bootUnits : Nat → Nat × Nat × Nat
/-- FREE VALUE: the scale-up lanes that are lost at boot (R420). -/
opaque bootLaneDown : Nat → Bool
/-- FREE VALUE: whether a step of the boot passes, by number of the boot and of the step in R414: 3, the training of HBM, and 5, the
opening of the host attachment. -/
opaque bootStep : Nat → Nat → Bool
/-- FREE VALUE: how much a counter of cache or HBM traffic counts in a step (R421). -/
opaque traffic : Nat → Nat
/-- FREE VALUE: how many words of text the instruction cache and loop buffers of a core hold (R23 gives no size). -/
opaque codeWords : Nat

/-- Stepping of the device: Doroskiq 9 is stepping 9 (R345). -/
def stepping : BitVec 8 := 9
/-- Latencies of Table 16.1 by dependence class (R346). -/
def latency : Nat → Nat
  | 0 => 4 | 1 => 6 | 2 => 24 | 3 => 8 | 4 => 6 | _ => 3
/-- Compute bulkheads of the package (Table 0.1). -/
def bulkheads : Nat := 48
/-- Bytes of a contained block's store buffer with its staging area (R195): 64 KiB and 1 MiB. -/
def stagingBytes : Nat := 65536 + 1048576
/-- Entries of a pair's load-value queue (R201) and of its compare buffer (R202); instructions of slack (R203). -/
def lvqEntries : Nat := 512
def compareEntries : Nat := 64
def slack : Nat := 256
/-- Commands an engine holds for each class (R135). -/
def classDepth : Nat := 64
/-- Entries of the shared TLB of a die (R403). -/
def tlbEntries : Nat := 4096
/-- Entries of the micro-TLB of a core (R403). -/
def microTlbEntries : Nat := 64
/-- Entries that the walk caches of the package keep: free (R403). -/
opaque walkEntries : Nat

end Sys2Proof.Config
end

