-- ==== Sys2Proof/Machine/State.lean ====
section
/-! DEFINITION. The state of the machine as plain data: everything spec/ gives one Doroskiq 9 package and what it exchanges
with its surroundings, the reasons a step can stop, and the state after reset. INVENTORY.md, '## State', names the rule
and the reset value of every piece. Records in flight carry numbers of the model's own (notes/assumptions/4.md). -/

namespace Sys2Proof.Machine

/-- A store of words by address, zero where nothing is listed: addresses strictly rising and no zero entry in the
canonical form. -/
abbrev Sparse (w : Nat) := List (Nat × BitVec w)

/-- Memory by byte address: a list of `Host.Cell`. -/
abbrev Memory := List Host.Cell

/-- The cause codes of Table 8.1 (R183). -/
inductive Cause where
  | illegalClause | illegalOp | formatDivergence | sparseMeta | zeroPivot | notPosdef | viewBounds | viewIndex
  | xlate | permWrite | align | execStore | qcbCorrupt | mcastMask | hitchMisuse | stack | swTrap | brk
  | storeFault | ueConsumed | redundancyFail
deriving DecidableEq, Repr, Inhabited

/-- Why a machine stops. -/
inductive Fault where
  /-- raised by `step` when a boot step has failed: the package stays gated (R414). Safe: it is the spec's own stop. -/
  | gated
deriving DecidableEq, Repr, Inhabited

/-- Why an instruction has no meaning. -/
inductive Refusal where
  /-- raised by `exec` for an instruction that has no meaning in the model yet. Safe: nothing is claimed of it. -/
  | notModelled (mnemonic : String)
deriving DecidableEq, Repr, Inhabited

/-- The three barriers (R291). -/
inductive BarKind where
  | blk | grp | grid
deriving DecidableEq, Repr, Inhabited

/-- A trap as a parked thread records it: cause, address, SUB (R184, Table 8.2), whether a word follows the faulting one, and for an
imprecise store fault the word of the store (R192). -/
structure TrapInfo where
  cause : Cause
  addr : DWord
  sub : BitVec 8
  word : Bool
  tag : Option Word := none
deriving DecidableEq, Repr, Inhabited

/-- One submitted copy command of a COPY binding: status once complete (R130). -/
structure CopySub where
  id : Nat
  status : Option Word
  scope : Scope
deriving DecidableEq, Repr, Inhabited

/-- A push of a gather port: the record number at which its word issued, its index, the word that pushed it, its row once returned (R132, R336). -/
structure Push where
  id : Nat
  word : Nat
  idx : Word
  obj : Word
  pc : Word
  row : Option (List Byte)
deriving DecidableEq, Repr, Inhabited

/-- A gather port (R132). -/
structure GatherPort where
  base : DWord
  stride : Word
  rs : Nat
  pushes : List Push
  cur : List Byte
  lines : List (List Byte)
  gerr : Bool
  /-- words in flight and the pages whose denial each has reported (R336) -/
  seen : List (Nat × Nat)
deriving DecidableEq, Repr, Inhabited

/-- The binding of a queue register (R130). -/
inductive QBind where
  | unbound
  | queue (qcb : DWord) (es : Nat) (scope : Scope)
  | copy (subs : List CopySub)
  | gather (port : GatherPort)
deriving DecidableEq, Repr, Inhabited

/-- What a waiting thread waits for (R16, R19). -/
inductive Wait where
  /-- a hitch it has signed (R26, R294) -/
  | hitch (h : Reg4)
  /-- a barrier; `rel` is the release made before its arrival, still in flight (R29, R30) -/
  | barrier (k : BarKind) (rel : Option Nat)
  /-- a blocking queue request (R296) -/
  | queue (req : Nat)
  /-- a read or push of a queue register that cannot proceed; the word issues again (R130, R132, R133) -/
  | qreg (q : QReg) (read : Bool)
  /-- the end of an old binding, in whose place another is then put (R133); `str`: the number of its string -/
  | unbind (q : QReg) (bind : QBind) (str : Nat)
  /-- its `st.nt` stores (R282) -/
  | drain
  /-- outstanding counters (R299) -/
  | counters (nl ns na nt : BitVec 6)
  /-- the other threads of a contained block at a `commit`, with the live state it names (R196, R329) -/
  | commit (gmask : BitVec 16) (pmask : BitVec 7) (ranges : List Word)
  /-- a value its leader has not passed yet (R426) -/
  | loadValue
  /-- its leader, which is to perform an irrevocable operation both have issued (R206) -/
  | leader
  /-- a signature that is not matched yet (R426): of a trap to be taken when it matches, or of a word that issues again -/
  | signature (trap : Option TrapInfo)
  /-- an irrevocable operation whose implicit commit is being taken (R198) -/
  | irrevocable
  /-- room in the store buffer of its contained block (R197) -/
  | staging
deriving DecidableEq, Repr, Inhabited

/-- The status of a thread (R19). -/
inductive TStatus where
  | ready
  | exited
  /-- parked by a trap at the faulting word -/
  | parked (trap : TrapInfo)
  /-- waiting at its word -/
  | waiting (w : Wait)
  /-- not ready until the cycle (R331) -/
  | sleeping (wake : Nat)
  /-- stopped at a `phint` or `commit` by a pre-emption, with the live state it names (R188, R329) -/
  | stopped (gmask : BitVec 16) (pmask : BitVec 7) (ranges : List Word)
deriving DecidableEq, Repr, Inhabited

/-- Destination of a fixed-latency result. -/
inductive ResReg where
  | g (r : GReg)
  | p (r : PReg)
deriving DecidableEq, Repr, Inhabited

/-- A fixed-latency result in scheduled mode (R218, R346): its class, where it goes, the value before it, the value; `mine`: of the clause
the thread is in; `dist`: the distance from its clause to the present one; `late`: the register still holds the value before it. -/
structure PendRes where
  cls : Nat
  dst : ResReg
  old : Word
  new : Word
  mine : Bool
  dist : Nat
  late : Bool
deriving DecidableEq, Repr, Inhabited

/-- The return-address stack: depth and the held entries, youngest first (R246). -/
structure Ras where
  dp : Nat
  held : List Word
deriving DecidableEq, Repr, Inhabited

/-- A thread (R15, R48). -/
structure Thread where
  id : ThreadId
  /-- text byte offset of the word at which it stands -/
  pc : Word
  /-- header of the clause it stands within; none at a clause boundary (R16) -/
  hdr : Option Word
  /-- bytes of the word it stopped at, for the word after it -/
  wlen : Nat
  /-- g-registers by number, zero where not listed -/
  g : Sparse 32
  /-- poisoned g-registers (R416, R417): the surroundings bring the error, a write of the register ends it -/
  gbad : List GReg
  /-- p0 to p6 -/
  p : BitVec 7
  ras : Ras
  status : TStatus
  waitCount : Nat
  ld : Nat
  st : Nat
  as : Nat
  tl : Nat
  /-- g-registers the scoreboard holds (R216) -/
  hold : List GReg
  pend : List PendRes
  /-- last issue cycle of its previous clause, and the cycle in which its present clause began (R218) -/
  lastIssue : Nat
  /-- instructions executed, for the slack of R203 -/
  done : Nat
  /-- its word at an irrevocable operation, trap or exit may be performed: signatures matched (R426), implicit commit made (R198) -/
  granted : Bool
deriving DecidableEq, Repr, Inhabited

/-- One thread's value of a load-value entry: thread index, the record that brings it, the value once it is there. -/
structure LvVal where
  tid : Nat
  src : Nat
  val : Option (List Word)
deriving DecidableEq, Repr, Inhabited

/-- Values one load instruction of a leader string returned, by thread (R201). -/
structure LvEntry where
  pc : Word
  vals : List LvVal
deriving DecidableEq, Repr, Inhabited

/-- Where an access lands: memory by physical address, or a byte of a block's scratchpad. -/
inductive Loc where
  | mem (pa : Nat)
  | scr (blk : Nat) (off : Nat)
deriving DecidableEq, Repr, Inhabited

/-- A byte to be written at a place, with the key slot and the tag of its page. -/
structure LCell where
  loc : Loc
  val : Byte
  key : BitVec 9
  tag : BitVec 12
deriving DecidableEq, Repr, Inhabited

/-- What a signature's match lets happen: a store enters the buffer; a waiting thread's trap or exit is performed; a waiting
thread's irrevocable operation takes its implicit commit (R202, R206). -/
inductive SigKind where
  | store | stop | irrev
deriving DecidableEq, Repr, Inhabited

/-- The part of a signature that one thread contributes: its CRC-32C, and the cells its store writes once it matches. -/
structure SigPart where
  tid : Nat
  crc : Word
  cells : List LCell
  kind : SigKind
deriving DecidableEq, Repr, Inhabited

/-- A signature in the compare buffer of a pair (R202): which side formed it, at which word, over which threads. -/
structure SigEntry where
  wheel : Bool
  pc : Word
  parts : List SigPart
deriving DecidableEq, Repr, Inhabited

/-- A team (R13, R48). -/
structure Team where
  blk : Nat
  wheel : Bool
  idx : Nat
  y : Sparse 32
  /-- yoke registers the scoreboard holds (R216) -/
  yhold : List YReg
  /-- poisoned yoke registers (R416) -/
  ybad : List YReg
  fpflags : BitVec 5
  q : List QBind
  picker : Nat
  lvq : List LvEntry
  sigs : List SigEntry
deriving DecidableEq, Repr, Inhabited

/-- State of a hitch (R26). -/
inductive HState where
  | free | armed | firing
deriving DecidableEq, Repr, Inhabited

/-- A signature of a hitch: the thread, its instruction with the guard field cleared (R27), the values it read (R294, R301). -/
structure Sign where
  th : ThreadId
  ins : Instr
  vals : List Word
  preds : List Bool
deriving DecidableEq, Repr, Inhabited

/-- A hitch register (R26). -/
structure Hitch where
  st : HState
  c : Nat
  m : BitVec 8
  signed : List Sign
  held : List Sign
  /-- a fire that waits: for the owner of a tile or pm register that its checks read, for index entries, for the leaders' fire -/
  late : Bool
  /-- it waits for room in its contained block's store buffer (R197) -/
  room : Bool
deriving DecidableEq, Repr, Inhabited

/-- Matrix status (Table 6.4). -/
structure MatStatus where
  ops : DWord
  maxu : Word
  maxa : Word
  prog : Nat
  active : Bool
  nan : Bool
  fail : Bool
  fcol : BitVec 8
  kind : BitVec 3
deriving DecidableEq, Repr, Inhabited

/-- A matrix operation from its fire until it completes (R143): running, or pending behind an owner. `tc` holds the tile
control registers at the fire (R308). -/
structure MatOp where
  id : Nat
  ins : Instr
  vals : List Word
  signers : List ThreadId
  tc : Sparse 32
  running : Bool
  /-- address of the word, for the event and trap records -/
  pc : Word
  /-- steps that an `acc.snap` has seen completed (R144) -/
  prog : Nat
  /-- the view slots it names with their descriptors, read at the fire (R115) -/
  desc : List (Nat × Option Nat)
  /-- bytes that are still to go into its contained block's store buffer (R197) -/
  stores : Nat
  /-- what a redundant block's leaders store, once its checks are made, in pieces of 512 bytes (R304) -/
  cells : List (List LCell)
deriving DecidableEq, Repr, Inhabited

/-- The block state that a redundant block holds twice, once for its leaders and once for its wheelers (R200). -/
structure Side where
  scratch : Memory
  /-- tile bytes: 16,384 k + offset for register tk -/
  tiles : Memory
  tc : Sparse 32
  /-- cells: 1,024 row + column -/
  acc : Sparse 32
  /-- pm registers: entry 128 k + i -/
  pm : List (BitVec 7)
  mstat : MatStatus
  hitch : List Hitch
  ops : List MatOp
  /-- poisoned bytes (R416, R417): tile bytes by their number, then from 2^24 up cells, from 2^25 up bytes of the scratchpad -/
  poison : List Nat
deriving DecidableEq, Repr, Inhabited

/-- The life of a block (Table 1.5); `held`: saved for the driver, after a trap or under PREEMPT (R185, R380); `releasing`: retiring,
in the release of step 3 of R46. -/
inductive BState where
  | admitted | running | saving | saved | held (trap : Bool) | restoring | killed | retiring | releasing | retired
deriving DecidableEq, Repr, Inhabited

/-- Fields of the shape word (Table 1.3). -/
structure Shape where
  cores : Bool
  red : Bool
  cont : Bool
  gidx : Nat
  gsize : Nat
  stage : Nat
  /-- accumulator rows, 16 ACCROWS -/
  accrows : Nat
  tiles : Nat
  /-- KiB of scratchpad -/
  scratch : Nat
  /-- g-registers per thread -/
  gregs : Nat
  threads : Nat
deriving DecidableEq, Repr, Inhabited

/-- A checkpoint image (R196, R198). -/
structure Image where
  threads : List Thread
  teams : List Team
  lead : Side
  wheels : Side
deriving DecidableEq, Repr, Inhabited

/-- A block (R12, R45). -/
structure Block where
  id : Nat
  handle : DWord
  part : BitVec 6
  /-- number of its launch in the model -/
  launch : Nat
  ident : Word
  grp : Nat
  shape : Shape
  prio : Nat
  principal : BitVec 16
  object : Word
  entry : Word
  frame : DWord
  succ : DWord
  state : BState
  core : Nat
  age : Nat
  /-- generation tag of its scratch (R43, R139) -/
  scrGen : Nat
  /-- its entry of the launch's block-area pool (R385) -/
  pool : Nat
  lead : Side
  wheels : Side
  /-- buffered stores of a contained block, oldest first (R195) -/
  sbuf : List LCell
  ckpt0 : Option Image
  ckpt1 : Option Image
  /-- which half is valid: none, half 0 (false), half 1 (true) -/
  valid : Option Bool
  relaunches : Nat
  mismatch : Bool
  preempt : Bool
  forced : Bool
  /-- an implicit commit is stopping its threads at clause boundaries (R197, R198) -/
  quiesce : Bool
  /-- a rollback waits for its copies in flight (R204) -/
  rolling : Bool
  /-- a checkpoint half written for blocking queue requests and not yet valid: one of them has to proceed (R198) -/
  opening : Option (Bool × List Nat)
  /-- stores of an earlier commit not yet released (R196) -/
  releasing : List LCell
  /-- cycle at which the driver's pre-emption timeout expires (R188) -/
  due : Nat
  /-- the release of its save has been made (R190) -/
  relMade : Bool
  /-- one of its pool pages could not be reached: the block is killed (R385) -/
  lost : Bool
  /-- it is being killed as by CANCEL: it stops at its next clause boundary (R381, R31) -/
  doomed : Bool
  /-- it has been moved from a failed bulkhead with its group and is placed on the cluster of `core` (R398) -/
  moved : Bool
deriving DecidableEq, Repr, Inhabited

/-- A string in progress (R18): where it issues and its members that still execute the clause. -/
structure Str where
  core : Nat
  picker : Nat
  part : BitVec 6
  obj : Word
  hdr : Word
  pc : Word
  /-- its object runs in scheduled mode (R217) -/
  sched : Bool
  members : List ThreadId
  /-- number of its issue: strings of one team perform their uniform words in this order (R242) -/
  seq : Nat
  /-- releases that its last word waits for: a `fence` or a view definition (R290, R114); no further word issues before them -/
  hold : List Nat
  /-- a word performed thread by thread over several steps: the record number at which it began and the threads it has served -/
  opened : Option (Nat × List ThreadId)
deriving DecidableEq, Repr, Inhabited

/-- A byte of an L1 (R79, R80): the threads of the core that have written it since it was last written back, none for a clean byte;
the tag of its page, which travels with it (R95). -/
structure L1Byte where
  core : Nat
  pa : Nat
  val : Byte
  dirty : List ThreadId
  /-- key slot of its page, for the write-back -/
  key : BitVec 9
  tag : BitVec 12
  /-- poisoned (R416, R417) -/
  bad : Bool := false
deriving DecidableEq, Repr, Inhabited

/-- Operations of atomics and reductions (Table 12.6). -/
inductive AtomOp where
  | exch | cas | add | and | or | xor | minI | minN | maxI | maxN | fadd | inc | dec
deriving DecidableEq, Repr, Inhabited

/-- A pending operand of an update-only line (R88). -/
structure UpdOp where
  id : Nat
  th : ThreadId
  core : Nat
  pa : Nat
  key : BitVec 9
  op : AtomOp
  wide : Bool
  val : DWord
deriving DecidableEq, Repr, Inhabited

/-- A guest copy of a line in the L2 of an agent (R65, R82), never dirty, with the key slot and the tag of the page it was read
through (R95). -/
structure Guest where
  agent : Nat
  line : Nat
  data : List Byte
  key : BitVec 9
  tag : BitVec 12
deriving DecidableEq, Repr, Inhabited

/-- A directory entry (Table 3.2). -/
structure DirEntry where
  line : Nat
  coarse : Bool
  ptrs : List Nat
  vec : BitVec 16
deriving DecidableEq, Repr, Inhabited

/-- A write-back on its way to a home (R80, R83, R90). `atL2`: the L2 of the core's die has taken it (R82); `dom`: it carries a
release, atomic or queue write of scope .dom or .sys, exposed to the whole domain at once (R77). -/
structure WB where
  id : Nat
  core : Nat
  th : Option ThreadId
  cells : List Host.Cell
  nt : Bool
  key : BitVec 9
  atL2 : Bool
  dom : Bool
  /-- the contained block whose committed stores it carries: slices send it, and nothing stops it (R196) -/
  cmt : Option Nat := none
  /-- which of its bytes are poisoned: poison goes with the data (R417) -/
  bad : List Nat := []
deriving DecidableEq, Repr, Inhabited

/-- A write-back merged at its home and waiting for acknowledgements (R83); `exposed`: the home's package reads its bytes already,
and guests of other packages are still to be invalidated. -/
structure Merge where
  wb : WB
  waits : List Nat
  exposed : Bool
deriving DecidableEq, Repr, Inhabited

/-- A release in flight (R80): what it waits for, the store and the device step that follow it. -/
structure Rel where
  id : Nat
  th : ThreadId
  core : Nat
  scope : Scope
  /-- write-backs it waits for -/
  waits : List Nat
  /-- pending reductions it waits for (R88) -/
  upd : List Nat
  /-- the bytes of an `st.rel`, made visible once the release is performed (R70) -/
  cells : List LCell
  after : Option Ev
  /-- the acquire that follows it: of a `fence` (R290) -/
  acq : Option Scope := none
  /-- releases of other threads of its word, behind which a view slot is written: its address and the descriptor (R114) -/
  slot : Option (List Nat × Nat × Nat) := none
deriving DecidableEq, Repr, Inhabited

/-- A byte of a load: known, or to be read at the home of an address. -/
inductive LByte where
  | val (b : Byte)
  | at (pa : Nat) (key : BitVec 9)
deriving DecidableEq, Repr, Inhabited

/-- A load not yet bound to its value (R71, R75, R77). -/
structure Load where
  id : Nat
  th : ThreadId
  pc : Word
  core : Nat
  dst : GReg
  size : Nat
  sx : Bool
  /-- may fill the L1: neither an acquire, an atomic nor a view load of a small granule (R77, R107) -/
  fill : Bool
  /-- through a view: served at the composing slice (R105) -/
  view : Bool
  acq : Option Scope
  bytes : List LByte
  /-- tag of the page, for the copies it leaves (R95) -/
  tag : BitVec 12
  /-- number of its word: a team's values of one word are returned together -/
  word : Nat
  /-- a byte that L1 or the scratchpad gave at issue is poisoned -/
  bad : Bool := false
deriving DecidableEq, Repr, Inhabited

/-- Values on their way to registers (R215), written by LOAD_RETURN, and in a redundant block to the load-value queue (R201),
entered by LOAD_VALUE_ENTRY in the place of the record `src`. -/
structure Ret where
  id : Nat
  th : ThreadId
  /-- the word it belongs to -/
  pc : Word := 0
  src : Nat
  outs : List (GReg × Word)
  youts : List (YReg × Word)
  lowersLd : Bool
  poisoned : Bool
  /-- flags set when the value is written (R288) -/
  fl : BitVec 5 := 0
  /-- still to be written to the registers -/
  toReg : Bool
  /-- still to enter the queue -/
  toQueue : Bool
  /-- the word whose values for one team are returned together -/
  word : Option Nat := none
deriving DecidableEq, Repr, Inhabited

/-- A store not yet accepted (R215). -/
structure StAcc where
  id : Nat
  th : ThreadId
deriving DecidableEq, Repr, Inhabited

/-- An atomic on its way to its home (R286, R287). -/
structure AtomReq where
  id : Nat
  th : ThreadId
  pc : Word
  core : Nat
  op : AtomOp
  wide : Bool
  acq : Option Scope
  /-- of scope .dom or .sys (R77) -/
  dom : Bool
  loc : Loc
  key : BitVec 9
  b : DWord
  c : DWord
  dst : GReg
  /-- a reduction merged at arrival (R274, R112): no register is written -/
  red : Bool
  /-- record number at which its word issued: requests of one word are performed in ascending thread index (R289) -/
  word : Nat
deriving DecidableEq, Repr, Inhabited

/-- A byte of a view access: where it lies, its page's key, whether its element is denied. -/
structure VByte where
  pa : Nat
  key : BitVec 9
  denied : Bool
deriving DecidableEq, Repr, Inhabited

/-- A view store of one thread (R109): the string's word it belongs to, its bytes, the release of an `st.rel` before it, the answer of the check (a fault, or
where the bytes go), whether it is scattered and the write-backs that carry it. -/
structure VStore where
  id : Nat
  th : ThreadId
  core : Nat
  pc : Word
  /-- record number at which its word issued: the threads of a word scatter in ascending order (R111) -/
  word : Nat
  va : DWord
  /-- the descriptor of its slot, read once for the whole string; none where the table or the slot was empty (R115) -/
  desc : Option Nat
  data : List Byte
  /-- an `st.nt` (R90) -/
  nt : Bool
  /-- an `st.rel` of scope .dom or .sys (R77) -/
  dom : Bool
  rel : Option Nat
  answer : Option (Option (Cause × DWord))
  /-- pages whose denied index entries it has reported (R95) -/
  pages : List Nat
  bytes : List VByte
  /-- the thread has passed the store, and the scatter may begin -/
  passed : Bool
  scattered : Bool
  wbs : List Nat
deriving DecidableEq, Repr, Inhabited

/-- An access to remote memory in flight (R87). -/
structure Remote where
  id : Nat
  write : Bool
  cells : List Host.Cell
  load : Option Nat
deriving DecidableEq, Repr, Inhabited

/-- A queue request (R121 to R129): its threads in ascending order with their elements, and how far it has come. -/
structure QReq where
  id : Nat
  enq : Bool
  try_ : Bool
  /-- of a `.team` form (R121) -/
  team : Bool
  part : BitVec 6
  handle : DWord
  principal : BitVec 16
  ths : List ThreadId
  elems : List (List Word)
  qcb : DWord
  qcbPa : Nat
  key : BitVec 9
  es : Nat
  scope : Scope
  /-- first element register; status register (none for a queue-register access) -/
  dst : GReg
  stat : Option GReg
  qreg : Option QReg
  core : Nat
  pc : Word
  /-- record number at which its word issued: requests of one word are accepted in order (R121) -/
  word : Nat
  /-- releases that precede an enqueue (R124) -/
  rels : List Nat
  /-- in a home slice's waiter list: the list's order is that of `qreqs` -/
  waiting : Bool
  /-- refused for want of an entry in the waiter table (R128) -/
  refused : Bool
  /-- an enqueue that proceeds: its place in the order of acceptance and the bytes of its elements, not all exposed yet (R122) -/
  moving : Option (Nat × List Nat)
  /-- CODE of its status and the elements taken, once performed -/
  result : Option (Nat × List (List Word))
  /-- a trap of its threads, with its address -/
  trap : Option (Cause × DWord)
  poisoned : Bool
deriving DecidableEq, Repr, Inhabited

/-- A tensor layout record (Table 5.5). -/
structure Layout where
  str : List Nat
  ext : List Nat
  box : List Nat
  zfill : Bool
  rel : Bool
  acq : Bool
  scope : Nat
  cls : Nat
  toGlobal : Bool
  rank : Nat
  es : Nat
  gbase : DWord
deriving DecidableEq, Repr, Inhabited

/-- A copy command in flight (R135 to R139). -/
structure CopyCmd where
  id : Nat
  /-- the issuing or submitting thread -/
  th : ThreadId
  blk : Nat
  part : BitVec 6
  principal : BitVec 16
  launch : Nat
  die : Nat
  /-- the engine that serves it, once one has taken it (R136) -/
  engine : Option Nat
  lay : Layout
  /-- view descriptor captured at issue, zero where the slot was empty (R115) -/
  desc : BitVec 512
  coords : List Int
  /-- where its command lies, for a submission (R131) -/
  cmd : DWord
  succ : DWord
  dst : Option GReg
  /-- byte of the scratchpads where the box begins -/
  off : Nat
  /-- blocks whose scratch it reaches, with the generations recorded at issue (R139); none for one that had retired -/
  targets : List (Option (Nat × Nat))
  /-- targets that missed a chunk -/
  undel : List Nat
  /-- the release of its issue -/
  rel : Nat
  /-- a submission whose command has not been read yet -/
  unread : Bool
  /-- chunks in all and done -/
  total : Nat
  done : Nat
  perm : Bool
  xl : Bool
  index : Bool
  bounds : Bool
  cancelled : Bool
  /-- pages of denied reads already reported (R95) -/
  pages : List Nat
deriving DecidableEq, Repr, Inhabited

/-- State of a copy engine's round-robin (R136): the class being served, whether its quantum is still to be added, the deficits of the
four classes, and for each the commands in the order of their next turn. -/
structure Engine where
  die : Nat
  num : Nat
  cls : Nat
  fresh : Bool
  deficit : List Nat
  turn : List (List Nat)
deriving DecidableEq, Repr, Inhabited

/-- The status word of a completed copy, kept for `ftest` until the thread's next acquire (R137, R323). -/
structure CopyDone where
  th : ThreadId
  dst : GReg
  scope : Nat
  status : Word
deriving DecidableEq, Repr, Inhabited

/-- A `relay` or `join` on its way (R325, R326): what the device takes from the posting block, where the record lies, the handle of
a `join`, and its release. -/
structure RelayReq where
  id : Nat
  th : ThreadId
  part : BitVec 6
  launch : Nat
  ident : Word
  prio : Nat
  principal : BitVec 16
  cont : Bool
  red : Bool
  loc : Loc
  key : BitVec 9
  denied : Bool
  dst : GReg
  va : DWord
  join : Option DWord
  rel : Nat
deriving DecidableEq, Repr, Inhabited

/-- The life of a relay record (Table 1.4). -/
inductive RState where
  | held | ready | running
deriving DecidableEq, Repr, Inhabited

/-- A relay record (Table 1.2) with the die, slot and generation it occupies. `seq` gives the order within a source;
`gen`: generated from a launch packet into that bulkhead. -/
structure Record where
  part : BitVec 6
  die : Nat
  slot : Nat
  handle : DWord
  succ : DWord
  affinity : DWord
  launch : Nat
  ident : Word
  grp : Nat
  prio : Nat
  principal : BitVec 16
  join : Nat
  shape : Shape
  frame : DWord
  entry : Word
  object : Word
  state : RState
  seq : Nat
  gen : Option Nat
deriving DecidableEq, Repr, Inhabited

/-- A relay area of a partition on a die (R36, R386): slots, generations of the slots, and whether a fill is running. -/
structure RelayArea where
  part : BitVec 6
  die : Nat
  enabled : Bool
  busy : Bool
  slots : Nat
  gens : Sparse 8
deriving DecidableEq, Repr, Inhabited

/-- A stage of a launch packet (R375). -/
structure StageDesc where
  shape : Shape
  gcount : Nat
deriving DecidableEq, Repr, Inhabited

/-- A launch (R47, R374 to R381) with the fields of its packet and of its resource record (Tables 18.3, 18.8). -/
structure Launch where
  id : Nat
  part : BitVec 6
  ident : Word
  vf : Nat
  queue : Nat
  object : Word
  entry : Word
  frame : DWord
  compl : DWord
  complDev : Bool
  waith : DWord
  principal : BitVec 16
  salt : Nat
  privkb : Nat
  prio : Nat
  cont : Bool
  red : Bool
  cores : Bool
  gang : Bool
  tag : DWord
  stages : List StageDesc
  pool : DWord
  entkb : Nat
  nent : Nat
  savekb : Nat
  ckptkb : Nat
  stagekb : Nat
  /-- the bulkheads of its partition at its acceptance (R40, R392) -/
  bhs : List Nat
  /-- a co-resident launch: group, index and core of each block (R377) -/
  coMap : List (Nat × Nat × Nat)
  /-- dies whose expansion is done, and for a paused die the records still to generate -/
  expanded : List Nat
  paused : List (Nat × List Record)
  outstanding : Nat
  retired : Nat
  failed : Option (BitVec 8)
  cancelled : Bool
  stopped : Bool
  sfault : Bool
  gabort : Bool
  evlog : Bool
deriving DecidableEq, Repr, Inhabited

/-- A reservation of R44: the resources of one block of a stage, on one core of a bulkhead. -/
structure Resv where
  launch : Nat
  stage : Nat
  bh : Nat
  core : Nat
  shape : Shape
deriving DecidableEq, Repr, Inhabited

/-- State of a compute bulkhead (Table 19.1). -/
inductive BhState where
  | off | run | resetting | failed
deriving DecidableEq, Repr, Inhabited

/-- A compute bulkhead (R389, R391). -/
structure Bulkhead where
  state : BhState
  cores : Nat
  cerr : Bool
  assigned : Bool
  part : BitVec 6
  /-- saved blocks waiting to be restored -/
  restore : List Nat
  cause : BitVec 8
  gateOpen : Bool
deriving DecidableEq, Repr, Inhabited

/-- A leaf result of a page walk (R402). -/
structure Leaf where
  pa : Nat
  owner : BitVec 6
  key : BitVec 9
  tag : BitVec 12
  xo : Bool
deriving DecidableEq, Repr, Inhabited

/-- An error that the code of a structure will find (R416): the 32-byte sector, the structure (1 HBM, 2 L2 data, 3 L2 tag of a line that
the sector makes dirty), and whether the code corrects it. -/
structure Upset where
  sector : Nat
  code : BitVec 8
  fixed : Bool
deriving DecidableEq, Repr, Inhabited

/-- A TLB of the package (R403): a core's micro-TLB, or the shared TLB of a die. -/
inductive Mmu where
  | core (core : Nat)
  | die (die : Nat)
deriving DecidableEq, Repr, Inhabited

/-- A TLB entry: the TLB that holds it, partition, first address and size of the page, leaf (R403). -/
structure TlbEntry where
  mmu : Mmu
  part : BitVec 6
  va : Nat
  size : Nat
  leaf : Leaf
deriving DecidableEq, Repr, Inhabited

/-- A table entry that the walkers of the package keep (R403): the level it stands at, the bits of the virtual address from that level
up, and the next table. -/
structure WalkEntry where
  part : BitVec 6
  level : Nat
  idx : Nat
  next : Nat
deriving DecidableEq, Repr, Inhabited

/-- A word of text as the instruction cache, a loop buffer or the read-ahead of a core holds it (R23, R371). -/
structure CodeWord where
  core : Nat
  pa : Nat
  word : Word
deriving DecidableEq, Repr, Inhabited

/-- A mask of the principal table as the slices hold it (R410). -/
structure CachedMask where
  part : BitVec 6
  principal : BitVec 16
  mask : BitVec 4096
deriving DecidableEq, Repr, Inhabited

/-- A record of the fault queue held until it can be written (R405). -/
structure HeldRecord where
  part : BitVec 6
  record : BitVec 256
deriving DecidableEq, Repr, Inhabited

/-- A driver command that has not taken effect yet (R380). -/
structure PendingCmd where
  fn : Fn
  code : BitVec 8
  result : BitVec 8
  launch : Option Nat
deriving DecidableEq, Repr, Inhabited

/-- What INVSTAT is busy with: a TLBINV, a PRINV, a new principal table, the fill of a view table. -/
inductive InvOp where
  | tlb (v : DWord)
  | principal (p : BitVec 16)
  /-- a new table: PRTBASE and PRTCTL as they stood, which count until the write has taken effect (R410) -/
  | table (base ctl : DWord)
  | views
deriving DecidableEq, Repr, Inhabited

/-- Boot (R414): not begun, done, or failed with the package gated. -/
inductive Boot where
  | off | done | failed
deriving DecidableEq, Repr, Inhabited

/-- A gang slice in progress (R383, R384): entry, packages that are READY, whether it is in its grace, aborted. -/
structure Slice where
  entry : BitVec 6
  gid : BitVec 16
  ready : List (BitVec 14)
  grace : Bool
  aborted : Bool
deriving DecidableEq, Repr, Inhabited

/-- The last answer of the SPDM responder and how far a session has come (R415). -/
structure Spdm where
  phase : Nat
  answers : List (List Byte)
deriving DecidableEq, Repr, Inhabited

/-- What a load returned (R368): its status, the handle, and for each entry its ENTRY offset and STACK. -/
structure LoadResult where
  status : BitVec 8
  handle : Word
  entries : List (Word × Word)
  /-- native text offset, segment and body word of each word of a translated object (R365) -/
  map : List (Nat × Nat × Nat)
deriving DecidableEq, Repr, Inhabited

/-- The state of the machine. -/
structure State where
  boot : Boot
  /-- cycles since the epoch the Farrier set, and that epoch: %clock is their sum (R54) -/
  cycle : Nat
  epoch : DWord
  chip : BitVec 14
  domain : List (BitVec 14)
  /-- MODEL: device steps waiting to happen, the number free values are drawn with, fresh record numbers -/
  agenda : List Ev
  freeCtr : Nat
  nextId : Nat
  -- issue
  strings : List Str
  threads : List Thread
  teams : List Team
  blocks : List Block
  /-- generators of the pipes that differ from the reset value: 4 core + pipe (R178) -/
  sr : List (Nat × Word)
  -- memory
  mem : Memory
  host : Memory
  /-- key slot each sector was written under, plus one; not listed: cleared, reads as zero (R395, R412) -/
  sectorKey : Sparse 10
  keys : List (BitVec 9 × BitVec 512)
  /-- poisoned 32-byte sectors of local memory (R416) -/
  poison : List Nat
  /-- errors in sectors that no read has found yet (R416); the surroundings bring them -/
  upsets : List Upset
  frames : Sparse 8
  /-- window entries of partitions of other packages (R396, R397): package, partition, entry; the surroundings own them -/
  farWins : List (BitVec 14 × BitVec 6 × BitVec 128)
  frameBusy : List (Nat × Byte)
  l1 : List L1Byte
  upd : List UpdOp
  guests : List Guest
  dir : List DirEntry
  absent : List Nat
  swept : List (Nat × Nat)
  wbs : List WB
  merges : List Merge
  rels : List Rel
  loads : List Load
  rets : List Ret
  staccs : List StAcc
  atoms : List AtomReq
  vstores : List VStore
  remotes : List Remote
  tlb : List TlbEntry
  /-- the walk caches: valid table entries (R403) -/
  walks : List WalkEntry
  /-- pages whose walk has faulted in a step: cycle, partition, page number; accesses of one word join one walk (R403, R404) -/
  walkFaults : List (Nat × BitVec 6 × Nat)
  /-- text held by the cores (R23, R371) -/
  code : List CodeWord
  masks : List CachedMask
  hostRead : DWord
  /-- accesses of the host given and not yet performed: a tail write given later waits for the writes among them (R94) -/
  hostHeld : List Ev
  -- queues and engines
  qreqs : List QReq
  copies : List CopyCmd
  copyDone : List CopyDone
  engines : List Engine
  relays : List RelayReq
  -- dispatch
  records : List Record
  areas : List RelayArea
  launches : List Launch
  nextLaunch : Sparse 32
  resv : List Resv
  /-- for each partition the queue its last packet came from, plus one: 16 function + queue (R374) -/
  lastQueue : Sparse 32
  bulkheads : List Bulkhead
  -- registers of the windows: 65,536 function + offset (384 for the PF), 65,536 partition + offset
  freg : Sparse 64
  preg : Sparse 64
  vfPart : List (Nat × BitVec 6)
  fqHeld : List HeldRecord
  cmds : List PendingCmd
  /-- objects that run in scheduled mode: partition and handle (R217, R345) -/
  schedObjs : List (BitVec 6 × Word)
  /-- the answer of the last load (R368) -/
  lastLoad : Option LoadResult
  /-- invalidations and fills under way, for which INVSTAT shows BUSY (R387, R406, R410) -/
  invBusy : List (BitVec 6 × InvOp)
  vectors : List (Fn × Nat)
  partSel : BitVec 6
  frameSel : DWord
  keyBlob : BitVec 576
  keyBusy : Option (BitVec 9 × Option (BitVec 512))
  keyErr : Bool
  inj : BitVec 128
  -- gangs
  slices : List (Nat × BitVec 128)
  sliceStage : List (Nat × DWord)
  sliceNow : Option Slice
  sliceReady : List (BitVec 6 × BitVec 14)
  -- boot, identity, reliability
  measure : List (BitVec 512)
  spdm : Spdm
  linksDown : List (Nat × Nat)
  /-- scale-up lanes that are lost, 0 to 71, four to a port (R416, R420) -/
  lanesDown : List Nat
  linkFails : List (Nat × Nat × Nat)
  lostDies : List Nat
  lastError : Option (BitVec 256)
  telemetry : List (List Nat)
  beats : List (BitVec 14)
deriving DecidableEq, Repr, Inhabited

/-- A bulkhead after a cold reset: off, unassigned (Table 19.1). -/
def Bulkhead.reset : Bulkhead :=
  { state := .off, cores := 0, cerr := false, assigned := false, part := 0, restore := [], cause := 0, gateOpen := false }

/-- Window registers whose reset value is not zero: PTO of every function (Table 18.1), the engine quanta (Table 5.6),
UNITS (Table 21.5) and SCRUBCFG (Table 21.3), in rising order of key. -/
def State.resetFreg : Sparse 64 :=
  ((List.range 384).map fun f => (65536 * f + 0x10, (10000 : BitVec 64)))
  ++ [(65536 * 384 + 0x10, 10000)]
  ++ ((List.range 32).map fun i => (65536 * 384 + 0x2000 + 0x10 * (i / 4) + 4 * (i % 4), (0x04040810 : BitVec 64)))
  ++ ((List.range 8).map fun d => (65536 * 384 + 0x7000 + 0x10 * d,
        if d = 0 then (0x00488010c0000080 : BitVec 64) else 0x00008010c0000080))
  ++ ((List.range 16).map fun c => (65536 * 384 + 0x7100 + 8 * c, (0x80000040 : BitVec 64)))

/-- The machine right after a cold reset, before the boot sequence of R414: nothing is assigned, launched or listed. -/
def State.reset : State :=
  { boot := .off, cycle := 0, epoch := 0, chip := 0, domain := [0], agenda := [], freeCtr := 0, nextId := 1,
    strings := [], threads := [], teams := [], blocks := [], sr := [],
    mem := [], host := [], sectorKey := [], keys := [], poison := [], upsets := [], frames := [], farWins := [], frameBusy := [],
    l1 := [], upd := [], guests := [], dir := [], absent := [], swept := [], wbs := [], merges := [], rels := [],
    loads := [], rets := [], staccs := [], atoms := [], vstores := [], remotes := [], tlb := [], walks := [], walkFaults := [], code := [], masks := [],
    hostRead := 0, hostHeld := [], qreqs := [], copies := [], copyDone := [], engines := [], relays := [],
    records := [], areas := [], launches := [], nextLaunch := [], resv := [], lastQueue := [],
    bulkheads := List.replicate 48 Bulkhead.reset,
    freg := State.resetFreg, preg := [], vfPart := [], fqHeld := [], cmds := [], schedObjs := [], lastLoad := none, invBusy := [], vectors := [],
    partSel := 0, frameSel := 0, keyBlob := 0, keyBusy := none, keyErr := false, inj := 0,
    slices := [], sliceStage := [], sliceNow := none, sliceReady := [],
    measure := List.replicate 8 0, spdm := { phase := 0, answers := [] }, linksDown := [], lanesDown := [], linkFails := [],
    lostDies := [], lastError := none, telemetry := [], beats := [] }

end Sys2Proof.Machine
end

