-- ==== Sys2Proof/Machine/Ops.lean ====
section
/-! DEFINITION. The named operations over the state: sparse stores, records by name, taking a trap and returning from one
(R184 to R187), and how a word issues for a string (R16 to R24, R227, R272). -/

namespace Sys2Proof.Machine

/-- What a meaning answers. -/
abbrev Out := Host.Outcome State Fault Refusal

/-! Sparse stores: strictly rising addresses, no zero entry. -/

/-- The word at an address, zero where none is listed. -/
def rd {w : Nat} : Sparse w → Nat → BitVec w
  | [], _ => 0
  | (k, v) :: m, a => if k = a then v else rd m a

/-- The store without an address. -/
def del {w : Nat} : Sparse w → Nat → Sparse w
  | [], _ => []
  | (k, v) :: m, a => if k = a then del m a else (k, v) :: del m a

/-- The store with a new entry put at its place in the rising order. -/
def ins {w : Nat} (a : Nat) (v : BitVec w) : Sparse w → Sparse w
  | [] => [(a, v)]
  | (k, u) :: m => if a < k then (a, v) :: (k, u) :: m else (k, u) :: ins a v m

/-- Writing a word: a zero removes the entry, so the form stays canonical. -/
def wr {w : Nat} (m : Sparse w) (a : Nat) (v : BitVec w) : Sparse w := if v = 0 then del m a else ins a v (del m a)

/-- Rising from above `lo`, and no zero entry. -/
def risingFrom {w : Nat} : Option Nat → Sparse w → Bool
  | _, [] => true
  | lo, (k, v) :: m => (match lo with | some l => decide (l < k) | none => true) && v != 0 && risingFrom (some k) m

/-- The canonical form of memory: strictly rising addresses, no entry equal to what an unlisted address reads as. -/
def Memory.wf (m : Memory) : Bool := risingFrom none m

/-- `n` bytes from an address up. -/
def rdBytes (m : Memory) (a n : Nat) : List Byte := (List.range n).map fun i => rd m (a + i)
/-- Bytes written from an address up. -/
def wrBytes (m : Memory) (a : Nat) : List Byte → Memory
  | [] => m
  | b :: bs => wrBytes (wr m a b) (a + 1) bs
/-- Cells written one by one. -/
def wrCells (m : Memory) : List Host.Cell → Memory
  | [] => m
  | c :: cs => wrCells (wr m c.1 c.2) cs

/-- Little-endian value of bytes (R4). -/
def natOfBytes : List Byte → Nat
  | [] => 0
  | b :: bs => b.toNat + 256 * natOfBytes bs
/-- The `n` low bytes of a value, lowest first. -/
def bytesOfNat : Nat → Nat → List Byte
  | 0, _ => []
  | n + 1, v => BitVec.ofNat 8 v :: bytesOfNat n (v / 256)
/-- A little-endian value in memory. -/
def rdNat (m : Memory) (a n : Nat) : Nat := natOfBytes (rdBytes m a n)
def wrNat (m : Memory) (a n v : Nat) : Memory := wrBytes m a (bytesOfNat n v)
/-- Bits hi..lo of a natural. -/
def bitsN (x hi lo : Nat) : Nat := x / 2 ^ lo % 2 ^ (hi + 1 - lo)

/-! Small updates of the state. -/

/-- One step of the machine takes one cycle of the model's clock (notes/assumptions/6.md). -/
def State.tick (s : State) : State := { s with cycle := s.cycle + 1 }
/-- A device step waiting to happen. -/
def State.push (s : State) (i : Ev) : State := { s with agenda := s.agenda ++ [i] }
/-- The same where the step is not asked for already. -/
def State.ask (s : State) (i : Ev) : State := if s.agenda.contains i then s else s.push i
/-- A fresh record number, and the state that has used it up. -/
def State.bump (s : State) : State := { s with nextId := s.nextId + 1 }
/-- A free choice below `n`, and the state that has used its number up. -/
def State.draw (s : State) (n : Nat) : Nat := Config.choice s.freeCtr % n
def State.redraw (s : State) : State := { s with freeCtr := s.freeCtr + 1 }
/-- %clock (R54). -/
def State.clock (s : State) : DWord := s.epoch + BitVec.ofNat 64 s.cycle

def State.thread? (s : State) (id : ThreadId) : Option Thread := s.threads.find? fun t => t.id == id
def State.modThread (s : State) (id : ThreadId) (f : Thread → Thread) : State :=
  { s with threads := s.threads.map fun t => if t.id == id then f t else t }
def State.team? (s : State) (blk : Nat) (wheel : Bool) (idx : Nat) : Option Team :=
  s.teams.find? fun m => m.blk == blk && m.wheel == wheel && m.idx == idx
def State.modTeam (s : State) (blk : Nat) (wheel : Bool) (idx : Nat) (f : Team → Team) : State :=
  { s with teams := s.teams.map fun m => if m.blk == blk && m.wheel == wheel && m.idx == idx then f m else m }
def State.block? (s : State) (b : Nat) : Option Block := s.blocks.find? fun x => x.id == b
def State.modBlock (s : State) (b : Nat) (f : Block → Block) : State :=
  { s with blocks := s.blocks.map fun x => if x.id == b then f x else x }
def State.launch? (s : State) (l : Nat) : Option Launch := s.launches.find? fun x => x.id == l
def State.modLaunch (s : State) (l : Nat) (f : Launch → Launch) : State :=
  { s with launches := s.launches.map fun x => if x.id == l then f x else x }

/-- Team of a thread (R13). -/
def teamIdx (id : ThreadId) : Nat := id.tid / 128
/-- The team of a thread. -/
def State.teamOf (s : State) (id : ThreadId) : Option Team := s.team? id.blk id.wheel (teamIdx id)
def State.modTeamOf (s : State) (id : ThreadId) (f : Team → Team) : State := s.modTeam id.blk id.wheel (teamIdx id) f
/-- The yoke registers of a thread's team, empty where there is no such team. -/
def State.yOf (s : State) (id : ThreadId) : Sparse 32 := match s.teamOf id with | some m => m.y | none => []
/-- The state of a block that one of its teams reads and writes (R200). -/
def Block.side (b : Block) (wheel : Bool) : Side := if wheel then b.wheels else b.lead
def Block.modSide (b : Block) (wheel : Bool) (f : Side → Side) : Block :=
  if wheel then { b with wheels := f b.wheels } else { b with lead := f b.lead }
def State.side? (s : State) (blk : Nat) (wheel : Bool) : Option Side := (s.block? blk).map (·.side wheel)
def State.modSide (s : State) (blk : Nat) (wheel : Bool) (f : Side → Side) : State := s.modBlock blk (·.modSide wheel f)
/-- Redundant blocks hold everything twice (R200). -/
def State.isRed (s : State) (blk : Nat) : Bool := match s.block? blk with | some b => b.shape.red | none => false
/-- Contained blocks buffer their writes (R195); redundant blocks are contained (R200). -/
def State.isCont (s : State) (blk : Nat) : Bool := match s.block? blk with | some b => b.shape.cont || b.shape.red | none => false

/-- The threads of a block. -/
def State.blockThreads (s : State) (blk : Nat) : List Thread := s.threads.filter fun t => t.id.blk == blk

/-- Window registers of a function (384 is the PF) and of a partition. -/
def fnNum : Fn → Nat
  | .pf => 384
  | .vf f => f
def State.fr (s : State) (fn off : Nat) : DWord := rd s.freg (65536 * fn + off)
def State.setFr (s : State) (fn off : Nat) (v : DWord) : State := { s with freg := wr s.freg (65536 * fn + off) v }
def State.pr (s : State) (part : BitVec 6) (off : Nat) : DWord := rd s.preg (65536 * part.toNat + off)
def State.setPr (s : State) (part : BitVec 6) (off : Nat) (v : DWord) : State :=
  { s with preg := wr s.preg (65536 * part.toNat + off) v }

/-! Registers of a thread. -/

def Thread.gr (t : Thread) (r : GReg) : Word := rd t.g r.toNat
/-- The pair that begins at an even register, high word in the odd one (R5). -/
def Thread.gr64 (t : Thread) (r : GReg) : DWord := rd t.g (r.toNat + 1) ++ rd t.g r.toNat
/-- p7 always reads true (R48). -/
def Thread.pr (t : Thread) (r : PReg) : Bool := r == 7 || t.p.getLsbD r.toNat
def Thread.setG (t : Thread) (r : GReg) (v : Word) : Thread := { t with g := wr t.g r.toNat v, gbad := t.gbad.filter (· != r) }
/-- A write to p7 is ignored (R48). -/
def Thread.setP (t : Thread) (r : PReg) (v : Bool) : Thread :=
  if r == 7 then t
  else { t with p := if v then t.p ||| (1#7 <<< r.toNat) else t.p &&& ~~~(1#7 <<< r.toNat) }
def Thread.ready (t : Thread) : Bool := t.status == .ready

/-- g0 to g(n-9) and g120 to g127 exist at a shape of n registers (R49). -/
def gExists (n : Nat) (r : Nat) : Bool := decide (r + 8 < n) || decide (120 ≤ r ∧ r < 128)

/-! Traps. -/

/-- The code of a cause (Table 8.1). -/
def Cause.code : Cause → BitVec 8
  | .illegalClause => 0x01 | .illegalOp => 0x02 | .formatDivergence => 0x10 | .sparseMeta => 0x11 | .zeroPivot => 0x12
  | .notPosdef => 0x13 | .viewBounds => 0x20 | .viewIndex => 0x21 | .xlate => 0x30 | .permWrite => 0x31 | .align => 0x32
  | .execStore => 0x33 | .qcbCorrupt => 0x40 | .mcastMask => 0x41 | .hitchMisuse => 0x50 | .stack => 0x51
  | .swTrap => 0x60 | .brk => 0x61 | .storeFault => 0x80 | .ueConsumed => 0x81 | .redundancyFail => 0x82

/-- Whether a waiting thread counts for R185: hitch, barrier, queue operation, queue-register access, the end of a binding (R133),
`sleep`, a `commit`, which waits as a barrier does (R330), or a wait of R426. -/
def Thread.idle (t : Thread) : Bool :=
  match t.status with
  | .ready => false
  | .exited | .parked _ | .sleeping _ | .stopped .. => true
  | .waiting w =>
    match w with
    | .hitch _ | .barrier _ _ | .queue _ | .qreg _ _ | .unbind .. | .commit .. | .loadValue | .leader | .signature _ => true
    | _ => false

def Thread.isParked (t : Thread) : Bool :=
  match t.status with
  | .parked _ => true
  | _ => false

/-- A thread stops at a faulting word with no effect of the word (R184); its block is saved once R185 allows. -/
def State.park (s : State) (id : ThreadId) (trap : TrapInfo) : State :=
  (s.modThread id fun t => { t with status := .parked trap, granted := false }).push (.blockSave id.blk)

/-- CRC-32C (R202): the reflected polynomial 0x82F63B78, initial value and final complement all ones. -/
def crcBit (c : Word) : Word := if c.getLsbD 0 then (c >>> 1) ^^^ 0x82f63b78 else c >>> 1
def crcByte (c : Word) (b : Byte) : Word :=
  crcBit (crcBit (crcBit (crcBit (crcBit (crcBit (crcBit (crcBit (c ^^^ b.setWidth 32))))))))
def crc32c (bs : List Byte) : Word := ~~~(bs.foldl crcByte 0xffffffff)

/-- Whether a thread's part joins the signature that its team's string has begun for a word: the newest one, if it is of that word and of
lower threads. -/
def SigEntry.takes (e : SigEntry) (id : ThreadId) (pc : Word) : Bool :=
  e.wheel == id.wheel && e.pc == pc && e.parts.all fun p => decide (p.tid < id.tid)
/-- The compare buffer has no room for another signature of the thread's side (R202, R426). -/
def State.sigFull (s : State) (id : ThreadId) (pc : Word) : Bool :=
  s.isRed id.blk && (match s.team? id.blk false (teamIdx id) with
    | some m => decide (Config.compareEntries ≤ (m.sigs.filter (fun e => e.wheel == id.wheel)).length)
        && !(match m.sigs.getLast? with | some e => e.takes id pc | none => false)
    | none => false)
/-- The number that stands for a thread in the records of a pair about an array operation, none of one thread: in the load-value queue, and,
with the address of its word, in the compare buffer. -/
def arrayTid : Nat := 65536
def arraySigTid (pc : Word) : Nat := arrayTid + 1 + pc.toNat
/-- What the signature of a store covers beside PC and thread: address, byte mask, data (R202). -/
def storeSig (va : DWord) (bs : List Byte) : List Byte := bytesOfNat 8 va.toNat ++ bytesOfNat 64 (2 ^ bs.length - 1) ++ bs

/-- A part joined to a compare buffer: to the newest signature, where that may take it, else as a signature of its own. -/
def Team.addSig (m : Team) (wheel : Bool) (pc : Word) (part : SigPart) (join : SigEntry → Bool) : Team :=
  match m.sigs.getLast? with
  | some e => if join e then { m with sigs := m.sigs.dropLast ++ [{ e with parts := e.parts ++ [part] }] }
              else { m with sigs := m.sigs ++ [{ wheel := wheel, pc := pc, parts := [part] }] }
  | none => { m with sigs := [{ wheel := wheel, pc := pc, parts := [part] }] }
/-- One thread's part of the signature of its team's word (R202). The thread waits when the word proceeds only on a match: it takes
`trap` or issues its word again; and it waits, with nothing signed, while the compare buffer is full (R426). -/
def State.sign (s : State) (id : ThreadId) (pc : Word) (bytes : List Byte) (cells : List LCell) (kind : SigKind) (trap : Option TrapInfo) : State :=
  if kind != .store && s.sigFull id pc then s.modThread id fun t => { t with status := .waiting (.signature none) }
  else
    let part : SigPart := { tid := id.tid, crc := crc32c (bytesOfNat 4 pc.toNat ++ bytesOfNat 2 id.tid ++ bytes), cells := cells, kind := kind }
    let s := s.modTeam id.blk false (teamIdx id) fun m => m.addSig id.wheel pc part fun e => e.takes id pc
    let s := if kind != .store then s.modThread id fun t => { t with status := .waiting (.signature trap) } else s
    s.push (.signatureCompare id.blk (teamIdx id))

/-- TAKING A TRAP, precise (R184): the thread parks at the word. In a redundant block the cause and the word are compared
first (R186, R202): the thread waits for its signature and parks once it matches (R426). -/
def State.raise (s : State) (id : ThreadId) (pc : Word) (cause : Cause) (addr : DWord) (sub : BitVec 8) (word : Bool) : State :=
  match s.thread? id with
  | none => s
  | some t =>
    let trap : TrapInfo := { cause := cause, addr := addr, sub := sub, word := word }
    if s.isRed id.blk && !t.granted then s.sign id pc [cause.code, sub] [] .stop (some trap)
    else s.park id trap

/-- RETURN FROM A TRAP (R187): RETRY unparks at the faulting word, SKIP at the word after it; where the faulting word has
none after it (a header or a terminator) SKIP resumes at the fall-through address as a new header. After a store fault, whose
store is not retried, the thread goes on where it stands (R192). -/
def Thread.retry (t : Thread) : Thread :=
  match t.status with
  | .parked _ => { t with status := .ready }
  | _ => t
def Thread.skip (t : Thread) : Thread :=
  match t.status with
  | .parked trap =>
    if trap.tag.isSome then { t with status := .ready }
    else if trap.word then { t with status := .ready, pc := t.pc + BitVec.ofNat 32 t.wlen }
    else { t with status := .ready, hdr := none, pc := t.pc + BitVec.ofNat 32 t.wlen }
  | _ => t

/-- Fields of a fault-queue record (Table 8.2 with KIND of R405). -/
structure FqRecord where
  handle : DWord := 0
  addr : DWord := 0
  pc : Word := 0
  object : Word := 0
  count : BitVec 11 := 0
  tid : BitVec 10 := 0
  exited : Bool := false
  precise : Bool := false
  kind : BitVec 8 := 0
  sub : BitVec 8 := 0
  cause : BitVec 8 := 0

/-- Layout of Table 8.2. -/
def FqRecord.pack (r : FqRecord) : BitVec 256 :=
  r.handle ++ r.addr ++ r.pc ++ r.object ++ r.count ++ r.tid ++ BitVec.ofBool r.exited ++ BitVec.ofBool r.precise
    ++ (0 : BitVec 17) ++ r.kind ++ r.sub ++ r.cause

/-- A record for the fault queue: held until the ring has room (R405). -/
def State.postFault (s : State) (part : BitVec 6) (r : FqRecord) : State :=
  State.push { s with fqHeld := s.fqHeld ++ [{ part := part, record := r.pack }] } (.faultRecordPost part)

/-- Parked pairs of a block count once (R186). -/
def parkedLead (ts : List Thread) : List Thread := ts.filter fun t => t.isParked && !t.id.wheel

/-- The trap record of a block saved for a trap: its lowest-numbered parked thread (R186). -/
def trapRecord (b : Block) (ts : List Thread) : Option FqRecord :=
  let ps := parkedLead ts
  match ps with
  | [] => none
  | p :: _ =>
    let t := ps.foldl (fun m x => if x.id.tid < m.id.tid then x else m) p
    match t.status with
    | .parked ⟨c, addr, sub, _, tag⟩ =>
      some { handle := b.handle, addr := addr, pc := tag.getD t.pc, object := b.object, count := BitVec.ofNat 11 ps.length,
             tid := BitVec.ofNat 10 t.id.tid, precise := c != .storeFault && c != .ueConsumed && c != .redundancyFail,
             sub := sub, cause := c.code }
    | _ => none

/-! How a word issues. -/

/-- Words of an instruction. -/
def wordLen (i : Instr) : Nat := (encode i).length

/-- The guard of an instruction word: bits 2:0 of its first word (R209). A device step has none and reads as unguarded. -/
def guardOf (i : Instr) : PReg :=
  match encode i with
  | w :: _ => w.extractLsb' 0 3
  | [] => 7

/-- A thread that goes on past a word. -/
def Thread.pass (len : Nat) (t : Thread) : Thread :=
  { t with pc := t.pc + BitVec.ofNat 32 (4 * len), done := t.done + 1, granted := false }
/-- A thread that stopped at a word of a clause (R16). -/
def Thread.halt (hdr : Word) (len : Nat) (t : Thread) : Thread := { t with hdr := some hdr, wlen := 4 * len }

/-- After a word: its threads that are still ready go on, the others leave the string at the word. -/
def State.advance (s : State) (c : Str) (rest : List Str) (len : Nat) : State :=
  let go (id : ThreadId) : Bool := match s.thread? id with | some t => t.ready | none => false
  let ms := c.members.filter go
  { s with
    threads := s.threads.map fun t =>
      if c.members.contains t.id then (if t.ready then t.pass len else t.halt c.hdr len) else t
    strings := if ms.isEmpty then rest else { c with pc := c.pc + BitVec.ofNat 32 (4 * len), members := ms, hold := [], opened := none } :: rest }

/-- The members of a string whose guard is true and that are still ready, in ascending thread index (R272). -/
def State.actors (s : State) (q : PReg) (c : Str) : List ThreadId :=
  c.members.filter fun id => match s.thread? id with | some t => t.ready && t.pr q | none => false

/-- Every thread of the head string traps at its word, whatever its guard (R214, R221). `len`: the word's length. -/
def State.faultWord (s : State) (c : Str) (rest : List Str) (cause : Cause) (len : Nat) (more : Bool) : State :=
  ((c.members.foldl (fun s id => s.raise id c.pc cause 0 0 more) s).advance c rest len).tick

end Sys2Proof.Machine
end

