-- ==== Sys2Proof/Machine/Operands.lean ====
section
/-! DEFINITION. Operands: values of register operands (R227, R220, R271), the registers a word names (R49) and the scoreboard
(R216), and the shared shapes in which a word issues for a string: register words, per-thread words, uniform words. -/

namespace Sys2Proof.Machine

/-- Operand B of 32 bits: a g-register or a yoke register of the thread's team (R220, R227). -/
def bval (y : Sparse 32) (t : Thread) : Src → Word
  | .g r => t.gr r
  | .y r => rd y r.toNat
/-- Operand B as a pair. -/
def bval64 (y : Sparse 32) (t : Thread) : Src → DWord
  | .g r => t.gr64 r
  | .y r => rd y (r.toNat + 1) ++ rd y r.toNat
/-- The k-th register of operand B. -/
def bvalAt (y : Sparse 32) (t : Thread) (k : Nat) : Src → Word
  | .g r => rd t.g (r.toNat + k)
  | .y r => rd y (r.toNat + k)

/-- The address of a memory operand (R271). -/
def memVa (m : MemOp) (t : Thread) : DWord := t.gr64 m.base + m.off.signExtend 64
/-- The address of a memory operand in units of 16 bytes (R307). -/
def mem12Va (m : MemOp12) (t : Thread) : DWord := t.gr64 m.base + (m.off.signExtend 64 <<< 4)

/-- The lane slot of a thread in its string (R18). -/
def laneSlot (id : ThreadId) : Nat := id.tid % 128

/-! Registers a word names, as spans of consecutive registers. -/

/-- Registers of an access of 2^sz bytes (R278). -/
def szRegs (sz : BitVec 3) : Nat := if sz.toNat ≤ 2 then 1 else 2 ^ (sz.toNat - 2)
def wRegs (w : Bool) : Nat := if w then 2 else 1

/-- A span of g-registers. -/
abbrev Span := Nat × Nat
def sG (r : GReg) (n : Nat := 1) : Span := (r.toNat, n)
def sB (b : Src) (n : Nat := 1) : List Span :=
  match b with
  | .g r => [(r.toNat, n)]
  | .y _ => []
def yB (b : Src) (n : Nat := 1) : List Span :=
  match b with
  | .g _ => []
  | .y r => [(r.toNat, n)]

def bfSpans : BfArg → List Span
  | .imm .. => []
  | .reg c => [sG c]

/-- The g-registers a word names (R49). -/
def gNamed : Instr → List Span
  | .add _ d a b | .sub _ d a b | .mul _ d a b | .mulhiI32 _ d a b | .mulhiN32 _ d a b | .divI32 _ d a b | .divN32 _ d a b
  | .remI32 _ d a b | .remN32 _ d a b | .minI32 _ d a b | .minN32 _ d a b | .maxI32 _ d a b | .maxN32 _ d a b
  | .and _ d a b | .or _ d a b | .xor _ d a b | .shl _ d a b | .shr _ d a b | .sar _ d a b | .rol _ d a b => sG d :: sG a :: sB b
  | .addi _ d a _ | .shli _ d a _ | .shri _ d a _ | .sari _ d a _ | .andi _ d a _ | .ori _ d a _ | .xori _ d a _ => [sG d, sG a]
  | .mad _ d a b c | .madHiI32 _ d a b c | .madHiN32 _ d a b c => sG d :: sG a :: sG c :: sB b
  | .madWideI32 _ d a b c | .madWideN32 _ d a b c => sG d 2 :: sG a :: sG c 2 :: sB b
  | .popc _ d a | .clz _ d a | .ctz _ d a | .brev _ d a | .not _ d a | .abs _ d a | .neg _ d a => [sG d, sG a]
  | .bfeI32 _ d a x | .bfeN32 _ d a x => sG d :: sG a :: bfSpans x
  | .bfi _ d a b x => sG d :: sG a :: (sB b ++ bfSpans x)
  | .shfL _ d a b x | .shfR _ d a b x => sG d :: sG a :: (sB b ++ (match x with | .imm _ => [] | .reg c => [sG c]))
  | .prmt _ d a b x => sG d :: sG a :: (sB b ++ (match x with | .imm _ => [] | .reg c => [sG c]))
  | .bitfn _ d a b c _ => sG d :: sG a :: sG c :: sB b
  | .setp _ op _ a b => sG a (wRegs op.wide) :: (match b with | .src b => sB b (wRegs op.wide) | .imm _ => [])
  | .p2g _ d => [sG d]
  | .g2p _ a _ => [sG a]
  | .sel _ d a b _ => sG d :: sG a :: sB b
  | .mov _ d b => sG d :: sB b
  | .movi _ d _ => [sG d]
  | .movs _ d x => [sG d (wRegs (x == .clock))]
  | .ymov _ w _ b | .yadd _ w _ _ b => sB b (wRegs w)
  | .addI64 _ d a b | .subI64 _ d a b | .minN64 _ d a b | .maxN64 _ d a b => sG d 2 :: sG a 2 :: sB b 2
  | .addiI64 _ d a _ => [sG d 2, sG a 2]
  | .lea _ _ _ d a b _ => sG d 2 :: sG a 2 :: sB b
  | .shlI64 _ d a x | .shrI64 _ d a x | .sarI64 _ d a x =>
    sG d 2 :: sG a 2 :: (match x with | .imm _ => [] | .src b => sB b)
  | .brx _ a | .callx _ a => [sG a]
  | .fadd _ t _ d a b | .fsub _ t _ d a b | .fmul _ t _ d a b | .fmin _ t d a b | .fmax _ t d a b =>
    sG d (wRegs t.dbl) :: sG a (wRegs t.dbl) :: sB b (wRegs t.dbl)
  | .fma _ t _ d a b c => sG d (wRegs t.dbl) :: sG a (wRegs t.dbl) :: sG c (wRegs t.dbl) :: sB b (wRegs t.dbl)
  | .fabs _ t d a | .fneg _ t d a => [sG d (wRegs t.dbl), sG a (wRegs t.dbl)]
  | .fdiv _ w _ d a b | .fcopysign _ w d a b => sG d (wRegs w) :: sG a (wRegs w) :: sB b (wRegs w)
  | .fsqrt _ w _ d a | .frcp _ w d a | .frsq _ w d a | .ffloor _ w d a | .fceil _ w d a | .ftrunc _ w d a
  | .frint _ w _ d a => [sG d (wRegs w), sG a (wRegs w)]
  | .fex2 _ d a | .flg2 _ d a | .fsin _ d a | .fcos _ d a => [sG d, sG a]
  | .fsetp _ w _ _ a b => sG a (wRegs w) :: sB b (wRegs w)
  | .fclass _ w d a => [sG d, sG a (wRegs w)]
  | .cvt _ _ dt sy d a => [sG d (wRegs dt.dbl), sG a (wRegs sy.dbl)]
  | .cvtSr _ _ _ d a | .pack _ _ _ _ _ d a | .unpack _ _ _ _ _ d a => [sG d, sG a]
  | .srseed _ b => sB b
  | .dp4 _ _ d a b c | .dp8 _ _ d a b c => sG d :: sG a :: sG c :: sB b
  | .fscale _ w _ _ d a b => sG d (wRegs w) :: sG a (wRegs w) :: sB b
  | .ld _ sz _ d m | .ldAcq _ _ sz _ d m => [sG d (szRegs sz), sG m.base 2]
  | .ldQ _ sz d _ => [sG d (szRegs sz)]
  | .st _ sz m b | .stNt _ sz m b | .stRel _ _ sz m b => sG m.base 2 :: sB b (szRegs sz)
  | .stQ _ sz _ b => sB b (szRegs sz)
  | .prefetchL1 _ m | .prefetchL2 _ m | .qbindQueue _ _ m => [sG m.base 2]
  | .atomExch _ x | .atomAdd _ x | .atomAnd _ x | .atomOr _ x | .atomXor _ x | .atomMinI _ x | .atomMinN _ x
  | .atomMaxI _ x | .atomMaxN _ x | .atomFadd _ x | .atomInc _ x | .atomDec _ x =>
    sG x.d (wRegs x.wide) :: sG x.mem.base 2 :: sB x.b (wRegs x.wide)
  | .atomCas _ x => sG x.d (wRegs x.wide) :: sG x.mem.base 2 :: sB x.b (2 * wRegs x.wide)
  | .redAdd _ x | .redAnd _ x | .redOr _ x | .redXor _ x | .redMinI _ x | .redMinN _ x | .redMaxI _ x | .redMaxN _ x
  | .redFadd _ x => sG x.mem.base 2 :: sB x.b (wRegs x.wide)
  | .hitchDecl _ _ b _ => sB b
  | .pcount _ _ d _ | .prank _ _ d _ | .pbits _ _ d _ _ => [sG d]
  | .agree _ _ _ a => [sG a]
  | .cycle _ _ d a b | .xrank _ _ d a b => sG d :: sG a :: sB b
  | .foldAdd _ _ d a | .scanAdd _ _ d a | .foldMinI _ _ d a | .foldMaxI _ _ d a => [sG d, sG a]
  | .enq _ x | .deq _ x | .enqTry _ x | .deqTry _ x => [sG x.d, sG x.mem.base 2, sG x.b (2 ^ x.esz.toNat)]
  | .tcfg _ _ b => sB b
  | .tld _ _ _ m b | .tst _ _ _ m b => sG m.base 2 :: sB b
  | .mma _ x | .mmaSp _ x | .mmaSpt _ x => sB x.f
  | .mfactLu _ x | .mfactChol _ x | .mfactQr _ x => [sG x.d 2, sG x.o 2]
  | .mtrsm _ x => [sG x.d 2, sG x.o 2]
  | .accLdTile _ _ _ _ b | .accStTile _ _ _ _ b | .accZero _ _ _ b | .pmApply _ _ _ _ b | .pmApplyInv _ _ _ _ b => sB b
  | .accLdMem _ _ _ _ d m b | .accStMem _ _ _ _ d m b => sG d :: sG m.base 2 :: sB b
  | .accSnap _ _ _ d _ b => sG d :: sB b
  | .pmLd _ _ _ m | .pmSt _ _ _ m => [sG m.base 2]
  | .copy _ x => [sG x.d, sG x.a, sG x.b 2] ++ (match x.c with | some c => [sG c 2] | none => [])
  | .copyMc _ x m => [sG x.d, sG x.a, sG x.b 2, sG m] ++ (match x.c with | some c => [sG c 2] | none => [])
  | .ftest _ d a => [sG d, sG a]
  | .fcancel _ a => [sG a]
  | .relay _ d m => [sG d 2, sG m.base 2]
  | .join _ a => [sG a 2]
  | _ => []

/-- The g-registers the scoreboard asks about: `ftest` and `fcancel` are exempt for their status register (R323, R324). -/
def gWaited : Instr → List Span
  | .ftest _ d _ => [sG d]
  | .fcancel _ _ => []
  | i => gNamed i

/-- The yoke registers a word names, for the scoreboard (R216). -/
def yNamed : Instr → List Span
  | .ymov _ w d b => (d.toNat, wRegs w) :: yB b (wRegs w)
  | .ymovl _ d _ | .ymovh _ d _ => [(d.toNat, 1)]
  | .yadd _ w d a b => (d.toNat, wRegs w) :: (a.toNat, wRegs w) :: yB b (wRegs w)
  | .yaddi _ w d a _ => [(d.toNat, wRegs w), (a.toNat, wRegs w)]
  | .add _ _ _ b | .sub _ _ _ b | .mul _ _ _ b | .mulhiI32 _ _ _ b | .mulhiN32 _ _ _ b | .divI32 _ _ _ b | .divN32 _ _ _ b
  | .remI32 _ _ _ b | .remN32 _ _ _ b | .minI32 _ _ _ b | .minN32 _ _ _ b | .maxI32 _ _ _ b | .maxN32 _ _ _ b
  | .and _ _ _ b | .or _ _ _ b | .xor _ _ _ b | .shl _ _ _ b | .shr _ _ _ b | .sar _ _ _ b | .rol _ _ _ b
  | .mov _ _ b | .srseed _ b | .hitchDecl _ _ b _ | .tcfg _ _ b => yB b
  | .mad _ _ _ b _ | .madHiI32 _ _ _ b _ | .madHiN32 _ _ _ b _ | .madWideI32 _ _ _ b _ | .madWideN32 _ _ _ b _
  | .bfi _ _ _ b _ | .bitfn _ _ _ b _ _ | .sel _ _ _ b _ | .lea _ _ _ _ _ b _ | .dp4 _ _ _ _ b _ | .dp8 _ _ _ _ b _
  | .shfL _ _ _ b _ | .shfR _ _ _ b _ | .prmt _ _ _ b _ | .fscale _ _ _ _ _ _ b => yB b
  | .setp _ op _ _ b => (match b with | .src b => yB b (wRegs op.wide) | .imm _ => [])
  | .addI64 _ _ _ b | .subI64 _ _ _ b | .minN64 _ _ _ b | .maxN64 _ _ _ b => yB b 2
  | .shlI64 _ _ _ x | .shrI64 _ _ _ x | .sarI64 _ _ _ x => (match x with | .imm _ => [] | .src b => yB b)
  | .fadd _ t _ _ _ b | .fsub _ t _ _ _ b | .fmul _ t _ _ _ b | .fma _ t _ _ _ b _ => yB b (wRegs t.dbl)
  | .fmin _ t _ _ b | .fmax _ t _ _ b => yB b (wRegs t.dbl)
  | .fdiv _ w _ _ _ b => yB b (wRegs w)
  | .fcopysign _ w _ _ b => yB b (wRegs w)
  | .fsetp _ w _ _ _ b => yB b (wRegs w)
  | .st _ sz _ b | .stNt _ sz _ b | .stQ _ sz _ b => yB b (szRegs sz)
  | .stRel _ _ sz _ b => yB b (szRegs sz)
  | .viewDefG _ _ k | .viewDefX _ _ k => [(8 * k.toNat, 8)]
  | .viewQ _ k _ _ => [(8 * k.toNat, 8)]
  | .atomExch _ x | .atomAdd _ x | .atomAnd _ x | .atomOr _ x | .atomXor _ x | .atomMinI _ x | .atomMinN _ x
  | .atomMaxI _ x | .atomMaxN _ x | .atomFadd _ x | .atomInc _ x | .atomDec _ x => yB x.b (wRegs x.wide)
  | .atomCas _ x => yB x.b (2 * wRegs x.wide)
  | .redAdd _ x | .redAnd _ x | .redOr _ x | .redXor _ x | .redMinI _ x | .redMinN _ x | .redMaxI _ x | .redMaxN _ x
  | .redFadd _ x => yB x.b (wRegs x.wide)
  | .cycle _ _ _ _ b | .xrank _ _ _ _ b => yB b
  | .qbindGather _ _ k => [(4 * k.toNat, 4)]
  | .qstat _ d _ => [(d.toNat, 1)]
  | .tld _ _ _ _ b | .tst _ _ _ _ b => yB b
  | .mma _ x | .mmaSp _ x | .mmaSpt _ x => yB x.f
  | .accLdTile _ _ _ _ b | .accStTile _ _ _ _ b | .accSnap _ _ _ _ _ b | .pmApply _ _ _ _ b | .pmApplyInv _ _ _ _ b => yB b
  | .accZero _ _ _ b => yB b
  | .accLdMem _ _ _ _ _ _ b | .accStMem _ _ _ _ _ _ b => yB b
  | .copy _ x | .copyMc _ x _ => [(8 * x.k.toNat, 8)]
  | .commit _ x | .phint _ x => (match x.k with | some k => [(k.toNat, 2)] | none => [])
  | _ => []

/-- Whether every register of the spans exists at a shape of n registers (R49). -/
def spansExist (n : Nat) (l : List Span) : Bool := l.all fun p => (List.range p.2).all fun k => gExists n (p.1 + k)
/-- Whether a span meets a list of held registers. -/
def spansMeet {w : Nat} (held : List (BitVec w)) (l : List Span) : Bool :=
  l.any fun p => held.any fun r => decide (p.1 ≤ r.toNat ∧ r.toNat < p.1 + p.2)

/-- Registers per thread of the shape of a thread's block (R33). -/
def State.gregs (s : State) (id : ThreadId) : Nat := match s.block? id.blk with | some b => b.shape.gregs | none => 0

/-- Instructions that name no g-register as a destination, or not first. -/
def writesNoG : Instr → Bool
  | .setp .. | .g2p .. | .ymov .. | .yadd .. | .brx .. | .callx .. | .fsetp .. | .srseed .. | .st .. | .stNt .. | .stRel .. | .stQ ..
  | .prefetchL1 .. | .prefetchL2 .. | .qbindQueue .. | .redAdd .. | .redAnd .. | .redOr .. | .redXor .. | .redMinI .. | .redMinN .. | .redMaxI ..
  | .redMaxN .. | .redFadd .. | .hitchDecl .. | .agree .. | .tcfg .. | .tld .. | .tst .. | .mma .. | .mmaSp .. | .mmaSpt .. | .accLdTile ..
  | .accStTile .. | .accZero .. | .pmApply .. | .pmApplyInv .. | .accLdMem .. | .accStMem .. | .pmLd .. | .pmSt .. | .fcancel .. | .join .. => true
  | _ => false
/-- The g-registers a word reads (R19). -/
def gSources (i : Instr) : List Span :=
  match i with
  | .deq _ x | .deqTry _ x => [sG x.mem.base 2]
  | i => if writesNoG i then gWaited i else (gNamed i).drop 1
/-- The yoke registers a word reads; half a register written keeps the other half. -/
def ySources (i : Instr) : List Span :=
  match i with
  | .ymov .. | .yadd .. | .yaddi .. => (yNamed i).drop 1
  | .viewQ .. | .qstat .. => []
  | i => yNamed i
/-- Whether the scoreboard holds a register that a word reads, for a thread (R19). -/
def State.readsHeld (s : State) (i : Instr) (t : Thread) : Bool :=
  spansMeet t.hold (gSources i) || (match s.teamOf t.id with | some m => spansMeet m.yhold (ySources i) | none => false)

/-- An acting thread that reads a poisoned register (R193, R417). -/
def State.badReader (s : State) (i : Instr) (c : Str) : Option ThreadId :=
  (s.actors (guardOf i) c).find? fun id => match s.thread? id with
    | some t => spansMeet t.gbad (gSources i) || (match s.teamOf id with | some m => spansMeet m.ybad (ySources i) | none => false)
    | none => false

/-- Whether the word's registers exist for a thread. -/
def State.regsOk (s : State) (i : Instr) (id : ThreadId) : Bool := spansExist (s.gregs id) (gNamed i)
/-- Whether a held register keeps the word from issuing for a thread (R216). -/
def State.heldFor (s : State) (i : Instr) (t : Thread) : Bool :=
  spansMeet t.hold (gWaited i) || (match s.teamOf t.id with | some m => spansMeet m.yhold (yNamed i) | none => false)

/-- Whether the scoreboard keeps the head string from issuing its word. -/
def State.boarded (s : State) (i : Instr) (c : Str) : Bool :=
  (s.actors (guardOf i) c).any fun id => match s.thread? id with | some t => s.heldFor i t | none => false

/-- The threads of the string whose shape lacks a register the word names trap with ILLEGAL_OP, whatever their guard (R49, R221). -/
def State.trapRegs (s : State) (i : Instr) (c : Str) : State :=
  c.members.foldl (fun s id => if s.regsOk i id then s else s.raise id c.pc .illegalOp 0 0 true) s

/-! Register words (R227, R250). -/

/-- What a word writes for one thread: g-registers, predicates, flags. -/
structure Outs where
  g : List (GReg × Word) := []
  p : List (PReg × Bool) := []
  fl : BitVec 5 := 0

/-- One 32-bit result. -/
def out1 (d : GReg) (v : Word) : Outs := { g := [(d, v)] }
/-- A 64-bit result to an even pair (R5). -/
def out2 (d : GReg) (v : DWord) : Outs := { g := [(d, v.extractLsb' 0 32), (d + 1, v.extractLsb' 32 32)] }
/-- A predicate. -/
def outP (d : PReg) (v : Bool) : Outs := { p := [(d, v)] }

/-- The dependence class of a word's fixed-latency results (Table 9.6). -/
def depClass (i : Instr) : Option Nat :=
  match toEnc i with
  | none => none
  | some e =>
    let (maj, xop) : Nat × Nat :=
      match e with
      | .one m .. => (m.toNat, 0)
      | .imm m .. => (m.toNat, 0)
      | .term m .. => (m.toNat, 0)
      | .lit m .. => (m.toNat, 0)
      | .two m _ _ _ _ _ x _ _ => (m.toNat, x.toNat)
    if maj = 0x1b then some 4
    else if maj = 0x1f || maj = 0x23 then some 5
    else if maj ≤ 0x22 || maj = 0x25 then some 0
    else if maj = 0x40 then some (if xop = 6 || xop = 7 || (10 ≤ xop && xop ≤ 15) then 2 else 1)
    else if maj = 0x41 then some (if xop = 6 || xop = 7 || xop = 10 || xop = 11 then 2 else 1)
    else if maj = 0x42 || maj = 0x43 || maj = 0x44 then some 1
    else if 0x45 ≤ maj && maj ≤ 0x4c then some 3
    else none

/-- Predicate as a word, for pending results. -/
def pWord (t : Thread) (r : PReg) : Word := if t.pr r then 1 else 0

/-- The value that a register's readers may still find before a new result: what it showed, or what it showed before an earlier result of
the same clause. -/
def Thread.before (t : Thread) (r : ResReg) (shown : Word) (far : Bool) : Word :=
  match t.pend.find? fun x => x.mine && x.dst == r with
  | some x => if far then x.old else shown
  | none => shown
/-- Results of a scheduled object's word become pending (R218): an older pending result of the same register that was still to
come is kept only when `keep` (the order is the implementation's). -/
def pendWrites (cls : Option Nat) (keep : Bool) (o : Outs) (t t' : Thread) : List PendRes :=
  let dsts := o.g.map (fun x => ResReg.g x.1) ++ o.p.map (fun x => ResReg.p x.1)
  let old := t.pend.filter fun r => !dsts.contains r.dst || (r.late && keep)
  let one (k : Nat) (r : ResReg) (shown new : Word) : PendRes :=
    { cls := k, dst := r, old := t.before r shown keep, new := new, mine := true, dist := 0, late := false }
  match cls with
  | none => old
  | some k => old ++ o.g.map (fun x => one k (.g x.1) (t.gr x.1) (t'.gr x.1)) ++ o.p.map (fun x => one k (.p x.1) (pWord t x.1) (pWord t' x.1))

/-- A register shows a value of a pending result. -/
def Thread.show (t : Thread) (r : ResReg) (v : Word) : Thread :=
  match r with
  | .g d => t.setG d v
  | .p d => t.setP d (v != 0)
/-- A result is written: what is still pending for its register comes after it. -/
def Thread.land (t : Thread) (e : PendRes) : Thread :=
  { (if e.late then t.show e.dst e.new else t) with pend := t.pend.map fun x => if x.dst == e.dst then { x with old := e.new } else x }
/-- The results that satisfy a test are written (R218). -/
def Thread.writePend (t : Thread) (p : PendRes → Bool) : Thread :=
  (t.pend.filter p).foldl Thread.land { t with pend := t.pend.filter fun e => !p e }

/-- A variable-latency result written to a register drops a pending fixed-latency one of an earlier clause: the spec leaves their order to
the implementation (R218; DESIGN CHOICE, notes/assumptions/70.md). -/
def Thread.overtake (t : Thread) (rs : List ResReg) : Thread := { t with pend := t.pend.filter fun e => !rs.contains e.dst }
/-- The results of a word written to a thread. -/
def Thread.put (t : Thread) (o : Outs) : Thread :=
  o.p.foldl (fun t x => t.setP x.1 x.2) (o.g.foldl (fun t x => t.setG x.1 x.2) (t.overtake (o.g.map (.g ·.1) ++ o.p.map (.p ·.1))))

/-- The redundancy fault injection of R422 inverts one bit of the first destination of a matching wheeler execution. -/
def injHits (inj : BitVec 128) (obj pc : Word) (id : ThreadId) (o : Outs) : Bool :=
  inj.getLsbD 0 && id.wheel && !o.g.isEmpty && inj.extractLsb' 96 32 == obj && inj.extractLsb' 64 32 == pc
    && (inj.extractLsb' 48 10).toNat == id.tid
def injFlip (inj : BitVec 128) (o : Outs) : Outs :=
  match o.g with
  | [] => o
  | (d, v) :: g => { o with g := (d, v ^^^ (1#32 <<< (inj.extractLsb' 40 5).toNat)) :: g }
/-- COUNT lowered, ARM cleared at 0 (R422). -/
def injSpend (inj : BitVec 128) : BitVec 128 :=
  let n := (inj.extractLsb' 32 4).toNat - 1
  inj.extractLsb' 36 92 ++ BitVec.ofNat 4 n ++ inj.extractLsb' 1 31 ++ BitVec.ofBool (n != 0)
/-- The results a thread writes after a possible injection. -/
def injOuts (inj : BitVec 128) (obj pc : Word) (id : ThreadId) (o : Outs) : Outs := if injHits inj obj pc id o then injFlip inj o else o
/-- The results that a word at `pc` writes when they come, after a possible injection, and INJ then. -/
def State.injected (s : State) (id : ThreadId) (obj pc : Word) (o : Outs) : Outs × State :=
  (injOuts s.inj obj pc id o, { s with inj := if injHits s.inj obj pc id o then injSpend s.inj else s.inj })
/-- The code object that a thread runs. -/
def State.objOf (s : State) (id : ThreadId) : Word := match s.block? id.blk with | some b => b.object | none => 0

/-- A thread after its part of a register word. -/
def regThread (i : Instr) (c : Str) (s : State) (f : Thread → Sparse 32 → Outs) (t : Thread) : Thread :=
  let o := injOuts s.inj c.obj c.pc t.id (f t (s.yOf t.id))
  let t' := t.put o
  if c.sched then
    { t' with pend := pendWrites (depClass i) (Config.choice (s.freeCtr + t.id.tid) % 2 == 1) o t t' }
  else t'

/-- Flags of the threads of one team (R182). -/
def flagsOf (s : State) (ids : List ThreadId) (m : Team) (f : Thread → Sparse 32 → Outs) : BitVec 5 :=
  ids.foldl (fun acc id =>
    if id.blk == m.blk && id.wheel == m.wheel && teamIdx id == m.idx then
      match s.thread? id with
      | some t => acc ||| (f t m.y).fl
      | none => acc
    else acc) 0

/-- The effect of a register word on the actors of a string. -/
def State.regEffect (s : State) (i : Instr) (c : Str) (f : Thread → Sparse 32 → Outs) : State :=
  let ids := s.actors (guardOf i) c
  { s with
    threads := s.threads.map fun t => if ids.contains t.id then regThread i c s f t else t
    teams := s.teams.map fun m => { m with fpflags := m.fpflags ||| flagsOf s ids m f }
    inj := ids.foldl (fun v id =>
      match s.thread? id with
      | some t => if injHits v c.obj c.pc id (f t (s.yOf id)) then injSpend v else v
      | none => v) s.inj
    freeCtr := if c.sched then s.freeCtr + 1024 else s.freeCtr }

/-- The results of one thread of a word performed thread by thread, with its flags. -/
def State.writeOuts (s : State) (i : Instr) (c : Str) (id : ThreadId) (o : Outs) : State :=
  match s.thread? id with
  | none => s
  | some t =>
    { s with
      threads := s.threads.map fun x => if x.id == id then regThread i c s (fun _ _ => o) x else x
      teams := s.teams.map fun m => { m with fpflags := m.fpflags ||| flagsOf s [id] m (fun _ _ => o) }
      inj := if injHits s.inj c.obj c.pc t.id o then injSpend s.inj else s.inj
      freeCtr := if c.sched then s.freeCtr + 1024 else s.freeCtr }

/-- A register word: it stalls on held registers, traps threads whose shape lacks a register, writes its results for each
thread of true guard, and the string goes on. `f` is the word's function of the thread and its team's yoke registers. -/
def execReg (i : Instr) (f : State → Thread → Sparse 32 → Outs) (s : State) : Out :=
  match s.strings with
  | [] => .next s.tick
  | c :: rest =>
    if s.boarded i c then .next s.tick
    else
      let s1 := s.trapRegs i c
      .next ((s1.regEffect i c (f s1)).advance c rest (wordLen i)).tick

/-! Words with an effect of their own on each thread, one after the other in ascending thread index. -/

/-- A word performed thread by thread: `stall` says whether the word must wait to issue (nothing of it happens), `eff` is the
effect for one thread of true guard; a thread that `eff` leaves waiting or parked stays at the word. -/
def execEach (i : Instr) (stall : State → Str → Thread → Bool) (eff : Str → ThreadId → State → State) (s : State) : Out :=
  match s.strings with
  | [] => .next s.tick
  | c :: rest =>
    if s.boarded i c || (s.actors (guardOf i) c).any (fun id => match s.thread? id with | some t => stall s c t | none => false) then
      .next s.tick
    else
      let s1 := s.trapRegs i c
      .next (((s1.actors (guardOf i) c).foldl (fun s id => eff c id s) s1).advance c rest (wordLen i)).tick

/-- A word performed once for the whole string, over its threads of true guard. -/
def execAll (i : Instr) (stall : State → Str → Thread → Bool) (eff : Str → List ThreadId → State → State) (s : State) : Out :=
  match s.strings with
  | [] => .next s.tick
  | c :: rest =>
    if s.boarded i c || (s.actors (guardOf i) c).any (fun id => match s.thread? id with | some t => stall s c t | none => false) then
      .next s.tick
    else
      let s1 := s.trapRegs i c
      .next ((eff c (s1.actors (guardOf i) c) s1).advance c rest (wordLen i)).tick

/-- No stall of its own. -/
def noStall : State → Str → Thread → Bool := fun _ _ _ => false

/-! Uniform words (R24): once per team with a thread of true guard, teams in order of age. -/

/-- Age of a thread's team: when its block came onto the core, then the team number (R21). -/
def State.ageOf (s : State) (id : ThreadId) : Nat × Nat :=
  ((match s.block? id.blk with | some b => b.age | none => 0), teamIdx id)
def sameTeam (a b : ThreadId) : Bool := a.blk == b.blk && a.wheel == b.wheel && teamIdx a == teamIdx b
def ageLe (a b : Nat × Nat) : Bool := a.1 < b.1 || (a.1 == b.1 && a.2 ≤ b.2)

/-- Insertion by age, stable. -/
def insAge (s : State) (x : ThreadId) : List ThreadId → List ThreadId
  | [] => [x]
  | y :: l => if ageLe (s.ageOf x) (s.ageOf y) then x :: y :: l else y :: insAge s x l
/-- The lowest-numbered acting thread of each team, oldest team first. -/
def State.teamLeads (s : State) (ids : List ThreadId) : List ThreadId :=
  (ids.foldl (fun acc id => if acc.any (sameTeam id) then acc else acc ++ [id]) []).foldl (fun l x => insAge s x l) []

/-- A uniform word: `eff` is performed for each team, given its lowest-numbered acting thread and its acting threads. -/
def execTeams (i : Instr) (stall : State → Str → Thread → Bool) (eff : Str → ThreadId → List ThreadId → State → State)
    (s : State) : Out :=
  execAll i stall (fun c ids s => (s.teamLeads ids).foldl (fun s l => eff c l (ids.filter (sameTeam l)) s) s) s

/-- A team's yoke registers rewritten. -/
def State.setY (s : State) (id : ThreadId) (dst : List Span) (f : Sparse 32 → Sparse 32) : State :=
  s.modTeamOf id fun m => { m with y := f m.y, ybad := m.ybad.filter fun r => !spansMeet [r] dst }

end Sys2Proof.Machine
end

