-- ==== Sys2Proof/Machine/Flags.lean ====
section
/-! DEFINITION. The floating-point flags of a team (R55, R182): how instructions that are not register words set them, and how
a result with flags becomes the outcome of a register word. -/

namespace Sys2Proof.Machine

/-- Flags set in the team of a thread. -/
def State.setFlags (s : State) (id : ThreadId) (fl : Flags5) : State :=
  s.modTeamOf id fun m => { m with fpflags := m.fpflags ||| fl }
/-- Flags set in every team that has one of the threads (R176, R303). -/
def State.setFlagsAll (s : State) (ids : List ThreadId) (fl : Flags5) : State := ids.foldl (fun s id => s.setFlags id fl) s

/-- A 32-bit result with flags. -/
def outF (d : GReg) (r : FR) : Outs := { g := [(d, BitVec.ofNat 32 r.bits)], fl := r.fl }
/-- A 64-bit result with flags. -/
def outF64 (d : GReg) (r : FR) : Outs := { out2 d (BitVec.ofNat 64 r.bits) with fl := r.fl }
/-- A predicate with flags. -/
def outPF (d : PReg) (r : Bool × Flags5) : Outs := { p := [(d, r.1)], fl := r.2 }
/-- The word %fpflags reads as (Table 2.4). -/
def fpflagsWord (fl : Flags5) : Word := fl.setWidth 32

end Sys2Proof.Machine
end

