-- ==== Sys2Proof/Machine/Integer.lean ====
section
/-! DEFINITION. Integer, logic, bit-field, predicate, move, yoke and 64-bit instructions (file 10, R227 to R243). -/

namespace Sys2Proof.Machine

/-- A register word with two 32-bit operands and one result (R229). -/
def binOp (i : Instr) (d a : GReg) (b : Src) (f : Word → Word → Word) (s : State) : Out :=
  execReg i (fun _ t y => out1 d (f (t.gr a) (bval y t b))) s
/-- A register word with one 32-bit operand (R231, R233). -/
def unOp (i : Instr) (d a : GReg) (f : Word → Word) (s : State) : Out := execReg i (fun _ t _ => out1 d (f (t.gr a))) s

/-! Functions of Table 10.1. -/

def mulhiS (a b : Word) : Word := (a.signExtend 64 * b.signExtend 64).extractLsb' 32 32
def mulhiU (a b : Word) : Word := (a.setWidth 64 * b.setWidth 64).extractLsb' 32 32
/-- Division and remainder with the edge cases of R230. -/
def divS (a b : Word) : Word :=
  if b = 0 then 0xffffffff else if a = 0x80000000 && b = 0xffffffff then 0x80000000 else BitVec.ofInt 32 (a.toInt.tdiv b.toInt)
def remS (a b : Word) : Word :=
  if b = 0 then a else if a = 0x80000000 && b = 0xffffffff then 0 else BitVec.ofInt 32 (a.toInt.tmod b.toInt)
def divU (a b : Word) : Word := if b = 0 then 0xffffffff else BitVec.ofNat 32 (a.toNat / b.toNat)
def remU (a b : Word) : Word := if b = 0 then a else BitVec.ofNat 32 (a.toNat % b.toNat)
def minS (a b : Word) : Word := if a.toInt ≤ b.toInt then a else b
def minU (a b : Word) : Word := if a.toNat ≤ b.toNat then a else b
def maxS (a b : Word) : Word := if b.toInt ≤ a.toInt then a else b
def maxU (a b : Word) : Word := if b.toNat ≤ a.toNat then a else b
/-- Shift amounts are bits 7:0 of b. -/
def shAmt (b : Word) : Nat := (b.extractLsb' 0 8).toNat
def shlW (a b : Word) : Word := if 32 ≤ shAmt b then 0 else a <<< shAmt b
def shrW (a b : Word) : Word := if 32 ≤ shAmt b then 0 else a >>> shAmt b
def sarW (a b : Word) : Word := a.sshiftRight (min (shAmt b) 31)
def rolW (a b : Word) : Word := a.rotateLeft (b.extractLsb' 0 5).toNat

def execAdd (q : PReg) (d a : GReg) (b : Src) (s : State) : Out := binOp (.add q d a b) d a b (· + ·) s
def execSub (q : PReg) (d a : GReg) (b : Src) (s : State) : Out := binOp (.sub q d a b) d a b (· - ·) s
def execMul (q : PReg) (d a : GReg) (b : Src) (s : State) : Out := binOp (.mul q d a b) d a b (· * ·) s
def execMulhiI32 (q : PReg) (d a : GReg) (b : Src) (s : State) : Out := binOp (.mulhiI32 q d a b) d a b mulhiS s
def execMulhiN32 (q : PReg) (d a : GReg) (b : Src) (s : State) : Out := binOp (.mulhiN32 q d a b) d a b mulhiU s
def execDivI32 (q : PReg) (d a : GReg) (b : Src) (s : State) : Out := binOp (.divI32 q d a b) d a b divS s
def execDivN32 (q : PReg) (d a : GReg) (b : Src) (s : State) : Out := binOp (.divN32 q d a b) d a b divU s
def execRemI32 (q : PReg) (d a : GReg) (b : Src) (s : State) : Out := binOp (.remI32 q d a b) d a b remS s
def execRemN32 (q : PReg) (d a : GReg) (b : Src) (s : State) : Out := binOp (.remN32 q d a b) d a b remU s
def execMinI32 (q : PReg) (d a : GReg) (b : Src) (s : State) : Out := binOp (.minI32 q d a b) d a b minS s
def execMinN32 (q : PReg) (d a : GReg) (b : Src) (s : State) : Out := binOp (.minN32 q d a b) d a b minU s
def execMaxI32 (q : PReg) (d a : GReg) (b : Src) (s : State) : Out := binOp (.maxI32 q d a b) d a b maxS s
def execMaxN32 (q : PReg) (d a : GReg) (b : Src) (s : State) : Out := binOp (.maxN32 q d a b) d a b maxU s
def execAnd (q : PReg) (d a : GReg) (b : Src) (s : State) : Out := binOp (.and q d a b) d a b (· &&& ·) s
def execOr (q : PReg) (d a : GReg) (b : Src) (s : State) : Out := binOp (.or q d a b) d a b (· ||| ·) s
def execXor (q : PReg) (d a : GReg) (b : Src) (s : State) : Out := binOp (.xor q d a b) d a b (· ^^^ ·) s
def execShl (q : PReg) (d a : GReg) (b : Src) (s : State) : Out := binOp (.shl q d a b) d a b shlW s
def execShr (q : PReg) (d a : GReg) (b : Src) (s : State) : Out := binOp (.shr q d a b) d a b shrW s
def execSar (q : PReg) (d a : GReg) (b : Src) (s : State) : Out := binOp (.sar q d a b) d a b sarW s
def execRol (q : PReg) (d a : GReg) (b : Src) (s : State) : Out := binOp (.rol q d a b) d a b rolW s

/-! Immediate forms (Table 10.2): arithmetic and logic immediates are signed, shift immediates unsigned. -/

def execAddi (q : PReg) (d a : GReg) (i : BitVec 8) (s : State) : Out := unOp (.addi q d a i) d a (· + i.signExtend 32) s
def execShli (q : PReg) (d a : GReg) (i : BitVec 8) (s : State) : Out := unOp (.shli q d a i) d a (shlW · (i.setWidth 32)) s
def execShri (q : PReg) (d a : GReg) (i : BitVec 8) (s : State) : Out := unOp (.shri q d a i) d a (shrW · (i.setWidth 32)) s
def execSari (q : PReg) (d a : GReg) (i : BitVec 8) (s : State) : Out := unOp (.sari q d a i) d a (sarW · (i.setWidth 32)) s
def execAndi (q : PReg) (d a : GReg) (i : BitVec 8) (s : State) : Out := unOp (.andi q d a i) d a (· &&& i.signExtend 32) s
def execOri (q : PReg) (d a : GReg) (i : BitVec 8) (s : State) : Out := unOp (.ori q d a i) d a (· ||| i.signExtend 32) s
def execXori (q : PReg) (d a : GReg) (i : BitVec 8) (s : State) : Out := unOp (.xori q d a i) d a (· ^^^ i.signExtend 32) s

/-! Multiply-add (Table 10.3). -/

def execMad (q : PReg) (d a : GReg) (b : Src) (c : GReg) (s : State) : Out :=
  execReg (.mad q d a b c) (fun _ t y => out1 d (t.gr a * bval y t b + t.gr c)) s
def execMadHiI32 (q : PReg) (d a : GReg) (b : Src) (c : GReg) (s : State) : Out :=
  execReg (.madHiI32 q d a b c) (fun _ t y => out1 d (mulhiS (t.gr a) (bval y t b) + t.gr c)) s
def execMadHiN32 (q : PReg) (d a : GReg) (b : Src) (c : GReg) (s : State) : Out :=
  execReg (.madHiN32 q d a b c) (fun _ t y => out1 d (mulhiU (t.gr a) (bval y t b) + t.gr c)) s
def execMadWideI32 (q : PReg) (d a : GReg) (b : Src) (c : GReg) (s : State) : Out :=
  execReg (.madWideI32 q d a b c) (fun _ t y => out2 d ((t.gr a).signExtend 64 * (bval y t b).signExtend 64 + t.gr64 c)) s
def execMadWideN32 (q : PReg) (d a : GReg) (b : Src) (c : GReg) (s : State) : Out :=
  execReg (.madWideN32 q d a b c) (fun _ t y => out2 d ((t.gr a).setWidth 64 * (bval y t b).setWidth 64 + t.gr64 c)) s

/-! Unary (Table 10.4). -/

/-- Number of 1 bits among the low n. -/
def onesN (a : Word) : Nat → Nat
  | 0 => 0
  | n + 1 => onesN a n + (if a.getLsbD n then 1 else 0)
def popcW (a : Word) : Word := BitVec.ofNat 32 (onesN a 32)
/-- Zero bits above the highest 1 bit. -/
def clzW (a : Word) : Word := if a = 0 then 32 else BitVec.ofNat 32 (31 - Nat.log2 a.toNat)
/-- Zero bits below the lowest 1 bit, looking from bit k up for n bits. -/
def ctzFrom (a : Word) (k : Nat) : Nat → Nat
  | 0 => k
  | n + 1 => if a.getLsbD k then k else ctzFrom a (k + 1) n
def ctzW (a : Word) : Word := BitVec.ofNat 32 (ctzFrom a 0 32)
def brevW (a : Word) : Word := a.reverse
/-- |S(a)|; the most negative value gives itself. -/
def absW (a : Word) : Word := if a.msb then -a else a

def execPopc (q : PReg) (d a : GReg) (s : State) : Out := unOp (.popc q d a) d a popcW s
def execClz (q : PReg) (d a : GReg) (s : State) : Out := unOp (.clz q d a) d a clzW s
def execCtz (q : PReg) (d a : GReg) (s : State) : Out := unOp (.ctz q d a) d a ctzW s
def execBrev (q : PReg) (d a : GReg) (s : State) : Out := unOp (.brev q d a) d a brevW s
def execNot (q : PReg) (d a : GReg) (s : State) : Out := unOp (.not q d a) d a (fun x => ~~~x) s
def execAbs (q : PReg) (d a : GReg) (s : State) : Out := unOp (.abs q d a) d a absW s
def execNeg (q : PReg) (d a : GReg) (s : State) : Out := unOp (.neg q d a) d a (fun x => -x) s

/-! Bit fields (R234). -/

/-- Position and length of a field: clamped to the word. -/
def bfPos (t : Thread) : BfArg → Nat
  | .imm p _ => p.toNat
  | .reg c => min ((t.gr c).extractLsb' 0 8).toNat 32
def bfLen (t : Thread) (x : BfArg) : Nat :=
  min (match x with | .imm _ l => l.toNat | .reg c => ((t.gr c).extractLsb' 8 8).toNat) (32 - bfPos t x)
/-- l bits of a from p up, as a word. -/
def fieldU (a : Word) (p l : Nat) : Word := BitVec.ofNat 32 (a.toNat / 2 ^ p % 2 ^ l)
def fieldS (a : Word) (p l : Nat) : Word :=
  let f := a.toNat / 2 ^ p % 2 ^ l
  if 0 < l && f / 2 ^ (l - 1) % 2 == 1 then BitVec.ofInt 32 ((f : Int) - 2 ^ l) else BitVec.ofNat 32 f
/-- b with bits p+l-1..p replaced by the low l bits of a. -/
def fieldIns (a b : Word) (p l : Nat) : Word :=
  let m : Word := BitVec.ofNat 32 ((2 ^ l - 1) * 2 ^ p)
  (b &&& ~~~m) ||| ((a <<< p) &&& m)

def execBfeI32 (q : PReg) (d a : GReg) (x : BfArg) (s : State) : Out :=
  execReg (.bfeI32 q d a x) (fun _ t _ => out1 d (fieldS (t.gr a) (bfPos t x) (bfLen t x))) s
def execBfeN32 (q : PReg) (d a : GReg) (x : BfArg) (s : State) : Out :=
  execReg (.bfeN32 q d a x) (fun _ t _ => out1 d (fieldU (t.gr a) (bfPos t x) (bfLen t x))) s
def execBfi (q : PReg) (d a : GReg) (b : Src) (x : BfArg) (s : State) : Out :=
  execReg (.bfi q d a b x) (fun _ t y => out1 d (fieldIns (t.gr a) (bval y t b) (bfPos t x) (bfLen t x))) s

def shfAmt (t : Thread) : ShfArg → Nat
  | .imm n => n.toNat
  | .reg c => ((t.gr c).extractLsb' 0 5).toNat
/-- Funnel shifts of b:a. -/
def execShfL (q : PReg) (d a : GReg) (b : Src) (x : ShfArg) (s : State) : Out :=
  execReg (.shfL q d a b x) (fun _ t y =>
    out1 d (((bval y t b ++ t.gr a : DWord) <<< shfAmt t x).extractLsb' 32 32)) s
def execShfR (q : PReg) (d a : GReg) (b : Src) (x : ShfArg) (s : State) : Out :=
  execReg (.shfR q d a b x) (fun _ t y =>
    out1 d (((bval y t b ++ t.gr a : DWord) >>> shfAmt t x).extractLsb' 0 32)) s

def prmtSel (t : Thread) : PrmtArg → BitVec 16
  | .imm v => v
  | .reg c => (t.gr c).extractLsb' 0 16
/-- One byte of `prmt`: selector values 8 to 15 replicate the sign of byte s - 8. -/
def prmtByte (ba : DWord) (sel : Nat) : BitVec 8 :=
  if sel < 8 then ba.extractLsb' (8 * sel) 8 else if ba.getLsbD (8 * (sel - 8) + 7) then 0xff else 0
def prmtW (a b : Word) (sel : BitVec 16) : Word :=
  let x : DWord := b ++ a
  let f (k : Nat) : BitVec 8 := prmtByte x (sel.extractLsb' (4 * k) 4).toNat
  f 3 ++ f 2 ++ f 1 ++ f 0
def execPrmt (q : PReg) (d a : GReg) (b : Src) (x : PrmtArg) (s : State) : Out :=
  execReg (.prmt q d a b x) (fun _ t y => out1 d (prmtW (t.gr a) (bval y t b) (prmtSel t x))) s

/-- The words whose bits are set where the index a + 2b + 4c selects table entry k. -/
def bitfnTerm (a b c : Word) (fn : BitVec 8) (k : Nat) : Word :=
  if fn.getLsbD k then
    (if k % 2 = 1 then a else ~~~a) &&& (if k / 2 % 2 = 1 then b else ~~~b) &&& (if k / 4 % 2 = 1 then c else ~~~c)
  else 0
def bitfnW (a b c : Word) (fn : BitVec 8) : Word :=
  bitfnTerm a b c fn 0 ||| bitfnTerm a b c fn 1 ||| bitfnTerm a b c fn 2 ||| bitfnTerm a b c fn 3
    ||| bitfnTerm a b c fn 4 ||| bitfnTerm a b c fn 5 ||| bitfnTerm a b c fn 6 ||| bitfnTerm a b c fn 7
def execBitfn (q : PReg) (d a : GReg) (b : Src) (c : GReg) (fn : BitVec 8) (s : State) : Out :=
  execReg (.bitfn q d a b c fn) (fun _ t y => out1 d (bitfnW (t.gr a) (bval y t b) (t.gr c) fn)) s

/-! Compares, predicates, select (R235 to R237). -/

/-- A condition on two integers. -/
def condInt : ICond → Int → Int → Bool
  | .eq, x, y => x == y
  | .ne, x, y => x != y
  | .lt, x, y => decide (x < y)
  | .le, x, y => decide (x ≤ y)
  | .gt, x, y => decide (y < x)
  | .ge, x, y => decide (y ≤ x)

/-- The value of a compare; an immediate is extended by sign, or by zero for the unsigned types. -/
def setpVal (op : SetpOp) (t : Thread) (y : Sparse 32) (a : GReg) (b : SetpArg) : Bool :=
  let b32 (ext : BitVec 16 → Word) : Word := match b with | .src r => bval y t r | .imm v => ext v
  let b64 (ext : BitVec 16 → DWord) : DWord := match b with | .src r => bval64 y t r | .imm v => ext v
  match op with
  | .i32 c => condInt c (t.gr a).toInt (b32 (·.signExtend 32)).toInt
  | .tst => (t.gr a &&& b32 (·.signExtend 32)) != 0
  | .n32 c => condInt c (t.gr a).toNat (b32 (·.setWidth 32)).toNat
  | .i64 c => condInt c (t.gr64 a).toInt (b64 (·.signExtend 64)).toInt
  | .n64 c => condInt c (t.gr64 a).toNat (b64 (·.setWidth 64)).toNat

def execSetp (q : PReg) (op : SetpOp) (d : PReg) (a : GReg) (b : SetpArg) (s : State) : Out :=
  execReg (.setp q op d a b) (fun _ t y => outP d (setpVal op t y a b)) s
def execPand (q d a b : PReg) (s : State) : Out := execReg (.pand q d a b) (fun _ t _ => outP d (t.pr a && t.pr b)) s
def execPor (q d a b : PReg) (s : State) : Out := execReg (.por q d a b) (fun _ t _ => outP d (t.pr a || t.pr b)) s
def execPxor (q d a b : PReg) (s : State) : Out := execReg (.pxor q d a b) (fun _ t _ => outP d (t.pr a ^^ t.pr b)) s
def execPnot (q d a : PReg) (s : State) : Out := execReg (.pnot q d a) (fun _ t _ => outP d (!t.pr a)) s
/-- Bit 7 is p7, always 1. -/
def execP2g (q : PReg) (d : GReg) (s : State) : Out :=
  execReg (.p2g q d) (fun _ t _ => out1 d ((1#1 ++ t.p).setWidth 32)) s
def execG2p (q : PReg) (a : GReg) (m : BitVec 7) (s : State) : Out :=
  execReg (.g2p q a m) (fun _ t _ =>
    { p := (List.range 7).filterMap fun k =>
        if m.getLsbD k then some (BitVec.ofNat 3 k, (t.gr a).getLsbD k) else none }) s
def execSel (q : PReg) (d a : GReg) (b : Src) (c : PReg) (s : State) : Out :=
  execReg (.sel q d a b c) (fun _ t y => out1 d (if t.pr c then t.gr a else bval y t b)) s

/-! Moves and specials (R238 to R240). -/

def execMov (q : PReg) (d : GReg) (b : Src) (s : State) : Out := execReg (.mov q d b) (fun _ t y => out1 d (bval y t b)) s
def execMovi (q : PReg) (d : GReg) (v : Word) (s : State) : Out := execReg (.movi q d v) (fun _ _ _ => out1 d v) s

/-- Values of Table 2.3. A core's number counts over the package: 24 to a bulkhead, 8 to a cluster, 6 bulkheads to a die. -/
def specialVal (s : State) (t : Thread) (x : Special) : Word :=
  let n (v : Nat) : Word := BitVec.ofNat 32 v
  match s.block? t.id.blk with
  | none => 0
  | some b =>
    match x with
    | .tid => n t.id.tid
    | .team => n (t.id.tid / 128)
    | .block => n b.shape.gidx
    | .grp => n b.grp
    | .launch => b.ident
    | .stage => n b.shape.stage
    | .core => n (b.core % 8)
    | .cluster => n (b.core / 8 % 3)
    | .bulkhead => n (b.core / 24)
    | .die => n (b.core / 24 / 6)
    | .chip => n s.chip.toNat
    | .clock => s.clock.extractLsb' 0 32
    | .fpflags => (match s.teamOf t.id with | some m => fpflagsWord m.fpflags | none => 0)

/-- `movs` (R240): %clock fills a pair. In a redundant block a %clock read is a value passed through the load-value queue
(R201): the wheeler's read is `execMovs`'s second case. -/
def movsOuts (s : State) (d : GReg) (x : Special) (t : Thread) : Outs :=
  match x with
  | .clock => out2 d s.clock
  | _ => out1 d (specialVal s t x)

/-! 64-bit and address arithmetic (Table 10.9). -/

def execAddI64 (q : PReg) (d a : GReg) (b : Src) (s : State) : Out :=
  execReg (.addI64 q d a b) (fun _ t y => out2 d (t.gr64 a + bval64 y t b)) s
def execSubI64 (q : PReg) (d a : GReg) (b : Src) (s : State) : Out :=
  execReg (.subI64 q d a b) (fun _ t y => out2 d (t.gr64 a - bval64 y t b)) s
def execAddiI64 (q : PReg) (d a : GReg) (i : BitVec 16) (s : State) : Out :=
  execReg (.addiI64 q d a i) (fun _ t _ => out2 d (t.gr64 a + i.signExtend 64)) s
def execLea (q : PReg) (sx : Bool) (sh : BitVec 3) (d a : GReg) (b : Src) (off : BitVec 16) (s : State) : Out :=
  execReg (.lea q sx sh d a b off) (fun _ t y =>
    let x : DWord := if sx then (bval y t b).signExtend 64 else (bval y t b).setWidth 64
    out2 d (t.gr64 a + (x <<< sh.toNat) + off.signExtend 64)) s

def sh64Amt (y : Sparse 32) (t : Thread) : Sh64Arg → Nat
  | .imm n => n.toNat
  | .src b => shAmt (bval y t b)
def execShlI64 (q : PReg) (d a : GReg) (x : Sh64Arg) (s : State) : Out :=
  execReg (.shlI64 q d a x) (fun _ t y => out2 d (if 64 ≤ sh64Amt y t x then 0 else t.gr64 a <<< sh64Amt y t x)) s
def execShrI64 (q : PReg) (d a : GReg) (x : Sh64Arg) (s : State) : Out :=
  execReg (.shrI64 q d a x) (fun _ t y => out2 d (if 64 ≤ sh64Amt y t x then 0 else t.gr64 a >>> sh64Amt y t x)) s
def execSarI64 (q : PReg) (d a : GReg) (x : Sh64Arg) (s : State) : Out :=
  execReg (.sarI64 q d a x) (fun _ t y => out2 d ((t.gr64 a).sshiftRight (min (sh64Amt y t x) 63))) s
def execMinN64 (q : PReg) (d a : GReg) (b : Src) (s : State) : Out :=
  execReg (.minN64 q d a b) (fun _ t y =>
    out2 d (if (t.gr64 a).toNat ≤ (bval64 y t b).toNat then t.gr64 a else bval64 y t b)) s
def execMaxN64 (q : PReg) (d a : GReg) (b : Src) (s : State) : Out :=
  execReg (.maxN64 q d a b) (fun _ t y =>
    out2 d (if (bval64 y t b).toNat ≤ (t.gr64 a).toNat then t.gr64 a else bval64 y t b)) s

/-! Yoke instructions (R241): performed once for each team with a thread of true guard. -/

/-- A 32-bit or 64-bit yoke write. -/
def putY (w : Bool) (d : YReg) (v : DWord) (y : Sparse 32) : Sparse 32 :=
  if w then wr (wr y d.toNat (v.extractLsb' 0 32)) (d.toNat + 1) (v.extractLsb' 32 32) else wr y d.toNat (v.extractLsb' 0 32)
/-- A yoke operand by width. -/
def yval (w : Bool) (y : Sparse 32) (a : YReg) : DWord :=
  if w then rd y (a.toNat + 1) ++ rd y a.toNat else (rd y a.toNat).setWidth 64
/-- Operand B of a yoke instruction, read from the team's lowest-numbered acting thread (R241). -/
def ybval (w : Bool) (y : Sparse 32) (t : Thread) (b : Src) : DWord := if w then bval64 y t b else (bval y t b).setWidth 64

/-- A yoke word: the new yoke registers of each team from its lowest-numbered acting thread. -/
def yokeOp (i : Instr) (f : Thread → Sparse 32 → Sparse 32) (s : State) : Out :=
  execTeams i noStall (fun _ l _ s => match s.thread? l with | some t => s.setY l ((yNamed i).take 1) (f t) | none => s) s

def execYmov (q : PReg) (w : Bool) (d : YReg) (b : Src) (s : State) : Out :=
  yokeOp (.ymov q w d b) (fun t y => putY w d (ybval w y t b) y) s
def execYmovl (q : PReg) (d : YReg) (i : BitVec 16) (s : State) : Out :=
  yokeOp (.ymovl q d i) (fun _ y => wr y d.toNat (i.setWidth 32)) s
def execYmovh (q : PReg) (d : YReg) (i : BitVec 16) (s : State) : Out :=
  yokeOp (.ymovh q d i) (fun _ y => wr y d.toNat (i ++ (rd y d.toNat).extractLsb' 0 16)) s
def execYadd (q : PReg) (w : Bool) (d a : YReg) (b : Src) (s : State) : Out :=
  yokeOp (.yadd q w d a b) (fun t y => putY w d (yval w y a + ybval w y t b) y) s
def execYaddi (q : PReg) (w : Bool) (d a : YReg) (i : BitVec 16) (s : State) : Out :=
  yokeOp (.yaddi q w d a i) (fun _ y => putY w d (yval w y a + i.signExtend 64) y) s

end Sys2Proof.Machine
end

