-- ==== Sys2Proof/Machine/Access.lean ====
section
/-! DEFINITION. From an address to bytes: the windows of the virtual address space (R56 to R60), page tables, TLBs and page
faults (R400 to R404), frame ownership and windows between partitions (R394, R396, R397), permission tags and the event log
(R95, R96, R410, R411), the rings the device writes (R425), and code objects (R388). -/

namespace Sys2Proof.Machine

/-! Frames and pages. -/

/-- The package number of a physical address (R62). -/
def pkgOf (pa : Nat) : Nat := pa / 2 ^ 42
/-- Local memory occupies local addresses below 2^40 (R62). -/
def isMem (pa : Nat) : Bool := decide (pa % 2 ^ 42 < 2 ^ 40)
/-- The die that homes a local address (R65). -/
def dieOf (pa : Nat) : Nat := bitsN pa 39 37
/-- The ownership byte of the frame of an address (R393). -/
def State.frameOf (s : State) (pa : Nat) : Byte := rd s.frames (pa / 2 ^ 21)
/-- The owner of a frame, none where it is not owned. -/
def State.ownerOf (s : State) (pa : Nat) : Option (BitVec 6) :=
  let f := s.frameOf pa
  if f.getLsbD 7 && isMem pa then some (f.extractLsb' 0 6) else none

/-- Every frame of a page belongs to an owner (R402). -/
def State.framesOf (s : State) (pa size : Nat) (owner : BitVec 6) : Bool :=
  (List.range ((size + 2 ^ 21 - 1) / 2 ^ 21)).all fun k => s.ownerOf (pa + k * 2 ^ 21) == some owner
/-- The index ranges of a virtual address by level (R402). -/
def walkIdx (va level : Nat) : Nat :=
  match level with
  | 0 => bitsN va 55 47
  | 1 => bitsN va 46 38
  | 2 => bitsN va 37 30
  | 3 => bitsN va 29 21
  | _ => bitsN va 20 16
/-- Page size of a leaf by level. -/
def pageSize (level : Nat) : Nat := if level = 2 then 2 ^ 30 else if level = 3 then 2 ^ 21 else 2 ^ 16

/-- Faults of a walk, numbered as in Table 20.2. -/
inductive WalkFault where
  | notPresent | malformed | owner
deriving DecidableEq, Repr
def WalkFault.code : WalkFault → Nat
  | .notPresent => 0 | .malformed => 1 | .owner => 2

/-- The walk of R402 from a level, its table at `t`: the leaf and its page size. Reads are checked against the frame map. -/
def walkFrom (s : State) (part : BitVec 6) (va : Nat) : Nat → Nat → Nat → Except WalkFault (Leaf × Nat)
  | 0, _, _ => .error .malformed
  | fuel + 1, level, t =>
    let ea := t + 16 * walkIdx va level
    if s.ownerOf ea != some part then .error .owner
    else
      let e := rdNat s.mem ea 16
      let v : Bool := e % 2 == 1
      let leaf : Bool := e / 2 % 2 == 1
      let pa := bitsN e 55 16 * 2 ^ 16
      if !v then .error .notPresent
      else if bitsN e 15 3 != 0 || bitsN e 100 56 != 0 || (!leaf && (bitsN e 127 101 != 0 || bitsN e 2 2 != 0))
          || (leaf && decide (level < 2)) || (!leaf && level == 4) then .error .malformed
      else if leaf then
        let size := pageSize level
        if pa % size != 0 then .error .malformed
        else if !s.framesOf pa size (BitVec.ofNat 6 (bitsN e 127 122)) then .error .owner
        else .ok ({ pa := pa, owner := BitVec.ofNat 6 (bitsN e 127 122), key := BitVec.ofNat 9 (bitsN e 121 113),
                    tag := BitVec.ofNat 12 (bitsN e 112 101), xo := bitsN e 2 2 == 1 }, size)
      else walkFrom s part va fuel (level + 1) pa

/-- A root with bits 15:0 set disables translation: every global access faults (R400). -/
def State.xlOff (s : State) (part : BitVec 6) : Bool := (s.pr part 0x5000).toNat % 65536 != 0
/-- The die of a core, counted over the package. -/
def dieOfCore (core : Nat) : Nat := core / 24 / 6
/-- The bits of a virtual address that a table entry at a level stands for: those from the level's lowest index bit up. -/
def walkLow (level : Nat) : Nat := match level with | 0 => 47 | 1 => 38 | 2 => 30 | 3 => 21 | _ => 16
def walkKey (va level : Nat) : Nat := va / 2 ^ walkLow level
/-- Where a walk begins (R403): below the deepest table entry of the address that the walk caches hold, else at PTROOT. -/
def State.walkStart (s : State) (part : BitVec 6) (va : Nat) : Nat × Nat :=
  ([3, 2, 1, 0].findSome? fun level =>
    (s.walks.find? fun w => w.part == part && w.level == level && w.idx == walkKey va level).map fun w => (level + 1, w.next)).getD
    (0, (s.pr part 0x5000).toNat)
/-- The walk of a partition's tables. -/
def walk (s : State) (part : BitVec 6) (va : Nat) : Except WalkFault (Leaf × Nat) :=
  let b := s.walkStart part va
  walkFrom s part va (5 - b.1) b.1 b.2
/-- The table entries that a walk goes through from a level on. -/
def walkPath (s : State) (part : BitVec 6) (va : Nat) : Nat → Nat → Nat → List WalkEntry
  | 0, _, _ => []
  | fuel + 1, level, t =>
    let e := rdNat s.mem (t + 16 * walkIdx va level) 16
    if e % 2 = 0 || e / 2 % 2 = 1 then []
    else
      let next := bitsN e 55 16 * 2 ^ 16
      { part := part, level := level, idx := walkKey va level, next := next } :: walkPath s part va fuel (level + 1) next

/-- Where a translated byte lies; `page`: the virtual address of its page. -/
structure Xl where
  pa : Nat
  leaf : Leaf
  page : Nat
deriving DecidableEq, Repr, Inhabited

/-- What a translation leaves behind: entries for TLBs and for the walk caches. -/
structure Fill where
  tlb : List TlbEntry
  walks : List WalkEntry
deriving DecidableEq, Repr, Inhabited

/-- The TLB behind one: that of its die behind a core's. -/
def Mmu.next : Mmu → Option Mmu
  | .core c => some (.die (dieOfCore c))
  | .die _ => none
/-- The entry of a TLB that covers an address. -/
def State.tlbHit (s : State) (m : Mmu) (part : BitVec 6) (va : Nat) : Option TlbEntry :=
  s.tlb.find? fun e => e.mmu == m && e.part == part && decide (e.va ≤ va ∧ va < e.va + e.size)
/-- Translation for a core or for a unit of a die (R403): a hit is the whole leaf result of an earlier walk. -/
def State.lookup (s : State) (m : Mmu) (part : BitVec 6) (va : Nat) : Except WalkFault (Xl × Fill) :=
  if s.xlOff part then .error .notPresent
  else
  match s.tlbHit m part va with
  | some e => .ok ({ pa := e.leaf.pa + (va - e.va), leaf := e.leaf, page := e.va }, { tlb := [], walks := [] })
  | none =>
    match m.next.bind fun n => s.tlbHit n part va with
    | some e => .ok ({ pa := e.leaf.pa + (va - e.va), leaf := e.leaf, page := e.va }, { tlb := [{ e with mmu := m }], walks := [] })
    | none =>
      match walk s part va with
      | .error f => .error f
      | .ok (leaf, size) =>
        let base := va / size * size
        let b := s.walkStart part va
        .ok ({ pa := leaf.pa + (va - base), leaf := leaf, page := base },
          { tlb := (m :: m.next.toList).map fun n => { mmu := n, part := part, va := base, size := size, leaf := leaf }
            walks := walkPath s part va (5 - b.1) b.1 b.2 })

/-- Entries of a TLB (R403). -/
def Mmu.room : Mmu → Nat
  | .core _ => Config.microTlbEntries
  | .die _ => Config.tlbEntries
/-- A TLB entry is kept, the oldest of its TLB leaving where that is full. -/
def tlbAdd (tlb : List TlbEntry) (e : TlbEntry) : List TlbEntry :=
  let own := tlb.filter fun x => x.mmu == e.mmu
  (if own.length < e.mmu.room then tlb else match own with | o :: _ => tlb.erase o | [] => tlb) ++ [e]
/-- TLBs and walk caches keep what a translation has found; the walk caches hold as many entries as they have room for, a free number. -/
def State.fillTlb (s : State) (f : Fill) : State :=
  { s with tlb := f.tlb.foldl tlbAdd s.tlb
           walks := if f.walks.isEmpty then s.walks else (s.walks ++ f.walks).drop ((s.walks ++ f.walks).length - Config.walkEntries) }
/-- The TLB of the units that belong to no bulkhead: the front end, the dispatcher of rings and object tables (notes/assumptions/17.md). -/
def frontMmu : Mmu := .die 0

/-- PAGE_FAULT record (R404, Table 20.2): one for a page in a step, where its requests join one walk. -/
def State.postPageFault (s : State) (part : BitVec 6) (handle va : DWord) (f : WalkFault) (write : Bool) : State :=
  let w := (s.cycle, part, va.toNat / 65536)
  let old := s.walkFaults.filter fun x => x.1 == s.cycle
  if old.contains w then s
  else State.postFault { s with walkFaults := old ++ [w] } part { handle := handle, addr := va, pc := BitVec.ofNat 32 f.code, sub := if write then 1 else 0, kind := 1 }

/-! Windows between partitions (R396, R397). The entries and the frames of other packages stand in `farWins` and `frames`; this
package writes neither. -/

/-- A window entry (Table 19.3). -/
structure WinEntry where
  pkg : Nat
  part : Nat
  base : Nat
  last : Nat
  use : Bool
  rw : Bool
  v : Bool
deriving DecidableEq, Repr

def winOf (hi lo : Nat) : WinEntry :=
  { pkg := bitsN hi 63 50, part := bitsN hi 49 44, base := bitsN hi 41 21, last := bitsN hi 20 0,
    use := bitsN lo 2 2 == 1, rw := bitsN lo 1 1 == 1, v := bitsN lo 0 0 == 1 }
def State.winEntry (s : State) (part : BitVec 6) (w : Nat) : WinEntry :=
  winOf (s.pr part (0x4008 + 16 * w)).toNat (s.pr part (0x4000 + 16 * w)).toNat
/-- The window entries of a partition of a package. -/
def State.winEntries (s : State) (pkg : Nat) (part : BitVec 6) : List WinEntry :=
  if pkg == s.chip.toNat then (List.range 16).map (s.winEntry part)
  else (s.farWins.filter fun x => x.1.toNat == pkg && x.2.1 == part).map fun x => winOf (x.2.2.toNat / 2 ^ 64) (x.2.2.toNat % 2 ^ 64)

/-- Position of a package in the coherence domain (R67). -/
def State.domPos (s : State) (pkg : Nat) : Option Nat :=
  let i := s.domain.findIdx fun p => p.toNat == pkg
  if i < s.domain.length then some i else none
/-- The lanes that a scale-up port works with (R420, Table 0.1): four, two once it has lost one, none where too few are left. -/
def portLanes (down : List Nat) (port : Nat) : Nat :=
  let n := ((List.range 4).filter fun k => down.contains (4 * port + k)).length
  if n = 0 then 4 else if n ≤ 2 then 2 else 0
/-- Working scale-up lanes of the package's 18 ports (Table 21.5). -/
def laneCount (down : List Nat) : Nat := ((List.range 18).map (portLanes down)).sum
/-- The package can be reached by no other: the scale-up lanes of bridge die 1, its last 36, are lost (Table 19.6). -/
def State.cutOff (s : State) : Bool := (List.range 9).all fun k => portLanes s.lanesDown (9 + k) == 0
/-- Another package that cannot be reached: all of its agents are lost, or this package is cut off (R399, R423). -/
def State.pkgLost (s : State) (pkg : Nat) : Bool :=
  pkg != s.chip.toNat && (s.cutOff || match s.domPos pkg with | some i => (List.range 8).all fun d => s.absent.contains (8 * i + d) | none => false)

/-- The open window through which partition u of this package reaches a frame of owner o, and whether it is read-write: a USE
entry of u, a GRANT entry of o on the frame's package that names u and the same frames, all of them owned by o. -/
def State.openWindow (s : State) (u o : BitVec 6) (pa : Nat) : Option Bool :=
  let fr := pa % 2 ^ 42 / 2 ^ 21
  let uses := (s.winEntries s.chip.toNat u).filter fun e =>
    e.v && e.use && e.pkg == pkgOf pa && e.part == o.toNat && decide (e.base ≤ fr ∧ fr ≤ e.last)
  let grants := (s.winEntries (pkgOf pa) o).filter fun e => e.v && !e.use && e.pkg == s.chip.toNat && e.part == u.toNat
  let owned (e : WinEntry) : Bool := (List.range (e.last + 1 - e.base)).all fun k =>
    s.ownerOf (pkgOf pa * 2 ^ 42 + (e.base + k) * 2 ^ 21) == some o
  match uses.find? (fun e => grants.any fun g => g.base == e.base && g.last == e.last && owned g) with
  | none => none
  | some e => some (e.rw && (grants.any fun g => g.base == e.base && g.last == e.last && g.rw))

/-- Whether a partition's request passes the frame checks of R394 and R397. -/
def State.frameOk (s : State) (part : BitVec 6) (x : Xl) (write : Bool) : Bool :=
  if s.pkgLost (pkgOf x.pa) || s.ownerOf x.pa != some x.leaf.owner then false
  else if x.leaf.owner == part && pkgOf x.pa == s.chip.toNat then true
  else
    match s.openWindow part x.leaf.owner x.pa with
    | none => false
    | some w => w || !write

/-! Permission tags (R95, R96, R410). -/

/-- PRTBASE and PRTCTL as they count: a new table takes effect when the masks of the old one are dropped (R410). -/
def State.prTable (s : State) (part : BitVec 6) : DWord × DWord :=
  (s.invBusy.findSome? fun x => match x with | (p, .table b c) => if p == part then some (b, c) else none | _ => none).getD (s.pr part 0x5300, s.pr part 0x5308)
/-- Where the table holds a principal: none for one at or above the count, or not valid. -/
def State.prEntry (s : State) (part : BitVec 6) (pr : Nat) : Option Nat :=
  let t := s.prTable part
  let base := s.chip.toNat * 2 ^ 42 + bitsN t.1.toNat 39 12 * 4096 + 1024 * pr
  if pr < bitsN t.2.toNat 15 0 && rdNat s.mem (base + 560) 1 % 2 == 1 then some base else none
/-- The tag mask of a principal as the principal table holds it; a principal at or above the count, or not valid, grants nothing. -/
def State.tableMask (s : State) (part : BitVec 6) (pr : BitVec 16) : BitVec 4096 :=
  match s.prEntry part pr.toNat with
  | some base => BitVec.ofNat 4096 (rdNat s.mem base 512)
  | none => 0
/-- The mask in effect: the slices' cached one where they hold one. -/
def State.maskOf (s : State) (part : BitVec 6) (pr : BitVec 16) : BitVec 4096 :=
  match s.masks.find? (fun m => m.part == part && m.principal == pr) with
  | some m => m.mask
  | none => s.tableMask part pr
/-- The slices keep a mask they have read until an invalidation names it. -/
def State.cacheMask (s : State) (part : BitVec 6) (pr : BitVec 16) : State :=
  if s.masks.any (fun m => m.part == part && m.principal == pr) then s
  else { s with masks := s.masks ++ [{ part := part, principal := pr, mask := s.tableMask part pr }] }
def State.tagOk (s : State) (part : BitVec 6) (pr : BitVec 16) (tag : BitVec 12) : Bool := (s.maskOf part pr).getLsbD tag.toNat

/-! Rings that software reads (R425). -/

/-- Whether an enabled ring has room for one more record. -/
def ringRoom (ctl head tail : DWord) : Bool :=
  ctl.getLsbD 31 && (tail.toNat + 1) % 2 ^ (bitsN ctl.toNat 4 0) != head.toNat
/-- Where the next record goes. -/
def ringSlot (base tail : DWord) : DWord := base + tail * 32
/-- The tail after one more record. -/
def ringNext (ctl tail : DWord) : DWord := BitVec.ofNat 64 ((tail.toNat + 1) % 2 ^ (bitsN ctl.toNat 4 0))
/-- A vector raised: 0 to 15 (R425). -/
def State.raiseVec (s : State) (fn : Option Fn) (vec : Nat) : State :=
  match fn with
  | some f => if vec < 16 then { s with vectors := s.vectors ++ [(f, vec)] } else s
  | none => s
/-- The lead function of a partition: the lowest-numbered virtual function bound to it (R396). -/
def State.leadFn (s : State) (part : BitVec 6) : Option Fn :=
  match (s.vfPart.filter (fun b => b.2 == part)).map (·.1) with
  | [] => none
  | f :: l => some (.vf (l.foldl min f))

/-- A 32-byte record written by the device at a host bus address or a device virtual address of a partition; none where a
device address does not translate to a frame the partition owns. -/
def State.devWrite (s : State) (part : BitVec 6) (dev : Bool) (a : DWord) (n v : Nat) : Option State :=
  if dev then
    match s.lookup frontMmu part a.toNat with
    | .error _ => none
    | .ok (x, e) =>
      if s.ownerOf x.pa == some part then some { s.fillTlb e with mem := wrNat s.mem x.pa n v } else none
  else some { s with host := wrNat s.host a.toNat n v }

/-- One record of an enabled ring of a partition, registers from `off`: base, control, head, tail. -/
def State.ringPut (s : State) (part : BitVec 6) (off : Nat) (r : BitVec 256) : Option State :=
  let ctl := s.pr part (off + 8)
  let tail := s.pr part (off + 16)
  if ringRoom ctl (s.pr part (off + 12)) tail then
    match s.devWrite part (ctl.getLsbD 30) (ringSlot (s.pr part off) tail) 32 r.toNat with
    | none => none
    | some s => some ((s.setPr part (off + 16) (ringNext ctl tail)).raiseVec (s.leadFn part) (bitsN ctl.toNat 23 16))
  else none

/-- DROPS of a log counts up to 0xff (R411, R425). -/
def bumpDrops (ctl : DWord) : DWord :=
  if bitsN ctl.toNat 15 8 = 255 then ctl else ctl + 256

/-- Fields of an event record (Table 20.4). -/
structure Event where
  va : DWord
  pc : Word
  object : Word
  principal : BitVec 16
  tag : BitVec 12
  src : BitVec 4
deriving DecidableEq, Repr

/-- A denied read appended to the event log: dropped and counted where the ring is full or disabled (R411). -/
def State.postEvent (s : State) (part : BitVec 6) (launch : Nat) (e : Event) : State :=
  let r : BitVec 256 := s.clock ++ e.va ++ e.pc ++ e.object ++ e.principal ++ e.tag ++ (0 : BitVec 32) ++ e.src
  let s := s.modLaunch launch fun l => { l with evlog := true }
  match s.ringPut part 0x5200 r with
  | some s => s
  | none => s.setPr part 0x5208 (bumpDrops (s.pr part 0x5208))

/-! Code objects (R388, Table 18.11). -/

/-- Address of an object's slot, where its handle is in range. -/
def State.objSlot (s : State) (part : BitVec 6) (handle : Word) : Option Nat :=
  let i := bitsN handle.toNat 23 0
  if i < bitsN (s.pr part 0x5608).toNat 23 0 then
    some (s.chip.toNat * 2 ^ 42 + bitsN (s.pr part 0x5600).toNat 41 12 * 4096 + 128 * i) else none
def State.objField (s : State) (a hi lo : Nat) : Nat := bitsN (rdNat s.mem a 128) hi lo
/-- The slot of a loaded object: GEN matches, LIVE or DRAINING. -/
def State.objLoaded (s : State) (part : BitVec 6) (handle : Word) : Option Nat :=
  match s.objSlot part handle with
  | none => none
  | some a =>
    if s.objField a 31 24 == bitsN handle.toNat 31 24 && (s.objField a 1 0 == 1 || s.objField a 1 0 == 2) then some a else none
/-- Text size of an object, 0 where there is none. -/
def State.textSize (s : State) (part : BitVec 6) (handle : Word) : Nat :=
  match s.objLoaded part handle with
  | some a => s.objField a 95 64
  | none => 0
/-- A byte at its home through a key slot (R412): a cleared sector reads as it is; through another slot than the writer's the
byte is a free value. -/
def State.homeByte (s : State) (pa : Nat) (key : BitVec 9) : Byte :=
  let k := rd s.sectorKey (pa / 32)
  let v := rd s.mem pa
  if k = 0 || k.toNat = key.toNat + 1 then v else Config.wrongKeyByte (BitVec.ofNat 9 (k.toNat - 1)) key pa v

/-- Where a word of an object's text lies, with the key of its page: nowhere beyond TEXTSZ or where the text does not translate (R214, R388). -/
def State.textAt (s : State) (core : Nat) (part : BitVec 6) (handle : Word) (off : Nat) : Option (Nat × BitVec 9) :=
  match s.objLoaded part handle with
  | none => none
  | some a =>
    if off + 4 ≤ s.objField a 95 64 then
      match s.lookup (.core core) part (s.objField a 191 128 + off) with
      | .ok (x, _) => if s.frameOk part x false then some (x.pa, x.leaf.key) else none
      | .error _ => none
    else none

/-- A word of text as a core fetches it: from its own caches, else from memory. -/
def State.codeAt (s : State) (core : Nat) (x : Nat × BitVec 9) : Word :=
  match s.code.find? fun w => w.core == core && w.pa == x.1 with
  | some w => w.word
  | none => BitVec.ofNat 32 (natOfBytes ((List.range 4).map fun k => s.homeByte (x.1 + k) x.2))
def State.textWord (s : State) (core : Nat) (part : BitVec 6) (handle : Word) (off : Nat) : Option Word :=
  (s.textAt core part handle off).map (s.codeAt core)
/-- A core keeps the words it has fetched, the oldest leaving where there is no room. -/
def State.fillCode (s : State) (core : Nat) (xs : List (Nat × BitVec 9)) : State :=
  let new := (xs.filter fun x => !s.code.any fun w => w.core == core && w.pa == x.1).map fun x => { core := core, pa := x.1, word := s.codeAt core x }
  let own := (s.code.filter (·.core == core)) ++ new
  { s with code := s.code.filter (·.core != core) ++ own.drop (own.length - Config.codeWords) }

/-! Windows of the virtual address space (Table 2.5). -/

/-- Where an address points, before translation. -/
inductive Place where
  /-- a global virtual address; for a private-window access the backing address in the pool (R60, R385) -/
  | glob (va : DWord)
  /-- a byte of a block's scratchpad -/
  | scr (blk off : Nat)
  /-- a view slot with an offset -/
  | view (slot off : Nat)
  | none
deriving DecidableEq, Repr

/-- The block of a group with an index, while it has not retired (R59). -/
def State.groupBlock (s : State) (b : Block) (gidx : Nat) : Option Block :=
  s.blocks.find? fun x => x.launch == b.launch && x.grp == b.grp && x.shape.stage == b.shape.stage && x.shape.gidx == gidx
    && x.shape.gsize == b.shape.gsize && x.state != .retired && (x.id == b.id || b.shape.gsize != 0)

/-- The entry of the launch's pool that a block holds (R385). -/
def State.poolEntry (s : State) (b : Block) : DWord :=
  match s.launch? b.launch with
  | some l => l.pool + BitVec.ofNat 64 (b.pool * l.entkb * 1024)
  | none => 0
def State.privBytes (s : State) (b : Block) : Nat :=
  match s.launch? b.launch with
  | some l => l.privkb * 1024
  | none => 0

/-- Table 2.5 for an access of n bytes by a thread. -/
def State.place (s : State) (id : ThreadId) (va : DWord) (n : Nat) : Place :=
  match s.block? id.blk with
  | none => .none
  | some b =>
    let a := va.toNat
    let top := a / 2 ^ 48
    if a / 2 ^ 56 = 0 then .glob va
    else if 2 ^ 63 ≤ a then .view (bitsN a 62 55) (a % 2 ^ 55)
    else if top = 0x0100 then (if a % 2 ^ 48 + n ≤ b.shape.scratch * 1024 then .scr b.id (a % 2 ^ 48) else .none)
    else if top = 0x0101 then
      let bb := bitsN a 47 32
      if bb ≤ b.shape.gsize then
        match s.groupBlock b bb with
        | some x => if a % 2 ^ 32 + n ≤ x.shape.scratch * 1024 then .scr x.id (a % 2 ^ 32) else .none
        | none => .none
      else .none
    else if top = 0x0200 then
      let o := a % 2 ^ 48
      if o + n ≤ s.privBytes b then .glob (s.poolEntry b + BitVec.ofNat 64 (id.tid * s.privBytes b + o)) else .none
    else .none

/-! Checks of an access that is not through a view (R273). -/

/-- What an access does: reductions check as writes. -/
inductive AKind where
  | read | write | atomic
deriving DecidableEq, Repr

/-- An access that passed: where its first byte lies, the page's key, and whether a read is denied (R95). -/
structure Acc where
  loc : Loc
  key : BitVec 9
  tag : BitVec 12
  denied : Bool
  /-- virtual address of its page -/
  page : Nat
deriving DecidableEq, Repr, Inhabited

/-- The checks of a global address (R273 after alignment): translation, the frame and window rules, execute-only pages, PERM_WRITE. A
read of a page whose tag is not in the mask is denied and not a fault; an address beyond the global window is untranslatable. The state that comes back has the TLB entry, the cached
mask or the PAGE_FAULT record of the attempt. -/
def State.globAccess (s : State) (m : Mmu) (part : BitVec 6) (handle : DWord) (pr : BitVec 16) (g : Nat) (k : AKind) : State × Except Cause Acc :=
  let write : Bool := k != .read
  if 2 ^ 56 ≤ g then (s, .error .xlate)
  else
  match s.lookup m part g with
  | .error f => (s.postPageFault part handle (BitVec.ofNat 64 g) f write, .error .xlate)
  | .ok (x, e) =>
    let s := (s.fillTlb e).cacheMask part pr
    let ok := s.tagOk part pr x.leaf.tag
    if !s.frameOk part x write then (s, .error .xlate)
    else if x.leaf.xo && k != .write then (s, .error .xlate)
    else if x.leaf.xo then (s, .error .execStore)
    else if write && !ok then (s, .error .permWrite)
    else (s, .ok { loc := .mem x.pa, key := x.leaf.key, tag := x.leaf.tag, denied := !ok, page := x.page })

/-- The checks of R273 in their order for an access of a thread: alignment, then the window and its own checks. -/
def State.access (s : State) (id : ThreadId) (va : DWord) (n : Nat) (k : AKind) : State × Except Cause Acc :=
  if va.toNat % n != 0 then (s, .error .align)
  else
    match s.place id va n, s.block? id.blk with
    | .scr b o, _ => (s, .ok { loc := .scr b o, key := 0, tag := 0, denied := false, page := 0 })
    | .glob g, some b => s.globAccess (.core b.core) b.part b.handle b.principal g.toNat k
    | _, _ => (s, .error .xlate)

/-- The event record of a denied read (R95, R411). -/
def State.reportDenied (s : State) (id : ThreadId) (va : DWord) (pc : Word) (tag : BitVec 12) (src : BitVec 4) : State :=
  match s.block? id.blk with
  | none => s
  | some b => s.postEvent b.part b.launch { va := va, pc := pc, object := b.object, principal := b.principal, tag := tag, src := src }

end Sys2Proof.Machine
end

