-- ==== Sys2Proof/Machine/ErrLog.lean ====
section
/-! DEFINITION. The operator's error log (R418, Table 21.2), a ring under R425. -/

namespace Sys2Proof.Machine

/-- What an error is recorded with. -/
structure ErrRec where
  pa : BitVec 56
  unit : BitVec 16
  code : BitVec 8
  kind : BitVec 8
deriving DecidableEq, Repr

/-- The record of Table 21.2. -/
def ErrRec.pack (e : ErrRec) (time : DWord) (synd count : Word) : BitVec 256 :=
  time ++ e.pa ++ (0 : BitVec 8) ++ e.unit ++ e.code ++ e.kind ++ synd ++ count ++ (0 : BitVec 32)
/-- UNIT: die and instance. -/
def errUnit (die inst : Nat) : BitVec 16 := BitVec.ofNat 3 die ++ BitVec.ofNat 13 inst

/-- A repeat of the last record's error, of the same address, unit, structure and kind, within 1 ms, while the log is enabled: the record
with its COUNT raised. -/
def State.errRepeat (s : State) (e : ErrRec) : Option (BitVec 256) :=
  match s.lastError with
  | some r =>
    if (s.fr 384 0x7208).getLsbD 31 && r.extractLsb' 96 96 == e.pa ++ (0 : BitVec 8) ++ e.unit ++ e.code ++ e.kind
        && decide (s.clock.toNat < (r.extractLsb' 192 64).toNat + 1000000) then
      some (if r.extractLsb' 32 32 = 0xffffffff then r else r + (1 : BitVec 256) <<< 32)
    else none
  | none => none
/-- An error logged: merged into the last record, appended, or dropped and counted. -/
def State.postError (s : State) (e : ErrRec) : State :=
  let ctl := s.fr 384 0x7208
  let tail := s.fr 384 0x7210
  let base := s.fr 384 0x7200
  match s.errRepeat e with
  | some r =>
    { s with lastError := some r
             host := wrNat s.host (ringSlot base (BitVec.ofNat 64 ((tail.toNat + 2 ^ bitsN ctl.toNat 4 0 - 1) % 2 ^ bitsN ctl.toNat 4 0))).toNat 32 r.toNat }
  | none =>
    if ringRoom ctl (s.fr 384 0x720c) tail then
      let r := e.pack s.clock (Config.syndrome s.freeCtr) 1
      let s : State := { s.redraw with lastError := some r, host := wrNat s.host (ringSlot base tail).toNat 32 r.toNat }
      (s.setFr 384 0x7210 (ringNext ctl tail)).raiseVec (some .pf) (bitsN ctl.toNat 23 16)
    else s.setFr 384 0x7208 (bumpDrops ctl)

/-- Errors that a read of some sectors finds (R416, R417): corrected, or poisoning the sector; each is logged. -/
def State.detect (s : State) (sectors : List Nat) : State :=
  (s.upsets.filter fun u => sectors.contains u.sector).foldl (fun s u =>
    State.postError (if u.fixed || s.poison.contains u.sector then s else { s with poison := s.poison ++ [u.sector] })
      { pa := BitVec.ofNat 56 (32 * u.sector), unit := errUnit (dieOf (32 * u.sector)) (Config.errInstance (32 * u.sector)).toNat, code := u.code
        kind := if u.fixed then 0 else 1 })
    { s with upsets := s.upsets.filter fun u => !sectors.contains u.sector }
/-- An uncorrectable error of the register files of a core, found when a word reads the register (R416, R418). -/
def State.registerError (s : State) (core : Nat) : State :=
  s.postError { pa := 0, unit := errUnit (dieOfCore core) core, code := 4, kind := 1 }

end Sys2Proof.Machine
end

