-- ==== Sys2Proof/Machine/Memory.lean ====
section
/-! DEFINITION. The memory system (file 03): L1 bytes, write-backs, merges and invalidations at the homes, releases and
acquires, update-only lines, and the loads, stores and atomics of threads as they are issued and served. Plain data in the
state says what is under way; each part of it is a device step of its own. -/

namespace Sys2Proof.Machine

def lineOf (pa : Nat) : Nat := pa / 128

/-- The agent number of a die of this package (R67). -/
def State.agentOf (s : State) (die : Nat) : Nat := 8 * (s.domPos s.chip.toNat).getD 0 + die
/-- The slice of its die that homes or holds a line (R65). -/
def sliceOf (pa : Nat) : Nat := bitsN pa 10 7 ^^^ bitsN pa 14 11 ^^^ bitsN pa 18 15
/-- Memory of a package outside the domain is remote (R67). -/
def State.isRemote (s : State) (pa : Nat) : Bool := (s.domPos (pkgOf pa)).isNone
/-- The agent that homes a line (R65). -/
def State.homeAgent (s : State) (pa : Nat) : Nat := 8 * (s.domPos (pkgOf pa)).getD 0 + dieOf pa

/-! Bytes at their homes. -/

/-- A byte written at its home under a key. A sector held under another key keeps, in its other bytes, what they decrypt to. -/
def State.putHome (s : State) (pa : Nat) (v : Byte) (key : BitVec 9) : State :=
  let k := rd s.sectorKey (pa / 32)
  let nk : BitVec 10 := BitVec.ofNat 10 (key.toNat + 1)
  let mem := if k = 0 || k = nk then s.mem else wrBytes s.mem (pa / 32 * 32) ((List.range 32).map fun i => s.homeByte (pa / 32 * 32 + i) key)
  { s with mem := wr mem pa v, sectorKey := wr s.sectorKey (pa / 32) nk }

/-- Poisoned sectors that a write covers whole are poisoned no more; a partial write merges into them (R417). -/
def curePoison (poison : List Nat) (cells : List Host.Cell) : List Nat :=
  poison.filter fun x => !((List.range 32).all fun i => cells.any fun c => c.1 == 32 * x + i)
/-- Poison that written bytes bring with them (R417). -/
def addPoison (poison : List Nat) (bad : List Nat) : List Nat :=
  poison ++ ((bad.map (· / 32)).eraseDups.filter fun x => !poison.contains x)
/-- The copy that the sender's L2 holds takes the bytes (R82). -/
def State.mergeGuest (s : State) (core : Nat) (cells : List Host.Cell) : State :=
  { s with guests := s.guests.map fun g =>
      if g.agent == s.agentOf (dieOfCore core) then
        { g with data := (List.range 128).map fun i =>
            match (cells.filter (fun c => c.1 == g.line * 128 + i)).getLast? with
            | some c => c.2
            | none => g.data.getD i 0 }
      else g }
/-- Cells written at their homes, in the copy of the sender's L2, and in the clean L1 copies of the writing core, but for bytes of
which it has a later write-back in flight (R72). -/
def State.expose (s : State) (core : Nat) (cells : List Host.Cell) (key : BitVec 9) (bad : List Nat := []) : State :=
  (cells.foldl (fun (s : State) c =>
    let later : Bool := s.wbs.any fun w => w.core == core && w.cells.any fun d => d.1 == c.1
    { s.putHome c.1 c.2 key with
      l1 := s.l1.map fun b => if b.core == core && b.pa == c.1 && b.dirty.isEmpty && !later then { b with val := c.2, bad := bad.contains c.1 } else b })
    { s with poison := addPoison (curePoison s.poison cells) bad }).mergeGuest core cells

/-! Directory (R84 to R86). -/

/-- Agents a directory entry stands for. -/
def DirEntry.agents (d : DirEntry) : List Nat :=
  if d.coarse then (List.range 64).filter fun a => d.vec.getLsbD (a / 4) else d.ptrs
def State.dirEntry? (s : State) (line : Nat) : Option DirEntry := s.dir.find? fun d => d.line == line
def State.setDir (s : State) (line : Nat) (d : Option DirEntry) : State :=
  { s with dir := s.dir.filter (fun e => e.line != line) ++ d.toList }
/-- A guest recorded (R85): a fifth turns the entry coarse. -/
def DirEntry.add (d : DirEntry) (a : Nat) : DirEntry :=
  if d.coarse then { d with vec := d.vec ||| (1#16 <<< (a / 4)) }
  else if d.ptrs.contains a then d
  else if d.ptrs.length < 4 then { d with ptrs := d.ptrs ++ [a] }
  else { d with coarse := true, ptrs := [], vec := (a :: d.ptrs).foldl (fun v x => v ||| (1#16 <<< (x / 4))) 0 }
/-- An eviction notice (R85): a coarse entry keeps its bits. -/
def DirEntry.drop (d : DirEntry) (a : Nat) : Option DirEntry :=
  if d.coarse then some d
  else
    let ps := d.ptrs.filter (· != a)
    if ps.isEmpty then none else some { d with ptrs := ps }
/-- Agents that hold a guest copy. -/
def State.holders (s : State) (line : Nat) : List Nat := (s.guests.filter (fun g => g.line == line)).map (·.agent)
/-- A line has guests that no entry records: a discovery must rebuild it (R86). -/
def State.needsDiscovery (s : State) (line : Nat) : Bool := (s.dirEntry? line).isNone && !(s.holders line).isEmpty
/-- A guest copy leaves the L2 of an agent, and its home is told (R85). -/
def State.dropGuest (s : State) (agent line : Nat) : State :=
  if (s.holders line).contains agent then
    let s : State := { s with guests := s.guests.filter fun g => !(g.agent == agent && g.line == line) }
    s.setDir line ((s.dirEntry? line).bind fun d => d.drop agent)
  else s
/-- A new guest copy with its directory entry (R82, R85): never of the home's own die. -/
def State.addGuest (s : State) (agent line : Nat) (key : BitVec 9) (tag : BitVec 12) : State :=
  if agent == s.homeAgent (line * 128) || (s.guests.any fun g => g.agent == agent && g.line == line && g.key == key) then s
  else
    let s := s.dropGuest agent line
    let d := (s.dirEntry? line).getD { line := line, coarse := false, ptrs := [], vec := 0 }
    { s.setDir line (some (d.add agent)) with
      guests := s.guests ++ [{ agent := agent, line := line, data := (List.range 128).map (fun i => s.homeByte (line * 128 + i) key), key := key, tag := tag }] }

/-! Write-backs: merged at the home, exposed when every sharer has acknowledged (R83). -/

/-- Whether the line of a byte has bytes merged at its home and not yet exposed: reads there wait (R83). -/
def State.underMerge (s : State) (pa : Nat) : Bool := s.merges.any fun m => !m.exposed && m.wb.cells.any fun c => lineOf c.1 == lineOf pa
/-- The frame of a byte is changing its owner: requests wait at the home (R395). -/
def State.frameWait (s : State) (pa : Nat) : Bool := s.frameBusy.any fun f => f.1 == pa / 2 ^ 21
/-- A byte that a core's L2 cannot bring yet: its core has a write-back of it in flight, or its die's L2 has taken one that the home
has not exposed (R72, R82). -/
def State.wbInFlight (s : State) (core pa : Nat) : Bool :=
  (s.wbs.any fun w => (w.core == core || (w.atL2 && dieOfCore w.core == dieOfCore core)) && w.cells.any fun c => c.1 == pa)
  || s.merges.any fun m => !m.exposed && dieOfCore m.wb.core == dieOfCore core && m.wb.cells.any fun c => c.1 == pa

def memCells (pa : Nat) (bs : List Byte) : List Host.Cell := (List.range bs.length).map fun i => (pa + i, bs.getD i 0)
/-- The lines that cells touch, each once. -/
def linesOf (cells : List Host.Cell) : List Nat :=
  cells.foldl (fun acc c => if acc.contains (lineOf c.1) then acc else acc ++ [lineOf c.1]) []

/-- Sharers to invalidate for a write from a core: every recorded agent but the sender's own die and the absent (R83, R423). -/
def State.sharers (s : State) (core : Nat) (cells : List Host.Cell) : List Nat :=
  (linesOf cells).foldl (fun acc l =>
    match s.dirEntry? l with
    | none => acc
    | some d => acc ++ (d.agents.filter fun a =>
        a != s.agentOf (dieOfCore core) && a != s.homeAgent (l * 128) && !s.absent.contains a && !acc.contains a)) []

/-- An agent of the package that homes a write-back's bytes. -/
def State.atHomePkg (s : State) (w : WB) (a : Nat) : Bool := (w.cells.head?.map fun c => s.homeAgent c.1 / 8) == some (a / 8)
/-- The bytes of a merge are exposed to the home's package once its sharers there have answered, those of a release, atomic or queue
write of scope .dom or .sys once every sharer of the domain has (R77, R83). -/
def State.tryExpose (s : State) (id : Nat) : State :=
  match s.merges.find? fun m => m.wb.id == id with
  | none => s
  | some m =>
    if m.exposed || (if m.wb.dom then !m.waits.isEmpty else m.waits.any (s.atHomePkg m.wb)) then s
    else { s.expose m.wb.core m.wb.cells m.wb.key m.wb.bad with merges := s.merges.map fun x => if x.wb.id == id then { x with exposed := true } else x }
/-- A write taken at its home: exposed at once where nothing shares the line, else as the acknowledgements come (R83). -/
def State.mergeHome (s : State) (w : WB) : State :=
  match s.sharers w.core w.cells with
  | [] =>
    let s := s.expose w.core w.cells w.key w.bad
    if w.nt then State.push { s with merges := s.merges ++ [{ wb := { w with cells := [] }, waits := [], exposed := true }] } (.ntStoreAck w.id) else s
  | as =>
    let s : State := { s with merges := s.merges ++ [{ wb := w, waits := as, exposed := false }] }
    (as.foldl (fun s a => s.push (.invalidation w.id a)) s).tryExpose w.id

/-- A write-back put in flight. -/
def State.sendWb (s : State) (core : Nat) (th : Option ThreadId) (cells : List Host.Cell) (nt : Bool) (key : BitVec 9) (cmt : Option Nat := none) (bad : List Nat := []) : State :=
  if cells.isEmpty then s
  else
    State.push { s with wbs := s.wbs ++ [{ id := s.nextId, core := core, th := th, cells := cells, nt := nt, key := key, atL2 := false, dom := false, cmt := cmt, bad := bad }],
                        nextId := s.nextId + 1 } (.writeBack s.nextId)

/-- Cells written back, one write-back for each line and key. -/
def State.sendCells (s : State) (core : Nat) (cells : List (Host.Cell × BitVec 9)) (cmt : Option Nat := none) (bad : List Nat := []) : State :=
  ((cells.map fun c => (lineOf c.1.1, c.2)).eraseDups).foldl (fun s g =>
    s.sendWb core none ((cells.filter fun c => lineOf c.1.1 == g.1 && c.2 == g.2).map (·.1)) false g.2 cmt (bad.filter fun a => lineOf a == g.1)) s
/-- Dirty bytes of a core's L1 that satisfy a test are written back and stay as clean bytes; with a byte go the dirty bytes of its
aligned 16 bytes, so that no aligned store is split (R76). -/
def State.flush (s : State) (core : Nat) (p : L1Byte → Bool) : State :=
  let dirty (b : L1Byte) : Bool := b.core == core && !b.dirty.isEmpty
  let hit := ((s.l1.filter fun b => dirty b && p b).map (·.pa / 16)).eraseDups
  let goes (b : L1Byte) : Bool := dirty b && hit.contains (b.pa / 16)
  let out := s.l1.filter goes
  State.sendCells { s with l1 := s.l1.map fun b => if goes b then { b with dirty := [] } else b } core
    (out.map fun b => ((b.pa, b.val), b.key)) none ((out.filter (·.bad)).map (·.pa))

/-- An acquire of scope .grp or wider drops the clean bytes of the core (R81). -/
def State.invalL1 (s : State) (core : Nat) : State := { s with l1 := s.l1.filter fun b => b.core != core || !b.dirty.isEmpty }
/-- The acquire side of an ordering operation. -/
def State.acquire (s : State) (core : Nat) (sc : Scope) : State := if sc == .blk then s else s.invalL1 core

/-- The core a thread runs on. -/
def State.coreOf (s : State) (id : ThreadId) : Nat := match s.block? id.blk with | some b => b.core | none => 0

/-! Releases (R73, R80). -/

/-- Pending reductions of a core, sent to their homes. -/
def State.sendUpd (s : State) (core : Nat) : State :=
  (linesOf ((s.upd.filter (fun u => u.core == core)).map fun u => (u.pa, 0))).foldl
    (fun s l => s.push (.updateLineMerge core l)) s

/-- Write-backs of a core in flight: a release of scope .dev or wider waits for all of them. -/
def State.coreWbs (s : State) (core : Nat) : List Nat :=
  (s.wbs.filter (fun w => w.core == core && !w.nt)).map (·.id) ++ (s.merges.filter (fun m => m.wb.core == core && !m.wb.nt)).map (·.wb.id)

/-- Matrix operations that reach memory, and those a thread has signed that have not completed (R303). -/
def memOp : Instr → Bool
  | .tld .. | .tst .. | .accLdMem .. | .accStMem .. | .pmLd .. | .pmSt .. => true
  | _ => false
/-- Those that store. -/
def memStore : Instr → Bool
  | .tst .. | .accStMem .. | .pmSt .. => true
  | _ => false
def State.matMem (s : State) (id : ThreadId) : Bool :=
  match s.side? id.blk id.wheel with
  | some d => d.ops.any fun o => memOp o.ins && o.signers.contains id
  | none => false

/-- A release begins: the thread's dirty bytes are written back; at .dev and wider the core's reductions are merged (R80, R88).
In a contained block it takes effect at the next commit (R195), so nothing is sent. -/
def State.beginRelease (s : State) (id : ThreadId) (sc : Scope) (cells : List LCell) (after : Option Ev) : State :=
  let core := s.coreOf id
  let cont := s.isCont id.blk
  let far : Bool := sc != .blk && sc != .grp
  let n := s.nextId
  let s := s.bump
  let s := if sc == .blk || cont then s else s.flush core (fun b => b.dirty.contains id || cells.any fun c => c.loc == .mem b.pa)
  let s := if far then s.sendUpd core else s
  State.push { s with
    rels := s.rels ++ [{ id := n, th := id, core := core, scope := sc, waits := if sc == .blk || cont then [] else s.coreWbs core,
                         upd := if far then (s.upd.filter (fun u => u.core == core)).map (·.id) else [], cells := cells, after := after }] } (.releaseComplete n)


/-- A write-back has gone as far as a release of a scope asks: merged by the die's L2 for .grp, else acknowledged by its home (R80). -/
def State.wbDone (s : State) (sc : Scope) (w : Nat) : Bool :=
  !(s.wbs.any fun x => x.id == w && !(sc == .grp && x.atL2)) && (sc == .grp || !(s.merges.any fun m => m.wb.id == w))
/-- Whether everything a release waits for has happened: its write-backs, the core's reductions, the thread's loads and atomics, its
stores not yet accepted, its view stores but for `st.nt`, its remote writes, its matrix stores, its try enqueues, its earlier
releases, and those of the other threads of its word. -/
def State.relDone (s : State) (r : Rel) : Bool :=
  r.waits.all (s.wbDone r.scope)
  && r.upd.all (fun u => !(s.upd.any fun x => x.id == u))
  && !(s.staccs.any fun x => x.th == r.th)
  && !(s.vstores.any fun x => x.th == r.th && x.rel != some r.id && !x.nt)
  && !(s.atoms.any fun a => a.th == r.th && decide (a.id < r.id) && r.after != some (.atomicAtHome a.id))
  && !(s.loads.any fun l => l.th == r.th && decide (l.id < r.id))
  && (match r.slot with | some (ids, _) => !(s.rels.any fun x => ids.contains x.id) | none => true)
  && !(s.rels.any fun x => decide (x.id < r.id) && (x.th == r.th || (x.core == r.core && x.cells.any fun c => r.cells.any fun k => k.loc == c.loc)))
  && (r.after == some (.blockSaveComplete r.th.blk) || !s.matMem r.th)
  && !(s.qreqs.any fun x => x.try_ && x.enq && x.result.isNone && x.ths.contains r.th && decide (x.id < r.id) && !x.rels.contains r.id)
  && (r.scope == .blk || !(s.remotes.any fun x => x.write && s.wbs.any (fun w => w.id == x.id && w.core == r.core)))

/-! Loads. -/

/-- A value in a contained block's store buffer, newest first (R195). -/
def sbufByte (b : Block) (l : Loc) : Option Byte :=
  match ((b.releasing ++ b.sbuf).filter (fun c => c.loc == l)).getLast? with
  | some c => some c.val
  | none => none

/-- Bytes a thread's own `st.rel` stores still hold back (R72). -/
def State.relByte (s : State) (id : ThreadId) (l : Loc) : Option Byte :=
  match ((s.rels.filter (fun r => r.th == id)).flatMap (·.cells) |>.filter (fun c => c.loc == l)).getLast? with
  | some c => some c.val
  | none => none
/-- Bytes of a core's write-backs in flight, newest last. -/
def State.flightByte (s : State) (core pa : Nat) : Option Byte :=
  match ((s.wbs.filter (fun w => w.core == core)).flatMap (·.cells) |>.filter (fun c => c.1 == pa)).getLast? with
  | some c => some c.2
  | none => none
/-- A byte of a core's L1. -/
def State.l1Byte (s : State) (core pa : Nat) : Option L1Byte := s.l1.find? fun b => b.core == core && b.pa == pa

/-- What a thread has written and no cache holds yet: its block's store buffer, its own pending release stores. -/
def State.ownByte (s : State) (id : ThreadId) (pa : Nat) : Option Byte :=
  ((s.block? id.blk).bind fun b => sbufByte b (.mem pa)).or (s.relByte id (.mem pa))
/-- One byte of a thread's load: what it has written itself, then, for a load that may be served from L1, the core's L1; otherwise
it is read at L2. -/
def State.loadByte (s : State) (id : ThreadId) (pa : Nat) (key : BitVec 9) (l1 : Bool) : LByte :=
  match s.ownByte id pa with
  | some v => .val v
  | none =>
    match if l1 then s.l1Byte (s.coreOf id) pa else none with
    | some b => .val b.val
    | none =>
      match if l1 then s.flightByte (s.coreOf id) pa else none with
      | some v => .val v
      | none => .at pa key
def LByte.isAt : LByte → Bool
  | .at .. => true
  | .val _ => false
/-- The bytes of a load of n aligned bytes: where one of them must be read at L2, all but the thread's own are, at the same moment (R76). -/
def State.loadBytes (s : State) (id : ThreadId) (pa n : Nat) (key : BitVec 9) (l1 : Bool) : List LByte :=
  let bs := (List.range n).map fun i => s.loadByte id (pa + i) key l1
  if bs.any LByte.isAt then (List.range n).map fun i => s.loadByte id (pa + i) key false else bs

/-- A byte of a scratchpad as a team reads it (R200, R274). A byte of another block's scratchpad that this block has buffered
comes from its store buffer (R195). -/
def State.scrByte (s : State) (id : ThreadId) (blk off : Nat) : Byte :=
  match ((s.block? id.blk).bind (fun b => if b.id == blk then none else sbufByte b (.scr blk off))).or (s.relByte id (.scr blk off)) with
  | some v => v
  | none =>
    match s.block? blk with
    | some b => rd (b.side (id.wheel && blk == id.blk)).scratch off
    | none => 0

/-- The registers a loaded value fills (R278). -/
def loadOuts (d : GReg) (size : Nat) (sx : Bool) (bs : List Byte) : List (GReg × Word) :=
  let n := natOfBytes bs
  if size ≤ 2 then
    [(d, if sx then (if size = 1 then (BitVec.ofNat 8 n).signExtend 32 else (BitVec.ofNat 16 n).signExtend 32) else BitVec.ofNat 32 n)]
  else (List.range (size / 4)).map fun j => (d + BitVec.ofNat 7 j, BitVec.ofNat 32 (n / 2 ^ (32 * j)))

/-- Registers on hold until a value arrives (R216). -/
def Thread.addHold (t : Thread) (rs : List GReg) : Thread := { t.overtake (rs.map .g) with hold := t.hold ++ rs }
def Thread.dropHold (t : Thread) (rs : List GReg) : Thread := { t with hold := rs.foldl (fun h r => h.erase r) t.hold }

/-- A value on its way to registers and, in a redundant block, to the load-value queue in the place of the record `src`. -/
def State.sendRet (s : State) (id : ThreadId) (src : Nat) (outs : List (GReg × Word)) (youts : List (YReg × Word)) (ld poisoned : Bool)
    (fl : BitVec 5 := 0) (pc : Word := 0) (word : Option Nat := none) : State :=
  let lead := s.isRed id.blk && !id.wheel
  let n := s.nextId
  let s := State.push { s with
    rets := s.rets ++ [{ id := n, th := id, pc := pc, src := src, outs := outs, youts := youts, lowersLd := ld, poisoned := poisoned, fl := fl, toReg := true, toQueue := lead, word := word }]
    nextId := n + 1 } (.loadReturn n)
  if lead then s.push (.loadValueEntry n) else s

def lbyteVal : LByte → Option Byte
  | .val b => some b
  | .at .. => none

/-- The values of a load whose bytes are all known. -/
def knownBytes (l : List LByte) : Option (List Byte) := l.mapM lbyteVal

/-- A load under way: its destination held, LD raised; served at once where every byte is known (`bad`: one of them is poisoned), else
at L2 or, through a view, at the composing slice. -/
def State.startLoad (s : State) (id : ThreadId) (pc : Word) (view bad : Bool) (d : GReg) (size : Nat) (sx fill : Bool) (acq : Option Scope)
    (tag : BitVec 12) (word : Nat) (bs : List LByte) : State :=
  let regs := (loadOuts d size sx []).map (·.1)
  let s := s.modThread id fun t => { t.addHold regs with ld := t.ld + 1 }
  match knownBytes bs with
  | some v =>
    let s := match acq with | some sc => s.acquire (s.coreOf id) sc | none => s
    s.sendRet id s.nextId (loadOuts d size sx v) [] true bad (pc := pc) (word := some word)
  | none =>
    State.push { s with
      loads := s.loads ++ [{ id := s.nextId, th := id, pc := pc, core := s.coreOf id, dst := d, size := size, sx := sx, fill := fill, view := view, acq := acq, bytes := bs, tag := tag, word := word, bad := bad }]
      nextId := s.nextId + 1 } (if view then .viewLineCompose s.nextId else .l2ReadRequest s.nextId)

/-- A thread has a load, an atomic or a matrix access not yet performed: no store of it may be made visible (R75, R303). -/
def State.unbound (s : State) (id : ThreadId) : Bool := s.matMem id || (s.loads.any fun l => l.th == id) || s.atoms.any fun a => a.th == id && !a.red
/-- An acquire of the thread is not yet served: nothing that follows it is performed (R73). -/
def State.acqPending (s : State) (id : ThreadId) : Bool :=
  (s.loads.any fun l => l.th == id && l.acq.isSome) || (s.atoms.any fun a => a.th == id && a.acq.isSome)
  || s.qreqs.any fun q => q.try_ && !q.enq && q.ths.contains id

/-- An ordering word waits until the thread's loads are bound (R73, R75). -/
def State.orderStall (s : State) (t : Thread) : Bool := s.acqPending t.id || s.unbound t.id

/-- A counter at its limit keeps a word from issuing (R215). -/
def ctrFull (n : Nat) : Bool := decide (63 ≤ n)

/-! Load-value queues of redundant pairs (R201). -/

/-- An entry opened by one word of a leader string for its threads of one team. -/
def State.lvOpen (s : State) (id : ThreadId) (pc : Word) (src : Nat) : State :=
  if !s.isRed id.blk || id.wheel then s
  else
    s.modTeam id.blk false (teamIdx id) fun m =>
      let v : LvVal := { tid := id.tid, src := src, val := none }
      match m.lvq.getLast? with
      | some e =>
        if e.pc == pc && e.vals.all (fun x => decide (x.tid < id.tid)) then
          { m with lvq := m.lvq.dropLast ++ [{ e with vals := e.vals ++ [v] }] }
        else { m with lvq := m.lvq ++ [{ pc := pc, vals := [v] }] }
      | none => { m with lvq := [{ pc := pc, vals := [v] }] }
/-- A change of the load-value queue of a thread's pair, where it runs and in its block's checkpoint images (R198, R426). -/
def State.modLv (s : State) (id : ThreadId) (f : List LvEntry → List LvEntry) : State :=
  if !s.isRed id.blk || id.wheel then s
  else
    let g (m : Team) : Team := if m.blk == id.blk && !m.wheel && m.idx == teamIdx id then { m with lvq := f m.lvq } else m
    let h (im : Image) : Image := { im with teams := im.teams.map g }
    State.modBlock { s with teams := s.teams.map g } id.blk fun b => { b with ckpt0 := b.ckpt0.map h, ckpt1 := b.ckpt1.map h }
/-- The value brought by a record goes into its place in the queue. -/
def State.lvFill (s : State) (id : ThreadId) (src : Nat) (ws : List Word) : State :=
  s.modLv id fun q => q.map fun e =>
    { e with vals := e.vals.map fun v => if v.tid == id.tid && v.src == src && v.val.isNone then { v with val := some ws } else v }
/-- A value that will not come is taken out of the queue. -/
def State.lvDrop (s : State) (id : ThreadId) (src : Nat) : State :=
  s.modLv id fun q => (q.map fun e => { e with vals := e.vals.filter fun v => !(v.tid == id.tid && v.src == src && v.val.isNone) }).filter
    fun e => !e.vals.isEmpty
/-- An entry stands in the queue once every value that its word returns has come (R201); a request that waits at a queue keeps back its
own thread's alone. -/
def State.lvWhole (s : State) (e : LvEntry) : Bool := e.vals.all fun v => v.val.isSome || s.qreqs.any fun r => r.id == v.src
/-- The wheeler's next value in its own program order: none while the leader has not passed it. -/
def State.lvPeek (s : State) (id : ThreadId) : Option (List Word) :=
  match s.team? id.blk false (teamIdx id) with
  | none => none
  | some m =>
    match m.lvq.find? (fun e => e.vals.any fun v => v.tid == id.tid) with
    | some e => if s.lvWhole e then (e.vals.find? fun v => v.tid == id.tid).bind (·.val) else none
    | none => none
/-- The value leaves the queue; an entry without values is gone. -/
def lvTakeFrom (tid : Nat) : List LvEntry → List LvEntry
  | [] => []
  | e :: l =>
    if e.vals.any (fun v => v.tid == tid) then
      let vs := e.vals.filter fun v => v.tid != tid
      if vs.isEmpty then l else { e with vals := vs } :: l
    else e :: lvTakeFrom tid l
def State.lvTake (s : State) (id : ThreadId) : State :=
  s.modTeam id.blk false (teamIdx id) fun m => { m with lvq := lvTakeFrom id.tid m.lvq }
/-- A leader finding the queue full stalls (R201). -/
def State.lvFull (s : State) (id : ThreadId) : Bool :=
  s.isRed id.blk && !id.wheel &&
    (match s.team? id.blk false (teamIdx id) with | some m => decide (Config.lvqEntries ≤ m.lvq.length) | none => false)

/-- Whether this thread is a wheeler, which takes the value of a memory word from its leader (R200, R201). -/
def State.isWheel (s : State) (id : ThreadId) : Bool := id.wheel && s.isRed id.blk

/-- A wheeler's word that takes a value from the queue: it waits at the word while there is none (R426). -/
def State.wheelTake (s : State) (id : ThreadId) (f : List Word → State → State) : State :=
  match s.lvPeek id with
  | some ws => f ws (s.lvTake id)
  | none => s.modThread id fun t => { t with status := .waiting .loadValue }

/-- Bytes written at their home by a unit of the device or an atomic, with the invalidations of R83; remote memory at once (R87).
`dom`: a release, atomic or queue write of scope .dom or .sys (R77). -/
def State.homeWrite (s : State) (core : Nat) (th : Option ThreadId) (cells : List Host.Cell) (key : BitVec 9) (dom : Bool := false) : State :=
  match cells with
  | [] => s
  | c :: _ =>
    if s.isRemote c.1 then s.expose core cells key
    else s.bump.mergeHome { id := s.nextId, core := core, th := th, cells := cells, nt := false, key := key, atL2 := true, dom := dom }
/-- The number under which units that are no core write: no core has it. -/
def devCore : Nat := 1000000
/-- That of the host's writes. -/
def hostCore : Nat := 1000001
/-- A scope that takes in other packages. -/
def farScope : Scope → Bool
  | .dom | .sys => true
  | _ => false

/-- Reductions waiting in update-only lines for a line are called in (R88). -/
def State.recallUpd (s : State) (line : Nat) : State :=
  ((s.upd.filter fun u => lineOf u.pa == line).map (·.core)).eraseDups.foldl (fun s c => s.ask (.updateLineMerge c line)) s
def State.lineUpd (s : State) (line : Nat) : Bool := s.upd.any fun u => lineOf u.pa == line
/-- What a read or a read-modify-write at the home waits for: a package that is lost, a byte merged and not exposed, reductions to be called in, a directory
entry to be rebuilt (R83, R86, R88). -/
def State.homeBusy (s : State) (pa n : Nat) : Bool :=
  s.pkgLost (pkgOf pa) || ((List.range n).any fun k => s.underMerge (pa + k) || s.frameWait (pa + k)) || (linesOf (memCells pa (List.replicate n 0))).any fun l => s.lineUpd l || s.needsDiscovery l
/-- The steps that end those waits are asked for. -/
def State.homeAsk (s : State) (pa n : Nat) : State :=
  (linesOf (memCells pa (List.replicate n 0))).foldl (fun s l => if s.needsDiscovery l then (s.recallUpd l).ask (.discovery l) else s.recallUpd l) s


/-! Reads at L2 (R77): the guest copy of the reader's die, or the home. -/

/-- The copy of a line that the die of a core holds as read through a key slot. -/
def State.guest? (s : State) (core pa : Nat) (key : BitVec 9) : Option Guest :=
  s.guests.find? fun g => g.agent == s.agentOf (dieOfCore core) && g.line == lineOf pa && g.key == key
def State.l2Byte (s : State) (core pa : Nat) (key : BitVec 9) : Byte :=
  match s.guest? core pa key with
  | some g => g.data.getD (pa % 128) 0
  | none => s.homeByte pa key
/-- The core holds reductions of a line that are not merged yet: a read of the line waits for them at its home (R88). -/
def State.updHeld (s : State) (core pa : Nat) : Bool := s.upd.any fun u => u.core == core && lineOf u.pa == lineOf pa
/-- What a read of a byte at L2 waits for: the die's own writes that are not exposed, the core's own reductions and, where it goes to
the home, what a read there waits for. -/
def State.l2Waits (s : State) (core pa : Nat) (key : BitVec 9) : Bool :=
  s.wbInFlight core pa || s.updHeld core pa || ((s.guest? core pa key).isNone && s.homeBusy pa 1)
def State.l2Ask (s : State) (core pa : Nat) (key : BitVec 9) : State :=
  if (s.guest? core pa key).isNone then s.homeAsk pa 1 else if s.updHeld core pa then s.recallUpd (lineOf pa) else s
/-- The tag a read is checked against (R95, R97): that of the copy which serves it, else that of the page. -/
def State.readTag (s : State) (core pa : Nat) (key : BitVec 9) (l1 : Bool) (tag : BitVec 12) : BitVec 12 :=
  match if l1 then s.l1Byte core pa else none with
  | some b => b.tag
  | none => match s.guest? core pa key with
    | some g => g.tag
    | none => tag
/-- A checked read as the place that serves it checks it. -/
def State.served (s : State) (part : BitVec 6) (pr : BitVec 16) (core : Nat) (l1 : Bool) (a : Acc) : Acc :=
  match a.loc with
  | .mem pa => let t := s.readTag core pa a.key l1 a.tag; { a with tag := t, denied := !s.tagOk part pr t }
  | .scr .. => a
/-- A read that the cache does not serve leaves no older copy of its bytes behind in the core's L1, nor, where it was made at the
home itself, in its die's L2 (R71). -/
def State.forget (s : State) (core : Nat) (home : Bool) (pas : List Nat) : State :=
  let s : State := { s with l1 := s.l1.filter fun b => !(b.core == core && b.dirty.isEmpty && pas.contains b.pa) }
  if home then ((pas.map lineOf).eraseDups).foldl (fun s l => s.dropGuest (s.agentOf (dieOfCore core)) l) s else s

/-! Stores. -/

/-- A store put into the L1 of a core as dirty bytes of the thread, beside those who wrote them before (R79, R80). -/
def State.dirtyL1 (s : State) (id : ThreadId) (core pa : Nat) (v : Byte) (key : BitVec 9) (tag : BitVec 12) : State :=
  let before := ((s.l1Byte core pa).map (·.dirty)).getD []
  { s with l1 := s.l1.filter (fun b => !(b.core == core && b.pa == pa))
                 ++ [{ core := core, pa := pa, val := v, dirty := id :: before.filter (· != id), key := key, tag := tag }] }

/-- ST raised, lowered when the store is accepted. -/
def State.stRaise (s : State) (id : ThreadId) : State :=
  State.push { (s.modThread id fun t => { t with st := t.st + 1 }) with
    staccs := s.staccs ++ [{ id := s.nextId, th := id }], nextId := s.nextId + 1 } (.storeAccept s.nextId)

/-- A byte of a scratchpad written: it is poisoned no more (R417). Poison of scratch byte o is listed as 2^25 + o. -/
def Side.setScr (d : Side) (o : Nat) (v : Byte) : Side :=
  { d with scratch := wr d.scratch o v, poison := d.poison.filter (· != 2 ^ 25 + o) }
/-- A byte written into a scratchpad: the team's own copy, or both copies where it is another block's (R200). -/
def State.putScr (s : State) (id : ThreadId) (blk off : Nat) (v : Byte) : State :=
  if blk == id.blk then s.modSide blk id.wheel fun d => d.setScr off v
  else s.modBlock blk fun b => { b with lead := b.lead.setScr off v, wheels := if b.shape.red then b.wheels.setScr off v else b.wheels }

/-- Bytes from a location up as cells. -/
def cellsAt (l : Loc) (key : BitVec 9) (tag : BitVec 12) (bs : List Byte) : List LCell :=
  (List.range bs.length).map fun i =>
    { loc := (match l with | .mem pa => .mem (pa + i) | .scr b o => .scr b (o + i)), val := bs.getD i 0, key := key, tag := tag }

/-- A cell made visible in the way of a thread of an ordinary block. -/
def State.putCell (s : State) (id : ThreadId) (c : LCell) : State :=
  match c.loc with
  | .mem pa => s.dirtyL1 id (s.coreOf id) pa c.val c.key c.tag
  | .scr b o => s.putScr id b o c.val

/-- Whether a write of a contained block is buffered: every write but one to its own scratch (R195). -/
def buffered (blk : Nat) (c : LCell) : Bool :=
  match c.loc with
  | .mem _ => true
  | .scr b _ => b != blk
/-- Cells of a contained block's store: to its store buffer, or into its own scratch. -/
def State.putCont (s : State) (id : ThreadId) (cells : List LCell) : State :=
  let s := (cells.filter (fun c => !buffered id.blk c)).foldl (fun s c => s.putCell id c) s
  s.modBlock id.blk fun b => { b with sbuf := b.sbuf ++ cells.filter (buffered id.blk) }
/-- Whether a contained block's buffer and staging area cannot take more bytes, beside those whose signatures are to be matched and those
that its matrix operations are to store (R197). -/
def State.sbufFull (s : State) (blk n : Nat) : Bool :=
  match s.block? blk with
  | some b =>
    let pending := ((s.teams.filter fun m => m.blk == blk && !m.wheel).flatMap (·.sigs)).flatMap fun e => e.parts.flatMap (·.cells)
    let array := b.lead.ops.foldl (fun n o => n + o.stores) 0
    decide (Config.stagingBytes < b.sbuf.length + b.releasing.length + (pending.filter (buffered blk)).length + array + n)
  | none => false

/-- A store of a thread: in a redundant block it is signed and enters the buffer when both teams agree (R202); in a contained
block it is buffered; otherwise it goes to L1, or for `nt` past it to the home (R90). -/
def State.storeCells (s : State) (id : ThreadId) (pc : Word) (va : DWord) (a : Acc) (bs : List Byte) (nt : Bool) : State :=
  let l := a.loc
  let key := a.key
  let cells := cellsAt l key a.tag bs
  if s.isRed id.blk then s.sign id pc (storeSig va bs) (if id.wheel then [] else cells) .store none
  else if s.isCont id.blk then s.putCont id cells
  else
    match l, nt with
    | .mem pa, true =>
      let s := { s with l1 := s.l1.filter fun b => !(b.core == s.coreOf id && b.dirty.isEmpty && decide (pa ≤ b.pa ∧ b.pa < pa + bs.length)) }
      let s := s.flush (s.coreOf id) (fun b => decide (pa ≤ b.pa ∧ b.pa < pa + bs.length))
      s.sendWb (s.coreOf id) (some id) (memCells pa bs) true key
    | _, _ => cells.foldl (fun s c => s.putCell id c) s

/-! Atomic operations (Table 12.6). -/

/-- The new memory value of an operation on values of `w` bits, none where nothing is written; and the flags of `.fadd`. -/
def atomFn (op : AtomOp) (wide : Bool) (m b c : Nat) : Option Nat × Flags5 :=
  let w := if wide then 64 else 32
  let mv := BitVec.ofNat w m
  let bv := BitVec.ofNat w b
  match op with
  | .exch => (some b, 0)
  | .cas => (if m = b then some c else none, 0)
  | .add => (some (mv + bv).toNat, 0)
  | .and => (some (mv &&& bv).toNat, 0)
  | .or => (some (mv ||| bv).toNat, 0)
  | .xor => (some (mv ^^^ bv).toNat, 0)
  | .minI => (some (if mv.toInt ≤ bv.toInt then m else b), 0)
  | .minN => (some (if m ≤ b then m else b), 0)
  | .maxI => (some (if bv.toInt ≤ mv.toInt then m else b), 0)
  | .maxN => (some (if b ≤ m then m else b), 0)
  | .fadd => let r := fpAdd (if wide then f64 else f32) .rne m b; (some r.bits, r.fl)
  | .inc => (some (if b ≤ m then 0 else (mv + 1).toNat), 0)
  | .dec => (some (if m = 0 || b < m then b else m - 1), 0)

/-- Registers of an atomic's result. -/
def atomOuts (d : GReg) (wide : Bool) (m : Nat) : List (GReg × Word) :=
  if wide then [(d, BitVec.ofNat 32 m), (d + 1, BitVec.ofNat 32 (m / 2 ^ 32))] else [(d, BitVec.ofNat 32 m)]

end Sys2Proof.Machine
end

