-- ==== Sys2Proof/Machine/Commit.lean ====
section
/-! DEFINITION. Checkpoints of contained blocks (R189, R195 to R198): what an image holds, when a block is quiet, the implicit
commit that an irrevocable operation or a full staging area forces, and how such operations issue. -/

namespace Sys2Proof.Machine

/-! What a save or a checkpoint holds (R189). -/

/-- The live state a stopped thread's hint names (R188, R329). -/
def liveOf (t : Thread) : Option (BitVec 16 × BitVec 7 × List Word) :=
  match t.status with
  | .stopped g p r => some (g, p, r)
  | .waiting (.commit g p r) => some (g, p, r)
  | _ => none
/-- A thread whose wait has ended, at the word after the one it stood at (R16). -/
def Thread.resume (t : Thread) : Thread :=
  { t with status := .ready, pc := t.pc + BitVec.ofNat 32 t.wlen, done := t.done + 1, granted := false }
/-- A thread as a save leaves it: at the word after a hint, a `commit`, a `sleep` or a drain; at the word itself where
the word issues again (R16, R191, R331, R426). -/
def Thread.settle (t : Thread) : Thread :=
  match t.status with
  | .stopped .. | .sleeping _ => t.resume
  | .waiting w =>
    match w with
    | .commit .. | .drain => t.resume
    | .staging | .irrevocable | .signature _ | .loadValue | .leader | .counters .. | .qreg .. | .unbind .. => { t with status := .ready }
    | .hitch _ | .barrier .. | .queue _ => t
  | _ => t
/-- What is not named reads as zero after the restore (R189, R329). -/
def Thread.masked (t : Thread) : Thread :=
  match liveOf t with
  | some (gm, pm, _) => { t with g := t.g.filter (fun e => gm.getLsbD (e.1 / 8)), gbad := t.gbad.filter (fun r => gm.getLsbD (r.toNat / 8)), p := t.p &&& pm }
  | none => t
/-- A KiB of scratch lies in a range word (Table 13.10). -/
def inRange (kib : Nat) (r : Word) : Bool :=
  decide (bitsN r.toNat 8 0 ≤ kib ∧ kib < bitsN r.toNat 8 0 + bitsN r.toNat 17 9)
/-- Whether a save keeps the whole scratch: forced, or some thread is not stopped at a hint. -/
def wholeScratch (b : Block) (ts : List Thread) : Bool :=
  b.forced || ts.any fun t => t.status != .exited && (liveOf t).isNone
def maskScratch (b : Block) (ts : List Thread) (d : Side) : Side :=
  if wholeScratch b ts then d
  else
    let rs := (ts.filterMap liveOf).flatMap fun l => l.2.2
    let kept (o : Nat) : Bool := rs.any (inRange (o / 1024))
    { d with scratch := d.scratch.filter fun c => kept c.1, poison := d.poison.filter fun x => decide (x < 2 ^ 25) || kept (x - 2 ^ 25) }
/-- Threads within a string stand in its clause: their resume point (R16). -/
def State.within (s : State) (t : Thread) : Thread :=
  match s.strings.find? (fun c => c.members.contains t.id) with
  | some c => { t with hdr := some c.hdr }
  | none => t
/-- The image of a block as it stands (R189, R198 step 3). -/
def State.imageOf (s : State) (b : Block) : Image :=
  let ts := s.blockThreads b.id
  { threads := ts.map fun t => (((s.within t).writePend fun _ => true).masked).settle
    teams := s.teams.filter fun m => m.blk == b.id
    lead := maskScratch b ts b.lead
    wheels := maskScratch b ts b.wheels }

/-! A result delivered to a thread also reaches the checkpoint images in which it is pending (R198 step 4, R191). -/

def Image.mod (im : Image) (id : ThreadId) (p : Thread → Bool) (f : Thread → Thread) : Image :=
  { im with threads := im.threads.map fun t => if t.id == id && p t then f t else t }
def Block.modImages (b : Block) (f : Image → Image) : Block := { b with ckpt0 := b.ckpt0.map f, ckpt1 := b.ckpt1.map f }
/-- A change of a thread that satisfies a test, where it runs and in the images; there its wheeler, which stands behind the same operation,
has the result as well (R206). -/
def State.deliver (s : State) (id : ThreadId) (p : Thread → Bool) (f : Thread → Thread) : State :=
  (s.modThread id fun t => if p t then f t else t).modBlock id.blk (·.modImages fun im => (im.mod id p f).mod { id with wheel := true } (fun t => !id.wheel && p t) f)

/-! Implicit commits (R197, R198). -/

/-- Whether a record of a thread of a block is in flight. -/
def State.busy (s : State) (blk : Nat) : Bool :=
  (s.loads.any fun l => l.th.blk == blk) || (s.rets.any fun r => r.th.blk == blk) || (s.staccs.any fun x => x.th.blk == blk)
  || (s.atoms.any fun a => a.th.blk == blk) || (s.vstores.any fun v => v.th.blk == blk) || (s.rels.any fun r => r.th.blk == blk)
  || (s.qreqs.any fun q => q.try_ && q.ths.any fun t => t.blk == blk)
/-- Matrix operations of a block that are running (R191: they complete, or stop at a column boundary, before a save). -/
def Block.arrayBusy (b : Block) : Bool := (b.lead.ops.any (·.running)) || b.wheels.ops.any (·.running)
/-- Gather pushes of a block's teams not yet answered (R133). -/
def pushing : QBind → Bool
  | .gather g => g.pushes.any fun p => p.row.isNone
  | _ => false
def State.gathering (s : State) (blk : Nat) : Bool := s.teams.any fun m => m.blk == blk && m.q.any pushing
/-- Signatures of a redundant block that neither match nor belong to a waiting thread keep it from being saved (R426). -/
def State.sigsOpen (s : State) (blk : Nat) : Bool :=
  s.teams.any fun m => m.blk == blk && m.sigs.any fun e => e.parts.any fun p => p.kind == .store
/-- A block whose threads have all stopped: none in a string, none within a clause that could go on. -/
def State.stopped (s : State) (blk : Nat) : Bool :=
  !(s.strings.any fun c => c.members.any fun id => id.blk == blk)
  && (s.blockThreads blk).all fun t => !(t.ready && (t.hdr.isSome || t.granted))
/-- A stopped block with no work in flight that must complete first. -/
def State.quiet (s : State) (b : Block) : Bool :=
  s.stopped b.id && !s.busy b.id && !b.arrayBusy && !s.gathering b.id && !s.sigsOpen b.id

/-- The checkpoint half that is not valid (R196). -/
def Block.freeHalf (b : Block) : Bool := b.valid == some false
/-- A checkpoint becomes valid: the counts of relaunches and mismatches begin again (R199, R205). -/
def Block.validate (b : Block) (h : Bool) : Block := { b with valid := some h, relaunches := 0, mismatch := false, opening := none }
/-- An image written into the free half (R196 step 1, R198 step 3): valid at once, or, where `ids` are blocking queue requests, when
one of them proceeds (R198). Requests that wait from an earlier operation stand in the new image as well. -/
def State.snap (s : State) (blk : Nat) (ids : List Nat) : State :=
  match s.block? blk with
  | none => s
  | some b =>
    let h := b.freeHalf
    let im := some (s.imageOf b)
    s.modBlock blk fun b =>
      let b := if h then { b with ckpt1 := im } else { b with ckpt0 := im }
      if ids.isEmpty then b.validate h
      else { b with opening := some (h, ids ++ (match b.opening with | some (_, l) => l | none => [])) }
/-- A queue request has proceeded: the half that holds it as pending is valid (R198 step 5). -/
def State.opDone (s : State) (blk rid : Nat) : State :=
  s.modBlock blk fun b =>
    match b.opening with
    | some (h, ids) => if ids.contains rid then b.validate h else b
    | none => b
/-- A request withdrawn before it proceeds leaves the written half invalid (R198). -/
def State.opWithdrawn (s : State) (blk rid : Nat) : State :=
  s.modBlock blk fun b =>
    match b.opening with
    | some (h, ids) => if (ids.erase rid).isEmpty then { b with opening := none } else { b with opening := some (h, ids.erase rid) }
    | none => b

def waitsIrrev (t : Thread) : Bool := t.status == .waiting .irrevocable
def waitsStaging (t : Thread) : Bool := t.status == .waiting .staging
/-- Whether a block still has threads that an implicit commit must serve. -/
def State.wantsCommit (s : State) (blk : Nat) : Bool :=
  ((s.blockThreads blk).any fun t => waitsIrrev t || waitsStaging t || (t.granted && t.ready && s.isCont blk))
  || (s.block? blk).any fun b => b.lead.hitch.any fun h => h.room
/-- A thread stops at a word until the implicit commit is made. -/
def State.stopFor (s : State) (id : ThreadId) (w : Wait) : State :=
  State.push ((s.modThread id fun t => { t with status := .waiting w }).modBlock id.blk fun b => { b with quiesce := true })
    (.commitStoreRelease id.blk)

/-! The areas of a pool entry that the groom engine reaches (R385, Table 18.9). -/

/-- Bytes a save of one block of a shape takes. -/
def Shape.saveBytes (h : Shape) : Nat :=
  let k := (h.threads + 127) / 128
  4096 + k * 2048 + 128 * k * (4 * h.gregs + 64) + 1024 * h.scratch + 16384 * h.tiles + 4096 * h.accrows
/-- SZ of a launch: the largest over its stages, doubled for redundant blocks, in multiples of 4 KiB. -/
def saveSize (stages : List Shape) (red : Bool) : Nat :=
  let m := (stages.map Shape.saveBytes).foldl max 0
  ((if red then 2 * m else m) + 4095) / 4096 * 4096
def Launch.saveSize (l : Launch) : Nat := Machine.saveSize (l.stages.map (·.shape)) l.red
/-- Every page of a range translates to a frame that the partition owns. -/
def State.devPages (s : State) (m : Mmu) (part : BitVec 6) (va n : Nat) : Bool :=
  (List.range ((va + n + 65535) / 65536 - va / 65536)).all fun k =>
    match s.lookup m part ((va / 65536 + k) * 65536) with
    | .ok (x, _) => s.ownerOf x.pa == some part
    | .error _ => false
/-- The save area of a block can be written. -/
def State.saveOk (s : State) (b : Block) : Bool :=
  match s.launch? b.launch with
  | none => true
  | some l => s.devPages (.die (dieOfCore b.core)) b.part ((s.poolEntry b).toNat + 1024 * l.savekb) l.saveSize
/-- A checkpoint half of a block can be reached. -/
def State.halfOk (s : State) (b : Block) (h : Bool) : Bool :=
  match s.launch? b.launch with
  | none => true
  | some l => s.devPages (.die (dieOfCore b.core)) b.part ((s.poolEntry b).toNat + 1024 * l.ckptkb + (if h then l.saveSize else 0)) l.saveSize
/-- What has spilled into the staging area can be reached. -/
def State.stageOk (s : State) (b : Block) : Bool :=
  match s.launch? b.launch with
  | none => true
  | some l => decide (b.sbuf.length + b.releasing.length ≤ 65536) || s.devPages (.die (dieOfCore b.core)) b.part ((s.poolEntry b).toNat + 1024 * l.stagekb) 1048576
/-- The free checkpoint half can be written, and what has spilled into the staging area can be released. -/
def State.ckptOk (s : State) (b : Block) : Bool := s.halfOk b b.freeHalf && s.stageOk b
/-- The image that a block returns to can be read: its valid half, or its record, which lies in no pool page. -/
def State.imageOk (s : State) (b : Block) : Bool := match b.valid with | some h => s.halfOk b h | none => true
/-- A block one of whose pool pages cannot be reached is killed, by BLOCK_RETIRE (R385). -/
def State.lose (s : State) (blk : Nat) : State :=
  State.push (s.modBlock blk fun b => { b with lost := true, state := .retiring }) (.blockRetire blk)

/-! Issuing an irrevocable operation (R198, R206). -/

/-- What an irrevocable word checks for one thread before it is performed, with the state that a check leaves. -/
abbrev Check := Str → ThreadId → State → State × Option (Cause × DWord)
def noCheck : Check := fun _ _ s => (s, none)

/-- Whether a wheeler's leader has performed the word that the wheeler stands at. -/
def State.leadPassed (s : State) (t : Thread) : Bool :=
  match s.thread? { t.id with wheel := false } with
  | some l => decide (t.done < l.done)
  | none => true
/-- A trap that an operation meets when it is performed stops the leader and the wheeler that has issued it as well (R206). -/
def State.raisePair (s : State) (id : ThreadId) (pc : Word) (cause : Cause) (addr : DWord) : State :=
  let s := s.raise id pc cause addr 0 true
  let w : ThreadId := { id with wheel := true }
  match s.thread? w with
  | some t => if s.isRed id.blk && !id.wheel && t.granted then s.park w { cause := cause, addr := addr, sub := 0, word := true } else s
  | none => s

/-- One thread's part of an irrevocable word: its faults first; in a redundant block the signature, in a contained one the implicit
commit, and then the effect; in an ordinary block the effect at once. A granted thread has both behind it; a granted wheeler goes on
when its leader has performed the operation. -/
def gated (chk : Check) (sig : State → Thread → List Byte) (eff : Str → ThreadId → State → State) (c : Str) (id : ThreadId) (s : State) : State :=
  match s.thread? id with
  | none => s
  | some t =>
    if id.wheel && t.granted then
      (if s.leadPassed t then eff c id s else s.modThread id fun t => { t with status := .waiting .leader })
    else
    match chk c id s with
    | (s', some (cause, addr)) =>
      if id.wheel then s.raise id c.pc cause addr 0 true
      else if t.granted then s'.raisePair id c.pc cause addr
      else s'.raise id c.pc cause addr 0 true
    | (s', none) =>
      if !s.isCont id.blk || t.granted then eff c id s'
      else if s.isRed id.blk then s.sign id c.pc (sig s t) [] .irrev none
      else s.stopFor id .irrevocable

/-- Blocking queue requests that a word has opened since a record number: its checkpoint becomes valid when one proceeds. What any
other irrevocable word has sent is sure to be performed, so its checkpoint counts as valid at once; results still to come are
delivered to the image as to the thread. -/
def State.newRecords (s : State) (blk n : Nat) : List Nat :=
  (s.qreqs.filter (fun q => !q.try_ && decide (n ≤ q.id) && q.ths.any fun t => t.blk == blk)).map (·.id)

/-- The wheeler of a leader in an image taken after an irrevocable word of both: it stands where the leader stands, with what the word left
pending (R198 step 3). `l0`, `l`: the leader before the word and in the image. -/
def Thread.asLead (w l0 l : Thread) : Thread :=
  { w with pc := l.pc, hdr := l.hdr, wlen := l.wlen, status := l.status, granted := false, done := w.done + (l.done - l0.done)
           hold := w.hold ++ (l.hold.filter fun r => !l0.hold.contains r)
           ld := w.ld + (l.ld - l0.ld), st := w.st + (l.st - l0.st), as := w.as + (l.as - l0.as) }
/-- The wheelers of an image brought behind the word that their leaders `ids` performed from the state `s0` on; the values of that word
reach them as they reach the leaders, and wait for them in no queue. -/
def Image.pairUp (im : Image) (s0 : State) (ids : List ThreadId) : Image :=
  let leadOf (w : Thread) : Option Thread := if w.id.wheel then im.threads.find? fun l => l.id == { w.id with wheel := false } && ids.contains l.id else none
  { im with
    threads := im.threads.map fun w =>
      match leadOf w with
      | some l => (match s0.thread? l.id with | some l0 => w.asLead l0 l | none => w)
      | none => w
    teams := im.teams.map fun m =>
      { m with lvq := (m.lvq.map fun e => { e with vals := e.vals.filter fun v => decide (v.src < s0.nextId) || !ids.any fun id => id.tid == v.tid }).filter fun e => !e.vals.isEmpty } }
/-- The image after an irrevocable word of a block that its leaders `ids` performed. -/
def State.snapWord (s s0 : State) (blk : Nat) (ids : List ThreadId) : State :=
  let half := (s.block? blk).any Block.freeHalf
  (s.snap blk (s.newRecords blk s0.nextId)).modBlock blk fun b =>
    if !b.shape.red then b
    else if half then { b with ckpt1 := b.ckpt1.map fun im => im.pairUp s0 ids }
    else { b with ckpt0 := b.ckpt0.map fun im => im.pairUp s0 ids }
/-- After an irrevocable word: the image of each contained block whose leaders performed it, and the end of the stop. A word that
trapped has been no operation, so it leaves the checkpoint as it is. -/
def State.snapAfter (s s0 : State) (c : Str) : State :=
  let spent (p : Thread → Bool) (id : ThreadId) : Bool := !id.wheel && s.isCont id.blk &&
    (match s0.thread? id, s.thread? id with | some a, some b => a.granted && !b.granted && p b | _, _ => false)
  let blks := (c.members.filter (spent fun _ => true)).map (·.blk) |>.eraseDups
  blks.foldl (fun s b =>
    let ids := c.members.filter fun id => id.blk == b && spent (fun t => !t.isParked) id
    let s := if ids.isEmpty then s else s.snapWord s0 b ids
    if s.wantsCommit b then s.push (.commitStoreRelease b) else s.modBlock b fun x => { x with quiesce := false }) s

/-- An irrevocable word performed thread by thread. -/
def execIrrev (i : Instr) (stall : State → Str → Thread → Bool) (chk : Check) (sig : State → Thread → List Byte)
    (eff : Str → ThreadId → State → State) (s : State) : Out :=
  match s.strings with
  | [] => .next s.tick
  | c :: _ =>
    match execEach i stall (gated chk sig eff) s with
    | .next s' => .next (s'.snapAfter s c)
    | o => o

/-- An irrevocable uniform word: the team's lowest-numbered acting thread decides, the others stop and go on with it. -/
def execIrrevTeams (i : Instr) (stall : State → Str → Thread → Bool) (chk : Str → ThreadId → State → State × Option (Cause × DWord))
    (sig : State → Thread → List Byte) (eff : Str → ThreadId → List ThreadId → State → State) (s : State) : Out :=
  match s.strings with
  | [] => .next s.tick
  | c :: _ =>
    let one (c : Str) (l : ThreadId) (ids : List ThreadId) (s : State) : State :=
      match s.thread? l with
      | none => s
      | some t =>
        if l.wheel && t.granted then
          (if s.leadPassed t then eff c l ids s else ids.foldl (fun s id => s.modThread id fun t => { t with status := .waiting .leader }) s)
        else
        match chk c l s with
        | (s', some (cause, addr)) =>
          if l.wheel then ids.foldl (fun s id => s.raise id c.pc cause addr 0 true) s
          else if t.granted then ids.foldl (fun s id => s.raisePair id c.pc cause addr) s'
          else ids.foldl (fun s id => s.raise id c.pc cause addr 0 true) s'
        | (s', none) =>
          if !s.isCont l.blk || t.granted then eff c l ids s'
          else if s.isRed l.blk then ids.foldl (fun s id => s.sign id c.pc (sig s t) [] .irrev none) s
          else ids.foldl (fun s id => s.stopFor id .irrevocable) s
    match execTeams i stall one s with
    | .next s' => .next (s'.snapAfter s c)
    | o => o


end Sys2Proof.Machine
end

