-- ==== Sys2Proof/Machine/Views.lean ====
section
/-! DEFINITION. Layout views (file 04): descriptors and their checks (R100 to R102), the base address of a view element (R103,
R104), the accesses of threads through views (R105 to R112, R117), and the view instructions (R99, R114, R284). -/

namespace Sys2Proof.Machine

/-! Descriptors (Tables 4.1, 4.2), as 512-bit naturals. -/

def vBase (d : Nat) : Nat := bitsN d 63 0
def vEsize (d : Nat) : Nat := bitsN d 66 64
def vEs (d : Nat) : Nat := 2 ^ vEsize d
def vRank (d : Nat) : Nat := bitsN d 69 67
def vXform (d : Nat) : Nat := bitsN d 72 70
def vPerm (d k : Nat) : Nat := bitsN d (75 + 3 * k) (73 + 3 * k)
/-- E[e], the base extent. -/
def vExt (d e : Nat) : Nat := bitsN d (115 + 20 * e) (96 + 20 * e) + 1
def vXA (d : Nat) : Nat := bitsN d 255 216
def vXB (d : Nat) : Nat := bitsN d 511 448
def vStr (d e : Nat) : Nat := bitsN d (287 + 32 * e) (256 + 32 * e)
/-- MAP[k] of a BITIL view. -/
def vMap (d k : Nat) : Nat := bitsN d (261 + 6 * k) (256 + 6 * k)
def vTl (d k : Nat) : Nat := bitsN (vXA d) (4 * k + 3) (4 * k)
def vTord (d n : Nat) : Nat := bitsN (vXB d) (3 * n + 2) (3 * n)
def vStep (d k : Nat) : Int := (BitVec.ofNat 8 (bitsN (vXB d) (8 * k + 7) (8 * k))).toInt
def vBn (d : Nat) : Nat := bitsN (vXA d) 5 0
def vNidx (d : Nat) : Nat := bitsN (vXA d) 19 0
def vKd (d : Nat) : Nat := bitsN (vXA d) 22 20
/-- Bytes of an index entry. -/
def vIsz (d : Nat) : Nat := if bitsN (vXA d) 23 23 = 0 then 4 else 8
def vIva (d : Nat) : Nat := vXB d

/-- View extents VE[k] (Table 4.2). -/
def vVe (d k : Nat) : Nat :=
  let e := vExt d (vPerm d k)
  if vXform d = 2 then (let a := (vStep d k).natAbs; if a = 0 then 0 else (e + a - 1) / a)
  else if vXform d = 4 && k == vKd d then vNidx d + 1
  else e
def prodL (l : List Nat) : Nat := l.foldl (· * ·) 1
def sumL (l : List Nat) : Nat := l.foldl (· + ·) 0
def vDims (d : Nat) : List Nat := List.range (vRank d)
/-- N, the number of view elements. -/
def vCount (d : Nat) : Nat := if vXform d = 3 then 2 ^ vBn d else prodL ((vDims d).map (vVe d))

def isPerm (n : Nat) (l : List Nat) : Bool := (List.range n).all l.contains && l.length == n
/-- Highest element number that the base of a view can reach, in elements from BASE (R100). -/
def vTop (d : Nat) : Nat :=
  if vXform d = 3 then sumL ((List.range (vBn d)).map fun k => 2 ^ vMap d k)
  else sumL ((vDims d).map fun k =>
    let e := vPerm d k
    let u := if vXform d = 2 && decide (0 < vStep d k) then (vVe d k - 1) * (vStep d k).natAbs else vExt d e - 1
    u * vStr d e)
/-- Bits of the transform fields that the transform does not name are zero, and its own conditions hold (Table 4.2). -/
def vXformOk (d : Nat) : Bool :=
  let r := vRank d
  match vXform d with
  | 0 => vXA d == 0 && vXB d == 0
  | 1 => bitsN (vXA d) 39 (4 * r) == 0 && bitsN (vXB d) 63 (3 * r) == 0
      && isPerm r ((vDims d).map (vTord d)) && (vDims d).all fun k => vVe d k % 2 ^ vTl d k == 0
  | 2 => vXA d == 0 && bitsN (vXB d) 63 (8 * r) == 0 && (vDims d).all fun k => vStep d k != 0
  | 3 => bitsN (vXA d) 39 6 == 0 && bitsN d 511 496 == 0 && decide (1 ≤ vBn d ∧ vBn d ≤ 40)
      && ((List.range 40).all fun k => decide (k < vBn d) || vMap d k == 0)
      && ((List.range (vBn d)).all fun k => (List.range k).all fun j => vMap d j != vMap d k)
      && decide (vTop d < prodL ((vDims d).map (vExt d)))
  | _ => bitsN (vXA d) 39 24 == 0 && decide (vKd d < r ∧ vIva d < 2 ^ 56) && vIva d % vIsz d == 0
/-- The check of `view.def.x` (R100). -/
def vOk (d : Nat) : Bool :=
  let r := vRank d
  decide (vEsize d ≤ 5 ∧ 1 ≤ r ∧ r ≤ 6 ∧ vXform d ≤ 4) && bitsN d 95 91 == 0
  && ((List.range 6).all fun k => decide (k < r) || (vPerm d k == 0 && bitsN d (115 + 20 * k) (96 + 20 * k) == 0
        && (vXform d == 3 || vStr d k == 0)))
  && (if vXform d = 3 then (vDims d).all (fun k => vPerm d k == k) else isPerm r ((vDims d).map (vPerm d)))
  && decide (vBase d < 2 ^ 56) && vBase d % vEs d == 0 && vXformOk d
  && decide (vCount d * vEs d ≤ 2 ^ 55) && decide (vBase d + vEs d * vTop d + vEs d ≤ 2 ^ 56)

/-! From view element to base address (R104). -/

/-- Mixed-radix digits of a number, lowest first. -/
def digits (x : Nat) : List Nat → List Nat
  | [] => []
  | r :: rs => (if r = 0 then 0 else x % r) :: digits (if r = 0 then 0 else x / r) rs
/-- View coordinates of element i. -/
def vCoords (d i : Nat) : List Nat :=
  if vXform d = 1 then
    let tls := (vDims d).map (vTl d)
    let vol := 2 ^ sumL tls
    let wc := digits (i % vol) (tls.map (2 ^ ·))
    let ords := (vDims d).map (vTord d)
    let gs := digits (i / vol) (ords.map fun k => vVe d k / 2 ^ vTl d k)
    (vDims d).map fun k => gs.getD (ords.findIdx (· == k)) 0 * 2 ^ vTl d k + wc.getD k 0
  else digits i ((vDims d).map (vVe d))

/-- Where the index entry of element i lies, for an INDEX view. -/
def vIndexAt (d i : Nat) : Option Nat :=
  if vXform d = 4 then some (vIva d + (vCoords d i).getD (vKd d) 0 * vIsz d) else none
/-- Base address of element i, its index entry (if it has one) being `ix`; none where the entry is past the extent. -/
def vAddr (d i ix : Nat) : Option Nat :=
  if vXform d = 3 then
    some (vBase d + vEs d * sumL ((List.range (vBn d)).map fun k => (i / 2 ^ k % 2) * 2 ^ vMap d k))
  else
    let cs := vCoords d i
    let u (k : Nat) : Nat :=
      let v := cs.getD k 0
      if vXform d = 2 then
        (if 0 < vStep d k then v * (vStep d k).natAbs else vExt d (vPerm d k) - 1 - v * (vStep d k).natAbs)
      else if vXform d = 4 && k == vKd d then ix
      else v
    if vXform d = 4 && decide (vExt d (vPerm d (vKd d)) ≤ ix) then none
    else some (vBase d + vEs d * sumL ((vDims d).map fun k => u k * vStr d (vPerm d k)))

/-- The pieces of view elements that an access of n bytes at offset o covers: element, first byte within it, bytes (R103). -/
def vPieces (d o n : Nat) : List (Nat × Nat × Nat) :=
  let es := vEs d
  if es ≤ n then (List.range (n / es)).map fun k => (o / es + k, 0, es) else [(o / es, o % es, n)]

/-! The view table (R98, R387). -/

/-- Address of a view slot on this package, none while V is clear. -/
def State.viewSlot (s : State) (part : BitVec 6) (slot : Nat) : Option Nat :=
  let r := (s.pr part 0x5500).toNat
  if r % 2 = 1 then some (s.chip.toNat * 2 ^ 42 + bitsN r 39 15 * 2 ^ 15 + 128 * slot) else none
/-- The active descriptor of a slot. -/
def State.viewDesc (s : State) (part : BitVec 6) (slot : Nat) : Option Nat :=
  match s.viewSlot part slot with
  | none => none
  | some a => some (rdNat s.mem a 64)

/-! Elements checked one by one (R108, R117). -/

/-- A denied read to report: its address, the page it lies in, the tag, where the read came from (Table 20.4). -/
structure Denial where
  va : Nat
  page : Nat
  tag : BitVec 12
  src : BitVec 4
deriving DecidableEq, Repr, Inhabited

/-- The address a record gives: an index entry's own, since its read is a plain read of the thread (R108); else that of the access. -/
def Denial.addr (d : Denial) (va : DWord) : DWord := if d.src = 4 then BitVec.ofNat 64 d.va else va

/-- Who makes a view access: partition, handle for page-fault records, principal, the core whose die's L2 serves it, the TLB of the
composing slice or engine, the thread. -/
structure Asker where
  part : BitVec 6
  handle : DWord
  principal : BitVec 16
  core : Nat
  mmu : Mmu
  th : Option ThreadId

/-- The asker that a thread of a block is. -/
def Block.asker (b : Block) (id : ThreadId) : Asker :=
  { part := b.part, handle := b.handle, principal := b.principal, core := b.core, mmu := .die (dieOfCore b.core), th := some id }

/-- A byte of an index entry, read at L2 (R108); a thread finds there what it has written itself (R72). -/
def State.idxByte (s : State) (q : Asker) (pa : Nat) (key : BitVec 9) : Byte :=
  (q.th.bind fun id => s.ownByte id pa).getD (s.l2Byte q.core pa key)

/-- Faults of one element, in the order of Table 4.4; the engine's status follows from the cause. -/
inductive VFault where
  | indexXlate | viewIndex | cause (c : Cause)
deriving DecidableEq, Repr
def VFault.cause' : VFault → Cause
  | .indexXlate => .xlate
  | .viewIndex => .viewIndex
  | .cause c => c

/-- One element: its index entry read and its base address checked. A denied entry reads as zero and is logged (R108). -/
def State.viewElem (s : State) (q : Asker) (d i : Nat) (k : AKind) : State × Option Denial × Except VFault Acc :=
  let (s, ix, den) : State × Option Nat × Option Denial :=
    match vIndexAt d i with
    | none => (s, some 0, none)
    | some ea =>
      match s.globAccess q.mmu q.part q.handle q.principal ea .read with
      | (s, .error _) => (s, none, none)
      | (s, .ok a) =>
        let a := s.served q.part q.principal q.core false a
        if a.denied then (s, some 0, some { va := ea, page := a.page, tag := a.tag, src := 4 })
        else
          match a.loc with
          | .mem pa => (s, some (natOfBytes ((List.range (vIsz d)).map fun j => s.idxByte q (pa + j) a.key)), none)
          | .scr .. => (s, none, none)
  match ix with
  | none => (s, den, .error .indexXlate)
  | some ix =>
    match vAddr d i ix with
    | none => (s, den, .error .viewIndex)
    | some ba =>
      match s.globAccess q.mmu q.part q.handle q.principal ba k with
      | (s, .error c) => (s, den, .error (.cause c))
      | (s, .ok a) => (s, den, .ok a)

/-- The bytes of a piece of an element. -/
def pieceBytes (a : Acc) (first n : Nat) : List VByte :=
  match a.loc with
  | .mem pa => (List.range n).map fun j => { pa := pa + first + j, key := a.key, denied := a.denied }
  | .scr .. => []

/-- All pieces of an access: the denials met, and the fault of the lowest-indexed faulting element or the bytes in order. -/
def State.viewPieces (s : State) (q : Asker) (d : Nat) (k : AKind) :
    List (Nat × Nat × Nat) → State × List Denial × Except VFault (List VByte)
  | [] => (s, [], .ok [])
  | (i, first, n) :: ps =>
    match s.viewElem q d i k with
    | (s, den, .error f) => (s, den.toList, .error f)
    | (s, den, .ok a) =>
      let own : List Denial := if a.denied then [{ va := a.page, page := a.page, tag := a.tag, src := 1 }] else []
      match s.viewPieces q d k ps with
      | (s, ds, r) => (s, den.toList ++ own ++ ds, r.map fun bs => pieceBytes a first n ++ bs)

/-- The elements of an access through a descriptor: ALIGN, an empty slot, VIEW_BOUNDS, then the elements one by one (R115, R117).
`single`: an atomic, which covers a single element (R112). -/
def viewCheck (desc : Option Nat) (va : DWord) (n : Nat) (single : Bool) : Except Cause (Nat × List (Nat × Nat × Nat)) :=
  let o := va.toNat % 2 ^ 55
  if o % n != 0 then .error .align
  else
    match desc with
    | none => .error .xlate
    | some d =>
      if vRank d = 0 then .error .xlate
      else if single && decide (vEs d < n) then .error .align
      else if (vPieces d o n).any (fun p => decide (vCount d ≤ p.1)) then .error .viewBounds
      else .ok (d, vPieces d o n)
/-- The slot that an address in the view window names. -/
def viewSlotOf (va : DWord) : Nat := bitsN va.toNat 62 55
/-- An access of a thread through a view whose slot holds a descriptor. -/
def State.viewThrough (s : State) (desc : Option Nat) (id : ThreadId) (va : DWord) (n : Nat) (k : AKind) (single : Bool) :
    State × List Denial × Except Cause (List VByte) :=
  match s.block? id.blk, viewCheck desc va n single with
  | none, _ => (s, [], .error .xlate)
  | _, .error c => (s, [], .error c)
  | some b, .ok (d, ps) =>
    match s.viewPieces (b.asker id) d k ps with
    | (s, ds, r) => (s, ds, r.mapError VFault.cause')
/-- The descriptor of the slot an address names, as it stands. -/
def State.viewDescAt (s : State) (id : ThreadId) (va : DWord) : Option Nat :=
  (s.block? id.blk).bind fun b => s.viewDesc b.part (viewSlotOf va)
def State.viewAccess (s : State) (id : ThreadId) (va : DWord) (n : Nat) (k : AKind) (single : Bool) :
    State × List Denial × Except Cause (List VByte) := s.viewThrough (s.viewDescAt id va) id va n k single

/-! Index entries are read at L2 (R108): an access waits until its entries can be read there. -/

/-- Where the index entries of elements lie. -/
def State.idxPlaces (s : State) (q : Asker) (d : Nat) (ps : List (Nat × Nat × Nat)) : List (Nat × BitVec 9) :=
  ps.flatMap fun p =>
    match vIndexAt d p.1 with
    | none => []
    | some ea =>
      match (s.globAccess q.mmu q.part q.handle q.principal ea .read).2 with
      | .ok { loc := .mem pa, key := key, .. } => (List.range (vIsz d)).map fun j => (pa + j, key)
      | _ => []
/-- An index byte cannot be read yet: a write of its core has not gone home, or the L2 cannot bring it. -/
def State.idxWaits (s : State) (q : Asker) (x : Nat × BitVec 9) : Bool :=
  (match q.th with
   | some id => (s.l1.any fun b => b.core == q.core && b.pa == x.1 && !b.dirty.isEmpty)
      || (s.atoms.any fun a => a.th == id && a.red && (match a.loc with | .mem pa => decide (pa ≤ x.1 ∧ x.1 < pa + 8) | .scr .. => false))
   | none => false)
  || s.l2Waits q.core x.1 x.2
/-- The steps that end those waits are asked for. -/
def State.idxAsk (s : State) (q : Asker) (xs : List (Nat × BitVec 9)) : State :=
  let s := if q.th.isSome then s.flush q.core fun b => xs.any fun x => x.1 == b.pa else s
  xs.foldl (fun s x => s.l2Ask q.core x.1 x.2) s
/-- The index bytes of a thread's access through a view that cannot be read yet. -/
def State.viewIdx (s : State) (id : ThreadId) (va : DWord) (n : Nat) : List (Nat × BitVec 9) :=
  match s.block? id.blk, viewCheck (s.viewDescAt id va) va n false with
  | some b, .ok (d, ps) => (s.idxPlaces (b.asker id) d ps).filter (s.idxWaits (b.asker id))
  | _, _ => []
def State.viewIdxAsk (s : State) (id : ThreadId) (va : DWord) (n : Nat) : State :=
  match s.block? id.blk with
  | some b => s.idxAsk (b.asker id) (s.viewIdx id va n)
  | none => s

/-- An address in the view window. -/
def isView (va : DWord) : Bool := va.msb

/-! Denied reads of a word are reported once for each page, in ascending thread index (R95). -/

/-- Denials of a word reported: one record for each page not yet seen. The record names the first denied thread's address. -/
def State.reportWord (s : State) (c : Str) (ids : List ThreadId) (f : ThreadId → List Denial × DWord) : State :=
  (ids.foldl (fun (acc : State × List Nat) id =>
    let (ds, va) := f id
    ds.foldl (fun acc d =>
      if acc.2.contains d.page then acc
      else (acc.1.reportDenied id (d.addr va) c.pc d.tag d.src, acc.2 ++ [d.page])) acc) (s, [])).1

/-! The view instructions (R99, R284). -/

/-- The word that yk to yk+7 hold. -/
def yWords (y : Sparse 32) (k : Nat) : Nat := natOfBytes ((List.range 8).flatMap fun j => bytesOfNat 4 (rd y (k + j)).toNat)
/-- Staging half of a slot and its STAGED bit (R387). -/
def State.viewStage (s : State) (a : Nat) : Nat := rdNat s.mem (a + 64) 32
def State.viewStaged (s : State) (a : Nat) : Bool := (rd s.mem (a + 96)).getLsbD 0
/-- The block's partition. -/
def State.partOf (s : State) (id : ThreadId) : BitVec 6 := match s.block? id.blk with | some b => b.part | none => 0

/-- V clear: every view instruction traps with XLATE (R387). -/
def viewChk (slot : BitVec 8) : Check := fun _ id s =>
  match s.viewSlot (s.partOf id) slot.toNat with
  | none => (s, some (.xlate, 0))
  | some _ => (s, none)
/-- `view.def.x` in addition: the staging half is there and the whole descriptor passes (R99, R100). -/
def viewDefChk (slot : BitVec 8) (k : BitVec 3) : Check := fun _ id s =>
  match s.viewSlot (s.partOf id) slot.toNat with
  | none => (s, some (.xlate, 0))
  | some a =>
    let d := s.viewStage a + 2 ^ 256 * yWords (s.yOf id) (8 * k.toNat)
    if s.viewStaged a && vOk d then (s, none) else (s, some (.illegalOp, 0))

/-- A slot with its active descriptor, staging half and STAGED bit written. -/
def State.putSlot (s : State) (a : Nat) (active : Option Nat) (stage : Nat) (staged : Bool) : State :=
  let m := match active with | some d => wrNat s.mem a 64 d | none => s.mem
  { s with mem := wr (wrNat m (a + 64) 32 stage) (a + 96) (if staged then 1 else 0) }

/-- A slot written behind a release of .dev scope of every thread of the word: with the last of these releases the descriptor is
installed (R114). -/
def State.defineSlot (s : State) (ids : List ThreadId) (a d : Nat) : State :=
  let n := s.nextId
  let s := ids.foldl (fun s id => s.beginRelease id .dev [] none) s
  let last := (s.rels.getLast?.map (·.id)).getD n
  let others := (s.rels.map (·.id)).filter fun x => decide (n ≤ x ∧ x < last)
  { s with rels := s.rels.map fun r => if r.id == last then { r with slot := some (others, a, d) } else r }
/-- The head string does not pass its word before the releases that the word began, from a record number up, are performed. -/
def heldFrom (n : Nat) : Out → Out
  | .next s =>
    match s.strings with
    | [] => .next s
    | c :: l =>
      let ids := (s.rels.filter fun r => decide (n ≤ r.id) && c.members.contains r.th).map (·.id)
      .next (if ids.isEmpty then s else { s with strings := { c with hold := ids } :: l })
  | o => o

/-- Signature of a view instruction: the words it writes (R202). -/
def viewSig (slot : BitVec 8) (k : BitVec 3) : State → Thread → List Byte := fun s t =>
  slot :: bytesOfNat 32 (yWords (s.yOf t.id) (8 * k.toNat))

/-- `view.def.g`: staging half and STAGED (R99, R387). Performed once, by the leader. -/
def execViewDefG (q : PReg) (slot : BitVec 8) (k : BitVec 3) (s : State) : Out :=
  execIrrevTeams (.viewDefG q slot k) noStall (viewChk slot) (viewSig slot k)
    (fun _ l _ s =>
      if s.isWheel l then s
      else
        match s.viewSlot (s.partOf l) slot.toNat with
        | none => s
        | some a => s.putSlot a none (yWords (s.yOf l) (8 * k.toNat)) true) s

/-- `view.def.x`: a release of .dev scope, behind which both halves are installed whole; the threads do not pass before that (R114). -/
def execViewDefX (q : PReg) (slot : BitVec 8) (k : BitVec 3) (s : State) : Out :=
  heldFrom s.nextId <| execIrrevTeams (.viewDefX q slot k) (fun s _ t => s.orderStall t) (viewDefChk slot k) (viewSig slot k)
    (fun _ l ids s =>
      if s.isWheel l then s
      else
        match s.viewSlot (s.partOf l) slot.toNat with
        | none => s
        | some a => s.defineSlot ids a (s.viewStage a + 2 ^ 256 * yWords (s.yOf l) (8 * k.toNat))) s

/-- `view.del`: a release of .dev scope, behind it all zeros (R99, R114). -/
def execViewDel (q : PReg) (slot : BitVec 8) (s : State) : Out :=
  heldFrom s.nextId <| execIrrevTeams (.viewDel q slot) (fun s _ t => s.orderStall t) (viewChk slot) (fun _ _ => [slot])
    (fun _ l ids s =>
      if s.isWheel l then s
      else
        match s.viewSlot (s.partOf l) slot.toNat with
        | none => s
        | some a => s.defineSlot ids a 0) s

/-- Nothing that follows an acquire of a thread is performed before the acquire is served (R73). -/
def State.memStall (s : State) (t : Thread) : Bool := s.acqPending t.id

/-- `view.q`: a plain read of half of a slot's active descriptor into eight yoke registers, held until they are written. -/
def execViewQ (q : PReg) (k : BitVec 3) (slot : BitVec 8) (half : Bool) (s : State) : Out :=
  execTeams (.viewQ q k slot half) (fun s _ t => s.memStall t || ctrFull t.ld || s.lvFull t.id)
    (fun c l ids s =>
      let regs : List YReg := (List.range 8).map fun j => BitVec.ofNat 6 (8 * k.toNat + j)
      match s.viewSlot (s.partOf l) slot.toNat with
      | none => ids.foldl (fun s id => s.raise id c.pc .xlate 0 0 true) s
      | some a =>
        if s.isWheel l then
          if (s.lvPeek l).isNone then ids.foldl (fun s id => s.modThread id fun t => { t with status := .waiting .loadValue }) s
          else s.wheelTake l fun ws s => s.setY l (regs.map fun r => (r.toNat, 1)) fun y => (regs.zip ws).foldl (fun y p => wr y p.1.toNat p.2) y
        else
          let d := rdNat s.mem a 64
          let ws := (List.range 8).map fun j => BitVec.ofNat 32 (d / 2 ^ ((if half then 256 else 0) + 32 * j))
          let n := s.nextId
          let word := n
          let s := s.lvOpen l c.pc n
          let s := s.modTeamOf l fun m => { m with yhold := m.yhold ++ regs }
          ids.foldl (fun s id =>
            (s.modThread id fun t => { t with ld := t.ld + 1 }).sendRet id n [] (if id == l then regs.zip ws else []) true false (word := some word)) s) s

end Sys2Proof.Machine
end

