-- ==== Sys2Proof/Machine/LoadStore.lean ====
section
/-! DEFINITION. Loads, stores, the non-temporal drain and prefetches (R277 to R283), and `movs` of %clock, whose value a wheeler
takes from its leader (R201, R240). The queue-register forms are in Queues.lean. -/

namespace Sys2Proof.Machine

/-! What keeps a memory word from issuing for a thread. -/

/-- Where an access would land, if it passes its checks. -/
def State.locOf (s : State) (id : ThreadId) (va : DWord) (n : Nat) (k : AKind) : Option Loc :=
  match (s.access id va n k).2 with
  | .ok a => some a.loc
  | .error _ => none
/-- A scratchpad that is being saved or restored holds its accesses (R59). -/
def State.scrHeld (s : State) : Option Loc → Bool
  | some (.scr b _) => (match s.block? b with | some x => x.state == .saving || x.state == .restoring | none => false)
  | _ => false
/-- The bytes an access reaches, where it passes its checks. -/
def State.bytesOf (s : State) (id : ThreadId) (va : DWord) (n : Nat) (k : AKind) : List Loc :=
  if isView va then
    match (s.viewAccess id va n k false).2.2 with
    | .ok bs => bs.map fun b => .mem b.pa
    | .error _ => []
  else
    match s.locOf id va n k with
    | some (.mem pa) => (List.range n).map fun i => .mem (pa + i)
    | some (.scr b o) => (List.range n).map fun i => .scr b (o + i)
    | none => []
/-- Bytes of an own `st.rel` that is still held back (R72). -/
def State.relHolds (s : State) (id : ThreadId) (ls : List Loc) : Bool :=
  s.rels.any fun r => r.th == id && r.cells.any fun c => ls.contains c.loc
/-- Bytes of an atomic or a reduction. -/
def AtomReq.bytes (a : AtomReq) : List Loc :=
  (List.range (if a.wide then 8 else 4)).map fun i => match a.loc with | .mem pa => .mem (pa + i) | .scr b o => .scr b (o + i)
/-- An own atomic or reduction through a view that is not performed yet reaches one of the bytes (R72). -/
def State.atomHolds (s : State) (id : ThreadId) (ls : List Loc) : Bool :=
  s.atoms.any fun a => a.th == id && a.bytes.any ls.contains
/-- An own load of one of the bytes is not bound yet: a later read must not be bound before it (R71). -/
def State.loadHolds (s : State) (id : ThreadId) (ls : List Loc) : Bool :=
  s.loads.any fun l => l.th == id && l.bytes.any fun b => match b with | .at pa _ => ls.contains (.mem pa) | .val _ => false
/-- View stores of a thread not yet acknowledged, and `st.nt` stores not yet exposed (R72, R110). -/
def State.viewOut (s : State) (id : ThreadId) : Bool := s.vstores.any fun v => v.th == id && v.passed
def State.ntOut (s : State) (id : ThreadId) : Bool :=
  (s.wbs.any fun w => w.nt && w.th == some id) || s.merges.any fun m => m.wb.nt && m.wb.th == some id && !m.wb.cells.isEmpty
/-- A store of a redundant block's thread whose signature is not matched yet (R202). -/
def State.sigPending (s : State) (id : ThreadId) : Bool :=
  match s.team? id.blk false (teamIdx id) with
  | some m => m.sigs.any fun e => e.wheel == id.wheel && e.parts.any fun p => p.tid == id.tid && p.kind == .store
  | none => false

/-- A wheeler that has not come to a matrix store of its leader's that is under way (R304). -/
def State.arrayOwed (s : State) (id : ThreadId) : Bool :=
  id.wheel && (match s.side? id.blk false, s.thread? id, s.thread? { id with wheel := false } with
    | some d, some t, some l => decide (t.done < l.done) && d.ops.any fun o => memStore o.ins && o.signers.contains l.id
    | _, _, _ => false)
/-- The other thread of a redundant pair waits for this one to reach the same store (R202, R426). -/
def State.sigOwed (s : State) (id : ThreadId) : Bool := s.isRed id.blk && (s.sigPending { id with wheel := !id.wheel } || s.arrayOwed id)

/-- Bytes that an enqueue not yet performed may write: its control block and the ring (Table 5.1). -/
def State.enqOver (s : State) (x : QReq) (pa : Nat) : Bool :=
  let q := natOfBytes ((List.range 64).map fun k => s.homeByte (x.qcbPa + k) x.key)
  let ring := bitsN q 319 256
  let len := if bitsN q 23 19 ≤ 24 then 4 * 2 ^ bitsN q 18 16 * 2 ^ bitsN q 23 19 else 0
  decide (x.qcbPa ≤ pa ∧ pa < x.qcbPa + 64)
  || (List.range (len / 65536 + 2)).any fun k =>
      let v := (ring / 65536 + k) * 65536
      decide (ring ≤ v + pa % 65536 ∧ v + pa % 65536 < ring + len)
      && (match s.lookup (.core x.core) x.part v with | .ok (e, _) => e.pa / 65536 == pa / 65536 | .error _ => false)
/-- A try enqueue of the thread has not been performed and may write one of the bytes (R72). -/
def State.enqHolds (s : State) (id : ThreadId) (ls : List Loc) : Bool :=
  (s.qreqs.filter fun x => x.try_ && x.enq && x.result.isNone && x.ths.contains id).any fun x =>
    ls.any fun l => match l with | .mem pa => s.enqOver x pa | .scr .. => false

/-- What keeps a load from issuing: LD at its limit, an acquire not yet served, a full load-value queue, the thread's own accesses
to its bytes that have not reached the point where it would be served, a scratchpad in transition, index entries to be read. -/
def State.loadStall (s : State) (t : Thread) (va : DWord) (n : Nat) : Bool :=
  let ls := s.bytesOf t.id va n .read
  ctrFull t.ld || s.acqPending t.id || s.matMem t.id || s.lvFull t.id || s.viewOut t.id || s.ntOut t.id || s.sigPending t.id
  || (!isView va && s.scrHeld (s.locOf t.id va n .read)) || s.enqHolds t.id ls || s.atomHolds t.id ls || s.loadHolds t.id ls
  || (isView va && (s.relHolds t.id ls || !(s.viewIdx t.id va n).isEmpty))

/-! Loads (R278, R279). -/

/-- Registers written with the words a wheeler took. -/
def Thread.putWords (t : Thread) (regs : List GReg) (ws : List Word) : Thread := (regs.zip ws).foldl (fun t p => t.setG p.1 p.2) (t.overtake (regs.map .g))
/-- Words that a wheeler took from the load-value queue written to its registers, after a possible injection (R422). -/
def State.takeWords (s : State) (c : Str) (id : ThreadId) (regs : List GReg) (ws : List Word) : State :=
  let r := s.injected id c.obj c.pc { g := regs.zip ws }
  r.2.modThread id fun t => t.putWords regs (r.1.g.map (·.2))

/-- A plain read of a thread as the place that serves it checks it (R95). -/
def State.servedTo (s : State) (id : ThreadId) (l1 : Bool) (a : Acc) : Acc :=
  match s.block? id.blk with
  | some b => s.served b.part b.principal b.core l1 a
  | none => a
/-- Whether a load of an address may be served from the L1 of its core: not an acquire at .grp or wider, nor while the core holds
reductions of the line (R77, R88). -/
def State.fromL1 (s : State) (id : ThreadId) (far : Bool) (a : Acc) : Bool :=
  !far && (match a.loc with | .mem pa => !s.updHeld (s.coreOf id) pa | .scr .. => true)
/-- The bytes of a plain load that passed its checks. `l1`: it may be served from L1. -/
def State.plainBytes (s : State) (id : ThreadId) (a : Acc) (n : Nat) (l1 : Bool) : List LByte :=
  match a.loc with
  | .scr b o => (List.range n).map fun i => .val (s.scrByte id b (o + i))
  | .mem pa => if a.denied then List.replicate n (.val 0) else s.loadBytes id pa n a.key l1
/-- Whether a location is the block's own scratch, of which a redundant block's team has its own copy (R200). -/
def ownScr (id : ThreadId) : Loc → Bool
  | .scr b _ => b == id.blk
  | .mem _ => false

/-- A load of poisoned bytes of a scratchpad, or of the core's L1 where it serves the load (R193, R417). -/
def State.scrBad (s : State) (id : ThreadId) (l : Loc) (n : Nat) (l1 : Bool := false) : Bool :=
  match l with
  | .mem pa => l1 && s.l1.any fun b => b.core == s.coreOf id && b.bad && decide (pa ≤ b.pa ∧ b.pa < pa + n)
  | .scr b o => (List.range n).any fun k =>
      match s.block? b with | some x => (x.side (id.wheel && b == id.blk)).poison.contains (2 ^ 25 + o + k) | none => false

/-- An ordering of scope .grp or wider: an acquire bypasses L1, a release goes past it. -/
def farOf (sc : Option Scope) : Bool := match sc with | some x => x != .blk | none => false
/-- One thread's load. A load through a view is served at the composing slice whatever its granule; R107 leaves to the implementation whether
one with a granule of 32 may be served from L1 (DESIGN CHOICE, notes/assumptions/74.md). -/
def loadOne (word : Nat) (acq : Option Scope) (sz : BitVec 3) (sx : Bool) (d : GReg) (m : MemOp) (c : Str) (id : ThreadId) (s : State) : State :=
  match s.thread? id with
  | none => s
  | some t =>
    let va := memVa m t
    let n := 2 ^ sz.toNat
    let regs := (loadOuts d n sx []).map (·.1)
    let take (s : State) : State := s.wheelTake id fun ws s => s.takeWords c id regs ws
    if isView va then
      match s.viewAccess id va n .read false with
      | (s', _, .error e) => (if id.wheel then s else s').raise id c.pc e va 0 true
      | (s', _, .ok bs) =>
        if s.isWheel id then take s
        else
          let s' := s'.flush (s'.coreOf id) fun x => bs.any fun b => b.pa == x.pa
          (s'.lvOpen id c.pc s'.nextId).startLoad id c.pc true false d n sx false acq 0 word
            (bs.map fun b => if b.denied then .val 0 else s'.loadByte id b.pa b.key false)
    else
      match s.access id va n .read with
      | (s', .error e) => (if id.wheel then s else s').raise id c.pc e va 0 true
      | (s', .ok a) =>
        let l1 := s'.fromL1 id (farOf acq) a
        let a := s'.servedTo id l1 a
        if ownScr id a.loc then s'.startLoad id c.pc false (s'.scrBad id a.loc n) d n sx false acq 0 word (s'.plainBytes id a n true)
        else if s.isWheel id then take s
        else
          let s' := match a.loc with
            | .mem pa => if l1 then s' else s'.flush (s'.coreOf id) fun b => decide (pa ≤ b.pa ∧ b.pa < pa + n)
            | .scr .. => s'
          (s'.lvOpen id c.pc s'.nextId).startLoad id c.pc false (!a.denied && s'.scrBad id a.loc n l1) d n sx (!farOf acq) acq a.tag word (s'.plainBytes id a n l1)

/-- The denied bytes of one thread's load, for the event log, and its address. -/
def loadDenials (s : State) (far : Bool) (sz : BitVec 3) (m : MemOp) (id : ThreadId) : List Denial × DWord :=
  match s.thread? id with
  | none => ([], 0)
  | some t =>
    let va := memVa m t
    let n := 2 ^ sz.toNat
    if s.isWheel id then ([], va)
    else if isView va then ((s.viewAccess id va n .read false).2.1, va)
    else
      match (s.access id va n .read).2 with
      | .ok a =>
        let a := s.servedTo id (s.fromL1 id far a) a
        (if a.denied then [{ va := va.toNat, page := a.page, tag := a.tag, src := 0 }] else [], va)
      | .error _ => ([], va)

/-- A word whose acting threads must first have index entries brought to where they can be read asks for that and waits (R108). -/
def withIndex (i : Instr) (m : MemOp) (n : Nat) (k : State → Out) (s : State) : Out :=
  match s.strings with
  | [] => k s
  | c :: _ =>
    let open' (id : ThreadId) : Bool :=
      match s.thread? id with | some t => isView (memVa m t) && !(s.viewIdx id (memVa m t) n).isEmpty | none => false
    let ids := (s.actors (guardOf i) c).filter open'
    if ids.isEmpty then k s
    else .next (ids.foldl (fun s id => match s.thread? id with | some t => s.viewIdxAsk id (memVa m t) n | none => s) s).tick

/-- A load word: every acting thread's load, then the event records of its denied reads. -/
def loadWord (i : Instr) (acq : Option Scope) (sz : BitVec 3) (sx : Bool) (d : GReg) (m : MemOp) (s : State) : Out :=
  withIndex i m (2 ^ sz.toNat) (execAll i (fun s _ t => s.loadStall t (memVa m t) (2 ^ sz.toNat))
    (fun c ids s0 => (ids.foldl (fun s id => loadOne s0.nextId acq sz sx d m c id s) s0).reportWord c ids (loadDenials s0 (farOf acq) sz m))) s

def execLd (q : PReg) (sz : BitVec 3) (sx : Bool) (d : GReg) (m : MemOp) (s : State) : Out :=
  loadWord (.ld q sz sx d m) none sz sx d m s
/-- `ld.acq`: at .grp or wider served at L2, and the core's clean bytes are invalidated when it is served (R77, R81). -/
def execLdAcq (q : PReg) (sc : Scope) (sz : BitVec 3) (sx : Bool) (d : GReg) (m : MemOp) (s : State) : Out :=
  loadWord (.ldAcq q sc sz sx d m) (some sc) sz sx d m s

/-! Stores (R278, R279, R195, R202). -/

/-- The bytes a store writes, lowest first. -/
def stBytes (y : Sparse 32) (t : Thread) (sz : BitVec 3) (b : Src) : List Byte :=
  ((List.range (szRegs sz)).flatMap fun j => bytesOfNat 4 (bvalAt y t j b).toNat).take (2 ^ sz.toNat)

/-- A thread waits for the signature of a trap to match. -/
def waitsTrap (t : Thread) : Bool :=
  match t.status with
  | .waiting (.signature (some _)) => true
  | _ => false
/-- The wheeler of a pair does not run ahead of its leader at a store: the leader, which checks the store and that the buffer has room,
comes first (R197, R200). -/
def State.leadFirst (s : State) (t : Thread) : Bool :=
  t.id.wheel && (match s.thread? { t.id with wheel := false } with | some l => decide (l.done ≤ t.done) && !waitsStaging l && !waitsTrap l | none => false)
/-- What keeps a store from issuing: ST at its limit, an acquire not served, a load not bound (R75), own accesses to the same bytes
that have not come far enough, a view store not yet scattered, a scratchpad in transition. -/
def State.storeStall (s : State) (t : Thread) (va : DWord) (n : Nat) : Bool :=
  let ls := s.bytesOf t.id va n .write
  ctrFull t.st || s.acqPending t.id || s.unbound t.id || s.viewOut t.id || s.leadFirst t
  || (!isView va && s.scrHeld (s.locOf t.id va n .write)) || s.relHolds t.id ls || s.atomHolds t.id ls || s.enqHolds t.id ls
  || (isView va && s.ntOut t.id)

/-- The record of a view store that its thread has not passed yet. -/
def State.vstore? (s : State) (id : ThreadId) (pc : Word) : Option VStore :=
  s.vstores.find? fun v => v.th == id && v.pc == pc && !v.passed
/-- Whether a thread's view store waits for its check. -/
def State.viewWaits (s : State) (c : Str) (id : ThreadId) : Bool :=
  match s.vstore? id c.pc with
  | some v => v.answer.isNone
  | none => false

/-- Phase 1 of a view store begins: the thread's dirty bytes go home, an `st.rel` begins its release, the check is sent
(R109, R110, R113). A wheeler's store is checked as its leader's is, and releases nothing. -/
def State.openView (s : State) (id : ThreadId) (pc : Word) (word : Nat) (va : DWord) (data : List Byte) (nt : Bool) (rel : Option Scope) : State :=
  let s := s.flush (s.coreOf id) (fun b => b.dirty.contains id)
  let n := s.nextId
  let far : Bool := !s.isCont id.blk && farOf rel
  let s := if far then s.beginRelease id (rel.getD .blk) [] none else s
  State.push { s with
    vstores := s.vstores ++ [{ id := s.nextId, th := id, core := s.coreOf id, pc := pc, word := word, va := va, desc := s.viewDescAt id va, data := data, nt := nt, dom := far && farScope (rel.getD .blk), rel := (if far then some n else none), answer := none, pages := [], bytes := [], passed := false, scattered := false, wbs := [] }]
    nextId := s.nextId + 1 } (.viewStoreCheck s.nextId)
/-- A view store given up before its thread has passed it. -/
def State.dropView (s : State) (id : ThreadId) (pc : Word) : State :=
  { s with vstores := s.vstores.filter fun v => !(v.th == id && v.pc == pc && !v.passed) }

/-- A store that fails may be found precisely or after it left the core (R192): the choice is the implementation's; a redundant
block's is found before, with its trap compared. -/
def State.storeFails (s : State) (id : ThreadId) (pc : Word) (cause : Cause) (va : DWord) : State :=
  if (cause == .xlate || cause == .permWrite || cause == .execStore) && !s.isRed id.blk then
    if s.draw 2 == 0 then s.redraw.raise id pc cause va 0 true
    else s.redraw.push (.storeFault id cause.code va pc)
  else s.raise id pc cause va 0 true

/-- A store that passed its checks and whose buffer or cache takes it. -/
def State.storeGoes (s : State) (id : ThreadId) (pc : Word) (va : DWord) (a : Acc) (bs : List Byte) (nt : Bool) (rel : Option Scope) : State :=
  match rel with
  | some sc =>
    if sc != .blk && !s.isCont id.blk then (s.beginRelease id sc (cellsAt a.loc a.key a.tag bs) none).stRaise id
    else (s.storeCells id pc va a bs nt).stRaise id
  | none => (s.storeCells id pc va a bs nt).stRaise id

/-- A view store whose check has been answered (R109). -/
def State.viewGoes (s : State) (id : ThreadId) (v : VStore) : State :=
  let drop : State := { s with vstores := s.vstores.filter fun x => x.id != v.id }
  match v.answer with
  | some (some (cause, addr)) => drop.raise id v.pc cause addr 0 true
  | _ =>
    let cells : List LCell := (v.bytes.zip v.data).map fun p => { loc := .mem p.1.pa, val := p.2, key := p.1.key, tag := 0 }
    if s.isRed id.blk then (drop.sign id v.pc (storeSig v.va v.data) (if id.wheel then [] else cells) .store none).stRaise id
    else if s.isCont id.blk then (drop.putCont id cells).stRaise id
    else
      State.push { (s.modThread id fun t => { t with st := t.st + 1 }) with
        vstores := s.vstores.map fun x => if x.id == v.id then { x with passed := true } else x } (.viewStoreScatter v.id)

/-- Whether a thread's store must wait for an implicit commit: its block's buffer and staging area cannot take it, or, for a wheeler,
its leader waits for that (R197). -/
def State.mustStage (s : State) (id : ThreadId) (n : Nat) (l : Option Loc) : Bool :=
  s.isCont id.blk && !(match l with | some l => ownScr id l | none => false)
  && (if id.wheel then (match s.thread? { id with wheel := false } with | some t => waitsStaging t | none => false) else s.sbufFull id.blk n)
/-- One thread's store. Where the compare buffer of a redundant pair has no room the thread waits at the word (R426). -/
def storeOne (nt : Bool) (rel : Option Scope) (sz : BitVec 3) (m : MemOp) (b : Src) (c : Str) (id : ThreadId) (s : State) : State :=
  match s.thread? id with
  | none => s
  | some t =>
    let va := memVa m t
    let bs := stBytes (s.yOf id) t sz b
    if s.mustStage id bs.length (s.locOf id va bs.length .write) then (s.dropView id c.pc).stopFor id .staging
    else if s.sigFull id c.pc then (s.dropView id c.pc).modThread id fun t => { t with status := .waiting (.signature none) }
    else if isView va then
      match s.vstore? id c.pc with | some v => s.viewGoes id v | none => s
    else
      match s.access id va (2 ^ sz.toNat) .write with
      | (s', .error e) => (if id.wheel then s else s').storeFails id c.pc e va
      | (s', .ok a) => (if id.wheel then s else s').storeGoes id c.pc va a bs nt rel

/-- A thread of a store word that must open a view store first. -/
def opensView (s : State) (i : Instr) (m : MemOp) (c : Str) (id : ThreadId) : Bool :=
  match s.thread? id with
  | some t => isView (memVa m t) && (s.vstore? id c.pc).isNone && s.regsOk i id
  | none => false

/-- A store word. Where threads of it store through a view, their checks are sent first and the word waits for the answers. -/
def storeWord (i : Instr) (nt : Bool) (rel : Option Scope) (sz : BitVec 3) (m : MemOp) (b : Src) (s : State) : Out :=
  match s.strings with
  | [] => .next s.tick
  | c :: _ =>
    let ids := s.actors (guardOf i) c
    let stall (s : State) (c : Str) (t : Thread) : Bool := s.storeStall t (memVa m t) (2 ^ sz.toNat) || s.viewWaits c t.id
    let stuck : Bool := s.boarded i c || ids.any fun id => match s.thread? id with | some t => stall s c t | none => false
    if !stuck && ids.any (opensView s i m c) then
      .next (ids.foldl (fun s' id =>
        if opensView s i m c id then
          match s.thread? id with
          | some t => s'.openView id c.pc s.nextId (memVa m t) (stBytes (s.yOf id) t sz b) nt rel
          | none => s'
        else s') s).tick
    else execEach i stall (storeOne nt rel sz m b) s

def execSt (q : PReg) (sz : BitVec 3) (m : MemOp) (b : Src) (s : State) : Out := storeWord (.st q sz m b) false none sz m b s
/-- `st.rel`: the bytes become visible once everything before them has been performed at the scope (R73, R80). -/
def execStRel (q : PReg) (sc : Scope) (sz : BitVec 3) (m : MemOp) (b : Src) (s : State) : Out :=
  storeWord (.stRel q sc sz m b) false (some sc) sz m b s
/-- `st.nt`: past L1 to the home (R90). -/
def execStNt (q : PReg) (sz : BitVec 3) (m : MemOp) (b : Src) (s : State) : Out := storeWord (.stNt q sz m b) true none sz m b s

/-! The drain and prefetches (R282, R283). -/

/-- `st.nt` stores of a thread not yet acknowledged (R90). -/
def State.ntUnacked (s : State) (id : ThreadId) : Bool :=
  (s.wbs.any fun w => w.nt && w.th == some id) || (s.merges.any fun m => m.wb.nt && m.wb.th == some id)
  || s.vstores.any fun v => v.th == id && v.nt
/-- `drain.nt`: the thread waits for its `st.nt` stores; in a contained block until they are in the store buffer (R280). -/
def execDrainNt (q : PReg) (s : State) : Out :=
  execEach (.drainNt q) (fun s _ t => s.sigPending t.id)
    (fun _ id s => if s.ntUnacked id then s.modThread id fun t => { t with status := .waiting .drain } else s) s
/-- A prefetch is a hint: it raises nothing and writes nothing visible (R283). -/
def execPrefetchL1 (q : PReg) (m : MemOp) (s : State) : Out := execReg (.prefetchL1 q m) (fun _ _ _ => {}) s
def execPrefetchL2 (q : PReg) (m : MemOp) (s : State) : Out := execReg (.prefetchL2 q m) (fun _ _ _ => {}) s

/-! `movs` (R240). -/

/-- The words of %clock. -/
def clockWords (s : State) : List Word := [s.clock.extractLsb' 0 32, s.clock.extractLsb' 32 32]
/-- Words of the leader on their way into the load-value queue alone: the leader has its result already. -/
def State.sendQueue (s : State) (id : ThreadId) (pc : Word) (outs : List (GReg × Word)) : State :=
  let n := s.nextId
  let s := (s.lvOpen id pc n).bump
  State.push { s with
    rets := s.rets ++ [{ id := n, th := id, src := n, outs := outs, youts := [], lowersLd := false, poisoned := false, toReg := false, toQueue := true }] }
    (.loadValueEntry n)
/-- A %clock read in a redundant block: the leader's value goes into the queue, the wheeler takes it (R201). -/
def clockOne (i : Instr) (d : GReg) (c : Str) (id : ThreadId) (s : State) : State :=
  if id.wheel then s.wheelTake id fun ws s => s.writeOuts i c id { g := [d, d + 1].zip ws }
  else
    let o := [d, d + 1].zip (clockWords s)
    (s.writeOuts i c id { g := o }).sendQueue id c.pc o

/-- Whether a string belongs to a redundant launch. -/
def State.redString (s : State) : Bool :=
  match s.strings with
  | [] => false
  | c :: _ => c.members.any fun id => s.isRed id.blk

/-- Flags of earlier instructions of a thread that are still to be raised: those of its `atom.fadd` and of its matrix operations (R55). -/
def State.flagsDue (s : State) (id : ThreadId) : Bool :=
  (s.atoms.any fun a => a.th == id && a.op == .fadd && !a.red) || (s.rets.any fun r => r.th == id && r.fl != 0)
  || (match s.side? id.blk id.wheel with | some d => d.ops.any fun o => o.signers.contains id | none => false)
def execMovs (q : PReg) (d : GReg) (x : Special) (s : State) : Out :=
  if x == .fpflags then execEach (.movs q d x) (fun s _ t => s.flagsDue t.id)
    (fun c id s => match s.thread? id with | some t => s.writeOuts (.movs q d x) c id (movsOuts s d x t) | none => s) s
  else if x == .clock && s.redString then execEach (.movs q d x) (fun s _ t => s.lvFull t.id) (clockOne (.movs q d x) d) s
  else execReg (.movs q d x) (fun s t _ => movsOuts s d x t) s

end Sys2Proof.Machine
end

