-- ==== Sys2Proof/Machine/Sync.lean ====
section
/-! DEFINITION. A block at its beginning and its return to a checkpoint (R43, R48, R204), commits (R196 to R198), fences, barriers
and `wait` (R29, R30, R290, R291, R299). -/

namespace Sys2Proof.Machine

/-! A block at admission (R43, Table 2.1). -/

/-- Teams of a block (R13). -/
def Shape.teams (h : Shape) : Nat := (h.threads + 127) / 128
/-- Cleared matrix status. -/
def MatStatus.reset : MatStatus :=
  { ops := 0, maxu := 0, maxa := 0, prog := 0, active := false, nan := false, fail := false, fcol := 0, kind := 0 }
def Hitch.reset : Hitch := { st := .free, c := 0, m := 0, signed := [], held := [], late := false, room := false }
/-- The identity of the permutation registers. -/
def pmIdentity : List (BitVec 7) := (List.range 512).map (BitVec.ofNat 7)
def Side.reset : Side :=
  { scratch := [], tiles := [], tc := [], acc := [], pm := pmIdentity, mstat := MatStatus.reset,
    hitch := List.replicate 16 Hitch.reset, ops := [], poison := [] }
/-- A thread that is to begin at an entry. -/
def Thread.fresh (id : ThreadId) (entry : Word) : Thread :=
  { id := id, pc := entry, hdr := none, wlen := 0, g := [], gbad := [], p := 0, ras := { dp := 0, held := [] }, status := .ready,
    waitCount := 0, ld := 0, st := 0, as := 0, tl := 0, hold := [], pend := [], lastIssue := 0, done := 0, granted := false }
/-- A team with FRAME in y0:y1. -/
def Team.fresh (blk : Nat) (wheel : Bool) (idx picker : Nat) (frame : DWord) : Team :=
  { blk := blk, wheel := wheel, idx := idx,
    y := wr (wr [] 0 (frame.extractLsb' 0 32)) 1 (frame.extractLsb' 32 32), yhold := [], ybad := [], fpflags := 0,
    q := List.replicate 8 .unbound, picker := picker, lvq := [], sigs := [] }
/-- The sides a block has: leaders, and wheelers where it is redundant (R200). -/
def sidesOf (red : Bool) : List Bool := if red then [false, true] else [false]
/-- The block as admitted; each team keeps its picker. -/
def Block.fresh (b : Block) (picker : Nat → Nat) : Image :=
  { threads := (sidesOf b.shape.red).flatMap fun w => (List.range b.shape.threads).map fun t => Thread.fresh { blk := b.id, wheel := w, tid := t } b.entry
    teams := (sidesOf b.shape.red).flatMap fun w => (List.range b.shape.teams).map fun k => Team.fresh b.id w k (picker k) b.frame
    lead := Side.reset, wheels := Side.reset }

/-! Return to a checkpoint (R199, R204). -/

/-- A queue request that has not proceeded (R129). -/
def QReq.open (q : QReq) : Bool := q.result.isNone && q.moving.isNone
/-- A blocking queue request of which a thread of an image is waiting and which is dropped, so that it issues again (R129, R198). -/
def State.reissues (s : State) (t : Thread) : Bool :=
  match t.status with
  | .waiting (.queue n) => !s.qreqs.any fun q => q.id == n && !q.open
  | _ => false
/-- Reductions of a thread through views that go on, the one kind of store that does. -/
def State.redsOf (s : State) (id : ThreadId) : Nat := (s.atoms.filter fun a => a.red && a.th == id).length
/-- The threads of an image as they begin again; a wheeler issues again with its leader. -/
def State.again (s : State) (ts : List Thread) : List Thread :=
  ts.map fun t =>
    if s.reissues t || (t.id.wheel && ts.any fun l => l.id == { t.id with wheel := false } && l.pc == t.pc && s.reissues l) then
      { t with status := if s.reissues t then .ready else t.status, granted := false, st := s.redsOf t.id }
    else { t with st := s.redsOf t.id }
/-- A value still to come into a load-value queue, brought by an irrevocable operation that goes on. -/
def State.lvComing (s : State) (src : Nat) : Bool :=
  (s.rets.any fun r => r.src == src) || (s.atoms.any fun a => a.id == src) || (s.qreqs.any fun q => q.id == src && !q.open)
  || (s.relays.any fun r => r.id == src) || s.copies.any fun c => c.id == src
def State.lvKept (s : State) (q : List LvEntry) : List LvEntry :=
  (q.map fun e => { e with vals := e.vals.filter fun v => v.val.isSome || s.lvComing v.src }).filter fun e => !e.vals.isEmpty
/-- Work in flight of a block's threads that a return to a checkpoint discards; irrevocable operations already sent go on, but for
blocking queue requests that have not proceeded: those belong to no thread any more and are withdrawn (R129). -/
def State.dropFlight (s : State) (blk : Nat) : State :=
  let gone (q : QReq) : Bool := !q.try_ && q.open && q.ths.any fun t => t.blk == blk
  let s := (s.qreqs.filter gone).foldl (fun s q => s.push (.queueWithdrawal q.id)) s
  { s with loads := s.loads.filter (fun l => l.th.blk != blk), rets := s.rets.filter (fun r => r.th.blk != blk || r.src != r.id),
           staccs := s.staccs.filter (fun x => x.th.blk != blk), vstores := s.vstores.filter (fun v => v.th.blk != blk),
           rels := s.rels.filter (fun r => r.th.blk != blk || r.after.isSome || r.slot.isSome),
           qreqs := s.qreqs.map (fun q => if gone q then { q with ths := [] } else q),
           strings := (s.strings.map fun c => { c with members := c.members.filter fun id => id.blk != blk }).filter (fun c => !c.members.isEmpty) }
/-- A block put into the state of an image, each team on its present picker. -/
def State.putImage (s : State) (b : Block) (im : Image) : State :=
  { s with
    threads := s.threads.filter (fun t => t.id.blk != b.id) ++ s.again im.threads
    teams := s.teams.filter (fun m => m.blk != b.id) ++ im.teams.map fun m =>
      { m with lvq := s.lvKept m.lvq, sigs := [], picker := (match s.team? b.id m.wheel m.idx with | some x => x.picker | none => m.picker) }
    blocks := s.blocks.map fun x =>
      if x.id == b.id then { x with lead := im.lead, wheels := im.wheels, sbuf := [], quiesce := false, rolling := false, opening := none } else x }
/-- The image a return starts from: the valid half, or the block as admitted. -/
def State.baseImage (s : State) (b : Block) : Image :=
  let fresh := b.fresh fun k => match s.team? b.id false k with | some m => m.picker | none => 0
  match b.valid with
  | some false => b.ckpt0.getD fresh
  | some true => b.ckpt1.getD fresh
  | none => fresh
/-- ROLLBACK (R204): once its copies have completed the block drops its uncommitted stores and returns to its checkpoint. -/
def State.rollback (s : State) (b : Block) : State := (s.dropFlight b.id).putImage b (s.baseImage b)

/-! The commit of a contained block (R196). -/

/-- What a commit signature covers of a queue register: its binding; what a leader's register has under way its wheeler's has not (R201). -/
def bindSig : QBind → List Byte
  | .unbound => [0]
  | .queue va es sc => 1 :: bytesOfNat 8 va.toNat ++ bytesOfNat 1 es ++ [match sc with | .blk => 0 | .grp => 1 | .dev => 2 | .dom => 3 | .sys => 4]
  | .copy _ => [2]
  | .gather g => 3 :: bytesOfNat 8 g.base.toNat ++ bytesOfNat 4 g.stride.toNat ++ bytesOfNat 1 g.rs
/-- What a team's commit signature covers: the state the checkpoint holds (R189, R202). -/
def sideSig (im : Image) (wheel : Bool) : List Byte :=
  let d := if wheel then im.wheels else im.lead
  let insn (i : Instr) : List Byte := (encode i).flatMap fun w => bytesOfNat 4 w.toNat
  let words (l : List Word) : List Byte := l.flatMap fun w => bytesOfNat 4 w.toNat
  let bools (l : List Bool) : List Byte := l.map fun b => if b then 1 else 0
  let sign (x : Sign) : List Byte := bytesOfNat 2 x.th.tid ++ insn x.ins ++ words x.vals ++ bools x.preds
  let sp {w : Nat} (l : Sparse w) : List Byte := l.flatMap fun e => bytesOfNat 4 e.1 ++ bytesOfNat 4 e.2.toNat
  (im.threads.filter (fun t => t.id.wheel == wheel)).flatMap (fun t =>
    bytesOfNat 2 t.id.tid ++ bytesOfNat 4 t.pc.toNat ++ sp t.g ++ bytesOfNat 1 t.p.toNat ++ bytesOfNat 2 t.ras.dp
      ++ t.ras.held.flatMap fun r => bytesOfNat 4 r.toNat)
  ++ (im.teams.filter (fun m => m.wheel == wheel)).flatMap (fun m =>
    bytesOfNat 1 m.idx ++ sp m.y ++ bytesOfNat 1 m.fpflags.toNat ++ m.q.flatMap bindSig)
  ++ d.hitch.flatMap (fun h => bytesOfNat 1 h.c ++ bytesOfNat 1 h.m.toNat
    ++ bools [h.st == .free, h.st == .armed, h.late] ++ h.signed.flatMap sign ++ h.held.flatMap sign)
  ++ d.ops.flatMap (fun o => insn o.ins ++ words o.vals ++ (o.signers.flatMap fun id => bytesOfNat 2 id.tid) ++ sp o.tc ++ bytesOfNat 4 o.pc.toNat)
  ++ bytesOfNat 8 d.mstat.ops.toNat ++ words [d.mstat.maxu, d.mstat.maxa] ++ bytesOfNat 4 d.mstat.prog
  ++ bools [d.mstat.active, d.mstat.nan, d.mstat.fail] ++ bytesOfNat 1 d.mstat.fcol.toNat ++ bytesOfNat 1 d.mstat.kind.toNat
  ++ sp d.scratch ++ sp d.tiles ++ sp d.tc ++ sp d.acc ++ d.pm.flatMap fun e => bytesOfNat 1 e.toNat

def waitsCommit (t : Thread) : Bool :=
  match t.status with
  | .waiting (.commit ..) => true
  | _ => false
/-- Whether every non-exited thread of a block waits at a `commit`, and one does. -/
def State.allCommit (s : State) (blk : Nat) : Bool :=
  (s.blockThreads blk).all (fun t => t.status == .exited || waitsCommit t) && (s.blockThreads blk).any waitsCommit
/-- Stores of a commit of a block on their way from the slices (R196 step 3). -/
def State.cmtOpen (s : State) (blk : Nat) : Bool := (s.wbs.any fun w => w.cmt == some blk) || s.merges.any fun m => m.wb.cmt == some blk
/-- A mismatch of a redundant pair (R204, R205): the block stops and rolls back; a second before a newer checkpoint is valid kills it, which
SIGNATURE_COMPARE does for a block that is `rolling` with its mark set. -/
def State.mismatched (s : State) (blk : Nat) : State :=
  let s : State := { s with strings := (s.strings.map fun c => { c with members := c.members.filter fun id => id.blk != blk }).filter fun c => !c.members.isEmpty }
  State.push (s.modBlock blk fun b => { b with rolling := true }) (.signatureCompare blk 0)
/-- A thread whose `commit` completes while a pre-emption is pending stops there (R188). -/
def Thread.stopAt (t : Thread) : Thread :=
  match t.status with
  | .waiting (.commit g p r) => { t with status := .stopped g p r }
  | _ => t
/-- The checkpoint of a commit (R196): once the stores of the earlier commit are released, the image is written into the free
half, which becomes valid; the buffered stores are then released, and the threads go on. In a redundant block the state of the
two sides is compared first (R202). -/
def State.commitCheck (s : State) (blk : Nat) : State :=
  match s.block? blk with
  | none => s
  | some b =>
    if s.allCommit blk && b.releasing.isEmpty && !s.cmtOpen blk && !s.busy blk && !b.arrayBusy && !s.sigsOpen blk && !b.rolling then
      if b.shape.red && crc32c (sideSig (s.imageOf b) false) != crc32c (sideSig (s.imageOf b) true) then s.mismatched blk
      else if !s.ckptOk b then s.lose blk
      else
        let s := s.snap blk []
        let s : State := { s with threads := s.threads.map fun t => if t.id.blk == blk && waitsCommit t then (if b.preempt then t.stopAt else t.resume) else t }
        let s := if b.preempt then s.push (.blockSave blk) else s
        State.push (s.modBlock blk fun b => { b with releasing := b.sbuf, sbuf := [] }) (.commitStoreRelease blk)
    else s

/-! COMMIT_STORE_RELEASE: the home slices release buffered stores (R196 step 3, R198 step 2). -/

/-- What a block's array waits to do is looked at again: its pending operations, and its fires that wait. -/
def State.wakeMat (s : State) (blk : Nat) : State :=
  match s.block? blk with
  | none => s
  | some b =>
    let evs (w : Bool) : List Ev :=
      (((b.side w).ops.filter (!·.running)).map fun o => .pendingMatrixOpBegin blk w o.id)
      ++ ((List.range 16).filter fun k => ((b.side w).hitch.getD k Hitch.reset).late).map fun k => .hitchFireComplete blk w (BitVec.ofNat 4 k)
    (evs false ++ evs true).foldl State.ask s
/-- A block's fires that wait for room in its store buffer (R197). -/
def Block.waitsRoom (b : Block) : Bool := b.lead.hitch.any fun h => h.room

/-- Buffered cells sent out as a release of .dev scope: to their homes, or into the scratch of other blocks. The core keeps no older
copy of them (R72). -/
def State.releaseCells (s : State) (b : Block) : State :=
  let id : ThreadId := { blk := b.id, wheel := false, tid := 0 }
  let s := s.forget b.core false (b.releasing.filterMap fun c => match c.loc with | .mem pa => some pa | .scr .. => none)
  let s := b.releasing.foldl (fun s c => match c.loc with | .scr k o => s.putScr id k o c.val | .mem _ => s) s
  s.sendCells b.core (b.releasing.filterMap fun c => match c.loc with | .mem pa => some ((pa, c.val), c.key) | .scr .. => none) (some b.id)
/-- A cell goes to a scratchpad that is being saved or restored, and is held (R59). -/
def State.cellsHeld (s : State) (b : Block) : Bool := b.releasing.any fun c => s.scrHeld (some c.loc)
/-- Threads of one word that wait for the same implicit commit: those of the first waiting thread's team. -/
def grantee (f t : Thread) : Bool := waitsIrrev t && t.id.blk == f.id.blk && teamIdx t.id == teamIdx f.id && t.pc == f.pc
def State.grant (s : State) (blk : Nat) : State :=
  match (s.blockThreads blk).find? waitsIrrev with
  | none => s
  | some f => { s with threads := s.threads.map fun t => if grantee f t then { t with status := .ready, granted := true } else t }

/-- COMMIT_STORE_RELEASE. Cells of an earlier commit go out first. Then, where threads have been stopped for an implicit commit and
the block is quiet: for an irrevocable operation the buffer is released and, once that is done, the word is granted (R198); for
a full staging area the checkpoint is taken, becomes valid and the buffer is released (R197). -/
def commitRelease (blk : Nat) (s : State) : State :=
  match s.block? blk with
  | none => s
  | some b =>
    if !b.releasing.isEmpty && s.cellsHeld b then s.push (.commitStoreRelease blk)
    else if !b.releasing.isEmpty && !s.stageOk b then (s.modBlock blk fun b => { b with releasing := b.releasing.take 65536 }).lose blk
    else if !b.releasing.isEmpty then
      let s := (s.releaseCells b).modBlock blk fun b => { b with releasing := [] }
      if b.quiesce then s.push (.commitStoreRelease blk) else s.commitCheck blk
    else if b.rolling then s
    else if !b.quiesce then
      (if s.allCommit blk then (let s := s.commitCheck blk; if s.allCommit blk then s.push (.commitStoreRelease blk) else s) else s)
    else if !s.quiet b then (if s.wantsCommit blk then s.push (.commitStoreRelease blk) else s.modBlock blk fun b => { b with quiesce := false })
    else if (s.blockThreads blk).any waitsIrrev then
      if !b.sbuf.isEmpty then State.push (s.modBlock blk fun b => { b with releasing := b.sbuf, sbuf := [] }) (.commitStoreRelease blk)
      else if s.cmtOpen blk then s.push (.commitStoreRelease blk)
      else if !s.ckptOk b then s.lose blk
      else s.grant blk
    else if (s.blockThreads blk).any waitsStaging || b.waitsRoom then
      if !s.ckptOk b then s.lose blk
      else
      let s := s.snap blk []
      let s : State := { s with threads := s.threads.map fun t => if t.id.blk == blk && waitsStaging t then { t with status := .ready } else t }
      State.push ((s.modBlock blk fun b => { b with releasing := b.sbuf, sbuf := [], quiesce := false }).wakeMat blk) (.commitStoreRelease blk)
    else s.modBlock blk fun b => { b with quiesce := false }

def execCommitStoreRelease (blk : Nat) (s : State) : Out := .next (commitRelease blk s).tick

/-! Fences (R290). -/

/-- `fence`: a release of its scope and, when it completes, an acquire (R290). The string does not pass it before that; R16 names no
stop of a thread there. -/
def execFence (q : PReg) (sc : Scope) (s : State) : Out :=
  heldFrom s.nextId <| execEach (.fence q sc) (fun s _ t => s.orderStall t)
    (fun _ id s =>
      let n := s.nextId
      let s := s.beginRelease id sc [] none
      { s with rels := s.rels.map fun r => if r.id == n then { r with acq := some sc } else r }) s

/-! Scopes (R66, Table 3.1). -/

/-- Two blocks of one block-group (R12). -/
def Block.mates (x b : Block) : Bool :=
  x.id == b.id || (x.launch == b.launch && x.grp == b.grp && x.shape.stage == b.shape.stage && b.shape.gsize != 0 && x.shape.gsize == b.shape.gsize)
/-- Who an ordering operation of a thread may reach: a thread of this package, an engine of it, another package's threads and engines, the host
at queue events. -/
inductive Party where
  | thread (id : ThreadId)
  | engine
  | far (pkg : Nat)
  | host
deriving DecidableEq, Repr
/-- Whether a party lies in the scope of a thread's operation: the set that Table 3.1 gives. -/
def State.inScope (s : State) (sc : Scope) (id : ThreadId) (p : Party) : Bool :=
  match p with
  | .thread t =>
    (match sc with
     | .blk => t.blk == id.blk
     | .grp => (match s.block? t.blk, s.block? id.blk with | some x, some b => x.mates b | _, _ => false)
     | .dev | .dom | .sys => true)
  | .engine => sc == .dev || sc == .dom || sc == .sys
  | .far pkg => (sc == .dom || sc == .sys) && (s.domPos pkg).isSome
  | .host => sc == .sys
/-- Operations of two threads are scope-inclusive: each thread lies in the scope of the other's operation. -/
def State.scopeInclusive (s : State) (a : ThreadId) (sa : Scope) (b : ThreadId) (sb : Scope) : Bool :=
  s.inScope sa a (.thread b) && s.inScope sb b (.thread a)

/-! Barriers (R29 to R31, R291). -/

def BarKind.scope : BarKind → Scope
  | .blk => .blk | .grp => .grp | .grid => .dev
/-- The blocks over which a barrier counts: those that have neither retired nor been killed for good. -/
def State.barBlocks (s : State) (b : Block) (k : BarKind) : List Block :=
  s.blocks.filter fun x => x.state != .retired &&
    (match k with
     | .blk => x.id == b.id
     | .grp => x.mates b
     | .grid => x.launch == b.launch)
/-- A thread has exited or arrived. -/
def arrived (k : BarKind) (t : Thread) : Bool :=
  match t.status with
  | .exited => true
  | .waiting (.barrier k' none) => k' == k
  | _ => false
def atBarrier (k : BarKind) (t : Thread) : Bool := t.status == .waiting (.barrier k none)
/-- A completed barrier: every arrived thread goes on behind its acquire; an arrival that a checkpoint of a block awaiting its
relaunch records is completed there. -/
def State.barRelease (s : State) (bs : List Block) (k : BarKind) : State :=
  let ids := bs.map (·.id)
  let s := (bs.filter (fun b => b.state == .running)).foldl (fun s b => s.acquire b.core k.scope) s
  { s with
    threads := s.threads.map fun t => if ids.contains t.id.blk && atBarrier k t then t.resume else t
    blocks := s.blocks.map fun b =>
      if ids.contains b.id && b.state == .killed then
        b.modImages fun im => { im with threads := im.threads.map fun t => if atBarrier k t then t.resume else t }
      else b }
/-- BARRIER_COMPLETE (R29). -/
def State.barCheck (s : State) (blk : Nat) (k : BarKind) : State :=
  match s.block? blk with
  | none => s
  | some b =>
    let bs := s.barBlocks b k
    let ts := bs.flatMap fun x => s.blockThreads x.id
    if ts.all (arrived k) && ts.any (atBarrier k) then s.barRelease bs k else s
def State.barCheckAll (s : State) (blk : Nat) : State := ((s.barCheck blk .blk).barCheck blk .grp).barCheck blk .grid

/-- A barrier word: a release of its scope, then the arrival, which RELEASE_COMPLETE makes (R30). -/
def barWord (i : Instr) (k : BarKind) (s : State) : Out :=
  execEach i (fun s _ t => s.orderStall t) (fun c id s =>
    if k == .grid && !(match s.block? id.blk with | some b => b.shape.cores | none => false) then s.raise id c.pc .illegalOp 0 0 true
    else
      let n := s.nextId
      (s.beginRelease id k.scope [] none).modThread id fun t => { t with status := .waiting (.barrier k (some n)) }) s

def execBarBlk (q : PReg) (s : State) : Out := barWord (.barBlk q) .blk s
def execBarGrp (q : PReg) (s : State) : Out := barWord (.barGrp q) .grp s
/-- Legal only in a launch accepted as co-resident (R31). -/
def execBarGrid (q : PReg) (s : State) : Out := barWord (.barGrid q) .grid s

/-! `wait` (R299). -/

def counted (t : Thread) (nl ns na nt : BitVec 6) : Bool :=
  decide (t.ld ≤ nl.toNat ∧ t.st ≤ ns.toNat ∧ t.as ≤ na.toNat ∧ t.tl ≤ nt.toNat)
def execWait (q : PReg) (nl ns na nt : BitVec 6) (s : State) : Out :=
  execEach (.wait q nl ns na nt) noStall (fun _ id s =>
    s.modThread id fun t => if counted t nl ns na nt then t else { t with status := .waiting (.counters nl ns na nt) }) s

end Sys2Proof.Machine
end

