-- ==== Sys2Proof/Machine/Blocks.lean ====
section
/-! DEFINITION. The end of blocks, records and launches: freeing a relay slot (R35, R39), the counts of code objects (R370), failing
a launch (R34), killing a block (R45, R193, R199, R31). -/

namespace Sys2Proof.Machine

/-! Code objects (R370, R388). -/

/-- Records that name an object, over all dies. -/
def State.objCount (s : State) (a : Nat) : Nat := sumL ((List.range 8).map fun d => s.objField a (768 + 32 * d + 31) (768 + 32 * d))
/-- A draining object whose count is zero is released, and UNLOAD_READY posted. -/
def State.drainCheck (s : State) (part : BitVec 6) (handle : Word) : State :=
  match s.objLoaded part handle with
  | none => s
  | some a =>
    if s.objField a 1 0 == 2 && s.objCount a == 0 then
      State.postFault { s with mem := wr s.mem a (BitVec.ofNat 8 (s.objField a 7 2 * 4 + 3)) } part { kind := 4, object := handle }
    else s
/-- The count of a die changed by a record that takes or leaves a slot. -/
def State.objRef (s : State) (part : BitVec 6) (handle : Word) (die : Nat) (up : Bool) : State :=
  match s.objLoaded part handle with
  | none => s
  | some a =>
    let n := s.objField a (768 + 32 * die + 31) (768 + 32 * die)
    let s : State := { s with mem := wrNat s.mem (a + 96 + 4 * die) 4 (if up then n + 1 else n - 1) }
    if up then s else s.drainCheck part handle

/-! Relay slots and outstanding counts (R35, R39, R47). -/

/-- The generation of a slot (R35). -/
def State.slotGen (s : State) (part : BitVec 6) (die slot : Nat) : BitVec 8 :=
  match s.areas.find? (fun a => a.part == part && a.die == die) with
  | some a => rd a.gens slot
  | none => 0
def State.areaMod (s : State) (part : BitVec 6) (die : Nat) (f : RelayArea → RelayArea) : State :=
  { s with areas := s.areas.map fun a => if a.part == part && a.die == die then f a else a }
/-- Records of a launch are counted off; at zero the launch completes (R47, R379). -/
def State.launchLess (s : State) (l n : Nat) : State :=
  let s := s.modLaunch l fun x => { x with outstanding := x.outstanding - n }
  match s.launch? l with
  | some x => if x.outstanding == 0 then s.push (.launchComplete l) else s
  | none => s
/-- A record's slot freed: the generation advances, the object and the launch are counted down, paused generation may resume. -/
def State.freeRecord (s : State) (r : Record) : State :=
  let s : State := { s with records := s.records.filter fun x => !(x.part == r.part && x.die == r.die && x.slot == r.slot) }
  let s := s.areaMod r.part r.die fun a => { a with gens := wr a.gens r.slot (rd a.gens r.slot + 1) }
  let s := (s.objRef r.part r.object r.die false).launchLess r.launch 1
  (s.launches.filter (fun l => l.part == r.part && l.paused.any fun p => p.1 == r.die)).foldl
    (fun s l => s.push (.recordGenerationResume l.id r.die)) s
/-- The record that a block came from. -/
def State.recordOf (s : State) (b : Block) : Option Record :=
  s.records.find? fun r => r.part == b.part && r.handle == b.handle && r.state == .running

/-- The records of a failed or cancelled launch that are ready, and for a cancelled one those held, are freed unrun (R34, R381);
its blocks already admitted run. -/
def State.sweepLaunch (s : State) (l : Nat) : State :=
  match s.launch? l with
  | none => s
  | some x =>
    if !x.cancelled && x.failed.isNone then s
    else
      let s : State := { s with blocks := s.blocks.map fun b => if b.launch == l && b.state == .admitted then { b with state := .running } else b }
      let s := x.paused.foldl (fun s p => s.push (.recordGenerationResume l p.1)) s
      (s.records.filter fun r => r.launch == l && (if x.cancelled then r.state != .running else r.state == .ready)).foldl
        (fun s r => s.freeRecord r) s
/-- A launch fails (R34): the first reason stays. -/
def State.failLaunch (s : State) (l : Nat) (reason : BitVec 8) : State :=
  (s.modLaunch l fun x => { x with failed := x.failed.or (some reason) }).sweepLaunch l

/-! The end of a block. -/

/-- A block leaves the machine with its threads, teams and work in flight; its slot and pool entry are free. Stores of a
commit that are being released go out all the same (R196). -/
def State.dropBlock (s : State) (b : Block) : State :=
  let s := (if b.releasing.isEmpty then s else s.releaseCells b).dropFlight b.id
  let s : State := { s with threads := s.threads.filter (fun t => t.id.blk != b.id), teams := s.teams.filter (fun m => m.blk != b.id),
                            blocks := s.blocks.filter (fun x => x.id != b.id), copyDone := s.copyDone.filter (fun d => d.th.blk != b.id),
                            bulkheads := s.bulkheads.map (fun x => { x with restore := x.restore.filter (· != b.id) }) }
  match s.recordOf b with
  | some r => s.freeRecord r
  | none => s
/-- Barriers that a vanished block may have completed (R29). -/
def State.barNeighbours (s : State) (b : Block) : State :=
  (s.blocks.filter fun x => x.launch == b.launch).foldl (fun s x => s.barCheckAll x.id) s
/-- A block that is killed as by CANCEL (R381): one that runs stops at its next clause boundary, where BLOCK_SAVE kills it; one not on
a core is killed now; a retiring one goes on. -/
def State.cancelBlock (s : State) (b : Block) : State :=
  match b.state with
  | .running | .saving => (s.modBlock b.id fun k => { k with doomed := true }).push (.blockSave b.id)
  | .retiring | .releasing => s
  | _ => s.dropBlock b
/-- A block killed for good: its launch fails; a co-resident launch loses every other block too (R31). -/
def State.killForGood (s : State) (b : Block) (reason : BitVec 8) : State :=
  let s := (s.dropBlock b).failLaunch b.launch reason
  if b.shape.cores then (s.blocks.filter fun x => x.launch == b.launch).foldl (fun s x => s.cancelBlock x) s
  else s.barNeighbours b
/-- The reason with which a block fails its launch: 0x11 in a co-resident launch (R31); else 0x12 for a contained block, whose
relaunches are used up (R199), and the given one for any other. -/
def Block.failReason (b : Block) (reason : BitVec 8) : BitVec 8 :=
  if b.shape.cores then 0x11 else if b.shape.cont || b.shape.red then 0x12 else reason
/-- A kill (Table 1.5): a contained block drops its uncommitted stores and awaits its relaunch from its valid checkpoint half or its
record, at most three times from one checkpoint (R199); any other fails its launch, and so does one that is doomed. `rec`: the driver
is told. A relaunch clears the mark of a mismatch: whether it outlives one is the model's choice (notes/assumptions/69.md). -/
def State.kill (s : State) (blk : Nat) (reason : BitVec 8) (rec : Option FqRecord) : State :=
  match s.block? blk with
  | none => s
  | some b =>
    if b.state == .killed then s
    else
      let s := match rec with | some r => s.postFault b.part r | none => s
      if b.doomed then s.dropBlock b
      else if (b.shape.cont || b.shape.red) && decide (b.relaunches < 3) then
        let s := s.rollback b
        State.push (s.modBlock blk fun x => { x with state := .killed, relaunches := x.relaunches + 1, preempt := false, forced := false, mismatch := false })
          (.containedRelaunch blk)
      else s.killForGood b (b.failReason reason)
/-- The record of an imprecise kill (Table 8.2): the thread and word that met it. -/
def killRecord (b : Block) (cause : Cause) (pc : Word) (tid : Nat) : FqRecord :=
  { handle := b.handle, pc := pc, object := b.object, tid := BitVec.ofNat 10 tid, cause := cause.code }
/-- A consumption of poisoned data (R193). -/
def State.consumed (s : State) (id : ThreadId) (pc : Word) : State :=
  match s.block? id.blk with
  | none => s
  | some b => s.kill id.blk 0x11 (some (killRecord b .ueConsumed pc id.tid))

/-! Poison in memory and scratchpads (R416, R417, R399). -/

/-- Whether a byte of memory is poisoned: marked, or on a die whose memory is lost. -/
def State.isPoison (s : State) (pa : Nat) : Bool := s.poison.contains (pa / 32) || (pkgOf pa == s.chip.toNat && s.lostDies.contains (dieOf pa))
def tilePoison (a : Nat) : Nat := a
def cellPoison (c : Nat) : Nat := 2 ^ 24 + c
def scrPoison (o : Nat) : Nat := 2 ^ 25 + o

/-- A block that occupies its core. -/
def Block.resident (b : Block) : Bool :=
  match b.state with
  | .saved | .held _ | .killed | .retired => false
  | _ => true

end Sys2Proof.Machine
end

