-- ==== Sys2Proof/Machine/Atomics.lean ====
section
/-! DEFINITION. Atomics and reductions (R88, R89, R112, R285 to R289): how their words issue, and the device steps that perform
an atomic at its home and merge an update-only line. -/

namespace Sys2Proof.Machine

/-- The k-th operand of B, of 32 or 64 bits (R286). -/
def atomArg (y : Sparse 32) (t : Thread) (b : Src) (wide : Bool) (k : Nat) : DWord :=
  if wide then bvalAt y t (2 * k + 1) b ++ bvalAt y t (2 * k) b else (bvalAt y t k b).setWidth 64
def atomSize (wide : Bool) : Nat := if wide then 8 else 4

/-- Where an atomic or a reduction reaches, with its checks (R273, R112, R117), and the denied index entries it met. -/
def State.atomPlace (s : State) (id : ThreadId) (va : DWord) (n : Nat) (k : AKind) :
    State × List Denial × Except Cause (Loc × BitVec 9) :=
  if isView va then
    match s.viewAccess id va n k true with
    | (s, ds, .error c) => (s, ds, .error c)
    | (s, ds, .ok bs) => (s, ds, .ok (.mem ((bs.head?.map (·.pa)).getD 0), (bs.head?.map (·.key)).getD 0))
  else
    match s.access id va n k with
    | (s, .error c) => (s, [], .error c)
    | (s, .ok a) => (s, [], .ok (a.loc, a.key))

/-- The check of an atomic (`.atomic`) or a reduction (`.write`) of one thread; denied index entries are logged all the same. -/
def atomChk (m : MemOp) (n : Nat) (k : AKind) (reps : ThreadId → List Denial) : Check := fun c id s =>
  match s.thread? id with
  | none => (s, none)
  | some t =>
    match s.atomPlace id (memVa m t) n k with
    | (s, _, .error cause) =>
      ((reps id).foldl (fun s e => s.reportDenied id (e.addr (memVa m t)) c.pc e.tag e.src) s, some (cause, memVa m t))
    | (s, _, .ok _) => (s, none)

/-- What keeps an atomic or a reduction from issuing: a counter at its limit, an acquire not served, a load not bound, the thread's
own stores that have not reached the home, a scratchpad in transition. -/
def State.atomStall (s : State) (t : Thread) (va : DWord) (n : Nat) (red : Bool) : Bool :=
  let ls := s.bytesOf t.id va n .write
  (if red then ctrFull t.st else ctrFull t.ld || s.lvFull t.id) || s.acqPending t.id || s.unbound t.id || s.viewOut t.id
  || s.ntOut t.id || s.sigPending t.id || (!isView va && s.scrHeld (s.locOf t.id va n .write))
  || s.relHolds t.id ls || s.atomHolds t.id ls || s.enqHolds t.id ls

/-- Denied index entries of one thread's access that no earlier acting thread of the word reports (R95, R108). -/
def State.atomReports (s : State) (ids : List ThreadId) (m : MemOp) (n : Nat) (k : AKind) (id : ThreadId) : List Denial :=
  let of (x : ThreadId) : List Denial :=
    match s.thread? x with
    | none => []
    | some t => (s.atomPlace x (memVa m t) n k).2.1
  let before := (ids.takeWhile (· != id)).flatMap of
  (of id).filter fun d => !before.any fun e => e.page == d.page

/-- The request of one thread goes out; with release ordering it follows the release (R73). -/
def atomSend (op : AtomOp) (scope : Scope) (ord : Ord) (wide : Bool) (d : GReg) (m : MemOp) (b : Src) (red : Bool) (word : Nat)
    (reps : ThreadId → List Denial) (c : Str) (id : ThreadId) (s : State) : State :=
  match s.thread? id with
  | none => s
  | some t =>
    let va := memVa m t
    let n := atomSize wide
    let regs := (atomOuts d wide 0).map (·.1)
    if s.isWheel id then
      if red then s
      else s.wheelTake id fun ws s => (s.takeWords c id regs ws).setFlags id ((ws.getLastD 0).setWidth 5)
    else
      match s.atomPlace id va n (if red then .write else .atomic) with
      | (s, _, .error _) => s
      | (s, _, .ok (loc, key)) =>
        let s := (reps id).foldl (fun s e => s.reportDenied id (e.addr va) c.pc e.tag e.src) s
        let bv := atomArg (s.yOf id) t b wide 0
        let core := s.coreOf id
        -- the thread's own dirty bytes go home before it (R72)
        let s := match loc with
          | .mem pa => s.flush core fun x => decide (pa ≤ x.pa ∧ x.pa < pa + n)
          | .scr .. => s
        let k := s.nextId
        match red && !isView va, loc with
        | true, .mem pa =>
          State.stRaise { s.bump with upd := s.upd ++ [{ id := k, th := id, core := core, pa := pa, key := key, op := op, wide := wide, val := bv }] } id
        | _, _ =>
          let acq := match ord with | .acq | .acqrel => some scope | _ => none
          let rel : Bool := ord == .rel || ord == .acqrel
          let s := if red then s else s.lvOpen id c.pc k
          let s : State := { s.bump with
            atoms := s.atoms ++ [{ id := k, th := id, pc := c.pc, core := core, op := op, wide := wide, acq := acq, dom := farScope scope, loc := loc, key := key, b := bv,
                                   c := if op == .cas then atomArg (s.yOf id) t b wide 1 else 0, dst := d, red := red, word := word }] }
          let s := s.modThread id fun t => if red then { t with st := t.st + 1 } else { t.addHold regs with ld := t.ld + 1 }
          if rel then s.beginRelease id scope [] (some (.atomicAtHome k)) else s.push (.atomicAtHome k)

/-- Signature of an atomic: its address and operands (R202). -/
def atomSig (m : MemOp) (b : Src) (wide : Bool) (n : Nat) (s : State) (t : Thread) : List Byte :=
  bytesOfNat 8 (memVa m t).toNat ++ (List.range n).flatMap fun k => bytesOfNat 8 (atomArg (s.yOf t.id) t b wide k).toNat

/-- An `atom` word. -/
def atomWord (i : Instr) (op : AtomOp) (x : AtomArgs) (s : State) : Out :=
  let n := atomSize x.wide
  let ids := match s.strings with | [] => [] | c :: _ => s.actors (guardOf i) c
  withIndex i x.mem n (execIrrev i (fun s _ t => s.atomStall t (memVa x.mem t) n false) (atomChk x.mem n .atomic (s.atomReports ids x.mem n .atomic))
    (atomSig x.mem x.b x.wide (if op == .cas then 2 else 1))
    (atomSend op x.scope x.ord x.wide x.d x.mem x.b false s.nextId (s.atomReports ids x.mem n .atomic))) s

def execAtomExch (q : PReg) (x : AtomArgs) (s : State) : Out := atomWord (.atomExch q x) .exch x s
def execAtomCas (q : PReg) (x : AtomArgs) (s : State) : Out := atomWord (.atomCas q x) .cas x s
def execAtomAdd (q : PReg) (x : AtomArgs) (s : State) : Out := atomWord (.atomAdd q x) .add x s
def execAtomAnd (q : PReg) (x : AtomArgs) (s : State) : Out := atomWord (.atomAnd q x) .and x s
def execAtomOr (q : PReg) (x : AtomArgs) (s : State) : Out := atomWord (.atomOr q x) .or x s
def execAtomXor (q : PReg) (x : AtomArgs) (s : State) : Out := atomWord (.atomXor q x) .xor x s
def execAtomMinI (q : PReg) (x : AtomArgs) (s : State) : Out := atomWord (.atomMinI q x) .minI x s
def execAtomMinN (q : PReg) (x : AtomArgs) (s : State) : Out := atomWord (.atomMinN q x) .minN x s
def execAtomMaxI (q : PReg) (x : AtomArgs) (s : State) : Out := atomWord (.atomMaxI q x) .maxI x s
def execAtomMaxN (q : PReg) (x : AtomArgs) (s : State) : Out := atomWord (.atomMaxN q x) .maxN x s
def execAtomFadd (q : PReg) (x : AtomArgs) (s : State) : Out := atomWord (.atomFadd q x) .fadd x s
def execAtomInc (q : PReg) (x : AtomArgs) (s : State) : Out := atomWord (.atomInc q x) .inc x s
def execAtomDec (q : PReg) (x : AtomArgs) (s : State) : Out := atomWord (.atomDec q x) .dec x s

/-- NV for signalling NaN operands, set when the word issues (R288). -/
def redFlags (op : AtomOp) (x : RedArgs) (s : State) (t : Thread) : Flags5 :=
  if op == .fadd && ((if x.wide then f64 else f32).val (atomArg (s.yOf t.id) t x.b x.wide 0).toNat).isSig then flNV else 0
/-- A `red` word: a relaxed read-modify-write placed at its merge (R287). -/
def redWord (i : Instr) (op : AtomOp) (x : RedArgs) (s : State) : Out :=
  let n := atomSize x.wide
  let ids := match s.strings with | [] => [] | c :: _ => s.actors (guardOf i) c
  withIndex i x.mem n (execIrrev i (fun s _ t => s.atomStall t (memVa x.mem t) n true) (atomChk x.mem n .write (s.atomReports ids x.mem n .write)) (atomSig x.mem x.b x.wide 1)
    (fun c id s =>
      let s := match s.thread? id with | some t => s.setFlags id (redFlags op x s t) | none => s
      atomSend op x.scope .relaxed x.wide 0 x.mem x.b true s.nextId (s.atomReports ids x.mem n .write) c id s)) s

def execRedAdd (q : PReg) (x : RedArgs) (s : State) : Out := redWord (.redAdd q x) .add x s
def execRedAnd (q : PReg) (x : RedArgs) (s : State) : Out := redWord (.redAnd q x) .and x s
def execRedOr (q : PReg) (x : RedArgs) (s : State) : Out := redWord (.redOr q x) .or x s
def execRedXor (q : PReg) (x : RedArgs) (s : State) : Out := redWord (.redXor q x) .xor x s
def execRedMinI (q : PReg) (x : RedArgs) (s : State) : Out := redWord (.redMinI q x) .minI x s
def execRedMinN (q : PReg) (x : RedArgs) (s : State) : Out := redWord (.redMinN q x) .minN x s
def execRedMaxI (q : PReg) (x : RedArgs) (s : State) : Out := redWord (.redMaxI q x) .maxI x s
def execRedMaxN (q : PReg) (x : RedArgs) (s : State) : Out := redWord (.redMaxN q x) .maxN x s
def execRedFadd (q : PReg) (x : RedArgs) (s : State) : Out := redWord (.redFadd q x) .fadd x s

/-! ATOMIC_AT_HOME: one read-modify-write at the home, at the owning scratchpad or at the home of a view element (R286). -/

/-- Two accesses of n and k bytes meet. -/
def meets (pa n qa k : Nat) : Bool := decide (pa < qa + k ∧ qa < pa + n)
def atomMeets (a b : AtomReq) : Bool :=
  match a.loc, b.loc with
  | .mem x, .mem y => meets x (atomSize a.wide) y (atomSize b.wide)
  | .scr i x, .scr j y => i == j && meets x (atomSize a.wide) y (atomSize b.wide)
  | _, _ => false
/-- Earlier requests of the word, or of the thread, to the same bytes come first (R72, R289). -/
def State.atomBehind (s : State) (a : AtomReq) : Bool :=
  s.atoms.any fun b => decide (b.id < a.id) && (b.word == a.word || b.th == a.th) && atomMeets a b

/-- The value of an operation written back, where it writes. -/
def atomCells (pa : Nat) (wide : Bool) (v : Option Nat) : List Host.Cell :=
  match v with
  | some x => memCells pa (bytesOfNat (atomSize wide) x)
  | none => []

/-- The end of an atomic: its value is on its way to its registers, or its reduction is merged. -/
def State.atomDone (s : State) (a : AtomReq) (m : Nat) (fl : Flags5) (poisoned : Bool) : State :=
  let s : State := { s with atoms := s.atoms.filter fun x => x.id != a.id }
  if a.red then s.deliver a.th (fun _ => true) fun t => { t with st := t.st - 1 }
  else
    let s := match a.acq with | some sc => s.acquire a.core sc | none => s
    s.sendRet a.th a.id (atomOuts a.dst a.wide m) [] true poisoned fl a.pc (word := some a.word)

/-- One copy of a scratchpad after the operation. -/
def Side.atom (d : Side) (a : AtomReq) (off : Nat) : Side :=
  let m := rdNat d.scratch off (atomSize a.wide)
  match (atomFn a.op a.wide m a.b.toNat a.c.toNat).1 with
  | some v => { d with scratch := wrNat d.scratch off (atomSize a.wide) v }
  | none => d

def atomicAtHome (id : Nat) (s : State) : State :=
  match s.atoms.find? (fun a => a.id == id) with
  | none => s
  | some a =>
    let n := atomSize a.wide
    if s.atomBehind a then s.push (.atomicAtHome id)
    else
      match a.loc with
      | .scr b off =>
        match s.block? b with
        | none => s.atomDone a 0 0 false
        | some x =>
          if b != a.th.blk && (x.state == .saving || x.state == .restoring) then s.push (.atomicAtHome id)
          else
            let m := rdNat x.lead.scratch off n
            let bad := (List.range n).any fun k => x.lead.poison.contains (scrPoison (off + k))
            (s.modBlock b fun x => { x with lead := x.lead.atom a off, wheels := if x.shape.red then x.wheels.atom a off else x.wheels }).atomDone
              a m (atomFn a.op a.wide m a.b.toNat a.c.toNat).2 bad
      | .mem pa =>
        if (List.range n).any (fun k => s.wbInFlight a.core (pa + k)) then s.push (.atomicAtHome id)
        else if s.homeBusy pa n then (s.homeAsk pa n).push (.atomicAtHome id)
        else
          let m := natOfBytes ((List.range n).map fun k => s.homeByte (pa + k) a.key)
          let bad := (List.range n).any fun k => s.isPoison (pa + k)
          let r := atomFn a.op a.wide m a.b.toNat a.c.toNat
          let s := s.forget a.core true ((List.range n).map (pa + ·))
          (s.homeWrite a.core (some a.th) (atomCells pa a.wide r.1) a.key a.dom).atomDone a m r.2 bad
def execAtomicAtHome (id : Nat) (s : State) : Out := .next (atomicAtHome id s).tick

/-! UPDATE_LINE_MERGE (R88, R89): the core's pending operands for a line are merged at the home. Which operand is taken next, and
whether it is first combined with another of the same bytes and operation, is left open (R89) and drawn as a free choice; operations
of one thread on the same bytes that differ in kind keep their order (R72). -/

def updMeets (u v : UpdOp) : Bool := meets u.pa (atomSize u.wide) v.pa (atomSize v.wide)
def updAlike (u v : UpdOp) : Bool := u.op == v.op && u.wide == v.wide && u.pa == v.pa
/-- No earlier operation of the thread of another kind is left on its bytes. -/
def updFree (us : List UpdOp) (u : UpdOp) : Bool :=
  !us.any fun v => decide (v.id < u.id) && v.th == u.th && updMeets v u && !updAlike v u
/-- Two operands made one. -/
def updCombine (u v : UpdOp) : UpdOp :=
  match (atomFn u.op u.wide u.val.toNat v.val.toNat 0).1 with
  | some x => { u with val := BitVec.ofNat 64 x }
  | none => u
/-- A value of the line as merged so far. -/
def updRead (s : State) (acc : List Host.Cell) (u : UpdOp) : Nat :=
  natOfBytes ((List.range (atomSize u.wide)).map fun k =>
    match acc.find? fun c => c.1 == u.pa + k with
    | some c => c.2
    | none => s.homeByte (u.pa + k) u.key)
/-- The operands of a line taken one by one; the result is the cells to write, newest first, and the numbers drawn. -/
def mergeOps (s : State) : Nat → Nat → List UpdOp → List Host.Cell → List Host.Cell × Nat
  | 0, ctr, _, acc => (acc, ctr)
  | n + 1, ctr, us, acc =>
    let free := us.filter (updFree us)
    match free[Config.choice ctr % free.length]? with
    | none => (acc, ctr)
    | some u =>
      let rest := us.filter fun x => x.id != u.id
      let pair := rest.filter fun v => updAlike u v && updFree us v
      match pair[Config.choice (ctr + 1) % (pair.length + 1)]? with
      | some v => mergeOps s n (ctr + 2) (updCombine u v :: rest.filter fun x => x.id != v.id) acc
      | none =>
        let r := atomFn u.op u.wide (updRead s acc u) u.val.toNat 0
        mergeOps s n (ctr + 2) rest (atomCells u.pa u.wide r.1 ++ acc)
/-- The last value of each byte. -/
def lastCells (cells : List Host.Cell) : List Host.Cell :=
  cells.foldl (fun acc c => if acc.any (fun x => x.1 == c.1) then acc else acc ++ [c]) []

def updateLineMerge (core line : Nat) (s : State) : State :=
  let us := s.upd.filter fun u => u.core == core && lineOf u.pa == line
  if us.isEmpty then s
  else if us.any (fun u => (s.wbs.any fun w => w.core == core && decide (w.id < u.id) && w.cells.any fun c => decide (u.pa ≤ c.1 ∧ c.1 < u.pa + atomSize u.wide))
      || (List.range (atomSize u.wide)).any fun k => s.underMerge (u.pa + k) || s.frameWait (u.pa + k) || s.pkgLost (pkgOf u.pa)) then
    s.push (.updateLineMerge core line)
  else if s.needsDiscovery line then (s.push (.discovery line)).push (.updateLineMerge core line)
  else
    let r := mergeOps s us.length s.freeCtr us []
    let s : State := { s with upd := s.upd.filter (fun u => !(u.core == core && lineOf u.pa == line)), freeCtr := r.2 }
    s.homeWrite core none (lastCells r.1) ((us.head?.map (·.key)).getD 0)
def execUpdateLineMerge (core line : Nat) (s : State) : Out := .next (updateLineMerge core line s).tick

end Sys2Proof.Machine
end

