-- ==== Sys2Proof/Machine/Queues.lean ====
section
/-! DEFINITION. Queues (R119 to R129, R295, R296): control blocks and their checks, the four queue instructions, and the device
steps of the home slice. -/

namespace Sys2Proof.Machine

/-! The control block (Table 5.1) as a 512-bit natural. -/

def qEs (q : Nat) : Nat := 4 * 2 ^ bitsN q 18 16
def qCap (q : Nat) : Nat := 2 ^ bitsN q 23 19
def qScope (q : Nat) : Nat := bitsN q 26 24
def qBroken (q : Nat) : Bool := bitsN q 27 27 == 1
def qHead (q : Nat) : Nat := bitsN q 95 64
def qTail (q : Nat) : Nat := bitsN q 127 96
def qFree (q : Nat) : Nat := bitsN q 159 128
def qRing (q : Nat) : Nat := bitsN q 319 256
/-- Elements held. -/
def qHeld (q : Nat) : Nat := (qTail q + 2 ^ 32 - qHead q) % 2 ^ 32
/-- CHECK (R120). -/
def qCheck (q : Nat) : Nat :=
  let x (a b : Nat) : Nat := Nat.xor a b
  x (x (x (x (x (x 0xffff (bitsN q 15 0)) (bitsN q 31 16 - (if qBroken q then 2048 else 0))) (bitsN q 271 256)) (bitsN q 287 272))
    (bitsN q 303 288)) (bitsN q 319 304)
/-- Every check of R120 but BROKEN; `ewl`, `dwl`: the slice's own list heads. -/
def qOk (q : Nat) (ewl dwl : Nat) : Bool :=
  bitsN q 3 0 == 1 && bitsN q 15 4 == 0xd95 && bitsN q 31 28 == 0 && bitsN q 63 48 == 0 && bitsN q 191 160 == 0 && bitsN q 511 320 == 0
  && decide (bitsN q 18 16 ≤ 5 ∧ 1 ≤ bitsN q 23 19 ∧ bitsN q 23 19 ≤ 24 ∧ qScope q ≤ 4)
  && qCheck q == bitsN q 47 32 && decide (qRing q < 2 ^ 56) && qRing q % qEs q == 0
  && decide (qHeld q ≤ qCap q) && qFree q == qCap q - qHeld q && bitsN q 223 192 == ewl && bitsN q 255 224 == dwl

def scopeOf (n : Nat) : Scope := match n with | 0 => .blk | 1 => .grp | 2 => .dev | 3 => .dom | _ => .sys

/-- The waiters of a kind at a control block, in order of acceptance. -/
def State.waiters (s : State) (pa : Nat) (enq : Bool) : List QReq := s.qreqs.filter fun r => r.waiting && r.qcbPa == pa && r.enq == enq
/-- What the list head field holds: 0, or a value that names the head (its encoding is the implementation's). -/
def headVal (l : List QReq) : Nat :=
  match l with
  | [] => 0
  | r :: _ => (Config.waiterHead r.id).toNat + 1
def State.qcbAt (s : State) (pa : Nat) (key : BitVec 9) : Nat := natOfBytes ((List.range 64).map fun k => s.homeByte (pa + k) key)
def State.qcbOk (s : State) (pa q : Nat) : Bool := qOk q (headVal (s.waiters pa true)) (headVal (s.waiters pa false))
/-- A field of a control block written by its slice. -/
def State.qPut (s : State) (pa : Nat) (key : BitVec 9) (off n v : Nat) (dom : Bool := false) : State :=
  s.homeWrite devCore none (memCells (pa + off) (bytesOfNat n v)) key dom
/-- EWL and DWL brought in line with the slice's lists. -/
def State.qSync (s : State) (pa : Nat) (key : BitVec 9) : State :=
  s.qPut pa key 24 8 (headVal (s.waiters pa true) + 2 ^ 32 * headVal (s.waiters pa false))

def State.modReq (s : State) (id : Nat) (f : QReq → QReq) : State :=
  { s with qreqs := s.qreqs.map fun r => if r.id == id then f r else r }
def QReq.n (r : QReq) : Nat := r.ths.length
/-- Whether a request's element count and size are admitted (R121 step 4). -/
def QReq.fits (r : QReq) (q : Nat) : Bool :=
  r.es == qEs q && (!r.team || (decide (r.n ≤ qCap q) && (r.try_ || decide (r.n ≤ qCap q / 2))))
/-- Slots taken by enqueues that proceed and have not advanced TAIL yet: the data movement of operations may overlap (R122). -/
def State.qMoving (s : State) (pa : Nat) : Nat := sumL ((s.qreqs.filter fun r => r.qcbPa == pa && r.moving.isSome).map QReq.n)
/-- Whether space or elements are there (R122). -/
def State.qRoom (s : State) (r : QReq) (q : Nat) : Bool :=
  if r.enq then decide (r.n + s.qMoving r.qcbPa ≤ qFree q) else decide (r.n ≤ qHeld q)

/-! The instructions (R295, R296). -/

/-- The checks at the core (R121 step 1): ALIGN, then translation and the write check of the control block (R124). -/
def State.qPlace (s : State) (id : ThreadId) (va : DWord) (k : AKind) : State × Except Cause Acc :=
  if va.toNat % 64 != 0 then (s, .error .align)
  else
    match s.block? id.blk with
    | none => (s, .error .xlate)
    | some b =>
      if 2 ^ 56 ≤ va.toNat then (s, .error .xlate)
      else
        match s.globAccess (.core b.core) b.part b.handle b.principal va.toNat k with
        | (s, .ok a) => (match a.loc with | .mem pa => if s.isRemote pa then (s, .error .xlate) else (s, .ok a) | .scr .. => (s, .error .xlate))
        | r => r

/-- A failed check (R126): BROKEN is set, every waiter of both lists is released with status BROKEN, the heads are cleared. A
waiter at a queue register traps in its place. -/
def State.qBreak (s : State) (pa : Nat) (key : BitVec 9) (q : Nat) : State :=
  let ws := s.waiters pa true ++ s.waiters pa false
  let s := ws.foldl (fun s r =>
    ((s.modReq r.id fun r => { r with waiting := false, result := some (3, []), trap := if r.qreg.isSome then some (.qcbCorrupt, r.qcb) else none }).opDone
      ((r.ths.head?.map (·.blk)).getD 0) r.id).push (.queueRequestComplete r.id)) s
  (s.qPut pa key 3 1 (bitsN q 31 24 + (if qBroken q then 0 else 8))).qSync pa key

/-- The element registers of a thread. -/
def elemWords (t : Thread) (b : GReg) (es : Nat) : List Word := (List.range (es / 4)).map fun j => t.gr (b + BitVec.ofNat 7 j)
def elemRegs (b : GReg) (es : Nat) : List GReg := (List.range (es / 4)).map fun j => b + BitVec.ofNat 7 j

/-- A request for some threads of one team. -/
def State.qMake (s : State) (enq try_ : Bool) (c : Str) (va : DWord) (a : Acc) (es : Nat) (scope : Option Scope) (dst : GReg) (stat : Option GReg)
    (qreg : Option QReg) (team : Bool) (elems : List (List Word)) (word : Nat) (ths : List ThreadId) : QReq :=
  let l : ThreadId := ths.headD default
  let b := (s.block? l.blk).getD default
  let pa : Nat := match a.loc with | .mem pa => pa | .scr .. => 0
  { id := s.nextId, enq := enq, try_ := try_, team := team, part := b.part, handle := b.handle, principal := b.principal, ths := ths, elems := elems,
    qcb := va, qcbPa := pa, key := a.key, es := es, scope := scope.getD (scopeOf (qScope (s.qcbAt pa a.key))), dst := dst, stat := stat,
    qreg := qreg, core := b.core, pc := c.pc, word := word, rels := [], waiting := false, refused := false, moving := none, result := none,
    trap := none, poisoned := false }

/-- Registers a request writes. -/
def QReq.regs (r : QReq) : List GReg := (if r.enq then [] else elemRegs r.dst r.es) ++ r.stat.toList
/-- The counter of each thread of a request raised; its threads wait, or in a try form go on with their destinations held. -/
def State.qRaise (s : State) (r : QReq) : State :=
  r.ths.foldl (fun s id => s.modThread id fun t =>
    let t := if r.enq then { t with st := t.st + 1 } else { t with ld := t.ld + 1 }
    if r.try_ then t.addHold r.regs else { t with status := .waiting (.queue r.id), granted := false }) s
/-- A blocking request goes out: an enqueue behind its releases (R124), a dequeue behind its own thread's stores (R72). -/
def State.qSend (s : State) (r : QReq) : State :=
  let s := s.bump
  let s : State := s.flush r.core fun x => r.ths.any x.dirty.contains || decide (r.qcbPa ≤ x.pa ∧ x.pa < r.qcbPa + 64)
  let s := { s with qreqs := s.qreqs ++ [r] }
  let s := if r.enq then
      r.ths.foldl (fun s id =>
        let n := s.nextId
        (s.beginRelease id r.scope [] none).modReq r.id fun r => { r with rels := r.rels ++ [n] }) s
    else r.ths.foldl (fun s id => s.lvOpen id r.pc r.id) s
  (s.qRaise r).push (.queueRequest r.id)

/-- Status words of enqueues also pass to the wheeler (R201). -/
def State.qOpenStat (s : State) (r : QReq) : State :=
  if r.enq && r.stat.isSome then r.ths.foldl (fun s id => s.lvOpen id r.pc r.id) s else s

/-- A wheeler takes what its leader received: the registers a request writes. A word 0 says the status alone was written. -/
def qTake (regs : List GReg) (stat : Option GReg) (c : Str) (id : ThreadId) (s : State) : State :=
  s.wheelTake id fun ws s =>
    match stat with
    | none => s.takeWords c id regs ws
    | some d => s.takeWords c id (d :: if ws.length = 1 then [] else regs) ws

/-- What keeps a queue word from issuing. -/
def State.qStall (s : State) (t : Thread) (enq : Bool) : Bool :=
  s.orderStall t || (if enq then ctrFull t.st else ctrFull t.ld) || s.lvFull t.id || s.viewOut t.id || s.sigPending t.id

/-- The request of a queue word for some threads of one team (Table 12.9). -/
def queueMk (enq try_ : Bool) (x : QueueArgs) (s : State) (c : Str) (ids : List ThreadId) (va : DWord) (a : Acc) (w : Nat) : QReq :=
  let es := 4 * 2 ^ x.esz.toNat
  s.qMake enq try_ c va a es x.scope x.b (some x.d) none x.team
    (if enq then ids.map fun id => match s.thread? id with | some t => elemWords t x.b es | none => [] else []) w ids
/-- What a queue word checks at the core (R121 step 1). -/
def queueChk (x : QueueArgs) : Check := fun _ id s =>
  match s.thread? id with
  | none => (s, none)
  | some t =>
    match s.qPlace id (memVa x.mem t) .atomic with
    | (s, .error cause) => (s, some (cause, memVa x.mem t))
    | (s, .ok _) => (s, none)
/-- Signature: the address, and the element of an enqueue (R202). -/
def queueSig (enq : Bool) (x : QueueArgs) (_ : State) (t : Thread) : List Byte :=
  bytesOfNat 8 (memVa x.mem t).toNat ++ (if enq then (elemWords t x.b (4 * 2 ^ x.esz.toNat)).flatMap fun w => bytesOfNat 4 w.toNat else [])
/-- The request of threads of one team, `l` the lowest, goes out; `word`: the record number at which its word issued. -/
def queueSend (enq : Bool) (x : QueueArgs) (word : Nat) (c : Str) (l : ThreadId) (ids : List ThreadId) (s0 : State) : State :=
  if s0.isWheel l then
    ids.foldl (fun s id => qTake (if enq then [] else elemRegs x.b (4 * 2 ^ x.esz.toNat)) (some x.d) c id s) s0
  else
    match s0.thread? l with
    | none => s0
    | some t =>
      match s0.qPlace l (memVa x.mem t) .atomic with
      | (s1, .error _) => s1
      | (s1, .ok a) => let r := queueMk enq false x s1 c ids (memVa x.mem t) a word; (s1.qSend r).qOpenStat r

/-- Earlier accesses of a thread to the control block its word names are not all performed: dirty bytes and writes of
its core on their way, its release, its earlier try requests. -/
def State.qEarlier (s : State) (t : Thread) (pa : Nat) : Bool :=
  s.homeBusy pa 64
  || (s.l1.any fun b => b.core == s.coreOf t.id && !b.dirty.isEmpty && decide (pa ≤ b.pa ∧ b.pa < pa + 64))
  || (List.range 64).any (fun k => s.wbInFlight (s.coreOf t.id) (pa + k)) || s.relHolds t.id ((List.range 64).map fun k => .mem (pa + k))
  || s.qreqs.any fun x => x.qcbPa == pa && x.try_ && x.result.isNone && x.ths.contains t.id
/-- The control block of a thread's word where those accesses are not all performed. -/
def State.qNotYet (s : State) (k : AKind) (m : MemOp) (id : ThreadId) : Option Nat :=
  match s.thread? id with
  | none => none
  | some t =>
    match (s.qPlace id (memVa m t) k).2 with
    | .ok a => (match a.loc with | .mem pa => if s.qEarlier t pa then some pa else none | .scr .. => none)
    | .error _ => none
/-- Dirty bytes of the control block go home, and what keeps it from being read is asked to end. -/
def State.qReady (s : State) (id : ThreadId) (pa : Nat) : State :=
  (s.flush (s.coreOf id) fun b => decide (pa ≤ b.pa ∧ b.pa < pa + 64)).homeAsk pa 64

def State.qReadyAll (s : State) (k : AKind) (m : MemOp) (ids : List ThreadId) : State :=
  ids.foldl (fun s id => match s.qNotYet k m id with | some pa => s.qReady id pa | none => s) s

/-- A blocking queue word. -/
def queueWord (i : Instr) (enq : Bool) (x : QueueArgs) (s : State) : Out :=
  if x.team then execIrrevTeams i (fun s _ t => s.qStall t enq) (queueChk x) (queueSig enq x) (queueSend enq x s.nextId) s
  else execIrrev i (fun s _ t => s.qStall t enq) (queueChk x) (queueSig enq x) (fun c id s0 => queueSend enq x s.nextId c id [id] s0) s

def execEnq (q : PReg) (x : QueueArgs) (s : State) : Out := queueWord (.enq q x) true x s
def execDeq (q : PReg) (x : QueueArgs) (s : State) : Out := queueWord (.deq q x) false x s

/-- A wheeler that stands at a word which its leader is to issue again issues it again as well. -/
def State.ungrant (s : State) (id : ThreadId) (pc : Word) : State :=
  if s.isRed id.blk then
    s.modThread id fun t =>
      if t.pc == pc && t.granted then { t with granted := false, status := if t.status == .waiting .loadValue || t.status == .waiting .leader then .ready else t.status } else t
  else s

/-! QUEUE_REQUEST: the home slice, one operation at a time (R122). -/

/-- The virtual address of element count k. -/
def slotVa (q k : Nat) : Nat := qRing q + qEs q * (k % qCap q)
/-- The slots of a request, checked as its elements are (R124): their addresses and keys, and for each read whether it is denied; a
failure with the address of its slot. -/
def State.qSlots (s : State) (r : QReq) (q first : Nat) : List Nat → State × Except (Cause × DWord) (List Acc)
  | [] => (s, .ok [])
  | j :: js =>
    match s.globAccess (.die (dieOf r.qcbPa)) r.part r.handle r.principal (slotVa q (first + j)) (if r.enq then .write else .read) with
    | (s, .error c) => (s, .error (c, BitVec.ofNat 64 (slotVa q (first + j))))
    | (s, .ok a) =>
      match s.qSlots r q first js with
      | (s, .ok as) => (s, .ok (a :: as))
      | e => e
def accPa (a : Acc) : Nat := match a.loc with | .mem pa => pa | .scr .. => 0

/-- The end of an operation: its status, and the heads of both lists tried again, the opposite list first (R122). -/
def State.qEnd (s : State) (r : QReq) (code : Nat) (elems : List (List Word)) : State :=
  let s := (s.modReq r.id fun r => { r with moving := none, result := some (code, elems) }).opDone ((r.ths.head?.map (·.blk)).getD 0) r.id
  s.push (.queueRequestComplete r.id)
def State.qRetry (s : State) (pa : Nat) (first : Bool) : State :=
  ((s.waiters pa first).head?.toList ++ (s.waiters pa (!first)).head?.toList).foldl (fun s r => s.push (.queueRequest r.id)) s
/-- A request answered with a trap of its threads. -/
def State.qTrap (s : State) (r : QReq) (c : Cause × DWord) : State :=
  (s.modReq r.id fun r => { r with waiting := false, moving := none, result := some (15, []), trap := some c }).push (.queueRequestComplete r.id)
/-- Count of the first element that a request is to write or read. -/
def State.qFirst (s : State) (r : QReq) (q : Nat) : Nat := if r.enq then qTail q + s.qMoving r.qcbPa else qHead q

/-- A request that can proceed does: an enqueue writes its elements and waits for their exposure, a dequeue reads them. -/
def State.qPerform (s : State) (r : QReq) (q : Nat) : State :=
  let first := s.qFirst r q
  let waits := r.waiting
  let s := if waits then (s.modReq r.id fun r => { r with waiting := false }).qSync r.qcbPa r.key else s
  match s.qSlots r q first (List.range r.n) with
  | (s, .error c) => (s.qTrap r c).qRetry r.qcbPa r.enq
  | (s, .ok as) =>
    if r.enq then
      let s := (as.zip r.elems).foldl (fun s p =>
        s.homeWrite r.core (r.ths.head?) (memCells (accPa p.1) (p.2.flatMap fun w => bytesOfNat 4 w.toNat)) p.1.key (farScope r.scope)) s
      let s := (s.modReq r.id fun x => { x with moving := some (s.nextId, as.flatMap fun a => (List.range r.es).map fun k => accPa a + k) }).bump
      (s.opDone ((r.ths.head?.map (·.blk)).getD 0) r.id).push (.queueRequest r.id)
    else
      let words (a : Acc) : List Word := (List.range (r.es / 4)).map fun j =>
        if a.denied then 0 else BitVec.ofNat 32 (natOfBytes ((List.range 4).map fun k => s.homeByte (accPa a + 4 * j + k) a.key))
      let bad := as.any fun a => !a.denied && (List.range r.es).any fun k => s.isPoison (accPa a + k)
      let dens := ((List.range r.n).zip as).filter fun x => x.2.denied
      let s := (dens.foldl (fun (p : State × List Nat) x =>
        if p.2.contains x.2.page then p
        else (p.1.reportDenied (r.ths.getD x.1 default) (BitVec.ofNat 64 (slotVa q (first + x.1))) r.pc x.2.tag 0, p.2 ++ [x.2.page])) (s, [])).1
      let s := s.forget r.core true (as.flatMap fun a => (List.range r.es).map fun k => accPa a + k)
      let s := (s.qPut r.qcbPa r.key 8 4 (qHead q + r.n) (farScope r.scope)).qPut r.qcbPa r.key 16 4 (qFree q + r.n) (farScope r.scope)
      ((s.modReq r.id fun x => { x with poisoned := bad }).qEnd r 0 (as.map words)).qRetry r.qcbPa (!r.enq)

/-- Bytes of the next elements of a dequeue that its slice must wait for. -/
def State.qSlotsBusy (s : State) (r : QReq) (q : Nat) : Bool :=
  match (s.qSlots r q (s.qFirst r q) (List.range r.n)).2 with
  | .ok as => as.any fun a => s.homeBusy (accPa a) r.es || (List.range r.es).any fun k => s.wbInFlight r.core (accPa a + k)
  | .error _ => false
/-- During a gang slice's grace an operation on a queue homed on a package of the gang that is not READY waits (R384). -/
def State.graceHold (s : State) (pa : Nat) : Bool :=
  match s.sliceNow with
  | some sl => sl.grace && (Config.gangPackages sl.gid).any fun p => p.toNat == pkgOf pa && !sl.ready.contains p
  | none => false
/-- A request is accepted in order: behind earlier requests of its word and of its threads to its queue (R72, R121), of a `.team` form
behind those of older teams of its word to any queue (R24), its releases and its core's earlier writes. -/
def State.qBehind (s : State) (r : QReq) : Bool :=
  s.qreqs.any (fun x => decide (x.id < r.id) && x.result.isNone
    && ((x.qcbPa == r.qcbPa && (x.word == r.word || x.ths.any r.ths.contains) && !x.waiting && x.moving.isNone) || (r.team && x.word == r.word)))
  || r.rels.any (fun n => s.rels.any fun x => x.id == n)
  || s.wbs.any (fun w => w.core == r.core && w.cells.any fun c => decide (r.qcbPa ≤ c.1 ∧ c.1 < r.qcbPa + 64))
  || s.homeBusy r.qcbPa 64 || s.graceHold r.qcbPa
/-- Heads of the waiter lists that can go: they go before any new request (R122). -/
def State.qHeadsGo (s : State) (pa : Nat) (q : Nat) : List QReq :=
  if s.qcbOk pa q then ((s.waiters pa true).take 1 ++ (s.waiters pa false).take 1).filter fun r => s.qRoom r q else []
/-- A new request accepted by its slice (R121 to R123, R126, R128). -/
def State.qAccept (s : State) (r : QReq) (q : Nat) : State :=
  if qBroken q then (if r.qreg.isSome then s.qTrap r (.qcbCorrupt, r.qcb) else s.qEnd r 3 [])
  else if !s.qcbOk r.qcbPa q then (s.qTrap r (.qcbCorrupt, r.qcb)).qBreak r.qcbPa r.key q
  else if !r.fits q then s.qTrap r (.illegalOp, 0)
  else if s.qRoom r q && (s.waiters r.qcbPa r.enq).isEmpty then s.qPerform r q
  else if r.try_ then s.qEnd r (if r.enq then 1 else 2) []
  else if (s.qreqs.any fun x => x.waiting && sliceOf x.qcbPa == sliceOf r.qcbPa && dieOf x.qcbPa == dieOf r.qcbPa) && s.draw 2 == 1 then
    -- the slice's waiter table is full (R128)
    (s.redraw.modReq r.id fun x => { x with refused := true }).push (.queueRequestResend r.id)
  else
    let s : State := { s.redraw with qreqs := s.qreqs.filter (fun x => x.id != r.id) ++ [{ r with waiting := true }] }
    s.qSync r.qcbPa r.key
/-- A new request that its slice cannot take yet; heads that can go are tried first. -/
def State.qLater (s : State) (r : QReq) (q : Nat) : Bool := s.qBehind r || !(s.qHeadsGo r.qcbPa q).isEmpty || s.qSlotsBusy r q
def State.qAskLater (s : State) (r : QReq) (q : Nat) : State :=
  (s.qHeadsGo r.qcbPa q).foldl (fun s x => s.ask (.queueRequest x.id)) (s.homeAsk r.qcbPa 64)

def queueRequest (id : Nat) (s : State) : State :=
  match s.qreqs.find? (fun r => r.id == id) with
  | none => s
  | some r =>
    if r.result.isSome || r.refused || r.ths.isEmpty then s
    else
      let q := s.qcbAt r.qcbPa r.key
      match r.moving with
      | some (k, cells) =>
        -- the elements are exposed, and so are those accepted before them: TAIL advances (R122)
        if cells.any s.underMerge || s.homeBusy r.qcbPa 64
            || s.qreqs.any (fun x => x.qcbPa == r.qcbPa && (match x.moving with | some (j, _) => decide (j < k) | none => false)) then
          (s.homeAsk r.qcbPa 64).push (.queueRequest id)
        else
          let s := (s.qPut r.qcbPa r.key 12 4 (qTail q + r.n) (farScope r.scope)).qPut r.qcbPa r.key 16 4 (qFree q - r.n) (farScope r.scope)
          (s.qEnd r 0 []).qRetry r.qcbPa (!r.enq)
      | none =>
        if r.waiting then
          if s.qBehind { r with id := 0 } then (s.homeAsk r.qcbPa 64).push (.queueRequest id)
          else if ((s.waiters r.qcbPa r.enq).head?.map (·.id)) != some id then s
          else if qBroken q || !s.qcbOk r.qcbPa q then
            ((s.modReq id fun x => { x with waiting := false }).qTrap r (.qcbCorrupt, r.qcb)).qBreak r.qcbPa r.key q
          else if !s.qRoom r q then s
          else if s.qSlotsBusy r q then s.push (.queueRequest id)
          else s.qPerform r q
        else if s.qLater r q then (s.qAskLater r q).push (.queueRequest id)
        else s.qAccept r q
def execQueueRequest (id : Nat) (s : State) : Out := .next (queueRequest id s).tick

/-- QUEUE_REQUEST_RESEND: the core sends a refused request again (R128). -/
def execQueueRequestResend (id : Nat) (s : State) : Out :=
  .next ((s.modReq id fun r => { r with refused := false }).push (.queueRequest id)).tick

/-- QUEUE_WITHDRAWAL (R129): a request that has not proceeded leaves with no effect, its threads stay at the instruction; removing
the head of a list lets the new head, then the other list's head, be tried. One that has proceeded is answered. -/
def queueWithdrawal (id : Nat) (s : State) : State :=
  match s.qreqs.find? (fun r => r.id == id) with
  | none => s
  | some r =>
    if r.result.isSome || r.moving.isSome then s
    else if r.try_ then s
    else
      let s : State := { s with qreqs := s.qreqs.filter fun x => x.id != id }
      let s := r.ths.foldl (fun s t => s.deliver t (fun t => t.status == .waiting (.queue id)) fun t =>
        let t := { t with status := .ready, granted := false }
        if r.enq then { t with st := t.st - 1 } else { t with ld := t.ld - 1 }) s
      let s := r.ths.foldl (fun s t => (s.lvDrop t id).ungrant { t with wheel := true } r.pc) s
      let s := s.opWithdrawn ((r.ths.head?.map (·.blk)).getD 0) id
      if r.waiting then (s.qSync r.qcbPa r.key).qRetry r.qcbPa r.enq else s
def execQueueWithdrawal (id : Nat) (s : State) : Out := .next (queueWithdrawal id s).tick

/-! QUEUE_REQUEST_COMPLETE: status and elements reach the requesting threads (R125). -/

/-- The status word (Table 5.2). -/
def qStatus (code n : Nat) : Word := BitVec.ofNat 32 (256 * (if code = 0 then n else 0) + code)
/-- What the j-th thread of a request receives: its status, then its element where the status is OK. -/
def QReq.words (r : QReq) (j : Nat) : List Word × List (GReg × Word) :=
  match r.result with
  | none => ([], [])
  | some (code, elems) =>
    let st := qStatus code r.n
    let el : List (GReg × Word) := if r.enq || code != 0 then [] else (elemRegs r.dst r.es).zip (elems.getD j [])
    (r.stat.toList.map (fun _ => st) ++ el.map (·.2), r.stat.toList.map (fun d => (d, st)) ++ el)

/-- A thread after its part of a completed request. -/
def QReq.finish (r : QReq) (outs : List (GReg × Word)) (t : Thread) : Thread :=
  let t := outs.foldl (fun t o => t.setG o.1 o.2) t
  let t := if r.enq then { t with st := t.st - 1 } else { t with ld := t.ld - 1 }
  if r.try_ then t.dropHold r.regs else t.resume
def QReq.due (r : QReq) (t : Thread) : Bool := if r.try_ then r.regs.all fun x => t.hold.contains x else t.status == .waiting (.queue r.id)

/-- A thread stands within a string in progress. -/
def State.inString (s : State) (id : ThreadId) : Bool := s.strings.any fun c => c.members.contains id
/-- The threads a trap of a request stops at its word: with a redundant leader its wheeler, which has agreed on the operation. -/
def State.qPark (s : State) (r : QReq) (c : Cause × DWord) (id : ThreadId) : State :=
  let ids := if s.isRed id.blk then [id, { id with wheel := true }] else [id]
  ids.foldl (fun (s : State) x =>
    match s.thread? x with
    | none => s
    | some t =>
      let t' := if x == id then (if r.enq then { t with st := t.st - 1 } else { t with ld := t.ld - 1 }) else t
      (s.modThread x fun _ => t').park x { cause := c.1, addr := c.2, sub := 0, word := true }) (s.lvDrop id r.id)
/-- QUEUE_REQUEST_COMPLETE. Whether a dequeue that took nothing is an acquire the spec leaves open: the model performs the acquire with
status OK alone (notes/assumptions/65.md). -/
def queueRequestComplete (id : Nat) (s : State) : State :=
  match s.qreqs.find? (fun r => r.id == id) with
  | none => s
  | some r =>
    let gone : State := { s with qreqs := s.qreqs.filter fun x => x.id != id }
    match r.trap with
    | some c => r.ths.foldl (fun s t => s.qPark r c t) gone
    | none =>
      let s := if r.enq then gone else if (r.result.map (·.1)) == some 0 then gone.acquire r.core r.scope else gone
      let s := (List.range r.n).foldl (fun s j =>
        let t := r.ths.getD j default
        let w := r.words j
        (s.deliver t r.due (r.finish w.2)).lvFill t id w.1) s
      if r.poisoned then s.consumed (r.ths.headD default) r.pc else s
def execQueueRequestComplete (id : Nat) (s : State) : Out := .next (queueRequestComplete id s).tick

/-! The try forms (R123, R296): the slice accepts each request before the string passes the word, so that what traps it is found at the
word; the result comes later, its registers held. -/

/-- The word opens: its leaders' dirty bytes go home, for an enqueue their releases begin; it goes on once these are performed. -/
def tryOpen (enq : Bool) (x : QueueArgs) (c : Str) (leads : List ThreadId) (s0 : State) : State :=
  let s := leads.foldl (fun s id =>
    let s := s.flush (s.coreOf id) fun b => b.dirty.contains id
    match s.thread? id with
    | none => s
    | some t =>
      if enq then
        let own := match (s.qPlace id (memVa x.mem t) .atomic).2 with | .ok a => scopeOf (qScope (s.qcbAt (accPa a) a.key)) | .error _ => .blk
        s.beginRelease id (x.scope.getD own) [] none
      else s) s0
  let ids := (s.rels.filter fun r => decide (s0.nextId ≤ r.id) && leads.contains r.th).map (·.id)
  { s.bump with strings := s.strings.map fun d => if d == c then { c with hold := ids, opened := some (s.nextId, []) } else d }
/-- The request of one thread, or of a team's threads, made and accepted. A request that traps leaves its threads at the word. -/
def tryServe (enq : Bool) (x : QueueArgs) (c : Str) (word : Nat) (l : ThreadId) (ids : List ThreadId) (s : State) : State :=
  let served (s : State) : State :=
    { s with strings := s.strings.map fun d => if d == c then { c with opened := some (word, (match c.opened with | some o => o.2 | none => []) ++ ids) } else d }
  let fail (s : State) (e : Cause × DWord) : State :=
    ids.foldl (fun s id => if (match s.thread? id with | some t => t.granted | none => false) then s.raisePair id c.pc e.1 e.2 else s.raise id c.pc e.1 e.2 0 true)
      (served s)
  match s.thread? l with
  | none => served s
  | some t =>
    match s.qPlace l (memVa x.mem t) .atomic with
    | (s, .error e) => fail s (e, memVa x.mem t)
    | (s, .ok a) =>
      let r := queueMk enq true x s c ids (memVa x.mem t) a word
      let q := s.qcbAt r.qcbPa r.key
      if s.qLater r q then s.qAskLater r q
      else
        let s1 : State := { s.bump with qreqs := s.qreqs ++ [r] }
        let s1 := if enq then s1 else ids.foldl (fun s id => s.lvOpen id r.pc r.id) s1
        let s2 := (s1.qOpenStat r).qAccept r q
        match (s2.qreqs.find? fun y => y.id == r.id).bind (·.trap) with
        | some e => fail { (ids.foldl (fun s id => s.lvDrop id r.id) s2) with qreqs := s2.qreqs.filter fun y => y.id != r.id } e
        | none => served (s2.qRaise r)
/-- The threads of each request of a word: each leader alone, or its team's leaders together. -/
def State.tryUnits (s : State) (x : QueueArgs) (leads : List ThreadId) : List (ThreadId × List ThreadId) :=
  if x.team then (s.teamLeads leads).map fun l => (l, leads.filter (sameTeam l)) else leads.map fun l => (l, [l])
/-- A try word. In a contained block its threads stop first (R198); then the word opens, is served, and is passed. -/
def tryWord (i : Instr) (enq : Bool) (x : QueueArgs) (s : State) : Out :=
  match s.strings with
  | [] => .next s.tick
  | c :: rest =>
    let acting := s.actors (guardOf i) c
    let fresh (id : ThreadId) : Bool := s.isCont id.blk && (match s.thread? id with | some t => !t.granted | none => false)
    if acting.any fresh then
      execIrrev i (fun s _ t => s.qStall t enq) (queueChk x) (queueSig enq x) (fun _ _ s => s) s
    else if s.boarded i c || (c.opened.isNone && acting.any fun id => match s.thread? id with | some t => s.qStall t enq | none => false) then .next s.tick
    else
      let leads := acting.filter fun id => !s.isWheel id && s.regsOk i id
      let early := leads.filter fun id => c.opened.isNone && (s.qNotYet .atomic x.mem id).isSome
      if !early.isEmpty then .next (s.qReadyAll .atomic x.mem early).tick
      else
        match c.opened with
        | none => if leads.isEmpty then .next (tryPass i enq x c rest acting s).tick else .next (tryOpen enq x c leads s).tick
        | some (word, done) =>
          match (s.tryUnits x leads).find? fun u => !done.contains u.1 with
          | some u => .next (tryServe enq x c word u.1 u.2 s).tick
          | none => .next (tryPass i enq x c rest acting s).tick
where
  /-- The string passes the word: wheelers take what their leaders receive. -/
  tryPass (i : Instr) (enq : Bool) (x : QueueArgs) (c : Str) (rest : List Str) (acting : List ThreadId) (s : State) : State :=
    let s1 := s.trapRegs i c
    let s2 := (acting.filter s1.isWheel).foldl (fun s id =>
      match s.thread? id with
      | some t =>
        if !t.ready then s
        else if s.leadPassed t then qTake (if enq then [] else elemRegs x.b (4 * 2 ^ x.esz.toNat)) (some x.d) c id s
        else s.modThread id fun t => { t with status := .waiting .leader }
      | none => s) s1
    (s2.advance c rest (wordLen i)).snapAfter s c
def execEnqTry (q : PReg) (x : QueueArgs) (s : State) : Out := tryWord (.enqTry q x) true x s
def execDeqTry (q : PReg) (x : QueueArgs) (s : State) : Out := tryWord (.deqTry q x) false x s

end Sys2Proof.Machine
end

