-- ==== Sys2Proof/Machine/QRegs.lean ====
section
/-! DEFINITION. Queue registers (R50, R130 to R133, R281, R297, R298): bindings and their end, `qstat`, the queue-register forms of
loads and stores, and the rows of gather ports. -/

namespace Sys2Proof.Machine

/-! Bindings. -/

def Team.qreg (m : Team) (k : QReg) : QBind := m.q.getD k.toNat .unbound
def Team.setQ (m : Team) (k : QReg) (b : QBind) : Team := { m with q := m.q.set k.toNat b }
def State.qregOf (s : State) (id : ThreadId) (k : QReg) : QBind := match s.teamOf id with | some m => m.qreg k | none => .unbound
def State.setQreg (s : State) (id : ThreadId) (k : QReg) (b : QBind) : State := s.modTeamOf id fun m => m.setQ k b

/-- Requests through a queue register of a thread's team that are still to be answered. -/
def State.regReqs (s : State) (id : ThreadId) (k : QReg) : List QReq :=
  s.qreqs.filter fun r => r.qreg == some k && sameTeam (r.ths.headD default) id
/-- Whether a binding can end now (R133): no request through it has been accepted, no push is in flight. -/
def State.canEnd (s : State) (id : ThreadId) (k : QReg) : Bool :=
  match s.qregOf id k with
  | .queue .. => (s.regReqs id k).all (·.refused)
  | .gather g => !g.pushes.any fun p => p.row.isNone
  | _ => true
/-- The end of a binding: requests not accepted are withdrawn, their threads issue their words again (R133). -/
def State.endBind (s : State) (id : ThreadId) (k : QReg) : State :=
  ((s.regReqs id k).foldl (fun s r => queueWithdrawal r.id s) s).setQreg id k .unbound

/-- Threads of other teams that a string has left waiting for the end of a binding. -/
def State.unbinding (s : State) (n : Nat) (p : ThreadId → Bool) : Bool :=
  s.threads.any fun u => match u.status with
    | .waiting w => (match w with | .unbind _ _ m => m == n && p u.id | _ => false)
    | _ => false
/-- A uniform word that ends a binding and puts another in its place: the threads wait until the old one has ended, and until older
teams of the word, which are served first (R24), have passed it. -/
def rebind (k : QReg) (b : QBind) (c : Str) (l : ThreadId) (ids : List ThreadId) (s : State) : State :=
  if s.canEnd l k && !s.unbinding c.seq (fun u => !sameTeam u l) then (s.endBind l k).setQreg l k b
  else ids.foldl (fun s id => s.modThread id fun t => { t with status := .waiting (.unbind k b c.seq) }) s

/-- The binding that threads wait to end has ended: the other takes effect, and the threads that performed the word pass it (R133);
threads at another word on the binding of that register issue it again. -/
def State.endWait (s : State) (t : Thread) : State :=
  match t.status with
  | .waiting w =>
    match w with
    | .unbind k b n =>
      if s.canEnd t.id k && !s.unbinding n (fun u => ageLe (s.ageOf u) (s.ageOf t.id) && s.ageOf u != s.ageOf t.id) then
        let s := (s.endBind t.id k).setQreg t.id k b
        { s with threads := s.threads.map fun u =>
            match u.status with
            | .waiting v =>
              match v with
              | .unbind k' _ _ => if sameTeam u.id t.id && k' == k then (if u.pc == t.pc then u.resume else { u with status := .ready }) else u
              | _ => u
            | _ => u }
      else s
    | _ => s
  | _ => s
def Thread.rebinds (t : Thread) : Bool :=
  match t.status with
  | .waiting (.unbind ..) => true
  | _ => false
/-- Every wait of that kind that is over, the threads taken as they then stand. -/
def State.endWaits (s : State) (p : ThreadId → Bool) : State :=
  (s.threads.filter fun t => t.rebinds && p t.id).foldl (fun s t => match s.thread? t.id with | some t => s.endWait t | none => s) s

/-- What `qbind.queue` takes from a control block, and passes to a wheeler (R201): ES and SCOPE, 0 for one that fails R120 or has
another ES than 4 or 8. BROKEN is none of these checks: a broken queue traps when it is accessed (R126). -/
def qbindWord (ok : Bool) (x : Nat) : Word := if ok && decide (qEs x = 4 ∨ qEs x = 8) then BitVec.ofNat 32 (256 * qScope x + qEs x) else 0
def qbindOf (va : DWord) (w : Word) : QBind := .queue va (bitsN w.toNat 7 0) (scopeOf (bitsN w.toNat 15 8))
/-- `qbind.queue`: the control block is read at its home as an acquire at its SCOPE and has to pass R120 with ES 4 or 8. Its address
fails as that of a queue operation does, with ALIGN or, where it is remote, XLATE, which the rule leaves open
(notes/assumptions/64.md). -/
def execQbindQueue (q : PReg) (d : QReg) (m : MemOp) (s : State) : Out :=
  let fail (c : Str) (ids : List ThreadId) (s : State) (e : Cause) (va : DWord) : State := ids.foldl (fun s id => s.raise id c.pc e va 0 true) s
  let acting : List ThreadId := match s.strings with | [] => [] | c :: _ => s.actors q c
  let early := acting.filter fun id => !s.isWheel id && (s.qNotYet .read m id).isSome
  if !early.isEmpty then .next (s.qReadyAll .read m early).tick
  else execTeams (.qbindQueue q d m) (fun s _ t => s.orderStall t || s.lvFull t.id)
    (fun c l ids s =>
      match s.thread? l with
      | none => s
      | some t =>
        match s.qPlace l (memVa m t) .read with
        | (s', .error e) => fail c ids (if s.isWheel l then s else s') e (memVa m t)
        | (s', .ok a) =>
          if s.isWheel l then
            match s.lvPeek l with
            | none => ids.foldl (fun s id => s.modThread id fun t => { t with status := .waiting .loadValue }) s
            | some ws => if ws.headD 0 = 0 then fail c ids (s.lvTake l) .illegalOp 0 else rebind d (qbindOf (memVa m t) (ws.headD 0)) c l ids (s.lvTake l)
          else
            let x := natOfBytes ((List.range 64).map fun k => if a.denied then 0 else (s.ownByte l (accPa a + k)).getD (s.homeByte (accPa a + k) a.key))
            let w := qbindWord (s.qcbOk (accPa a) x) x
            let s' := if a.denied then s'.reportDenied l (memVa m t) c.pc a.tag 0 else s'
            let s' := if s.isRed l.blk then s'.sendQueue l c.pc [(0, w)] else s'
            if w = 0 then fail c ids s' .illegalOp 0
            else rebind d (qbindOf (memVa m t) w) c l ids (s'.acquire (s.coreOf l) (scopeOf (qScope x)))) s
def execQbindCopy (q : PReg) (d : QReg) (s : State) : Out :=
  execTeams (.qbindCopy q d) noStall (fun c l ids s => rebind d (.copy []) c l ids s) s
/-- `qbind.gather`: the record of four yoke words (R132, R297). A record with bits set where R297 has zeros fails the check like an RS
that is none of the three, which the rule leaves open (notes/assumptions/64.md). -/
def execQbindGather (q : PReg) (d : QReg) (k : BitVec 4) (s : State) : Out :=
  execTeams (.qbindGather q d k) noStall (fun c l ids s =>
    let y (j : Nat) : Word := rd (s.yOf l) (4 * k.toNat + j)
    let base : DWord := y 1 ++ y 0
    let rs := (y 3).toNat
    if 2 ^ 56 ≤ base.toNat || !(rs == 32 || rs == 64 || rs == 128) then ids.foldl (fun s id => s.raise id c.pc .illegalOp 0 0 true) s
    else rebind d (.gather { base := base, stride := y 2, rs := rs, pushes := [], cur := [], lines := [], gerr := false, seen := [] }) c l ids s) s
def execQunbind (q : PReg) (d : QReg) (s : State) : Out :=
  execTeams (.qunbind q d) noStall (fun c l ids s => rebind d .unbound c l ids s) s

/-- The word of `qstat` (Table 12.10). -/
def qstatWord (b : QBind) (waits : Bool) : Word :=
  match b with
  | .unbound => 0
  | .queue .. => BitVec.ofNat 32 ((if waits then 4 else 0) + 1)
  | .copy subs => BitVec.ofNat 32 (256 * min subs.length 255 + 2)
  | .gather g => BitVec.ofNat 32 ((if g.gerr then 2 ^ 31 else 0) + 65536 * g.pushes.length + 256 * g.lines.length + 3)
/-- `qstat`: the state of the register to a yoke register; GERR is cleared by the read. A wheeler takes its leader's word. -/
def execQstat (q : PReg) (d : YReg) (a : QReg) (s : State) : Out :=
  execTeams (.qstat q d a) (fun s _ t => s.lvFull t.id) (fun c l ids s =>
    if s.isWheel l then
      if (s.lvPeek l).isNone then ids.foldl (fun s id => s.modThread id fun t => { t with status := .waiting .loadValue }) s
      else s.wheelTake l fun ws s => s.setY l [(d.toNat, 1)] fun y => wr y d.toNat (ws.headD 0)
    else
      let b := s.qregOf l a
      let w := qstatWord b ((s.regReqs l a).any fun r => r.waiting || r.result.isNone)
      let s := s.setY l [(d.toNat, 1)] fun y => wr y d.toNat w
      let s := match b with | .gather g => s.setQreg l a (.gather { g with gerr := false }) | _ => s
      if s.isRed l.blk then s.sendQueue l c.pc [(0, w)] else s) s

/-! Gather ports (R132). -/

/-- Returned rows packed in push order: eight complete lines at most; a push of 0xffffffff fills a partly filled line with zeros. A push
whose row is packed is held no more: R298 leaves open whether it still counts in PUSHES (notes/assumptions/66.md). -/
def gPack : Nat → GatherPort → GatherPort
  | 0, g => g
  | n + 1, g =>
    match g.pushes with
    | [] => g
    | p :: ps =>
      if p.idx = 0xffffffff then
        if g.cur.isEmpty then gPack n { g with pushes := ps }
        else if g.lines.length < 8 then
          gPack n { g with pushes := ps, lines := g.lines ++ [g.cur ++ List.replicate (128 - g.cur.length) 0], cur := [] }
        else g
      else
        match p.row with
        | none => g
        | some r =>
          let x := g.cur ++ r
          if x.length < 128 then gPack n { g with pushes := ps, cur := x }
          else if g.lines.length < 8 then gPack n { g with pushes := ps, lines := g.lines ++ [x], cur := [] }
          else g

/-- One index enters the port; its row is asked for behind the thread's release (R91). -/
def State.gPush (s : State) (word : Nat) (id : ThreadId) (k : QReg) (g : GatherPort) (idx : Word) (c : Str) : State :=
  let n := s.nextId
  let fill : Bool := idx == 0xffffffff
  let p : Push := { id := n, word := word, idx := idx, obj := c.obj, pc := c.pc, row := if fill then some [] else none }
  let s := s.bump.setQreg id k (.gather (gPack 257 { g with pushes := g.pushes ++ [p] }))
  if fill then s else s.beginRelease id .dev [] (some (.gatherRowReturn n))

/-- A page whose denial a word has reported already, through whichever team's port (R336). -/
def State.gSeen (s : State) (word page : Nat) : Bool :=
  s.teams.any fun m => m.q.any fun q => match q with | .gather g => g.seen.contains (word, page) | _ => false
/-- What a row or a part of it brings: its bytes, whether it could not be translated, whether it is poisoned, the pages whose denial
it reports. -/
structure RowPart where
  bytes : List Byte
  err : Bool
  bad : Bool
  pages : List Nat
/-- One part of a row, which lies in one page: zeros where it is denied or cannot be translated. A denial is reported once for each
page and word, under the address of the row (R336). -/
def State.gPart (s : State) (b : Block) (l : ThreadId) (p : Push) (row a n : Nat) (pages : List Nat) : State × RowPart :=
  match s.globAccess (.die (dieOfCore b.core)) b.part b.handle b.principal a .read with
  | (s, .error _) => (s, { bytes := List.replicate n 0, err := true, bad := false, pages := [] })
  | (s, .ok x) =>
    if x.denied then
      if s.gSeen p.word x.page || pages.contains x.page then (s, { bytes := List.replicate n 0, err := false, bad := false, pages := [] })
      else
        (s.postEvent b.part b.launch { va := BitVec.ofNat 64 row, pc := p.pc, object := p.obj, principal := b.principal, tag := x.tag, src := 2 },
          { bytes := List.replicate n 0, err := false, bad := false, pages := [x.page] })
    else
      (s, { bytes := (List.range n).map (fun j => s.homeByte (accPa x + j) x.key), err := false,
            bad := (List.range n).any fun j => l.blk == b.id && s.isPoison (accPa x + j), pages := [] })
/-- The pieces of a row between page boundaries. -/
def rowParts (a n : Nat) : List (Nat × Nat) :=
  let m := 65536 - a % 65536
  if n ≤ m then [(a, n)] else [(a, m), (a + m, n - m)]
/-- The row of a push. -/
def State.gRow (s : State) (b : Block) (l : ThreadId) (p : Push) (row : Nat) (parts : List (Nat × Nat)) : State × RowPart :=
  parts.foldl (fun (r : State × RowPart) x =>
    let y := r.1.gPart b l p row x.1 x.2 r.2.pages
    (y.1, { bytes := r.2.bytes ++ y.2.bytes, err := r.2.err || y.2.err, bad := r.2.bad || y.2.bad, pages := r.2.pages ++ y.2.pages }))
    (s, { bytes := [], err := false, bad := false, pages := [] })
/-- A part of the row waits for its home, or an earlier row of the same word has not returned: the rows of a word are checked in order, so
that its records name the lowest denied thread (R95). -/
def State.gBusy (s : State) (b : Block) (p : Push) (parts : List (Nat × Nat)) : Bool :=
  (s.teams.any fun m => m.q.any fun q => match q with
    | .gather g => g.pushes.any fun x => x.word == p.word && decide (x.id < p.id) && x.row.isNone
    | _ => false)
  || parts.any fun x => match (s.globAccess (.die (dieOfCore b.core)) b.part b.handle b.principal x.1 .read).2 with
    | .ok a => !a.denied && s.homeBusy (accPa a) x.2
    | .error _ => false

/-- The port that holds a push. -/
def QBind.holds (id : Nat) : QBind → Bool
  | .gather g => g.pushes.any fun p => p.id == id
  | _ => false
def QBind.row (id word : Nat) (r : RowPart) : QBind → QBind
  | .gather g =>
    if g.pushes.any fun p => p.id == id then
      .gather (gPack 257 { g with
        gerr := g.gerr || r.err
        seen := g.seen ++ r.pages.map fun x => (word, x)
        pushes := g.pushes.map fun p => if p.id == id then { p with row := some r.bytes } else p })
    else .gather g
  | b => b
/-- Pages reported for words whose rows have all returned are forgotten. -/
def State.gTrim (s : State) : State :=
  let live (word : Nat) : Bool := s.teams.any fun m => m.q.any fun q => match q with
    | .gather g => g.pushes.any fun p => p.word == word && p.row.isNone
    | _ => false
  { s with teams := s.teams.map fun m => { m with q := m.q.map fun q => match q with
      | .gather g => .gather { g with seen := g.seen.filter fun x => live x.1 }
      | b => b } }
/-- GATHER_ROW_RETURN: the row of a push is read at its home as an acquire of .dev scope, checked under R95, and packed. -/
def gatherRowReturn (id : Nat) (s : State) : State :=
  match s.teams.find? fun m => m.q.any (QBind.holds id) with
  | none => s
  | some m =>
    match s.block? m.blk, (m.q.findSome? fun q => match q with | .gather g => (g.pushes.find? fun p => p.id == id).map fun p => (g, p) | _ => none) with
    | some b, some (g, p) =>
      let l : ThreadId := { blk := m.blk, wheel := m.wheel, tid := 128 * m.idx }
      let a := (g.base.toNat + p.idx.toNat * g.stride.toNat) % 2 ^ 64
      let parts := rowParts a g.rs
      if s.gBusy b p parts then
        (parts.foldl (fun s x => match (s.globAccess (.die (dieOfCore b.core)) b.part b.handle b.principal x.1 .read).2 with | .ok a => s.homeAsk (accPa a) x.2 | .error _ => s) s).push
          (.gatherRowReturn id)
      else
        let r := s.gRow b l p a parts
        let s := (r.1.modTeam m.blk m.wheel m.idx fun m => { m with q := m.q.map (QBind.row id p.word r.2) }).gTrim
        let s := s.modBlock m.blk (·.modImages fun im => { im with teams := im.teams.map fun m => { m with q := m.q.map (QBind.row id p.word r.2) } })
        if r.2.bad then s.consumed l p.pc else s
    | _, _ => s
def execGatherRowReturn (id : Nat) (s : State) : Out := .next (gatherRowReturn id s).tick

/-! `ld.q` and `st.q` (R281, Table 12.3). -/

/-- Whether an access through a binding is irrevocable (R198). -/
def qIrrev (read : Bool) : QBind → Bool
  | .queue .. => true
  | .copy _ => !read
  | _ => false
/-- Whether the type fits the binding; an unbound register fits nothing. -/
def qTypeOk (read : Bool) (sz : BitVec 3) : QBind → Bool
  | .unbound => false
  | .queue _ es _ => if es = 4 then sz == 2 else sz == 3
  | .copy _ => if read then sz == 2 else sz == 3
  | .gather _ => sz == 2
/-- What a queue-register access checks: its type (ILLEGAL_OP), then for a QUEUE the control block as for a queue operation. -/
def qregChk (read : Bool) (sz : BitVec 3) (k : QReg) : Check := fun _ id s =>
  let b := s.qregOf id k
  if !qTypeOk read sz b then (s, some (.illegalOp, 0))
  else
    match b with
    | .queue va _ _ =>
      match s.qPlace id va .atomic with
      | (s, .error c) => (s, some (c, va))
      | (s, .ok _) => (s, none)
    | _ => (s, none)

/-- A word through a queue register, thread by thread; irrevocable where the binding makes it so. -/
def qregWord (i : Instr) (read : Bool) (sz : BitVec 3) (k : QReg) (stall : State → Str → Thread → Bool) (sig : State → Thread → List Byte)
    (eff : Str → ThreadId → State → State) (s : State) : Out :=
  match s.strings with
  | [] => .next s.tick
  | c :: _ =>
    let one (c : Str) (id : ThreadId) (s : State) : State :=
      if qIrrev read (s.qregOf id k) then gated (qregChk read sz k) sig eff c id s
      else
        match qregChk read sz k c id s with
        | (s', some (cause, addr)) => s'.raise id c.pc cause addr 0 true
        | (s', none) => eff c id s'
    match execEach i stall one s with
    | .next s' => .next (s'.snapAfter s c)
    | o => o

/-- The pair of a thread's operand B. -/
def pairWords (y : Sparse 32) (t : Thread) (b : Src) (n : Nat) : List Word := (List.range n).map fun j => bvalAt y t j b

/-- A request through a QUEUE binding (R130); `word`: the record number at which its word issued, by which the threads of a string are
served in order (R281). -/
def State.qregSend (s : State) (word : Nat) (enq : Bool) (k : QReg) (c : Str) (id : ThreadId) (va : DWord) (es : Nat) (sc : Scope) (dst : GReg)
    (elem : List Word) : State :=
  match s.qPlace id va .atomic with
  | (s, .error _) => s
  | (s, .ok a) => s.qSend (s.qMake enq false c va a es (some sc) dst none (some k) false (if enq then [elem] else []) word [id])

/-- The word a lane receives of a packed line. -/
def lineWord (line : List Byte) (slot : Nat) : Word := BitVec.ofNat 32 (natOfBytes ((line.drop (4 * (slot % 32))).take 4))

/-- One thread's read. `ids`: the acting threads of the word; a GATHER line is popped once for a team's threads of the string. -/
def ldQOne (sz : BitVec 3) (d : GReg) (k : QReg) (word : Nat) (ids : List ThreadId) (c : Str) (id : ThreadId) (s : State) : State :=
  let regs := if sz = 3 then [d, d + 1] else [d]
  let wait (x : ThreadId) (s : State) : State := s.modThread x fun t => { t with status := .waiting (.qreg k true) }
  let take (s : State) : State := s.wheelTake id fun ws s => s.takeWords c id regs ws
  match s.qregOf id k with
  | .unbound => s
  | .queue va es sc => if s.isWheel id then take s else s.qregSend word false k c id va es sc d []
  | .copy subs =>
    if s.isWheel id then take s
    else
      match subs with
      | ⟨_, some st, sc⟩ :: rest =>
        let s := ((s.setQreg id k (.copy rest)).acquire (s.coreOf id) sc).modThread id fun t => t.setG d st
        if s.isRed id.blk then s.sendQueue id c.pc [(d, st)] else s
      | _ => wait id s
  | .gather g =>
    if s.isWheel id then take s
    else if ids.any fun x => sameTeam x id && decide (x.tid < id.tid) then
      -- a thread of lower index has popped the line, or waits for one
      (if ids.any fun x => sameTeam x id && (match s.thread? x with | some t => t.status == .waiting (.qreg k true) | none => false) then wait id s else s)
    else
      match g.lines with
      | [] => wait id s
      | line :: rest =>
        let s := s.setQreg id k (.gather (gPack 257 { g with lines := rest }))
        let word := s.nextId
        (ids.filter (sameTeam id)).foldl (fun s x =>
          let n := s.nextId
          ((s.lvOpen x c.pc n).modThread x fun t => { t.addHold [d] with ld := t.ld + 1 }).sendRet x n [(d, lineWord line (laneSlot x))] [] true false (word := some word)) s

def execLdQ (q : PReg) (sz : BitVec 3) (d : GReg) (a : QReg) (s : State) : Out :=
  let ids := match s.strings with | [] => [] | c :: _ => s.actors (guardOf (.ldQ q sz d a)) c
  qregWord (.ldQ q sz d a) true sz a (fun s _ t => s.qStall t false) (fun _ _ => []) (ldQOne sz d a s.nextId ids) s

/-- One thread's write. A full GATHER port stalls the pushing thread; a COPY submission is read by the engine (R131). -/
def stQOne (sz : BitVec 3) (k : QReg) (b : Src) (word : Nat) (c : Str) (id : ThreadId) (s : State) : State :=
  match s.thread? id with
  | none => s
  | some t =>
    let ws := pairWords (s.yOf id) t b (szRegs sz)
    match s.qregOf id k with
    | .unbound => s
    | .queue va es sc => if s.isWheel id then s else s.qregSend word true k c id va es sc 0 ws
    | .copy subs =>
      if s.isWheel id then s
      else
        let n := s.nextId
        let va : DWord := ws.getD 1 0 ++ ws.getD 0 0
        let blk := (s.block? id.blk).getD default
        let cmd : CopyCmd :=
          { (default : CopyCmd) with
            id := n, th := id, blk := id.blk, part := blk.part, principal := blk.principal, launch := blk.launch, die := dieOfCore blk.core, cmd := va,
            unread := true, rel := n + 1 }
        let s : State := { s.bump with copies := s.copies ++ [cmd] }
        let s := (s.setQreg id k (.copy (subs ++ [{ id := n, status := none, scope := .sys }]))).modThread id fun t => { t with as := t.as + 1 }
        s.beginRelease id .sys [] (some (.copyCommandRead n))
    | .gather g =>
      if s.isWheel id then s
      else if 256 ≤ g.pushes.length then s.modThread id fun t => { t with status := .waiting (.qreg k false) }
      else (s.gPush word id k g (ws.headD 0) c).stRaise id

def execStQ (q : PReg) (sz : BitVec 3) (a : QReg) (b : Src) (s : State) : Out :=
  qregWord (.stQ q sz a b) false sz a (fun s _ t => s.qStall t true || ctrFull t.as)
    (fun s t => (pairWords (s.yOf t.id) t b (szRegs sz)).flatMap fun w => bytesOfNat 4 w.toNat) (stQOne sz a b s.nextId) s

end Sys2Proof.Machine
end

