-- ==== Sys2Proof/Machine/Engines.lean ====
section
/-! DEFINITION. Copy engines and multicast (R134 to R139, R321 to R324). -/

namespace Sys2Proof.Machine

/-! The tensor layout record (R134, Table 5.5), as a 256-bit natural. -/

def parseLayout (r : Nat) : Layout :=
  { str := 1 :: (List.range 3).map fun d => bitsN r (212 + 21 * d) (192 + 21 * d)
    ext := (List.range 4).map fun d => bitsN r (143 + 16 * d) (128 + 16 * d) + 1
    box := (List.range 4).map fun d => bitsN r (103 + 8 * d) (96 + 8 * d) + 1
    zfill := bitsN r 77 77 == 1
    rel := bitsN r 76 76 == 1
    acq := bitsN r 75 75 == 1
    scope := bitsN r 74 72
    cls := bitsN r 71 70
    toGlobal := bitsN r 69 69 == 1
    rank := bitsN r 68 67 + 1
    es := 2 ^ bitsN r 66 64
    gbase := BitVec.ofNat 64 (bitsN r 63 0) }

/-- What R135 calls illegal: a reserved field or value, a field of a dimension beyond the rank, GBASE not a multiple of ES or in
neither the global nor the view window. -/
def layoutBad (r : Nat) : Bool :=
  let l := parseLayout r
  bitsN r 255 255 != 0 || bitsN r 95 78 != 0 || decide (4 < l.scope ∨ 5 < bitsN r 66 64)
  || ((List.range 4).any fun d => decide (l.rank ≤ d) && (l.ext.getD d 1 != 1 || l.box.getD d 1 != 1 || (d != 0 && l.str.getD d 0 != 0)))
  || l.gbase.toNat % l.es != 0 || !(decide (l.gbase.toNat < 2 ^ 56) || isView l.gbase)

/-- Bytes on the scratch side. -/
def Layout.bytes (l : Layout) : Nat := l.es * prodL l.box
def chunkBytes : Nat := 2048
def Layout.chunks (l : Layout) : Nat := (l.bytes + chunkBytes - 1) / chunkBytes

/-! Commands. -/

/-- The operands of a command: layout record, coordinates, scratch address, successor, mask of a multicast. -/
structure CopyIn where
  lrec : Nat
  coords : List Int
  scr : DWord
  succ : DWord
  mask : Option Word

/-- Blocks that a command's scratch side reaches, as an index of the group each, and the first byte within the scratchpad. -/
def State.copyPlace (s : State) (id : ThreadId) (x : CopyIn) : Option (List Nat × Nat) :=
  match s.block? id.blk, s.place id x.scr (parseLayout x.lrec).bytes with
  | some b, .scr _ o =>
    let own : Nat := if x.scr.toNat / 2 ^ 48 = 0x0100 then b.shape.gidx else bitsN x.scr.toNat 47 32
    some ((match x.mask with | none => [own] | some m => (List.range 8).filter fun k => m.getLsbD k), o)
  | _, _ => none

/-- The fault of a command, first of R138's order: ILLEGAL_OP, MCAST_MASK, XLATE for the scratch range. -/
def State.copyFault (s : State) (id : ThreadId) (x : CopyIn) : Option Cause :=
  let gs := match s.block? id.blk with | some b => b.shape.gsize | none => 0
  if layoutBad x.lrec then some .illegalOp
  else
    match x.mask with
    | none => if (s.copyPlace id x).isNone then some .xlate else none
    | some m =>
      if (parseLayout x.lrec).toGlobal || x.scr.toNat / 2 ^ 48 != 0x0100 || m.toNat / 256 != 0 then some .illegalOp
      else if (List.range 8).any fun k => m.getLsbD k && decide (gs < k) then some .mcastMask
      else if (s.copyPlace id x).isNone then some .xlate
      else none

/-- Engines of a die with room in a class (R135). -/
def State.classLoad (s : State) (die e cls : Nat) : Nat :=
  (s.copies.filter fun c => !c.unread && c.die == die && c.engine == some e && c.lay.cls == cls).length
def State.enginesFree (s : State) (die cls : Nat) : List Nat :=
  (List.range 4).filter fun e => decide (s.classLoad die e cls < Config.classDepth)
def State.classRoom (s : State) (die cls : Nat) : Nat :=
  sumL ((List.range 4).map fun e => Config.classDepth - s.classLoad die e cls)

/-- The descriptor captured for a view-window GBASE (R115): zero where the slot is empty or the table is off. -/
def State.copyDesc (s : State) (part : BitVec 6) (l : Layout) : BitVec 512 :=
  if isView l.gbase then BitVec.ofNat 512 ((s.viewDesc part (bitsN l.gbase.toNat 62 55)).getD 0) else 0
/-- Targets with their generations, from the group table (R139). -/
def State.copyTargets (s : State) (id : ThreadId) (ks : List Nat) : List (Option (Nat × Nat)) :=
  match s.block? id.blk with
  | none => []
  | some b => ks.map fun k => (if k = b.shape.gidx then some b else s.groupBlock b k).map fun t => (t.id, t.scrGen)

/-- A command with its operands in place. -/
def CopyCmd.load (c : CopyCmd) (s : State) (id : ThreadId) (x : CopyIn) : CopyCmd :=
  let l := parseLayout x.lrec
  let p := (s.copyPlace id x).getD ([], 0)
  { c with lay := l, desc := s.copyDesc c.part l, coords := x.coords, succ := x.succ, off := p.2, targets := s.copyTargets id p.1,
           total := if p.1.isEmpty then 0 else l.chunks, unread := false }
/-- A command given to an engine. -/
def State.copyQueue (s : State) (c : CopyCmd) : State :=
  let free := s.enginesFree c.die c.lay.cls
  let e := free.getD (s.draw free.length) 0
  let s : State := { s.redraw with copies := s.copies.filter (fun x => x.id != c.id) ++ [{ c with engine := some e }] }
  if c.total = 0 then s.push (.copyComplete c.id) else s.push (.copyChunk c.die e)

/-! `copy` and `copy.mc` (R322). -/

/-- Operands of one thread. -/
def copyIn (y : Sparse 32) (t : Thread) (x : CopyArgs) (m : Option GReg) : CopyIn :=
  let r := yWords y (8 * x.k.toNat)
  { lrec := r
    coords := (List.range (parseLayout r).rank).map fun j => (t.gr (x.a + BitVec.ofNat 7 j)).toInt
    scr := t.gr64 x.b
    succ := (match x.c with | some c => t.gr64 c | none => 0)
    mask := m.map t.gr }
/-- The coordinate registers must exist (R322). -/
def State.coordRegs (s : State) (id : ThreadId) (x : CopyArgs) (y : Sparse 32) : Bool :=
  spansExist (s.gregs id) [(x.a.toNat, (parseLayout (yWords y (8 * x.k.toNat))).rank)]

def copyChk (x : CopyArgs) (m : Option GReg) : Check := fun _ id s =>
  match s.thread? id with
  | none => (s, none)
  | some t =>
    if !s.coordRegs id x (s.yOf id) then (s, some (.illegalOp, 0))
    else
      let i := copyIn (s.yOf id) t x m
      match s.copyFault id i with
      | some .xlate => (s, some (.xlate, i.scr))
      | some c => (s, some (c, 0))
      | none => (s, none)
/-- Signature: the operands (R202). -/
def copySig (x : CopyArgs) (m : Option GReg) (s : State) (t : Thread) : List Byte :=
  let i := copyIn (s.yOf t.id) t x m
  bytesOfNat 32 i.lrec ++ i.coords.flatMap (fun c => bytesOfNat 4 (BitVec.ofInt 32 c).toNat) ++ bytesOfNat 8 i.scr.toNat ++ bytesOfNat 8 i.succ.toNat
    ++ bytesOfNat 4 (i.mask.getD 0).toNat

/-- The issue of one command: a release of its scope, its status register held, AS raised (R91, R322). A wheeler takes the status
word from its leader (R206). -/
def copySend (x : CopyArgs) (m : Option GReg) (c : Str) (id : ThreadId) (s : State) : State :=
  if s.isWheel id then s.wheelTake id fun ws s => s.takeWords c id [x.d] ws
  else
    match s.thread? id, s.block? id.blk with
    | some t, some b =>
      let i := copyIn (s.yOf id) t x m
      let n := s.nextId
      let s := (s.lvOpen id c.pc n).bump
      let r := s.nextId
      let s := s.beginRelease id (scopeOf (parseLayout i.lrec).scope) [] none
      let s := s.modThread id fun t => { t.addHold [x.d] with as := t.as + 1 }
      let s : State := { s with copyDone := s.copyDone.filter fun d => !(d.th == id && d.dst == x.d) }
      s.copyQueue (({ (default : CopyCmd) with
        id := n, th := id, blk := b.id, part := b.part, principal := b.principal, launch := b.launch, die := dieOfCore b.core,
        dst := some x.d, rel := r }).load s id i)
    | _, _ => s

/-- A class without room for every copy of the word keeps it from issuing (R135). -/
def State.copyStall (s : State) (c : Str) (t : Thread) (x : CopyArgs) : Bool :=
  let die := dieOfCore (s.coreOf t.id)
  s.orderStall t || ctrFull t.as || s.lvFull t.id || s.sigPending t.id
  || (!s.isWheel t.id && decide (s.classRoom die (parseLayout (yWords (s.yOf t.id) (8 * x.k.toNat))).cls < c.members.length))
/-- The coordinate registers are waited for as well (R216). -/
def coordsHeld (s : State) (t : Thread) (x : CopyArgs) : Bool :=
  spansMeet t.hold [(x.a.toNat, (parseLayout (yWords (s.yOf t.id) (8 * x.k.toNat))).rank)]

def copyWord (i : Instr) (x : CopyArgs) (m : Option GReg) (s : State) : Out :=
  execIrrev i (fun s c t => s.copyStall c t x || coordsHeld s t x) (copyChk x m) (copySig x m) (copySend x m) s
def execCopy (q : PReg) (x : CopyArgs) (s : State) : Out := copyWord (.copy q x) x none s
def execCopyMc (q : PReg) (x : CopyArgs) (m : GReg) (s : State) : Out := copyWord (.copyMc q x m) x (some m) s

/-! `ftest` and `fcancel` (R323, R324). -/

/-- A thread's copy in flight with a status register. -/
def State.copyOf (s : State) (id : ThreadId) (r : GReg) : Option CopyCmd := s.copies.find? fun c => c.th == id && c.dst == some r
/-- The status word (Table 5.7). -/
def CopyCmd.status (c : CopyCmd) (state : Nat) : Word :=
  let b (x : Bool) (k : Nat) : Nat := if x then 2 ^ k else 0
  BitVec.ofNat 32 (65536 * min c.done 65535 + 256 * c.undel.length + b c.perm 7 + b c.xl 6 + b c.index 5 + b c.bounds 4 + state)
/-- The final state: CANCELLED, ERROR or DONE. -/
def CopyCmd.final (c : CopyCmd) : Nat :=
  if c.cancelled then 2 else if c.perm || c.xl || c.index || c.bounds then 3 else 0
/-- The first use of a completed copy's status register is an acquire of its scope (R92). -/
def State.useCopy (s : State) (id : ThreadId) (p : GReg → Bool) : State :=
  (s.copyDone.filter fun d => d.th == id && p d.dst).foldl
    (fun s d => { s.acquire (s.coreOf id) (scopeOf d.scope) with copyDone := s.copyDone.erase d }) s

def ftestOne (i : Instr) (d a : GReg) (c : Str) (id : ThreadId) (s : State) : State :=
  if s.isWheel id then s.wheelTake id fun ws s => s.writeOuts i c id { g := [d].zip ws }
  else
    match s.thread? id with
    | none => s
    | some t =>
      match s.copyOf id a with
      | some x =>
        let s := s.writeOuts i c id { g := [(d, x.status 1)] }
        if s.isRed id.blk then s.sendQueue id c.pc [(d, x.status 1)] else s
      | none =>
        let s := (s.useCopy id fun r => r == a).writeOuts i c id { g := [(d, t.gr a)] }
        if s.isRed id.blk then s.sendQueue id c.pc [(d, t.gr a)] else s
def execFtest (q : PReg) (d a : GReg) (s : State) : Out :=
  execEach (.ftest q d a) (fun s _ t => s.acqPending t.id || s.lvFull t.id
      || (t.hold.contains a && (s.copyOf t.id a).isNone && !s.isWheel t.id)) (ftestOne (.ftest q d a) d a) s

def State.modCopy (s : State) (id : Nat) (f : CopyCmd → CopyCmd) : State :=
  { s with copies := s.copies.map fun c => if c.id == id then f c else c }
/-- `fcancel`: chunks not yet begun are not performed; the leader alone performs it (R137, R324). -/
def fcancelOne (a : GReg) (_ : Str) (id : ThreadId) (s : State) : State :=
  if s.isWheel id then s
  else
    match s.copyOf id a with
    | some x => if decide (x.done < x.total) && !x.cancelled then (s.modCopy x.id fun c => { c with cancelled := true }).push (.copyComplete x.id) else s
    | none => s
def execFcancel (q : PReg) (a : GReg) (s : State) : Out := execEach (.fcancel q a) noStall (fcancelOne a) s

/-! The elements of a chunk (R135, Table 4.4). -/

/-- The number under which a command's own writes travel. -/
def engineCore (id : Nat) : Nat := devCore + 1 + id
/-- Flag of an element's fault (Table 5.7). -/
def CopyCmd.fault (c : CopyCmd) : VFault → CopyCmd
  | .indexXlate | .viewIndex => { c with index := true }
  | .cause .permWrite => { c with perm := true }
  | .cause _ => { c with xl := true }
/-- The progress of a command through a chunk: the state with its translations, the command with its flags, denied reads. -/
structure Prog where
  s : State
  c : CopyCmd
  dens : List Denial

/-- The engine as the asker of a view element: its reads of index entries are served at L2 like its others. -/
def CopyCmd.asker (c : CopyCmd) : Asker := { part := c.part, handle := 0, principal := c.principal, core := engineCore c.id, mmu := .die c.die, th := none }
/-- Bytes of one access of an element: none where it cannot be reached. -/
def Prog.reach (p : Prog) (r : Except VFault Acc) (first n : Nat) : Prog × List (Option VByte) :=
  match r with
  | .error f => ({ p with c := p.c.fault f }, List.replicate n none)
  | .ok a => (p, (pieceBytes a first n).map some)
/-- The pieces of an element behind a view, each checked for itself. -/
def Prog.viewBytes (p : Prog) (k : AKind) : List (Nat × Nat × Nat) → Prog × List (Option VByte)
  | [] => (p, [])
  | (i, first, n) :: ps =>
    let d := p.c.desc.toNat
    let (q, bs) : Prog × List (Option VByte) :=
      if vCount d ≤ i then ({ p with c := { p.c with bounds := true } }, List.replicate n none)
      else
        let (s, den, r) := p.s.viewElem p.c.asker d i k
        let p : Prog := { p with s := s, dens := p.dens ++ den.toList }
        let own : List Denial :=
          match r with
          | .ok a => if a.denied then [{ va := p.c.lay.gbase.toNat / 2 ^ 55 * 2 ^ 55 + vEs d * i, page := a.page, tag := a.tag, src := 3 }] else []
          | .error _ => []
        ({ p with dens := p.dens ++ own }).reach r first n
    let (q, rest) := Prog.viewBytes q k ps
    (q, bs ++ rest)
/-- The bytes of the element at an offset from GBASE. -/
def Prog.elem (p : Prog) (k : AKind) (goff : Nat) : Prog × List (Option VByte) :=
  let l := p.c.lay
  if isView l.gbase then
    if vRank p.c.desc.toNat = 0 then ({ p with c := { p.c with xl := true } }, List.replicate l.es none)
    else p.viewBytes k (vPieces p.c.desc.toNat (l.gbase.toNat % 2 ^ 55 + goff) l.es)
  else
    let va := l.gbase.toNat + goff
    if 2 ^ 56 ≤ va then ({ p with c := { p.c with xl := true } }, List.replicate l.es none)
    else
      match p.s.globAccess (.die p.c.die) p.c.part 0 p.c.principal va k with
      | (s, .error e) => ({ p with s := s }).reach (.error (.cause e)) 0 l.es
      | (s, .ok a) =>
        let den : List Denial := if a.denied then [{ va := va, page := a.page, tag := a.tag, src := 3 }] else []
        ({ p with s := s, dens := p.dens ++ den }).reach (.ok a) 0 l.es

/-- Whether the box element lies in the tensor, and its offset from GBASE in bytes. -/
def CopyCmd.at (c : CopyCmd) (i : Nat) : Option Nat :=
  let l := c.lay
  let co := (List.range 4).map fun d => c.coords.getD d 0 + ((digits i l.box).getD d 0 : Int)
  if (List.range l.rank).all fun d => decide (0 ≤ co.getD d 0 ∧ co.getD d 0 < (l.ext.getD d 1 : Int)) then
    some (l.es * sumL ((List.range 4).map fun d => (co.getD d 0).toNat * l.str.getD d 0))
  else none
/-- The elements of the chunk in order with their bytes: none for an element outside the tensor, with its flag. -/
def Prog.elems (p : Prog) (k : AKind) : List Nat → Prog × List (Nat × Option (List (Option VByte)))
  | [] => (p, [])
  | i :: is =>
    match p.c.at i with
    | none =>
      let r := Prog.elems (if p.c.lay.zfill then p else { p with c := { p.c with bounds := true } }) k is
      (r.1, (i, none) :: r.2)
    | some o =>
      let (p, bs) := p.elem k o
      let r := Prog.elems p k is
      (r.1, (i, some bs) :: r.2)
/-- Bytes of index entries that the elements of a chunk read. -/
def CopyCmd.indexBytes (s : State) (c : CopyCmd) (is : List Nat) : List Nat :=
  let d := c.desc.toNat
  if !isView c.lay.gbase || vRank d = 0 then []
  else is.flatMap fun i =>
    match c.at i with
    | none => []
    | some o => (s.idxPlaces c.asker d ((vPieces d (c.lay.gbase.toNat % 2 ^ 55 + o) c.lay.es).filter fun p => decide (p.1 < vCount d))).map (·.1)
/-- Elements of chunk k. -/
def CopyCmd.range (c : CopyCmd) (k : Nat) : List Nat :=
  let per := chunkBytes / c.lay.es
  (List.range per).map (k * per + ·) |>.filter fun i => decide (i < prodL c.lay.box)
/-- Scratch bytes of chunk k. -/
def CopyCmd.size (c : CopyCmd) (k : Nat) : Nat := min chunkBytes (c.lay.bytes - k * chunkBytes)

/-! The scratch side (R59, R139, R322). -/

/-- A target that a chunk is delivered to: its generation is the recorded one and its scratch has not been freed. -/
def State.copyLive (s : State) (t : Option (Nat × Nat)) : Option Block :=
  match t with
  | none => none
  | some (b, g) => (s.block? b).filter fun x => x.scrGen == g && x.state != .retired && x.state != .killed
/-- A target in transition holds the chunk (R59). -/
def State.copyHeld (s : State) (c : CopyCmd) : Bool :=
  c.targets.any fun t => match s.copyLive t with | some b => b.state == .saving || b.state == .restoring | none => false
def Side.putByte (o : Nat) (v : Byte) (bad : Bool) (d : Side) : Side :=
  { d with scratch := wr d.scratch o v
           poison := d.poison.filter (· != scrPoison o) ++ (if bad then [scrPoison o] else []) }
def Side.putBytes (o : Nat) (bs : List (Byte × Bool)) (d : Side) : Side :=
  (List.range bs.length).foldl (fun d k => d.putByte (o + k) (bs.getD k (0, false)).1 (bs.getD k (0, false)).2) d
/-- Bytes delivered to a target: both copies of a redundant block, and the images of the issuing block (R198 step 4). -/
def State.copyPut (s : State) (c : CopyCmd) (b : Block) (o : Nat) (bs : List (Byte × Bool)) : State :=
  let img (im : Image) : Image := { im with lead := im.lead.putBytes o bs, wheels := if b.shape.red then im.wheels.putBytes o bs else im.wheels }
  s.modBlock b.id fun b =>
    let b := { b with lead := b.lead.putBytes o bs, wheels := if b.shape.red then b.wheels.putBytes o bs else b.wheels }
    if b.id == c.blk then b.modImages img else b

/-- A byte that an element brings. -/
def State.copyByte (s : State) (b : Option VByte) : Byte × Bool :=
  match b with
  | none => (0, false)
  | some v => if v.denied then (0, false) else (s.homeByte v.pa v.key, s.isPoison v.pa)
/-- One element's global bytes written: one write for each key among them. -/
def State.copyOut (s : State) (c : CopyCmd) (bs : List (Option VByte × Byte × Bool)) : State :=
  let hit := bs.filterMap fun x => x.1.map fun v => (v, x.2)
  (hit.map (·.1.key)).eraseDups.foldl (fun s k =>
    let ws := hit.filter fun x => x.1.key == k
    let s := s.homeWrite (engineCore c.id) none (ws.map fun x => (x.1.pa, x.2.1)) k
    { s with poison := s.poison ++ (((ws.filter (·.2.2)).map (·.1.pa / 32)).eraseDups.filter fun x => !s.poison.contains x) }) s

/-- The denied reads of a chunk reported: one record for each page that the command has not reported yet (R95). -/
def Prog.report (p : Prog) : Prog :=
  p.dens.foldl (fun p d =>
    if p.c.pages.contains d.page then p
    else { p with c := { p.c with pages := p.c.pages ++ [d.page] }
                  s := p.s.postEvent p.c.part p.c.launch { va := BitVec.ofNat 64 d.va, pc := 0, object := 0, principal := p.c.principal, tag := d.tag, src := d.src } }) p

/-- Targets that are gone miss the chunk. -/
def CopyCmd.miss (c : CopyCmd) (s : State) : CopyCmd :=
  { c with undel := (List.range c.targets.length).filter fun k => c.undel.contains k || (s.copyLive (c.targets.getD k none)).isNone }
/-- The bytes of the source scratchpad of element i, with those of the other copy in a redundant block. -/
def CopyCmd.source (c : CopyCmd) (b : Block) (i : Nat) : List (Byte × Bool) × List Byte :=
  let o := c.off + c.lay.es * i
  ((List.range c.lay.es).map fun j => (rd b.lead.scratch (o + j), b.lead.poison.contains (scrPoison (o + j))),
   (List.range c.lay.es).map fun j => rd (if b.shape.red then b.wheels else b.lead).scratch (o + j))

/-- Bytes of a chunk's elements that their homes are at work on (R83, R86, R88). -/
def chunkBusy (s : State) (es : List (Nat × Option (List (Option VByte)))) : List Nat :=
  (es.flatMap fun e => (e.2.getD []).filterMap id |>.map (·.pa)).filter fun pa => s.homeBusy pa 1

/-- One chunk of a command performed. -/
def State.chunkDo (s : State) (c : CopyCmd) (p : Prog) (es : List (Nat × Option (List (Option VByte)))) : State :=
  let p := p.report
  let lost : Bool := c.lay.toGlobal && (s.copyLive (c.targets.headD none)).isNone
  let c' := { (if lost then c else p.c).miss s with done := c.done + 1 }
  let s :=
    if c.lay.toGlobal then
      match s.copyLive (c.targets.headD none) with
      | none => s
      | some b =>
        if b.shape.red && es.any (fun e => (c.source b e.1).1.map (·.1) != (c.source b e.1).2) then p.s.mismatched c.blk
        else es.foldl (fun s e => match e.2 with | none => s | some bs => s.copyOut c (bs.zip (c.source b e.1).1)) p.s
    else
      (c.targets.filterMap s.copyLive).foldl (fun s b =>
        es.foldl (fun s e =>
          s.copyPut c b (c.off + c.lay.es * e.1) (match e.2 with | none => List.replicate c.lay.es (0, false) | some bs => bs.map p.s.copyByte)) s) p.s
  let s := s.modCopy c.id fun _ => c'
  if c'.done = c'.total then s.push (.copyComplete c.id) else s

/-! The round-robin of an engine (R136). -/

def State.engineOf (s : State) (die e : Nat) : Engine :=
  (s.engines.find? fun x => x.die == die && x.num == e).getD
    { die := die, num := e, cls := 0, fresh := true, deficit := List.replicate 4 0, turn := List.replicate 4 [] }
def State.setEngine (s : State) (e : Engine) : State :=
  { s with engines := s.engines.filter (fun x => !(x.die == e.die && x.num == e.num)) ++ [e] }
/-- Commands of an engine's class with chunks to come, oldest first. -/
def State.classQueue (s : State) (die e cls : Nat) : List CopyCmd :=
  s.copies.filter fun c => !c.unread && c.die == die && c.engine == some e && c.lay.cls == cls && !c.cancelled && decide (c.done < c.total)
/-- Quantum of a class in bytes (Table 5.6). -/
def State.quantum (s : State) (die e cls : Nat) : Nat :=
  512 * max 1 (bitsN (s.fr 384 (0x2000 + 0x10 * die + 4 * e)).toNat (8 * cls + 7) (8 * cls))
/-- A command whose acquire waits for the release of its issue (R91). -/
def State.copyBehind (s : State) (c : CopyCmd) : Bool := c.lay.acq && s.rels.any fun r => r.id == c.rel
/-- The first eight commands of a class in the order of their turns: one served last comes last, one that enters joins behind (R136). -/
def turns (turn : List Nat) (q : List CopyCmd) : List CopyCmd :=
  let w := q.take 8
  (turn.filterMap fun n => w.find? fun c => c.id == n) ++ w.filter fun c => !turn.contains c.id
/-- The command whose chunk the engine sends next, with the engine after it. An idle class loses its deficit. -/
def State.serve (s : State) : Nat → Engine → Engine × Option CopyCmd
  | 0, e => (e, none)
  | n + 1, e =>
    let next : Engine := { e with cls := (e.cls + 1) % 4, fresh := true }
    let q := turns (e.turn.getD e.cls []) (s.classQueue e.die e.num e.cls)
    if q.isEmpty then s.serve n { next with deficit := e.deficit.set e.cls 0 }
    else
      match q.find? fun c => !s.copyBehind c with
      | none => s.serve n next
      | some c =>
        let d := e.deficit.getD e.cls 0 + if e.fresh then s.quantum e.die e.num e.cls else 0
        if c.size c.done ≤ d then
          ({ e with fresh := false, deficit := e.deficit.set e.cls (d - c.size c.done), turn := e.turn.set e.cls ((q.map (·.id)).filter (· != c.id) ++ [c.id]) }, some c)
        else s.serve n { next with deficit := e.deficit.set e.cls d }

/-- COPY_CHUNK: one chunk of the engine's next command. -/
def copyChunk (die e : Nat) (s : State) : State :=
  if ((List.range 4).all fun k => (s.classQueue die e k).isEmpty) then
    s.setEngine { s.engineOf die e with fresh := true, deficit := List.replicate 4 0, turn := List.replicate 4 [] }
  else
    match s.serve 40 (s.engineOf die e) with
    | (g, none) => (s.setEngine g).push (.copyChunk die e)
    | (g, some c) =>
      let (p, es) := Prog.elems { s := s, c := c, dens := [] } (if c.lay.toGlobal then .write else .read) (c.range c.done)
      let busy := chunkBusy s es ++ (c.indexBytes s (c.range c.done)).filter fun pa => s.homeBusy pa 1
      if s.copyHeld c then s.push (.copyChunk die e)
      else if !busy.isEmpty then (busy.foldl (fun s pa => s.homeAsk pa 1) s).push (.copyChunk die e)
      else ((s.chunkDo c p es).setEngine g).push (.copyChunk die e)
def execCopyChunk (die e : Nat) (s : State) : Out := .next (copyChunk die e s).tick

/-! JOIN_DECREMENT (R38): also at the completion of a copy and the retirement of a block. -/

/-- A record's slot as a program may read it: the fields of Table 1.2 with the device's own STATE. -/
def State.slotPa (s : State) (part : BitVec 6) (die slot : Nat) : Option Nat :=
  match s.lookup (.die die) part ((s.pr part (0x5400 + 16 * die)).toNat + 64 * slot) with
  | .ok (x, _) => if s.ownerOf x.pa == some part then some x.pa else none
  | .error _ => none
def Record.word (r : Record) (st : DWord) : BitVec 512 :=
  let h := r.shape
  let shape : DWord := (0 : BitVec 20) ++ BitVec.ofBool h.cores ++ BitVec.ofBool h.red ++ BitVec.ofBool h.cont ++ BitVec.ofNat 3 h.gidx
    ++ BitVec.ofNat 3 h.gsize ++ BitVec.ofNat 3 h.stage ++ BitVec.ofNat 4 (h.accrows / 16) ++ BitVec.ofNat 5 h.tiles ++ BitVec.ofNat 9 h.scratch
    ++ BitVec.ofNat 4 (h.gregs / 8 - 2) ++ BitVec.ofNat 10 (h.threads - 1)
  st ++ r.succ ++ r.affinity ++ (0 : BitVec 32) ++ r.ident ++ BitVec.ofNat 24 r.grp ++ (0 : BitVec 6) ++ BitVec.ofNat 2 r.prio ++ r.principal
    ++ BitVec.ofNat 16 r.join ++ shape ++ r.frame ++ r.entry ++ r.object
/-- The slot of a record written by the device. -/
def State.putRecord (s : State) (r : Record) : State :=
  match s.slotPa r.part r.die r.slot with
  | some pa => { s.redraw with mem := wrNat s.mem pa 64 (r.word (Config.slotState s.freeCtr)).toNat }
  | none => s

/-- A record's join counter lowered: at zero it enters its ready queue; a stale handle or a counter at zero posts JOIN_STALE. -/
def State.joinDec (s : State) (part : BitVec 6) (handle : DWord) : State :=
  match s.records.find? (fun r => r.part == part && r.handle == handle) with
  | none => s.postFault part { handle := handle, kind := 3 }
  | some r =>
    if r.join = 0 then s.postFault part { handle := handle, kind := 3 }
    else
      let r' : Record := { r with join := r.join - 1, state := if r.join = 1 then .ready else r.state, seq := if r.join = 1 then s.nextId else r.seq }
      let s : State := { s.bump with records := s.records.map fun x => if x.part == part && x.handle == handle then r' else x }
      let s := s.putRecord r'
      if r.join = 1 then s.sweepLaunch r.launch else s

/-! COPY_COMPLETE (R137). -/

/-- The bytes a command with REL wrote are not all exposed yet (R80). -/
def State.copyOpen (s : State) (c : CopyCmd) : Bool := c.lay.rel && s.merges.any fun m => m.wb.core == engineCore c.id
/-- The status word of a submission kept in its binding, while it stands. -/
def QBind.subDone (id : Nat) (st : Word) : QBind → QBind
  | .copy subs => .copy (subs.map fun x => if x.id == id then { x with status := some st } else x)
  | b => b
def Team.subDone (id : Nat) (st : Word) (m : Team) : Team := { m with q := m.q.map (QBind.subDone id st) }

def copyComplete (id : Nat) (s : State) : State :=
  match s.copies.find? fun c => c.id == id with
  | none => s
  | some c =>
    if s.copyOpen c then s.push (.copyComplete id)
    else
      let st := c.status c.final
      let s : State := { s with copies := s.copies.filter fun x => x.id != id }
      let s :=
        match c.dst with
        | some d =>
          let s := (s.deliver c.th (fun t => t.hold.contains d && t.status != .exited) fun t => t.setG d st).deliver c.th (fun t => t.hold.contains d)
            fun t => { t.dropHold [d] with as := t.as - 1 }
          let s := s.lvFill c.th id [st]
          if c.lay.rel then { s with copyDone := s.copyDone ++ [{ th := c.th, dst := d, scope := c.lay.scope, status := st }] } else s
        | none =>
          let s := s.deliver c.th (fun _ => true) fun t => { t with as := t.as - 1 }
          let s : State := { s with teams := s.teams.map fun m => if m.blk == c.blk then m.subDone id st else m }
          s.modBlock c.blk (·.modImages fun im => { im with teams := im.teams.map (Team.subDone id st) })
      if c.succ = 0 then s else s.joinDec c.part c.succ
def execCopyComplete (id : Nat) (s : State) : Out := .next (copyComplete id s).tick

/-! COPY_COMMAND_READ (R131). -/

/-- The 64 bytes of a submitted command; none where one cannot be read. -/
def Prog.cmdBytes (p : Prog) : Nat → List Nat → Prog × Option (List Byte)
  | _, [] => (p, some [])
  | va, k :: ks =>
    match p.s.place p.c.th (BitVec.ofNat 64 (va + k)) 1 with
    | .scr b o =>
      let (q, r) := Prog.cmdBytes p va ks
      (q, r.map ((match p.s.block? b with | some x => rd x.lead.scratch o | none => 0) :: ·))
    | .glob g =>
      match p.s.globAccess (.die p.c.die) p.c.part 0 p.c.principal g.toNat .read with
      | (s, .error _) => ({ p with s := s }, none)
      | (s, .ok a) =>
        let den : List Denial := if a.denied then [{ va := g.toNat, page := a.page, tag := a.tag, src := 3 }] else []
        let v : Byte := if a.denied then 0 else s.homeByte (accPa a) a.key
        let (q, r) := Prog.cmdBytes { p with s := s, dens := p.dens ++ den } va ks
        (q, r.map (v :: ·))
    | _ => (p, none)
/-- Bytes of a command that the home is at work on. -/
def State.cmdBusy (s : State) (c : CopyCmd) : List Nat :=
  ((List.range 64).filterMap fun k =>
    match s.place c.th (c.cmd + BitVec.ofNat 64 k) 1 with
    | .glob g => (match (s.globAccess (.die c.die) c.part 0 c.principal g.toNat .read).2 with | .ok a => some (accPa a) | .error _ => none)
    | _ => none).filter fun pa => s.homeBusy pa 1
/-- A submitted command as the operands of a `copy`. -/
def parseCommand (bs : List Byte) : CopyIn :=
  let r := natOfBytes (bs.take 32)
  { lrec := r
    coords := (List.range (parseLayout r).rank).map fun j => (BitVec.ofNat 32 (natOfBytes ((bs.drop (40 + 4 * j)).take 4))).toInt
    scr := BitVec.ofNat 64 (natOfBytes ((bs.drop 32).take 8))
    succ := BitVec.ofNat 64 (natOfBytes ((bs.drop 56).take 8))
    mask := none }

/-- COPY_COMMAND_READ: an illegal command moves nothing and completes with BOUNDS. -/
def copyCommandRead (id : Nat) (s : State) : State :=
  match s.copies.find? fun c => c.id == id with
  | none => s
  | some c =>
    let busy := s.cmdBusy c
    if !c.unread then s
    else if !busy.isEmpty then (busy.foldl (fun s pa => s.homeAsk pa 1) s).push (.copyCommandRead id)
    else
      let (p, bs) := Prog.cmdBytes { s := s, c := c, dens := [] } c.cmd.toNat (List.range 64)
      let p := p.report
      let illegal (succ : DWord) : State :=
        (p.s.modCopy id fun _ => { p.c with unread := false, bounds := true, succ := succ }).push (.copyComplete id)
      match bs with
      | none => illegal 0
      | some bs =>
        let x := parseCommand bs
        if (s.copyFault c.th x).isSome then illegal x.succ
        else if (s.enginesFree c.die (parseLayout x.lrec).cls).isEmpty then s.push (.copyCommandRead id)
        else
          let scope := (parseLayout x.lrec).scope
          let s := p.s
          let s : State := { s with teams := s.teams.map fun m => if m.blk == c.blk then { m with q := m.q.map fun b => match b with
              | .copy subs => .copy (subs.map fun y => if y.id == id then { y with scope := scopeOf scope } else y)
              | b => b } else m }
          s.copyQueue (p.c.load s c.th x)
def execCopyCommandRead (id : Nat) (s : State) : Out := .next (copyCommandRead id s).tick

end Sys2Proof.Machine
end

