-- ==== Sys2Proof/Machine/Relay.lean ====
section
/-! DEFINITION. Relay records posted by running code (R32 to R39, R325) and joins (R38, R326). -/

namespace Sys2Proof.Machine

/-! Records in memory (Tables 1.2, 1.3). -/

/-- The shape word with its fields in their units (Table 1.3). -/
def parseShape (w : Nat) : Shape :=
  { cores := bitsN w 43 43 == 1
    red := bitsN w 42 42 == 1
    cont := bitsN w 41 41 == 1
    gidx := bitsN w 40 38
    gsize := bitsN w 37 35
    stage := bitsN w 34 32
    accrows := 16 * bitsN w 31 28
    tiles := bitsN w 27 23
    scratch := bitsN w 22 14
    gregs := 8 * (bitsN w 13 10 + 2)
    threads := bitsN w 9 0 + 1 }
/-- Reserved bits and values of a shape word (R34). -/
def shapeBad (w : Nat) : Bool :=
  bitsN w 63 44 != 0 || decide (8 < bitsN w 31 28 ∨ 16 < bitsN w 27 23 ∨ 256 < bitsN w 22 14 ∨ 14 < bitsN w 13 10 ∨ bitsN w 37 35 < bitsN w 40 38)
/-- Reserved fields of a record (Table 1.2). -/
def recordBad (w : Nat) : Bool := bitsN w 319 288 != 0 || bitsN w 231 226 != 0 || shapeBad (bitsN w 191 128)

/-- Whether an entry stands in a loaded object's list (R34, R388): a list that cannot be read holds none. -/
def State.entryOk (s : State) (part : BitVec 6) (object entry : Word) : Bool :=
  match s.objLoaded part object with
  | none => false
  | some a =>
    (List.range (s.objField a 127 96)).any fun k =>
      match s.lookup frontMmu part (s.objField a 255 192 + 4 * k) with
      | .ok (x, _) => s.frameOk part x false && rdNat s.mem x.pa 4 == entry.toNat
      | .error _ => false

/-! Where a posted record goes (R36). -/

/-- Dies on which a partition has a bulkhead in one of the given states, ascending. -/
def State.diesIn (s : State) (part : BitVec 6) (sts : List BhState) : List Nat :=
  (List.range 8).filter fun d => (List.range 6).any fun k =>
    match s.bulkheads[6 * d + k]? with | some b => b.assigned && b.part == part && sts.contains b.state | none => false
/-- Dies on which a partition has a bulkhead, ascending: those that run (R392), or where none does those that are being reset. -/
def State.partDies (s : State) (part : BitVec 6) : List Nat :=
  let l := s.diesIn part [.run]
  if l.isEmpty then s.diesIn part [.resetting] else l
/-- The die of a posted record. -/
def State.postDie (s : State) (part : BitVec 6) (affinity : DWord) : Nat :=
  let dies := s.partDies part
  let rule := dies.getD (bitsN affinity.toNat 47 16 % dies.length) 0
  if 2 ^ 56 ≤ affinity.toNat then rule
  else
    match s.lookup frontMmu part affinity.toNat with
    | .ok (x, _) => if pkgOf x.pa == s.chip.toNat && isMem x.pa && dies.contains (dieOf x.pa) then dieOf x.pa else rule
    | .error _ => rule
/-- Free slots of a relay area that takes records (R386). -/
def State.freeSlots (s : State) (part : BitVec 6) (die : Nat) : List Nat :=
  match s.areas.find? (fun a => a.part == part && a.die == die) with
  | none => []
  | some a =>
    if a.enabled && !a.busy then
      (List.range a.slots).filter fun k => !(s.records.any fun r => r.part == part && r.die == die && r.slot == k)
    else []
/-- The handle of a slot (R35). -/
def State.slotHandle (s : State) (part : BitVec 6) (die slot : Nat) : DWord :=
  let va := (s.pr part (0x5400 + 16 * die)).toNat + 64 * slot
  s.slotGen part die slot ++ BitVec.ofNat 50 (bitsN va 55 6) ++ (0 : BitVec 6)
/-- A record takes a slot: it is counted for its object and stands in its slot (R39, R370). -/
def State.addRecord (s : State) (r : Record) : State :=
  let s := (s.putRecord r).objRef r.part r.object r.die true
  { s.bump with records := s.records ++ [r] }

/-! `relay` (R325). -/

/-- The checks of the word: ALIGN, then those of a read of 64 bytes (R273). -/
def relayChk (m : MemOp) : Check := fun _ id s =>
  match s.thread? id with
  | none => (s, none)
  | some t =>
    match s.access id (memVa m t) 64 .read with
    | (s, .error c) => (s, some (c, memVa m t))
    | (s, .ok _) => (s, none)

def relaySend (d : GReg) (m : MemOp) (c : Str) (id : ThreadId) (s : State) : State :=
  let regs := [d, d + 1]
  if s.isWheel id then s.wheelTake id fun ws s => s.takeWords c id regs ws
  else
    match s.thread? id, s.block? id.blk with
    | some t, some b =>
      let va := memVa m t
      match s.access id va 64 .read with
      | (s, .error _) => s
      | (s, .ok a) =>
        let n := s.nextId
        let s := if a.denied then s.reportDenied id va c.pc a.tag 0 else s
        let s := (s.lvOpen id c.pc n).bump
        let s := s.modThread id fun t => { t.addHold regs with as := t.as + 1 }
        let q : RelayReq :=
          { id := n, th := id, part := b.part, launch := b.launch, ident := b.ident, prio := b.prio, principal := b.principal, cont := b.shape.cont,
            red := b.shape.red, loc := a.loc, key := a.key, denied := a.denied, dst := d, va := va, join := none, rel := s.nextId }
        State.beginRelease { s with relays := s.relays ++ [q] } id .dev [] (some (.relayPost n))
    | _, _ => s

def execRelay (q : PReg) (d : GReg) (m : MemOp) (s : State) : Out :=
  execIrrev (.relay q d m) (fun s _ t => s.orderStall t || ctrFull t.as || s.lvFull t.id || s.sigPending t.id) (relayChk m)
    (fun _ t => bytesOfNat 8 (memVa m t).toNat) (relaySend d m) s

/-! RELAY_POST (R37). -/

/-- The record as the posting thread's read finds it. -/
def State.relayBytes (s : State) (q : RelayReq) : List Byte :=
  match q.loc with
  | .scr b o => (List.range 64).map fun k => s.scrByte q.th b (o + k)
  | .mem pa => (List.range 64).map fun k => if q.denied then 0 else s.homeByte (pa + k) q.key
/-- The result pair written, AS lowered (Table 13.8). -/
def State.relayDone (s : State) (q : RelayReq) (v : DWord) : State :=
  let lo := v.extractLsb' 0 32
  let hi := v.extractLsb' 32 32
  let s : State := { s with relays := s.relays.filter fun x => x.id != q.id }
  (s.deliver q.th (fun t => t.hold.contains q.dst && t.hold.contains (q.dst + 1)) fun t =>
    { (((t.setG q.dst lo).setG (q.dst + 1) hi).dropHold [q.dst, q.dst + 1]) with as := t.as - 1 }).lvFill q.th q.id [lo, hi]
/-- A posted record is bad (R34, R37). -/
def State.postBad (s : State) (part : BitVec 6) (w : Nat) : Bool :=
  recordBad w || bitsN w 168 163 != 0 || !s.entryOk part (BitVec.ofNat 32 (bitsN w 31 0)) (BitVec.ofNat 32 (bitsN w 63 32))
/-- The record as it is stored (R37). -/
def RelayReq.record (q : RelayReq) (w die slot seq : Nat) (handle : DWord) : Record :=
  { part := q.part, die := die, slot := slot, handle := handle, succ := BitVec.ofNat 64 (bitsN w 447 384), affinity := BitVec.ofNat 64 (bitsN w 383 320),
    launch := q.launch, ident := q.ident, grp := bitsN w 255 232, prio := max q.prio (bitsN w 225 224), principal := q.principal, join := bitsN w 207 192,
    shape := { parseShape (bitsN w 191 128) with cores := false, red := q.red, cont := q.cont }
    frame := BitVec.ofNat 64 (bitsN w 127 64), entry := BitVec.ofNat 32 (bitsN w 63 32), object := BitVec.ofNat 32 (bitsN w 31 0),
    state := if bitsN w 207 192 = 0 then .ready else .held, seq := seq, gen := none }

/-- RELAY_POST: the record is read, checked and placed, or refused as bad or for want of a slot. A launch that is complete takes no
record any more. -/
def relayPost (id : Nat) (s : State) : State :=
  match s.relays.find? fun q => q.id == id with
  | none => s
  | some q =>
    if (s.launch? q.launch).isNone then { s with relays := s.relays.filter fun x => x.id != id }
    else if (match q.loc with | .scr b _ => b != q.th.blk && s.scrHeld (some q.loc) | .mem _ => false) then s.push (.relayPost id)
    else
    match (match q.loc with | .mem pa => if !q.denied && s.homeBusy pa 64 then some pa else none | .scr .. => none) with
    | some pa => (s.homeAsk pa 64).push (.relayPost id)
    | none =>
      let w := natOfBytes (s.relayBytes q)
      if s.postBad q.part w then
        let s := s.postFault q.part { addr := q.va, pc := q.ident, kind := 2 }
        (s.relayDone q 2).failLaunch q.launch 0x10
      else
        let die := s.postDie q.part (BitVec.ofNat 64 (bitsN w 383 320))
        let free := s.freeSlots q.part die
        match free[s.draw free.length]? with
        | none => s.relayDone q 1
        | some slot =>
          let s := s.redraw
          let r := q.record w die slot s.nextId (s.slotHandle q.part die slot)
          let s := (s.addRecord r).modLaunch q.launch fun l => { l with outstanding := l.outstanding + 1 }
          (s.relayDone q r.handle).sweepLaunch q.launch
def execRelayPost (id : Nat) (s : State) : Out := .next (relayPost id s).tick

/-! `join` and JOIN_DECREMENT (R326, R38). -/

def joinSend (a : GReg) (_ : Str) (id : ThreadId) (s : State) : State :=
  if s.isWheel id then s
  else
    match s.thread? id, s.block? id.blk with
    | some t, some b =>
      let n := s.nextId
      let h := t.gr64 a
      let s := s.bump.modThread id fun t => { t with as := t.as + 1 }
      let q : RelayReq := { (default : RelayReq) with id := n, th := id, part := b.part, launch := b.launch, join := some h, rel := s.nextId }
      State.beginRelease { s with relays := s.relays ++ [q] } id .dev [] (some (.joinDecrement b.part h))
    | _, _ => s
def execJoin (q : PReg) (a : GReg) (s : State) : Out :=
  execIrrev (.join q a) (fun s _ t => s.orderStall t || ctrFull t.as || s.sigPending t.id) noCheck (fun _ t => bytesOfNat 8 (t.gr64 a).toNat)
    (joinSend a) s

/-- JOIN_DECREMENT of a `join` whose release is complete: AS is lowered at the acknowledgement. -/
def joinDecrement (part : BitVec 6) (handle : DWord) (s : State) : State :=
  match s.relays.find? fun q => q.part == part && q.join == some handle && !(s.rels.any fun r => r.id == q.rel) with
  | none => s
  | some q =>
    let s : State := { s with relays := s.relays.filter fun x => x.id != q.id }
    (s.joinDec part handle).deliver q.th (fun _ => true) fun t => { t with as := t.as - 1 }
def execJoinDecrement (part : BitVec 6) (handle : DWord) (s : State) : Out := .next (joinDecrement part handle s).tick

end Sys2Proof.Machine
end

