-- ==== Sys2Proof/Machine/Dispatcher.lean ====
section
/-! DEFINITION. The dispatchers (R41 to R44, R63, R93, R190, R199, R377, R385): the resources of a core, the order of the candidates,
reservations, the admission, the restore and the relaunch of blocks. -/

namespace Sys2Proof.Machine

/-! Resources (R63, Table 2.6). -/

structure Need where
  teams : Nat
  blocks : Nat
  regs : Nat
  scratch : Nat
  tiles : Nat
  accrows : Nat
deriving DecidableEq, Repr

/-- What one block of a shape takes: a redundant block counts its resources twice. -/
def Shape.need (h : Shape) : Need :=
  let d := if h.red then 2 else 1
  { teams := d * h.teams, blocks := 1, regs := d * h.teams * 128 * h.gregs * 4, scratch := d * h.scratch, tiles := d * h.tiles, accrows := d * h.accrows }
def Need.add (a b : Need) : Need :=
  { teams := a.teams + b.teams, blocks := a.blocks + b.blocks, regs := a.regs + b.regs, scratch := a.scratch + b.scratch,
    tiles := a.tiles + b.tiles, accrows := a.accrows + b.accrows }
def Need.zero : Need := { teams := 0, blocks := 0, regs := 0, scratch := 0, tiles := 0, accrows := 0 }
/-- Within the totals of a core. -/
def Need.fits (a : Need) : Bool :=
  decide (a.teams ≤ 16 ∧ a.blocks ≤ 16 ∧ a.regs ≤ 524288 ∧ a.scratch ≤ 256 ∧ a.tiles ≤ 16 ∧ a.accrows ≤ 128)
/-- A shape that fits an empty core. -/
def Shape.fitsEmpty (h : Shape) : Bool := h.need.fits

/-- What the blocks on a core take. -/
def State.used (s : State) (core : Nat) : Need :=
  (s.blocks.filter fun b => b.core == core && b.resident).foldl (fun n b => n.add b.shape.need) Need.zero
/-- How many blocks of a shape fit beside what is taken. -/
def roomFor (taken : Need) (h : Shape) : Nat → Nat
  | 0 => 0
  | n + 1 => if (taken.add h.need).fits then roomFor (taken.add h.need) h n + 1 else 0

/-! Bulkheads and their cores. -/

def State.bh (s : State) (b : Nat) : Bulkhead := s.bulkheads.getD b Bulkhead.reset
def State.modBh (s : State) (b : Nat) (f : Bulkhead → Bulkhead) : State := { s with bulkheads := s.bulkheads.set b (f (s.bh b)) }
/-- A bulkhead that takes work for a partition: RUN, assigned, its gate open. -/
def Bulkhead.works (x : Bulkhead) : Bool := x.state == .run && x.assigned && x.gateOpen
/-- Its die being no lost agent (R423). -/
def State.bhWorks (s : State) (b : Nat) : Bool := (s.bh b).works && !s.absent.contains (s.agentOf (b / 6))
/-- The compute bulkheads of a partition in ascending number (R392). -/
def State.partBhs (s : State) (part : BitVec 6) : List Nat :=
  (List.range 48).filter fun b => (s.bh b).state == .run && (s.bh b).assigned && (s.bh b).part == part
/-- The bulkheads of a partition, one that is being reset included: while it has one, a partition goes on
(notes/assumptions/76.md). -/
def State.partAll (s : State) (part : BitVec 6) : List Nat :=
  (List.range 48).filter fun b => ((s.bh b).state == .run || (s.bh b).state == .resetting) && (s.bh b).assigned && (s.bh b).part == part
/-- The working cores of a cluster of a bulkhead. -/
def State.clusterCores (s : State) (b cl : Nat) : List Nat :=
  ((List.range 8).map (8 * cl + ·)).filter (fun k => decide (k < (s.bh b).cores)) |>.map (24 * b + ·)
def State.bhCores (s : State) (b : Nat) : List Nat := (List.range 3).flatMap (s.clusterCores b)
/-- Bulkhead and cluster of a core. -/
def bhOf (core : Nat) : Nat := core / 24
def clusterOf (core : Nat) : Nat := core / 8
/-- The bulkhead a generated record, or a block, belongs to. -/
def State.homeBh (_ : State) (b : Block) : Nat := bhOf b.core

/-! Candidates (R41). -/

/-- Whether GANG launches of a partition may run now (R383, R384). -/
def State.gangRuns (s : State) (part : BitVec 6) : Bool :=
  match s.sliceNow with
  | some sl => sl.gid == Config.gangOf part && !sl.aborted
  | none => false
/-- Whether blocks of a launch may be placed: not stopped by PREEMPT, not cancelled, a GANG launch within its slice. -/
def State.placeable (s : State) (l : Nat) : Bool :=
  match s.launch? l with
  | some x => !x.stopped && !x.cancelled && (!x.gang || s.gangRuns x.part)
  | none => false
def State.notFailed (s : State) (l : Nat) : Bool :=
  match s.launch? l with
  | some x => x.failed.isNone
  | none => false

/-- A candidate: a saved block, a killed one that is relaunched, or the records of a block-group. -/
inductive Pick where
  | saved (b : Block)
  | again (b : Block)
  | recs (l : List Record)
deriving DecidableEq, Repr

def Pick.launch : Pick → Nat
  | .saved b | .again b => b.launch
  | .recs l => (l.headD default).launch
def Pick.shape : Pick → Shape
  | .saved b | .again b => b.shape
  | .recs l => (l.headD default).shape
def Pick.stage (p : Pick) : Nat := p.shape.stage
def Pick.count : Pick → Nat
  | .saved _ | .again _ => 1
  | .recs l => l.length
/-- A candidate of a bulkhead's own: a saved block or generated records, not records that running code has posted. -/
def Pick.own : Pick → Bool
  | .saved _ | .again _ => true
  | .recs l => (l.headD default).gen.isSome

/-- First in, first out within a source. -/
def insRec (r : Record) : List Record → List Record
  | [] => [r]
  | x :: l => if r.seq < x.seq then r :: x :: l else x :: insRec r l
def sortRecs (l : List Record) : List Record := l.foldl (fun acc r => insRec r acc) []
/-- Records of one block-group. -/
def Record.mate (r x : Record) : Bool := x.launch == r.launch && x.grp == r.grp && x.shape.stage == r.shape.stage
/-- Generated records by block-group, each at the place of its first record; a group whose generation has paused midway is no candidate
yet: all its blocks are admitted in one step (R42). -/
def groupRecs (l : List Record) : List (List Record) :=
  (l.filter fun r => r.shape.gidx == 0).filterMap fun r =>
    let g := l.filter r.mate
    if g.length = r.shape.gsize + 1 then some g else none
/-- READY records that a launch may have admitted. -/
def State.readyRec (s : State) (r : Record) : Bool := r.state == .ready && s.placeable r.launch && s.notFailed r.launch
/-- Blocks of a multi-stage launch pending in a bulkhead, saved ones and generated records, those not generated yet included (R44): launch,
stage and shape of each. -/
def State.pending (s : State) (b : Nat) : List (Nat × Nat × Shape) :=
  let multi (l : Nat) : Bool := match s.launch? l with | some x => decide (1 < x.stages.length) | none => false
  let saved := ((s.bh b).restore.filterMap s.block?).filter fun k => k.state == .saved && s.placeable k.launch
  let recs := (s.records ++ s.launches.flatMap fun x => x.paused.flatMap (·.2)).filter fun r => r.gen == some b && s.readyRec r
  (saved.map (fun k => (k.launch, k.shape.stage, k.shape)) ++ recs.map fun r => (r.launch, r.shape.stage, r.shape)).filter fun p => multi p.1
/-- A reservation stands while its stage has pending blocks. -/
def State.stands (s : State) (r : Resv) : Bool := (s.pending r.bh).any fun p => p.1 == r.launch && p.2.1 == r.stage
/-- What is taken for a block of a stage: the blocks on the core and the reservations of other stages (R44). -/
def State.taken (s : State) (l stage core : Nat) : Need :=
  (s.resv.filter fun r => r.core == core && !(r.launch == l && r.stage == stage) && s.stands r).foldl (fun n r => n.add r.shape.need) (s.used core)
/-- The candidates of a bulkhead in the order of R41. -/
def State.picks (s : State) (b : Nat) : List Pick :=
  let x := s.bh b
  (List.range 4).flatMap fun prio =>
    ((x.restore.filterMap s.block?).filter fun k => k.prio == prio && k.state == .saved && s.placeable k.launch).map .saved
    ++ ((sortRecs (s.records.filter fun r => r.gen.isNone && r.part == x.part && r.die == b / 6 && r.prio == prio && s.readyRec r)).map fun r => .recs [r])
    ++ ((groupRecs (sortRecs (s.records.filter fun r => r.gen == some b && r.prio == prio && s.readyRec r))).map .recs)

/-! Co-residency (R377). -/

/-- A launch whose blocks have not all been admitted: some wait as records, or are still to be generated. -/
def State.coWaiting (s : State) (x : Launch) : Bool :=
  x.cores && x.failed.isNone && !x.cancelled
  && ((s.records.any fun r => r.launch == x.id && r.gen.isSome && r.state == .ready) || !x.paused.isEmpty
      || x.bhs.any fun b => !x.expanded.contains (b / 6))
/-- The cores that are kept for a co-resident launch, other than the given launch; a co-resident launch that waits itself gives way to
those accepted before it (notes/assumptions/75.md). -/
def State.barred (s : State) (l core : Nat) : Bool :=
  let waits := (s.launch? l).any s.coWaiting
  s.launches.any fun x => x.id != l && (!waits || decide (x.id < l)) && s.coWaiting x && x.coMap.any fun m => m.2.2 == core
/-- The core assigned to a block of a co-resident launch. -/
def Launch.coCore (x : Launch) (grp gidx : Nat) : Option Nat := (x.coMap.find? fun m => m.1 == grp && m.2.1 == gidx).map (·.2.2)

/-! Pool entries (R385). -/

/-- The dies of a launch's partition, ascending. -/
def Launch.dies (x : Launch) : List Nat := (x.bhs.map (· / 6)).eraseDups
/-- The free entries of a launch's pool in the share of a die, ascending, the first n of them. -/
def freeFrom (busy : List Nat) (nent d : Nat) : Nat → Nat → Nat → List Nat
  | 0, _, _ => []
  | _, _, 0 => []
  | fuel + 1, i, n + 1 =>
    if nent ≤ i then []
    else if busy.contains i then freeFrom busy nent d fuel (i + d) (n + 1)
    else i :: freeFrom busy nent d fuel (i + d) n
def State.freeEntries (s : State) (l die n : Nat) : List Nat :=
  match s.launch? l with
  | none => []
  | some x =>
    let busy := (s.blocks.filter fun b => b.launch == l).map (·.pool)
    freeFrom busy x.nent (max 1 x.dies.length) (busy.length + n) (x.dies.findIdx (· == die)) n
/-- Entries of a die's share that reservations for other stages of the launch hold. -/
def State.entriesKept (s : State) (l stage die : Nat) : Nat :=
  (s.resv.filter fun r => r.launch == l && r.stage != stage && r.bh / 6 == die && s.stands r).length
/-- Whether a die's share has entries for n blocks of a stage, beside those reserved. -/
def State.entriesFor (s : State) (l stage die n : Nat) : Bool :=
  let kept := s.entriesKept l stage die
  decide (n + kept ≤ (s.freeEntries l die (n + kept)).length)

/-! Where a candidate fits (R42, R44, R377). -/

/-- Cores that a candidate may use on a cluster. -/
def State.mayUse (s : State) (p : Pick) (core : Nat) : Bool :=
  !s.barred p.launch core || (match p with | .saved b => b.prio == 0 | .again _ | .recs _ => false)
def State.coreRoom (s : State) (p : Pick) (core : Nat) : Nat :=
  if s.mayUse p core then roomFor (s.taken p.launch p.stage core) p.shape 16 else 0
/-- Clusters of a bulkhead that can hold every block of the candidate. -/
def State.clustersFor (s : State) (b : Nat) (p : Pick) : List Nat :=
  (List.range 3).filter fun cl => decide (p.count ≤ sumL ((s.clusterCores b cl).map (s.coreRoom p)))
/-- The clusters that a candidate is placed on where they can hold it; one moved with its group has the group's cluster alone (R398). -/
def State.clustersOf (s : State) (b : Nat) (p : Pick) : List Nat :=
  (s.clustersFor b p).filter fun cl => match p with | .saved k | .again k => !k.moved || clusterOf k.core % 3 == cl | .recs _ => true
/-- Whether every block of a co-resident group fits the core assigned to it. -/
def State.coFits (s : State) (x : Launch) (l : List Record) : Bool :=
  l.all fun r =>
    match x.coCore r.grp r.shape.gidx with
    | none => false
    | some c => !s.barred x.id c && (((l.filter fun q => x.coCore q.grp q.shape.gidx == some c).foldl (fun n q => n.add q.shape.need) (s.taken x.id r.shape.stage c))).fits
def State.isCo (s : State) (p : Pick) : Option Launch :=
  match p with
  | .recs (r :: l) =>
    if r.shape.cores then (s.launch? r.launch).filter fun x => (r :: l).all fun q => (x.coCore q.grp q.shape.gidx).isSome else none
  | _ => none
def State.fits (s : State) (b : Nat) (p : Pick) : Bool :=
  (match p with
   | .saved _ | .again _ => true
   | .recs l => s.entriesFor p.launch p.stage (b / 6) l.length)
  && (match s.isCo p, p with
      | some x, .recs l => s.coFits x l
      | _, _ => !(s.clustersOf b p).isEmpty)

/-! Reservations (R44). -/

/-- Whether a stage of a launch has a block resident in a bulkhead. -/
def State.stageResident (s : State) (b l stage : Nat) : Bool :=
  s.blocks.any fun k => k.launch == l && k.shape.stage == stage && bhOf k.core == b && k.resident
/-- The stages of multi-stage launches with blocks pending in a bulkhead, with a shape of each. -/
def State.pendingStages (s : State) (b : Nat) : List (Nat × Nat × Shape) :=
  let ps := s.pending b
  (ps.map fun p => (p.1, p.2.1)).eraseDups.filterMap fun k => ps.find? fun p => p.1 == k.1 && p.2.1 == k.2
/-- Reservations that still stand: their stage has pending blocks and they fit beside the blocks on their core. -/
def keepResv (s : State) (pend : List (Nat × Nat × Shape)) : List Resv → List Resv
  | [] => []
  | r :: l =>
    let ks := keepResv s pend l
    if pend.any (fun p => p.1 == r.launch && p.2.1 == r.stage)
        && ((ks.filter fun k => k.core == r.core).foldl (fun n k => n.add k.shape.need) ((s.used r.core).add r.shape.need)).fits then r :: ks
    else ks
/-- The reservations of a bulkhead brought up to date: one for each pending stage where a core has the resources, the core chosen freely. -/
def State.reserve (s : State) (b : Nat) : State :=
  let pend := s.pendingStages b
  let s : State := { s with resv := (s.resv.filter fun r => r.bh != b) ++ (keepResv s pend (s.resv.filter fun r => r.bh == b).reverse).reverse }
  pend.foldl (fun (s : State) p =>
    if s.resv.any (fun r => r.bh == b && r.launch == p.1 && r.stage == p.2.1) then s
    else
      let cs := (s.bhCores b).filter fun c => !s.barred p.1 c && ((s.taken p.1 p.2.1 c).add p.2.2.need).fits && s.entriesFor p.1 p.2.1 (b / 6) 1
      match cs[s.draw cs.length]? with
      | none => s
      | some c => { s.redraw with resv := s.resv ++ [{ launch := p.1, stage := p.2.1, bh := b, core := c, shape := p.2.2 }] }) s

/-- The candidate that a bulkhead's dispatcher places next, if it fits (R41, R44): a stage with no block resident goes before stages
that have one; while a reservation cannot be made no stage that has a block resident is given another; a co-resident launch is
placed on its own cores. Otherwise the first candidate or none. -/
def State.choose (s : State) (b : Nat) : Option Pick :=
  let ps := s.picks b
  let pend := s.pendingStages b
  let starving := ps.filter fun p =>
    pend.any (fun k => k.1 == p.launch && k.2.1 == p.stage) && p.own && !s.stageResident b p.launch p.stage && s.fits b p
  let unmade := pend.any fun k => !(s.resv.any fun r => r.bh == b && r.launch == k.1 && r.stage == k.2.1)
  let co := ps.filter fun p => (s.isCo p).isSome && s.fits b p
  match ps with
  | [] => none
  | p :: _ =>
    let has := s.stageResident b p.launch p.stage
    if has then
      (match starving with
       | q :: _ => some q
       | [] => if !unmade && s.fits b p then some p else co.head?)
    else if s.fits b p then some p
    else match starving with | q :: _ => some q | [] => co.head?

/-! Bad records (R34). -/

def State.recBad (s : State) (r : Record) : Bool := !s.entryOk r.part r.object r.entry
/-- Where a candidate record is bad: it is the first candidate's, whether or not it fits. -/
def State.firstBad (s : State) (b : Nat) : Option Record :=
  match s.picks b with
  | .recs l :: _ => l.find? s.recBad
  | _ => none
/-- A bad record that is still there is freed. -/
def State.freeBad (s : State) (r : Record) : State :=
  match s.records.find? fun x => x.part == r.part && x.die == r.die && x.slot == r.slot && x.handle == r.handle with
  | some x => s.freeRecord x
  | none => s
/-- A bad record is not run (R34). -/
def State.dropBad (s : State) (r : Record) : State :=
  ((s.postFault r.part { handle := r.handle, pc := r.ident, kind := 2 }).failLaunch r.launch 0x10).freeBad r

/-! Placement. -/

/-- Pickers of new teams: in ascending team order the picker with the fewest resident teams, the lowest among equals (R17). A wheeler
has the picker of its leader (R200). -/
def leastPicker (n : List Nat) : Nat :=
  (List.range 4).foldl (fun m k => if n.getD k 0 < n.getD m 0 then k else m) 0
def pickersFrom (n : List Nat) (d : Nat) : Nat → List Nat
  | 0 => []
  | k + 1 => let p := leastPicker n; p :: pickersFrom (n.set p (n.getD p 0 + d)) d k
def State.pickerLoad (s : State) (core blk : Nat) : List Nat :=
  (List.range 4).map fun p => (s.teams.filter fun m => m.blk != blk && m.picker == p &&
    (match s.block? m.blk with | some b => b.core == core && b.resident | none => false)).length
def State.pickers (s : State) (core blk : Nat) (h : Shape) : List Nat := pickersFrom (s.pickerLoad core blk) (if h.red then 2 else 1) h.teams

/-- Cores for the blocks of a candidate on one cluster, each chosen freely among those with room. -/
def State.spread (s : State) (p : Pick) (cores : List Nat) : Nat → List Nat → List Nat × State
  | 0, _ => ([], s)
  | n + 1, done =>
    let free := cores.filter fun c => decide ((done.filter (· == c)).length < s.coreRoom p c)
    let c := free.getD (s.draw free.length) 0
    let r := State.spread s.redraw p cores n (done ++ [c])
    (c :: r.1, r.2)
/-- The cluster and the cores of a candidate; a cluster of `want` is taken first (R42, R199). -/
def State.placeOn (s : State) (b : Nat) (p : Pick) (want : Nat → Bool) : List Nat × State :=
  match s.isCo p, p with
  | some x, .recs l => (l.map fun r => (x.coCore r.grp r.shape.gidx).getD 0, s)
  | _, _ =>
    let cls := s.clustersOf b p
    let cls := if cls.any want then cls.filter want else cls
    let cl := cls.getD (s.draw cls.length) 0
    s.redraw.spread p (s.clusterCores b cl) p.count []

/-- A block of a record at its admission (R43). -/
def Record.block (r : Record) (id core pool : Nat) (run : Bool) : Block :=
  { id := id, handle := r.handle, part := r.part, launch := r.launch, ident := r.ident, grp := r.grp, shape := r.shape, prio := r.prio,
    principal := r.principal, object := r.object, entry := r.entry, frame := r.frame, succ := r.succ, state := if run then .running else .admitted,
    core := core, age := id, scrGen := id, pool := pool, lead := Side.reset, wheels := Side.reset, sbuf := [], ckpt0 := none, ckpt1 := none,
    valid := none, relaunches := 0, mismatch := false, preempt := false, forced := false, quiesce := false, rolling := false,
    opening := none, releasing := [], due := 0, relMade := false, lost := false, doomed := false, moved := false }
/-- Admission of one block: its record runs, its state is laid out, and every thread makes an acquire of .sys scope (R43, R93). -/
def State.admitRecord (s : State) (r : Record) (core pool : Nat) : State :=
  let b := r.block s.nextId core pool (!r.shape.cores)
  let ps := s.pickers core b.id b.shape
  let im := b.fresh fun k => ps.getD k 0
  let s : State := { s with
    nextId := s.nextId + 1
    records := s.records.map fun x => if x.part == r.part && x.die == r.die && x.slot == r.slot then { x with state := .running } else x
    blocks := s.blocks ++ [b]
    teams := s.teams ++ im.teams
    threads := s.threads ++ im.threads }
  s.acquire core .sys
/-- A co-resident launch whose last block is admitted begins (R31). -/
def State.startCo (s : State) (l : Nat) : State :=
  match s.launch? l with
  | some x =>
    if x.cores && !s.coWaiting x then
      { s with blocks := s.blocks.map fun b => if b.launch == l && b.state == .admitted then { b with state := .running } else b }
    else s
  | none => s

/-- BLOCK_ADMISSION: a bad record is dropped; else the chosen records become blocks, a group in one step. -/
def blockAdmission (b : Nat) (s : State) : State :=
  if !s.bhWorks b then s
  else
    match s.firstBad b with
    | some r => s.dropBad r
    | none =>
      let s := s.reserve b
      match s.choose b with
      | some (.recs l) =>
        match l.find? s.recBad with
        | some r => s.dropBad r
        | none =>
        let es := s.freeEntries (l.headD default).launch (b / 6) l.length
        let (cs, s) := s.placeOn b (.recs l) (fun _ => true)
        let s := (List.range l.length).foldl (fun s k =>
          match l[k]? with
          | some r => s.admitRecord r (cs.getD k 0) (es.getD k 0)
          | none => s) s
        (s.startCo (l.headD default).launch).reserve b
      | _ => s
def execBlockAdmission (b : Nat) (s : State) : Out := .next (blockAdmission b s).tick

/-! Restore and relaunch. -/

/-- The cluster on which another block of the group runs. -/
def State.groupCluster (s : State) (k : Block) (cl : Nat) : Bool :=
  s.blocks.any fun x => x.id != k.id && x.mates k && x.resident && clusterOf x.core % 3 == cl
/-- A block whose threads have all ended retires (R45). -/
def State.retireIfDone (s : State) (blk : Nat) : State :=
  if (s.blockThreads blk).all fun t => t.status == .exited then
    State.push (s.modBlock blk fun b => { b with state := .retiring }) (.blockRetire blk)
  else s
/-- A block put on a core again, with an acquire of .dev scope for its threads (R190), its teams on pickers (R17); its pending matrix
operations begin once their owners have completed (R143). -/
def State.settleOn (s : State) (k : Block) (core : Nat) : State :=
  let ps := s.pickers core k.id k.shape
  let s : State := { s with teams := s.teams.map fun m => if m.blk == k.id then { m with picker := ps.getD m.idx 0 } else m }
  let s := s.modBlock k.id fun x => { x with state := .running, core := core, age := s.nextId, moved := false }
  let s := ((s.bump).acquire core .dev).barCheckAll k.id
  let s := if k.shape.cont || k.shape.red then s.push (.commitStoreRelease k.id) else s
  let s := s.wakeMat k.id
  s.retireIfDone k.id
/-- BLOCK_RESTORE: the chosen saved block returns to a core, on the cluster of its group where that can hold it (R42). -/
def blockRestore (b : Nat) (s : State) : State :=
  if !s.bhWorks b then s
  else
    let s := s.reserve b
    match s.choose b with
    | some (.saved k) =>
      if !s.saveOk k then s.killForGood k 0x13
      else
      let (cs, s) := s.placeOn b (.saved k) (s.groupCluster k)
      let s := s.modBh b fun x => { x with restore := x.restore.erase k.id }
      (s.settleOn k (cs.headD 0)).reserve b
    | _ => s
def execBlockRestore (b : Nat) (s : State) : Out := .next (blockRestore b s).tick

/-- CONTAINED_RELAUNCH: a killed block begins again from its checkpoint on its own bulkhead, on another cluster where one can hold it
(R199); with new scratch, and behind an acquire. A checkpoint that cannot be reached kills it for good (R385). -/
def containedRelaunch (blk : Nat) (s : State) : State :=
  match s.block? blk with
  | none => s
  | some k =>
    if k.state != .killed then s
    else
      let b := bhOf k.core
      let p : Pick := .again k
      let s := s.reserve b
      if !s.bhWorks b || !s.placeable k.launch || (s.clustersOf b p).isEmpty then s.push (.containedRelaunch blk)
      else if !s.imageOk k then s.killForGood k 0x13
      else
        let (cs, s) := s.placeOn b p (fun cl => cl != clusterOf k.core % 3)
        let s := s.modBlock blk fun x => { x with scrGen := s.nextId }
        (s.bump).settleOn k (cs.headD 0)
def execContainedRelaunch (blk : Nat) (s : State) : Out := .next (containedRelaunch blk s).tick

/-- What the dispatchers can do now: a bad record to drop, records to take in, a saved block to restore. -/
def State.dispatchable (s : State) : List Ev :=
  (List.range 48).filterMap fun b =>
    if !s.bhWorks b then none
    else if (s.firstBad b).isSome then some (.blockAdmission b)
    else
      match (s.reserve b).choose b with
      | some (.recs _) => some (.blockAdmission b)
      | some (.saved _) | some (.again _) => some (.blockRestore b)
      | none => none

end Sys2Proof.Machine
end

