-- ==== Sys2Proof/Machine/Groom.lean ====
section
/-! DEFINITION. The groom engine and the ends of blocks: saves (R185 to R191), the pre-emption timeout (R188), retirement (R46), and
the comparison of signatures of redundant pairs (R202 to R206, R426). -/

namespace Sys2Proof.Machine

/-! BLOCK_SAVE (R185, R188). -/

/-- A thread that a pre-emption finds stopped: at a hint, waiting, parked, and once the save is forced at a clause boundary. -/
def State.atRest (s : State) (b : Block) (t : Thread) : Bool :=
  match t.status with
  | .ready => b.forced && t.hdr.isNone && !t.granted && !s.inString t.id
  | .waiting w => w != .irrevocable && w != .staging
  | _ => true
/-- The block is to be saved now: for a trap, or for a pre-emption. -/
def State.saveNow (s : State) (b : Block) : Bool :=
  let ts := s.blockThreads b.id
  ((ts.any (·.isParked) && ts.all (·.idle)) || ((b.preempt || b.forced) && ts.all (s.atRest b)))
  && !(s.strings.any fun c => c.members.any fun id => id.blk == b.id) && !s.sigsOpen b.id && !b.rolling
  && !(b.shape.red && (b.lead.ops ++ b.wheels.ops).any fun o => o.running && memOp o.ins)
/-- Threads stopped at a hint that the other side of their pair waits for go on (R426). -/
def State.catchUp (s : State) (blk : Nat) : State :=
  { s with threads := s.threads.map fun t =>
      if t.id.blk == blk && s.sigOwed t.id then (match t.status with | .stopped .. => t.resume | _ => t) else t }
/-- A release of .dev scope that covers every thread of a block (R46, R190), with the step after it. -/
def State.blockRelease (s : State) (b : Block) (after : Option Ev) : State :=
  let s := (s.flush b.core fun x => x.dirty.any fun id => id.blk == b.id).sendUpd b.core
  State.push { s with
    rels := s.rels ++ [{ id := s.nextId, th := { blk := b.id, wheel := false, tid := 0 }, core := b.core, scope := .dev, waits := s.coreWbs b.core,
                         upd := (s.upd.filter (fun u => u.core == b.core)).map (·.id), cells := [], after := after }]
    nextId := s.nextId + 1 } (.releaseComplete s.nextId)

/-- No thread of a block is within a clause that it could go on with. -/
def State.atBoundary (s : State) (blk : Nat) : Bool :=
  (s.blockThreads blk).all fun t => !s.inString t.id && !(t.ready && t.hdr.isSome)
/-- BLOCK_SAVE: the save begins; blocking requests are withdrawn. A block whose launch is
cancelled is killed in its place, at its next clause boundary (R381). -/
def blockSave (blk : Nat) (s : State) : State :=
  match s.block? blk with
  | none => s
  | some b =>
    if b.state != .running then (if b.state == .saving && b.doomed then s.dropBlock b else s)
    else if b.doomed then (if s.atBoundary blk then s.dropBlock b else s.push (.blockSave blk))
    else if s.saveNow b then
      let s := s.modBlock blk fun x => { x with state := .saving, quiesce := false, relMade := false }
      let s := (s.qreqs.filter fun q => !q.try_ && q.open && q.ths.any fun t => t.blk == blk).foldl (fun s q => s.push (.queueWithdrawal q.id)) s
      s.push (.blockSaveComplete blk)
    else if b.preempt || b.forced || (s.blockThreads blk).any (·.isParked) then (s.catchUp blk).push (.blockSave blk)
    else s
def execBlockSave (blk : Nat) (s : State) : Out := .next (blockSave blk s).tick

/-! BLOCK_SAVE_COMPLETE (R186, R189 to R191). -/

/-- A hitch whose fire is under way and does not wait for an owner. -/
def Side.fires (d : Side) : Bool := d.hitch.any fun h => h.st == .firing && !h.late
/-- A pending matrix operation of a block is about to be looked at. -/
def beginsOf (blk : Nat) : Ev → Bool
  | .pendingMatrixOpBegin b .. => b == blk
  | _ => false
/-- Work of a block that a save, or its retirement, waits for. -/
def State.working (s : State) (b : Block) : Bool :=
  s.busy b.id || b.arrayBusy || s.agenda.any (beginsOf b.id) || s.gathering b.id || b.lead.fires || b.wheels.fires
  || (s.qreqs.any fun q => q.ths.any fun t => t.blk == b.id) || (s.blockThreads b.id).any fun t => s.ntUnacked t.id
def Thread.isStopped (t : Thread) : Bool :=
  match t.status with
  | .stopped .. => true
  | _ => false
/-- A thread as the save area holds it: one that waits at a `commit` waits on. -/
def State.savedThread (s : State) (t : Thread) : Thread :=
  let t := (s.within t).writePend fun _ => true
  if waitsCommit t then t else if t.isStopped then t.masked.settle else t.settle
/-- The scratch ranges that a save keeps, none where it keeps all. -/
def saveRanges (b : Block) (ts : List Thread) : Option (List Word) :=
  if b.forced || ts.any (fun t => t.status != .exited && !t.isStopped) then none
  else some ((ts.filterMap liveOf).flatMap fun l => l.2.2)
def Side.keep (rs : Option (List Word)) (d : Side) : Side :=
  match rs with
  | none => d
  | some rs =>
    let kept (o : Nat) : Bool := rs.any (inRange (o / 1024))
    { d with scratch := d.scratch.filter (fun c => kept c.1), poison := d.poison.filter fun x => decide (x < 2 ^ 25) || kept (x - 2 ^ 25) }

/-- BLOCK_SAVE_COMPLETE: once the work in flight is done the block's writes are released (R190); then the state is written, the core is free, and the block goes to its restore list or to the driver; a save area
that cannot be reached kills the block (R385). -/
def blockSaveComplete (blk : Nat) (s : State) : State :=
  match s.block? blk with
  | none => s
  | some b =>
    if b.state != .saving then s
    else if b.doomed then s.dropBlock b
    else if s.working b then s.push (.blockSaveComplete blk)
    else if !b.relMade then (s.modBlock blk fun x => { x with relMade := true }).blockRelease b (some (.blockSaveComplete blk))
    else if !s.saveOk b then s.killForGood b 0x13
    else
      let s := s.endWaits fun id => id.blk == blk
      let ts := s.blockThreads blk
      let rs := saveRanges b ts
      let trap := trapRecord b ts
      let stop := match s.launch? b.launch with | some l => l.stopped | none => false
      let after : BState := if trap.isSome then .held true else if stop then .held false else .saved
      let s : State := { s with
        threads := s.threads.map fun t => if t.id.blk == blk then s.savedThread t else t
        teams := s.teams.map fun m => if m.blk == blk then { m with sigs := [] } else m }
      let s := s.modBlock blk fun x => { x with state := after, preempt := false, forced := false, lead := x.lead.keep rs, wheels := x.wheels.keep rs }
      match trap with
      | some r => s.postFault b.part r
      | none => if stop then s else s.modBh (bhOf b.core) fun x => { x with restore := x.restore ++ [blk] }
def execBlockSaveComplete (blk : Nat) (s : State) : Out := .next (blockSaveComplete blk s).tick

/-- PREEMPT_TIMEOUT: the save is forced (R188). -/
def preemptTimeout (blk : Nat) (s : State) : State :=
  match s.block? blk with
  | none => s
  | some b =>
    if b.preempt && b.state == .running then
      if b.due ≤ s.cycle then (s.modBlock blk fun x => { x with forced := true }).push (.blockSave blk) else s.push (.preemptTimeout blk)
    else s
def execPreemptTimeout (blk : Nat) (s : State) : Out := .next (preemptTimeout blk s).tick

/-! BLOCK_RETIRE (R46). -/

def isStoreFault (blk : Nat) : Ev → Bool
  | .storeFault th .. => th.blk == blk
  | _ => false
/-- Copies, asynchronous operations and stores of a block that have not completed. -/
def State.unfinished (s : State) (b : Block) : Bool :=
  s.working b || !b.lead.ops.isEmpty || !b.wheels.ops.isEmpty || (s.copies.any fun c => c.blk == b.id) || (s.relays.any fun q => q.th.blk == b.id)
  || s.sigsOpen b.id || (s.agenda.any (isStoreFault b.id)) || b.rolling
/-- Accesses that other blocks have had accepted to a block's scratchpad and that are not performed yet (R59). -/
def State.scrUsed (s : State) (blk : Nat) : Bool :=
  let at' : Loc → Bool | .scr b _ => b == blk | .mem _ => false
  (s.atoms.any fun a => at' a.loc) || (s.rels.any fun r => r.cells.any fun c => at' c.loc) || s.relays.any fun q => at' q.loc
/-- The final commit of a contained block: the sides of a redundant one compared, a checkpoint, and the buffered stores released. -/
def State.finalCommit (s : State) (b : Block) : State :=
  let s := s.snap b.id []
  State.push (s.modBlock b.id fun x => { x with releasing := x.releasing ++ x.sbuf, sbuf := [] }) (.commitStoreRelease b.id)

/-- BLOCK_RETIRE: one call takes the block to its release, the call that follows the release frees it. -/
def blockRetire (blk : Nat) (s : State) : State :=
  match s.block? blk with
  | none => s
  | some b =>
    if b.lost then s.killForGood b 0x13
    else if b.state == .retiring then
      if s.unfinished b then s.push (.blockRetire blk)
      else if b.shape.red && crc32c (sideSig (s.imageOf b) false) != crc32c (sideSig (s.imageOf b) true) then s.mismatched blk
      else if (b.shape.cont || b.shape.red) && !s.ckptOk b then s.lose blk
      else
        let s := if b.shape.cont || b.shape.red then s.finalCommit b else s
        (s.modBlock blk fun x => { x with state := .releasing }).blockRelease b (some (.blockRetire blk))
    else if b.state == .releasing && (!b.releasing.isEmpty || s.cmtOpen blk || s.scrUsed blk) then s.push (.blockRetire blk)
    else if b.state == .releasing && !(s.rels.any fun r => r.th.blk == blk) then
      let s := if b.succ = 0 then s else s.joinDec b.part b.succ
      let s := s.modLaunch b.launch fun l => { l with retired := l.retired + 1 }
      s.dropBlock b
    else s
def execBlockRetire (blk : Nat) (s : State) : Out := .next (blockRetire blk s).tick

/-! SIGNATURE_COMPARE (R202 to R206). -/

/-- The oldest part of a side for a thread, with its word. -/
def oldestSig (l : List SigEntry) (wheel : Bool) (tid : Nat) : Option (Word × SigPart) :=
  (l.filter fun e => e.wheel == wheel).findSome? fun e => (e.parts.find? fun p => p.tid == tid).map fun p => (e.pc, p)
def takeSig (wheel : Bool) (tid : Nat) : List SigEntry → List SigEntry
  | [] => []
  | e :: l =>
    if e.wheel == wheel && e.parts.any (fun p => p.tid == tid) then
      let ps := e.parts.filter fun p => p.tid != tid
      if ps.isEmpty then l else { e with parts := ps } :: l
    else e :: takeSig wheel tid l
/-- A matched store of the leaders: both copies of the block's own scratch, other cells into the store buffer (R200, R202). -/
def State.matchStore (s : State) (blk tid : Nat) (cells : List LCell) : State :=
  let own := cells.filter fun c => !buffered blk c
  let s := own.foldl (fun s c => (s.putCell { blk := blk, wheel := false, tid := tid } c).putCell { blk := blk, wheel := true, tid := tid } c) s
  s.modBlock blk fun b => { b with sbuf := b.sbuf ++ cells.filter (buffered blk) }
/-- A thread whose trap or exit has been agreed on. -/
def State.matchStop (s : State) (id : ThreadId) : State :=
  match s.thread? id with
  | some t =>
    match t.status with
    | .waiting (.signature (some trap)) => s.park id trap
    | .waiting (.signature none) => s.modThread id fun t => { t with status := .ready, granted := true }
    | _ => s
  | none => s
/-- What a match lets happen. -/
def State.matchSig (s : State) (blk tid : Nat) (p : SigPart) : State :=
  let a : ThreadId := { blk := blk, wheel := false, tid := tid }
  let b : ThreadId := { blk := blk, wheel := true, tid := tid }
  match p.kind with
  | .store => s.matchStore blk tid p.cells
  | .stop => (s.matchStop a).matchStop b
  | .irrev => (s.stopFor a .irrevocable).stopFor b .irrevocable
/-- A thread's next signature is the one of its `commit`; an array has none to come while its side's threads are all there or have exited and
no store of it is under way. -/
def State.signsNoMore (s : State) (id : ThreadId) : Bool :=
  if id.tid < arrayTid then (match s.thread? id with | some t => waitsCommit t | none => false)
  else (s.blockThreads id.blk).all (fun t => t.id.wheel != id.wheel || waitsCommit t || t.status == .exited)
    && (match s.side? id.blk id.wheel with | some d => !d.ops.any fun o => memStore o.ins | none => true)
/-- One thread of a pair compared, as far as both sides have signed; a signature of one side does not match a `commit` of the other. -/
def State.compareOne (s : State) (blk team tid : Nat) : State :=
  match s.team? blk false team with
  | none => s
  | some m =>
    match oldestSig m.sigs false tid, oldestSig m.sigs true tid with
    | some (pc, p), some (pc', p') =>
      if pc == pc' && p.crc == p'.crc && p.kind == p'.kind then
        (s.modTeam blk false team fun m => { m with sigs := takeSig true tid (takeSig false tid m.sigs) }).matchSig blk tid p
      else s.mismatched blk
    | some _, none => if s.signsNoMore { blk := blk, wheel := true, tid := tid } then s.mismatched blk else s
    | none, some _ => if s.signsNoMore { blk := blk, wheel := false, tid := tid } then s.mismatched blk else s
    | none, none => s
/-- The driver's record of a kill for redundancy (R205, R199). -/
def redundancyRecord (b : Block) : FqRecord := killRecord b .redundancyFail b.entry 0
/-- SIGNATURE_COMPARE: a block whose pair has disagreed returns to its checkpoint once its copies are done, and is killed the second
time; else every thread of the team is compared. -/
def signatureCompare (blk team : Nat) (s : State) : State :=
  match s.block? blk with
  | none => s
  | some b =>
    if b.rolling then
      if s.copies.any fun c => c.blk == blk then s.push (.signatureCompare blk team)
      else if b.mismatch then s.kill blk 0x11 (some (redundancyRecord b))
      else if !s.imageOk b then s.killForGood b 0x13
      else
        let s := ((s.rollback b).wakeMat blk).modBlock blk fun x => { x with mismatch := true, state := if b.state == .retiring then .running else x.state }
        s.retireIfDone blk
    else
      let array := match s.team? blk false team with
        | some m => (((m.sigs.flatMap (·.parts)).map (·.tid)).filter fun k => decide (arrayTid ≤ k)).eraseDups
        | none => []
      ((List.range 128).map (128 * team + ·) ++ array).foldl (fun s tid => s.compareOne blk team tid) s
def execSignatureCompare (blk team : Nat) (s : State) : Out := .next (signatureCompare blk team s).tick

end Sys2Proof.Machine
end

