-- ==== Sys2Proof/Machine/Launch.lean ====
section
/-! DEFINITION. Launches (R40, R47, R373 to R379, R385, R386): the front end, its checks, the expansion of packets into records, and
the completion record. -/

namespace Sys2Proof.Machine

/-! Submission queues (R373, Tables 18.1, 18.2). -/

def sqBase (q : Nat) : Nat := 0x1000 + 32 * q
def sqCtl (q : Nat) : Nat := 0x1008 + 32 * q
def sqTail (q : Nat) : Nat := 0x100c + 32 * q
def sqHead (q : Nat) : Nat := 0x1010 + 32 * q
def State.vfPartOf (s : State) (f : Nat) : Option (BitVec 6) := (s.vfPart.find? fun b => b.1 == f).map (·.2)
/-- A queue with an entry to fetch. -/
def State.sqReady (s : State) (f q : Nat) : Bool := (s.fr f (sqCtl q)).getLsbD 31 && s.fr f (sqHead q) != s.fr f (sqTail q)
/-- The queue's entries and the address of one. -/
def State.sqSize (s : State) (f q : Nat) : Nat := 2 ^ bitsN (s.fr f (sqCtl q)).toNat 4 0
def State.sqEntry (s : State) (f q : Nat) : DWord := BitVec.ofNat 64 ((s.fr f (sqBase q)).toNat / 128 * 128 + 128 * (s.fr f (sqHead q)).toNat)
/-- A queue stopped by an error: EN clear, ERR set. -/
def State.sqError (s : State) (f q : Nat) : State := s.setFr f (sqCtl q) ((s.fr f (sqCtl q) &&& 0x5fffffff) ||| 0x20000000)
def State.sqAdvance (s : State) (f q : Nat) : State := s.setFr f (sqHead q) (BitVec.ofNat 64 (((s.fr f (sqHead q)).toNat + 1) % s.sqSize f q))

/-- The bytes of a device address of a partition: none where they cannot be reached, with the fault of the walk. -/
def State.devRead (s : State) (part : BitVec 6) (va n : Nat) : Except WalkFault Nat :=
  match s.lookup frontMmu part va with
  | .error e => .error e
  | .ok (x, _) => if s.ownerOf x.pa == some part then .ok (rdNat s.mem x.pa n) else .error .owner
/-- The entry at SQHEAD: from the host, or from the device's memory. -/
def State.sqFetch (s : State) (f q : Nat) : Except WalkFault Nat :=
  let a := (s.sqEntry f q).toNat
  if (s.fr f (sqCtl q)).getLsbD 30 then
    match s.vfPartOf f with
    | some p => s.devRead p a 128
    | none => .error .notPresent
  else .ok (rdNat s.host a 128)

/-! The packet (R375, Table 18.3), as a natural. -/

def pkStage (w k : Nat) : Nat := bitsN w (512 + 64 * k + 63) (512 + 64 * k)
def pkS (w : Nat) : Nat := bitsN w 306 304 + 1
def pkRes (w : Nat) : Nat := bitsN w 447 384
/-- A redundant block is contained (R200, Table 18.3). -/
def pkShape (w k : Nat) : Shape :=
  { parseShape (bitsN (pkStage w k) 40 0) with cores := bitsN w 311 311 == 1, red := bitsN w 310 310 == 1, cont := bitsN w 309 309 == 1 || bitsN w 310 310 == 1 }
def pkStages (w : Nat) : List StageDesc := (List.range (pkS w)).map fun k => { shape := pkShape w k, gcount := bitsN (pkStage w k) 63 44 }
def pkBlocks (w : Nat) : Nat := sumL ((pkStages w).map fun d => d.gcount * (d.shape.gsize + 1))

/-! The checks of Table 18.4. -/

def stageBad (w k : Nat) : Bool :=
  let d := pkStage w k
  if k < pkS w then
    bitsN d 43 41 != 0 || bitsN d 63 44 == 0 || bitsN d 34 32 != k || bitsN d 40 38 != 0 || shapeBad (bitsN d 40 0)
  else d != 0
/-- FORMAT: a resource record that cannot be read cannot pass. -/
def State.formatBad (s : State) (part : BitVec 6) (w : Nat) : Bool :=
  bitsN w 511 448 != 0 || bitsN w 319 313 != 0 || decide (1024 < bitsN w 303 288) || bitsN w 191 128 % 32 != 0
  || pkRes w == 0 || pkRes w % 64 != 0
  || (match s.devRead part (pkRes w) 64 with | .ok r => bitsN r 287 0 != 0 | .error _ => true)
  || (List.range 8).any (stageBad w)
/-- OBJECT: LIVE, and the entry one of its own. -/
def State.objectBad (s : State) (part : BitVec 6) (w : Nat) : Bool :=
  let h := BitVec.ofNat 32 (bitsN w 31 0)
  match s.objLoaded part h with
  | none => true
  | some a => s.objField a 1 0 != 1 || !s.entryOk part h (BitVec.ofNat 32 (bitsN w 63 32))
/-- PRINCIPAL: valid, below the count, and granted to the function (R410). -/
def State.granted (s : State) (part : BitVec 6) (f pr : Nat) : Bool :=
  match s.prEntry part pr with
  | some base => rdNat s.mem (base + 512 + f / 8) 1 / 2 ^ (f % 8) % 2 == 1
  | none => false

/-- The bulkhead of group i (R40). -/
def groupBh (bhs : List Nat) (salt i : Nat) : Nat := bhs.getD ((i + salt) % bhs.length) 0
/-- One group packed onto the lowest cluster that takes it, lowest core first; `n` blocks of the shape fit an empty core (R377). -/
def State.coGroup (s : State) (cap size b i : Nat) (m : List (Nat × Nat × Nat)) : Option (List (Nat × Nat × Nat)) :=
  let room (c : Nat) : Nat := cap - (m.filter fun x => x.2.2 == c).length
  let slots (cl : Nat) : List Nat := (s.clusterCores b cl).flatMap fun c => List.replicate (room c) c
  match (List.range 3).find? (fun cl => decide (size ≤ (slots cl).length)) with
  | none => none
  | some cl => some (m ++ (List.range size).map fun j => (i, j, (slots cl).getD j 0))
/-- The first fit of a co-resident launch: group, index and core of each block. -/
def State.coPlace (s : State) (bhs : List Nat) (salt : Nat) (d : StageDesc) : Option (List (Nat × Nat × Nat)) :=
  (List.range d.gcount).foldl (fun m i =>
    match m with
    | none => none
    | some m => s.coGroup (roomFor Need.zero d.shape 16) (d.shape.gsize + 1) (groupBh bhs salt i) i m) (some [])
def State.coTest (s : State) (part : BitVec 6) (w : Nat) : Option (List (Nat × Nat × Nat)) :=
  if pkS w = 1 then s.coPlace (s.partBhs part) (bitsN w 287 272) ((pkStages w).headD default) else none

/-- The areas of a pool entry as start and size in bytes (Table 18.9). -/
def poolAreas (w r : Nat) : List (Nat × Nat) :=
  let cont : Bool := bitsN w 309 309 == 1 || bitsN w 310 310 == 1
  let shapes := (pkStages w).map (·.shape)
  let sz := saveSize shapes (bitsN w 310 310 == 1)
  let t := (shapes.map (·.threads)).foldl max 0
  [(0, 1024 * (t * bitsN w 303 288)), (1024 * bitsN r 383 352, sz)]
  ++ if cont then [(1024 * bitsN r 351 320, 2 * sz), (1024 * bitsN r 319 288, 1048576)] else []
/-- No two of the areas overlap. -/
def disjoint : List (Nat × Nat) → Bool
  | [] => true
  | a :: l => (l.all fun b => decide (a.1 + a.2 ≤ b.1 ∨ b.1 + b.2 ≤ a.1 ∨ a.2 = 0 ∨ b.2 = 0)) && disjoint l
/-- Entries in the share of the die at position k of d. -/
def shareOf (nent d k : Nat) : Nat := (nent + d - 1 - k) / d
/-- RESOURCE (R385, R386). -/
def State.resourceBad (s : State) (part : BitVec 6) (w : Nat) : Bool :=
  let r := match s.devRead part (pkRes w) 64 with | .ok r => r | .error _ => 0
  let cont : Bool := bitsN w 309 309 == 1 || bitsN w 310 310 == 1
  let dies := ((s.partBhs part).map (· / 6)).eraseDups
  let nent := bitsN r 415 384
  let placed (d : Nat) : Nat := match if bitsN w 311 311 == 1 then s.coTest part w else none with
    | some m => (m.filter fun x => x.2.2 / 144 == d).length
    | none => 0
  bitsN r 511 448 % 65536 != 0 || bitsN r 447 416 % 64 != 0 || decide (nent < 1 ∨ 2 ^ 24 < nent)
  || [bitsN r 383 352, bitsN r 351 320, bitsN r 319 288].any (fun k => k % 4 != 0)
  || (!cont && (bitsN r 351 320 != 0 || bitsN r 319 288 != 0))
  || (poolAreas w r).any (fun a => decide (1024 * bitsN r 447 416 < a.1 + a.2)) || !disjoint (poolAreas w r)
  || decide (nent < dies.length)
  || dies.any fun d =>
      (match s.areas.find? (fun a => a.part == part && a.die == d) with
       | none => true
       | some a => !a.enabled || decide (a.slots < placed d))
      || decide (shareOf nent dies.length (dies.findIdx (· == d)) < placed d)

/-- The first failing row of Table 18.4. -/
def State.refusal (s : State) (f w : Nat) : Option (BitVec 8) :=
  match s.vfPartOf f with
  | none => some 1
  | some p =>
    if s.formatBad p w then some 2
    else if s.objectBad p w then some 3
    else if !s.granted p f (bitsN w 271 256) then some 4
    else if !((pkStages w).all fun d => d.shape.fitsEmpty) then some 5
    else if bitsN w 311 311 == 1 && (s.coTest p w).isNone then some 6
    else if bitsN w 312 312 == 1 && Config.gangOf p == 0 then some 7
    else if s.resourceBad p w then some 8
    else none

/-! The completion record (R379, Table 18.5). -/

def complRecord (time tag : DWord) (evlog gabort sfault : Bool) (reason status : BitVec 8) (blocks ident : Word) : BitVec 256 :=
  time ++ tag ++ (0 : BitVec 13) ++ BitVec.ofBool evlog ++ BitVec.ofBool gabort ++ BitVec.ofBool sfault ++ reason ++ status
    ++ (0 : BitVec 32) ++ blocks ++ ident
/-- The record written and the queue's vector raised; a write that fails is logged to the operator. -/
def State.complete (s : State) (f q : Nat) (part : Option (BitVec 6)) (dev : Bool) (a : DWord) (r : BitVec 256) : State :=
  let s := match (if dev then (match part with | some p => s.devWrite p true a 32 r.toNat | none => none) else s.devWrite 0 false a 32 r.toNat) with
    | some s => s
    | none => s.postError { pa := 0, unit := 0, code := Config.complErr.1, kind := Config.complErr.2 }
  s.raiseVec (some (if f = 384 then .pf else .vf f)) (bitsN (s.fr f (sqCtl q)).toNat 23 16)

/-! LAUNCH_PACKET (R373 to R376). -/

/-- The next launch identifier of a partition: one that no accepted launch holds (R374). -/
def nextIdent (held : List Word) : Nat → Word → Word
  | 0, n => n
  | k + 1, n => if held.contains n then nextIdent held k (if n = 0xfffffffe then 0 else n + 1) else n
def State.identFor (s : State) (part : BitVec 6) : Word :=
  let held := (s.launches.filter fun l => l.part == part).map (·.ident)
  nextIdent held held.length (rd s.nextLaunch part.toNat)
/-- An accepted packet. -/
def State.launchOf (s : State) (f q : Nat) (p : BitVec 6) (w : Nat) : Launch :=
  let r := match s.devRead p (pkRes w) 64 with | .ok r => r | .error _ => 0
  { id := s.nextId, part := p, ident := s.identFor p, vf := f, queue := q, object := BitVec.ofNat 32 (bitsN w 31 0),
    entry := BitVec.ofNat 32 (bitsN w 63 32), frame := BitVec.ofNat 64 (bitsN w 127 64), compl := BitVec.ofNat 64 (bitsN w 191 128),
    complDev := (s.fr f (sqCtl q)).getLsbD 30, waith := BitVec.ofNat 64 (bitsN w 255 192), principal := BitVec.ofNat 16 (bitsN w 271 256),
    salt := bitsN w 287 272, privkb := bitsN w 303 288, prio := bitsN w 308 307, cont := bitsN w 309 309 == 1 || bitsN w 310 310 == 1, red := bitsN w 310 310 == 1,
    cores := bitsN w 311 311 == 1, gang := bitsN w 312 312 == 1, tag := BitVec.ofNat 64 (bitsN w 383 320), stages := pkStages w,
    pool := BitVec.ofNat 64 (bitsN r 511 448), entkb := bitsN r 447 416, nent := bitsN r 415 384, savekb := bitsN r 383 352,
    ckptkb := bitsN r 351 320, stagekb := bitsN r 319 288, bhs := s.partBhs p,
    coMap := if bitsN w 311 311 == 1 then (s.coTest p w).getD [] else [], expanded := [], paused := [], outstanding := pkBlocks w, retired := 0,
    failed := none, cancelled := false, stopped := false, sfault := false, gabort := false, evlog := false }
/-- The queue that the front end serves next for a partition: the first ready one in the round behind the last (R374). -/
def State.rrNext (s : State) (part : BitVec 6) (f q : Nat) : Bool :=
  let last := (rd s.lastQueue part.toNat).toNat
  let dist (n : Nat) : Nat := (n + 6144 - last) % 6144
  (s.vfPart.filter fun b => b.2 == part).all fun b => (List.range 16).all fun k =>
    !s.sqReady b.1 k || decide (dist (16 * f + q) ≤ dist (16 * b.1 + k))

/-- One packet accepted or refused. -/
def State.takePacket (s : State) (f q w : Nat) : State :=
  let s := match s.vfPartOf f with
    | some p => { s with lastQueue := wr s.lastQueue p.toNat (BitVec.ofNat 32 ((16 * f + q + 1) % 6144)) }
    | none => s
  match s.vfPartOf f, s.refusal f w with
  | some p, none =>
    let l := s.launchOf f q p w
    let s : State := { s.bump with launches := s.launches ++ [l], nextLaunch := wr s.nextLaunch p.toNat (if l.ident = 0xfffffffe then 0 else l.ident + 1) }
    l.dies.foldl (fun s d => s.push (.launchExpansion l.id d)) s
  | _, r =>
    s.complete f q (s.vfPartOf f) ((s.fr f (sqCtl q)).getLsbD 30) (BitVec.ofNat 64 (bitsN w 191 128))
      (complRecord s.clock (BitVec.ofNat 64 (bitsN w 383 320)) false false false (r.getD 1) 2 0 0xffffffff)
/-- No bulkhead of a partition runs now: its bulkhead list is empty until a reset is over. -/
def State.noBhs (s : State) (p : BitVec 6) : Bool := (s.partBhs p).isEmpty && !(s.partAll p).isEmpty
/-- LAUNCH_PACKET. A partition all of whose bulkheads are being reset has its packets taken afterwards (notes/assumptions/76.md). A queue in
device memory of a function bound to no partition cannot be read: it stops with no record (notes/assumptions/72.md). -/
def launchPacket (f q : Nat) (s : State) : State :=
  if !s.sqReady f q then s
  else if (s.vfPartOf f).any s.noBhs then s.push (.launchPacket f q)
  else if (match s.vfPartOf f with | some p => !s.rrNext p f q | none => false) then s.push (.launchPacket f q)
  else
    match s.sqFetch f q with
    | .error e =>
      match s.vfPartOf f with
      | some p => (s.sqError f q).postPageFault p 0 (s.sqEntry f q) e false
      | none => s.sqError f q
    | .ok w =>
      let s := (s.takePacket f q w).sqAdvance f q
      if s.sqReady f q then s.push (.launchPacket f q) else s
def execLaunchPacket (vf q : Nat) (s : State) : Out := .next (launchPacket vf q s).tick

/-! Expansion (R40, R378, R386). -/

/-- The bulkhead that takes the work of one that has failed: on its die, else on the package (R398). -/
def State.standIn (s : State) (part : BitVec 6) (b : Nat) : Option Nat :=
  let l := s.partBhs part
  if l.contains b || (s.bh b).state != .failed then some b else (l.find? fun x => x / 6 == b / 6).or l.head?
/-- The records of a launch for a die, in the order of R40. -/
def State.expand (s : State) (x : Launch) (die : Nat) : List Record :=
  (List.range x.stages.length).flatMap fun k =>
    let d := x.stages.getD k default
    ((List.range d.gcount).filter fun i => groupBh x.bhs x.salt i / 6 == die).flatMap fun i =>
      (List.range (d.shape.gsize + 1)).map fun j =>
        { part := x.part, die := die, slot := 0, handle := 0, succ := 0, affinity := 0, launch := x.id, ident := x.ident, grp := i, prio := x.prio,
          principal := x.principal, join := 0, shape := { d.shape with gidx := j, stage := k }, frame := x.frame, entry := x.entry, object := x.object,
          state := .ready, seq := 0, gen := s.standIn x.part (groupBh x.bhs x.salt i) }
/-- Records put into free slots in order; what finds none is left for later (R386). -/
def State.generate (s : State) : List Record → State × List Record
  | [] => (s, [])
  | r :: rs =>
    let free := s.freeSlots r.part r.die
    match free[s.draw free.length]? with
    | none => (s, r :: rs)
    | some k =>
      let s := s.redraw
      State.generate (s.addRecord { r with slot := k, handle := s.slotHandle r.part r.die k, seq := s.nextId }) rs
/-- Records of a launch generated as far as there are slots; those of a launch that may run no more are counted off. -/
def State.generateFor (s : State) (x : Launch) (die : Nat) (rs : List Record) : State :=
  let s := s.modLaunch x.id fun l => { l with paused := l.paused.filter fun p => p.1 != die }
  if x.cancelled || x.failed.isSome || rs.any (fun r => r.gen.isNone) then
    (if rs.any (fun r => r.gen.isNone) then s.failLaunch x.id 0x11 else s).launchLess x.id rs.length
  else
    let (s, rest) := s.generate rs
    if rest.isEmpty then s else s.modLaunch x.id fun l => { l with paused := l.paused ++ [(die, rest)] }
/-- LAUNCH_EXPANSION: behind the record that WAITH names. -/
def launchExpansion (l die : Nat) (s : State) : State :=
  match s.launch? l with
  | none => s
  | some x =>
    if x.expanded.contains die then s
    else if x.waith != 0 && !x.cancelled && s.records.any (fun r => r.part == x.part && r.handle == x.waith) then s.push (.launchExpansion l die)
    else (s.modLaunch l fun y => { y with expanded := y.expanded ++ [die] }).generateFor x die (s.expand x die)
def execLaunchExpansion (launch die : Nat) (s : State) : Out := .next (launchExpansion launch die s).tick
/-- RECORD_GENERATION_RESUME: slots have been freed. -/
def recordGenerationResume (l die : Nat) (s : State) : State :=
  match s.launch? l with
  | none => s
  | some x =>
    match x.paused.find? fun p => p.1 == die with
    | none => s
    | some p => s.generateFor x die p.2
def execRecordGenerationResume (launch die : Nat) (s : State) : Out := .next (recordGenerationResume launch die s).tick

/-! LAUNCH_COMPLETE (R47, R379). -/

/-- Status and reason of a completed launch. -/
def Launch.status (x : Launch) : BitVec 8 × BitVec 8 :=
  if x.cancelled then (3, 0) else match x.failed with | some r => (1, r) | none => (0, 0)
/-- LAUNCH_COMPLETE: behind the writes of the launch's engines (R94). -/
def launchComplete (l : Nat) (s : State) : State :=
  match s.launch? l with
  | none => s
  | some x =>
    if x.outstanding != 0 then s
    else if (s.copies.any fun c => c.launch == l) || s.merges.any fun m => decide (devCore ≤ m.wb.core) then s.push (.launchComplete l)
    else
      let s : State := { s with launches := s.launches.filter fun y => y.id != l }
      s.complete x.vf x.queue (some x.part) x.complDev x.compl
        (complRecord s.clock x.tag x.evlog x.gabort x.sfault x.status.2 x.status.1 (BitVec.ofNat 32 (min x.retired 0xffffffff)) x.ident)
def execLaunchComplete (launch : Nat) (s : State) : Out := .next (launchComplete launch s).tick

end Sys2Proof.Machine
end

