-- ==== Sys2Proof/Machine/Driver.lean ====
section
/-! DEFINITION. Doorbells and driver commands (R187, R370, R371, R373, R380, R381, R388). -/

namespace Sys2Proof.Machine

/-! Doorbells (R373). -/

/-- Writes of the host given before an access of its own that are not performed, or not exposed, yet (R94). -/
def State.hostOpen (s : State) (e : Ev) : Bool := !(s.hostHeld.takeWhile (· != e)).isEmpty || s.merges.any fun m => m.wb.core == hostCore
/-- A register write that orders the host's earlier writes (R94, R406): it waits for them. -/
def afterHost (e : Ev) (f : State → State) (s : State) : State :=
  if s.hostOpen e then State.push { s with hostHeld := if s.hostHeld.contains e then s.hostHeld else s.hostHeld ++ [e] } e
  else f { s with hostHeld := s.hostHeld.erase e }
/-- SQTAIL_WRITE: ignored while EN is clear; a value that would pass SQHEAD, or too large, stops the queue. -/
def sqtailWrite (f q : Nat) (v : Word) (s : State) : State :=
  let n := s.sqSize f q
  let head := (s.fr f (sqHead q)).toNat
  if !(s.fr f (sqCtl q)).getLsbD 31 then s
  else if n ≤ v.toNat || decide ((v.toNat + n - head) % n < ((s.fr f (sqTail q)).toNat + n - head) % n) then s.sqError f q
  else (s.setFr f (sqTail q) (v.setWidth 64)).push (.launchPacket f q)
def execSqtailWrite (vf q : Nat) (v : Word) (s : State) : Out := .next (afterHost (.sqtailWrite vf q v) (sqtailWrite vf q v) s).tick
/-- SQCTL_WRITE: setting EN returns the indices to 0 and clears ERR; with a LOGSZ that is not 1 to 16 it sets ERR and leaves EN clear. -/
def sqctlWrite (f q : Nat) (v : Word) (s : State) : State :=
  let old := s.fr f (sqCtl q)
  let fields : DWord := (v &&& 0x40ff001f).setWidth 64
  if v.getLsbD 31 && !decide (1 ≤ bitsN v.toNat 4 0 ∧ bitsN v.toNat 4 0 ≤ 16) then s.setFr f (sqCtl q) (fields ||| 0x20000000)
  else if v.getLsbD 31 && !old.getLsbD 31 then
    ((s.setFr f (sqCtl q) (fields ||| 0x80000000)).setFr f (sqHead q) 0).setFr f (sqTail q) 0
  else s.setFr f (sqCtl q) (fields ||| (old &&& 0x20000000) ||| (if v.getLsbD 31 then 0x80000000 else 0))
def execSqctlWrite (vf q : Nat) (v : Word) (s : State) : Out := .next (sqctlWrite vf q v s).tick

/-! The command registers (R380, Tables 18.1, 18.6). -/

/-- The partition a function's commands act on: its own, or for the PF the one PARTSEL selects. -/
def State.cmdPart (s : State) (fn : Fn) : Option (BitVec 6) :=
  match fn with
  | .pf => some s.partSel
  | .vf f => s.vfPartOf f
def State.cmdRuns (s : State) (fn : Fn) : Bool := (s.fr (fnNum fn) 0x118).getLsbD 31
/-- The launch of a partition with an identifier. -/
def State.launchNamed (s : State) (p : BitVec 6) (arg : DWord) : Option Launch :=
  s.launches.find? fun l => l.part == p && l.ident.setWidth 64 == arg
/-- The launch whose blocks a command stops or kills. -/
def State.cmdLaunch (s : State) (fn : Fn) (code : BitVec 8) (arg : DWord) : Option Nat :=
  if code = 1 || code = 3 then ((s.cmdPart fn).bind fun p => s.launchNamed p arg).map (·.id) else none
/-- A command taken: BUSY is set, and its result will be shown when it has taken effect. A command met by BUSY is ignored. That a command
of a function bound to no partition returns 1 is the model's choice (notes/assumptions/73.md). -/
def State.command (s : State) (fn : Fn) (code : BitVec 8) (arg : DWord) (act : BitVec 6 → State → State × BitVec 8) : State :=
  if s.cmdRuns fn then s
  else
    let l := s.cmdLaunch fn code arg
    let s := ((s.setFr (fnNum fn) 0x100 (code.setWidth 64)).setFr (fnNum fn) 0x108 arg).setFr (fnNum fn) 0x118 0x80000000
    let r : State × BitVec 8 := match s.cmdPart fn with | some p => act p s | none => (s, 1)
    State.push { r.1 with cmds := r.1.cmds.filter (fun c => c.fn != fn) ++ [{ fn := fn, code := code, result := r.2, launch := l }] } (.commandTakesEffect fn)
/-- A command has taken effect: the blocks it stops or kills are saved, or gone. -/
def State.cmdDone (s : State) (c : PendingCmd) : Bool :=
  match c.launch with
  | none => true
  | some l => !(s.blocks.any fun b => b.launch == l && (b.preempt || b.doomed) && (b.state == .running || b.state == .saving))
/-- COMMAND_TAKES_EFFECT: BUSY clears, with the result in CMDSTAT. -/
def commandTakesEffect (fn : Fn) (s : State) : State :=
  match s.cmds.find? fun c => c.fn == fn with
  | none => s
  | some c => if !s.cmdDone c then s.push (.commandTakesEffect fn) else State.setFr { s with cmds := s.cmds.filter fun c => c.fn != fn } (fnNum fn) 0x118 (c.result.setWidth 64)
def execCommandTakesEffect (fn : Fn) (s : State) : Out := .next (commandTakesEffect fn s).tick

/-! PREEMPT and RESUME. -/

/-- A running block asked to stop within PTO of the function that submitted the launch (R188). -/
def State.preemptBlock (s : State) (x : Launch) (b : Block) : State :=
  match b.state with
  | .running =>
    (((s.modBlock b.id fun k => { k with preempt := true, due := s.cycle + 1000 * (s.fr x.vf 0x10).toNat }).push (.blockSave b.id)).push
      (.preemptTimeout b.id))
  | .saved =>
    { (s.modBlock b.id fun k => { k with state := .held false }) with
      bulkheads := s.bulkheads.map fun h => { h with restore := h.restore.filter (· != b.id) } }
  | _ => s
def State.preemptLaunch (s : State) (x : Launch) : State :=
  (s.blocks.filter fun b => b.launch == x.id).foldl (fun s b => s.preemptBlock x b) (s.modLaunch x.id fun l => { l with stopped := true })
def execPreempt (fn : Fn) (arg : DWord) (s : State) : Out :=
  .next (s.command fn 1 arg fun p s => match s.launchNamed p arg with | some x => (s.preemptLaunch x, 0) | none => (s, 1)).tick

/-- A block given back to its bulkhead's restore list. -/
def State.toRestore (s : State) (b : Block) : State :=
  (s.modBlock b.id fun k => { k with state := .saved }).modBh (bhOf b.core) fun x => { x with restore := x.restore ++ [b.id] }
def State.resumeLaunch (s : State) (x : Launch) : State :=
  (s.blocks.filter fun b => b.launch == x.id && b.state == .held false).foldl (fun s b => s.toRestore b)
    (s.modLaunch x.id fun l => { l with stopped := false })
def execResume (fn : Fn) (arg : DWord) (s : State) : Out :=
  .next (s.command fn 2 arg fun p s => match s.launchNamed p arg with | some x => (s.resumeLaunch x, 0) | none => (s, 1)).tick

/-! CANCEL (R381). -/

def State.cancelLaunch (s : State) (x : Launch) : State :=
  let s := (s.modLaunch x.id fun l => { l with cancelled := true }).sweepLaunch x.id
  (s.blocks.filter fun b => b.launch == x.id).foldl (fun s b => s.cancelBlock b) s
def execCancel (fn : Fn) (arg : DWord) (s : State) : Out :=
  .next (s.command fn 3 arg fun p s => match s.launchNamed p arg with | some x => (s.cancelLaunch x, 0) | none => (s, 1)).tick

/-! TRAPREPLY (R187). -/

/-- The block held for a trap with a handle. -/
def State.trapped (s : State) (p : BitVec 6) (h : DWord) : Option Block :=
  s.blocks.find? fun b => b.part == p && b.handle == h && b.state == .held true
/-- A trapped block goes back to its restore list; one of a launch that PREEMPT holds stays held. -/
def State.unpark (s : State) (b : Block) (f : Thread → Thread) : State :=
  let s : State := { s with threads := s.threads.map fun t => if t.id.blk == b.id then f t else t }
  if (match s.launch? b.launch with | some l => l.stopped | none => false) then s.modBlock b.id fun k => { k with state := .held false }
  else s.toRestore b
def trapReply (fn : Fn) (arg : DWord) (act : Block → State → State) (s : State) : State :=
  s.command fn 4 arg fun p s => match s.trapped p arg with | some b => (act b s, 0) | none => (s, 1)
/-- TRAPREPLY with RETRY orders the host's earlier writes, the table entries among them (R409). -/
def execTrapreplyRetry (fn : Fn) (arg : DWord) (s : State) : Out :=
  .next (afterHost (.trapreplyRetry fn arg) (trapReply fn arg fun b s => s.unpark b Thread.retry) s).tick
/-- The trap of a factorisation that a side's threads are parked at. -/
def factTrapped (ts : List Thread) (wheel : Bool) : Bool :=
  ts.any fun t => t.id.wheel == wheel && (match t.status with | .parked x => x.cause == .zeroPivot || x.cause == .notPosdef | _ => false)
/-- SKIP ends a factorisation that stopped at a trap: ACTIVE is cleared, its cells and pm register are owned no more (R316). -/
def Side.endFact (on : Bool) (d : Side) : Side := if on then { d with mstat := { d.mstat with active := false } } else d
def skipBlock (b : Block) (s : State) : State :=
  let ts := s.blockThreads b.id
  (s.modBlock b.id fun k => { k with lead := k.lead.endFact (factTrapped ts false), wheels := k.wheels.endFact (factTrapped ts true) }).unpark b Thread.skip
def execTrapreplySkip (fn : Fn) (arg : DWord) (s : State) : Out := .next (trapReply fn arg skipBlock s).tick
def execTrapreplyKill (fn : Fn) (arg : DWord) (s : State) : Out := .next (trapReply fn arg (fun b s => s.kill b.id 0x11 none) s).tick

/-! Code objects (R370, R371, R388). -/

/-- CODEINVAL: the cores of the partition's bulkheads hold no text any more (R371). -/
def execCodeinval (fn : Fn) (s : State) : Out :=
  .next (s.command fn 5 0 fun p s =>
    ({ s with code := s.code.filter fun w => !((s.bh (bhOf w.core)).assigned && (s.bh (bhOf w.core)).part == p) }, 0)).tick

/-- OBJLIVE's checks on a slot. -/
def State.liveOk (s : State) (p : BitVec 6) (a : Nat) : Bool :=
  let text := s.objField a 191 128
  let ent := s.objField a 255 192
  s.objField a 1 0 == 0 && text % 65536 == 0 && s.objField a 127 96 != 0 && ent % 4 == 0
  && s.devPages frontMmu p text (s.objField a 95 64) && s.devPages frontMmu p ent (4 * s.objField a 127 96)
def State.setObjState (s : State) (a st : Nat) : State := { s with mem := wr s.mem a (BitVec.ofNat 8 (s.objField a 7 2 * 4 + st)) }
def execObjlive (fn : Fn) (arg : DWord) (s : State) : Out :=
  .next (s.command fn 6 arg fun p s =>
    match if arg.toNat < 2 ^ 24 then s.objSlot p (BitVec.ofNat 32 arg.toNat) else none with
    | some a => if s.liveOk p a then (s.setObjState a 1, 0) else (s, 2)
    | none => (s, 2)).tick
/-- The slot of a handle in a state. -/
def State.objIn (s : State) (p : BitVec 6) (h : DWord) (st : Nat) : Option Nat :=
  match if h.toNat < 2 ^ 32 then s.objSlot p (BitVec.ofNat 32 h.toNat) else none with
  | some a => if s.objField a 31 24 == bitsN h.toNat 31 24 && s.objField a 1 0 == st then some a else none
  | none => none
def execObjunload (fn : Fn) (arg : DWord) (s : State) : Out :=
  .next (s.command fn 7 arg fun p s =>
    match s.objIn p arg 1 with
    | some a => ((s.setObjState a 2).drainCheck p (BitVec.ofNat 32 arg.toNat), 0)
    | none => (s, 1)).tick
/-- OBJFREE: the generation advances, and no handle of the old one runs in scheduled mode any more. -/
def execObjfree (fn : Fn) (arg : DWord) (s : State) : Out :=
  .next (s.command fn 8 arg fun p s =>
    match s.objIn p arg 3 with
    | some a =>
      let s := s.setObjState a 0
      ({ s with mem := wr s.mem (a + 3) (BitVec.ofNat 8 (s.objField a 31 24 + 1)), schedObjs := s.schedObjs.filter fun o => o != (p, BitVec.ofNat 32 arg.toNat) }, 0)
    | none => (s, 1)).tick

/-- A write of CMD: the command of Table 18.6 that its CODE names, with ARG0 and ARG1 as they stand; any other operand is bad. -/
def State.writeCmd (s : State) (fn : Fn) (v : DWord) : Out :=
  let a0 := s.fr (fnNum fn) 0x108
  let a1 := s.fr (fnNum fn) 0x110
  let bad : Out := .next (s.command fn (v.setWidth 8) a0 fun _ s => (s, 2)).tick
  if v.setWidth 8 = (4 : BitVec 8) then
    (if a1 = 0 then execTrapreplyRetry fn a0 s else if a1 = 1 then execTrapreplySkip fn a0 s else if a1 = 2 then execTrapreplyKill fn a0 s else bad)
  else if a1 != 0 then bad
  else
    match (v.setWidth 8 : BitVec 8).toNat with
    | 1 => execPreempt fn a0 s
    | 2 => execResume fn a0 s
    | 3 => execCancel fn a0 s
    | 5 => if a0 = 0 then execCodeinval fn s else bad
    | 6 => execObjlive fn a0 s
    | 7 => execObjunload fn a0 s
    | 8 => execObjfree fn a0 s
    | _ => bad

end Sys2Proof.Machine
end

