-- ==== Sys2Proof/Machine/System.lean ====
section
/-! DEFINITION. System instructions (R327 to R331) and the permanently illegal majors (R222). -/

namespace Sys2Proof.Machine

/-- No effect; counted as an instruction (R328). -/
def execNop (q : PReg) (s : State) : Out := execReg (.nop q) (fun _ _ _ => {}) s
/-- A trap of each acting thread, its code in SUB (R328). -/
def trapWord (i : Instr) (c : Cause) (code : BitVec 8) (s : State) : Out :=
  execEach i noStall (fun str id s => s.raise id str.pc c 0 code true) s
def execTrap (q : PReg) (code : BitVec 8) (s : State) : Out := trapWord (.trap q code) .swTrap code s
def execBrk (q : PReg) (code : BitVec 8) (s : State) : Out := trapWord (.brk q code) .brk code s

/-- The scratch ranges a hint names (R329). -/
def hintRanges (y : Sparse 32) (x : HintArgs) : List Word :=
  match x.k with
  | some k => [rd y k.toNat, rd y (k.toNat + 1)]
  | none => []
/-- A thread stops at a hint while a pre-emption of its block is pending (R188, R330). -/
def hintOne (x : HintArgs) (id : ThreadId) (s : State) : State :=
  match s.block? id.blk with
  | none => s
  | some b =>
    if b.preempt && !s.sigOwed id then
      (s.modThread id fun t => { t with status := .stopped x.gmask x.pmask (hintRanges (s.yOf id) x) }).push (.blockSave id.blk)
    else s
/-- `phint`. -/
def execPhint (q : PReg) (x : HintArgs) (s : State) : Out := execEach (.phint q x) noStall (fun _ id s => hintOne x id s) s
/-- `commit`: in a contained block the thread waits for the others and the checkpoint of R196; elsewhere a `phint` (R330). -/
def execCommit (q : PReg) (x : HintArgs) (s : State) : Out :=
  execEach (.commit q x) (fun s _ t => s.isCont t.id.blk && s.orderStall t) (fun _ id s =>
    if s.isCont id.blk then
      let s := (s.modThread id fun t => { t with status := .waiting (.commit x.gmask x.pmask (hintRanges (s.yOf id) x)) }).push (.commitStoreRelease id.blk)
      if s.isRed id.blk then s.push (.signatureCompare id.blk (teamIdx id)) else s
    else hintOne x id s) s

/-- `sleep`: not ready for n cycles from the cycle after this one; n = 0 has no effect (R331). -/
def execSleep (q : PReg) (n : BitVec 16) (s : State) : Out :=
  execEach (.sleep q n) noStall (fun _ id s =>
    if n = 0 then s
    else (s.modThread id fun t => { t with status := .sleeping (s.cycle + 1 + n.toNat) }).push (.sleepExpiry id)) s

/-- SLEEP_EXPIRY: the thread is ready again, after its `sleep`, once its cycles are over. -/
def sleepExpiry (id : ThreadId) (s : State) : State :=
  match s.thread? id with
  | none => s
  | some t =>
    match t.status with
    | .sleeping w => if w ≤ s.cycle then s.modThread id fun t => t.resume else s.push (.sleepExpiry id)
    | _ => s
def execSleepExpiry (th : ThreadId) (s : State) : Out := .next (sleepExpiry th s).tick

/-- Majors 0x7e and 0x7f: every thread of the string traps with ILLEGAL_OP, whatever its guard (R221, R222). -/
def execIllegalMajor (_ : Bool) (_ : BitVec 25) (s : State) : Out :=
  match s.strings with
  | [] => .next s.tick
  | c :: rest => .next (s.faultWord c rest .illegalOp 1 true)

end Sys2Proof.Machine
end

