-- ==== Sys2Proof/Machine/Memsys.lean ====
section
/-! DEFINITION. Device steps of the memory system (R72 to R93, R105 to R114): loads served and returned, stores accepted, releases
completed, write-backs, invalidations and discoveries, remote and host accesses, view lines and view stores. -/

namespace Sys2Proof.Machine

/-! Loads (R77, R79, R105, R275). -/

/-- Bytes of a load that are still to be read. -/
def Load.open (l : Load) : List (Nat × BitVec 9) :=
  l.bytes.filterMap fun b => match b with | .at pa k => some (pa, k) | .val _ => none
/-- A byte as the place that serves it brings it: the composing slice reads it at its home (R105), any other L2 read may find it in the
copy of the reader's die; in a refill the core's dirty bytes are laid over it (R81). -/
def State.serveByte (s : State) (l : Load) : LByte → Byte
  | .val b => b
  | .at pa k =>
    match (s.l1Byte l.core pa).filter (fun b => !b.dirty.isEmpty && l.fill) with
    | some b => b.val
    | none => if l.view then s.homeByte pa k else s.l2Byte l.core pa k
/-- The sector of a byte filled into the L1 as clean bytes, beneath what is dirty or on its way home (R79, R81). -/
def State.fillL1 (s : State) (core pa : Nat) (key : BitVec 9) (tag : BitVec 12) : State :=
  (List.range 32).foldl (fun (s : State) j =>
    let a := pa / 32 * 32 + j
    if s.wbInFlight core a || ((s.l1Byte core a).any fun b => !b.dirty.isEmpty) then s
    else { s with l1 := s.l1.filter (fun b => !(b.core == core && b.pa == a))
                    ++ [{ core := core, pa := a, val := s.l2Byte core a key, dirty := [], key := key, tag := tag, bad := s.isPoison a }] }) s
/-- A line of another die or package read on behalf of a core leaves a guest copy in its die's L2 (R65, R82); remote memory is held
in no L2 (R87). -/
def State.guestFor (s : State) (core pa : Nat) (key : BitVec 9) (tag : BitVec 12) : State :=
  if s.isRemote pa then s else s.addGuest (s.agentOf (dieOfCore core)) (lineOf pa) key tag

/-- The value of a load bound and sent. A read through a view leaves no older copy of its bytes behind; any other leaves copies in the
die's L2 and, where it may, in the L1. -/
def State.bindLoad (s : State) (l : Load) : State :=
  let s := s.detect ((l.open.map fun p => p.1 / 32).eraseDups)
  let v := l.bytes.map (s.serveByte l)
  let bad := l.bad || l.open.any fun p => s.isPoison p.1
  let s : State := { s with loads := s.loads.filter fun x => x.id != l.id }
  let s := match l.acq with | some sc => s.acquire l.core sc | none => s
  let s :=
    if l.view then s.forget l.core true (l.open.map (·.1))
    else l.open.foldl (fun s p => let s := s.guestFor l.core p.1 p.2 l.tag; if l.fill then s.fillL1 l.core p.1 p.2 l.tag else s) s
  s.sendRet l.th l.id (loadOuts l.dst l.size l.sx v) [] true bad (pc := l.pc) (word := some l.word)
/-- A load waits behind its die's own writes that are not exposed, and at the home for merges, reductions and a lost directory entry
(R72, R83, R88). -/
def State.serve1 (s : State) (id : Nat) (again : Ev) : State :=
  match s.loads.find? fun l => l.id == id with
  | none => s
  | some l =>
    if l.view && l.open.any (fun p => s.homeBusy p.1 1) then (l.open.foldl (fun s p => s.homeAsk p.1 1) s).push again
    else if l.open.any (fun p => s.l2Waits l.core p.1 p.2) then (l.open.foldl (fun s p => s.l2Ask l.core p.1 p.2) s).push again
    else if l.open.any fun p => s.isRemote p.1 then
      State.push { s.bump with remotes := s.remotes ++ [{ id := s.nextId, write := false, cells := [], load := some id }] } (.remoteAccess s.nextId)
    else s.bindLoad l
def execL2ReadRequest (id : Nat) (s : State) : Out := .next (s.serve1 id (.l2ReadRequest id)).tick
def execViewLineCompose (id : Nat) (s : State) : Out := .next (s.serve1 id (.viewLineCompose id)).tick

/-- Values of a word for the team of a record that are not there yet. -/
def State.retWaits (s : State) (r : Ret) : Bool :=
  match r.word with
  | none => false
  | some w => (s.loads.any fun l => l.word == w && sameTeam l.th r.th) || s.atoms.any fun a => a.word == w && !a.red && sameTeam a.th r.th
/-- The records returned with one: those of its word and team (notes/assumptions/38.md). -/
def State.retsWith (s : State) (r : Ret) : List Nat :=
  match r.word with
  | none => [r.id]
  | some w => (s.rets.filter fun x => x.toReg && x.word == some w && sameTeam x.th r.th).map (·.id)
/-- One record returned: registers written, their hold cleared, LD lowered; a value for an exited thread is discarded (R249). -/
def returnOne (s : State) (id : Nat) : State :=
  match s.rets.find? fun r => r.id == id with
  | none => s
  | some r =>
    let regs := r.outs.map (·.1)
    let s : State := { s with rets := if r.toQueue then s.rets.map (fun x => if x.id == id then { x with toReg := false } else x)
                                      else s.rets.filter fun x => x.id != id }
    let p (t : Thread) : Bool := regs.all fun d => t.hold.contains d
    let (o, s) := s.injected r.th (s.objOf r.th) r.pc { g := r.outs }
    let s := s.deliver r.th p fun t =>
      let t := if t.status == .exited then t else o.g.foldl (fun t o => t.setG o.1 o.2) t
      let t := t.dropHold regs
      if r.lowersLd then { t with ld := t.ld - 1 } else t
    let team (m : Team) : Team :=
      if m.blk == r.th.blk && m.wheel == r.th.wheel && m.idx == teamIdx r.th then
        { m with y := r.youts.foldl (fun y o => wr y o.1.toNat o.2) m.y
                 ybad := m.ybad.filter fun x => !(r.youts.any fun o => o.1 == x)
                 yhold := r.youts.foldl (fun h o => h.erase o.1) m.yhold
                 fpflags := m.fpflags ||| r.fl }
      else m
    let s := State.modBlock { s with teams := s.teams.map team } r.th.blk fun b => if r.src == r.id then b else
      b.modImages fun im => { im with teams := im.teams.map fun m => { (team m) with y := m.y, ybad := m.ybad, yhold := m.yhold } }
    if r.poisoned && (s.thread? r.th).any fun t => t.status != .exited then s.consumed r.th r.pc else s
/-- LOAD_RETURN: the values of a word are returned to the threads of a team together, once all are there (R332). -/
def loadReturn (id : Nat) (s : State) : State :=
  match s.rets.find? fun r => r.id == id && r.toReg with
  | none => s
  | some r => if s.retWaits r then s.push (.loadReturn id) else (s.retsWith r).foldl returnOne s
def execLoadReturn (id : Nat) (s : State) : Out := .next (loadReturn id s).tick

/-- LOAD_VALUE_ENTRY: the leader's words, with the flags of an atomic last, enter the load-value queue (R201). -/
def loadValueEntry (id : Nat) (s : State) : State :=
  match s.rets.find? fun r => r.id == id with
  | none => s
  | some r =>
    let s : State := { s with rets := if r.toReg then s.rets.map (fun x => if x.id == id then { x with toQueue := false } else x)
                                      else s.rets.filter fun x => x.id != id }
    s.lvFill r.th r.src (r.outs.map (·.2) ++ r.youts.map (·.2) ++ [r.fl.setWidth 32])
def execLoadValueEntry (id : Nat) (s : State) : Out := .next (loadValueEntry id s).tick

/-! Stores and releases (R73, R80, R215). -/

/-- STORE_ACCEPT: L1, the store buffer or the die's L2 has taken the store. -/
def storeAccept (id : Nat) (s : State) : State :=
  match s.staccs.find? fun x => x.id == id with
  | none => s
  | some x => State.deliver { s with staccs := s.staccs.filter fun y => y.id != id } x.th (fun _ => true) fun t => { t with st := t.st - 1 }
def execStoreAccept (id : Nat) (s : State) : Out := .next (storeAccept id s).tick

/-- The bytes of an `st.rel` made visible at their home or in their scratchpad. -/
def State.showCells (s : State) (r : Rel) : State :=
  let s := r.cells.foldl (fun s c => match c.loc with | .scr b o => s.putScr r.th b o c.val | .mem _ => s) s
  let mem := r.cells.filterMap fun c => match c.loc with | .mem pa => some (pa, c.val) | .scr .. => none
  s.homeWrite r.core (some r.th) mem ((r.cells.head?.map (·.key)).getD 0) (farScope r.scope)
/-- What follows a release that has completed: the acquire of a fence (R290), a view slot written (R114), a thread that has arrived at
its barrier (R30). -/
def State.released (s : State) (r : Rel) : State :=
  let s := match r.acq with | some sc => s.acquire r.core sc | none => s
  let s := match r.slot with | some (_, a, d) => s.putSlot a (some d) 0 false | none => s
  match s.thread? r.th with
  | none => s
  | some t =>
    match t.status with
    | .waiting (.barrier k (some n)) =>
      if n = r.id then (s.modThread r.th fun t => { t with status := .waiting (.barrier k none) }).barCheck r.th.blk k else s
    | _ => s
def releaseComplete (id : Nat) (s : State) : State :=
  match s.rels.find? fun r => r.id == id with
  | none => s
  | some r =>
    let busy := r.cells.filterMap fun c => match c.loc with | .mem pa => if s.homeBusy pa 1 then some pa else none | .scr .. => none
    if !s.relDone r || r.cells.any (fun c => match c.loc with | .scr b _ => b != r.th.blk && s.scrHeld (some c.loc) | .mem _ => false) then
      s.push (.releaseComplete id)
    else if !busy.isEmpty then (busy.foldl (fun s pa => s.homeAsk pa 1) s).push (.releaseComplete id)
    else
      let s := State.showCells { s with rels := s.rels.filter fun x => x.id != id } r
      let s := match r.after with | some e => s.push e | none => s
      s.released r
def execReleaseComplete (id : Nat) (s : State) : Out := .next (releaseComplete id s).tick

/-! Write-backs, invalidations, evictions (R79 to R86, R90). -/

/-- What a write-back waits for: earlier ones of its core to the same bytes, and at the home a merge of its line under way, a frame
that is changing hands or a package that is lost. -/
def State.wbBehind (s : State) (w : WB) : Bool :=
  (s.wbs.any fun x => decide (x.id < w.id) && x.core == w.core && (w.atL2 || !x.atL2) && x.cells.any fun c => w.cells.any fun d => d.1 == c.1)
  || (w.atL2 && w.cells.any fun c => s.underMerge c.1 || s.frameWait c.1 || s.pkgLost (pkgOf c.1))
def State.wbUpd (s : State) (w : WB) : Bool :=
  s.upd.any fun u => u.core == w.core && decide (u.id < w.id) && w.cells.any fun c => meets u.pa (atomSize u.wide) c.1 1
/-- WRITE_BACK: the L2 of the core's die takes it (R82), then its home. -/
def writeBack (id : Nat) (s : State) : State :=
  match s.wbs.find? fun w => w.id == id with
  | none => s
  | some w =>
    let lines := linesOf w.cells
    if s.wbBehind w then s.push (.writeBack id)
    else if s.wbUpd w then (lines.foldl (fun s l => s.push (.updateLineMerge w.core l)) s).push (.writeBack id)
    else if !w.atL2 then State.push { s with wbs := s.wbs.map fun x => if x.id == id then { x with atL2 := true } else x } (.writeBack id)
    else if lines.any s.needsDiscovery then (lines.foldl (fun s l => if s.needsDiscovery l then s.push (.discovery l) else s) s).push (.writeBack id)
    else if w.cells.any fun c => s.isRemote c.1 then
      State.push { s with remotes := s.remotes ++ [{ id := id, write := true, cells := w.cells, load := none }] } (.remoteAccess id)
    else State.mergeHome { s with wbs := s.wbs.filter fun x => x.id != id } w
def execWriteBack (id : Nat) (s : State) : Out := .next (writeBack id s).tick

/-- The end of a non-temporal store at its home: its acknowledgement is on its way (R90). -/
def State.ackNt (s : State) (w : WB) : State :=
  if w.nt then State.push { s with merges := s.merges ++ [{ wb := { w with cells := [] }, waits := [], exposed := true }] } (.ntStoreAck w.id) else s
/-- REMOTE_ACCESS: the home reads or writes on the requester's behalf (R87). -/
def remoteAccess (id : Nat) (s : State) : State :=
  match s.remotes.find? fun r => r.id == id with
  | none => s
  | some r =>
    let s : State := { s with remotes := s.remotes.filter fun x => x.id != id }
    match r.load with
    | some l => (match s.loads.find? fun x => x.id == l with | some l => s.bindLoad l | none => s)
    | none =>
      match s.wbs.find? fun w => w.id == id with
      | none => s
      | some w => (State.expose { s with wbs := s.wbs.filter fun x => x.id != id } w.core w.cells w.key w.bad).ackNt w
def execRemoteAccess (id : Nat) (s : State) : Out := .next (remoteAccess id s).tick
/-- A thread at `drain.nt` goes on when none of its `st.nt` stores is left (R282). -/
def State.drained (s : State) (th : ThreadId) : State :=
  if s.ntUnacked th then s else s.modThread th fun t => if t.status == .waiting .drain then t.resume else t
/-- NT_STORE_ACK. -/
def ntStoreAck (id : Nat) (s : State) : State :=
  match s.merges.find? fun m => m.wb.id == id && m.wb.nt && m.wb.cells.isEmpty with
  | none => s
  | some m =>
    let s : State := { s with merges := s.merges.filter fun x => x.wb.id != id }
    match m.wb.th with
    | none => s
    | some th => s.drained th
def execNtStoreAck (id : Nat) (s : State) : Out := .next (ntStoreAck id s).tick

/-- INVALIDATION: a sharer drops its copy of the lines of a merged write-back and answers (R83). -/
def invalidation (id agent : Nat) (s : State) : State :=
  match s.merges.find? fun m => m.wb.id == id with
  | none => s
  | some m =>
    State.push { s with guests := s.guests.filter fun g => !(g.agent == agent && (linesOf m.wb.cells).contains g.line) } (.invalidationAck id agent)
def execInvalidation (id agent : Nat) (s : State) : Out := .next (invalidation id agent s).tick
/-- After a round the entry stands for the sender alone, if it keeps a copy, and for copies made since (R85). -/
def State.dirAfter (s : State) (core line : Nat) : State :=
  let a := s.agentOf (dieOfCore core)
  match (s.holders line).filter fun h => h != a && h != s.homeAgent (line * 128) with
  | [] => s.setDir line (if (s.holders line).contains a && a != s.homeAgent (line * 128) then some { line := line, coarse := false, ptrs := [a], vec := 0 } else none)
  | _ => match s.dirEntry? line with
    | some d => s.setDir line (some (if d.coarse then d else { d with ptrs := d.ptrs.filter (s.holders line).contains }))
    | none => s
/-- INVALIDATION_ACK: the bytes are exposed as far as the answers allow; with the last of them the write-back is done (R83). -/
def invalidationAck (id agent : Nat) (s : State) : State :=
  let s := State.tryExpose { s with merges := s.merges.map fun x => if x.wb.id == id then { x with waits := x.waits.erase agent } else x } id
  match s.merges.find? fun m => m.wb.id == id with
  | none => s
  | some m =>
    if !m.waits.isEmpty then s
    else
      let s : State := { s with merges := s.merges.filter fun x => x.wb.id != id }
      ((linesOf m.wb.cells).foldl (fun s l => s.dirAfter m.wb.core l) s).ackNt m.wb
def execInvalidationAck (id agent : Nat) (s : State) : Out := .next (invalidationAck id agent s).tick

/-- L1_EVICTION: dirty bytes go home with their mask, clean ones are gone (R79); an evicted update line is merged (R88). -/
def l1Eviction (core line : Nat) (s : State) : State :=
  let s := s.flush core fun b => lineOf b.pa == line
  let s : State := { s with l1 := s.l1.filter fun b => !(b.core == core && lineOf b.pa == line) }
  if s.upd.any fun u => u.core == core && lineOf u.pa == line then s.push (.updateLineMerge core line) else s
def execL1Eviction (core line : Nat) (s : State) : Out := .next (l1Eviction core line s).tick
/-- EVICTION_NOTICE: a guest copy is dropped and its home told (R85). -/
def evictionNotice (agent line : Nat) (s : State) : State :=
  let s : State := { s with guests := s.guests.filter fun g => !(g.agent == agent && g.line == line) }
  s.setDir line ((s.dirEntry? line).bind fun d => d.drop agent)
def execEvictionNotice (agent line : Nat) (s : State) : Out := .next (evictionNotice agent line s).tick
/-- DIRECTORY_DROP: silently for a single pointer, else behind an invalidation of the sharers (R86). -/
def directoryDrop (line : Nat) (s : State) : State :=
  match s.dirEntry? line with
  | none => s
  | some d =>
    let s := s.setDir line none
    if !d.coarse && d.ptrs.length = 1 then s else { s with guests := s.guests.filter fun g => g.line != line }
def execDirectoryDrop (line : Nat) (s : State) : Out := .next (directoryDrop line s).tick
/-- DISCOVERY: the entry is rebuilt from the agents' answers; an absent agent counts as holding nothing (R86, R423). -/
def discovery (line : Nat) (s : State) : State :=
  match (s.holders line).filter fun a => !s.absent.contains a with
  | [] => s.setDir line none
  | as => s.setDir line (some (as.foldl DirEntry.add { line := line, coarse := false, ptrs := [], vec := 0 }))
def execDiscovery (line : Nat) (s : State) : Out := .next (discovery line s).tick

/-! View stores (R109, R110). -/

/-- The dirty bytes a view store sent ahead are still on their way home, or the check of a lower thread of its word is not answered. -/
def State.vsBehind (s : State) (v : VStore) : Bool :=
  (s.wbs.any fun w => w.core == v.core && !w.nt && decide (w.id < v.id))
  || (s.merges.any fun m => m.wb.core == v.core && !m.wb.nt && decide (m.wb.id < v.id))
  || s.vstores.any fun x => x.word == v.word && x.answer.isNone && decide (x.id < v.id)
/-- The index bytes of a view store that cannot be read yet. -/
def State.vsIndex (s : State) (v : VStore) : List (Nat × BitVec 9) :=
  match s.block? v.th.blk, viewCheck v.desc v.va v.data.length false with
  | some b, .ok (d, ps) => (s.idxPlaces (b.asker v.th) d ps).filter (s.idxWaits (b.asker v.th))
  | _, _ => []
/-- The answer to a wheeler's check: its leader's, which comes first (R200). -/
def State.leadAnswer (s : State) (v : VStore) : Option (Cause × DWord) :=
  match s.thread? { v.th with wheel := false } with
  | some t =>
    if t.pc != v.pc then none
    else match t.status with
      | .waiting (.signature (some trap)) => some (trap.cause, trap.addr)
      | _ => none
  | none => none
/-- VIEW_STORE_CHECK: every element translated and checked; denied index entries are logged, one record for each page of the word. -/
def viewStoreCheck (id : Nat) (s : State) : State :=
  match s.vstores.find? fun v => v.id == id with
  | none => s
  | some v =>
    let put (s : State) (a : Option (Cause × DWord)) (bs : List VByte) (pages : List Nat) : State :=
      { s with vstores := s.vstores.map fun x => if x.id == id then { x with answer := some a, bytes := bs, pages := pages } else x }
    if s.vsBehind v then s.push (.viewStoreCheck id)
    else if s.isWheel v.th then put s (s.leadAnswer v) [] []
    else if !(s.vsIndex v).isEmpty then
      (match s.block? v.th.blk with | some b => s.idxAsk (b.asker v.th) (s.vsIndex v) | none => s).push (.viewStoreCheck id)
    else
      let r := s.viewThrough v.desc v.th v.va v.data.length .write false
      let before := (s.vstores.filter fun x => x.word == v.word && decide (x.id < v.id)).flatMap (·.pages)
      let p := r.2.1.foldl (fun (p : State × List Nat) d =>
        if (before ++ p.2).contains d.page then p else (p.1.reportDenied v.th (d.addr v.va) v.pc d.tag d.src, p.2 ++ [d.page])) (r.1, [])
      match r.2.2 with
      | .error c => put p.1 (some (c, v.va)) [] p.2
      | .ok bs => put p.1 none bs p.2
def execViewStoreCheck (id : Nat) (s : State) : Out := .next (viewStoreCheck id s).tick

/-- Writes of one view store: the bytes of each line under each key in element order (R111). -/
def State.scatter (s : State) (v : VStore) : State :=
  let cells := (v.bytes.zip v.data).map fun p => ((p.1.pa, p.2), p.1.key)
  ((cells.map fun c => (lineOf c.1.1, c.2)).eraseDups).foldl (fun s g =>
    s.homeWrite v.core (some v.th) ((cells.filter fun c => lineOf c.1.1 == g.1 && c.2 == g.2).map (·.1)) g.2 v.dom) s
/-- VIEW_STORE_SCATTER: behind the release of an `st.rel` and behind lower threads of the same word (R111). -/
def viewStoreScatter (id : Nat) (s : State) : State :=
  match s.vstores.find? fun v => v.id == id with
  | none => s
  | some v =>
    let busy := (v.bytes.map (·.pa)).filter fun pa => s.homeBusy pa 1
    if (match v.rel with | some n => s.rels.any fun r => r.id == n | none => false)
        || s.vstores.any fun x => x.word == v.word && decide (x.id < v.id) && !x.scattered then s.push (.viewStoreScatter id)
    else if !busy.isEmpty then (busy.foldl (fun s pa => s.homeAsk pa 1) s).push (.viewStoreScatter id)
    else
      let n := s.nextId
      let s := s.scatter v
      let wbs := (s.merges.map (·.wb.id)).filter fun k => decide (n ≤ k)
      State.push { s with vstores := s.vstores.map fun x => if x.id == id then { x with scattered := true, wbs := wbs } else x } (.viewStoreAck id)
def execViewStoreScatter (id : Nat) (s : State) : Out := .next (viewStoreScatter id s).tick
/-- VIEW_STORE_ACK: all its homes have merged and exposed its bytes; the core drops its clean bytes of the sectors, ST is lowered. -/
def viewStoreAck (id : Nat) (s : State) : State :=
  match s.vstores.find? fun v => v.id == id with
  | none => s
  | some v =>
    if v.wbs.any fun k => s.merges.any fun m => m.wb.id == k then s.push (.viewStoreAck id)
    else
      let s : State := { s with
        vstores := s.vstores.filter fun x => x.id != id
        l1 := s.l1.filter fun b => !(b.core == v.core && b.dirty.isEmpty && v.bytes.any fun x => x.pa / 32 == b.pa / 32) }
      (s.modThread v.th fun t => { t with st := t.st - 1 }).drained v.th
def execViewStoreAck (id : Nat) (s : State) : Out := .next (viewStoreAck id s).tick

/-! STORE_FAULT (R192). -/

def causeOf (code : BitVec 8) : Cause := if code = 0x31 then .permWrite else if code = 0x33 then .execStore else .xlate
/-- An issuer that lives is parked at the end of its clause; for one that has exited a record is posted and the launch is marked. -/
def storeFault (th : ThreadId) (cause : BitVec 8) (addr : DWord) (pc : Word) (s : State) : State :=
  match s.thread? th with
  | some t =>
    let rec0 (b : Block) : FqRecord :=
      { handle := b.handle, addr := addr, pc := pc, object := b.object, tid := BitVec.ofNat 10 th.tid, exited := true, sub := cause, cause := Cause.storeFault.code }
    match t.status, s.block? th.blk with
    | .exited, some b => (s.postFault b.part (rec0 b)).modLaunch b.launch fun l => { l with sfault := true }
    | .ready, _ =>
      if s.inString th || t.hdr.isSome then s.push (.storeFault th cause addr pc)
      else s.park th { cause := .storeFault, addr := addr, sub := cause, word := false, tag := some pc }
    | _, _ => s.push (.storeFault th cause addr pc)
  | none => s
def execStoreFault (th : ThreadId) (cause : BitVec 8) (addr : DWord) (pc : Word) (s : State) : Out := .next (storeFault th cause addr pc s).tick

/-! HOST_ACCESS (R94). -/

/-- A plain access of the host to local memory, of 2^sz bytes, under key slot 0; the bytes read go back to the host. One that the home
cannot perform yet is kept in mind, for a tail write given after it (R94). -/
def hostAccess (write : Bool) (pa : BitVec 56) (sz : BitVec 2) (data : DWord) (s : State) : State :=
  let a := pa.toNat
  let n := 2 ^ sz.toNat
  let e : Ev := .hostAccess write pa sz data
  let rest : State := { s with hostHeld := s.hostHeld.erase e }
  if !(isMem a && pkgOf a == s.chip.toNat) then rest
  else if s.homeBusy a n then ({ (s.homeAsk a n) with hostHeld := rest.hostHeld ++ [e] }).push e
  else if write then rest.homeWrite hostCore none (memCells a (bytesOfNat n data.toNat)) 0
  else { rest with hostRead := BitVec.ofNat 64 (natOfBytes ((List.range n).map fun k => s.homeByte (a + k) 0)) }
def execHostAccess (write : Bool) (pa : BitVec 56) (sz : BitVec 2) (data : DWord) (s : State) : Out := .next (hostAccess write pa sz data s).tick

end Sys2Proof.Machine
end

