-- ==== Sys2Proof/Machine/Translate.lean ====
section
/-! DEFINITION. The registers of a partition (R386, R387, R405 to R411, R425): relay areas, the view table, the principal table,
invalidations, the rings, and page walks. -/

namespace Sys2Proof.Machine

/-- A partition has a launch that is accepted but not complete. -/
def State.hasLaunch (s : State) (p : BitVec 6) : Bool := s.launches.any fun l => l.part == p
/-- Memory zeroed by the device, whatever key reads it. -/
def State.zeroRange (s : State) (pa n : Nat) : State :=
  { s with mem := s.mem.filter (fun c => !decide (pa ≤ c.1 ∧ c.1 < pa + n))
           sectorKey := s.sectorKey.filter fun c => !decide (pa ≤ 32 * c.1 ∧ 32 * c.1 < pa + n) }

/-! Relay areas (R386). -/

/-- RACTL_WRITE: taken while the partition has no launch; setting EN begins the fill. -/
def ractlWrite (p : BitVec 6) (d : Nat) (v : Word) (s : State) : State :=
  let r := 0x5408 + 16 * d
  let old := s.pr p r
  let slots : DWord := (v &&& 0xfffff).setWidth 64
  if s.hasLaunch p then s
  else
    let area (busy : Bool) (gens : Sparse 8) : RelayArea :=
      { part := p, die := d, enabled := v.getLsbD 31, busy := busy, slots := slots.toNat + 1, gens := gens }
    let put (s : State) (a : RelayArea) : State := { s with areas := s.areas.filter (fun a => !(a.part == p && a.die == d)) ++ [a] }
    if v.getLsbD 31 && !old.getLsbD 31 then
      (put (s.setPr p r (slots ||| 0xc0000000)) (area true [])).push (.relayAreaFillComplete p d)
    else if v.getLsbD 31 then
      match s.areas.find? fun a => a.part == p && a.die == d with
      | some a => put (s.setPr p r (slots ||| (old &&& 0xc0000000))) (area a.busy a.gens)
      | none => s
    else put (s.setPr p r slots) (area false [])
def execRactlWrite (part : BitVec 6) (die : Nat) (v : Word) (s : State) : Out := .next (ractlWrite part die v s).tick

/-- RELAY_AREA_FILL_COMPLETE: every slot reads as the Reset column of Table 1.2, and the area takes records. -/
def relayAreaFillComplete (p : BitVec 6) (d : Nat) (s : State) : State :=
  match s.areas.find? fun a => a.part == p && a.die == d && a.enabled && a.busy with
  | none => s
  | some a =>
    let va := (s.pr p (0x5400 + 16 * d)).toNat
    let s := (List.range ((64 * a.slots + 65535) / 65536)).foldl (fun (s : State) k =>
      match s.lookup (.die d) p (va + 65536 * k) with
      | .ok (x, _) => if s.ownerOf x.pa == some p then s.zeroRange x.pa (min 65536 (64 * a.slots - 65536 * k)) else s
      | .error _ => s) s
    let s := (s.areaMod p d fun a => { a with busy := false }).setPr p (0x5408 + 16 * d) (s.pr p (0x5408 + 16 * d) &&& 0xbfffffff)
    (s.launches.filter fun l => l.part == p && l.paused.any fun q => q.1 == d).foldl (fun s l => s.push (.recordGenerationResume l.id d)) s
def execRelayAreaFillComplete (part : BitVec 6) (die : Nat) (s : State) : Out := .next (relayAreaFillComplete part die s).tick

/-! INVSTAT (R406). -/

def State.invStat (s : State) (p : BitVec 6) : Bool := (s.pr p 0x5018).getLsbD 31
/-- An operation begins: BUSY is set. -/
def State.invBegin (s : State) (p : BitVec 6) (o : InvOp) (e : Ev) : State :=
  State.push { s.setPr p 0x5018 0x80000000 with invBusy := s.invBusy ++ [(p, o)] } e
/-- An operation ends: BUSY clears with the last one. -/
def State.invEnd (s : State) (p : BitVec 6) (o : InvOp) : State :=
  let s : State := { s with invBusy := s.invBusy.erase (p, o) }
  if s.invBusy.any fun x => x.1 == p then s else s.setPr p 0x5018 0

/-- VTBASE_WRITE (R387). -/
def vtbaseWrite (p : BitVec 6) (v : DWord) (s : State) : State :=
  if s.hasLaunch p then s else (s.setPr p 0x5500 (v &&& 0xffffff8001)).invBegin p .views (.viewTableFillComplete p)
def execVtbaseWrite (part : BitVec 6) (v : DWord) (s : State) : Out := .next (vtbaseWrite part v s).tick
/-- VIEW_TABLE_FILL_COMPLETE: the table, in frames that the partition owns, is zero, whatever V is. -/
def viewTableFillComplete (p : BitVec 6) (s : State) : State :=
  if !s.invBusy.contains (p, .views) then s
  else
    let r := (s.pr p 0x5500).toNat
    let pa := s.chip.toNat * 2 ^ 42 + bitsN r 39 15 * 32768
    (if s.ownerOf pa == some p then s.zeroRange pa 32768 else s).invEnd p .views
def execViewTableFillComplete (part : BitVec 6) (s : State) : Out := .next (viewTableFillComplete part s).tick

/-- PRTBASE_WRITE: PRTBASE, or with `ctl` PRTCTL; every cached mask is dropped, and then the new table takes effect (R410). -/
def prtbaseWrite (p : BitVec 6) (ctl : Bool) (v : DWord) (s : State) : State :=
  if s.invStat p then s
  else (if ctl then s.setPr p 0x5308 (v &&& 0xffff) else s.setPr p 0x5300 (v &&& 0xfffffff000)).invBegin p (.table (s.pr p 0x5300) (s.pr p 0x5308)) (.invalidationComplete p)
def execPrtbaseWrite (part : BitVec 6) (ctl : Bool) (v : DWord) (s : State) : Out := .next (prtbaseWrite part ctl v s).tick
/-- PRINV (R410). -/
def prinv (p : BitVec 6) (v : Word) (s : State) : State :=
  if s.invStat p then s
  else (s.setPr p 0x5010 (v &&& 0xffff).toNat).invBegin p (.principal (v.setWidth 16)) (.invalidationComplete p)
def execPrinv (part : BitVec 6) (v : Word) (s : State) : Out := .next (afterHost (.prinv part v) (prinv part v) s).tick
/-- TLBINV (R408): a SPAN above 40 is a bad operand. -/
def tlbinv (p : BitVec 6) (v : DWord) (s : State) : State :=
  let v := v &&& 0xffffffffff03ff
  if s.invStat p then s
  else if 40 < bitsN v.toNat 7 0 then (s.setPr p 0x5008 v).setPr p 0x5018 2
  else (s.setPr p 0x5008 v).invBegin p (.tlb v) (.invalidationComplete p)
def execTlbinv (part : BitVec 6) (v : DWord) (s : State) : Out := .next (afterHost (.tlbinv part v) (tlbinv part v) s).tick

/-- Whether a TLB entry of a partition meets the range of a TLBINV. -/
def tlbMeets (p : BitVec 6) (v : DWord) (e : TlbEntry) : Bool :=
  let base := bitsN v.toNat 55 16 * 65536
  e.part == p && (v.getLsbD 8 || decide (e.va < base + 2 ^ (16 + bitsN v.toNat 7 0) ∧ base < e.va + e.size))
/-- Whether a table entry of the walk caches stands for addresses of that range. -/
def walkMeets (p : BitVec 6) (v : DWord) (w : WalkEntry) : Bool :=
  let base := bitsN v.toNat 55 16 * 65536
  let n := 2 ^ walkLow w.level
  w.part == p && (v.getLsbD 8 || decide (w.idx * n < base + 2 ^ (16 + bitsN v.toNat 7 0) ∧ base < w.idx * n + n))
/-- Cached lines of a partition leave its L1s, written back where dirty, and the guest slices, with notice to their homes. -/
def State.dropLines (s : State) (p : BitVec 6) : State :=
  let cores := ((s.l1.map (·.core)).eraseDups).filter fun c => (s.bh (bhOf c)).part == p
  let s := cores.foldl (fun (s : State) c => let s := s.flush c (fun _ => true); { s with l1 := s.l1.filter fun b => b.core != c }) s
  s.guests.foldl (fun s g => evictionNotice g.agent g.line s) s
/-- What an operation does once it has reached every cache. -/
def State.invDo (s : State) (p : BitVec 6) : InvOp → State
  | .tlb v =>
    let s : State := { s with tlb := s.tlb.filter (fun e => !tlbMeets p v e), walks := s.walks.filter fun w => !walkMeets p v w }
    if v.getLsbD 9 then s.dropLines p else s
  | .principal q => { s with masks := s.masks.filter fun m => !(m.part == p && m.principal == q) }
  | .table .. => { s with masks := s.masks.filter fun m => m.part != p }
  | .views => s
def isViews : InvOp → Bool
  | .views => true
  | _ => false
/-- INVALIDATION_COMPLETE. -/
def invalidationComplete (p : BitVec 6) (s : State) : State :=
  match s.invBusy.find? fun x => x.1 == p && !isViews x.2 with
  | none => s
  | some x => (s.invDo p x.2).invEnd p x.2
def execInvalidationComplete (part : BitVec 6) (s : State) : Out := .next (invalidationComplete part s).tick

/-! Rings (R405, R411, R418, R425). -/

/-- The registers of a ring: control, head and tail. -/
structure RingRegs where
  ctl : DWord
  head : DWord
  tail : DWord
deriving DecidableEq, Repr
def ringOff : Ring → Nat
  | .fault _ => 0x5100 | .event _ => 0x5200 | .error => 0x7200
def State.ringRegs (s : State) (r : Ring) : RingRegs :=
  let get (o : Nat) : DWord := match r with | .fault p | .event p => s.pr p (ringOff r + o) | .error => s.fr 384 (ringOff r + o)
  { ctl := get 8, head := get 12, tail := get 16 }
def State.setRing (s : State) (r : Ring) (x : RingRegs) : State :=
  match r with
  | .fault p | .event p => ((s.setPr p (ringOff r + 8) x.ctl).setPr p (ringOff r + 12) x.head).setPr p (ringOff r + 16) x.tail
  | .error => ((s.setFr 384 (ringOff r + 8) x.ctl).setFr 384 (ringOff r + 12) x.head).setFr 384 (ringOff r + 16) x.tail
/-- Records that a fault queue holds back are tried again. -/
def State.retryHeld (s : State) (r : Ring) : State :=
  match r with
  | .fault p => (s.fqHeld.filter fun h => h.part == p).foldl (fun s _ => s.push (.faultRecordPost p)) s
  | _ => s
/-- RING_HEAD_WRITE: a value out of range, or past the tail, is ignored. -/
def ringHeadWrite (r : Ring) (v : Word) (s : State) : State :=
  let x := s.ringRegs r
  let n := 2 ^ bitsN x.ctl.toNat 4 0
  if n ≤ v.toNat || decide ((x.tail.toNat + n - x.head.toNat) % n < (v.toNat + n - x.head.toNat) % n) then s
  else (s.setRing r { x with head := v.setWidth 64 }).retryHeld r
/-- A write of FQHEAD orders the host's earlier writes (R406). -/
def execRingHeadWrite (r : Ring) (v : Word) (s : State) : Out :=
  match r with
  | .fault _ => .next (afterHost (.ringHeadWrite r v) (ringHeadWrite r v) s).tick
  | _ => .next (ringHeadWrite r v s).tick
/-- RING_CTL_WRITE: setting EN returns the indices to 0 and clears DROPS; with a LOGSZ that is not 1 to 16 it leaves EN clear. -/
def ringCtlWrite (r : Ring) (v : Word) (s : State) : State :=
  let x := s.ringRegs r
  let fields : DWord := (v &&& (if r == .error then 0x00ff001f else 0x40ff001f)).setWidth 64
  if v.getLsbD 31 && !decide (1 ≤ bitsN v.toNat 4 0 ∧ bitsN v.toNat 4 0 ≤ 16) then s.setRing r { x with ctl := fields ||| (x.ctl &&& 0xff00) }
  else if v.getLsbD 31 && !x.ctl.getLsbD 31 then
    let s := s.setRing r { ctl := fields ||| 0x80000000, head := 0, tail := 0 }
    State.retryHeld (if r == .error then { s with lastError := none } else s) r
  else s.setRing r { x with ctl := fields ||| (x.ctl &&& 0xff00) ||| (if v.getLsbD 31 then 0x80000000 else 0) }
def execRingCtlWrite (r : Ring) (v : Word) (s : State) : Out := .next (ringCtlWrite r v s).tick

/-- FAULT_RECORD_POST: the oldest record held for a partition is written, where its queue has room (R405). -/
def faultRecordPost (p : BitVec 6) (s : State) : State :=
  match s.fqHeld.find? fun h => h.part == p with
  | none => s
  | some h =>
    match s.ringPut p 0x5100 h.record with
    | some s => { s with fqHeld := s.fqHeld.erase h }
    | none => if (s.ringRegs (.fault p)).ctl.getLsbD 30 then s.push (.faultRecordPost p) else s
def execFaultRecordPost (part : BitVec 6) (s : State) : Out := .next (faultRecordPost part s).tick

/-! PAGE_WALK (R402 to R404). -/

/-- A walk for a miss of a die's TLB: its leaf enters the TLB, or its fault is reported. -/
def pageWalk (w : Walker) (va : DWord) (write : Bool) (s : State) : State :=
  match s.lookup (.die w.die) w.part va.toNat with
  | .ok (_, e) => s.fillTlb e
  | .error f => s.postPageFault w.part 0 va f write
def execPageWalk (walker : Walker) (va : DWord) (write : Bool) (s : State) : Out := .next (pageWalk walker va write s).tick

end Sys2Proof.Machine
end

