-- ==== Sys2Proof/Machine/Bulkheads.lean ====
section
/-! DEFINITION. Bulkheads, partitions, frames and windows (R389 to R399). -/

namespace Sys2Proof.Machine

/-! The reset of a bulkhead (R398, Table 19.4). -/

/-- Whether the k-th of the requests that have not been accepted at their homes is dropped: a free choice (step 2). -/
def State.dropped (s : State) (k : Nat) : Bool := Config.choice (s.freeCtr + k) % 2 == 1
/-- Steps 1 to 5 for the requests, caches and copies of a bulkhead's cores. What a contained block's irrevocable operation has sent
is performed: its checkpoint waits for the result (R198); committed stores that the slices release go on (R196). -/
def State.gateShut (s : State) (b : Nat) : State :=
  let mine (core : Nat) : Bool := bhOf core == b
  let blks := (s.blocks.filter fun k => mine k.core && k.resident).map (·.id)
  let n := s.atoms.length
  let s : State := { s with
    atoms := ((List.range n).filter fun k => match s.atoms[k]? with | some a => !(mine a.core && !s.isCont a.th.blk && s.dropped k) | none => false).filterMap fun k => s.atoms[k]?
    wbs := ((List.range s.wbs.length).filter fun k => match s.wbs[k]? with | some w => !(mine w.core && w.cmt.isNone && (w.nt || s.dropped (n + k))) | none => false).filterMap
      fun k => s.wbs[k]?
    vstores := s.vstores.filter fun v => !(mine v.core) || v.scattered
    l1 := s.l1.filter fun x => !mine x.core
    code := s.code.filter fun x => !mine x.core
    upd := s.upd.filter fun u => !mine u.core
    tlb := s.tlb.filter fun e => match e.mmu with | .core c => !mine c | .die _ => true
    sr := s.sr.filter fun x => !mine (x.1 / 4)
    resv := s.resv.filter fun r => r.bh != b
    freeCtr := s.freeCtr + n + s.wbs.length }
  (s.copies.filter fun c => blks.contains c.blk && !c.cancelled).foldl (fun s c =>
    let s := s.modCopy c.id fun c => { c with cancelled := true }
    if c.done < c.total || c.unread then s.push (.copyComplete c.id) else s) s
/-- The reset begins, ignored where one runs: the gate closes, outstanding work is aborted, resident blocks are killed; the SRAM is reset
and tested. -/
def State.bhReset (s : State) (b : Nat) (cause : BitVec 8) : State :=
  if (s.bh b).state == .resetting then s
  else
    let s := s.modBh b fun x => { x with state := .resetting, cause := cause, gateOpen := false }
    let s := s.gateShut b
    let s := (s.blocks.filter fun k => bhOf k.core == b && k.resident).foldl (fun s k => s.kill k.id 0x11 none) s
    s.redraw.push (.bulkheadResetDone b (s.draw 2 == 0))
def execBulkheadReset (b : Nat) (s : State) : Out := .next (s.bhReset b 0).tick
/-- The firmware finds the bulkhead's rail, PLL or watchdog in fault. -/
def execBulkheadHwFault (b : Nat) (s : State) : Out := .next (s.bhReset b 2).tick

/-- The blocks of a group that leave a failed bulkhead for another, `t`: one cluster that can hold them all is chosen for them there. -/
def State.moveGroup (s : State) (t : Nat) (ks : List Block) : State :=
  let room (cl : Nat) : Nat := sumL ((s.clusterCores t cl).map fun _ => roomFor Need.zero (ks.headD default).shape 16)
  let cls := (List.range 3).filter fun cl => decide (ks.length ≤ room cl)
  let cl := cls.getD (s.draw cls.length) 0
  { s.redraw with blocks := s.blocks.map fun k =>
      if (ks.any fun x => x.id == k.id) then { k with core := 24 * t + 8 * cl, moved := !cls.isEmpty && k.shape.gsize != 0 } else k }
/-- Work of a failed bulkhead moved to another of its partition, or its launches failed where there is none. -/
def State.moveWork (s : State) (b : Nat) : State :=
  let x := s.bh b
  match s.standIn x.part b with
  | none =>
    let ls := ((s.blocks.filter fun k => bhOf k.core == b).map (·.launch) ++ (s.records.filter fun r => r.gen == some b).map (·.launch)).eraseDups
    let s := (s.blocks.filter fun k => bhOf k.core == b).foldl (fun s k => s.killForGood k 0x11) s
    ls.foldl (fun s l => s.failLaunch l 0x11) s
  | some t =>
    let mine := s.blocks.filter fun k => bhOf k.core == b
    let s := ((mine.map fun k => (k.launch, k.grp, k.shape.stage)).eraseDups).foldl (fun s g => s.moveGroup t (mine.filter fun k => (k.launch, k.grp, k.shape.stage) == g)) s
    let away (r : Record) : Record := if r.gen == some b && r.state != .running then { r with gen := some t } else r
    let s : State := { s with
      records := s.records.map away
      launches := s.launches.map fun l => { l with coMap := l.coMap.filter fun m => bhOf m.2.2 != b, paused := l.paused.map fun p => (p.1, p.2.map away) } }
    (s.modBh t fun y => { y with restore := y.restore ++ x.restore }).modBh b fun y => { y with restore := [] }
/-- Functions of a bulkhead that the operator binds to its partition, once the change is complete: a free choice for each (R372). -/
def State.bindFns (s : State) (b : Nat) : State :=
  let x := s.bh b
  if x.assigned then
    { s with vfPart := s.vfPart ++ (((List.range 8).filter fun k => s.dropped k).map fun k => (8 * b + k, x.part)), freeCtr := s.freeCtr + 8 }
  else s
/-- A partition without bulkheads is gone, its registers back at their reset values. -/
def State.endPart (s : State) (p : BitVec 6) : State :=
  if (s.partAll p).isEmpty then
    { s with
      preg := s.preg.filter fun e => e.1 / 65536 != p.toNat
      areas := s.areas.filter fun a => a.part != p
      masks := s.masks.filter fun m => m.part != p
      tlb := s.tlb.filter fun e => e.part != p
      walks := s.walks.filter fun w => w.part != p
      fqHeld := s.fqHeld.filter fun h => h.part != p
      invBusy := s.invBusy.filter fun x => x.1 != p
      nextLaunch := del s.nextLaunch p.toNat
      lastQueue := del s.lastQueue p.toNat
      vfPart := s.vfPart.filter fun v => v.2 != p }
  else s
/-- A spare core put in place of a failed one is logged (R420). -/
def State.logRepair (s : State) (b : Nat) (was : Nat) : State :=
  if was < (s.bh b).cores then s.postError { pa := 0, unit := errUnit (b / 6) b, code := Config.repairStruct, kind := 5 } else s
/-- Cores assigned to co-resident launches that no longer work are assigned no more. -/
def State.unmapCores (s : State) (b : Nat) : State :=
  { s with launches := s.launches.map fun l => { l with coMap := l.coMap.filter fun m => bhOf m.2.2 != b || decide (m.2.2 % 24 < (s.bh b).cores) } }
/-- BULKHEAD_RESET_DONE: the gate opens, or the bulkhead stays gated and its work moves; the partition is told. The self-test finds how many
of its cores work (R420): a free number. A partition that has no bulkhead left ceases to exist. -/
def bulkheadResetDone (b : Nat) (ok : Bool) (s : State) : State :=
  let x := s.bh b
  if x.state != .resetting then s
  else
    let n := s.draw 25
    let s := s.redraw.modBh b fun x => { x with state := if ok then .run else .failed, gateOpen := ok, cores := if ok then n else x.cores }
    let s := if ok then (s.logRepair b x.cores).unmapCores b else s
    let s := if x.assigned then s.postFault x.part { tid := BitVec.ofNat 10 b, sub := x.cause, kind := 5 } else s
    let s := if x.cause = 1 && ok then s.bindFns b else s
    if ok then s else if x.assigned then (s.moveWork b).endPart x.part else s
def execBulkheadResetDone (b : Nat) (ok : Bool) (s : State) : Out := .next (bulkheadResetDone b ok s).tick

/-! Partitions (R392, R407). -/

/-- PARTITION_CHANGE: refused while a partition concerned has a launch, or for a number above 47. -/
def partitionChange (b : Nat) (assigned : Bool) (p : BitVec 6) (s : State) : State :=
  let x := s.bh b
  if x.assigned == assigned && x.part == p then s
  else if 48 ≤ p.toNat || (x.assigned && s.hasLaunch x.part) || (assigned && s.hasLaunch p) then s.modBh b fun x => { x with cerr := true }
  else
    let s : State := { s with vfPart := s.vfPart.filter fun v => v.1 / 8 != b }
    let s := s.modBh b fun x => { x with cerr := false, assigned := assigned, part := p }
    (s.endPart x.part).bhReset b 1
def execPartitionChange (b : Nat) (assigned : Bool) (part : BitVec 6) (s : State) : Out := .next (partitionChange b assigned part s).tick

/-! Frames (R393, R395). -/

/-- The selected frame, numbered as `frames` numbers them. -/
def State.selFrame (s : State) : Nat := s.chip.toNat * 2 ^ 21 + bitsN s.frameSel.toNat 39 21
/-- Frames above a die's reduced capacity cannot be owned (R420). -/
def State.ownable (s : State) (frame : Nat) : Bool :=
  decide (frame / 512 % 128 < bitsN (s.fr 384 (0x7000 + 16 * (frame / 65536 % 8))).toNat 7 0)
/-- FRAMEOWN_WRITE: ignored while BUSY; a change of V or OWNER begins. -/
def frameownWrite (v : Word) (s : State) : State :=
  let byte : Byte := (v &&& 0xbf).setWidth 8
  let frame := s.selFrame
  if !s.frameBusy.isEmpty || rd s.frames frame == byte || (byte.getLsbD 7 && !s.ownable frame) then s
  else State.push { s with frameBusy := [(frame, byte)] } (.frameownChangeComplete frame)
def execFrameownWrite (v : Word) (s : State) : Out := .next (frameownWrite v s).tick
def Loc.within (f : Nat → Bool) : Loc → Bool
  | .mem pa => f pa
  | .scr .. => false
/-- Buffered stores that no longer reach memory. -/
def dropCells (f : Nat → Bool) (l : List LCell) : List LCell := l.filter fun c => !c.loc.within f
/-- A thread is told that a write of its is refused at its home (R192, R394). -/
def State.refuse (s : State) (th : ThreadId) (pc : Word) (addr : DWord) : State := s.push (.storeFault th Cause.xlate.code addr pc)
/-- Requests in flight to memory whose frames no longer are what they were when the requests were issued meet the new ownership byte and
are refused (R394, R395): no write is made, each with a STORE_FAULT where its thread is known; a load or an atomic returns zeros
(notes/assumptions/20.md); a queue request traps. -/
def State.refuseAt (s : State) (f : Nat → Bool) : State :=
  let lost := s.vstores.filter fun v => v.passed && !v.scattered && v.bytes.any fun x => f x.pa
  let atoms := s.atoms.filter fun a => a.loc.within f
  let rels := s.rels.filter fun r => r.cells.any fun c => c.loc.within f
  let nts := s.wbs.filter fun w => w.nt && w.cells.any fun c => f c.1
  let qs := s.qreqs.filter fun r => r.result.isNone && f r.qcbPa
  let clean (w : WB) : WB := { w with cells := w.cells.filter fun c => !f c.1 }
  let s : State := { s with
    l1 := s.l1.filter fun b => !f b.pa
    upd := s.upd.filter fun u => !f u.pa
    loads := s.loads.map fun l => { l with bytes := l.bytes.map fun b => match b with | .at pa k => if f pa then .val 0 else .at pa k | v => v }
    wbs := (s.wbs.filter fun w => !(w.nt && w.cells.any fun c => f c.1)).map clean
    merges := s.merges.map fun m => if m.exposed then m else { m with wb := clean m.wb }
    rels := s.rels.map fun r => { r with cells := dropCells f r.cells }
    vstores := (s.vstores.filter fun v => !(lost.any fun x => x.id == v.id)).map fun v =>
      if !v.passed && v.answer == some none && v.bytes.any (fun x => f x.pa) then { v with answer := some (some (.xlate, v.va)) } else v
    relays := s.relays.map fun q => if q.loc.within f then { q with denied := true } else q
    blocks := s.blocks.map fun b => { b with
      sbuf := dropCells f b.sbuf, releasing := dropCells f b.releasing
      lead := { b.lead with ops := b.lead.ops.map fun o => { o with cells := o.cells.map (dropCells f) } } }
    teams := s.teams.map fun m => { m with sigs := m.sigs.map fun e => { e with parts := e.parts.map fun p => { p with cells := dropCells f p.cells } } } }
  let s := lost.foldl (fun (s : State) v => (s.modThread v.th fun t => { t with st := t.st - 1 }).refuse v.th v.pc v.va) s
  let s := atoms.foldl (fun (s : State) a => let s := s.atomDone a 0 0 false; if a.red then s.refuse a.th a.pc 0 else s) s
  let s := rels.foldl (fun (s : State) r => s.refuse r.th 0 0) s
  let s := nts.foldl (fun (s : State) w => match w.th with | some th => (s.refuse th 0 0).drained th | none => s) s
  qs.foldl (fun s r => s.qTrap r (.xlate, r.qcb)) s
/-- FRAMEOWN_CHANGE_COMPLETE: no cache holds the frame, its sectors are cleared, and the new byte takes effect. -/
def frameownChangeComplete (frame : Nat) (s : State) : State :=
  match s.frameBusy.find? fun f => f.1 == frame with
  | none => s
  | some f =>
    let within (pa : Nat) : Bool := pa / 2 ^ 21 == frame
    let s := s.refuseAt within
    let s : State := { s with
      guests := s.guests.filter fun g => !within (g.line * 128)
      dir := s.dir.filter fun d => !within (d.line * 128)
      poison := s.poison.filter fun x => !within (32 * x)
      frames := wr s.frames frame f.2
      frameBusy := [] }
    s.zeroRange (frame * 2 ^ 21) (2 ^ 21)
def execFrameownChangeComplete (frame : Nat) (s : State) : Out := .next (frameownChangeComplete frame s).tick

/-! Windows (R396, R397). -/

/-- WINDOW_ENTRY_STAGE: the high half waits for the low one. -/
def execWindowEntryStage (part : BitVec 6) (w : Nat) (hi : DWord) (s : State) : Out :=
  .next (s.setPr part (0xc008 + 16 * w) (hi &&& 0xfffff3ffffffffff)).tick
/-- The physical frames a window entry of a partition names. -/
def State.winCovers (s : State) (e : WinEntry) (pa : Nat) : Bool :=
  let fr := pa % 2 ^ 42 / 2 ^ 21
  pkgOf pa == (if e.use then e.pkg else s.chip.toNat) && decide (e.base ≤ fr ∧ fr ≤ e.last)
def lbyteIn (f : Nat → Bool) : LByte → Bool
  | .at pa _ => f pa
  | .val _ => false
/-- The partition that uses a window, of which an entry is given. -/
def WinEntry.user (e : WinEntry) (own : BitVec 6) : BitVec 6 := if e.use then own else BitVec.ofNat 6 e.part
/-- Requests of the user of a window, accepted under it, that have not completed at their homes: also those that a contained block holds
in its buffer, and reductions in its cores' update lines. -/
def State.winBusy (s : State) (e : WinEntry) (own : BitVec 6) : Bool :=
  let f := s.winCovers e
  let u := e.user own
  let blk (b : Nat) : Bool := match s.block? b with | some x => x.part == u | none => false
  let core (c : Nat) : Bool := !decide (c < 1152) || (s.bh (bhOf c)).part == u
  (s.loads.any fun l => blk l.th.blk && l.bytes.any (lbyteIn f)) || (s.wbs.any fun w => core w.core && w.cells.any fun c => f c.1)
  || (s.merges.any fun m => core m.wb.core && m.wb.cells.any fun c => f c.1) || (s.vstores.any fun v => blk v.th.blk && v.bytes.any fun x => f x.pa)
  || (s.atoms.any fun a => blk a.th.blk && a.loc.within f) || (s.upd.any fun x => core x.core && f x.pa)
  || (s.rels.any fun r => blk r.th.blk && r.cells.any fun c => c.loc.within f) || (s.qreqs.any fun r => r.part == u && r.result.isNone && f r.qcbPa)
  || (s.relays.any fun r => r.part == u && r.loc.within f)
  || (s.blocks.any fun b => b.part == u && (b.sbuf ++ b.releasing ++ b.lead.ops.flatMap fun o => o.cells.flatMap fun l => l).any fun c => c.loc.within f)
  || s.teams.any fun m => blk m.blk && m.sigs.any fun x => x.parts.any fun p => p.cells.any fun c => c.loc.within f
/-- Cached lines under a window leave the user's caches. -/
def State.winDrop (s : State) (e : WinEntry) (own : BitVec 6) : State :=
  let gone (c pa : Nat) : Bool := (s.bh (bhOf c)).part == e.user own && s.winCovers e pa
  let cores := ((s.l1.filter fun b => gone b.core b.pa).map (·.core)).eraseDups
  let s' := cores.foldl (fun (s : State) c => s.flush c fun b => gone c b.pa) s
  let s' : State := { s' with l1 := s'.l1.filter fun b => !gone b.core b.pa }
  (s'.guests.filter fun g => s.winCovers e (g.line * 128)).foldl (fun s g => evictionNotice g.agent g.line s) s'
/-- WINDOW_ENTRY_INSTALL: both halves together, once the requests accepted under the old window have completed. -/
def windowEntryInstall (p : BitVec 6) (w : Nat) (lo : DWord) (s : State) : State :=
  let old := s.winEntry p w
  let s' := if old.v then s.winDrop old p else s
  if old.v && s'.winBusy old p then s'.push (.windowEntryInstall p w lo)
  else (s'.setPr p (0x4008 + 16 * w) (s.pr p (0xc008 + 16 * w))).setPr p (0x4000 + 16 * w) (lo &&& 7)
def execWindowEntryInstall (part : BitVec 6) (w : Nat) (lo : DWord) (s : State) : Out := .next (windowEntryInstall part w lo s).tick

end Sys2Proof.Machine
end

