-- ==== Sys2Proof/Machine/Gangs.lean ====
section
/-! DEFINITION. Gang slices (R383, R384), with the members of gangs as Config gives them. -/

namespace Sys2Proof.Machine

/-- A slice-table entry (Table 18.7): start and end on %clock, gang. -/
structure SliceEntry where
  start : Nat
  stop : Nat
  gid : BitVec 16
deriving DecidableEq, Repr
def sliceEntryOf (v : BitVec 128) : SliceEntry :=
  let n := v.toNat
  { start := bitsN n 127 64, stop := bitsN n 127 64 + 1000 * bitsN n 63 32, gid := v.setWidth 16 }
def State.sliceAt (s : State) (e : BitVec 6) : Option SliceEntry := (s.slices.find? fun x => x.1 == e.toNat).map fun x => sliceEntryOf x.2

/-- SLICE_ENTRY_STAGE: bits 63:0 wait for the other half. -/
def execSliceEntryStage (e : BitVec 6) (lo : DWord) (s : State) : Out :=
  .next (State.tick { s with sliceStage := s.sliceStage.filter (fun x => x.1 != e.toNat) ++ [(e.toNat, lo &&& 0xffffffff0000ffff)] })
/-- SLICE_ENTRY_INSTALL: ignored less than 1 ms before its START, over an entry of lower index, or in the place of one not yet spent. -/
def sliceEntryInstall (e : BitVec 6) (hi : DWord) (s : State) : State :=
  let lo := ((s.sliceStage.find? fun x => x.1 == e.toNat).map (·.2)).getD 0
  let v : BitVec 128 := hi ++ lo
  let n := sliceEntryOf v
  let clash := s.slices.any fun x => decide (x.1 < e.toNat) && decide (n.start < (sliceEntryOf x.2).stop ∧ (sliceEntryOf x.2).start < n.stop)
  if n.start < s.clock.toNat + 1000000 || clash || (s.sliceAt e).isSome || n.gid == 0 then s
  else State.push { s with slices := s.slices ++ [(e.toNat, v)] } (.gangSliceStart e)
def execSliceEntryInstall (e : BitVec 6) (hi : DWord) (s : State) : Out := .next (sliceEntryInstall e hi s).tick

/-- Blocks of GANG launches of a partition that belongs to a gang. -/
def State.gangBlocks (s : State) (p : BitVec 16 → Bool) : List (Launch × Block) :=
  s.blocks.filterMap fun b => (s.launch? b.launch).bind fun x => if x.gang && p (Config.gangOf x.part) then some (x, b) else none
/-- GANG launches stopped as PREEMPT stops them; their blocks go to the restore lists, where they wait for their gang's next slice. -/
def State.gangPreempt (s : State) (p : BitVec 16 → Bool) : State :=
  ((s.gangBlocks p).filter fun x => x.2.state == .running).foldl (fun s x => s.preemptBlock x.1 x.2) s
/-- This package has no block of another gang running: it has pre-empted the last slice's gang. -/
def State.gangClear (s : State) (gid : BitVec 16) : Bool :=
  (s.gangBlocks fun g => g != gid).all fun x => x.2.state != .running && x.2.state != .saving
/-- This package has restored the blocks of a gang and admitted what its dispatchers can of its records. -/
def State.gangPlaced (s : State) (gid : BitVec 16) : Bool :=
  ((s.gangBlocks fun g => g == gid).all fun x => x.1.stopped || x.1.cancelled || (x.2.state != .saved && x.2.state != .killed))
  && (List.range 48).all fun b => (s.picks b).all fun p =>
    !((s.launch? p.launch).any fun x => x.gang && Config.gangOf x.part == gid) || !s.bhWorks b || !s.fits b p
/-- %clock has passed the end of a slice's grace (R384). -/
def State.graceOver (s : State) (e : BitVec 6) : Bool := (s.sliceAt e).any fun n => decide (n.start + 250000 ≤ s.clock.toNat)
/-- Members that are not READY. -/
def Slice.late (sl : Slice) : List (BitVec 14) := (Config.gangPackages sl.gid).filter fun p => !sl.ready.contains p

/-- READY for a slice that has not begun here: kept for its start, one sent after the grace of a slice for its abort. -/
def State.readyEarly (s : State) (e : BitVec 6) (p : BitVec 14) : State :=
  if (s.sliceAt e).isNone then s
  else if s.graceOver e then s.push (.gangReady e p) else { s with sliceReady := s.sliceReady ++ [(e, p)] }
/-- GANG_SLICE_START: the last gang is pre-empted and the entry's may run; without READY from every member the grace begins. -/
def gangSliceStart (e : BitVec 6) (s : State) : State :=
  match s.sliceAt e with
  | none => s
  | some n =>
    if s.clock.toNat < n.start then s.push (.gangSliceStart e)
    else
      let s := s.gangPreempt fun g => g != n.gid
      let ready := (s.sliceReady.filter fun r => r.1 == e).map (·.2)
      let sl : Slice := { entry := e, gid := n.gid, ready := ready, grace := true, aborted := false }
      let s : State := { s with sliceNow := some { sl with grace := !(sl.late).isEmpty }, sliceReady := s.sliceReady.filter fun r => r.1 != e }
      let s := (Config.gangPackages n.gid).foldl (fun s p => if ready.contains p then s else s.push (.gangReady e p)) s
      (s.push (.gangGraceExpiry e)).push (.gangSliceEnd e)
def execGangSliceStart (e : BitVec 6) (s : State) : Out := .next (gangSliceStart e s).tick

/-- GANG_READY: READY from a package for a slice, its own among them, which follows once it has pre-empted the gang before and placed this
one. What comes after the grace ends it no more; a package that is late after an abort pre-empts at once. -/
def gangReady (e : BitVec 6) (p : BitVec 14) (s : State) : State :=
  match s.sliceNow with
  | some sl =>
    if sl.entry == e then
      if p == s.chip && !(s.gangClear sl.gid && (sl.aborted || s.gangPlaced sl.gid)) then s.push (.gangReady e p)
      else if sl.grace && s.graceOver e then s.push (.gangReady e p)
      else
        let sl := { sl with ready := sl.ready ++ [p] }
        let s : State := { s with sliceNow := some { sl with grace := sl.grace && !(sl.late).isEmpty } }
        if sl.aborted && p == s.chip then s.gangPreempt (· == sl.gid) else s
    else s.readyEarly e p
  | none => s.readyEarly e p
def execGangReady (e : BitVec 6) (pkg : BitVec 14) (s : State) : Out := .next (gangReady e pkg s).tick

/-- The partitions of this package in a gang. -/
def State.gangParts (s : State) (gid : BitVec 16) : List (BitVec 6) :=
  ((List.range 48).map (BitVec.ofNat 6)).filter fun p => !(s.partAll p).isEmpty && Config.gangOf p == gid
/-- GANG_GRACE_EXPIRY, at START + 250 µs: a slice with a late member is aborted. -/
def gangGraceExpiry (e : BitVec 6) (s : State) : State :=
  match s.sliceNow, s.sliceAt e with
  | some sl, some n =>
    if sl.entry != e || !sl.grace then s
    else if s.clock.toNat < n.start + 250000 then s.push (.gangGraceExpiry e)
    else
      let late := sl.late
      let low := late.foldl (fun m p => min m p.toNat) (2 ^ 14)
      let s := State.gangPreempt { s with
        sliceNow := some { sl with grace := false, aborted := true }
        launches := s.launches.map fun l => if l.gang && Config.gangOf l.part == sl.gid then { l with gabort := true } else l } (· == sl.gid)
      (s.gangParts sl.gid).foldl (fun s p =>
        s.postFault p { addr := BitVec.ofNat 64 n.start, pc := BitVec.ofNat 32 low, object := sl.gid.setWidth 32,
                        count := BitVec.ofNat 11 (min late.length 2047), kind := 6 }) s
  | _, _ => s
def execGangGraceExpiry (e : BitVec 6) (s : State) : Out := .next (gangGraceExpiry e s).tick

/-- GANG_SLICE_END, at START + LEN: the entry is spent; the gang stops unless a slice of its own follows at once. -/
def gangSliceEnd (e : BitVec 6) (s : State) : State :=
  match s.sliceAt e with
  | none => s
  | some n =>
    if s.clock.toNat < n.stop then s.push (.gangSliceEnd e)
    else
      let s : State := { s with
        slices := s.slices.filter fun x => x.1 != e.toNat
        sliceReady := s.sliceReady.filter fun r => r.1 != e
        sliceNow := s.sliceNow.filter fun sl => sl.entry != e }
      if s.slices.any fun x => (sliceEntryOf x.2).gid == n.gid && (sliceEntryOf x.2).start == n.stop then s else s.gangPreempt (· == n.gid)
def execGangSliceEnd (e : BitVec 6) (s : State) : Out := .next (gangSliceEnd e s).tick

end Sys2Proof.Machine
end

