-- ==== Sys2Proof/Machine/Fleet.lean ====
section
/-! DEFINITION. Errors, scrubbing, links, keys, telemetry and absence (R194, R399, R412, R413, R415 to R424). -/

namespace Sys2Proof.Machine

/-- READ_AHEAD_DISCARD: a code line that was read ahead with an uncorrectable error is dropped and logged (R194). -/
def execReadAheadDiscard (pa : BitVec 56) (s : State) : Out :=
  .next (s.postError { pa := pa, unit := errUnit (dieOf pa.toNat) (Config.errInstance pa.toNat).toNat, code := 7, kind := 2 }).tick

/-! Keys (R412, R413). -/

/-- The key pair in KEYBLOB, unwrapped with the key of the operator's SPDM session: none without a session (R413). -/
def State.unwrapped (s : State) : Option (BitVec 512) := if s.spdm.phase = 5 then Config.keyUnwrap s.spdm.answers s.keyBlob else none
/-- KEY_LOAD: the blob in KEYBLOB is unwrapped into a slot from 1 up; the new key is in force once BUSY clears. -/
def keyLoad (slot : BitVec 9) (s : State) : State :=
  if slot = 0 || s.keyBusy.isSome then s
  else
    match s.unwrapped with
    | none => { s with keyErr := true }
    | some k => State.push { s with keyErr := false, keyBusy := some (slot, some k) } .keySlotBusyClear
def execKeyLoad (slot : BitVec 9) (s : State) : Out := .next (keyLoad slot s).tick
/-- KEY_CLEAR. -/
def keyClear (slot : BitVec 9) (s : State) : State :=
  if slot = 0 || s.keyBusy.isSome then s else State.push { s with keyErr := false, keyBusy := some (slot, none) } .keySlotBusyClear
def execKeyClear (slot : BitVec 9) (s : State) : Out := .next (keyClear slot s).tick
/-- Sectors written under a slot read, once its key is another, as what they decrypt to under it. -/
def State.rekey (s : State) (slot : BitVec 9) : State :=
  (s.sectorKey.filter fun c => c.2.toNat == slot.toNat + 1).foldl (fun s c =>
    { s with mem := wrBytes s.mem (32 * c.1) ((List.range 32).map fun i => Config.wrongKeyByte slot slot (32 * c.1 + i) (rd s.mem (32 * c.1 + i))) }) s
/-- KEY_SLOT_BUSY_CLEAR: the slot has its new key, or none. -/
def keySlotBusyClear (s : State) : State :=
  match s.keyBusy with
  | none => s
  | some (slot, k) =>
    let old := (s.keys.find? fun x => x.1 == slot).map (·.2)
    let s := if old == k then s else s.rekey slot
    { s with keyBusy := none
             keys := s.keys.filter (fun x => x.1 != slot) ++ (match k with | some v => [(slot, v)] | none => []) }
def execKeySlotBusyClear (s : State) : Out := .next (keySlotBusyClear s).tick

/-- INJ_WRITE: the fields of INJ (R422). -/
def injMask : BitVec 128 := 0xffffffffffffffff03ff1f0f00000001
def execInjWrite (v : BitVec 128) (s : State) : Out := .next (State.tick { s with inj := v &&& injMask })

/-! Patrol scrubbing (R419). -/

/-- The address of a sector of a controller's stack: two stacks to a die. -/
def State.scrubPa (s : State) (c n : Nat) : Nat :=
  s.chip.toNat * 2 ^ 42 + c / 2 % 8 * 2 ^ 37 + Config.scrubAddr c n % 2 ^ 32 * 32
/-- Post-package repair of the row of a sector, in a frame that nobody owns: whether its errors recur enough is a free choice, and a repair
is logged (R420, Table 21.4). -/
def State.repairRow (s : State) (pa c : Nat) : State :=
  if (s.frameOf pa).getLsbD 7 || s.draw 2 = 0 then s.redraw
  else s.redraw.postError { pa := BitVec.ofNat 56 pa, unit := errUnit (dieOf pa) (c % 16), code := 1, kind := 5 }
/-- SCRUB_SECTOR: a corrected sector keeps its value; an uncorrectable one is poisoned. -/
def scrubSector (c n : Nat) (found : ScrubFinding) (s : State) : State :=
  if !(s.fr 384 (0x7100 + 8 * (c % 16))).getLsbD 31 then s
  else
    let pa := s.scrubPa c n
    let e (kind : BitVec 8) : ErrRec := { pa := BitVec.ofNat 56 pa, unit := errUnit (dieOf pa) (c % 16), code := 1, kind := kind }
    match found with
    | .clean => s
    | .corrected => (State.postError { s with upsets := s.upsets.filter fun u => u.sector != pa / 32 } (e 3)).repairRow pa c
    | .uncorrected =>
      (State.postError { s with upsets := s.upsets.filter (fun u => u.sector != pa / 32), poison := s.poison.filter (· != pa / 32) ++ [pa / 32] } (e 4)).repairRow pa c
def execScrubSector (controller sector : Nat) (found : ScrubFinding) (s : State) : Out := .next (scrubSector controller sector found s).tick

/-! Lost memory, links and dies (R399, R416, R420). -/

/-- What a die's memory holds reads as poison until the next boot. -/
def State.loseMemory (s : State) (die : Nat) : State := { s with lostDies := s.lostDies.filter (· != die) ++ [die] }
/-- A field of a die's UNITS register lowered to a free smaller count. -/
def State.lessUnits (s : State) (die hi lo : Nat) : State :=
  let r := 0x7000 + 16 * die
  let v := (s.fr 384 r).toNat
  let n := bitsN v hi lo
  (s.setFr 384 r (BitVec.ofNat 64 (v - (n - s.draw n) * 2 ^ lo))).redraw
/-- MEMORY_BULKHEAD_FATAL: a slice is lost, or a controller with pseudo-channels of it (R399, R420), as UNITS shows. -/
def memoryBulkheadFatal (die : Nat) (s : State) : State :=
  if 8 ≤ die then s
  else if s.draw 2 = 0 then (s.redraw.lessUnits die 39 32).loseMemory die
  else (s.redraw.lessUnits die 47 40).loseMemory die
def execMemoryBulkheadFatal (die : Nat) (s : State) : Out := .next (memoryBulkheadFatal die s).tick
/-- The arrangement of Table 0.1, 2×4 dies each linked to three others: a ring of four in each row, and the die of the other row. -/
def ringPeer (die link : Nat) : Nat × Nat :=
  let row := die / 4
  match link with
  | 0 => (4 * row + (die + 3) % 4, 1)
  | 1 => (4 * row + (die + 1) % 4, 0)
  | _ => (4 * (1 - row) + die % 4, 2)
/-- A numbering of links in which each has two ends, on different dies, and a die's links lead to different dies. -/
def peersOk (f : Nat → Nat → Nat × Nat) : Bool :=
  (List.range 8).all fun d => (List.range 3).all fun k =>
    let p := f d k
    decide (p.1 < 8 ∧ p.2 < 3 ∧ p.1 ≠ d) && f p.1 p.2 == (d, k) && (List.range 3).all fun j => j == k || (f d j).1 != p.1
/-- The other end of a link: any numbering that Table 0.1 allows. -/
def linkPeer (die link : Nat) : Nat × Nat := if peersOk Config.linkPeer then Config.linkPeer die link else ringPeer die link
/-- The ends of links that are down after boot. -/
def bootDown : List (Nat × Nat) :=
  ((List.range 8).flatMap fun d => (List.range 3).map fun k => (d, k)).filter fun l =>
    let p := linkPeer l.1 l.2
    Config.bootLinkDown l.1 l.2 || Config.bootLinkDown p.1 p.2
/-- LINKS of a die's UNITS register, as many as it has up (Table 21.5). -/
def State.showLinks (s : State) (die : Nat) : State :=
  let n := 3 - min 3 (s.linksDown.filter fun l => l.1 == die).length
  let r := 0x7000 + 16 * die
  s.setFr 384 r ((s.fr 384 r &&& 0xffffffff3fffffff) ||| (BitVec.ofNat 64 n <<< 30))
/-- AGENT_LOSS: the agent counts as absent at every home, and invalidations it has not answered count as acknowledged. A die of this package
that is lost has its compute bulkheads reset, and they take no work before it rejoins (R399, R423). -/
def agentLoss (a : BitVec 6) (s : State) : State :=
  if s.absent.contains a.toNat then s
  else
    let s : State := { s with
      absent := s.absent ++ [a.toNat]
      swept := s.swept.filter fun x => x.2 != a.toNat
      guests := s.guests.filter fun g => g.agent != a.toNat }
    let s := (s.merges.filter fun m => m.waits.contains a.toNat).foldl (fun s m => invalidationAck m.wb.id a.toNat s) s
    (List.range 8).foldl (fun s d => if s.agentOf d == a.toNat then (List.range 6).foldl (fun s k => s.bhReset (6 * d + k) 2) s else s) s
/-- A die with all three links down cannot be reached: its six compute bulkheads are reset and its memory is lost. -/
def State.checkDie (s : State) (die : Nat) : State :=
  if (s.linksDown.filter fun l => l.1 == die).length = 3 && !s.lostDies.contains die then
    agentLoss (BitVec.ofNat 6 (s.agentOf die)) (s.loseMemory die)
  else s
/-- One end of a link goes down or comes up. -/
def State.linkEnd (s : State) (up : Bool) (l : Nat × Nat) : State :=
  State.showLinks { s with linksDown := s.linksDown.filter (· != l) ++ (if up then [] else [l]) } l.1
/-- An error of a link (Table 21.1, structure 0x08). -/
def linkErr (die link : Nat) (kind : BitVec 8) : ErrRec := { pa := 0, unit := errUnit die link, code := 8, kind := kind }
/-- The links of the package: three of each die, and after those of die 0, in whose register LANES stands, the 72 scale-up lanes. -/
def isLink (die link : Nat) : Bool := decide (die < 8 ∧ link < 3 ∨ die = 0 ∧ 3 ≤ link ∧ link < 75)
/-- A scale-up lane is lost: its port works with fewer (R420). -/
def State.loseLane (s : State) (lane : Nat) : State :=
  let s : State := { s with lanesDown := s.lanesDown ++ [lane] }
  s.setFr 384 0x7000 ((s.fr 384 0x7000 &&& 0x0000ffffffffffff) ||| (BitVec.ofNat 64 (laneCount s.lanesDown) <<< 48))
/-- A link that is lost. -/
def State.linkDown (s : State) (die link : Nat) : Bool := if link < 3 then s.linksDown.contains (die, link) else s.lanesDown.contains (link - 3)
/-- LINK_RETRY: a retransmission succeeds, or fails; with the eighth failure the link is lost and traffic goes another way. -/
def linkRetry (die link : Nat) (ok : Bool) (s : State) : State :=
  if !isLink die link || s.linkDown die link then s
  else
    let n := ((s.linkFails.find? fun f => f.1 == die && f.2.1 == link).map fun f => f.2.2).getD 0
    let s : State := { s with linkFails := s.linkFails.filter fun f => !(f.1 == die && f.2.1 == link) }
    if ok then s.postError (linkErr die link 0)
    else if n < 7 then { s with linkFails := s.linkFails ++ [(die, link, n + 1)] }
    else if 3 ≤ link then (s.postError (linkErr die link 1)).loseLane (link - 3)
    else
      let p := linkPeer die link
      let s := ((s.postError (linkErr die link 1)).linkEnd false (die, link)).linkEnd false p
      (s.checkDie die).checkDie p.1
def execLinkRetry (die link : Nat) (ok : Bool) (s : State) : Out := .next (linkRetry die link ok s).tick
/-- LINK_RETRAINING: a spare lane brings a lost link up again. -/
def linkRetraining (die link : Nat) (s : State) : State :=
  if !s.linksDown.contains (die, link) then s
  else
    let p := linkPeer die link
    ((s.linkEnd true (die, link)).linkEnd true p).postError (linkErr die link 5)
def execLinkRetraining (die link : Nat) (s : State) : Out := .next (linkRetraining die link s).tick

/-! Telemetry (R421). -/

/-- TELEMETRY_SAMPLE: power, temperatures and the unit counts; the last ten samples are kept. Lower clocks change nothing but time. -/
def telemetrySample (power : Nat) (temps : List Nat) (s : State) : State :=
  let units := (List.range 8).map fun d => (s.fr 384 (0x7000 + 16 * d)).toNat
  { s with telemetry := (s.telemetry ++ [power :: (temps ++ units)]).drop (s.telemetry.length + 1 - 10) }
def execTelemetrySample (power : Nat) (temps : List Nat) (s : State) : Out := .next (telemetrySample power temps s).tick

/-! Absence (R423, R424). -/

def execAgentLoss (agent : BitVec 6) (s : State) : Out := .next (agentLoss agent s).tick
/-- DIRECTORY_SWEEP: no pointer of the home names the agent any more; coarse bits stay. Homes are numbered as the agents of the domain
are (R67): those of other packages report their sweeps to the Farrier. -/
def directorySweep (home : Nat) (a : BitVec 6) (s : State) : State :=
  if !s.absent.contains a.toNat then s
  else
    { s with
      dir := s.dir.filterMap fun d => if s.homeAgent (d.line * 128) == home then d.drop a.toNat else some d
      swept := s.swept.filter (· != (home, a.toNat)) ++ [(home, a.toNat)] }
def execDirectorySweep (home : Nat) (agent : BitVec 6) (s : State) : Out := .next (directorySweep home agent s).tick
/-- AGENT_REJOIN: refused until every home of the domain has reported its sweep. -/
def agentRejoin (a : BitVec 6) (s : State) : State :=
  if (List.range (8 * s.domain.length)).all fun h => s.swept.contains (h, a.toNat) then
    { s with absent := s.absent.filter (· != a.toNat), swept := s.swept.filter fun x => x.2 != a.toNat }
  else s
def execAgentRejoin (agent : BitVec 6) (s : State) : Out := .next (agentRejoin agent s).tick
/-- HEARTBEAT_MISS: with the fifth missed beat the package is at fault: its agents are lost, and gangs with it are pre-empted. -/
def heartbeatMiss (pkg : BitVec 14) (s : State) : State :=
  let n := (s.beats.filter (· == pkg)).length
  if n < 4 then { s with beats := s.beats ++ [pkg] }
  else
    let s : State := { s with beats := s.beats.filter (· != pkg) }
    let s := match s.domPos pkg.toNat with
      | some i => (List.range 8).foldl (fun s d => agentLoss (BitVec.ofNat 6 (8 * i + d)) s) s
      | none => s
    s.gangPreempt fun g => (Config.gangPackages g).contains pkg
def execHeartbeatMiss (pkg : BitVec 14) (s : State) : Out := .next (heartbeatMiss pkg s).tick

end Sys2Proof.Machine
end

