-- ==== Sys2Proof/Machine/Boot.lean ====
section
/-! DEFINITION. The cold reset with its verified boot (R414), and the Farrier's SPDM responder (R415, R421). -/

namespace Sys2Proof.Machine

/-! Boot (R414). -/

def bytesOf512 (v : BitVec 512) : List Byte := bytesOfNat 64 v.toNat
/-- A measurement register extended with a digest. -/
def extend (m d : BitVec 512) : BitVec 512 := Config.sha512 (bytesOf512 m ++ bytesOf512 d)
/-- An image verified and not too old. -/
def imageOk (i : Fin 3) : Bool := Config.imageVerifies i && decide (Config.fusedMinimum ≤ Config.imageVersion)
/-- The scale-up lanes that are lost at boot. -/
def bootLanes : List Nat := (List.range 72).filter Config.bootLaneDown
/-- UNITS of a die after boot: no field above its full count, LANES on die 0 only, LINKS those that are up (Table 21.5). -/
def unitsWord (die : Nat) : DWord :=
  let u := Config.bootUnits die
  let lanes := if die = 0 then laneCount bootLanes else 0
  BitVec.ofNat 64 (lanes * 2 ^ 48 + min 128 u.1 * 2 ^ 40 + min 16 u.2.1 * 2 ^ 32
    + (3 - min 3 (bootDown.filter fun l => l.1 == die).length) * 2 ^ 30 + min 128 u.2.2)
/-- A bulkhead after its self-test. -/
def bootBh (b : Nat) : Bulkhead :=
  if Config.selfTest b then { Bulkhead.reset with state := .run, cores := min 24 (Config.workingCores b), gateOpen := true }
  else { Bulkhead.reset with state := .failed }
/-- COLD_RESET: every register at its reset value and no cache, key or measurement left; then the boot, which gates the package where a
step fails. The place of the package in its system stays, and so do the host's memory and %clock. -/
def coldReset (s : State) : State :=
  let s0 : State := { State.reset with chip := s.chip, domain := s.domain, host := s.host, epoch := s.epoch, cycle := s.cycle,
                                       freeCtr := s.freeCtr + 1, nextId := s.nextId }
  let m (n : Nat) : List (BitVec 512) := (List.range 8).map fun k => if h : k < 3 ∧ k < n then extend 0 (Config.imageDigest ⟨k, h.1⟩) else 0
  if !imageOk 0 then { s0 with boot := .failed }
  else if !imageOk 1 then { s0 with boot := .failed, measure := m 1 }
  else if !imageOk 2 then { s0 with boot := .failed, measure := m 2 }
  else if !Config.bootStep s.freeCtr 3 || !Config.bootStep s.freeCtr 5 then { s0 with boot := .failed, measure := m 3 }
  else
    { s0 with
      boot := .done
      measure := m 3
      keys := [(0, Config.slot0Key s.freeCtr)]
      linksDown := bootDown
      lanesDown := bootLanes
      bulkheads := (List.range Config.bulkheads).map bootBh
      freg := (List.range 8).foldl (fun f d => wr f (65536 * 384 + 0x7000 + 16 * d) (unitsWord d)) State.resetFreg }
def execColdReset (s : State) : Out := .next (coldReset s).tick

/-! SPDM (R415). -/

/-- Kinds of requests, as `Config.spdmAnswer` numbers them: 0 GET_VERSION to 8 FINISH, 9 a vendor-defined message. -/
def State.answerSpdm (s : State) (kind : Nat) (body : BitVec 768) (more : List Byte) (phase : Nat) : State :=
  { s with spdm := { phase := phase, answers := s.spdm.answers ++ [Config.spdmAnswer kind body s.spdm.phase ++ more] } }
/-- The eight measurement registers as a report holds them. -/
def State.measured (s : State) : List Byte := s.measure.flatMap bytesOf512
def execGetVersion (s : State) : Out := .next (s.answerSpdm 0 0 [] 1).tick
def execGetCapabilities (s : State) : Out := .next (s.answerSpdm 1 0 [] (max 2 s.spdm.phase)).tick
def execNegotiateAlgorithms (algs : Word) (s : State) : Out := .next (s.answerSpdm 2 (algs.setWidth 768) [] (max 3 s.spdm.phase)).tick
def execGetDigests (s : State) : Out := .next (s.answerSpdm 3 0 [] s.spdm.phase).tick
def execGetCertificate (slot : BitVec 3) (off len : BitVec 16) (s : State) : Out :=
  .next (s.answerSpdm 4 ((slot ++ off ++ len).setWidth 768) [] s.spdm.phase).tick
def execChallenge (nonce : BitVec 256) (s : State) : Out := .next (s.answerSpdm 5 (nonce.setWidth 768) s.measured s.spdm.phase).tick
def execGetMeasurements (nonce : BitVec 256) (s : State) : Out := .next (s.answerSpdm 6 (nonce.setWidth 768) s.measured s.spdm.phase).tick
def execKeyExchange (pub : BitVec 768) (s : State) : Out := .next (s.answerSpdm 7 pub [] (max 4 s.spdm.phase)).tick
/-- FINISH: a session is open where its verification holds. -/
def execFinish (verify : BitVec 384) (s : State) : Out :=
  .next (s.answerSpdm 8 (verify.setWidth 768) [] (if s.spdm.phase = 4 && Config.spdmFinishOk verify then 5 else s.spdm.phase)).tick
/-- VENDOR_DEFINED_MESSAGE: the telemetry samples (R421). -/
def execVendorDefinedMessage (body : List Byte) (s : State) : Out :=
  .next (s.answerSpdm 9 (BitVec.ofNat 768 (natOfBytes body)) (s.telemetry.flatMap fun x => x.flatMap (bytesOfNat 8)) s.spdm.phase).tick

end Sys2Proof.Machine
end

