-- ==== Sys2Proof/Machine/Tiles.lean ====
section
/-! DEFINITION. Tile groups and accumulator cells as data (R51, R52, R140, R305, R306), and the matrix operations that only move
or convert them (R144, R145, R163, R309 to R311, R317 to R320). -/

namespace Sys2Proof.Machine

/-! Tile groups. -/

/-- A tile group as its control register describes it (R52). -/
structure Grp where
  k : Nat
  span : Nat
  rows : Nat
  cols : Nat
  fmt : Fmt
deriving DecidableEq, Repr, Inhabited

/-- Element width of a group. -/
def Grp.w (g : Grp) : Nat := fbits g.fmt
/-- Registers of a SPAN field; 0 for the reserved value. -/
def spanRegs (x : Nat) : Nat := if x = 3 then 0 else 2 ^ x
/-- The group of tile k: none where R52 makes its use trap. -/
def grpOf (tc : Sparse 32) (tiles k : Nat) : Option Grp :=
  let v := (rd tc k).toNat
  let g : Grp := { k := k, span := spanRegs (bitsN v 31 30), rows := bitsN v 20 13 + 1, cols := bitsN v 29 21 + 1,
                   fmt := Fmt.ofCode (BitVec.ofNat 4 v) }
  if g.fmt == .none || g.span = 0 || k % g.span != 0 || decide (tiles < k + g.span)
      || decide (g.span * 131072 < g.rows * g.cols * g.w) then none
  else some g

/-- A range of a byte store as one little-endian number. -/
def rangeNat (m : Memory) (base len : Nat) : Nat :=
  m.foldl (fun acc c => if base ≤ c.1 ∧ c.1 < base + len then acc + c.2.toNat * 2 ^ (8 * (c.1 - base)) else acc) 0
/-- The non-zero bytes of a number as entries from an address up. -/
def natCells : Nat → Nat → Nat → Memory
  | 0, _, _ => []
  | n + 1, a, v => if v % 256 = 0 then natCells n (a + 1) (v / 256) else (a, BitVec.ofNat 8 v) :: natCells n (a + 1) (v / 256)
/-- A range of a byte store replaced by the bytes of a number. -/
def putRange (m : Memory) (base len v : Nat) : Memory :=
  m.filter (fun c => decide (c.1 < base)) ++ natCells len base v ++ m.filter (fun c => decide (base + len ≤ c.1))

/-- The bits of a group (R140). -/
def Grp.bits (g : Grp) (tiles : Memory) : Nat := rangeNat tiles (16384 * g.k) (16384 * g.span)
/-- Element (r, c). -/
def Grp.elem (g : Grp) (v r c : Nat) : Nat := v / 2 ^ ((r * g.cols + c) * g.w) % 2 ^ g.w
/-- Elements in ascending order packed into bits. -/
def packElems (w : Nat) : List Nat → Nat
  | [] => 0
  | e :: es => e % 2 ^ w + 2 ^ w * packElems w es
/-- A group with every element written; bits beyond the last keep their values. -/
def Grp.put (g : Grp) (tiles : Memory) (f : Nat → Nat → Nat) : Memory :=
  let n := g.rows * g.cols
  let old := g.bits tiles
  let new := packElems g.w ((List.range n).map fun i => f (i / g.cols) (i % g.cols))
  putRange tiles (16384 * g.k) (16384 * g.span) (old / 2 ^ (n * g.w) * 2 ^ (n * g.w) + new)

/-- The zero summary of tile register k (R141): bit i says that bytes 128 i to 128 i + 127 are all zero. It follows from the tile bytes,
so that every write of a tile recomputes it. -/
def Side.summary (d : Side) (k : Nat) : BitVec 128 :=
  BitVec.ofNat 128 (((List.range 128).map fun i => if rangeNat d.tiles (16384 * k + 128 * i) 128 = 0 then 2 ^ i else 0).foldl (· + ·) 0)

/-! Accumulator cells. -/

def ctWide : CellTy → Bool
  | .f64 => true
  | _ => false
/-- Columns of elements of a cell type. -/
def ctCols (ct : CellTy) : Nat := if ctWide ct then 512 else 1024
/-- One element: an FP64 element takes a column pair, low word first (R51). -/
def cellGet (acc : Sparse 32) (wide : Bool) (r c : Nat) : Nat :=
  if wide then (rd acc (1024 * r + 2 * c)).toNat + 2 ^ 32 * (rd acc (1024 * r + 2 * c + 1)).toNat else (rd acc (1024 * r + c)).toNat
def cellPut (acc : Sparse 32) (wide : Bool) (r c v : Nat) : Sparse 32 :=
  if wide then wr (wr acc (1024 * r + 2 * c) (BitVec.ofNat 32 v)) (1024 * r + 2 * c + 1) (BitVec.ofNat 32 (v / 2 ^ 32))
  else wr acc (1024 * r + c) (BitVec.ofNat 32 v)

/-- A region of cells (R306). -/
structure Region where
  row0 : Nat
  nr : Nat
  col0 : Nat
  nc : Nat
deriving DecidableEq, Repr, Inhabited

/-- Table 13.1. -/
def regionOf (w : Word) : Region :=
  let x := w.toNat
  { row0 := bitsN x 6 0, nr := bitsN x 23 17 + 1, col0 := bitsN x 16 7, nc := bitsN x 31 24 + 1 }
/-- A region inside the block's rows and the columns of its cell type (R306). -/
def Region.ok (g : Region) (rows : Nat) (ct : CellTy) : Bool := decide (g.row0 + g.nr ≤ rows ∧ g.col0 + g.nc ≤ ctCols ct)
/-- The positions of a region in row order. -/
def Region.cells (g : Region) : List (Nat × Nat) :=
  (List.range (g.nr * g.nc)).map fun i => (i / g.nc, i % g.nc)
/-- Every element of a region written. -/
def Region.put (g : Region) (acc : Sparse 32) (ct : CellTy) (f : Nat → Nat → Nat) : Sparse 32 :=
  g.cells.foldl (fun acc p => cellPut acc (ctWide ct) (g.row0 + p.1) (g.col0 + p.2) (f p.1 p.2)) acc
def Region.get (g : Region) (acc : Sparse 32) (ct : CellTy) (r c : Nat) : Nat := cellGet acc (ctWide ct) (g.row0 + r) (g.col0 + c)
/-- The 32-bit columns a region covers. -/
def Region.rect (g : Region) (ct : CellTy) : Nat × Nat × Nat × Nat :=
  if ctWide ct then (g.row0, g.nr, 2 * g.col0, 2 * g.nc) else (g.row0, g.nr, g.col0, g.nc)

/-! Conversions between cells and formats (R145). -/

def isFloat (f : Fmt) : Bool := (ffmt f).isSome
def isInt (f : Fmt) : Bool := (frange f).isSome
/-- The format a cell is in. -/
def ctFmt : CellTy → Fmt
  | .f32 => .fp32 | .f64 => .fp64 | .i32 => .int32
/-- Pairings `acc.st` allows. -/
def stOk (ct : CellTy) (f : Fmt) : Bool := match ct with | .i32 => isInt f | _ => isFloat f
/-- Pairings `acc.ld` allows: every value exact in the cell type. -/
def ldOk (ct : CellTy) (f : Fmt) : Bool :=
  match ct with
  | .f32 => isFloat f && f != .fp64
  | .f64 => f == .fp32 || f == .fp64
  | .i32 => isInt f
/-- A cell drained to a format, by RZ (R145, R176): Round quietens a signalling NaN where the formats are equal, too. -/
def drain (ct : CellTy) (f : Fmt) (v : Nat) : FR := convert f (ctFmt ct) .rz v
/-- A value filled into a cell (R145, R318). -/
def fill (ct : CellTy) (f : Fmt) (v : Nat) : FR := convert (ctFmt ct) f .rne v

/-! Moves among tiles, cells and pm registers: each gives the new side and the flags raised. -/

/-- `tmov` (R310): every element of A read before any of D is written. -/
def tmovSide (d : Side) (gd ga : Grp) (t : Bool) (rm : Rm) : Side × Flags5 :=
  let va := ga.bits d.tiles
  let el (r c : Nat) : FR :=
    let x := if t then ga.elem va c r else ga.elem va r c
    if gd.fmt == ga.fmt then { bits := x, fl := 0 } else convert gd.fmt ga.fmt rm x
  let all := (List.range (gd.rows * gd.cols)).map fun i => el (i / gd.cols) (i % gd.cols)
  ({ d with tiles := gd.put d.tiles fun r c => (all.getD (r * gd.cols + c) default).bits },
   all.foldl (fun fl x => fl ||| x.fl) 0)
/-- Shapes that `tmov` allows. -/
def tmovOk (gd ga : Grp) (t : Bool) : Bool :=
  if t then gd.rows == ga.cols && gd.cols == ga.rows else gd.rows == ga.rows && gd.cols == ga.cols

/-- `tzero` (R311). -/
def tzeroSide (d : Side) (k n : Nat) : Side := { d with tiles := putRange d.tiles (16384 * k) (16384 * n) 0 }

/-- `acc.ld` from a tile (R318). -/
def accLdSide (d : Side) (g : Grp) (rg : Region) (ct : CellTy) : Side × Flags5 :=
  let v := g.bits d.tiles
  ({ d with acc := rg.put d.acc ct fun r c => (fill ct g.fmt (g.elem v r c)).bits },
   rg.cells.foldl (fun fl p => fl ||| (fill ct g.fmt (g.elem v p.1 p.2)).fl) 0)
/-- `acc.st` to a tile (R318). -/
def accStSide (d : Side) (g : Grp) (rg : Region) (ct : CellTy) : Side × Flags5 :=
  ({ d with tiles := g.put d.tiles fun r c => (drain ct g.fmt (rg.get d.acc ct r c)).bits },
   rg.cells.foldl (fun fl p => fl ||| (drain ct g.fmt (rg.get d.acc ct p.1 p.2)).fl) 0)
/-- The copy of `acc.snap` out of given cells, bit for bit (R144). -/
def snapSide (d : Side) (cells : Sparse 32) (g : Grp) (rg : Region) (ct : CellTy) : Side :=
  { d with tiles := g.put d.tiles fun r c => rg.get cells ct r c }
/-- The tile group of `acc.snap` has the region's shape and FP32 or FP64 elements (R319). -/
def snapOk (g : Grp) (rg : Region) (ct : CellTy) : Bool :=
  g.rows == rg.nr && g.cols == rg.nc && g.fmt == (if ctWide ct then Fmt.fp64 else .fp32)
def shapeOk (g : Grp) (rg : Region) : Bool := g.rows == rg.nr && g.cols == rg.nc

/-- `acc.zero` (R319). -/
def accZeroSide (d : Side) (rg : Region) (ct : CellTy) : Side := { d with acc := rg.put d.acc ct fun _ _ => 0 }

/-- Entry i of a pm register. -/
def pmGet (d : Side) (p i : Nat) : Nat := (d.pm.getD (128 * p + i) 0).toNat
def pmPut (d : Side) (p i v : Nat) : Side := { d with pm := d.pm.set (128 * p + i) (BitVec.ofNat 7 v) }
/-- Two rows of a region swapped. -/
def swapRows (rg : Region) (ct : CellTy) (acc : Sparse 32) (a b : Nat) : Sparse 32 :=
  (List.range rg.nc).foldl (fun acc c =>
    let x := cellGet acc (ctWide ct) (rg.row0 + a) (rg.col0 + c)
    let y := cellGet acc (ctWide ct) (rg.row0 + b) (rg.col0 + c)
    cellPut (cellPut acc (ctWide ct) (rg.row0 + a) (rg.col0 + c) y) (ctWide ct) (rg.row0 + b) (rg.col0 + c) x) acc
/-- `pm.apply` and its inverse (R163, R320). -/
def pmApplySide (d : Side) (p : Nat) (rg : Region) (ct : CellTy) (inv : Bool) : Side :=
  let js := if inv then (List.range rg.nr).reverse else List.range rg.nr
  { d with acc := js.foldl (fun acc j => swapRows rg ct acc j (pmGet d p j)) d.acc }
/-- Every row an entry names lies in the block's rows (R163). -/
def pmApplyOk (d : Side) (p : Nat) (rg : Region) (rows : Nat) : Bool :=
  (List.range rg.nr).all fun j => decide (rg.row0 + pmGet d p j < rows)

/-! Memory images (R305). -/

/-- Bytes of a row of elements of w bits. -/
def rowBytes (cols w : Nat) : Nat := cols * w / 8
/-- Row r of a tile group as bytes, and a group with its rows from bytes. -/
def Grp.rowNat (g : Grp) (v r : Nat) : Nat := v / 2 ^ (r * g.cols * g.w) % 2 ^ (g.cols * g.w)
/-- A group written from its rows' images in ascending order. -/
def Grp.putRows (g : Grp) (tiles : Memory) (rows : List (List Byte)) : Memory :=
  let v := packElems (g.cols * g.w) (rows.map natOfBytes)
  g.put tiles fun r c => g.elem v r c
/-- The rows of a group as images. -/
def Grp.images (g : Grp) (tiles : Memory) : List (List Byte) :=
  let v := g.bits tiles
  (List.range g.rows).map fun r => bytesOfNat (rowBytes g.cols g.w) (g.rowNat v r)
/-- The rows of a region in a format as images, with the flags of the drain. -/
def regionImages (d : Side) (rg : Region) (ct : CellTy) (f : Fmt) : List (List Byte) × Flags5 :=
  ((List.range rg.nr).map fun r =>
      bytesOfNat (rowBytes rg.nc (fbits f)) (packElems (fbits f) ((List.range rg.nc).map fun c => (drain ct f (rg.get d.acc ct r c)).bits)),
   rg.cells.foldl (fun fl p => fl ||| (drain ct f (rg.get d.acc ct p.1 p.2)).fl) 0)
/-- A region filled from row images in a format. -/
def regionFill (d : Side) (rg : Region) (ct : CellTy) (f : Fmt) (rows : List (List Byte)) : Side × Flags5 :=
  let vs := rows.map natOfBytes
  let el (r c : Nat) : FR := fill ct f (vs.getD r 0 / 2 ^ (c * fbits f) % 2 ^ fbits f)
  ({ d with acc := rg.put d.acc ct fun r c => (el r c).bits }, rg.cells.foldl (fun fl p => fl ||| (el p.1 p.2).fl) 0)

end Sys2Proof.Machine
end

