-- ==== Sys2Proof/Machine/Mma.lean ====
section
/-! DEFINITION. Matrix multiply, dense, sparse and scaled (R146 to R154, R312, R313). -/

namespace Sys2Proof.Machine

/-! The format word (Tables 6.1, 6.2). -/

/-- Step granule of a pairing with its cell type and whether block scales are allowed; none for an illegal pairing. -/
def pairing (a b : Fmt) : Option (CellTy × Nat × Bool) :=
  let narrow (f : Fmt) : Bool := f == .e4m3 || f == .e5m2 || f == .e3m2 || f == .e2m3
  let i8 (f : Fmt) : Bool := f == .int8 || f == .n8
  let i4 (f : Fmt) : Bool := f == .int4 || f == .n4
  if a == .fp64 && b == .fp64 then some (.f64, 8, false)
  else if a == .fp32 && b == .fp32 then some (.f32, 16, false)
  else if (a == .fp16 && b == .fp16) || (a == .bf16 && b == .bf16) then some (.f32, 32, false)
  else if narrow a && narrow b then some (.f32, 64, true)
  else if a == .e2m1 && b == .e2m1 then some (.f32, 128, true)
  else if i8 a && i8 b then some (.i32, 64, false)
  else if i4 a && i4 b then some (.i32, 128, false)
  else none
/-- The ACC field. -/
def accOf (x : Nat) : Option CellTy := if x = 0 then some .f32 else if x = 1 then some .f64 else if x = 2 then some .i32 else none

/-! One step (R148, R149). -/

/-- A product of a step: a NaN (from a NaN operand, or not), an infinity, or an exact value. -/
inductive Prod where
  | nan (operand : Bool)
  | inf (s : Bool)
  | fin (s : Bool) (m : Nat) (e : Int)
deriving DecidableEq, Repr, Inhabited

/-- A product of two elements with the exponent of their scales; none: a scale is NaN (R150). -/
def mulVal (a b : FV) (sc : Option Int) : Prod :=
  match sc with
  | none => .nan true
  | some x =>
    match a, b with
    | .nan .., _ => .nan true
    | _, .nan .. => .nan true
    | .inf s, .inf t => .inf (s != t)
    | .inf s, .fin t m _ => if m = 0 then .nan false else .inf (s != t)
    | .fin s m _, .inf t => if m = 0 then .nan false else .inf (s != t)
    | .fin s m e, .fin t n k => .fin (s != t) (m * n) (e + k + x)

/-- An exact sum: a multiple of 2^e. -/
structure Dyad where
  v : Int
  e : Int
deriving DecidableEq, Repr, Inhabited
def Dyad.add (a b : Dyad) : Dyad :=
  let e := min a.e b.e
  { v := a.v * 2 ^ (a.e - e).toNat + b.v * 2 ^ (b.e - e).toNat, e := e }
def prodDyad : Prod → Dyad
  | .fin s m e => { v := if s then -(m : Int) else m, e := e }
  | _ => { v := 0, e := 0 }
def prodSum (ps : List Prod) : Dyad :=
  ps.foldl (fun a p => match p with | .fin _ 0 _ => a | _ => a.add (prodDyad p)) { v := 0, e := 0 }
def Prod.negZero : Prod → Bool
  | .fin s m _ => s && m == 0
  | _ => false

/-- A floating-point cell after one step (R148, R149): the exact sum of the products and the cell, rounded once. An exact zero is
-0 only where the cell and every product are -0. -/
def mmaStep (f : FFmt) (acc : Nat) (ps : List Prod) : FR :=
  let va := f.val acc
  let opNan := va.isNan || ps.any fun p => p == .nan true
  let pos := ps.any fun p => p == .inf false
  let neg := ps.any fun p => p == .inf true
  let bad := ps.any (fun p => p == .nan false) || (pos && neg) || (va.isInf && (if va.sign then pos else neg))
  if opNan || bad then { bits := f.nan, fl := if opNan then 0 else flNV }
  else if va.isInf then { bits := acc, fl := 0 }
  else if pos || neg then { bits := infOf f neg, fl := 0 }
  else
    match va with
    | .fin s m e =>
      let t := (prodSum ps).add { v := if s then -(m : Int) else m, e := e }
      let sg := if t.v = 0 then s && m == 0 && ps.all (·.negZero) else decide (t.v < 0)
      roundTo f .rne { s := sg, m := t.v.natAbs, e := t.e, sticky := false }
    | _ => { bits := f.nan, fl := 0 }

/-! Operands. -/

/-- The value of an encoding for a product. -/
def elemVal (f : Fmt) (x : Nat) : FV := match ffmt f with | some g => g.val x | none => .fin false 0 0

/-- What an `mma` needs beyond its registers, once its checks have passed. -/
structure MmaPlan where
  m : Nat
  n : Nat
  k : Nat
  kg : Nat
  ct : CellTy
  ga : Grp
  gb : Grp
  gb2 : Option Grp
  scale : Option Nat
  /-- tile of the metadata, values kept of four, logical columns of S (R152) -/
  sp : Option (Nat × Nat × Nat)
  transposed : Bool
  rg : Region
deriving DecidableEq, Repr, Inhabited

/-- M, N of the fields (R148, R312). -/
def mmaM (x : MmaArgs) : Nat := 16 * 2 ^ x.mf.toNat
def mmaN (x : MmaArgs) : Nat := if x.nf = 0 then 1024 else 16 * x.nf.toNat

/-- The checks of R146, R148, R152 and R142 (R313): the plan, or none where every signer traps with ILLEGAL_OP. `spt`: `mma.spt`. -/
def mmaPlan (tc : Sparse 32) (tiles rows : Nat) (x : MmaArgs) (spt : Bool) (gf : Word) : Option MmaPlan := do
  let w := gf.toNat
  let ga ← grpOf tc tiles x.a.toNat
  let gb ← grpOf tc tiles x.tb.toNat
  let (ct, kg, sc) ← pairing ga.fmt gb.fmt
  let acc ← accOf (bitsN w 9 8)
  let smode := bitsN w 11 10
  let ts := bitsN w 15 12
  if ga.fmt.code.toNat != bitsN w 3 0 || gb.fmt.code.toNat != bitsN w 7 4 || acc != ct || bitsN w 31 16 != 0
      || decide (1 < smode) || (smode == 1 && !sc) then none
  else
    let q := if x.p = 1 then 2 else 1
    let ll := if x.p = 0 then ga.cols else ga.cols * 4 / q
    if x.p != 0 && (ll * q / 4 != ga.cols || ll * q % 4 != 0 || ga.rows % 4 != 0 || ll % 4 != 0) then none
    else
      let m := if spt then ll else ga.rows
      let k := if spt then ga.rows else ll
      let n := mmaN x
      let rg : Region := { row0 := x.row0.toNat, nr := m, col0 := 16 * x.col.toNat, nc := n }
      if m != mmaM x || k % kg != 0 || k != gb.rows || !rg.ok rows ct then none
      else
        let gb2 ← if n ≤ gb.cols then some none else
          match (if gb.k + gb.span < 16 then grpOf tc tiles (gb.k + gb.span) else none) with
          | some g => if g.fmt == gb.fmt && g.rows == gb.rows && decide (n - gb.cols ≤ g.cols) then some (some g) else none
          | none => none
        if smode == 1 && decide (tiles ≤ ts + 1) then none
        else if x.p != 0 && decide (tiles ≤ ga.k + ga.span) then none
        else
          some { m := m, n := n, k := k, kg := kg, ct := ct, ga := ga, gb := gb, gb2 := gb2,
                 scale := if smode == 1 then some ts else none,
                 sp := if x.p = 0 then none else some (ga.k + ga.span, q, ll), transposed := spt, rg := rg }

/-! Sparse operands (R152 to R154). -/

/-- Mask of a 4 × 4 block of S. -/
def spMask (tiles : Memory) (md ll bi bj : Nat) : Nat := rdNat tiles (16384 * md + 2 * (bi * (ll / 4) + bj)) 2
def popN (x : Nat) : Nat := sumL ((List.range 4).map fun i => x / 2 ^ i % 2)
/-- q bits in every row and every column (R153). -/
def maskOk (x q : Nat) : Bool :=
  (List.range 4).all fun i => popN (x / 2 ^ (4 * i) % 16) == q && sumL ((List.range 4).map fun r => x / 2 ^ (4 * r + i) % 2) == q
/-- R153 over the masks that A's blocks use. -/
def spOk (tiles : Memory) (p : MmaPlan) : Bool :=
  match p.sp with
  | none => true
  | some (md, q, ll) =>
    (List.range (p.ga.rows / 4)).all fun bi => (List.range (ll / 4)).all fun bj => maskOk (spMask tiles md ll bi bj) q
/-- Element (r, c) of the stored operand S; none for a position that is not kept. -/
def spElem (tiles : Memory) (p : MmaPlan) (va md q ll r c : Nat) : Option Nat :=
  let row := spMask tiles md ll (r / 4) (c / 4) / 2 ^ (4 * (r % 4)) % 16
  if row / 2 ^ (c % 4) % 2 = 1 then some (p.ga.elem va r (c / 4 * q + popN (row % 2 ^ (c % 4)))) else none

/-- Element (m, k) of A. -/
def aElem (d : Side) (p : MmaPlan) (va m k : Nat) : Option Nat :=
  let (r, c) := if p.transposed then (k, m) else (m, k)
  match p.sp with
  | none => some (p.ga.elem va r c)
  | some (md, q, ll) => spElem d.tiles p va md q ll r c
/-- Element (k, n) of B, its later columns from the second group. -/
def bElem (p : MmaPlan) (vb vb2 k n : Nat) : Nat :=
  if n < p.gb.cols then p.gb.elem vb k n else match p.gb2 with | some g => g.elem vb2 k (n - p.gb.cols) | none => 0
/-- Exponent of the scales of a product; none where one is NaN (R150). -/
def scaleOf (d : Side) (p : MmaPlan) (m n k : Nat) : Option Int :=
  match p.scale with
  | none => some 0
  | some ts =>
    let ea := (rd d.tiles (16384 * ts + 16 * m + k / 32)).toNat
    let eb := (rd d.tiles (16384 * (ts + 1) + 1024 * (k / 32) + n)).toNat
    if ea = 255 || eb = 255 then none else some ((ea : Int) + (eb : Int) - 254)

/-- The products of one step for one cell. A position that the metadata does not keep counts as a product +0; its sign is not given
(DESIGN CHOICE, notes/assumptions/68.md). -/
def stepProds (d : Side) (p : MmaPlan) (va vb vb2 s m n : Nat) : List Prod :=
  (List.range p.kg).map fun j =>
    let k := s * p.kg + j
    match aElem d p va m k with
    | none => .fin false 0 0
    | some x => mulVal (elemVal p.ga.fmt x) (elemVal p.gb.fmt (bElem p vb vb2 k n)) (scaleOf d p m n k)
/-- The integer sum of one step for one cell. -/
def stepInt (d : Side) (p : MmaPlan) (va vb vb2 s m n : Nat) : Int :=
  (List.range p.kg).foldl (fun t j =>
    let k := s * p.kg + j
    match aElem d p va m k with
    | none => t
    | some x => t + intVal p.ga.fmt x * intVal p.gb.fmt (bElem p vb vb2 k n)) 0

/-- One cell after one step: FP64 cells take the products one by one, fused, in ascending k. -/
def stepCell (d : Side) (p : MmaPlan) (va vb vb2 s m n acc : Nat) : FR :=
  match p.ct with
  | .i32 => { bits := (BitVec.ofInt 32 ((acc : Int) + stepInt d p va vb vb2 s m n)).toNat, fl := 0 }
  | .f32 => mmaStep f32 acc (stepProds d p va vb vb2 s m n)
  | .f64 =>
    (stepProds d p va vb vb2 s m n).foldl (fun r q => let x := mmaStep f64 r.bits [q]; { bits := x.bits, fl := r.fl ||| x.fl }) { bits := acc, fl := 0 }

/-- The cells after the first `steps` steps, with the flags. -/
def mmaRun (d : Side) (p : MmaPlan) (steps : Nat) : Side × Flags5 :=
  let va := p.ga.bits d.tiles
  let vb := p.gb.bits d.tiles
  let vb2 := match p.gb2 with | some g => g.bits d.tiles | none => 0
  let r := p.rg.cells.foldl (fun (acc : Sparse 32 × Flags5) c =>
    let v := (List.range steps).foldl (fun (r : FR) s => let x := stepCell d p va vb vb2 s c.1 c.2 r.bits; { bits := x.bits, fl := r.fl ||| x.fl })
      { bits := p.rg.get acc.1 p.ct c.1 c.2, fl := 0 }
    (cellPut acc.1 (ctWide p.ct) (p.rg.row0 + c.1) (p.rg.col0 + c.2) v.bits, acc.2 ||| v.fl)) (d.acc, 0)
  ({ d with acc := r.1 }, r.2)
def MmaPlan.steps (p : MmaPlan) : Nat := p.k / p.kg

end Sys2Proof.Machine
end

