-- ==== Sys2Proof/Machine/Factor.lean ====
section
/-! DEFINITION. Factorisations (R155 to R162, R314 to R316): the operand word, the checks, one column of each kind, the growth
estimate. Each operation of the cell type is rounded once (notes/assumptions/11.md). -/

namespace Sys2Proof.Machine

/-- What a factorisation's operands say (Table 13.4): `kind` as in Table 6.4, the pm register it writes. -/
structure FactPlan where
  kind : Nat
  wide : Bool
  flag : Bool
  up : Bool
  unit : Bool
  row0 : Nat
  n : Nat
  col0 : Nat
  tr : Nat
  colB : Nat
  m : Nat
  pm : Option Nat
  ops : DWord
deriving DecidableEq, Repr, Inhabited

/-- MOD of R314. -/
def factMod (x : FactArgs) : BitVec 8 := (0 : BitVec 4) ++ x.pm ++ BitVec.ofBool x.flag ++ BitVec.ofBool x.f64
def trsmMod (x : TrsmArgs) : BitVec 8 :=
  (0 : BitVec 2) ++ BitVec.ofBool x.unit ++ BitVec.ofBool x.up ++ (0 : BitVec 2) ++ BitVec.ofBool x.flag ++ BitVec.ofBool x.f64

/-- The plan of a factorisation word with operand word `o`. -/
def factPlan (i : Instr) (o : DWord) : Option FactPlan :=
  let w := o.toNat
  let mk (kind : Nat) (wide flag up unit : Bool) (pm : Option Nat) (md : BitVec 8) : FactPlan :=
    { kind := kind, wide := wide, flag := flag, up := up, unit := unit, row0 := bitsN w 6 0, n := bitsN w 23 17 + 1, col0 := bitsN w 16 7,
      tr := bitsN w 30 24, colB := bitsN w 41 32, m := bitsN w 51 42 + 1, pm := pm, ops := md ++ o.extractLsb' 0 56 }
  match i with
  | .mfactLu _ x => some (mk 1 x.f64 x.flag false false (some x.pm.toNat) (factMod x))
  | .mfactChol _ x => some (mk 2 x.f64 x.flag false false (some x.pm.toNat) (factMod x))
  | .mfactQr _ x => some (mk 3 x.f64 x.flag false false (some x.pm.toNat) (factMod x))
  | .mtrsm _ x => some (mk 4 x.f64 x.flag x.up x.unit none (trsmMod x))
  | _ => none

/-- R315 but for the matrix status. -/
def FactPlan.ok (p : FactPlan) (o : DWord) (rows : Nat) : Bool :=
  let w := o.toNat
  let cols := if p.wide then 512 else 1024
  bitsN w 63 52 == 0 && bitsN w 31 31 == 0 && (p.kind == 4 || bitsN w 51 32 == 0) && (p.kind == 3 || p.tr == 0)
  && decide (p.row0 + p.n ≤ rows ∧ p.col0 + p.n ≤ cols)
  && (p.kind != 3 || (decide (p.tr < rows) && !decide (p.row0 ≤ p.tr ∧ p.tr < p.row0 + p.n)))
  && (p.kind != 4 || (decide (p.colB + p.m ≤ cols) && decide (p.colB + p.m ≤ p.col0 ∨ p.col0 + p.n ≤ p.colB)))

/-- The format of the cells. -/
def FactPlan.fmt (p : FactPlan) : FFmt := if p.wide then f64 else f32
/-- Columns of the run: of the region, or right-hand sides for a solve. -/
def FactPlan.cols (p : FactPlan) : Nat := if p.kind = 4 then p.m else p.n

/-- Where a column's arithmetic stands: the cells, the flags raised, whether a NaN was produced. -/
structure FRun where
  acc : Sparse 32
  fl : Flags5
  nan : Bool
abbrev FM := StateM FRun

/-- One rounded operation. -/
def FactPlan.op (p : FactPlan) (x : FR) : FM Nat := do
  modify fun r => { r with fl := r.fl ||| x.fl, nan := r.nan || (p.fmt.val x.bits).isNan }
  pure x.bits
def FactPlan.add (p : FactPlan) (a b : Nat) : FM Nat := p.op (fpAdd p.fmt .rne a b)
def FactPlan.sub (p : FactPlan) (a b : Nat) : FM Nat := p.op (fpSub p.fmt .rne a b)
def FactPlan.mul (p : FactPlan) (a b : Nat) : FM Nat := p.op (fpMul p.fmt .rne a b)
def FactPlan.quo (p : FactPlan) (a b : Nat) : FM Nat := p.op (fpDiv p.fmt .rne a b)
def FactPlan.root (p : FactPlan) (a : Nat) : FM Nat := p.op (fpSqrt p.fmt .rne a)
def FactPlan.fma (p : FactPlan) (a b c : Nat) : FM Nat := p.op (fpFma p.fmt .rne a b c)
/-- The minus of the algorithms. The spec does not say what it does to the sign bit of a NaN: it is flipped (DESIGN CHOICE,
notes/assumptions/67.md). -/
def FactPlan.neg (p : FactPlan) (a : Nat) : Nat := flipSign p.fmt a

/-- a[i][j], and for a solve b[i][c], as cells. -/
def FactPlan.get (p : FactPlan) (i j : Nat) : FM Nat := do pure (cellGet (← MonadState.get).acc p.wide (p.row0 + i) (p.col0 + j))
def FactPlan.set (p : FactPlan) (i j v : Nat) : FM Unit := modify fun r => { r with acc := cellPut r.acc p.wide (p.row0 + i) (p.col0 + j) v }
def FactPlan.getB (p : FactPlan) (i c : Nat) : FM Nat := do pure (cellGet (← MonadState.get).acc p.wide (p.row0 + i) (p.colB + c))
def FactPlan.setB (p : FactPlan) (i c v : Nat) : FM Unit := modify fun r => { r with acc := cellPut r.acc p.wide (p.row0 + i) (p.colB + c) v }

def FactPlan.isZero (p : FactPlan) (x : Nat) : Bool := (p.fmt.val x).isZero
def FactPlan.isNan (p : FactPlan) (x : Nat) : Bool := (p.fmt.val x).isNan
/-- Magnitude bits: they order like magnitudes. -/
def FactPlan.mag (p : FactPlan) (x : Nat) : Nat := x % 2 ^ (p.fmt.w - 1)
/-- Rank of a pivot: a NaN above every number. -/
def FactPlan.rank (p : FactPlan) (x : Nat) : Nat := if p.isNan x then 2 ^ p.fmt.w else p.mag x

/-- The indices from a up to below b. -/
def fromTo (a b : Nat) : List Nat := (List.range (b - a)).map (a + ·)

/-- The row of the pivot of column j (R157). -/
def FactPlan.pivot (p : FactPlan) (acc : Sparse 32) (j : Nat) : Nat :=
  let at' (i : Nat) : Nat := p.rank (cellGet acc p.wide (p.row0 + i) (p.col0 + j))
  (fromTo (j + 1) p.n).foldl (fun best i => if at' best < at' i then i else best) j

/-- What a column answers: done, done with a recorded failure, or a trap. -/
inductive FactCol where
  | done | failed (k : Nat) | trap (c : Cause)
deriving DecidableEq, Repr

/-- Column j of `mfact.lu`: how it ends, and the row swapped. -/
def FactPlan.lu (p : FactPlan) (j : Nat) : FM (FactCol × Nat) := do
  let r := p.pivot (← MonadState.get).acc j
  let pv := cellGet (← MonadState.get).acc p.wide (p.row0 + r) (p.col0 + j)
  if p.isZero pv && !p.flag then return (.trap .zeroPivot, r)
  modify fun x => { x with acc := swapRows { row0 := p.row0, nr := p.n, col0 := p.col0, nc := p.n } (if p.wide then .f64 else .f32) x.acc j r }
  if p.isZero pv then return (.failed j, r)
  for i in fromTo (j + 1) p.n do
    p.set i j (← p.quo (← p.get i j) pv)
  for i in fromTo (j + 1) p.n do
    let l ← p.get i j
    for c in fromTo (j + 1) p.n do
      p.set i c (← p.fma (p.neg l) (← p.get j c) (← p.get i c))
  return (.done, r)

/-- Column j of `mfact.chol`. -/
def FactPlan.chol (p : FactPlan) (j : Nat) : FM FactCol := do
  let mut d ← p.get j j
  for k in List.range j do
    let x ← p.get j k
    d ← p.fma (p.neg x) x d
  let bad : Bool := p.isNan d || p.isZero d || decide (2 ^ (p.fmt.w - 1) ≤ d)
  if bad then
    if !p.flag then return .trap .notPosdef
    for i in fromTo j p.n do
      p.set i j 0
    return .failed j
  let l ← p.root d
  p.set j j l
  for i in fromTo (j + 1) p.n do
    let mut s ← p.get i j
    for k in List.range j do
      s ← p.fma (p.neg (← p.get i k)) (← p.get j k) s
    p.set i j (← p.quo s l)
  return .done

/-- The norm of R159. -/
def FactPlan.norm (p : FactPlan) (xs : List Nat) : FM Nat := do
  let one := onePat p.fmt
  let mut scale := 0
  let mut ssq := one
  for x in xs do
    if !p.isZero x then
      let ax := p.mag x
      if !p.isNan ax && !p.isNan scale && decide (scale < ax) then
        let q ← p.quo scale ax
        ssq ← p.add one (← p.mul ssq (← p.mul q q))
        scale := ax
      else
        let q ← p.quo ax scale
        ssq ← p.add ssq (← p.mul q q)
  p.mul scale (← p.root ssq)

/-- Column j of `mfact.qr`. -/
def FactPlan.qr (p : FactPlan) (j : Nat) : FM FactCol := do
  let mut xs : List Nat := []
  for i in fromTo j p.n do
    xs := xs ++ [← p.get i j]
  let x0 := xs.headD 0
  let mut tau := 0
  if (xs.drop 1).any fun x => !p.isZero x then
    let nm ← p.norm xs
    let beta := if decide (2 ^ (p.fmt.w - 1) ≤ x0) && !p.isZero x0 then nm else p.neg nm
    tau ← p.quo (← p.sub beta x0) beta
    let den ← p.sub x0 beta
    for i in fromTo (j + 1) p.n do
      p.set i j (← p.quo (← p.get i j) den)
    p.set j j beta
    for c in fromTo (j + 1) p.n do
      let mut w ← p.get j c
      for i in fromTo (j + 1) p.n do
        w ← p.fma (← p.get i j) (← p.get i c) w
      w ← p.mul tau w
      p.set j c (← p.sub (← p.get j c) w)
      for i in fromTo (j + 1) p.n do
        p.set i c (← p.fma (p.neg (← p.get i j)) w (← p.get i c))
  modify fun r => { r with acc := cellPut r.acc p.wide p.tr (p.col0 + j) tau }
  return .done

/-- Rows in the order a solve takes them. -/
def FactPlan.rowOrder (p : FactPlan) : List Nat := if p.up then (List.range p.n).reverse else List.range p.n
/-- The first zero of the diagonal (R160). -/
def FactPlan.zeroDiag (p : FactPlan) (acc : Sparse 32) : Option Nat :=
  if p.unit then none else (List.range p.n).find? fun i => p.isZero (cellGet acc p.wide (p.row0 + i) (p.col0 + i))
/-- Right-hand side c of `mtrsm`. -/
def FactPlan.trsm (p : FactPlan) (c : Nat) : FM FactCol := do
  for i in p.rowOrder do
    let mut s ← p.getB i c
    for k in (if p.up then (fromTo (i + 1) p.n).reverse else List.range i) do
      s ← p.fma (p.neg (← p.get i k)) (← p.getB k c) s
    if !p.unit then
      s ← p.quo s (← p.get i i)
    p.setB i c s
  return .done

/-! The growth estimate (R156). -/

/-- Input cells of MAXA. -/
def FactPlan.inputs (p : FactPlan) (acc : Sparse 32) : List Nat :=
  let a (i j : Nat) : Nat := cellGet acc p.wide (p.row0 + i) (p.col0 + j)
  if p.kind = 4 then (List.range p.m).flatMap fun c => (List.range p.n).map fun i => cellGet acc p.wide (p.row0 + i) (p.colB + c)
  else if p.kind = 2 then (List.range p.n).flatMap fun i => (List.range (i + 1)).map fun j => a i j
  else (List.range p.n).flatMap fun i => (List.range p.n).map fun j => a i j
/-- Output cells finalised by column j. -/
def FactPlan.outputs (p : FactPlan) (acc : Sparse 32) (j : Nat) : List Nat :=
  let a (i k : Nat) : Nat := cellGet acc p.wide (p.row0 + i) (p.col0 + k)
  if p.kind = 4 then (List.range p.n).map fun i => cellGet acc p.wide (p.row0 + i) (p.colB + j)
  else if p.kind = 2 then (fromTo j p.n).map fun i => a i j
  else (fromTo j p.n).map fun k => a j k
/-- The largest magnitude of cells that are not NaN, rounded to FP32. -/
def FactPlan.maxOf (p : FactPlan) (rm : Rm) (l : List Nat) : Nat :=
  let mx := (l.filter fun x => !p.isNan x).foldl (fun m x => max m (p.mag x)) 0
  if p.wide then (convert .fp32 .fp64 rm mx).bits else mx

/-- gG and gG+1 (R156, Table 6.3). -/
def growth (d : MatStatus) : Word × Word :=
  (if d.nan then BitVec.ofNat 32 f32.nan else if d.maxa = 0 then BitVec.ofNat 32 (onePat f32)
   else BitVec.ofNat 32 (fpDiv f32 .ru d.maxu.toNat d.maxa.toNat).bits,
   BitVec.ofBool d.fail ++ BitVec.ofBool d.nan ++ (0 : BitVec 22) ++ d.fcol)

/-- A run begins at PROG 0: the status, MAXA, the identity in the pm register (R156, R161, R316). -/
def factBegin (p : FactPlan) (d : Side) : Side :=
  let ins := p.inputs d.acc
  { d with
    pm := match p.pm with
      | some r => d.pm.take (128 * r) ++ (List.range 128).map (BitVec.ofNat 7) ++ d.pm.drop (128 * r + 128)
      | none => d.pm
    mstat := { ops := p.ops, maxu := 0, maxa := BitVec.ofNat 32 (p.maxOf .rz ins), prog := 0, active := true,
               nan := ins.any p.isNan, fail := false, fcol := 0, kind := BitVec.ofNat 3 p.kind } }

/-- A failure recorded; the first one stays. -/
def MatStatus.failAt (d : MatStatus) (k : Nat) : MatStatus := if d.fail then d else { d with fail := true, fcol := BitVec.ofNat 8 k }

/-- What one column did to the side. -/
structure ColRun where
  side : Side
  fl : Flags5
  trap : Option Cause

/-- The column at PROG performed (R157 to R160), or the trap that leaves everything as it stood before the column. -/
def factColumn (p : FactPlan) (d : Side) : ColRun :=
  let j := d.mstat.prog
  let start : FRun := { acc := d.acc, fl := 0, nan := false }
  let diag := if p.kind = 4 && j == 0 then p.zeroDiag d.acc else none
  if diag.isSome && !p.flag then { side := d, fl := 0, trap := some .zeroPivot }
  else
    let ((col, r), x) : (FactCol × Nat) × FRun :=
      match p.kind with
      | 1 => p.lu j start
      | 2 => let y := p.chol j start; ((y.1, j), y.2)
      | 3 => let y := p.qr j start; ((y.1, j), y.2)
      | _ => let y := p.trsm j start; ((y.1, j), y.2)
    match col with
    | .trap c => { side := { d with mstat := { d.mstat with nan := d.mstat.nan || x.nan } }, fl := 0, trap := some c }
    | _ =>
      let outs := p.outputs x.acc j
      let ms := match diag with | some k => d.mstat.failAt k | none => d.mstat
      let ms := match col with | .failed k => ms.failAt k | _ => ms
      let mx := p.maxOf .ru outs
      let d := { d with acc := x.acc, mstat := { ms with nan := ms.nan || x.nan, prog := j + 1, maxu := if ms.maxu.toNat < mx then BitVec.ofNat 32 mx else ms.maxu } }
      { side := (if p.kind = 1 then (match p.pm with | some q => pmPut d q j r | none => d) else d), fl := x.fl, trap := none }

end Sys2Proof.Machine
end

