-- ==== Sys2Proof/Machine/Array.lean ====
section
/-! DEFINITION. Matrix operations as a block holds them (R143, R300 to R306): what each reads and writes, its checks, its memory
accesses, and its effect on tiles, cells and pm registers when it completes. -/

namespace Sys2Proof.Machine

/-! What an operation reads and writes: tile registers, rectangles of cells (row, rows, 32-bit column, columns), pm registers. -/

structure Foot where
  tr : List Nat := []
  tw : List Nat := []
  cr : List (Nat × Nat × Nat × Nat) := []
  cw : List (Nat × Nat × Nat × Nat) := []
  pr : List Nat := []
  pw : List Nat := []

def Grp.regs (g : Grp) : List Nat := (List.range g.span).map (g.k + ·)
def optRegs (g : Option Grp) : List Nat := match g with | some g => g.regs | none => []
def MmaPlan.foot (p : MmaPlan) : Foot :=
  { tr := p.ga.regs ++ p.gb.regs ++ optRegs p.gb2 ++ (match p.scale with | some t => [t, t + 1] | none => [])
      ++ (match p.sp with | some (md, _) => [md] | none => [])
    cr := [p.rg.rect p.ct], cw := [p.rg.rect p.ct] }
def FactPlan.foot (p : FactPlan) : Foot :=
  let ct : CellTy := if p.wide then .f64 else .f32
  let rs : List (Nat × Nat × Nat × Nat) :=
    [Region.rect { row0 := p.row0, nr := p.n, col0 := p.col0, nc := p.n } ct]
    ++ (if p.kind = 4 then [Region.rect { row0 := p.row0, nr := p.n, col0 := p.colB, nc := p.m } ct] else [])
    ++ (if p.kind = 3 then [Region.rect { row0 := p.tr, nr := 1, col0 := p.col0, nc := p.n } ct] else [])
  { cr := rs, cw := rs, pr := p.pm.toList, pw := p.pm.toList }

/-- The plan of an `mma` form; a sparse form with P = 0 is dense (R152, R313). -/
def mmaOf (i : Instr) (vals : List Word) (tc : Sparse 32) (tiles rows : Nat) : Option MmaPlan :=
  match i with
  | .mma _ x | .mmaSp _ x => mmaPlan tc tiles rows x false (vals.getD 0 0)
  | .mmaSpt _ x => mmaPlan tc tiles rows x true (vals.getD 0 0)
  | _ => none
/-- The 64-bit value that begins a list of operand words. -/
def valPair (vals : List Word) : DWord := vals.getD 1 0 ++ vals.getD 0 0

/-- What an operation reads and writes. `pm.apply` may move any row of the block over its columns. -/
def matFoot (i : Instr) (vals : List Word) (tc : Sparse 32) (tiles rows : Nat) : Foot :=
  let grp (k : Reg4) : List Nat := optRegs (grpOf tc tiles k.toNat)
  let rg (k : Nat) (ct : CellTy) : List (Nat × Nat × Nat × Nat) := [(regionOf (vals.getD k 0)).rect ct]
  let cols (ct : CellTy) : List (Nat × Nat × Nat × Nat) := (rg 0 ct).map fun r => (0, rows, r.2.2.1, r.2.2.2)
  match i with
  | .tld _ _ d _ _ => { tw := grp d }
  | .tst _ _ d _ _ => { tr := grp d }
  | .tmov _ _ _ _ d a => { tr := grp a, tw := grp d }
  | .tzero _ _ d n => { tw := (List.range (2 ^ n.toNat)).map (d.toNat + ·) }
  | .mma .. | .mmaSp .. | .mmaSpt .. => match mmaOf i vals tc tiles rows with | some p => p.foot | none => {}
  | .mfactLu .. | .mfactChol .. | .mfactQr .. | .mtrsm .. => match factPlan i (valPair vals) with | some p => p.foot | none => {}
  | .accLdTile _ _ ct d _ => { tr := grp d, cw := rg 0 ct }
  | .accLdMem _ _ ct _ _ _ _ => { cw := rg 2 ct }
  | .accStTile _ _ ct d _ => { cr := rg 0 ct, tw := grp d }
  | .accStMem _ _ ct _ _ _ _ => { cr := rg 2 ct }
  | .accSnap _ _ ct _ a _ => { cr := rg 0 ct, tw := grp a }
  | .accZero _ _ ct _ => { cw := rg 0 ct }
  | .pmLd _ _ d _ => { pw := [d.toNat] }
  | .pmSt _ _ d _ => { pr := [d.toNat] }
  | .pmApply _ _ ct d _ | .pmApplyInv _ _ ct d _ => { pr := [d.toNat], cr := cols ct, cw := cols ct }
  | _ => {}
def isSnap : Instr → Bool
  | .accSnap .. => true
  | _ => false
def isFact : Instr → Bool
  | .mfactLu .. | .mfactChol .. | .mfactQr .. | .mtrsm .. => true
  | _ => false

def listMeets (a b : List Nat) : Bool := a.any b.contains
def rectMeets (a b : Nat × Nat × Nat × Nat) : Bool :=
  decide (a.1 < b.1 + b.2.1 ∧ b.1 < a.1 + a.2.1 ∧ a.2.2.1 < b.2.2.1 + b.2.2.2 ∧ b.2.2.1 < a.2.2.1 + a.2.2.2)
def rectsMeet (a b : List (Nat × Nat × Nat × Nat)) : Bool := a.any fun x => b.any (rectMeets x)

/-- Whether a later operation must wait for an owner (R143), but for the cells that an `acc.snap` copies. -/
def Foot.blocks (own later : Foot) (snap : Bool) : Bool :=
  listMeets own.tw later.tr || listMeets own.tw later.tw || listMeets own.tr later.tw
  || listMeets own.pw later.pr || listMeets own.pw later.pw || listMeets own.pr later.pw
  || (!snap && rectsMeet own.cw later.cr) || rectsMeet own.cw later.cw || rectsMeet own.cr later.cw

/-- The footprint of an operation of a side. -/
def MatOp.foot (o : MatOp) (h : Shape) : Foot := matFoot o.ins o.vals o.tc h.tiles h.accrows

/-- Rows of accumulator cells. -/
def Shape.rows (h : Shape) : Nat := h.accrows

/-- The plan recorded in the matrix status (Table 6.4, R315). -/
def MatStatus.plan (m : MatStatus) : FactPlan :=
  let w := m.ops.toNat
  let md := bitsN w 63 56
  { kind := m.kind.toNat, wide := bitsN md 0 0 == 1, flag := bitsN md 1 1 == 1, up := bitsN md 4 4 == 1, unit := bitsN md 5 5 == 1,
    row0 := bitsN w 6 0, n := bitsN w 23 17 + 1, col0 := bitsN w 16 7, tr := bitsN w 30 24, colB := bitsN w 41 32, m := bitsN w 51 42 + 1,
    pm := if m.kind = 4 then none else some (bitsN md 3 2), ops := m.ops }
/-- A factorisation that was interrupted or stopped at a trap still owns its cells (R316). -/
def Side.stalledFact (d : Side) : Option Foot :=
  if d.mstat.active && !(d.ops.any fun o => isFact o.ins) then some d.mstat.plan.foot else none
/-- In-flight operations that write cells a snap copies, oldest first. -/
def Side.writers (d : Side) (h : Shape) (id : Nat) (cells : List (Nat × Nat × Nat × Nat)) : List MatOp :=
  (d.ops.filter fun o => decide (o.id < id)).filter fun o => rectsMeet (o.foot h).cw cells

/-- A factorisation that has stopped before its end, older than every pending operation, writes some of the cells. -/
def Side.stalledWrites (d : Side) (cells : List (Nat × Nat × Nat × Nat)) : Bool :=
  match d.stalledFact with | some g => rectsMeet g.cw cells | none => false

/-- Whether an operation may begin: no earlier operation and no stalled factorisation owns what it needs; a snap waits for every
writer of its region but the youngest (R143, R144). -/
def Side.mayBegin (d : Side) (h : Shape) (o : MatOp) : Bool :=
  let f := o.foot h
  let snap := isSnap o.ins
  (d.ops.all fun x => decide (o.id ≤ x.id) || !(x.foot h).blocks f snap)
  && (match d.stalledFact with | some g => isFact o.ins || !g.blocks f snap | none => true)
  && (!snap || decide ((d.writers h o.id f.cr).length + (if d.stalledWrites f.cr then 1 else 0) ≤ 1))

/-! Checks at the fire (step 3 of R300). -/

def okOr (b : Bool) (c : Cause) : Option Cause := if b then none else some c
/-- The instruction's own checks. -/
def matCheck (d : Side) (h : Shape) (i : Instr) (vals : List Word) : Option Cause :=
  let grp (k : Reg4) : Option Grp := grpOf d.tc h.tiles k.toNat
  let rg (k : Nat) : Region := regionOf (vals.getD k 0)
  match i with
  | .tld _ _ k _ _ | .tst _ _ k _ _ =>
    match grp k with
    | none => some .illegalOp
    | some g => okOr (g.cols * g.w % 8 == 0) .illegalOp
  | .tmov _ _ t _ k a =>
    match grp k, grp a with
    | some gd, some ga => okOr (tmovOk gd ga t) .illegalOp
    | _, _ => some .illegalOp
  | .tzero _ _ k n => okOr (k.toNat % 2 ^ n.toNat == 0 && decide (k.toNat + 2 ^ n.toNat ≤ h.tiles)) .illegalOp
  | .mma .. | .mmaSp .. | .mmaSpt .. =>
    match mmaOf i vals d.tc h.tiles h.rows with
    | none => some .illegalOp
    | some p => okOr (spOk d.tiles p) .sparseMeta
  | .mfactLu .. | .mfactChol .. | .mfactQr .. | .mtrsm .. =>
    match factPlan i (valPair vals) with
    | none => some .illegalOp
    | some p =>
      okOr (p.ok (valPair vals) h.rows && !(d.ops.any fun o => isFact o.ins)
        && (!d.mstat.active || (d.mstat.kind.toNat == p.kind && d.mstat.ops == p.ops))) .illegalOp
  | .accLdTile _ _ ct k _ =>
    match grp k with
    | none => some .illegalOp
    | some g => okOr ((rg 0).ok h.rows ct && shapeOk g (rg 0) && ldOk ct g.fmt) .illegalOp
  | .accStTile _ _ ct k _ =>
    match grp k with
    | none => some .illegalOp
    | some g => okOr ((rg 0).ok h.rows ct && shapeOk g (rg 0) && stOk ct g.fmt) .illegalOp
  | .accLdMem _ _ ct f _ _ _ => okOr ((rg 2).ok h.rows ct && ldOk ct f && (rg 2).nc * fbits f % 8 == 0) .illegalOp
  | .accStMem _ _ ct f _ _ _ => okOr ((rg 2).ok h.rows ct && stOk ct f && (rg 2).nc * fbits f % 8 == 0) .illegalOp
  | .accSnap _ _ ct _ a _ =>
    match grp a with
    | none => some .illegalOp
    | some g => okOr ((rg 0).ok h.rows ct && snapOk g (rg 0) ct) .illegalOp
  | .accZero _ _ ct _ => okOr ((rg 0).ok h.rows ct) .illegalOp
  | .pmApply _ _ ct p _ | .pmApplyInv _ _ ct p _ => okOr ((rg 0).ok h.rows ct && pmApplyOk d p.toNat (rg 0) h.rows) .illegalOp
  | _ => none
/-- What the checks read beyond the operands: the metadata tile of a sparse form, the pm register of `pm.apply`. -/
def checkReads (d : Side) (h : Shape) (i : Instr) (vals : List Word) : Foot :=
  match i with
  | .mma .. | .mmaSp .. | .mmaSpt .. =>
    match mmaOf i vals d.tc h.tiles h.rows with
    | some p => { tr := match p.sp with | some (md, _) => [md] | none => [] }
    | none => {}
  | .pmApply _ _ _ p _ | .pmApplyInv _ _ _ p _ => { pr := [p.toNat] }
  | _ => {}
/-- The checks wait while an operation in flight, or a factorisation that has stopped before its end, writes what they read. -/
def checkWaits (d : Side) (h : Shape) (i : Instr) (vals : List Word) : Bool :=
  let f := checkReads d h i vals
  (d.ops.any fun o => listMeets (o.foot h).tw f.tr || listMeets (o.foot h).pw f.pr)
  || (match d.stalledFact with | some g => listMeets g.pw f.pr | none => false)

/-! Memory (step 4 of R300, R305). -/

/-- The rows an operation reaches in memory: whether it writes them, and each row's address and length. -/
structure MemPlan where
  write : Bool
  va : DWord
  stride : Word
  rows : List (DWord × Nat)
def memRows (write : Bool) (vals : List Word) (stride : Word) (n len : Nat) : MemPlan :=
  { write := write, va := valPair vals, stride := stride,
    rows := (List.range n).map fun r => (valPair vals + BitVec.ofNat 64 (r * stride.toNat), len) }
def memPlan (tc : Sparse 32) (tiles : Nat) (i : Instr) (vals : List Word) : Option MemPlan :=
  let ofGrp (w : Bool) (k : Reg4) : Option MemPlan :=
    (grpOf tc tiles k.toNat).map fun g => memRows w vals (vals.getD 2 0) g.rows (rowBytes g.cols g.w)
  let ofRg (w : Bool) (f : Fmt) : MemPlan :=
    let r := regionOf (vals.getD 2 0)
    memRows w vals (vals.getD 3 0) r.nr (rowBytes r.nc (fbits f))
  match i with
  | .tld _ _ k _ _ => ofGrp false k
  | .tst _ _ k _ _ => ofGrp true k
  | .accLdMem _ _ _ f _ _ _ => some (ofRg false f)
  | .accStMem _ _ _ f _ _ _ => some (ofRg true f)
  | .pmLd .. => some (memRows false vals 0 1 128)
  | .pmSt .. => some (memRows true vals 0 1 128)
  | _ => none

/-- A byte of a row; `view`: reached through a view, so that it is read at its home (R105, R107). -/
structure MByte where
  loc : Loc
  key : BitVec 9
  tag : BitVec 12
  denied : Bool
  view : Bool
deriving DecidableEq, Repr, Inhabited
/-- What checking the bytes of an operation answers: the denials met, and the first fault with its address or the bytes. -/
abbrev MemAns := List Denial × Except (Cause × DWord) (List MByte)

/-- The view slots that the rows name, with their descriptors as they stand (R115). -/
def State.matSlots (s : State) (id : ThreadId) (p : MemPlan) : List (Nat × Option Nat) :=
  ((((p.rows.flatMap fun r => [r.1, r.1 + BitVec.ofNat 64 (r.2 - 1)]).filter isView).map viewSlotOf).eraseDups).map fun k =>
    (k, (s.block? id.blk).bind fun b => s.viewDesc b.part k)
/-- The captured descriptor of the slot that an address names. -/
def slotDesc (l : List (Nat × Option Nat)) (va : DWord) : Option Nat := (l.find? fun x => x.1 == viewSlotOf va).bind (·.2)

/-- A chunk of at most 16 bytes, which never leaves its page; through a view each byte is checked on its own. -/
def State.matChunk (s : State) (ds : List (Nat × Option Nat)) (id : ThreadId) (row va : DWord) (n : Nat) (k : AKind) : State × MemAns :=
  if isView va then
    (List.range n).foldl (fun (acc : State × MemAns) i =>
      match acc.2.2 with
      | .error _ => acc
      | .ok bs =>
        let a := va + BitVec.ofNat 64 i
        let r := acc.1.viewThrough (slotDesc ds a) id a 1 k false
        (r.1, acc.2.1 ++ r.2.1.map (fun e => { e with va := (e.addr row).toNat }),
          match r.2.2 with
          | .error c => .error (c, a)
          | .ok vs => .ok (bs ++ vs.map fun v => { loc := .mem v.pa, key := v.key, tag := 0, denied := v.denied, view := true })))
      (s, [], .ok [])
  else
    match s.access id va 1 k with
    | (s, .error c) => (s, [], .error (c, va))
    | (s, .ok a) =>
      let a := if k == .read then s.servedTo id false a else a
      (s, (if a.denied then [{ va := row.toNat, page := a.page, tag := a.tag, src := 0 }] else []),
        .ok ((List.range n).map fun i =>
          { loc := (match a.loc with | .mem pa => .mem (pa + i) | .scr b o => .scr b (o + i)), key := a.key, tag := a.tag, denied := a.denied, view := false }))
/-- The chunks of a row. -/
def rowChunks (va : DWord) (len : Nat) : List (DWord × Nat) :=
  (List.range ((len + 15) / 16)).map fun j => (va + BitVec.ofNat 64 (16 * j), min 16 (len - 16 * j))
/-- Every byte of the rows translated and checked in order, made as the lowest-numbered signer (notes/assumptions/12.md). -/
def State.matBytes (s : State) (ds : List (Nat × Option Nat)) (id : ThreadId) (p : MemPlan) : State × MemAns :=
  if p.va.toNat % 16 != 0 || p.stride.toNat % 16 != 0 then (s, [], .error (.align, p.va))
  else
    (p.rows.flatMap fun r => (rowChunks r.1 r.2).map fun c => (r.1, c)).foldl (fun (acc : State × MemAns) c =>
      match acc.2.2 with
      | .error _ => acc
      | .ok bs =>
        let r := acc.1.matChunk ds id c.1 c.2.1 c.2.2 (if p.write then .write else .read)
        (r.1, acc.2.1 ++ r.2.1, r.2.2.map fun b => bs ++ b)) (s, [], .ok [])
/-- One event record for each page of an operation's denied reads (R95, R309). -/
def State.reportMat (s : State) (id : ThreadId) (pc : Word) (ds : List Denial) : State :=
  (ds.foldl (fun (acc : State × List Nat) d =>
    if acc.2.contains d.page then acc
    else (acc.1.reportDenied id (BitVec.ofNat 64 d.va) pc d.tag d.src, acc.2 ++ [d.page])) (s, [])).1

/-- The index bytes of an operation's rows through views that cannot be read yet (R108). -/
def State.matIdx (s : State) (ds : List (Nat × Option Nat)) (id : ThreadId) (p : MemPlan) : List (Nat × BitVec 9) :=
  match s.block? id.blk with
  | none => []
  | some b =>
    p.rows.flatMap fun r => (List.range r.2).flatMap fun i =>
      let a := r.1 + BitVec.ofNat 64 i
      if isView a then
        match viewCheck (slotDesc ds a) a 1 false with
        | .ok (d, ps) => (s.idxPlaces (b.asker id) d ps).filter (s.idxWaits (b.asker id))
        | .error _ => []
      else []
def State.matIdxAsk (s : State) (id : ThreadId) (xs : List (Nat × BitVec 9)) : State :=
  match s.block? id.blk with
  | some b => s.idxAsk (b.asker id) xs
  | none => s

/-- Bytes cut into the rows of a plan. -/
def cutRows : List Nat → List Byte → List (List Byte)
  | [], _ => []
  | n :: ns, bs => bs.take n :: cutRows ns (bs.drop n)
def MemPlan.cut (p : MemPlan) (bs : List Byte) : List (List Byte) := cutRows (p.rows.map (·.2)) bs
/-- The address of every byte of the rows. -/
def MemPlan.addrs (p : MemPlan) : List DWord := p.rows.flatMap fun r => (List.range r.2).map fun i => r.1 + BitVec.ofNat 64 i

/-- A byte as the array reads it: what the signers' block has not released yet, else at L2, or at its home through a view. -/
def State.arrayByte (s : State) (id : ThreadId) (b : MByte) : Byte :=
  if b.denied then 0
  else match b.loc with
    | .mem pa => (s.ownByte id pa).getD (if b.view then s.homeByte pa b.key else s.l2Byte (s.coreOf id) pa b.key)
    | .scr k o => s.scrByte id k o
/-- A dirty byte of a core stands at an address. -/
def State.dirtyAt (s : State) (core pa : Nat) : Bool := s.l1.any fun x => x.core == core && x.pa == pa && !x.dirty.isEmpty
/-- Whether a byte cannot be read yet: the core's write of it has not gone home, the L2 cannot bring it (R72, R83, R88), or it lies in
another block's scratchpad that is in transition (R59). -/
def State.byteWaits (s : State) (id : ThreadId) (b : MByte) : Bool :=
  match b.loc with
  | .mem pa => !b.denied && (s.dirtyAt (s.coreOf id) pa || s.l2Waits (s.coreOf id) pa b.key || (b.view && s.homeBusy pa 1))
  | .scr k _ => k != id.blk && s.scrHeld (some b.loc)
/-- The steps that must happen before bytes can be read are asked for. -/
def State.askBytes (s : State) (id : ThreadId) (bs : List MByte) : State :=
  let core := s.coreOf id
  let pas := bs.filterMap fun b => match b.loc with | .mem pa => if b.denied then none else some (pa, b.key, b.view) | .scr .. => none
  let s := s.flush core fun x => pas.any fun p => p.1 == x.pa
  pas.foldl (fun s p => if p.2.2 then s.homeAsk p.1 1 else s.l2Ask core p.1 p.2.1) s
/-- Once bytes have been read past the cache, the core keeps no older copy of them (R71). -/
def State.forgetBytes (s : State) (id : ThreadId) (bs : List MByte) : State :=
  let of (v : Bool) : List Nat := bs.filterMap fun b => match b.loc with | .mem pa => if b.denied || b.view != v then none else some pa | .scr .. => none
  (s.forget (s.coreOf id) false (of false)).forget (s.coreOf id) true (of true)
/-- Whether a byte is poisoned; a denied byte reads as a zero that is not (R417). -/
def State.bytePoison (s : State) (b : MByte) : Bool :=
  !b.denied && (match b.loc with
    | .mem pa => s.isPoison pa
    | .scr k o => match s.block? k with | some x => x.lead.poison.contains (scrPoison o) | none => false)

/-! Effects. -/

/-- Whether what an operation reads of tiles and cells is poisoned (R193). -/
def Side.footPoison (d : Side) (f : Foot) : Bool :=
  d.poison.any fun a =>
    if a < 2 ^ 24 then f.tr.contains (a / 16384)
    else if a < 2 ^ 25 then f.cr.any fun r => rectMeets r ((a - 2 ^ 24) / 1024, 1, (a - 2 ^ 24) % 1024, 1)
    else false
/-- What is written is poisoned no longer. -/
def Side.cure (d : Side) (f : Foot) : Side :=
  { d with poison := d.poison.filter fun a =>
      !(if a < 2 ^ 24 then f.tw.contains (a / 16384)
        else if a < 2 ^ 25 then f.cw.any fun r => rectMeets r ((a - 2 ^ 24) / 1024, 1, (a - 2 ^ 24) % 1024, 1)
        else false) }
/-- Cells of a region with the poison of the bytes of a row image, elements of w bits. -/
def poisonCells (rg : Region) (ct : CellTy) (w : Nat) (bad : List (List Bool)) : List Nat :=
  (rg.cells.filter fun c => (List.range ((w + 14) / 8)).any fun j => decide (c.2 * w / 8 + j ≤ (c.2 * w + w - 1) / 8) && (bad.getD c.1 []).getD (c.2 * w / 8 + j) false).flatMap
    fun c => if ctWide ct then [cellPoison (1024 * (rg.row0 + c.1) + 2 * (rg.col0 + c.2)), cellPoison (1024 * (rg.row0 + c.1) + 2 * (rg.col0 + c.2) + 1)]
             else [cellPoison (1024 * (rg.row0 + c.1) + rg.col0 + c.2)]

/-- The effect of an operation on its side, given the rows it read and which of their bytes are poisoned. -/
def matEffect (d : Side) (h : Shape) (o : MatOp) (rows : List (List Byte)) (bad : List (List Bool)) : Side × Flags5 :=
  let grp (k : Reg4) : Grp := (grpOf o.tc h.tiles k.toNat).getD default
  let rg (k : Nat) : Region := regionOf (o.vals.getD k 0)
  let d0 := d.cure (o.foot h)
  match o.ins with
  | .tld _ _ k _ _ =>
    let g := grp k
    let n := rowBytes g.cols g.w
    let marks := (List.range g.rows).flatMap fun r => ((List.range n).filter fun j => (bad.getD r []).getD j false).map fun j => 16384 * g.k + r * n + j
    ({ d0 with tiles := g.putRows d.tiles rows, poison := d0.poison ++ marks }, 0)
  | .tmov _ _ t rm k a => tmovSide d0 (grp k) (grp a) t rm
  | .tzero _ _ k n => (tzeroSide d0 k.toNat (2 ^ n.toNat), 0)
  | .mma .. | .mmaSp .. | .mmaSpt .. =>
    match mmaOf o.ins o.vals o.tc h.tiles h.rows with
    | some p => mmaRun d p p.steps
    | none => (d, 0)
  | .accLdTile _ _ ct k _ => accLdSide d0 (grp k) (rg 0) ct
  | .accLdMem _ _ ct f _ _ _ =>
    let r := regionFill d0 (rg 2) ct f rows
    ({ r.1 with poison := r.1.poison ++ poisonCells (rg 2) ct (fbits f) bad }, r.2)
  | .accStTile _ _ ct k _ => accStSide d0 (grp k) (rg 0) ct
  | .accStMem _ _ ct f _ _ _ => (d, (regionImages d (rg 2) ct f).2)
  | .accZero _ _ ct _ => (accZeroSide d0 (rg 0) ct, 0)
  | .pmLd _ _ p _ =>
    let bs := rows.headD []
    ({ d with pm := d.pm.take (128 * p.toNat) ++ (List.range 128).map (fun i => ((bs.getD i 0).extractLsb' 0 7)) ++ d.pm.drop (128 * p.toNat + 128) }, 0)
  | .pmApply _ _ ct p _ => (pmApplySide d p.toNat (rg 0) ct false, 0)
  | .pmApplyInv _ _ ct p _ => (pmApplySide d p.toNat (rg 0) ct true, 0)
  | _ => (d, 0)
/-- The row images a storing operation writes. -/
def matImages (d : Side) (h : Shape) (o : MatOp) : List (List Byte) :=
  match o.ins with
  | .tst _ _ k _ _ => match grpOf o.tc h.tiles k.toNat with | some g => g.images d.tiles | none => []
  | .accStMem _ _ ct f _ _ _ => (regionImages d (regionOf (o.vals.getD 2 0)) ct f).1
  | .pmSt _ _ p _ => [(List.range 128).map fun i => BitVec.ofNat 8 (pmGet d p.toNat i)]
  | _ => []

/-- The copy of a snap: the cells after the steps its youngest writer has completed, and the count (R144). `k`: a free choice. -/
def snapCells (d : Side) (h : Shape) (o : MatOp) (k : Nat) : Sparse 32 × Word × Option (Nat × Nat) :=
  match (d.writers h o.id (o.foot h).cr).getLast? with
  | none => (d.acc, if d.stalledWrites (o.foot h).cr then BitVec.ofNat 32 d.mstat.prog else 0xffffffff, none)
  | some y =>
    if isFact y.ins then (d.acc, BitVec.ofNat 32 (if y.running then d.mstat.prog else 0), none)
    else
      match mmaOf y.ins y.vals y.tc h.tiles h.rows with
      | some p =>
        if y.running then
          let n := y.prog + k % (p.steps + 1 - y.prog)
          ((mmaRun d p n).1.acc, BitVec.ofNat 32 n, some (y.id, n))
        else (d.acc, 0, none)
      | none => (d.acc, 0, none)

end Sys2Proof.Machine
end

