-- ==== Sys2Proof/Machine/Hitch.lean ====
section
/-! DEFINITION. Hitch registers (R26 to R28, Table 1.1), the collectives that act on values (R292 to R294), and the signing and
firing of matrix collectives (R300 to R302, R307 to R320). -/

namespace Sys2Proof.Machine

/-! Hitches of a side. -/

def Side.hi (d : Side) (h : Reg4) : Hitch := d.hitch.getD h.toNat Hitch.reset
def State.modHitch (s : State) (blk : Nat) (wheel : Bool) (h : Reg4) (f : Hitch → Hitch) : State :=
  s.modSide blk wheel fun d => { d with hitch := d.hitch.set h.toNat (f (d.hi h)) }
def State.hitchOf (s : State) (blk : Nat) (wheel : Bool) (h : Reg4) : Hitch :=
  match s.side? blk wheel with
  | some d => d.hi h
  | none => Hitch.reset
/-- Non-exited threads of a side whose team a mask holds. -/
def State.eligible (s : State) (blk : Nat) (wheel : Bool) (m : BitVec 8) : List ThreadId :=
  ((s.blockThreads blk).filter fun t => t.id.wheel == wheel && m.getLsbD (teamIdx t.id) && t.status != .exited).map (·.id)

/-- A word without its guard field (R27). -/
def bareWords (i : Instr) : List Word :=
  match encode i with
  | w :: ws => (w &&& 0xfffffff8) :: ws
  | [] => []
/-- Whether a signature is one of a matrix collective (R300). -/
def isMat : Instr → Bool
  | .tld .. | .tst .. | .tmov .. | .tzero .. | .mma .. | .mmaSp .. | .mmaSpt .. | .mfactLu .. | .mfactChol .. | .mfactQr .. | .mtrsm ..
  | .accLdTile .. | .accLdMem .. | .accStTile .. | .accStMem .. | .accSnap .. | .accZero .. | .pmLd .. | .pmSt .. | .pmApply ..
  | .pmApplyInv .. => true
  | _ => false
/-- The g-registers a collective writes in each signer. -/
def collDests : Instr → List GReg
  | .pcount _ _ d _ | .prank _ _ d _ | .pbits _ _ d _ _ | .cycle _ _ d _ _ | .xrank _ _ d _ _ | .foldAdd _ _ d _ | .scanAdd _ _ d _
  | .foldMinI _ _ d _ | .foldMaxI _ _ d _ | .accSnap _ _ _ d _ _ => [d]
  | .mfactLu _ x | .mfactChol _ x | .mfactQr _ x => [x.d, x.d + 1]
  | .mtrsm _ x => [x.d, x.d + 1]
  | _ => []

/-- A signer no longer waits for a collective's result: TL lowered, holds dropped. -/
def Thread.unsign (i : Instr) (t : Thread) : Thread :=
  (if isMat i then { t with tl := t.tl - 1 } else t).dropHold (collDests i)
/-- Signers trap at their words (R27, R300). -/
def State.trapSigns (s : State) (l : List Sign) (cause : Cause) (addr : DWord) : State :=
  l.foldl (fun s x =>
    let s := s.modThread x.th (Thread.unsign x.ins)
    match s.thread? x.th with
    | some t => s.raise x.th t.pc cause addr 0 true
    | none => s) s

/-- A hitch that can no longer reach its count traps its waiting signers (Table 1.1). -/
def State.unsignable (s : State) (blk : Nat) (wheel : Bool) (h : Reg4) : State :=
  let x := s.hitchOf blk wheel h
  let left := (s.eligible blk wheel x.m).filter fun id => !(x.signed.any fun g => g.th == id)
  if x.st == .armed && !x.signed.isEmpty && decide (left.length < x.c - x.signed.length) then
    (s.modHitch blk wheel h fun x => { x with signed := [] }).trapSigns x.signed .hitchMisuse 0
  else s
/-- The check of every hitch of a side, after an exit. -/
def State.unsignableAll (s : State) (blk : Nat) (wheel : Bool) : State :=
  (List.range 16).foldl (fun s k => s.unsignable blk wheel (BitVec.ofNat 4 k)) s

/-! Collectives on values (R294). -/

/-- Signatures in order of rank (R292). -/
def insSign (x : Sign) : List Sign → List Sign
  | [] => [x]
  | y :: l => if x.th.tid ≤ y.th.tid then x :: y :: l else y :: insSign x l
def ranked (l : List Sign) : List Sign := l.foldl (fun acc x => insSign x acc) []

def Sign.a (x : Sign) : Word := x.vals.getD 0 0
def Sign.b (x : Sign) : Word := x.vals.getD 1 0
def Sign.pa (x : Sign) : Bool := x.preds.getD 0 false

/-- What the signer of rank k of a fire receives. -/
def collOut (i : Instr) (set : List Sign) (k : Nat) : Outs :=
  let n := set.length
  let me := set.getD k { th := { blk := 0, wheel := false, tid := 0 }, ins := i, vals := [], preds := [] }
  let sum (l : List Sign) : Word := l.foldl (fun v x => v + x.a) 0
  match i with
  | .pfoldAnd _ _ d _ => outP d (set.all (·.pa))
  | .pfoldOr _ _ d _ => outP d (set.any (·.pa))
  | .pcount _ _ d _ => out1 d (BitVec.ofNat 32 (set.filter (·.pa)).length)
  | .prank _ _ d _ => out1 d (BitVec.ofNat 32 ((set.take k).filter (·.pa)).length)
  | .agree _ _ d _ => outP d (set.all fun x => x.a == me.a)
  | .pbits _ _ d _ w =>
    out1 d (BitVec.ofNat 32 (sumL ((List.range 32).map fun j =>
      match set[32 * w.toNat + j]? with | some x => if x.pa then 2 ^ j else 0 | none => 0)))
  | .cycle _ _ d _ _ => out1 d ((set[(k + ((set.head?.map Sign.b).getD 0).toNat) % n]?.map Sign.a).getD 0)
  | .xrank _ _ d _ _ => out1 d (match set[me.b.toNat]? with | some x => x.a | none => me.a)
  | .foldAdd _ _ d _ => out1 d (sum set)
  | .scanAdd _ _ d _ => out1 d (sum (set.take (k + 1)))
  | .foldMinI _ _ d _ => out1 d (set.foldl (fun v x => minS v x.a) me.a)
  | .foldMaxI _ _ d _ => out1 d (set.foldl (fun v x => maxS v x.a) me.a)
  | _ => {}
/-- Every signer's destination written. -/
def State.collWrite (s : State) (i : Instr) (set : List Sign) : State :=
  (List.range set.length).foldl (fun s k =>
    match set[k]? with
    | some x =>
      let r := s.injected x.th (s.objOf x.th) (match s.thread? x.th with | some t => t.pc | none => 0) (collOut i set k)
      r.2.modThread x.th fun t => (t.put r.1).unsign i
    | none => s) s

/-! Matrix operations: beginning, and what a fire records. -/

/-- The lowest-numbered signer. -/
def lowSigner (ids : List ThreadId) : ThreadId :=
  match ids with
  | [] => { blk := 0, wheel := false, tid := 0 }
  | x :: l => l.foldl (fun a b => if b.tid < a.tid then b else a) x

/-- An operation whose owners have completed begins (R143). A factorisation that begins at PROG 0 sets up its status (R316). -/
def State.matBegin (s : State) (blk : Nat) (wheel : Bool) (id : Nat) : State :=
  match s.block? blk with
  | none => s
  | some b =>
    let d := b.side wheel
    match d.ops.find? (fun o => o.id == id && !o.running) with
    | none => s
    | some o =>
      if !b.resident || (id != 0 && !d.mayBegin b.shape o) then s
      else
        let run (x : MatOp) : MatOp := if x.id == id then { x with running := true } else x
        let s := s.modSide blk wheel fun d =>
          let d := { d with ops := d.ops.map run }
          match if isFact o.ins && !d.mstat.active then factPlan o.ins (valPair o.vals) else none with
          | some p => factBegin p d
          | none => d
        s.push (if isFact o.ins then .factorisationColumn blk wheel else .matrixOpComplete blk wheel id)
/-- A fire's operation recorded, running or pending. A resumed factorisation keeps its place before every pending operation. -/
def State.matRecord (s : State) (blk : Nat) (wheel : Bool) (i : Instr) (vals : List Word) (ids : List ThreadId) (pc : Word)
    (slots : List (Nat × Option Nat)) (stores : Nat) : State :=
  match s.side? blk wheel with
  | none => s
  | some d =>
    let n := if isFact i && d.mstat.active then 0 else s.nextId
    let o : MatOp := { id := n, ins := i, vals := vals, signers := ids, tc := d.tc, running := false, pc := pc, prog := 0, desc := slots, stores := stores, cells := [] }
    ((s.bump).modSide blk wheel fun d => { d with ops := if n = 0 then o :: d.ops else d.ops ++ [o] }).matBegin blk wheel n

/-- How a wheelers' fire of a collective that reaches memory stands to its leaders' (R200, R304): it waits for that, takes the trap the
leaders meet there, or goes on. -/
inductive LeadFire where
  | wait
  | trap (cause : Cause) (addr : DWord)
  | go
def State.leadFire (s : State) (low : ThreadId) : LeadFire :=
  match s.thread? low, s.thread? { low with wheel := false } with
  | some t, some l =>
    if t.done < l.done then .go
    else match l.status with
      | .waiting (.signature (some x)) => if l.pc == t.pc then .trap x.cause x.addr else .wait
      | _ => .wait
  | _, _ => .wait

/-- The fire of a matrix collective (R300): the vote, the checks, memory; then the operation. Only the leaders' fire of a redundant
block reaches memory (R304). In a contained block the bytes it stores must find room (R197). -/
def State.fireMat (s : State) (blk : Nat) (wheel : Bool) (h : Reg4) (l : List Sign) (i : Instr) : State :=
  let fail (s : State) (cause : Cause) (addr : DWord) : State := (s.trapSigns l cause addr).push (.hitchFireComplete blk wheel h)
  let later (s : State) (room : Bool) : State := s.modHitch blk wheel h fun x => { x with late := true, room := room }
  let vals := (l.head?.map (·.vals)).getD []
  let low := lowSigner (l.map (·.th))
  let pc := (match s.thread? low with | some t => t.pc | none => 0)
  let record (s : State) (slots : List (Nat × Option Nat)) (stores : Nat) : State :=
    let s := s.matRecord blk wheel i vals (l.map (·.th)) pc slots stores
    if isFact i then s else s.push (.hitchFireComplete blk wheel h)
  match s.block? blk with
  | none => s
  | some b =>
    let d := b.side wheel
    if l.any fun x => x.vals != vals then fail s .formatDivergence 0
    else if checkWaits d b.shape i vals then later s false
    else
      match matCheck d b.shape i vals with
      | some c => fail s c 0
      | none =>
        match memPlan d.tc b.shape.tiles i vals with
        | none => record s [] 0
        | some p =>
          if wheel then
            match s.leadFire low with
            | .wait => later s false
            | .trap c a => fail s c a
            | .go => record s [] 0
          else
            let slots := s.matSlots low p
            let idx := s.matIdx slots low p
            if !idx.isEmpty then (later (s.matIdxAsk low idx) false).push (.hitchFireComplete blk wheel h)
            else
              match s.matBytes slots low p with
              | (s', ds, .error (c, a)) => fail (s'.reportMat low pc ds) c a
              | (s', _, .ok bs) =>
                let n := if p.write && s.isCont blk then (bs.filter fun x => !ownScr low x.loc).length else 0
                if n != 0 && s.sbufFull blk n then
                  ((later s true).modBlock blk fun b => { b with quiesce := true }).push (.commitStoreRelease blk)
                else record s' slots n

/-- A HITCH FIRES (R27): the words are compared, and the one collective is performed for all signers. -/
def State.fire (s : State) (blk : Nat) (wheel : Bool) (h : Reg4) : State :=
  let l := ranked (s.hitchOf blk wheel h).signed
  match l with
  | [] => s
  | x :: _ =>
    let s := s.modHitch blk wheel h fun x => { x with st := .firing, late := false, room := false }
    if l.any fun y => bareWords y.ins != bareWords x.ins then (s.trapSigns l .hitchMisuse 0).push (.hitchFireComplete blk wheel h)
    else if isMat x.ins then s.fireMat blk wheel h l x.ins
    else (s.collWrite x.ins l).push (.hitchFireComplete blk wheel h)

/-- A signature taken by a hitch (Table 1.1). -/
def State.takeSign (s : State) (h : Reg4) (x : Sign) : State :=
  let blk := x.th.blk
  let w := x.th.wheel
  let y := s.hitchOf blk w h
  match y.st with
  | .firing => s.modHitch blk w h fun y => { y with held := y.held ++ [x] }
  | _ =>
    let s := s.modHitch blk w h fun y => { y with signed := y.signed ++ [x] }
    if y.signed.length + 1 = y.c then s.fire blk w h else s.unsignable blk w h

/-- Wheelers' fires that have waited for their leaders' are looked at again. -/
def State.wakeWheel (s : State) (blk : Nat) (wheel : Bool) : State :=
  if wheel then s
  else (List.range 16).foldl (fun s k =>
    let h : Reg4 := BitVec.ofNat 4 k
    if (s.hitchOf blk true h).late then s.ask (.hitchFireComplete blk true h) else s) s
/-- HITCH_FIRE_COMPLETE: the signers that still wait go on, and the signatures made meanwhile are taken in order. A fire that has waited
is made now, if its block is on a core. -/
def State.fireDone (s : State) (blk : Nat) (wheel : Bool) (h : Reg4) : State :=
  let y := s.hitchOf blk wheel h
  if y.st != .firing then s
  else if y.late then (match s.block? blk with | some b => if b.resident then s.fire blk wheel h else s | none => s)
  else
    let mine (t : Thread) : Bool := t.status == .waiting (.hitch h) && y.signed.any fun x => x.th == t.id
    let s : State := { s with threads := s.threads.map fun t => if mine t then t.resume else t }
    let s := s.modHitch blk wheel h fun y => { y with st := .armed, signed := [], held := [] }
    ((y.held.foldl (fun s x => s.takeSign h x) s).unsignable blk wheel h).wakeWheel blk wheel
def execHitchFireComplete (blk : Nat) (wheel : Bool) (h : Reg4) (s : State) : Out := .next (s.fireDone blk wheel h).tick

/-! Signing words. -/

/-- What keeps a signing word from issuing: TL at its limit; for one that reaches memory, the thread's earlier accesses that are
not yet in place (R303). -/
def signStall (i : Instr) (s : State) (_ : Str) (t : Thread) : Bool :=
  (isMat i && ctrFull t.tl)
  || (memOp i && (s.acqPending t.id || s.unbound t.id || s.viewOut t.id || s.ntOut t.id || s.sigPending t.id || (s.rels.any fun r => r.th == t.id) || (s.atoms.any fun a => a.th == t.id)
      || s.qreqs.any fun x => x.try_ && x.result.isNone && x.ths.contains t.id))
/-- One thread signs (R294, R301): FREE, or a team outside the mask, traps. -/
def signOne (i : Instr) (h : Reg4) (vals : Sparse 32 → Thread → List Word) (preds : Thread → List Bool) (c : Str) (id : ThreadId) (s : State) : State :=
  match s.thread? id with
  | none => s
  | some t =>
    let y := s.hitchOf id.blk id.wheel h
    if y.st == .free || !y.m.getLsbD (teamIdx id) then s.raise id c.pc .hitchMisuse 0 0 true
    else
      let x : Sign := { th := id, ins := i, vals := vals (s.yOf id) t, preds := preds t }
      (s.modThread id fun t => { (if isMat i then { t with tl := t.tl + 1 } else t).addHold (collDests i) with status := .waiting (.hitch h) }).takeSign h x
def signWord (i : Instr) (h : Reg4) (vals : Sparse 32 → Thread → List Word) (preds : Thread → List Bool) (s : State) : Out :=
  execEach i (signStall i) (signOne i h vals preds) s
def noVals : Sparse 32 → Thread → List Word := fun _ _ => []
def noPreds : Thread → List Bool := fun _ => []

/-- `hitch.decl` for one thread (R293, Table 1.1). -/
def declOne (h : Reg4) (b : Src) (mask : BitVec 8) (c : Str) (id : ThreadId) (s : State) : State :=
  match s.thread? id with
  | none => s
  | some t =>
    let n := ((bval (s.yOf id) t b).extractLsb' 0 11).toNat
    let y := s.hitchOf id.blk id.wheel h
    let bad (s : State) : State := s.raise id c.pc .hitchMisuse 0 0 true
    if y.st == .firing || !y.signed.isEmpty then bad s
    else if y.st == .armed && y.c == n && y.m == mask then s
    else if n = 0 || decide ((s.eligible id.blk id.wheel mask).length < n) then
      bad (s.modHitch id.blk id.wheel h fun y => { y with st := .free })
    else s.modHitch id.blk id.wheel h fun y => { y with st := .armed, c := n, m := mask, signed := [] }
def execHitchDecl (q : PReg) (h : Reg4) (b : Src) (mask : BitVec 8) (s : State) : Out :=
  execEach (.hitchDecl q h b mask) noStall (declOne h b mask) s

def execHitchSign (q : PReg) (h : Reg4) (s : State) : Out := signWord (.hitchSign q h) h noVals noPreds s
def onP (a : PReg) : Thread → List Bool := fun t => [t.pr a]
def onG (a : GReg) : Sparse 32 → Thread → List Word := fun _ t => [t.gr a]
def onGB (a : GReg) (b : Src) : Sparse 32 → Thread → List Word := fun y t => [t.gr a, bval y t b]
def execPfoldAnd (q : PReg) (h : Reg4) (d a : PReg) (s : State) : Out := signWord (.pfoldAnd q h d a) h noVals (onP a) s
def execPfoldOr (q : PReg) (h : Reg4) (d a : PReg) (s : State) : Out := signWord (.pfoldOr q h d a) h noVals (onP a) s
def execPcount (q : PReg) (h : Reg4) (d : GReg) (a : PReg) (s : State) : Out := signWord (.pcount q h d a) h noVals (onP a) s
def execPrank (q : PReg) (h : Reg4) (d : GReg) (a : PReg) (s : State) : Out := signWord (.prank q h d a) h noVals (onP a) s
def execAgree (q : PReg) (h : Reg4) (d : PReg) (a : GReg) (s : State) : Out := signWord (.agree q h d a) h (onG a) noPreds s
def execPbits (q : PReg) (h : Reg4) (d : GReg) (a : PReg) (w : BitVec 5) (s : State) : Out := signWord (.pbits q h d a w) h noVals (onP a) s
def execCycle (q : PReg) (h : Reg4) (d a : GReg) (b : Src) (s : State) : Out := signWord (.cycle q h d a b) h (onGB a b) noPreds s
def execXrank (q : PReg) (h : Reg4) (d a : GReg) (b : Src) (s : State) : Out := signWord (.xrank q h d a b) h (onGB a b) noPreds s
def execFoldAdd (q : PReg) (h : Reg4) (d a : GReg) (s : State) : Out := signWord (.foldAdd q h d a) h (onG a) noPreds s
def execScanAdd (q : PReg) (h : Reg4) (d a : GReg) (s : State) : Out := signWord (.scanAdd q h d a) h (onG a) noPreds s
def execFoldMinI (q : PReg) (h : Reg4) (d a : GReg) (s : State) : Out := signWord (.foldMinI q h d a) h (onG a) noPreds s
def execFoldMaxI (q : PReg) (h : Reg4) (d a : GReg) (s : State) : Out := signWord (.foldMaxI q h d a) h (onG a) noPreds s

/-! Matrix words (majors 0x78 to 0x7b). -/

/-- `tcfg` (R308): not a collective. It raises TL and lowers it at once, so that it does not issue with TL at its limit (R215). -/
def execTcfg (q : PReg) (d : Reg4) (b : Src) (s : State) : Out :=
  execEach (.tcfg q d b) (fun _ _ t => ctrFull t.tl) (fun _ id s =>
    match s.thread? id with
    | some t => s.modSide id.blk id.wheel fun x => { x with tc := wr x.tc d.toNat (bval (s.yOf id) t b) }
    | none => s) s

def addr12 (m : MemOp12) (t : Thread) : List Word := [(mem12Va m t).extractLsb' 0 32, (mem12Va m t).extractLsb' 32 32]
def onAddr (m : MemOp12) (b : Src) : Sparse 32 → Thread → List Word := fun y t => addr12 m t ++ [bval y t b]
def onAddr0 (m : MemOp12) : Sparse 32 → Thread → List Word := fun _ t => addr12 m t
def onAddrD (m : MemOp12) (b : Src) (d : GReg) : Sparse 32 → Thread → List Word := fun y t => addr12 m t ++ [bval y t b, t.gr d]
def onSrc (b : Src) : Sparse 32 → Thread → List Word := fun y t => [bval y t b]
def onPair (o : GReg) : Sparse 32 → Thread → List Word := fun _ t => [t.gr o, t.gr (o + 1)]

def execTld (q : PReg) (h d : Reg4) (m : MemOp12) (b : Src) (s : State) : Out := signWord (.tld q h d m b) h (onAddr m b) noPreds s
def execTst (q : PReg) (h d : Reg4) (m : MemOp12) (b : Src) (s : State) : Out := signWord (.tst q h d m b) h (onAddr m b) noPreds s
def execTmov (q : PReg) (h : Reg4) (t : Bool) (rm : Rm) (d a : Reg4) (s : State) : Out := signWord (.tmov q h t rm d a) h noVals noPreds s
def execTzero (q : PReg) (h d : Reg4) (n : BitVec 2) (s : State) : Out := signWord (.tzero q h d n) h noVals noPreds s
def execMma (q : PReg) (x : MmaArgs) (s : State) : Out := signWord (.mma q x) x.h (onSrc x.f) noPreds s
def execMmaSp (q : PReg) (x : MmaArgs) (s : State) : Out := signWord (.mmaSp q x) x.h (onSrc x.f) noPreds s
def execMmaSpt (q : PReg) (x : MmaArgs) (s : State) : Out := signWord (.mmaSpt q x) x.h (onSrc x.f) noPreds s
def execMfactLu (q : PReg) (x : FactArgs) (s : State) : Out := signWord (.mfactLu q x) x.h (onPair x.o) noPreds s
def execMfactChol (q : PReg) (x : FactArgs) (s : State) : Out := signWord (.mfactChol q x) x.h (onPair x.o) noPreds s
def execMfactQr (q : PReg) (x : FactArgs) (s : State) : Out := signWord (.mfactQr q x) x.h (onPair x.o) noPreds s
def execMtrsm (q : PReg) (x : TrsmArgs) (s : State) : Out := signWord (.mtrsm q x) x.h (onPair x.o) noPreds s
def execAccLdTile (q : PReg) (h : Reg4) (ct : CellTy) (d : Reg4) (b : Src) (s : State) : Out := signWord (.accLdTile q h ct d b) h (onSrc b) noPreds s
def execAccLdMem (q : PReg) (h : Reg4) (ct : CellTy) (f : Fmt) (d : GReg) (m : MemOp12) (b : Src) (s : State) : Out :=
  signWord (.accLdMem q h ct f d m b) h (onAddrD m b d) noPreds s
def execAccStTile (q : PReg) (h : Reg4) (ct : CellTy) (d : Reg4) (b : Src) (s : State) : Out := signWord (.accStTile q h ct d b) h (onSrc b) noPreds s
def execAccStMem (q : PReg) (h : Reg4) (ct : CellTy) (f : Fmt) (d : GReg) (m : MemOp12) (b : Src) (s : State) : Out :=
  signWord (.accStMem q h ct f d m b) h (onAddrD m b d) noPreds s
def execAccSnap (q : PReg) (h : Reg4) (ct : CellTy) (d : GReg) (a : Reg4) (b : Src) (s : State) : Out := signWord (.accSnap q h ct d a b) h (onSrc b) noPreds s
def execAccZero (q : PReg) (h : Reg4) (ct : CellTy) (b : Src) (s : State) : Out := signWord (.accZero q h ct b) h (onSrc b) noPreds s
def execPmLd (q : PReg) (h : Reg4) (d : PmReg) (m : MemOp12) (s : State) : Out := signWord (.pmLd q h d m) h (onAddr0 m) noPreds s
def execPmSt (q : PReg) (h : Reg4) (d : PmReg) (m : MemOp12) (s : State) : Out := signWord (.pmSt q h d m) h (onAddr0 m) noPreds s
def execPmApply (q : PReg) (h : Reg4) (ct : CellTy) (d : PmReg) (b : Src) (s : State) : Out := signWord (.pmApply q h ct d b) h (onSrc b) noPreds s
def execPmApplyInv (q : PReg) (h : Reg4) (ct : CellTy) (d : PmReg) (b : Src) (s : State) : Out := signWord (.pmApplyInv q h ct d b) h (onSrc b) noPreds s

end Sys2Proof.Machine
end

