-- ==== Sys2Proof/Machine/MatSteps.lean ====
section
/-! DEFINITION. The device steps of the matrix array: a pending operation begins, an operation completes, a factorisation performs a
column or stops at its boundary (R143, R144, R162, R302 to R304). -/

namespace Sys2Proof.Machine

/-- Signers of an operation that is over: TL lowered, holds dropped. -/
def State.unsignAll (s : State) (o : MatOp) : State := o.signers.foldl (fun s id => s.modThread id (Thread.unsign o.ins)) s
/-- An operation leaves the array; what waited for it is looked at again. -/
def State.matOver (s : State) (blk : Nat) (wheel : Bool) (o : MatOp) : State :=
  (s.modSide blk wheel fun d => { d with ops := d.ops.filter fun x => x.id != o.id }).wakeMat blk

/-- PENDING_MATRIX_OP_BEGIN. -/
def execPendingMatrixOpBegin (blk : Nat) (wheel : Bool) (id : Nat) (s : State) : Out := .next (s.matBegin blk wheel id).tick

/-! Memory of the array. -/

/-- An operation whose accesses fail when they are performed: nothing of it is written, and the failure is imprecise (R143). -/
def State.matFault (s : State) (o : MatOp) (cause : Cause) (addr : DWord) : State :=
  let live := o.signers.filter fun id => match s.thread? id with | some t => t.status != .exited | none => false
  (if live.isEmpty then [lowSigner o.signers] else live).foldl (fun s id => s.push (.storeFault id cause.code addr o.pc)) s

/-- Whether an operation stores through a view. -/
def MemPlan.viaView (p : MemPlan) : Bool := p.write && p.rows.any fun r => isView r.1
/-- What a store through a view waits for before it leaves the core: the bytes its signers wrote before are home (R110). -/
def State.viewBehind (s : State) (o : MatOp) : Bool :=
  let core := s.coreOf (lowSigner o.signers)
  (s.l1.any fun x => x.core == core && x.dirty.any o.signers.contains) || !(s.coreWbs core).isEmpty
/-- The array's bytes written to memory: dirty bytes of the core at the same places go first, the core keeps no older copy of them, nor,
through a view, of their sectors (R110), and the write-backs count for the releases that the signers have begun (R303). -/
def State.matWrite (s : State) (o : MatOp) (view : Bool) (cells : List LCell) : State :=
  let id := lowSigner o.signers
  let core := s.coreOf id
  let pas := cells.filterMap fun c => match c.loc with | .mem pa => some pa | _ => none
  let s := s.flush core (fun b => pas.contains b.pa)
  let s : State := { s with l1 := s.l1.filter fun b => !(b.core == core && (pas.contains b.pa || (view && b.dirty.isEmpty && pas.any fun pa => pa / 32 == b.pa / 32))) }
  let n := s.nextId
  let s := s.sendCells core (cells.filterMap fun c => match c.loc with | .mem pa => some ((pa, c.val), c.key) | _ => none)
  let new := (List.range (s.nextId - n)).map (n + ·)
  let s : State := { s with rels := s.rels.map fun r => if (o.signers.contains r.th || r.after == some (.blockSaveComplete id.blk)) && r.scope != .blk then { r with waits := r.waits ++ new } else r }
  cells.foldl (fun s c => match c.loc with | .scr b k => s.putScr id b k c.val | _ => s) s

/-- Bytes in pieces of 512. -/
def pieces512 : Nat → List Byte → List (List Byte)
  | 0, _ => []
  | n + 1, bs => bs.take 512 :: pieces512 n (bs.drop 512)
def cellPieces : Nat → List LCell → List (List LCell)
  | 0, _ => []
  | n + 1, cs => cs.take 512 :: cellPieces n (cs.drop 512)
def piecesOf (bs : List Byte) : List (List Byte) := pieces512 ((bs.length + 511) / 512) bs

/-- The next piece of 512 bytes of a redundant block's store signed: the addresses and the data (R304); the leaders' carries the cells. -/
def State.matSign (s : State) (o : MatOp) (p : MemPlan) (data : List Byte) (wheel : Bool) (cells : List (List LCell)) : State :=
  let at' {α : Type} (l : List α) : List α := (l.drop (512 * o.prog)).take 512
  let low := lowSigner o.signers
  let part : SigPart := { tid := arraySigTid o.pc, crc := crc32c (bytesOfNat 4 o.pc.toNat ++ ((at' p.addrs).zip (at' data)).flatMap fun x => bytesOfNat 8 x.1.toNat ++ [x.2]),
                          cells := cells.getD o.prog [], kind := .store }
  let s := (s.modTeam low.blk false (teamIdx low) fun m => m.addSig wheel o.pc part fun _ => false).push (.signatureCompare low.blk (teamIdx low))
  let n := ((cells.getD o.prog []).filter (buffered low.blk)).length
  s.modSide low.blk wheel fun d => { d with ops := d.ops.map fun x =>
    if x.id == o.id then { x with prog := o.prog + 1, stores := x.stores - n, cells := cells } else x }

/-- Words of bytes, for the load-value queue. -/
def wordsFrom (bs : List Byte) : List Word := (List.range ((bs.length + 3) / 4)).map fun j => BitVec.ofNat 32 (natOfBytes ((bs.drop (4 * j)).take 4))
def bytesFrom (ws : List Word) : List Byte := ws.flatMap fun w => bytesOfNat 4 w.toNat
def isArrayEntry (pc : Word) (e : LvEntry) : Bool := e.pc == pc && e.vals.any fun v => v.tid == arrayTid
/-- The leader's read data enters the pair's queue, an entry for each 512 bytes (R304). -/
def State.lvArray (s : State) (o : MatOp) (bs : List Byte) : State :=
  let id := lowSigner o.signers
  s.modTeam id.blk false (teamIdx id) fun m =>
    { m with lvq := m.lvq ++ (piecesOf bs).map fun p => { pc := o.pc, vals := [{ tid := arrayTid, src := 0, val := some (wordsFrom p) }] } }
/-- The wheeler's read data, once all of its entries are there, and the queue without them. -/
def dropEntries (pc : Word) : Nat → List LvEntry → List LvEntry
  | 0, l => l
  | _, [] => []
  | n + 1, e :: l => if isArrayEntry pc e then dropEntries pc n l else e :: dropEntries pc (n + 1) l
def State.lvArrayTake (s : State) (o : MatOp) (n : Nat) : Option (List Byte × State) :=
  let id := lowSigner o.signers
  match s.team? id.blk false (teamIdx id) with
  | none => none
  | some m =>
    let es := m.lvq.filter (isArrayEntry o.pc)
    let k := (n + 511) / 512
    if es.length < k then none
    else some (((es.take k).flatMap fun e => (e.vals.flatMap fun v => bytesFrom (v.val.getD []))).take n,
               s.modTeam id.blk false (teamIdx id) fun m => { m with lvq := dropEntries o.pc k m.lvq })

/-! MATRIX_OP_COMPLETE. -/

/-- The side and the flags of a completed operation written. -/
def State.matDone (s : State) (blk : Nat) (wheel : Bool) (o : MatOp) (r : Side × Flags5) : State :=
  (((s.modSide blk wheel fun _ => r.1).setFlagsAll o.signers r.2).unsignAll o).matOver blk wheel o

/-- An operation whose accesses fail: its denied reads are logged, nothing of it is done (R143). -/
def State.matFails (s : State) (blk : Nat) (wheel : Bool) (o : MatOp) (ds : List Denial) (c : Cause) (a : DWord) : State :=
  ((((s.reportMat (lowSigner o.signers) o.pc ds).matFault o c a).unsignAll o).matOver blk wheel o)
/-- A loading operation. -/
def State.matLoad (s : State) (b : Block) (wheel : Bool) (o : MatOp) (p : MemPlan) : State :=
  let id := lowSigner o.signers
  let again (s : State) : State := s.push (.matrixOpComplete b.id wheel o.id)
  let d := b.side wheel
  let total := sumL (p.rows.map (·.2))
  let idx := s.matIdx o.desc id p
  if wheel then
    match s.lvArrayTake o total with
    | none => again s
    | some (bs, s) => s.matDone b.id wheel o (matEffect d b.shape o (p.cut bs) [])
  else if !idx.isEmpty then again (s.matIdxAsk id idx)
  else
    match s.matBytes o.desc id p with
    | (s', ds, .error (c, a)) => s'.matFails b.id wheel o ds c a
    | (s', ds, .ok bs) =>
      if (bs.any fun x => s.byteWaits id x) || (b.shape.red && (match s.team? b.id false (teamIdx id) with
          | some m => decide (Config.lvqEntries < m.lvq.length + (total + 511) / 512) | none => false)) then again (s.askBytes id bs)
      else
        let data := bs.map (s'.arrayByte id)
        let bad := bs.map s'.bytePoison
        let cutB := (p.cut (bad.map fun x => if x then 1 else 0)).map fun r => r.map fun x => x == 1
        let s' := (s'.reportMat id o.pc ds).forgetBytes id bs
        match o.ins with
        | .pmLd .. =>
          if bad.contains true then s'.consumed id o.pc
          else (if b.shape.red then s'.lvArray o data else s').matDone b.id wheel o (matEffect d b.shape o (p.cut data) [])
        | _ => (if b.shape.red then s'.lvArray o data else s').matDone b.id wheel o (matEffect d b.shape o (p.cut data) cutB)

/-- Pieces of an operation's store are in the compare buffer, or an older operation of the same word is not over: the next piece, or the
end, waits. -/
def State.matSigned (s : State) (o : MatOp) (wheel : Bool) : Bool :=
  match s.team? (lowSigner o.signers).blk false (teamIdx (lowSigner o.signers)) with
  | some m => m.sigs.any fun e => e.wheel == wheel && e.parts.any fun x => x.tid == arraySigTid o.pc
  | none => false
def Side.olderStore (d : Side) (o : MatOp) : Bool := d.ops.any fun x => decide (x.id < o.id) && x.pc == o.pc && memStore x.ins
/-- A storing operation. In a redundant block it signs piece by piece, as the compare buffer has room (R304, R426). -/
def State.matStore (s : State) (b : Block) (wheel : Bool) (o : MatOp) (p : MemPlan) : State :=
  let id := lowSigner o.signers
  let again (s : State) : State := s.push (.matrixOpComplete b.id wheel o.id)
  let d := b.side wheel
  let data := (matImages d b.shape o).flatMap fun r => r
  let fin (s : State) : State := s.matDone b.id wheel o (matEffect d b.shape o [] [])
  let idx := s.matIdx o.desc id p
  if b.shape.red && (wheel || o.prog != 0) then
    if (data.length + 511) / 512 ≤ o.prog then (if s.matSigned o wheel then again s else fin s)
    else if s.sigFull id o.pc || d.olderStore o then again s
    else again (s.matSign o p data wheel o.cells)
  else if !idx.isEmpty then again (s.matIdxAsk id idx)
  else
    match s.matBytes o.desc id p with
    | (s', ds, .error (c, a)) => s'.matFails b.id wheel o ds c a
    | (s', ds, .ok bs) =>
      let cells : List LCell := (bs.zip data).map fun x => { loc := x.1.loc, val := x.2, key := x.1.key, tag := x.1.tag }
      if b.shape.red then (if s.sigFull id o.pc || d.olderStore o then again s else again ((s'.reportMat id o.pc ds).matSign o p data wheel (cellPieces ((cells.length + 511) / 512) cells)))
      else if b.shape.cont then fin ((s'.reportMat id o.pc ds).putCont id cells)
      else if bs.any (fun x => match x.loc with | .scr k _ => k != b.id && s.scrHeld (some x.loc) | .mem _ => false) then again s
      else if p.viaView && s.viewBehind o then
        again (s.flush b.core fun x => x.dirty.any o.signers.contains)
      else fin ((s'.reportMat id o.pc ds).matWrite o p.viaView cells)

/-- An `acc.snap`: its copy, and the count to every signer. -/
def State.matSnap (s : State) (b : Block) (wheel : Bool) (o : MatOp) (ct : CellTy) (dst : GReg) (a : Reg4) : State :=
  let d := b.side wheel
  let (cells, n, seen) := snapCells d b.shape o (s.draw 1024)
  let g := (grpOf o.tc b.shape.tiles a.toNat).getD default
  let d := d.cure { tw := (o.foot b.shape).tw }
  let d := snapSide d cells g (regionOf (o.vals.getD 0 0)) ct
  let d : Side := { d with ops := d.ops.map fun x => match seen with | some (k, n) => if x.id == k then { x with prog := n } else x | none => x }
  let s := o.signers.foldl (fun s id =>
    let r := s.injected id (s.objOf id) o.pc { g := [(dst, n)] }
    r.2.modThread id fun t => r.1.g.foldl (fun t x => t.setG x.1 x.2) t) s.redraw
  s.matDone b.id wheel o (d, 0)

def State.matFinish (s : State) (blk : Nat) (wheel : Bool) (id : Nat) : State :=
  match s.block? blk with
  | none => s
  | some b =>
    let d := b.side wheel
    match d.ops.find? (fun o => o.id == id && o.running) with
    | none => s
    | some o =>
      if d.footPoison (o.foot b.shape) then s.consumed (lowSigner o.signers) o.pc
      else
        match memPlan o.tc b.shape.tiles o.ins o.vals with
        | some p => if p.write then s.matStore b wheel o p else s.matLoad b wheel o p
        | none =>
          match o.ins with
          | .accSnap _ _ ct dst a _ => s.matSnap b wheel o ct dst a
          | _ => s.matDone blk wheel o (matEffect d b.shape o [] [])
def execMatrixOpComplete (blk : Nat) (wheel : Bool) (id : Nat) (s : State) : Out := .next (s.matFinish blk wheel id).tick

/-! FACTORISATION_COLUMN. -/

/-- Hitches whose fire an operation's signers made. -/
def factHitch : Instr → Reg4
  | .mfactLu _ x | .mfactChol _ x | .mfactQr _ x => x.h
  | .mtrsm _ x => x.h
  | _ => 0
/-- The run ends: at completion, at an interruption or at a trap (R162, R302). -/
def State.factOver (s : State) (blk : Nat) (wheel : Bool) (o : MatOp) : State :=
  ((s.unsignAll o).matOver blk wheel o).push (.hitchFireComplete blk wheel (factHitch o.ins))
/-- A run stopped at a column boundary for a save (R162): the signers are to issue their words again, and the fire is over. -/
def State.factStop (s : State) (blk : Nat) (wheel : Bool) (o : MatOp) : State :=
  let s := s.unsignAll o
  let s : State := { s with threads := s.threads.map fun t => if o.signers.contains t.id && t.status == .waiting (.hitch (factHitch o.ins)) then { t with status := .ready } else t }
  let s := s.modSide blk wheel fun d => { d with ops := d.ops.filter fun x => x.id != o.id }
  (s.fireDone blk wheel (factHitch o.ins)).wakeMat blk
/-- A completed run: gG and its report written, the status cleared (R155, R162). -/
def State.factEnd (s : State) (blk : Nat) (wheel : Bool) (o : MatOp) : State :=
  match s.side? blk wheel with
  | none => s
  | some d =>
    let g := growth d.mstat
    let regs := collDests o.ins
    let s := o.signers.foldl (fun s id => s.modThread id fun t => t.putWords regs [g.1, g.2]) s
    (s.modSide blk wheel fun d => { d with mstat := { d.mstat with active := false, kind := 0 } }).factOver blk wheel o
def State.factStep (s : State) (blk : Nat) (wheel : Bool) : State :=
  match s.block? blk with
  | none => s
  | some b =>
    let d := b.side wheel
    match d.ops.find? (fun o => isFact o.ins && o.running) with
    | none => s
    | some o =>
      match factPlan o.ins (valPair o.vals) with
      | none => s
      | some p =>
        if d.footPoison p.foot then s.consumed (lowSigner o.signers) o.pc
        else if p.cols ≤ d.mstat.prog then s.factEnd blk wheel o
        else if b.state == .saving then s.factStop blk wheel o
        else
          let r := factColumn p d
          match r.trap with
          | some c =>
            let s := s.modSide blk wheel fun _ => r.side
            let s := o.signers.foldl (fun s id =>
              let s := s.modThread id (Thread.unsign o.ins)
              match s.thread? id with
              | some t => s.raise id t.pc c 0 0 true
              | none => s) s
            (s.matOver blk wheel o).push (.hitchFireComplete blk wheel (factHitch o.ins))
          | none => ((s.modSide blk wheel fun _ => r.side).setFlagsAll o.signers r.fl).push (.factorisationColumn blk wheel)
def execFactorisationColumn (blk : Nat) (wheel : Bool) (s : State) : Out := .next (s.factStep blk wheel).tick

end Sys2Proof.Machine
end

