-- ==== Sys2Proof/Machine/Control.lean ====
section
/-! DEFINITION. Terminators (R223, R224, R244 to R249): each thread of the string takes its successor, calls and returns work on the
return-address stack with its spill in the private window, `exit` ends the thread. -/

namespace Sys2Proof.Machine

/-- Header address and fall-through address of the clause whose terminator a string is at (R224): the terminator is its last word. -/
def fallOf (c : Str) : Word := c.pc + 4
def hdrOf (c : Str) : Word := c.pc + 4 - 4 * (c.hdr &&& 0xf) - 4

/-- A thread goes to the clause at a text offset. -/
def Thread.goTo (succ : Word) (cyc : Nat) (t : Thread) : Thread :=
  { t with pc := succ, hdr := none, wlen := 0, lastIssue := cyc, done := t.done + 1, granted := false }
/-- The faults of a successor: ALIGN, then XLATE (R224, R245). -/
def State.succFault (s : State) (c : Str) (succ : Word) : Option Cause :=
  if succ.toNat % 4 != 0 then some .align
  else if s.textSize c.part c.obj ≤ succ.toNat then some .xlate
  else none
/-- A trap at a terminator: there is no word after it. -/
def State.raiseTerm (s : State) (c : Str) (id : ThreadId) (cause : Cause) (addr : DWord) : State := s.raise id c.pc cause addr 0 false
/-- A thread takes a successor, with a change of its return-address stack that takes effect only where nothing faults. -/
def State.take (s : State) (c : Str) (id : ThreadId) (succ : Word) (f : Thread → Thread) : State :=
  match s.succFault c succ with
  | some cause => s.raiseTerm c id cause 0
  | none => s.modThread id fun t => (f t).goTo succ s.cycle

/-- Private-window address of a spilled entry (R246). -/
def spillVa (k : Nat) : DWord := 0x0200000000000000 + BitVec.ofNat 64 (4 * k)

/-- push (R246): the fault, or the stack with the entry, after the spill of the oldest held entry. -/
def pushRas (c : Str) (id : ThreadId) (succ : Word) (s : State) : State :=
  match s.thread? id with
  | none => s
  | some t =>
    match s.succFault c succ with
    | some cause => s.raiseTerm c id cause 0
    | none =>
      let go (s : State) : State := s.take c id succ fun t => { t with ras := { dp := t.ras.dp + 1, held := (fallOf c :: t.ras.held).take 8 } }
      if t.ras.dp = 272 then s.raiseTerm c id .stack 0
      else if t.ras.dp < 8 then go s
      else
        let va := spillVa (t.ras.dp - 8)
        let bs := bytesOfNat 4 ((t.ras.held.getLast?).getD 0).toNat
        match s.access id va 4 .write with
        | (s', .error _) => (if id.wheel then s else s').raiseTerm c id .stack va
        | (s', .ok a) =>
          let s := if id.wheel then s else s'
          if s.mustStage id 4 (some a.loc) then s.stopFor id .staging else go (s.storeCells id c.pc va a bs false)

/-- A refill as the place that serves it checks it, and its bytes (R247): a plain load of the thread. -/
def State.refillAcc (s : State) (id : ThreadId) (a : Acc) : Acc := s.servedTo id (s.fromL1 id false a) a
def State.refillBytes (s : State) (id : ThreadId) (a : Acc) : List LByte := s.plainBytes id a 4 (s.fromL1 id false a)
def State.refillWord (s : State) (id : ThreadId) (a : Acc) : Word :=
  BitVec.ofNat 32 (natOfBytes ((s.refillBytes id a).map fun b => match b with | .val v => v | .at pa key => s.l2Byte (s.coreOf id) pa key))
/-- pop (R246): the oldest held entry is refilled from the private window; a wheeler takes the value from its leader (R247). -/
def popRas (c : Str) (id : ThreadId) (s : State) : State :=
  match s.thread? id with
  | none => s
  | some t =>
    match t.ras.held with
    | [] => s.raiseTerm c id .stack 0
    | x :: held =>
      match s.succFault c x with
      | some cause => s.raiseTerm c id cause 0
      | none =>
        let dp := t.ras.dp - 1
        let go (s : State) (r : List Word) : State := s.take c id x fun t => { t with ras := { dp := dp, held := held ++ r } }
        if dp < 8 then go s []
        else
          let va := spillVa (dp - 8)
          match s.access id va 4 .read with
          | (s', .error _) => (if id.wheel then s else s').raiseTerm c id .stack va
          | (s', .ok a) =>
            if s.isWheel id then s.wheelTake id fun ws s => go s [ws.headD 0]
            else
              let a := s'.refillAcc id a
              let v := s'.refillWord id a
              let bad : Bool := !a.denied && (match a.loc with | .mem pa => s'.isPoison pa || s'.scrBad id a.loc 4 (s'.fromL1 id false a) | _ => false)
              let s' := if a.denied then s'.reportDenied id va c.pc a.tag 0 else s'
              if bad then s'.consumed id c.pc
              else go (if s'.isRed id.blk then s'.sendQueue id c.pc [(0, v)] else s') [v]

/-- What one thread of true guard does at a terminator. -/
abbrev TermEff := Str → ThreadId → State → State

/-- A terminator's threads whose shape lacks the register it names (R49). -/
def State.termRegs (s : State) (i : Instr) (c : Str) : State :=
  c.members.foldl (fun s id => if s.regsOk i id then s else s.raiseTerm c id .illegalOp 0) s
/-- One thread at a terminator: a false guard falls through (R224). -/
def termOne (q : PReg) (eff : TermEff) (c : Str) (s : State) (id : ThreadId) : State :=
  match s.thread? id with
  | none => s
  | some t => if !t.ready then s else if t.pr q then eff c id s else s.take c id (fallOf c) fun t => t
/-- The string dissolves: its threads have successors, or have stopped at the terminator. -/
def State.dissolve (s : State) (c : Str) (rest : List Str) : State :=
  { s with
    threads := s.threads.map fun t => if c.members.contains t.id && !t.ready && t.status != .exited then t.halt c.hdr 1 else t
    strings := rest }
/-- A terminator word. -/
def termWord (i : Instr) (stall : State → Str → Thread → Bool) (eff : TermEff) (s : State) : Out :=
  match s.strings with
  | [] => .next s.tick
  | c :: rest =>
    if s.boarded i c || (s.actors (guardOf i) c).any (fun id => match s.thread? id with | some t => stall s c t | none => false) then
      .next s.tick
    else .next ((c.members.foldl (termOne (guardOf i) eff c) (s.termRegs i c)).dissolve c rest).tick

/-- A signed offset in words, as bytes. -/
def offBytes {n : Nat} (off : BitVec n) : Word := off.signExtend 32 * 4

def execNext (q : PReg) (s : State) : Out := termWord (.next q) noStall (fun c id s => s.take c id (fallOf c) fun t => t) s
def execJmp (q : PReg) (off : BitVec 22) (s : State) : Out :=
  termWord (.jmp q off) noStall (fun c id s => s.take c id (hdrOf c + offBytes off) fun t => t) s
def execBr (q : PReg) (neg : Bool) (p : PReg) (off : BitVec 18) (s : State) : Out :=
  termWord (.br q neg p off) noStall (fun c id s =>
    match s.thread? id with
    | some t => s.take c id (if (t.pr p) != neg then hdrOf c + offBytes off else fallOf c) fun t => t
    | none => s) s
def execBrx (q : PReg) (a : GReg) (s : State) : Out :=
  termWord (.brx q a) noStall (fun c id s => match s.thread? id with | some t => s.take c id (t.gr a) fun t => t | none => s) s

/-- A push that spills is a store of the thread: it waits as one (R75, R247), and for room in the compare buffer. It changes no counter,
so that ST at its limit does not keep it back. -/
def spillStall (s : State) (c : Str) (t : Thread) : Bool :=
  decide (8 ≤ t.ras.dp ∧ t.ras.dp < 272) && (s.storeStall { t with st := 0 } (spillVa (t.ras.dp - 8)) 4 || s.sigFull t.id c.pc)
def execCall (q : PReg) (off : BitVec 22) (s : State) : Out :=
  termWord (.call q off) spillStall (fun c id s => pushRas c id (hdrOf c + offBytes off) s) s
def execCallx (q : PReg) (a : GReg) (s : State) : Out :=
  termWord (.callx q a) spillStall (fun c id s => match s.thread? id with | some t => pushRas c id (t.gr a) s | none => s) s

/-- The bytes of a thread's refill that must be read at L2 and cannot be yet (R72, R83, R88). -/
def State.refillOpen (s : State) (t : Thread) : List (Nat × BitVec 9) :=
  if t.ras.dp < 9 || s.isWheel t.id then []
  else
    match (s.access t.id (spillVa (t.ras.dp - 9)) 4 .read).2 with
    | .ok a => (s.refillBytes t.id (s.refillAcc t.id a)).filterMap fun b =>
        match b with | .at pa key => if s.l2Waits (s.coreOf t.id) pa key then some (pa, key) else none | .val _ => none
    | .error _ => []
/-- A refill waits as a load does, and until it can be read. It changes no counter. -/
def refillStall (s : State) (_ : Str) (t : Thread) : Bool :=
  decide (9 ≤ t.ras.dp) && !s.isWheel t.id && (s.loadStall { t with ld := 0 } (spillVa (t.ras.dp - 9)) 4 || !(s.refillOpen t).isEmpty)
/-- What refills of the head string wait for is asked for. -/
def State.recallRefills (s : State) : State :=
  match s.strings with
  | [] => s
  | c :: _ => (c.members.filterMap s.thread?).foldl (fun s t => (s.refillOpen t).foldl (fun s p => s.l2Ask (s.coreOf t.id) p.1 p.2) s) s
def execRet (q : PReg) (s : State) : Out :=
  match termWord (.ret q) refillStall (fun c id s => popRas c id s) s with
  | .next t => .next (if t.strings == s.strings then t.recallRefills else t)
  | o => o

/-- The thread ends (R249). -/
def exitOne (c : Str) (id : ThreadId) (s : State) : State :=
  match s.thread? id with
  | none => s
  | some t =>
    if s.isRed id.blk && !t.granted then s.sign id c.pc [] [] .stop none
    else s.modThread id fun t => { t with status := .exited, hdr := none, ras := { dp := 0, held := [] }, done := t.done + 1, granted := false, pend := [] }
/-- What the exits of a block's threads bring about: barriers, hitches, commits, retirement. -/
def State.afterExit (s : State) (blk : Nat) : State :=
  let s := ((s.unsignableAll blk false).unsignableAll blk true).barCheckAll blk
  let s := if s.isCont blk then s.push (.commitStoreRelease blk) else s
  if (s.blockThreads blk).all (fun t => t.status == .exited) && (match s.block? blk with | some b => b.state == .running | none => false) then
    State.push (s.modBlock blk fun b => { b with state := .retiring }) (.blockRetire blk)
  else s
def execExit (q : PReg) (s : State) : Out :=
  match s.strings with
  | [] => .next s.tick
  | c :: _ =>
    match termWord (.exit q) noStall exitOne s with
    | .next t =>
      .next (((c.members.filter fun id => match t.thread? id with | some x => x.status == .exited | none => false).map (·.blk)).eraseDups.foldl
        (fun s b => s.afterExit b) t)
    | o => o

end Sys2Proof.Machine
end

