-- ==== Sys2Proof/Machine/Float.lean ====
section
/-! DEFINITION. Floating-point arithmetic, compares and classification (file 11, R250 to R262). -/

namespace Sys2Proof.Machine

/-! The four types of majors 0x40 to 0x43: one FP32 or FP64 value, or two halves (R253, R260). -/

/-- Two halves computed independently, flags of both (R260). -/
def halves (lo hi : FR) : FR := { bits := lo.bits + 65536 * hi.bits, fl := lo.fl ||| hi.fl }
def loH (w : Word) : Nat := (w.extractLsb' 0 16).toNat
def hiH (w : Word) : Nat := (w.extractLsb' 16 16).toNat

/-- A unary operation for one thread. -/
def fp1 (t : FpTy) (d a : GReg) (f : FFmt → Nat → FR) (th : Thread) : Outs :=
  let x := th.gr a
  match t with
  | .f32 => outF d (f f32 x.toNat)
  | .f64 => outF64 d (f f64 (th.gr64 a).toNat)
  | .f16 => outF d (halves (f f16 (loH x)) (f f16 (hiH x)))
  | .bf16 => outF d (halves (f bf16 (loH x)) (f bf16 (hiH x)))
/-- A binary operation for one thread. -/
def fp2 (t : FpTy) (d a : GReg) (b : Src) (f : FFmt → Nat → Nat → FR) (th : Thread) (y : Sparse 32) : Outs :=
  let x := th.gr a
  let z := bval y th b
  match t with
  | .f32 => outF d (f f32 x.toNat z.toNat)
  | .f64 => outF64 d (f f64 (th.gr64 a).toNat (bval64 y th b).toNat)
  | .f16 => outF d (halves (f f16 (loH x) (loH z)) (f f16 (hiH x) (hiH z)))
  | .bf16 => outF d (halves (f bf16 (loH x) (loH z)) (f bf16 (hiH x) (hiH z)))
/-- A ternary operation for one thread. -/
def fp3 (t : FpTy) (d a : GReg) (b : Src) (c : GReg) (f : FFmt → Nat → Nat → Nat → FR) (th : Thread) (y : Sparse 32) : Outs :=
  let x := th.gr a
  let z := bval y th b
  let w := th.gr c
  match t with
  | .f32 => outF d (f f32 x.toNat z.toNat w.toNat)
  | .f64 => outF64 d (f f64 (th.gr64 a).toNat (bval64 y th b).toNat (th.gr64 c).toNat)
  | .f16 => outF d (halves (f f16 (loH x) (loH z) (loH w)) (f f16 (hiH x) (hiH z) (hiH w)))
  | .bf16 => outF d (halves (f bf16 (loH x) (loH z) (loH w)) (f bf16 (hiH x) (hiH z) (hiH w)))
/-- The type of an instruction that has only .f32 and .f64. -/
def fpOf (dbl : Bool) : FpTy := if dbl then .f64 else .f32

/-! Bit operations (R257). -/

def fabsP (f : FFmt) (x : Nat) : FR := { bits := x % 2 ^ (f.w - 1), fl := 0 }
def fnegP (f : FFmt) (x : Nat) : FR := { bits := flipSign f x, fl := 0 }
def fcopysignP (f : FFmt) (a b : Nat) : FR :=
  { bits := a % 2 ^ (f.w - 1) + b / 2 ^ (f.w - 1) % 2 * 2 ^ (f.w - 1), fl := 0 }

def execFadd (q : PReg) (t : FpTy) (rm : Rm) (d a : GReg) (b : Src) (s : State) : Out :=
  execReg (.fadd q t rm d a b) (fun _ => fp2 t d a b (fpAdd · rm)) s
def execFsub (q : PReg) (t : FpTy) (rm : Rm) (d a : GReg) (b : Src) (s : State) : Out :=
  execReg (.fsub q t rm d a b) (fun _ => fp2 t d a b (fpSub · rm)) s
def execFmul (q : PReg) (t : FpTy) (rm : Rm) (d a : GReg) (b : Src) (s : State) : Out :=
  execReg (.fmul q t rm d a b) (fun _ => fp2 t d a b (fpMul · rm)) s
def execFma (q : PReg) (t : FpTy) (rm : Rm) (d a : GReg) (b : Src) (c : GReg) (s : State) : Out :=
  execReg (.fma q t rm d a b c) (fun _ => fp3 t d a b c (fpFma · rm)) s
def execFmin (q : PReg) (t : FpTy) (d a : GReg) (b : Src) (s : State) : Out :=
  execReg (.fmin q t d a b) (fun _ => fp2 t d a b (fpMinMax · false)) s
def execFmax (q : PReg) (t : FpTy) (d a : GReg) (b : Src) (s : State) : Out :=
  execReg (.fmax q t d a b) (fun _ => fp2 t d a b (fpMinMax · true)) s
def execFdiv (q : PReg) (w : Bool) (rm : Rm) (d a : GReg) (b : Src) (s : State) : Out :=
  execReg (.fdiv q w rm d a b) (fun _ => fp2 (fpOf w) d a b (fpDiv · rm)) s
def execFsqrt (q : PReg) (w : Bool) (rm : Rm) (d a : GReg) (s : State) : Out :=
  execReg (.fsqrt q w rm d a) (fun _ t _ => fp1 (fpOf w) d a (fpSqrt · rm) t) s
def execFabs (q : PReg) (t : FpTy) (d a : GReg) (s : State) : Out :=
  execReg (.fabs q t d a) (fun _ th _ => fp1 t d a fabsP th) s
def execFneg (q : PReg) (t : FpTy) (d a : GReg) (s : State) : Out :=
  execReg (.fneg q t d a) (fun _ th _ => fp1 t d a fnegP th) s

/-- 1 ÷ a, RoundNE; a NaN result comes from a alone. -/
def frcpP (f : FFmt) (a : Nat) : FR := if (f.val a).isNan then nanRule f [a] false else fpDiv f .rne (onePat f) a
def execFrcp (q : PReg) (w : Bool) (d a : GReg) (s : State) : Out :=
  execReg (.frcp q w d a) (fun _ t _ => fp1 (fpOf w) d a frcpP t) s

/-! Results within a bound (R259, Table 11.4). The exact value is enclosed by two neighbouring multiples of a power of two with
far more bits than the format; the allowed results are the encodings of the format within the bound of the enclosure, and
the implementation's choice among them is a free value (`Config.approx`, notes/assumptions/3.md). -/

/-- Encodings in the order of their values, -0 just below +0. -/
def encOrd (f : FFmt) (x : Nat) : Int := if x < 2 ^ (f.w - 1) then (x : Int) else -1 - ((x - 2 ^ (f.w - 1) : Nat) : Int)
def ordEnc (f : FFmt) (n : Int) : Nat := if 0 ≤ n then n.toNat else 2 ^ (f.w - 1) + (-1 - n).toNat

/-- The encoding next to n 2^e in the direction of a mode. -/
def nearEnc (f : FFmt) (rm : Rm) (zeroNeg : Bool) (n e : Int) : Nat :=
  (roundTo f rm { s := if n = 0 then zeroNeg else decide (n < 0), m := n.natAbs, e := e, sticky := false }).bits

/-- The chosen result for an exact value between n 2^e and (n + 1) 2^e with the bound b 2^e, kept between two encodings. -/
def chosen (f : FFmt) (op : Nat) (x : Nat) (n b e : Int) (loC hiC : Nat) : FR :=
  let lo := max (encOrd f (nearEnc f .ru true (n - b) e)) (encOrd f loC)
  let hi := min (encOrd f (nearEnc f .rd false (n + 1 + b) e)) (encOrd f hiC)
  let k := (hi + 1 - lo).toNat
  let tiny : Bool := scaleTo 1 f.emin e |>.1 |> fun (t : Nat) => decide ((if n < 0 then (-1 - n).toNat else n.toNat) < t)
  { bits := ordEnc f (lo + ((Config.approx op (BitVec.ofNat 64 x) k % k : Nat) : Int)),
    fl := if tiny then flNX ||| flUF else flNX }

/-- `k` ulps at n 2^e, n > 0, as a multiple of 2^e. -/
def ulps (f : FFmt) (k : Nat) (n e : Int) : Int :=
  let q := max ((Nat.log2 n.toNat : Int) + e) f.emin - f.m
  (((scaleTo k q e).1 : Nat) : Int)

/-- Every finite encoding. -/
def negTop (f : FFmt) : Nat := 2 ^ (f.w - 1) + f.top

/-- `frsq`. -/
def frsqP (op : Nat) (f : FFmt) (a : Nat) : FR :=
  match f.val a with
  | .nan _ _ _ => nanRule f [a] false
  | .inf s => if s then nanRule f [a] true else { bits := 0, fl := 0 }
  | .fin s m e =>
    if m = 0 then { bits := infOf f s, fl := flDZ }
    else if s then nanRule f [a] true
    else
      -- a = m' 2^(2h)
      let odd := e % 2 != 0
      let m' := if odd then 2 * m else m
      let h := (if odd then e - 1 else e) / 2
      let lg := Nat.log2 m'
      if m' = 2 ^ lg && lg % 2 = 0 then roundTo f .rne { s := false, m := 1, e := -(h + ((lg / 2 : Nat) : Int)), sticky := false }
      else
        let n : Int := ((isqrt (2 ^ 400 / m') : Nat) : Int)
        let e' : Int := -200 - h
        chosen f op a n (ulps f 1 n e') e' (negTop f) f.top

/-- Bits kept below the point for the other functions. -/
def fixP : Nat := 700

/-- The alternating series of arctan(1/x) scaled by 2^fixP: term t over k, from k up. -/
def atanGo (x2 : Nat) : Nat → Nat → Nat → Bool → Int
  | 0, _, _, _ => 0
  | n + 1, t, k, neg => (if neg then -((t / k : Nat) : Int) else ((t / k : Nat) : Int)) + atanGo x2 n (t / x2) (k + 2) (!neg)
/-- π scaled by 2^900 (Machin's formula); `fixP` bits are kept of reduced arguments. -/
def piFix : Nat := (16 * atanGo 25 220 (2 ^ 900 / 5) 1 false - 4 * atanGo 57121 220 (2 ^ 900 / 239) 1 false).toNat

/-- A Taylor series in r, scaled by 2^fixP: the term t at index k, then the term r^step / ((k+1)…(k+step)) later. -/
def sinCosGo (r2 : Nat) : Nat → Nat → Nat → Bool → Int
  | 0, _, _, _ => 0
  | n + 1, t, k, neg =>
    (if neg then -(t : Int) else (t : Int)) + sinCosGo r2 n (t * r2 / 2 ^ fixP / ((k + 1) * (k + 2))) (k + 2) (!neg)
/-- Sine and cosine of r / 2^fixP, 0 ≤ r < 2π 2^fixP, to within 2^-600. -/
def sinFix (r : Nat) : Int := sinCosGo (r * r / 2 ^ fixP) 160 r 1 false
def cosFix (r : Nat) : Int := sinCosGo (r * r / 2 ^ fixP) 160 (2 ^ fixP) 0 false
/-- |a| modulo 2π: exact reduction of m 2^e, e at least -149. -/
def reduced (m : Nat) (e : Int) : Nat := (m * 2 ^ (900 + e).toNat % (2 * piFix)) / 2 ^ (900 - fixP)

/-- The result for a sine or cosine known to within 2^-600: the bound of Table 11.4 is 2^-22 for every |result| up to 1. -/
def trigResult (op a : Nat) (v : Int) : FR :=
  chosen f32 op a (v / 2 ^ (fixP - 600)) (2 ^ 578) (-600) (flipSign f32 (onePat f32)) (onePat f32)

def fsinP (f : FFmt) (a : Nat) : FR :=
  match f.val a with
  | .nan _ _ _ => nanRule f [a] false
  | .inf _ => nanRule f [a] true
  | .fin s m e =>
    if m = 0 then { bits := a, fl := 0 }
    else
      let v := sinFix (reduced m e)
      trigResult 3 a (if s then -v else v)
def fcosP (f : FFmt) (a : Nat) : FR :=
  match f.val a with
  | .nan _ _ _ => nanRule f [a] false
  | .inf _ => nanRule f [a] true
  | .fin _ m e => if m = 0 then { bits := onePat f, fl := 0 } else trigResult 4 a (cosFix (reduced m e))

/-- ln 2 scaled by 2^fixP: 2 artanh(1/3). -/
def ln2Go : Nat → Nat → Nat → Nat
  | 0, _, _ => 0
  | n + 1, t, k => t / k + ln2Go n (t / 9) (k + 2)
def ln2Fix : Nat := 2 * ln2Go 230 (2 ^ fixP / 3) 1
/-- The exponential series of x / 2^fixP. -/
def expGo (x : Nat) : Nat → Nat → Nat → Nat
  | 0, _, _ => 0
  | n + 1, t, k => t + expGo x n (t * x / 2 ^ fixP / (k + 1)) (k + 1)
/-- 2^(x / 2^fixP) scaled by 2^fixP, 0 ≤ x < 2^fixP. -/
def exp2Fix (x : Nat) : Nat := expGo (x * ln2Fix / 2 ^ fixP) 140 (2 ^ fixP) 0

/-- `fex2.f32`. -/
def fex2P (f : FFmt) (a : Nat) : FR :=
  match f.val a with
  | .nan _ _ _ => nanRule f [a] false
  | .inf s => { bits := if s then 0 else infOf f false, fl := 0 }
  | .fin s m e =>
    -- a as a multiple of 2^-149
    let v : Int := ((m * 2 ^ (149 + e).toNat : Nat) : Int)
    let v := if s then -v else v
    let one : Int := 2 ^ 149
    if 128 * one ≤ v then { bits := infOf f false, fl := flOF ||| flNX }
    else if v < -150 * one then { bits := 0, fl := flUF ||| flNX }
    else if v % one = 0 && -149 * one ≤ v then roundTo f .rne { s := false, m := 1, e := v / one, sticky := false }
    else
      let n : Int := ((exp2Fix ((v % one).toNat * 2 ^ (fixP - 149)) / 2 ^ (fixP - 500) : Nat) : Int)
      let e' := v / one - 500
      chosen f 1 a n (ulps f 2 n e') e' (negTop f) f.top

/-- Binary digits of log2 of x / 2^400, 1 ≤ x / 2^400 < 2, most significant first. -/
def log2Go : Nat → Nat → Nat → Nat
  | 0, _, acc => acc
  | n + 1, x, acc =>
    let y := x * x / 2 ^ 400
    if 2 ^ 401 ≤ y then log2Go n (y / 2) (2 * acc + 1) else log2Go n y (2 * acc)

/-- `flg2.f32`. -/
def flg2P (f : FFmt) (a : Nat) : FR :=
  match f.val a with
  | .nan _ _ _ => nanRule f [a] false
  | .inf s => if s then nanRule f [a] true else { bits := a, fl := 0 }
  | .fin s m e =>
    if m = 0 then { bits := infOf f true, fl := flDZ }
    else if s then nanRule f [a] true
    else
      let lg := Nat.log2 m
      let k : Int := (lg : Int) + e
      if m = 2 ^ lg then cvtIF f .rne k
      else
        -- log2 a between n 2^-160 and (n + 1) 2^-160
        let n : Int := k * 2 ^ 160 + ((log2Go 160 (m * 2 ^ (400 - lg)) 0 : Nat) : Int)
        let inner : Bool := k = -1 || k = 0
        let mag : Int := if n < 0 then -1 - n else n
        let b : Int := if inner then 2 ^ 138 else ulps f 2 mag (-160)
        chosen f 2 a n b (-160) (negTop f) f.top

def execFrsq (q : PReg) (w : Bool) (d a : GReg) (s : State) : Out :=
  execReg (.frsq q w d a) (fun _ t _ => fp1 (fpOf w) d a (frsqP (if w then 5 else 0)) t) s
def execFex2 (q : PReg) (d a : GReg) (s : State) : Out := execReg (.fex2 q d a) (fun _ t _ => fp1 .f32 d a fex2P t) s
def execFlg2 (q : PReg) (d a : GReg) (s : State) : Out := execReg (.flg2 q d a) (fun _ t _ => fp1 .f32 d a flg2P t) s
def execFsin (q : PReg) (d a : GReg) (s : State) : Out := execReg (.fsin q d a) (fun _ t _ => fp1 .f32 d a fsinP t) s
def execFcos (q : PReg) (d a : GReg) (s : State) : Out := execReg (.fcos q d a) (fun _ t _ => fp1 .f32 d a fcosP t) s

/-! Rounding to integral values (R258), copysign, compares, classes. -/

def execFfloor (q : PReg) (w : Bool) (d a : GReg) (s : State) : Out :=
  execReg (.ffloor q w d a) (fun _ t _ => fp1 (fpOf w) d a (fpIntegral · .rd false) t) s
def execFceil (q : PReg) (w : Bool) (d a : GReg) (s : State) : Out :=
  execReg (.fceil q w d a) (fun _ t _ => fp1 (fpOf w) d a (fpIntegral · .ru false) t) s
def execFtrunc (q : PReg) (w : Bool) (d a : GReg) (s : State) : Out :=
  execReg (.ftrunc q w d a) (fun _ t _ => fp1 (fpOf w) d a (fpIntegral · .rz false) t) s
def execFrint (q : PReg) (w : Bool) (rm : Rm) (d a : GReg) (s : State) : Out :=
  execReg (.frint q w rm d a) (fun _ t _ => fp1 (fpOf w) d a (fpIntegral · rm true) t) s
def execFcopysign (q : PReg) (w : Bool) (d a : GReg) (b : Src) (s : State) : Out :=
  execReg (.fcopysign q w d a b) (fun _ => fp2 (fpOf w) d a b fcopysignP) s
def execFsetp (q : PReg) (w : Bool) (c : FCond) (d : PReg) (a : GReg) (b : Src) (s : State) : Out :=
  execReg (.fsetp q w c d a b) (fun _ t y =>
    outPF d (if w then fpCond f64 c (t.gr64 a).toNat (bval64 y t b).toNat else fpCond f32 c (t.gr a).toNat (bval y t b).toNat)) s
def execFclass (q : PReg) (w : Bool) (d a : GReg) (s : State) : Out :=
  execReg (.fclass q w d a) (fun _ t _ => out1 d (if w then fpClass f64 (t.gr64 a).toNat else fpClass f32 (t.gr a).toNat)) s

end Sys2Proof.Machine
end

