-- ==== Sys2Proof/Machine/Convert.lean ====
section
/-! DEFINITION. Conversions, packed elements, dot products, scaling and stochastic rounding (R177 to R180, R263 to R269). -/

namespace Sys2Proof.Machine

/-! `cvt` (R263). -/

/-- A source value: an encoding of a floating-point format, or an integer. -/
inductive CvtSrc where
  | f (g : FFmt) (x : Nat)
  | i (v : Int)

def cvtSrc (t : Thread) (a : GReg) : CvtTy → CvtSrc
  | .n32 => .i (t.gr a).toNat
  | .i32 => .i (t.gr a).toInt
  | .f64 => .f f64 (t.gr64 a).toNat
  | .f32 => .f f32 (t.gr a).toNat
  | .f16 => .f f16 (loH (t.gr a))
  | .bf16 => .f bf16 (loH (t.gr a))
/-- Into a floating-point format. -/
def cvtToF (g : FFmt) (rm : Rm) : CvtSrc → FR
  | .f f x => cvtFF f g rm x
  | .i v => cvtIF g rm v
/-- Into an integer range; an integer source saturates without a flag. -/
def cvtToI (lo hi : Int) (rm : Rm) : CvtSrc → FR
  | .f f x => let r := cvtFI f lo hi rm x; { bits := intBits 32 r.1, fl := r.2 }
  | .i v => { bits := intBits 32 (saturate lo hi v).1, fl := 0 }
def cvtOuts (rm : Rm) (dt st : CvtTy) (d a : GReg) (t : Thread) : Outs :=
  let x := cvtSrc t a st
  match dt with
  | .n32 => outF d (cvtToI 0 4294967295 rm x)
  | .i32 => outF d (cvtToI (-2147483648) 2147483647 rm x)
  | .f64 => outF64 d (cvtToF f64 rm x)
  | .f32 => outF d (cvtToF f32 rm x)
  | .f16 => outF d (cvtToF f16 rm x)
  | .bf16 => outF d (cvtToF bf16 rm x)
def execCvt (q : PReg) (rm : Rm) (dt sy : CvtTy) (d a : GReg) (s : State) : Out :=
  execReg (.cvt q rm dt sy d a) (fun _ t _ => cvtOuts rm dt sy d a t) s

/-! Packed elements (R177, R264, R265). -/

/-- Bits from one element to the next: a 6-bit element sits in a byte. -/
def pitch (f : Fmt) : Nat := if fbits f = 6 then 8 else fbits f
/-- Element i of a packed register. -/
def elemOf (f : Fmt) (x : Word) (i : Nat) : Nat := x.toNat / 2 ^ (pitch f * i) % 2 ^ fbits f
/-- A packed register with element i replaced, its container's other bits zero. -/
def putElem (f : Fmt) (x : Word) (i v : Nat) : Word :=
  let m : Word := BitVec.ofNat 32 ((2 ^ pitch f - 1) * 2 ^ (pitch f * i))
  (x &&& ~~~m) ||| BitVec.ofNat 32 (v % 2 ^ fbits f * 2 ^ (pitch f * i))

def packOuts (rm : Rm) (it : Bool) (dt : Fmt) (pos : Nat) (d a : GReg) (t : Thread) : Outs :=
  let r := convert dt (if it then .int32 else .fp32) rm (t.gr a).toNat
  { out1 d (putElem dt (t.gr d) pos r.bits) with fl := r.fl }
def unpackOuts (rm : Rm) (it : Bool) (sy : Fmt) (pos : Nat) (d a : GReg) (t : Thread) : Outs :=
  outF d (convert (if it then .int32 else .fp32) sy rm (elemOf sy (t.gr a) pos))
def execPack (q : PReg) (rm : Rm) (it : Bool) (dt : Fmt) (pos : BitVec 3) (d a : GReg) (s : State) : Out :=
  execReg (.pack q rm it dt pos d a) (fun _ t _ => packOuts rm it dt pos.toNat d a t) s
def execUnpack (q : PReg) (rm : Rm) (it : Bool) (sy : Fmt) (pos : BitVec 3) (d a : GReg) (s : State) : Out :=
  execReg (.unpack q rm it sy pos d a) (fun _ t _ => unpackOuts rm it sy pos.toNat d a t) s

/-! Dot products (R268). -/

/-- The formats of a form's elements (Table 11.8). -/
def dp4Fmts : Dp4Form → Fmt × Fmt
  | .i8 => (.int8, .int8) | .n8 => (.n8, .n8) | .i8n8 => (.int8, .n8) | .e4m3 => (.e4m3, .e4m3) | .e5m2 => (.e5m2, .e5m2)
def dp8Fmts : Dp8Form → Fmt × Fmt
  | .i4 => (.int4, .int4) | .n4 => (.n4, .n4) | .i4n4 => (.int4, .n4) | .e2m1 => (.e2m1, .e2m1)
/-- The dot product of n elements with an accumulator. -/
def dotVal (n : Nat) (fa fb : Fmt) (x z c : Word) : FR :=
  if (ffmt fa).isSome then
    mmaStep f32 c.toNat ((List.range n).map fun k => mulVal (elemVal fa (elemOf fa x k)) (elemVal fb (elemOf fb z k)) (some 0))
  else
    { bits := intBits 32 ((List.range n).foldl (fun v k => v + intVal fa (elemOf fa x k) * intVal fb (elemOf fb z k)) c.toInt), fl := 0 }
def execDp4 (q : PReg) (f : Dp4Form) (d a : GReg) (b : Src) (c : GReg) (s : State) : Out :=
  execReg (.dp4 q f d a b c) (fun _ t y => outF d (dotVal 4 (dp4Fmts f).1 (dp4Fmts f).2 (t.gr a) (bval y t b) (t.gr c))) s
def execDp8 (q : PReg) (f : Dp8Form) (d a : GReg) (b : Src) (c : GReg) (s : State) : Out :=
  execReg (.dp8 q f d a b c) (fun _ t y => outF d (dotVal 8 (dp8Fmts f).1 (dp8Fmts f).2 (t.gr a) (bval y t b) (t.gr c))) s

/-! Scaling by a power of two (R269). -/

def fscaleP (f : FFmt) (rm : Rm) (a e : Nat) : FR :=
  if e = 255 then nanRule f [a] false
  else
    match f.val a with
    | .nan _ _ _ => nanRule f [a] false
    | .inf _ => { bits := a, fl := 0 }
    | .fin s m x => roundTo f rm { s := s, m := m, e := x + ((e : Nat) : Int) - 127, sticky := false }
def execFscale (q : PReg) (w : Bool) (rm : Rm) (pos : BitVec 3) (d a : GReg) (b : Src) (s : State) : Out :=
  execReg (.fscale q w rm pos d a b) (fun _ t y =>
    let e := elemOf .e8m0 (bval y t b) pos.toNat
    if w then outF64 d (fscaleP f64 rm (t.gr64 a).toNat e) else outF d (fscaleP f32 rm (t.gr a).toNat e)) s

/-! Stochastic rounding (R178 to R180, R266, R267). -/

/-- The generator of a pipe: 1 after reset. -/
def State.gen (s : State) (pipe : Nat) : Word := match s.sr.find? (fun x => x.1 == pipe) with | some x => x.2 | none => 1
def State.setGen (s : State) (pipe : Nat) (v : Word) : State :=
  let r := s.sr.filter fun x => x.1 != pipe
  { s with sr := if v = 1 then r else r ++ [(pipe, v)] }
/-- The pipe of a string's picker. -/
def pipeOf (c : Str) : Nat := 4 * c.core + c.picker

/-- The generator's value in each of the 8 cycles, and its value after them: a cycle that carries a thread other than a wheeler
draws and advances. -/
def srCycles (s : State) (c : Str) : List Word × Word :=
  (List.range 8).foldl (fun r j =>
    let draws : Bool := c.members.any fun id => laneSlot id / 16 == j && !s.isWheel id
    (r.1 ++ [r.2], if draws then galois r.2 else r.2)) ([], s.gen (pipeOf c))
/-- The word of a slot (R179). -/
def srWord (cyc : List Word) (slot : Nat) : Word := (cyc.getD (slot / 16) 0).rotateLeft (2 * (slot % 16))

/-- One thread's conversion with its word. -/
def srOuts (dt : Fmt) (pos : Nat) (d a : GReg) (w : Word) (t : Thread) : Outs :=
  match ffmt dt with
  | some g => let r := convertSr g w (t.gr a).toNat; { out1 d (putElem dt (t.gr d) pos r.bits) with fl := r.fl }
  | none => {}
def srOne (i : Instr) (dt : Fmt) (pos : Nat) (d a : GReg) (cyc : List Word) (c : Str) (id : ThreadId) (s : State) : State :=
  match s.thread? id with
  | none => s
  | some t =>
    if s.isWheel id then s.wheelTake id fun ws s => s.writeOuts i c id (srOuts dt pos d a (ws.headD 0) t)
    else
      let w := srWord cyc (laneSlot id)
      let s := s.writeOuts i c id (srOuts dt pos d a w t)
      if s.isRed id.blk then s.sendQueue id c.pc [(d, w)] else s
def execCvtSr (q : PReg) (dt : Fmt) (pos : BitVec 3) (d a : GReg) (s : State) : Out :=
  execAll (.cvtSr q dt pos d a) (fun s _ t => s.lvFull t.id) (fun c ids s =>
    let r := srCycles s c
    ids.foldl (fun s id => srOne (.cvtSr q dt pos d a) dt pos.toNat d a r.1 c id s) (s.setGen (pipeOf c) r.2)) s

/-- The lowest-numbered thread of a list: the least thread index, the older block's among equals; that a string of several teams or blocks is
numbered so is the model's choice (notes/assumptions/71.md). -/
def lowest (ids : List ThreadId) : Option ThreadId :=
  ids.foldl (fun m id => match m with | none => some id | some x => if id.tid < x.tid then some id else m) none
/-- `srseed`: the value of the lowest-numbered acting thread; a wheeler's has no effect; 0 seeds 1. -/
def execSrseed (q : PReg) (b : Src) (s : State) : Out :=
  execAll (.srseed q b) noStall (fun c ids s =>
    match (lowest (ids.filter fun id => !s.isWheel id)).bind s.thread? with
    | none => s
    | some t =>
      let v := bval (s.yOf t.id) t b
      s.setGen (pipeOf c) (if v = 0 then 1 else v)) s

end Sys2Proof.Machine
end

