-- ==== Sys2Proof/Machine/Issue.lean ====
section
/-! DEFINITION. Issue (R16 to R25, R212 to R218): which threads are ready, the string a picker forms, the check of its clause, and
the results of earlier clauses that scheduled mode leaves pending. -/

namespace Sys2Proof.Machine

/-! Waits that end by themselves (R16, R299, R133, R426). -/

/-- A word at a queue register can go on, or meets the register as it now stands (R133). -/
def qregGoes (read : Bool) : QBind → Bool
  | .copy subs => !read || (match subs with | x :: _ => x.status.isSome | [] => false)
  | .gather g => if read then !g.lines.isEmpty else decide (g.pushes.length < 256)
  | _ => true
/-- A thread that found the compare buffer full, now that it has room (R426). -/
def State.sigStale (s : State) (t : Thread) : Bool :=
  !s.sigFull t.id t.pc && (match s.team? t.id.blk false (teamIdx t.id) with
    | some m => !m.sigs.any fun e => e.wheel == t.id.wheel && e.parts.any fun p => p.tid == t.id.tid && p.kind != .store
    | none => true)
/-- A waiting thread whose word now issues again, or whose wait is over. -/
def State.wakeOne (s : State) (t : Thread) : Thread :=
  match t.status with
  | .waiting w =>
    match w with
    | .loadValue => if (s.lvPeek t.id).isSome then { t with status := .ready } else t
    | .leader => if s.leadPassed t then { t with status := .ready } else t
    | .signature none => if s.sigStale t then { t with status := .ready } else t
    | .qreg k read => if qregGoes read (s.qregOf t.id k) then { t with status := .ready } else t
    | .counters nl ns na nt => if counted t nl ns na nt then t.resume else t
    | _ => t
  | _ => t
def State.wake (s : State) : State :=
  let s := s.endWaits fun _ => true
  { s with threads := s.threads.map s.wakeOne }

/-! Clauses (R212 to R214). -/

def hLen (h : Word) : Nat := bitsN h.toNat 3 0
def hClass (h : Word) : Nat := bitsN h.toNat 6 4
def hY (h : Word) : Bool := h.getLsbD 29
def hStall (h : Word) : Nat := bitsN h.toNat 22 19
def hSb (h : Word) (i : Nat) : Bool := h.getLsbD (23 + i)

/-- Majors that a class admits (Table 9.4). -/
def admits (cls maj : Nat) : Bool :=
  decide (maj ≤ 0x5f) || (match cls with
    | 1 => decide (maj ≤ 0x77)
    | 2 => maj == 0x74 || decide (0x78 ≤ maj ∧ maj ≤ 0x7b)
    | 3 => maj == 0x7c
    | 4 => true
    | _ => false)
/-- Words of the instruction that a word begins; unassigned majors have one (R214). -/
def lenAt (w : Word) : Nat := if isTwoWord w then 2 else 1
def isTerminator (w : Word) : Bool := decide (0x30 ≤ (majorOf w).toNat ∧ (majorOf w).toNat ≤ 0x37)
/-- The instructions that Table 9.9 marks uniform. -/
def isUniform (w next : Word) : Bool :=
  let m := (majorOf w).toNat
  m == 0x24 || m == 0x64 || m == 0x76 || (m == 0x75 && next.getLsbD 23)
/-- The walk of a clause's words by their lengths. -/
def wordsOk (cls : Nat) (y : Bool) : Nat → List Word → Bool
  | 0, _ => false
  | _, [] => false
  | n + 1, w :: ws =>
    admits cls (majorOf w).toNat && (y || !isUniform w (ws.headD 0))
    && (if isTerminator w then ws.isEmpty else decide (lenAt w ≤ (w :: ws).length) && wordsOk cls y n ((w :: ws).drop (lenAt w)))
def clauseOk (h : Word) (ws : List Word) : Bool :=
  h.extractLsb' 30 2 == 0 && decide (1 ≤ hLen h ∧ hClass h ≤ 4) && wordsOk (hClass h) (hY h) 16 ws

/-- The words from a text offset up; none where one of them lies beyond the text or cannot be read (R214, R388). -/
def State.textWords (s : State) (core : Nat) (part : BitVec 6) (obj : Word) (off n : Nat) : Option (List Word) :=
  (List.range n).mapM fun k => s.textWord core part obj (off + 4 * k)
/-- The registers that the words of a clause read or write, by instruction. -/
def decodeAll : Nat → List Word → List Instr
  | 0, _ => []
  | _, [] => []
  | n + 1, w :: ws =>
    match decode (w :: ws) with
    | .ok (i, _) => i :: decodeAll n ((w :: ws).drop (lenAt w))
    | .error _ => decodeAll n ((w :: ws).drop (lenAt w))

/-! Ready threads (R19). -/

/-- Whether a thread's next clause may begin: wait fields, source registers held, STALL in scheduled mode (R19, R215, R218). -/
def State.headerMet (s : State) (b : Block) (t : Thread) : Bool :=
  match s.textWord b.core b.part b.object t.pc.toNat with
  | none => true
  | some h =>
    let lim (lo : Nat) (n : Nat) : Bool := bitsN h.toNat (lo + 2) lo == 7 || decide (n ≤ bitsN h.toNat (lo + 2) lo)
    let sched := s.schedObjs.contains (b.part, b.object)
    lim 7 t.ld && lim 10 t.st && lim 13 t.as && lim 16 t.tl
    && (match s.textWords b.core b.part b.object (t.pc.toNat + 4) (hLen h) with
        | some ws => !((decodeAll 16 ws).any fun i => s.readsHeld i t)
        | none => true)
    && (!sched || decide (t.lastIssue + hStall h ≤ s.cycle))
/-- A thread that a picker may issue. -/
def State.issuable (s : State) (t : Thread) : Bool :=
  match s.block? t.id.blk with
  | none => false
  | some b =>
    t.ready && b.state == .running && !b.rolling && !s.inString t.id
    && (t.hdr.isSome || (!b.doomed && (!(b.quiesce || b.forced) || s.sigOwed t.id) && s.headerMet b t))
/-- The team's picker on its core. -/
def State.pickerOf (s : State) (id : ThreadId) : Nat × Nat := (s.coreOf id, match s.teamOf id with | some m => m.picker | none => 0)
/-- Ready threads of a picker. -/
def State.readyOf (s : State) (core picker : Nat) : List Thread :=
  s.threads.filter fun t => s.pickerOf t.id == (core, picker) && s.issuable t
/-- Pickers that have a ready thread. -/
def State.pickersReady (s : State) : List (Nat × Nat) :=
  let s := s.wake
  ((s.threads.filter s.issuable).map fun t => s.pickerOf t.id).eraseDups

/-! Strings (R18, R21). -/

/-- Whether one thread comes before another: team by age, leaders before wheelers, then number. -/
def State.before (s : State) (a b : Thread) : Bool :=
  let x := s.ageOf a.id
  let y := s.ageOf b.id
  if x != y then ageLe x y else if a.id.wheel != b.id.wheel then b.id.wheel else decide (a.id.tid < b.id.tid)
def insThread (le : Thread → Thread → Bool) (t : Thread) : List Thread → List Thread
  | [] => [t]
  | u :: l => if le t u then t :: u :: l else u :: insThread le t l
def sortThreads (le : Thread → Thread → Bool) (l : List Thread) : List Thread := l.foldl (fun acc t => insThread le t acc) []
/-- Wait count from which a thread is taken before its age (R21). -/
def urgent : Nat := 768
/-- The seed: among the ready threads of the largest wait count where one has reached 768, else among all. -/
def State.seed (s : State) (ts : List Thread) : Option Thread :=
  let m := ts.foldl (fun m t => max m t.waitCount) 0
  (sortThreads s.before (if urgent ≤ m then ts.filter fun t => t.waitCount = m else ts)).head?
/-- Whether a thread may stand in a seed's string: same address, same launch, code object and principal (R18). -/
def State.joins (s : State) (a t : Thread) : Bool :=
  t.pc == a.pc && t.hdr == a.hdr && t.granted == a.granted
  && (match s.block? a.id.blk, s.block? t.id.blk with
      | some x, some y => x.launch == y.launch && x.object == y.object && x.principal == y.principal
      | _, _ => false)
/-- The string's threads: the seed's team first, then others from the oldest, no two in one slot. -/
def State.gather (s : State) (a : Thread) (ts : List Thread) : List Thread :=
  let same := ts.filter (s.joins a)
  let own := same.filter fun t => sameTeam t.id a.id
  (sortThreads s.before (same.filter fun t => !sameTeam t.id a.id)).foldl
    (fun acc t => if acc.any fun u => laneSlot u.id == laneSlot t.id then acc else acc ++ [t]) own
/-- Ascending thread index. -/
def byIndex (a b : Thread) : Bool := decide (a.id.tid ≤ b.id.tid)

/-- The threads stop at a clause that cannot begin: XLATE or ILLEGAL_CLAUSE at the header (R214). -/
def State.stopHeader (s : State) (ts : List Thread) (cause : Cause) (len : Nat) : State :=
  ts.foldl (fun s t => (s.modThread t.id fun t => { t with wlen := 4 * (len + 1) }).raise t.id t.pc cause 0 0 false) s
/-- Where words of text lie, as far as they do. -/
def State.textPlaces (s : State) (core : Nat) (part : BitVec 6) (obj : Word) (off n : Nat) : List (Nat × BitVec 9) :=
  (List.range n).filterMap fun k => s.textAt core part obj (off + 4 * k)
/-- A line of code with an uncorrectable error is consumed where it issues (R193): a word that the core does not hold already. -/
def State.codeBad (s : State) (core : Nat) (part : BitVec 6) (obj : Word) (off n : Nat) : Bool :=
  (s.textPlaces core part obj off n).any fun x => s.isPoison x.1 && !s.code.any fun w => w.core == core && w.pa == x.1

/-- Pending results as a clause finds them: each at its distance from the clause that produced it, along the path taken (R346). -/
def PendRes.next (stall : Nat) (e : PendRes) : PendRes :=
  { e with mine := false, dist := if e.mine then stall else e.dist + 1 + stall }
/-- A clause begins: the results that its SB bits name, and those whose distance reaches their latency, are written (R218, R346). -/
def Thread.enter (h : Word) (t : Thread) : Thread :=
  Thread.writePend { t with pend := t.pend.map (PendRes.next (hStall h)) } fun e => hSb h e.cls || decide (Config.latency e.cls ≤ e.dist)
/-- A thread of the string that begins: its wait count starts again. -/
def Thread.issued (h : Option Word) (t : Thread) : Thread :=
  { (match h with | some h => t.enter h | none => t) with waitCount := 0 }

/-- STRING_ISSUE: one issue opportunity of a picker. The header and its words must lie in the text before any of them is looked at (R214). -/
def stringIssue (core picker : Nat) (s0 : State) : State :=
  let s := s0.wake
  let ts := s.readyOf core picker
  match s.seed ts with
  | none => s
  | some a =>
    match s.block? a.id.blk with
    | none => s
    | some b =>
      let ms := sortThreads byIndex (s.gather a ts)
      let ids := ms.map (·.id)
      let all := ts.map (·.id)
      let word := s.textWord core b.part b.object a.pc.toNat
      let s : State := { s with
        threads := s.threads.map fun t =>
          if ids.contains t.id then t.issued (if a.hdr.isSome then none else word)
          else if all.contains t.id then { t with waitCount := t.waitCount + 1 } else t }
      let go (hdr pc : Word) (s : State) : State :=
        { s with threads := s.threads.map (fun t => if ids.contains t.id then { t with pc := pc } else t)
                 nextId := s.nextId + 1
                 strings := s.strings ++ [{ core := core, picker := picker, part := b.part, obj := b.object, hdr := hdr, pc := pc,
                                            sched := s.schedObjs.contains (b.part, b.object), members := ids, seq := s.nextId, hold := [], opened := none }] }
      match a.hdr with
      | some h => if s.codeBad core b.part b.object a.pc.toNat 1 then (ids.foldl (fun s id => s.consumed id a.pc) s) else go h a.pc s
      | none =>
        match word with
        | none => s.stopHeader ms .xlate 0
        | some h =>
          match s.textWords core b.part b.object (a.pc.toNat + 4) (hLen h) with
          | none => s.stopHeader ms .xlate (hLen h)
          | some ws =>
            if s.codeBad core b.part b.object a.pc.toNat (hLen h + 1) then ids.foldl (fun s id => s.consumed id a.pc) s
            else
              let s := s.fillCode core (s.textPlaces core b.part b.object a.pc.toNat (hLen h + 1))
              if clauseOk h ws then go h (a.pc + 4) s else s.stopHeader ms .illegalClause (hLen h)
def execStringIssue (core picker : Nat) (s : State) : Out := .next (stringIssue core picker s).tick

/-! Pending results (R218). -/

/-- The clause that the thread is in has written the register of a pending result: its words read what it wrote (R218). -/
def Thread.shadowed (t : Thread) (e : PendRes) : Bool := t.pend.any fun x => x.mine && x.dst == e.dst
/-- The values that a word may find in a register whose results are pending: the one before them all, or one of them. -/
def pendValues : List PendRes → List Word
  | [] => []
  | e :: l => e.old :: (e :: l).map (·.new)
/-- One register with pending results of earlier clauses alone shows one of those values: the j-th. -/
def Thread.rechooseReg (t : Thread) (r : ResReg) (j : Nat) : Thread :=
  let es := t.pend.filter fun e => e.dst == r
  if es.isEmpty || es.any (·.mine) then t
  else
    let v := (pendValues es).getD (j % (es.length + 1)) 0
    let shown := es.getD (j % (es.length + 1) - 1) default
    { (t.show r v) with pend := t.pend.map fun e => if e.dst == r then { e with late := decide (j % (es.length + 1) = 0) || e != shown } else e }
/-- The choice for each register of one thread with pending results, `f` giving the k-th. -/
def Thread.rechoose (f : Nat → Nat) (t : Thread) : Thread :=
  let rs := (t.pend.map (·.dst)).eraseDups
  (List.range rs.length).foldl (fun t k => match rs[k]? with | some r => t.rechooseReg r (f k) | none => t) t
/-- Before a word of a scheduled object: what its threads find in registers whose results are pending. -/
def State.late (s : State) (c : Str) : State :=
  if c.sched then
    { s with threads := s.threads.map fun t =>
               if c.members.contains t.id then t.rechoose fun k => Config.choice (s.freeCtr + 1024 * k + t.id.tid) else t
             freeCtr := s.freeCtr + 1024 * 1024 }
  else s
/-- PENDING_RESULT_WRITTEN: the i-th pending result of a thread reaches its register, unless the clause it is in has written that. -/
def execPendingResultWritten (th : ThreadId) (i : Nat) (s : State) : Out :=
  .next (s.modThread th fun t =>
    match t.pend[i]? with
    | some e => if t.shadowed e then t else Thread.land { t with pend := t.pend.eraseIdx i } e
    | none => t).tick

end Sys2Proof.Machine
end

