-- ==== Sys2Proof/Machine/Hinus.lean ====
section
/-! DEFINITION. Code sections (R213, R224, R360 to R365): the clauses of a native text, Hinus segments, and what a translation of
segments into clauses has to be. -/

namespace Sys2Proof.Machine

/-! Native text: clauses in sequence, from the header at offset 0. -/

/-- Clause headers of a text by offset, with the words of each clause. -/
def clausesFrom : Nat → Nat → List Word → List (Nat × List Word)
  | 0, _, _ => []
  | _, _, [] => []
  | n + 1, off, h :: ws => (off, ws.take (hLen h)) :: clausesFrom n (off + 4 + 4 * hLen h) (ws.drop (hLen h))
def clausesOf (text : List Word) : List (Nat × List Word) := clausesFrom text.length 0 text
/-- Byte offsets of the literal words of the `movi`s among some words. -/
def moviSites : Nat → Nat → List Word → List Nat
  | 0, _, _ => []
  | _, _, [] => []
  | n + 1, off, w :: ws =>
    (if majorOf w = 0x22 then [off + 4] else []) ++ moviSites n (off + 4 * lenAt w) ((w :: ws).drop (lenAt w))
def clauseSites (text : List Word) : List Nat := (clausesOf text).flatMap fun c => moviSites c.2.length (c.1 + 4) c.2
/-- The places that the last word of a clause names: jmp, br, call (R224); byte offsets here. -/
def directTargets (hdr : Nat) (w : Word) : List Nat :=
  let rel (off : BitVec 32) : Nat := (BitVec.ofNat 32 hdr + 4 * off).toNat
  if majorOf w = 0x31 || majorOf w = 0x34 then [rel ((w.extractLsb' 3 22).signExtend 32)]
  else if majorOf w = 0x32 then [rel ((w.extractLsb' 3 18).signExtend 32)]
  else []
/-- Edges of the text: the clause, and a clause it names. -/
def textEdges (text : List Word) : List (Nat × Nat) :=
  (clausesOf text).flatMap fun c => match c.2.getLast? with | some w => (directTargets c.1 w).map fun t => (c.1, t) | none => []

/-! Hinus segments (R360 to R362, Tables 17.5, 17.6). -/

/-- A register word is well formed: its fields, and the register that it names (R361). -/
def regWordOk (w : Word) : Bool :=
  let k := bitsN w.toNat 31 30
  let sub := bitsN w.toNat 29 28
  let v := bitsN w.toNat 19 0
  decide (k ≤ 2) && bitsN w.toNat 27 20 == 0 && decide (sub + 2 ^ k ≤ 4)
  && (if v < 128 then (v + sub) % 2 ^ k == 0 && decide (v + sub + 2 ^ k ≤ 128) else sub % 2 ^ k == 0)
/-- The g-register fields of an instruction's words: D, A, B of the first, C of the second. -/
def putField (ws : List Word) (f v : Nat) : List Word :=
  match f with
  | 0 => ws.set 0 (ws.headD 0 ||| BitVec.ofNat 32 (v * 2 ^ 18))
  | 1 => ws.set 0 (ws.headD 0 ||| BitVec.ofNat 32 (v * 2 ^ 11))
  | 2 => ws.set 0 (ws.headD 0 ||| BitVec.ofNat 32 (v * 2 ^ 4))
  | _ => ws.set 1 (ws.getD 1 0 ||| BitVec.ofNat 32 (v * 2 ^ 9))
def getField (ws : List Word) (f : Nat) : Nat :=
  match f with
  | 0 => bitsN (ws.headD 0).toNat 24 18
  | 1 => bitsN (ws.headD 0).toNat 17 11
  | 2 => bitsN (ws.headD 0).toNat 10 4
  | _ => bitsN (ws.getD 1 0).toNat 15 9
/-- Words whose fields `fs` name the distinct registers g8, g16, g24, g32, one for each. -/
def probe (ws : List Word) (fs : List Nat) : List Word := fs.foldl (fun ws f => putField ws f (8 * (f + 1))) ws
/-- Every choice among the four fields. -/
def fieldSets : List (List Nat) := (List.range 16).map fun k => (List.range 4).filter fun f => k / 2 ^ f % 2 == 1
/-- The fields that an instruction uses as g-registers, in the order D, A, B, C, with the instruction as `probe` has it: those for which
the instruction names just the probing registers. None where no registers make it an instruction. -/
def hinFields (ws : List Word) : Option (List Nat × Instr) :=
  fieldSets.findSome? fun fs =>
    match decode (probe ws fs) with
    | .ok (i, _) =>
      let rs := (gNamed i).map (·.1)
      if rs.length = fs.length && fs.all (fun f => rs.contains (8 * (f + 1))) then some (fs, i) else none
    | .error _ => none
/-- Words of the Hinus instruction at the head of a list, register words included: one length, or where the native words are no
instruction every length that its register words can have. -/
def hinLens (ws : List Word) : List Nat :=
  match ws with
  | [] => []
  | w :: _ =>
    let n := lenAt w
    let good (k : Nat) : Bool := decide (n + k ≤ ws.length) && ((ws.drop n).take k).all regWordOk
    match hinFields (ws.take n) with
    | some (fs, _) => if good fs.length && fs.all (fun f => getField (ws.take n) f == 0) then [n + fs.length] else []
    | none => ((List.range 5).filter good).map (n + ·)
/-- The segments that a terminator names: OFF22 and OFF18 are unsigned indices (R362). -/
def segTargets (w : Word) : List Nat :=
  if majorOf w = 0x31 || majorOf w = 0x34 then [bitsN w.toNat 24 3] else if majorOf w = 0x32 then [bitsN w.toNat 20 3] else []
/-- A way to read a segment's body: the literal words of its `movi`s by word index, and the segments its terminator names; none
where the body cannot be read. -/
def readBody (nsegs : Nat) : Nat → Nat → List Word → Option (List Nat × List Nat)
  | 0, _, _ => none
  | _, _, [] => none
  | n + 1, pos, w :: ws =>
    if isTerminator w then
      if (hinLens (w :: ws)).contains (w :: ws).length && (segTargets w).all (fun t => decide (t < nsegs)) then some ([], segTargets w) else none
    else
      (hinLens (w :: ws)).findSome? fun l =>
        match readBody nsegs n (pos + l) ((w :: ws).drop l) with
        | some (a, b) => some ((if majorOf w = 0x22 then [pos + 1] else []) ++ a, b)
        | none => none
/-- The segments of a section: word index of each body with the body; none for a wrong header or a body that is cut short. -/
def segmentsFrom : Nat → Nat → List Word → Option (List (Nat × List Word))
  | _, _, [] => some []
  | 0, _, _ => none
  | n + 1, pos, h :: ws =>
    let k := bitsN h.toNat 15 0
    if bitsN h.toNat 31 16 != 0xb000 || k == 0 || decide (ws.length < k) then none
    else (segmentsFrom n (pos + 1 + k) (ws.drop k)).map fun l => (pos + 1, ws.take k) :: l
/-- Sites and edges of a well-formed section. -/
def readHinus (ws : List Word) : Option (Nat × List Nat × List (Nat × Nat)) :=
  match segmentsFrom ws.length 0 ws with
  | none => none
  | some segs =>
    match segs.mapM (fun g => readBody segs.length (g.2.length + 1) g.1 g.2) with
    | none => none
    | some l => some (segs.length, (l.flatMap (·.1)).map (4 * ·), (List.range segs.length).flatMap fun k => ((l.getD k ([], [])).2).map fun t => (k, t))

/-! Symbols (R358, Table 17.3). -/

def recordsOf (bs : List Byte) (n : Nat) : List Nat := (List.range (bs.length / n)).map fun k => natOfBytes ((bs.drop (n * k)).take n)
def symIsFn (x : Nat) : Bool := bitsN x 0 0 == 1
def symRegs (x : Nat) : Nat := bitsN x 15 8
def symTarget (x : Nat) : Nat := bitsN x 191 160
/-- The symbol that a place belongs to: the last one that begins at or before it. -/
def ownerSym (syms : List Nat) (place : Nat) : Option Nat :=
  (syms.filter fun x => decide (symTarget x ≤ place)).foldl (fun o x =>
    match o with | some y => if symTarget y < symTarget x then some x else some y | none => some x) none

/-! A translation (R361 to R364). The translator is free in its choice of registers, spill slots, order and timing; what follows says which
choices it has. `Config.Translated` gives with the text the Hinus word that each native instruction stands for and what it is there for. -/

/-- What a place of storage holds, by its name in the Hinus code: a word of a virtual register, or a fixed register (with word 0). -/
abbrev HName := Nat × Nat
/-- Places of storage, registers from 0 and spill slots from 128, with what they hold. -/
abbrev HEnv := List (Nat × HName)
def HEnv.get (e : HEnv) (loc : Nat) : Option HName := (e.find? fun x => x.1 == loc).map (·.2)
/-- A name has a new value: it is in this place and in no other. -/
def HEnv.write (e : HEnv) (loc : Nat) (n : HName) : HEnv := (loc, n) :: e.filter fun x => x.1 != loc && x.2 != n
/-- A place takes what another holds, or nothing known. -/
def HEnv.copy (e : HEnv) (loc : Nat) (n : Option HName) : HEnv :=
  (match n with | some n => [(loc, n)] | none => []) ++ e.filter fun x => x.1 != loc
def HEnv.meet (a b : HEnv) : HEnv := a.filter fun x => b.get x.1 == some x.2
/-- At a function's entry every fixed register is where it belongs. -/
def HEnv.entry : HEnv := (List.range 128).map fun r => (r, (r, 0))

/-- Registers a call may change (Table 16.2). -/
def callerSaved (r : Nat) : Bool := decide (r < 48 ∨ (120 ≤ r ∧ r < 124))
/-- The environment behind a call. -/
def HEnv.called (e : HEnv) : HEnv :=
  (((List.range 128).filter callerSaved).map fun r => (r, (r, 0)))
  ++ e.filter fun x => !(decide (x.1 < 128) && callerSaved x.1) && !(decide (x.2.1 < 128) && callerSaved x.2.1)
/-- What a call hands over, and a return hands back: arguments and results, and what the callee saves. -/
def HEnv.keeps (e : HEnv) (rs : List Nat) : Bool := rs.all fun r => e.get r == some (r, 0)
def argRegs : List Nat := List.range 16 ++ [124, 125, 126, 127]
def retRegs : List Nat := List.range 16 ++ (List.range 72).map (48 + ·) ++ [124, 125, 126, 127]

/-- The names that a register word uses, n words of them (R361). -/
def hinNames (rw : Word) (n : Nat) : List HName :=
  let sub := bitsN rw.toNat 29 28
  let v := bitsN rw.toNat 19 0
  (List.range n).map fun j => if v < 128 then (v + sub + j, 0) else (v, sub + j)
/-- The spans that an instruction writes. -/
def gDests (i : Instr) : List Span :=
  match i with
  | .deq _ x | .deqTry _ x => [sG x.d, sG x.b (2 ^ x.esz.toNat)]
  | i => if writesNoG i then [] else (gNamed i).take 1
/-- A Hinus instruction of a body: its native words, and for each g-register field its number, its names and whether it is written. -/
structure HinOp where
  pos : Nat
  native : List Word
  fields : List (Nat × List HName × Bool)
  bad : Bool
deriving DecidableEq, Repr, Inhabited
def hinOp (pos : Nat) (ws : List Word) (l : Nat) : HinOp :=
  let n := lenAt (ws.headD 0)
  let native := ws.take n
  match hinFields native with
  | none => { pos := pos, native := native, fields := [], bad := true }
  | some (fs, i) =>
    { pos := pos, native := native, bad := false
      fields := (fs.zip ((ws.drop n).take (l - n))).map fun x =>
        let span := ((gNamed i).find? fun g => g.1 == 8 * (x.1 + 1)).getD (0, 1)
        (x.1, hinNames x.2 span.2, (gDests i).any fun g => g.1 == 8 * (x.1 + 1)) }
/-- The instructions of a body, read as `readBody` reads it. -/
def hinOps : Nat → Nat → List Word → Option (List HinOp)
  | 0, _, _ => none
  | _, _, [] => none
  | n + 1, pos, w :: ws =>
    if isTerminator w then (if (hinLens (w :: ws)).contains (w :: ws).length then some [hinOp pos (w :: ws) (w :: ws).length] else none)
    else (hinLens (w :: ws)).findSome? fun l => (hinOps n (pos + l) ((w :: ws).drop l)).map fun r => hinOp pos (w :: ws) l :: r

/-- A native instruction of a translation: its clause's offset, its own, its words, and its place in the Hinus code. -/
structure NatOp where
  hdr : Nat
  off : Nat
  words : List Word
  place : Config.HinPlace
deriving DecidableEq, Repr
/-- The instructions among a clause's words. -/
def splitOps : Nat → Nat → List Word → List (Nat × List Word)
  | 0, _, _ => []
  | _, _, [] => []
  | n + 1, off, w :: ws => (off, (w :: ws).take (lenAt w)) :: splitOps n (off + 4 * lenAt w) ((w :: ws).drop (lenAt w))
def natOps (t : Config.Translated) : List NatOp :=
  (((clausesOf t.text).flatMap fun c => (splitOps c.2.length (c.1 + 4) c.2).map fun o => (c.1, o)).zip t.places).map fun x =>
    { hdr := x.1.1, off := x.1.2.1, words := x.1.2.2, place := x.2 }
def NatOp.ins (o : NatOp) : Option Instr := match decode o.words with | .ok (i, _) => some i | .error _ => none
/-- The literal word of a Hinus `movi`, with a SEGADDR relocation resolved (R359); `sites`: byte offset of a literal and segment; `base`: the
first body word of the instruction's segment in the section. -/
def hinWords (t : Config.Translated) (sites : List (Nat × Nat)) (base : Nat) (h : HinOp) : List Word :=
  match sites.find? fun x => x.1 == 4 * (base + h.pos + 1) with
  | some x => h.native.set 1 (t.segs.getD x.2 0)
  | none => h.native
/-- Registers that a native instruction gives to the fields of its Hinus instruction: the fixed register itself for V below 128. -/
def fieldRegs (h : HinOp) (o : NatOp) : List (Nat × List HName × Bool) := h.fields.map fun f => (getField o.words f.1, f.2)
/-- A native instruction has the words of its Hinus instruction with registers in the fields, a terminator the offset to its segment; an
encoding fault becomes a word of major 0x7e (R362). -/
def wordsMatch (t : Config.Translated) (sites : List (Nat × Nat)) (base : Nat) (h : HinOp) (o : NatOp) : Bool :=
  let w := h.native.headD 0
  let target (seg : Nat) : Word := (t.segs.getD seg 0 - BitVec.ofNat 32 o.hdr).sshiftRight 2
  let ws := hinWords t sites base h
  let full := h.fields.foldl (fun ws f => putField ws f.1 (getField o.words f.1)) ws
  let full := if majorOf w = 0x31 || majorOf w = 0x34 then [(w &&& 0xfe000007) ||| ((target (bitsN w.toNat 24 3) &&& 0x3fffff) <<< 3)]
    else if majorOf w = 0x32 then [(w &&& 0xffe00007) ||| ((target (bitsN w.toNat 20 3) &&& 0x3ffff) <<< 3)] else full
  if h.bad || (match decode full with | .ok _ => false | .error _ => true) then (o.words.map fun x => majorOf x) == [0x7e] else o.words == full

/-- The effect of a native instruction on what its thread's storage holds, with whether it is one that a translator may put there. A guarded
instruction keeps, in the threads it passes over, what it would write. -/
def natStep (ops : List HinOp) (regs : Nat) (o : NatOp) (e : HEnv) : Bool × HEnv :=
  let always : Bool := (o.words.headD 0).extractLsb' 0 3 == 7
  let inRegs (r n : Nat) : Bool := decide (r + n ≤ regs ∨ (120 ≤ r ∧ r + n ≤ 128))
  match o.place.role, o.ins with
  | .own, _ =>
    match ops.find? fun h => h.pos == o.place.body with
    | none => (false, e)
    | some h =>
      if h.bad || o.words.length != h.native.length then (true, e)
      else
        let fs := fieldRegs h o
        let at' (f : Nat × List HName × Bool) : Bool := (List.range f.2.1.length).all fun j => e.get (f.1 + j) == f.2.1[j]?
        let fixed (f : Nat × List HName × Bool) : Bool := (List.range f.2.1.length).all fun j =>
          match f.2.1[j]? with | some n => if n.1 < 128 then n.1 == f.1 + j else decide (f.1 + j < 124) | none => true
        let ok := fs.all fun f => inRegs f.1 f.2.1.length && fixed f && ((f.2.2 && always) || at' f)
        (ok, (fs.filter (·.2.2)).foldl (fun e f => (List.range f.2.1.length).foldl (fun e j =>
          match f.2.1[j]? with | some n => e.write (f.1 + j) n | none => e) e) e)
  | .cut, some (.next _) => (always, e)
  | .move, some (.mov _ d (.g a)) => (always && inRegs d.toNat 1 && decide (d.toNat < 124), e.copy d.toNat (e.get a.toNat))
  | .zero v w, some (.movi _ d lit) => (always && lit == 0 && inRegs d.toNat 1 && decide (128 ≤ v ∧ w < 4 ∧ d.toNat < 124), e.copy d.toNat (some (v, w)))
  | .save k, some (.st _ sz _ (.g r)) => (always, (List.range (szRegs sz)).foldl (fun e j => e.copy (128 + k + j) (e.get (r.toNat + j))) e)
  | .load k, some (.ld _ sz _ d _) =>
    (always && inRegs d.toNat (szRegs sz) && decide (d.toNat + szRegs sz ≤ 124), (List.range (szRegs sz)).foldl (fun e j => e.copy (d.toNat + j) (e.get (128 + k + j))) e)
  | .frame, some (.addi _ 127 127 _) => (always, e)
  | .frame, some i =>
    (always && depClass i == some 0 && (gDests i).all fun g => decide (120 ≤ g.1 ∧ g.1 + g.2 ≤ 124),
      (gDests i).foldl (fun e g => (List.range g.2).foldl (fun e j => e.copy (g.1 + j) none) e) e)
  | _, _ => (false, e)
/-- A clause's worth of instructions, or a segment's. -/
def natRun (ops : List HinOp) (regs : Nat) (os : List NatOp) (e : HEnv) : Bool × HEnv :=
  os.foldl (fun r o => let x := natStep ops regs o r.2; (r.1 && x.1, x.2)) (true, e)

/-- The segments that follow a segment in its function, with what holds there; and whether what it hands over at its end is right. -/
def segAfter (fn : Nat → Nat) (nsegs k : Nat) (h : HinOp) (e : HEnv) : Bool × List (Nat × HEnv) :=
  let w := h.native.headD 0
  match (majorOf w).toNat with
  | 0x30 => (true, [(k + 1, e)])
  | 0x31 => (true, [(bitsN w.toNat 24 3, e)])
  | 0x32 => (true, [(bitsN w.toNat 20 3, e), (k + 1, e)])
  | 0x33 => (true, ((List.range nsegs).filter fun j => fn j == fn k).map fun j => (j, e))
  | 0x34 | 0x35 => (e.keeps argRegs, [(k + 1, e.called)])
  | 0x36 => (e.keeps retRegs, [])
  | _ => (true, [])
/-- What holds at the start of each segment: none for one not reached. -/
abbrev HFlow := List (Option HEnv)
def HFlow.join (f : HFlow) (x : Nat × HEnv) : HFlow :=
  match f.getD x.1 none with
  | none => f.set x.1 (some x.2)
  | some e => f.set x.1 (some (e.meet x.2))

/-- A Hinus section in the terms of its translation: the instructions of each segment, the word index of its body, the first segment of each
segment's function, and the registers that function has. -/
structure HinCode where
  segs : List (List HinOp)
  base : Nat → Nat
  fn : Nat → Nat
  regs : Nat → Nat
/-- The native instructions of a segment. -/
def natOf (l : List NatOp) (k : Nat) : List NatOp := l.filter fun o => o.place.seg == k
def flowOnce (c : HinCode) (l : List NatOp) (f : HFlow) : HFlow :=
  (List.range c.segs.length).foldl (fun f k =>
    match f.getD k none, (c.segs.getD k []).getLast? with
    | some e, some h => ((segAfter c.fn c.segs.length k h (natRun (c.segs.getD k []) (c.regs k) (natOf l k) e).2).2).foldl HFlow.join f
    | _, _ => f) f
def flowOf (c : HinCode) (l : List NatOp) : Nat → HFlow
  | 0 => (List.range c.segs.length).map fun k => if c.fn k == k then some HEnv.entry else none
  | n + 1 => flowOnce c l (flowOf c l n)
/-- Every Hinus instruction finds its operands where the translation has them, on every path (R364). -/
def flowOk (c : HinCode) (l : List NatOp) : Bool :=
  let f := flowOf c l (512 * c.segs.length)
  (List.range c.segs.length).all fun k =>
    match f.getD k none, (c.segs.getD k []).getLast? with
    | some e, some h =>
      let r := natRun (c.segs.getD k []) (c.regs k) (natOf l k) e
      r.1 && (segAfter c.fn c.segs.length k h r.2).1
    | _, _ => true
/-- A zero put into a virtual register stands for the zero it has at the start of its function (R361): in the first segment, to which nothing
of the function returns, before any write of the register. -/
def zeroOk (c : HinCode) (l : List NatOp) (o : NatOp) : Bool :=
  match o.place.role with
  | .zero v _ =>
    c.fn o.place.seg == o.place.seg
    && !((List.range c.segs.length).any fun k => c.fn k == c.fn o.place.seg && match (c.segs.getD k []).getLast? with
      | some h => ((segAfter c.fn c.segs.length k h []).2).any fun x => x.1 == o.place.seg
      | none => false)
    && !(l.any fun x => x.place.seg == o.place.seg && decide (x.off < o.off) && x.place.role == .own
      && ((c.segs.getD o.place.seg []).find? fun h => h.pos == x.place.body).any fun h => h.fields.any fun f => f.2.2 && f.2.1.any fun n => n.1 == v)
  | _ => true

/-! Order, clauses and timing of a translation (R363, R364, R346, R347). -/

/-- The register-only majors, which may move. -/
def movable (w : Word) : Bool :=
  let m := (majorOf w).toNat
  decide (m ≤ 0x23 ∨ m = 0x25 ∨ (0x40 ≤ m ∧ m ≤ 0x45) ∨ (0x48 ≤ m ∧ m ≤ 0x4c))
/-- An instruction that may write predicates, or reads a special register. -/
def writesP : Instr → Bool
  | .fsetp .. | .agree .. | .enq .. | .deq .. | .enqTry .. | .deqTry .. => true
  | i => depClass i == some 5
/-- Two instructions of a segment that have changed places: one may move, and neither writes what the other reads or writes. -/
def mayCross (a b : HinOp) : Bool :=
  let ins (h : HinOp) : Option Instr := (hinFields h.native).map (·.2)
  let names (h : HinOp) (p : Nat × List HName × Bool → Bool) : List HName := (h.fields.filter p).flatMap (·.2.1)
  let free (x y : HinOp) : Bool := !((names x (·.2.2)).any fun n => (names y fun _ => true).contains n)
  (movable (a.native.headD 0) || movable (b.native.headD 0)) && free a b && free b a
  && (match ins a, ins b with | some i, some j => !writesP i && !writesP j | _, _ => false)
/-- The Hinus instructions of a segment stand once each, in their order but for what may cross; the terminator closes the last clause, and
`next` every other. -/
def orderOk (ops : List HinOp) (os : List NatOp) : Bool :=
  let own := (os.filter fun o => o.place.role == .own).map (·.place.body)
  let idx (h : HinOp) : Nat := own.findIdx (· == h.pos)
  own.length == ops.length && (ops.all fun h => own.contains h.pos)
  && ((List.range ops.length).all fun i => (List.range i).all fun j =>
    match ops[j]?, ops[i]? with | some a, some b => decide (idx a < idx b) || mayCross a b | _, _ => false)
  && (match os.getLast?, ops.getLast? with | some o, some h => o.place.role == .own && o.place.body == h.pos | _, _ => false)
/-- A clause of a translation: legal, its waits 7, Y where it has a uniform instruction, at most 14 words before a `next` that cuts. -/
def clauseFits (t : Config.Translated) (off : Nat) (ws : List Word) (os : List NatOp) : Bool :=
  let h := t.text.getD (off / 4) 0
  let uniform := (splitOps ws.length 0 ws).any fun o => isUniform (o.2.headD 0) (o.2.getD 1 0)
  clauseOk h ws && bitsN h.toNat 18 7 == 0xfff && hY h == uniform
  && (match (os.filter fun o => o.hdr == off).getLast? with
      | some o => o.place.role != .cut || decide (ws.length ≤ 15)
      | none => false)
/-- Clauses that come after a clause of a translation. -/
def clauseNext (t : Config.Translated) (c : HinCode) (off : Nat) : List Nat :=
  let cs := clausesOf t.text
  match cs.find? fun x => x.1 == off with
  | none => []
  | some x =>
    let after := off + 4 + 4 * x.2.length
    match x.2.getLast? with
    | none => []
    | some w =>
      match (majorOf w).toNat with
      | 0x30 => [after]
      | 0x31 => directTargets off w
      | 0x32 => after :: directTargets off w
      | 0x33 => (List.range c.segs.length).map fun k => (t.segs.getD k 0).toNat
      | _ => []
/-- A result of a class is written before a later clause names its register: on every path an SB bit or the distance sees to it. -/
def resultSafe (t : Config.Translated) (c : HinCode) (cls : Nat) (span : Span) : Nat → Nat → Nat → Bool
  | 0, _, _ => true
  | n + 1, left, off =>
    (clauseNext t c off).all fun y =>
      let h := t.text.getD (y / 4) 0
      let ws := ((clausesOf t.text).find? fun x => x.1 == y).map (·.2) |>.getD []
      if hSb h cls || decide (left ≤ hStall h) then true
      else if (decodeAll 16 ws).any fun i => (gNamed i).any fun g => decide (g.1 < span.1 + span.2 ∧ span.1 < g.1 + g.2) then false
      else resultSafe t c cls span n (left - (hStall h + 1)) y
/-- STALL and SB are filled for the device's stepping. Predicates are taken as read by every clause. -/
def timingOk (t : Config.Translated) (c : HinCode) : Bool :=
  let cs := clausesOf t.text
  let full (off : Nat) : Bool := (List.range 6).all fun i => hSb (t.text.getD (off / 4) 0) i
  let heads := (List.range c.segs.length).filter fun k => c.fn k == k
  let indirect := cs.any fun x => x.2.getLast?.any fun w => majorOf w == 0x33
  (heads.all fun k => full (t.segs.getD k 0).toNat)
  && (!indirect || (List.range c.segs.length).all fun k => full (t.segs.getD k 0).toNat)
  && cs.all fun x =>
    (match x.2.getLast? with
     | some w => !(majorOf w == 0x34 || majorOf w == 0x35) || full (x.1 + 4 + 4 * x.2.length)
     | none => false)
    && (decodeAll 16 x.2).all fun i =>
      match depClass i with
      | none => true
      | some 5 => (clauseNext t c x.1).all fun y => hSb (t.text.getD (y / 4) 0) 5
      | some k => (gDests i).all fun g => resultSafe t c k g 32 (Config.latency k) x.1

/-- A section with its symbol records. -/
def hinCode (code : List Word) (syms : List Nat) : Option HinCode :=
  match segmentsFrom code.length 0 code with
  | none => none
  | some segs =>
    (segs.mapM fun g => hinOps (g.2.length + 1) 0 g.2).map fun l =>
      { segs := l
        base := fun k => (segs.getD k (0, [])).1
        fn := fun k => match ownerSym syms k with | some x => symTarget x | none => 0
        regs := fun k => match ownerSym syms k with | some x => symRegs x | none => 0 }
/-- What the translator may answer for a Hinus section (R361 to R364): `sites` are the literal words with a SEGADDR relocation, `stks` the STACK
that each symbol record gives. -/
def translationOk (c : HinCode) (sites : List (Nat × Nat)) (stks : List Nat) (t : Config.Translated) : Bool :=
  let cs := clausesOf t.text
  let l := natOps t
  let starts := t.segs.map (·.toNat)
  let segAt (off : Nat) : Nat := (starts.filter (fun x => decide (x ≤ off))).length - 1
  starts.length == c.segs.length && starts.headD 1 == 0 && decide (List.Pairwise (· < ·) starts) && starts.all (fun x => cs.any fun y => y.1 == x)
  && sumL (cs.map fun x => 1 + x.2.length) == t.text.length
  && t.places.length == sumL (cs.map fun x => (splitOps x.2.length 0 x.2).length)
  && l.all (fun o => o.place.seg == segAt o.hdr && zeroOk c l o)
  && cs.all (fun x => clauseFits t x.1 x.2 l)
  && (List.range c.segs.length).all (fun k => orderOk (c.segs.getD k []) (natOf l k))
  && l.all (fun o => o.place.role != .own || ((c.segs.getD o.place.seg []).find? fun h => h.pos == o.place.body).any fun h => wordsMatch t sites (c.base o.place.seg) h o)
  && flowOk c l && timingOk t c
  && t.stk.length == stks.length && (List.range stks.length).all fun k => decide (stks.getD k 0 ≤ (t.stk.getD k 0).toNat)

end Sys2Proof.Machine
end

