-- ==== Sys2Proof/Machine/Loader.lean ====
section
/-! DEFINITION. Loading a DQO object (R345, R353, R357 to R369): the checks of the file, Hinus segments, relocation, the call graph,
placement and commit. -/

namespace Sys2Proof.Machine

/-! The file (R357, Tables 17.1, 17.2). -/

/-- A value of n bytes at an offset of a file, zero beyond its end. -/
def fileNat (f : List Byte) (off n : Nat) : Nat := natOfBytes ((f.drop off).take n)
/-- A section: type, offset and size. -/
structure Sect where
  ty : Nat
  off : Nat
  size : Nat
deriving DecidableEq, Repr, Inhabited
def fileHeader (f : List Byte) : Nat := fileNat f 0 32
def fileSects (f : List Byte) : List Sect :=
  let h := fileHeader f
  (List.range (bitsN h 191 160)).map fun k =>
    let e := fileNat f (bitsN h 255 192 + 16 * k) 16
    { ty := bitsN e 7 0, off := bitsN e 127 64, size := bitsN e 63 32 }
def sectsOf (l : List Sect) (ty : Nat) : List Sect := l.filter fun x => x.ty == ty
/-- The bytes of the section of a type, empty where there is none. -/
def sectBytes (f : List Byte) (ty : Nat) : List Byte :=
  match sectsOf (fileSects f) ty with
  | [] => []
  | x :: _ => (f.drop x.off).take x.size
def isHin (f : List Byte) : Bool := bitsN (fileHeader f) 56 56 == 1
def fileStep (f : List Byte) : Nat := bitsN (fileHeader f) 55 48
def fileIlk (f : List Byte) : Bool := bitsN (fileHeader f) 57 57 == 1
/-- The header and section table are as R357 has them. -/
def headerOk (f : List Byte) : Bool :=
  let h := fileHeader f
  let l := fileSects f
  decide (32 ≤ f.length) && bitsN h 31 0 == 0x4f514401 && bitsN h 47 32 == 1 && bitsN h 159 58 == 0 && bitsN h 255 192 % 16 == 0
  && decide (1 ≤ bitsN h 191 160 ∧ bitsN h 191 160 ≤ 6) && decide (bitsN h 255 192 + 16 * bitsN h 191 160 ≤ f.length)
  && (!isHin f || fileStep f == 0)
  && ((List.range (bitsN h 191 160)).all fun k => bitsN (fileNat f (bitsN h 255 192 + 16 * k) 16) 31 8 == 0)
  && (l.all fun x => decide (1 ≤ x.ty ∧ x.ty ≤ 6) && x.off % 16 == 0 && decide (x.off + x.size ≤ f.length) && (sectsOf l x.ty).length == 1)
  && (sectsOf l 1).length == (if isHin f then 0 else 1) && (sectsOf l 3).length == (if isHin f then 1 else 0)

/-! Symbols and relocations (R358, R359, Tables 17.3, 17.4). -/

/-- The code of an object: the places that a symbol may name, the sites of literal words, and the edges of its control. -/
structure CodeMap where
  heads : List Nat
  sites : List Nat
  edges : List (Nat × Nat)
  nsegs : Nat
/-- A symbol record is well formed. -/
def symbolOk (m : CodeMap) (strings x : Nat) : Bool :=
  let sh := bitsN x 127 64
  bitsN x 7 1 == 0 && bitsN x 63 16 == 0 && bitsN x 159 128 == 0
  && decide (16 ≤ symRegs x ∧ symRegs x ≤ 128) && symRegs x % 8 == 0 && decide (bitsN x 223 192 < strings) && m.heads.contains (symTarget x)
  && (if symIsFn x then sh == 0 && bitsN x 255 224 == 0 else bitsN sh 63 41 == 0 && !shapeBad (sh - bitsN sh 40 35 * 2 ^ 35))
/-- A relocation record is well formed. -/
def relocOk (hin : Bool) (m : CodeMap) (x : Nat) : Bool :=
  bitsN x 63 40 == 0 && decide (bitsN x 39 32 ≤ 2) && m.sites.contains (bitsN x 31 0)
  && (bitsN x 39 32 != 2 || (hin && decide (bitsN x 127 64 < m.nsegs)))
/-- LO and HI relocations of a code section for the data's address. -/
def relocate (dbase : DWord) (rs : List Nat) (code : List Word) : List Word :=
  rs.foldl (fun ws x =>
    let v := dbase + BitVec.ofNat 64 (bitsN x 127 64)
    if bitsN x 39 32 = 0 then ws.set (bitsN x 31 0 / 4) (v.setWidth 32)
    else if bitsN x 39 32 = 1 then ws.set (bitsN x 31 0 / 4) (v.extractLsb' 32 32) else ws) code

/-! The register budget (R353, R358). -/

/-- One round of the reach of some symbols over the call graph. -/
def reachOnce (syms : List Nat) (edges : List (Nat × Nat)) (l : List Nat) : List Nat :=
  (l ++ edges.filterMap fun e =>
    match ownerSym syms e.1 with
    | some x => if l.contains x then ownerSym syms e.2 else none
    | none => none).eraseDups
def reach (syms : List Nat) (edges : List (Nat × Nat)) : Nat → List Nat → List Nat
  | 0, l => l
  | n + 1, l => reach syms edges n (reachOnce syms edges l)
/-- No entry reaches a function of more registers than its own. -/
def budgetOk (syms : List Nat) (edges : List (Nat × Nat)) : Bool :=
  (syms.filter fun x => !symIsFn x).all fun e =>
    (reach syms edges syms.length [e]).all fun x => !symIsFn x || decide (symRegs x ≤ symRegs e)

/-! The load (R367, R368). -/

/-- The translation of a section: the translator's, where it is one. -/
def translate (code : List Word) (rels syms : List Nat) : Option Config.Translated :=
  let sites := (rels.filter fun x => bitsN x 39 32 == 2).map fun x => (bitsN x 31 0, bitsN x 127 64)
  match hinCode code syms, Config.hinusTranslate code sites (syms.map (BitVec.ofNat 256)) with
  | some c, some t => if translationOk c sites (syms.map fun x => bitsN x 255 224) t then some t else none
  | _, _ => none
/-- Text, the entries' offsets and stacks, and the map of a translated object from each native word to its segment and body word (R365),
once built. -/
structure Built where
  text : List Word
  entries : List (Word × Word)
  map : List (Nat × Nat × Nat)
/-- Steps 1 and 2 with the relocations of step 4: a status of Table 17.7, or what is to be placed. -/
def buildObject (f : List Byte) (dbase : DWord) : Except (BitVec 8) Built :=
  if !headerOk f then .error 1
  else
    let code := wordsOfBytes (sectBytes f (if isHin f then 3 else 1))
    let syms := recordsOf (sectBytes f 4) 32
    let rels := recordsOf (sectBytes f 5) 16
    let map : Option CodeMap :=
      if isHin f then (readHinus code).map fun r => { heads := List.range r.1, sites := r.2.1, edges := r.2.2, nsegs := r.1 }
      else some { heads := (clausesOf code).map (·.1), sites := clauseSites code, edges := textEdges code, nsegs := 0 }
    match map with
    | none => .error 1
    | some m =>
      if (sectBytes f 4).length % 32 != 0 || (sectBytes f 5).length % 16 != 0 || !(syms.all (symbolOk m (sectBytes f 6).length))
          || !rels.all (relocOk (isHin f) m) || syms.all symIsFn then .error 1
      else if !budgetOk syms m.edges then .error 3
      else
        let code := relocate dbase rels code
        if isHin f then
          match translate code rels syms with
          | none => .error 3
          | some t =>
            .ok { text := t.text
                  map := (natOps t).flatMap fun o => (List.range o.words.length).map fun k => (o.off + 4 * k, o.place.seg, o.place.body)
                  entries := ((List.range syms.length).filter fun k => !symIsFn (syms.getD k 0)).map fun k =>
                    (t.segs.getD (symTarget (syms.getD k 0)) 0, t.stk.getD k 0) }
        else .ok { text := code, map := [], entries := (syms.filter fun x => !symIsFn x).map fun x => (BitVec.ofNat 32 (symTarget x), BitVec.ofNat 32 (bitsN x 255 224)) }
/-- An offset put into an ascending list without repeats. -/
def insertEntry (e : Word) : List Word → List Word
  | [] => [e]
  | x :: l => if e < x then e :: x :: l else if e = x then x :: l else x :: insertEntry e l
/-- Bytes written by the driver into memory that a partition maps, under the key of its page (R412). -/
def State.drvWrite (s : State) (part : BitVec 6) (va : DWord) (pa : BitVec 56) (bs : List Byte) : State :=
  let key := match walk s part va.toNat with | .ok (l, _) => l.key | .error _ => 0
  (List.range bs.length).foldl (fun s k => s.putHome (pa.toNat + k) (bs.getD k 0) key) s
/-- A range of a partition's addresses is mapped, page by page, onto consecutive memory that the partition owns, execute-only or not. -/
def State.mapsAs (s : State) (part : BitVec 6) (va pa n : Nat) (xo : Bool) : Bool :=
  va % 65536 == 0 && (List.range ((n + 65535) / 65536)).all fun k =>
    match walk s part (va + 65536 * k) with
    | .ok (l, size) => l.pa + (va + 65536 * k) % size == pa + 65536 * k && l.xo == xo && l.owner == part
    | .error _ => false
/-- Step 5 for a built object: pages mapped, text execute-only and data not (R366), the parts in place, the slot written; OBJLIVE's checks
made; none where it cannot be. -/
def State.commitObject (s : State) (r : LoadRequest) (b : Built) : Option (State × Word) :=
  match s.objSlot r.part (r.slot.setWidth 32) with
  | none => none
  | some a =>
    if s.objField a 1 0 != 0 then none
    else
      let offs := b.entries.foldl (fun l e => insertEntry e.1 l) []
      let s : State := { s with mem := r.ptes.foldl (fun m p => wrNat m p.1.toNat 16 p.2.toNat) s.mem }
      let s := s.drvWrite r.part r.textVa r.textPa (b.text.flatMap fun w => bytesOfNat 4 w.toNat)
      let s := s.drvWrite r.part r.dataVa r.dataPa (sectBytes r.file 2)
      let s := s.drvWrite r.part r.entVa r.entPa (offs.flatMap fun w => bytesOfNat 4 w.toNat)
      let s : State := { s with mem := wrNat (wrNat (wrNat (wrNat s.mem (a + 8) 4 (4 * b.text.length)) (a + 12) 4 offs.length) (a + 16) 8 r.textVa.toNat)
                                  (a + 24) 8 r.entVa.toNat }
      if s.liveOk r.part a && s.mapsAs r.part r.textVa.toNat r.textPa.toNat (4 * b.text.length) true
          && s.mapsAs r.part r.dataVa.toNat r.dataPa.toNat (sectBytes r.file 2).length false
          && s.mapsAs r.part r.entVa.toNat r.entPa.toNat (4 * offs.length) false then
        some (s.setObjState a 1, BitVec.ofNat 32 (s.objField a 31 24 * 2 ^ 24 + r.slot.toNat))
      else none
/-- Whether an object runs in scheduled mode (R345, R357). -/
def scheduledMode (r : LoadRequest) : Bool :=
  !r.interlocked && !fileIlk r.file && (isHin r.file || fileStep r.file == Config.stepping.toNat)
/-- OBJECT_LOAD: a load that fails leaves nothing but its status. -/
def objectLoad (r : LoadRequest) (s : State) : State :=
  let fail (st : BitVec 8) : State := { s with lastLoad := some { status := st, handle := 0, entries := [], map := [] } }
  match buildObject r.file r.dataVa with
  | .error st => fail st
  | .ok b =>
    if r.heapPages < (4 * b.text.length + 65535) / 65536 then fail 2
    else
      match s.commitObject r b with
      | none => fail 2
      | some (s, h) =>
        { s with lastLoad := some { status := 0, handle := h, entries := b.entries, map := b.map }
                 schedObjs := s.schedObjs.filter (fun o => o != (r.part, h)) ++ (if scheduledMode r then [(r.part, h)] else []) }
def execObjectLoad (r : LoadRequest) (s : State) : Out := .next (objectLoad r s).tick

end Sys2Proof.Machine
end

