-- ==== Sys2Proof/Machine/Registers.lean ====
section
/-! DEFINITION. Writes to the register windows (R7, R372, R382, R391, R393, R400, R406, R407, R418, R419, R421): a register with a
behaviour of its own takes its own step; any other stores its value; reserved bits are ignored. -/

namespace Sys2Proof.Machine

/-- A write that stores bits of its value. -/
def putFr (fn off : Nat) (mask v : DWord) (s : State) : Out := .next (s.setFr fn off (v &&& mask)).tick
def putPr (p : BitVec 6) (off : Nat) (mask v : DWord) (s : State) : Out := .next (s.setPr p off (v &&& mask)).tick
/-- A write that changes nothing: a read-only or absent register. -/
def noWrite (s : State) : Out := .next s.tick

/-- Registers that a partition's lead function reaches (Tables 18.10, 19.3, 20.3), by their lead-window offsets. -/
def partWrite (p : BitVec 6) (off : Nat) (v : DWord) (s : State) : Out :=
  if 0x4000 ≤ off && decide (off < 0x4100) then
    (if off % 16 = 0 then execWindowEntryInstall p ((off - 0x4000) / 16) v s
     else if off % 16 = 8 then execWindowEntryStage p ((off - 0x4000) / 16) v s else noWrite s)
  else if 0x5400 ≤ off && decide (off < 0x5480) then
    (if off % 16 = 0 then (if (s.pr p (off + 8)).getLsbD 31 || s.hasLaunch p then noWrite s else putPr p off 0xffffffffffff0000 v s)
     else if off % 16 = 8 then execRactlWrite p ((off - 0x5400) / 16) (v.setWidth 32) s else noWrite s)
  else
    match off with
    | 0x5000 => putPr p off 0xffffffffffffffff v s
    | 0x5008 => execTlbinv p v s
    | 0x5010 => execPrinv p (v.setWidth 32) s
    | 0x5100 => putPr p off 0xffffffffffffffe0 v s
    | 0x5108 => execRingCtlWrite (.fault p) (v.setWidth 32) s
    | 0x510c => execRingHeadWrite (.fault p) (v.setWidth 32) s
    | 0x5200 => putPr p off 0xffffffffffffffe0 v s
    | 0x5208 => execRingCtlWrite (.event p) (v.setWidth 32) s
    | 0x520c => execRingHeadWrite (.event p) (v.setWidth 32) s
    | 0x5300 => execPrtbaseWrite p false v s
    | 0x5308 => execPrtbaseWrite p true v s
    | 0x5500 => execVtbaseWrite p v s
    | 0x5600 => putPr p off 0x3fffffff000 v s
    | 0x5608 => putPr p off 0xffffff v s
    | _ => noWrite s

/-- Registers that every function has (Table 18.1). -/
def fnWrite (fn : Fn) (off : Nat) (v : DWord) (s : State) : Out :=
  let f := fnNum fn
  if 0x1000 ≤ off && decide (off < 0x1200) then
    (match off % 0x20 with
     | 0x0 => putFr f off 0xffffffffffffff80 v s
     | 0x8 => execSqctlWrite f ((off - 0x1000) / 0x20) (v.setWidth 32) s
     | 0xc => execSqtailWrite f ((off - 0x1000) / 0x20) (v.setWidth 32) s
     | _ => noWrite s)
  else
    match off with
    | 0x10 => putFr f off 0xffffffff v s
    | 0x100 => s.writeCmd fn v
    | 0x108 => putFr f off 0xffffffffffffffff v s
    | 0x110 => putFr f off 0xffffffffffffffff v s
    | _ => noWrite s

/-- A write of BHCFG: a change of ASSIGNED or PART, then the reset that RST asks for (R391, R392, R398). -/
def bhcfgWrite (b : Nat) (v : DWord) (s : State) : State :=
  let s := partitionChange b (v.getLsbD 7) (v.extractLsb' 0 6) s
  if v.getLsbD 29 then s.bhReset b 0 else s
/-- A write of KEYCTL: its operation on its slot (R413). -/
def keyctlWrite (v : DWord) (s : State) : Out :=
  if v.extractLsb' 12 2 = (1 : BitVec 2) then execKeyLoad (v.extractLsb' 0 9) s
  else if v.extractLsb' 12 2 = (2 : BitVec 2) then execKeyClear (v.extractLsb' 0 9) s else noWrite s

/-- Registers that only the PF has. -/
def pfWrite (off : Nat) (v : DWord) (s : State) : Out :=
  if 0x8000 ≤ off && decide (off < 0xa000) then partWrite s.partSel (off - 0x4000) v s
  else if 0xa000 ≤ off && decide (off < 0xa400) then
    (if off % 16 = 0 then execSliceEntryStage (BitVec.ofNat 6 ((off - 0xa000) / 16)) v s
     else if off % 16 = 8 then execSliceEntryInstall (BitVec.ofNat 6 ((off - 0xa000) / 16)) v s else noWrite s)
  else if 0x2000 ≤ off && decide (off < 0x2080) && off % 4 = 0 then putFr 384 off 0xffffffff v s
  else if 0x3000 ≤ off && decide (off < 0x3180) && off % 8 = 0 then .next (bhcfgWrite ((off - 0x3000) / 8) v s).tick
  else if 0x6100 ≤ off && decide (off < 0x6148) && off % 8 = 0 then
    .next (State.tick { s with keyBlob := (s.keyBlob &&& ~~~((0xffffffffffffffff : BitVec 576) <<< (8 * (off - 0x6100)))) ||| (v.setWidth 576 <<< (8 * (off - 0x6100))) })
  else if 0x7100 ≤ off && decide (off < 0x7180) && off % 8 = 0 then putFr 384 off 0x8000ffff v s
  else if 0x7300 ≤ off && decide (off < 0x7700) then
    (if off % 16 = 0 then putFr 384 off 0xc03f00ff v s else if off % 16 = 8 then putFr 384 off 0xffffffffffff v s else noWrite s)
  else
    match off with
    | 0x3200 => .next (State.tick { s with frameSel := v &&& 0xffffe00000 })
    | 0x3208 => execFrameownWrite (v.setWidth 32) s
    | 0x3300 => .next (State.tick { s with partSel := v.setWidth 6 })
    | 0x6000 => keyctlWrite v s
    | 0x7200 => putFr 384 off 0xffffffffffffffe0 v s
    | 0x7208 => execRingCtlWrite .error (v.setWidth 32) s
    | 0x720c => execRingHeadWrite .error (v.setWidth 32) s
    | 0x7800 => execInjWrite (s.inj.extractLsb' 64 64 ++ v) s
    | 0x7808 => execInjWrite (v ++ s.inj.extractLsb' 0 64) s
    | _ => fnWrite .pf off v s

/-- REGISTER_WRITE: the window of a function. A virtual function reaches its partition's registers only as its lead (R396, R406). -/
def execRegisterWrite (fn : Fn) (off : BitVec 16) (v : DWord) (s : State) : Out :=
  match fn with
  | .pf => pfWrite off.toNat v s
  | .vf f =>
    if 0x4000 ≤ off.toNat && decide (off.toNat < 0x6000) then
      match s.vfPartOf f with
      | some p => if s.leadFn p == some (.vf f) then partWrite p off.toNat v s else noWrite s
      | none => noWrite s
    else fnWrite fn off.toNat v s

end Sys2Proof.Machine
end

