-- ==== Sys2Proof/Machine/Agenda.lean ====
section
/-! DEFINITION. Running a device step that the agenda holds: the same meanings as the arms of `exec` (Laws/Agenda.lean shows it,
constructor by constructor). -/

namespace Sys2Proof.Machine

/-- A device step of the agenda happens. -/
def runEv (e : Ev) (s : State) : Out :=
  match e with
  | .stringIssue core picker => Sys2Proof.Machine.execStringIssue core picker s
  | .sleepExpiry th => Sys2Proof.Machine.execSleepExpiry th s
  | .hitchFireComplete blk wheel h => Sys2Proof.Machine.execHitchFireComplete blk wheel h s
  | .loadReturn id => Sys2Proof.Machine.execLoadReturn id s
  | .storeAccept id => Sys2Proof.Machine.execStoreAccept id s
  | .releaseComplete id => Sys2Proof.Machine.execReleaseComplete id s
  | .writeBack id => Sys2Proof.Machine.execWriteBack id s
  | .invalidation id agent => Sys2Proof.Machine.execInvalidation id agent s
  | .invalidationAck id agent => Sys2Proof.Machine.execInvalidationAck id agent s
  | .l1Eviction core line => Sys2Proof.Machine.execL1Eviction core line s
  | .evictionNotice agent line => Sys2Proof.Machine.execEvictionNotice agent line s
  | .directoryDrop line => Sys2Proof.Machine.execDirectoryDrop line s
  | .discovery line => Sys2Proof.Machine.execDiscovery line s
  | .l2ReadRequest id => Sys2Proof.Machine.execL2ReadRequest id s
  | .atomicAtHome id => Sys2Proof.Machine.execAtomicAtHome id s
  | .updateLineMerge core line => Sys2Proof.Machine.execUpdateLineMerge core line s
  | .remoteAccess id => Sys2Proof.Machine.execRemoteAccess id s
  | .ntStoreAck id => Sys2Proof.Machine.execNtStoreAck id s
  | .hostAccess write pa sz data => Sys2Proof.Machine.execHostAccess write pa sz data s
  | .viewLineCompose id => Sys2Proof.Machine.execViewLineCompose id s
  | .viewStoreCheck id => Sys2Proof.Machine.execViewStoreCheck id s
  | .viewStoreScatter id => Sys2Proof.Machine.execViewStoreScatter id s
  | .viewStoreAck id => Sys2Proof.Machine.execViewStoreAck id s
  | .queueRequest id => Sys2Proof.Machine.execQueueRequest id s
  | .queueRequestResend id => Sys2Proof.Machine.execQueueRequestResend id s
  | .queueWithdrawal id => Sys2Proof.Machine.execQueueWithdrawal id s
  | .queueRequestComplete id => Sys2Proof.Machine.execQueueRequestComplete id s
  | .gatherRowReturn id => Sys2Proof.Machine.execGatherRowReturn id s
  | .copyChunk die engine => Sys2Proof.Machine.execCopyChunk die engine s
  | .copyComplete id => Sys2Proof.Machine.execCopyComplete id s
  | .copyCommandRead id => Sys2Proof.Machine.execCopyCommandRead id s
  | .joinDecrement part handle => Sys2Proof.Machine.execJoinDecrement part handle s
  | .relayPost id => Sys2Proof.Machine.execRelayPost id s
  | .launchPacket vf q => Sys2Proof.Machine.execLaunchPacket vf q s
  | .launchExpansion launch die => Sys2Proof.Machine.execLaunchExpansion launch die s
  | .recordGenerationResume launch die => Sys2Proof.Machine.execRecordGenerationResume launch die s
  | .blockAdmission bulkhead => Sys2Proof.Machine.execBlockAdmission bulkhead s
  | .blockSave blk => Sys2Proof.Machine.execBlockSave blk s
  | .blockSaveComplete blk => Sys2Proof.Machine.execBlockSaveComplete blk s
  | .blockRestore bulkhead => Sys2Proof.Machine.execBlockRestore bulkhead s
  | .blockRetire blk => Sys2Proof.Machine.execBlockRetire blk s
  | .launchComplete launch => Sys2Proof.Machine.execLaunchComplete launch s
  | .preemptTimeout blk => Sys2Proof.Machine.execPreemptTimeout blk s
  | .storeFault th cause addr pc => Sys2Proof.Machine.execStoreFault th cause addr pc s
  | .readAheadDiscard pa => Sys2Proof.Machine.execReadAheadDiscard pa s
  | .containedRelaunch blk => Sys2Proof.Machine.execContainedRelaunch blk s
  | .commitStoreRelease blk => Sys2Proof.Machine.execCommitStoreRelease blk s
  | .signatureCompare blk team => Sys2Proof.Machine.execSignatureCompare blk team s
  | .loadValueEntry id => Sys2Proof.Machine.execLoadValueEntry id s
  | .pendingMatrixOpBegin blk wheel id => Sys2Proof.Machine.execPendingMatrixOpBegin blk wheel id s
  | .matrixOpComplete blk wheel id => Sys2Proof.Machine.execMatrixOpComplete blk wheel id s
  | .factorisationColumn blk wheel => Sys2Proof.Machine.execFactorisationColumn blk wheel s
  | .pageWalk walker va write => Sys2Proof.Machine.execPageWalk walker va write s
  | .faultRecordPost part => Sys2Proof.Machine.execFaultRecordPost part s
  | .sqtailWrite vf q v => Sys2Proof.Machine.execSqtailWrite vf q v s
  | .sqctlWrite vf q v => Sys2Proof.Machine.execSqctlWrite vf q v s
  | .preempt fn arg => Sys2Proof.Machine.execPreempt fn arg s
  | .resume fn arg => Sys2Proof.Machine.execResume fn arg s
  | .cancel fn arg => Sys2Proof.Machine.execCancel fn arg s
  | .trapreplyRetry fn arg => Sys2Proof.Machine.execTrapreplyRetry fn arg s
  | .trapreplySkip fn arg => Sys2Proof.Machine.execTrapreplySkip fn arg s
  | .trapreplyKill fn arg => Sys2Proof.Machine.execTrapreplyKill fn arg s
  | .codeinval fn => Sys2Proof.Machine.execCodeinval fn s
  | .objlive fn arg => Sys2Proof.Machine.execObjlive fn arg s
  | .objunload fn arg => Sys2Proof.Machine.execObjunload fn arg s
  | .objfree fn arg => Sys2Proof.Machine.execObjfree fn arg s
  | .objectLoad r => Sys2Proof.Machine.execObjectLoad r s
  | .ractlWrite part die v => Sys2Proof.Machine.execRactlWrite part die v s
  | .relayAreaFillComplete part die => Sys2Proof.Machine.execRelayAreaFillComplete part die s
  | .vtbaseWrite part v => Sys2Proof.Machine.execVtbaseWrite part v s
  | .viewTableFillComplete part => Sys2Proof.Machine.execViewTableFillComplete part s
  | .prtbaseWrite part ctl v => Sys2Proof.Machine.execPrtbaseWrite part ctl v s
  | .prinv part v => Sys2Proof.Machine.execPrinv part v s
  | .tlbinv part v => Sys2Proof.Machine.execTlbinv part v s
  | .invalidationComplete part => Sys2Proof.Machine.execInvalidationComplete part s
  | .ringHeadWrite r v => Sys2Proof.Machine.execRingHeadWrite r v s
  | .ringCtlWrite r v => Sys2Proof.Machine.execRingCtlWrite r v s
  | .bulkheadReset b => Sys2Proof.Machine.execBulkheadReset b s
  | .bulkheadResetDone b ok => Sys2Proof.Machine.execBulkheadResetDone b ok s
  | .bulkheadHwFault b => Sys2Proof.Machine.execBulkheadHwFault b s
  | .partitionChange b assigned part => Sys2Proof.Machine.execPartitionChange b assigned part s
  | .frameownWrite v => Sys2Proof.Machine.execFrameownWrite v s
  | .frameownChangeComplete frame => Sys2Proof.Machine.execFrameownChangeComplete frame s
  | .windowEntryStage part w hi => Sys2Proof.Machine.execWindowEntryStage part w hi s
  | .windowEntryInstall part w lo => Sys2Proof.Machine.execWindowEntryInstall part w lo s
  | .sliceEntryStage e lo => Sys2Proof.Machine.execSliceEntryStage e lo s
  | .sliceEntryInstall e hi => Sys2Proof.Machine.execSliceEntryInstall e hi s
  | .gangSliceStart e => Sys2Proof.Machine.execGangSliceStart e s
  | .gangReady e pkg => Sys2Proof.Machine.execGangReady e pkg s
  | .gangGraceExpiry e => Sys2Proof.Machine.execGangGraceExpiry e s
  | .gangSliceEnd e => Sys2Proof.Machine.execGangSliceEnd e s
  | .keyLoad slot => Sys2Proof.Machine.execKeyLoad slot s
  | .keyClear slot => Sys2Proof.Machine.execKeyClear slot s
  | .injWrite v => Sys2Proof.Machine.execInjWrite v s
  | .registerWrite fn off v => Sys2Proof.Machine.execRegisterWrite fn off v s
  | .scrubSector controller sector found => Sys2Proof.Machine.execScrubSector controller sector found s
  | .linkRetry die link ok => Sys2Proof.Machine.execLinkRetry die link ok s
  | .linkRetraining die link => Sys2Proof.Machine.execLinkRetraining die link s
  | .telemetrySample power temps => Sys2Proof.Machine.execTelemetrySample power temps s
  | .heartbeatMiss pkg => Sys2Proof.Machine.execHeartbeatMiss pkg s
  | .agentLoss agent => Sys2Proof.Machine.execAgentLoss agent s
  | .agentRejoin agent => Sys2Proof.Machine.execAgentRejoin agent s
  | .directorySweep home agent => Sys2Proof.Machine.execDirectorySweep home agent s
  | .coldReset => Sys2Proof.Machine.execColdReset s
  | .getVersion => Sys2Proof.Machine.execGetVersion s
  | .getCapabilities => Sys2Proof.Machine.execGetCapabilities s
  | .negotiateAlgorithms algs => Sys2Proof.Machine.execNegotiateAlgorithms algs s
  | .getDigests => Sys2Proof.Machine.execGetDigests s
  | .getCertificate slot off len => Sys2Proof.Machine.execGetCertificate slot off len s
  | .challenge nonce => Sys2Proof.Machine.execChallenge nonce s
  | .getMeasurements nonce => Sys2Proof.Machine.execGetMeasurements nonce s
  | .keyExchange pub => Sys2Proof.Machine.execKeyExchange pub s
  | .finish verify => Sys2Proof.Machine.execFinish verify s
  | .pendingResultWritten th k => Sys2Proof.Machine.execPendingResultWritten th k s
  | .memoryBulkheadFatal die => Sys2Proof.Machine.execMemoryBulkheadFatal die s
  | .keySlotBusyClear => Sys2Proof.Machine.execKeySlotBusyClear s
  | .commandTakesEffect fn => Sys2Proof.Machine.execCommandTakesEffect fn s
  | .vendorDefinedMessage body => Sys2Proof.Machine.execVendorDefinedMessage body s

end Sys2Proof.Machine
end

