-- ==== Sys2Proof/Machine/Fetch.lean ====
section
/-! DEFINITION. What the next step of the machine can be, and how a string's next word is fetched (R16, R20, R203, R214, R218,
R221). Which of several possible steps happens is a free choice (notes/assumptions/2.md). -/

namespace Sys2Proof.Machine

/-- Something that can happen next: an entry of the agenda, the next word of a string in progress, or a step that no record waits
for (an issue opportunity, an eviction, the loss of a directory entry). -/
inductive Cand where
  | agenda (k : Nat)
  | word (k : Nat)
  | free (e : Ev)
deriving DecidableEq, Repr, Inhabited

/-- A leader thread that is ahead of its wheeler by more than the slack of R203. -/
def State.ahead (s : State) (t : Thread) : Bool :=
  match s.thread? { t.id with wheel := true } with
  | some w => decide (w.done + Config.slack < t.done)
  | none => false
/-- The leader team of a member of a string stalls (R203). -/
def State.slackOver (s : State) (id : ThreadId) : Bool :=
  s.isRed id.blk && !id.wheel && s.threads.any fun t => sameTeam t.id id && s.ahead t

/-- Cache evictions, eviction notices and dropped directory entries may happen at any time (R79, R85, R86), and so may the writing of
a result that is pending (R218). -/
def State.spontaneous (s : State) : List Ev :=
  (((s.l1.map fun b => (b.core, lineOf b.pa)) ++ s.upd.map fun u => (u.core, lineOf u.pa)).eraseDups.map fun p => .l1Eviction p.1 p.2)
  ++ (s.guests.map fun g => .evictionNotice g.agent g.line)
  ++ (s.dir.map fun d => .directoryDrop d.line)
  ++ s.threads.flatMap fun t => (List.range t.pend.length).map fun i => .pendingResultWritten t.id i

/-- The k-th string brought to the head of the list, where the meanings of words find it. -/
def State.focus (s : State) (k : Nat) : State :=
  match s.strings[k]? with
  | some c => { s with strings := c :: s.strings.eraseIdx k }
  | none => s

/-- The words at a string's address: the second one reads as zero where the text ends. -/
def State.wordsAt (s : State) (c : Str) : Option (List Word) :=
  match s.textWord c.core c.part c.obj c.pc.toNat with
  | none => none
  | some w => some [w, (s.textWord c.core c.part c.obj (c.pc.toNat + 4)).getD 0]

/-- A terminator's major (R223). -/
def isTerm (w : Word) : Bool := decide (0x30 ≤ (majorOf w).toNat ∧ (majorOf w).toNat ≤ 0x37)

/-- What the head string's next word is. -/
inductive Fetched where
  | ins (i : Instr)
  | fault (cause : Cause) (len : Nat) (more : Bool)
deriving DecidableEq, Repr

/-- The head string's next word, decoded (R214, R221). -/
def State.fetch (s : State) (c : Str) : Fetched :=
  match s.wordsAt c with
  | none => .fault .xlate 1 true
  | some ws =>
    match decode ws with
    | .ok (i, _) => .ins i
    | .error _ => .fault .illegalOp (if isTwoWord (ws.headD 0) then 2 else 1) (!isTerm (ws.headD 0))

/-- A word that a team performs once, or that names a yoke register (R24, R242). -/
def yokeWord (i : Instr) : Bool :=
  (match encode i with | w :: ws => isUniform w (ws.headD 0) | [] => false) || !(yNamed i).isEmpty
/-- A string whose word must wait for an older one of a team, the clause of which holds uniform words (R242). -/
def State.yokeWaits (s : State) (c : Str) : Bool :=
  (s.strings.any fun x => decide (x.seq < c.seq) && hY x.hdr && c.members.any fun a => x.members.any (sameTeam a))
  && (match s.fetch c with | .ins i => yokeWord i | .fault .. => false)
/-- A string whose next word may issue: not behind releases that its last word began, in time with its wheelers (R203), and in its
teams' order (R242). -/
def State.mayIssue (s : State) (c : Str) : Bool :=
  !(c.hold.any fun n => s.rels.any fun r => r.id == n) && !c.members.any s.slackOver && !s.yokeWaits c
/-- Everything that can happen next. -/
def State.cands (s : State) : List Cand :=
  (List.range s.agenda.length).map .agenda
  ++ ((List.range s.strings.length).filter fun k => s.mayIssue (s.strings.getD k default)).map .word
  ++ (s.pickersReady.map fun p => .free (.stringIssue p.1 p.2))
  ++ (s.dispatchable.map .free)
  ++ s.spontaneous.map .free

/-- The threads of a word that names the status register of a completed copy use it for the first time (R92). -/
def State.useCopies (s : State) (i : Instr) (c : Str) : State :=
  if s.copyDone.isEmpty then s
  else (s.actors (guardOf i) c).foldl (fun s id => s.useCopy id fun r => (gWaited i).any fun x => decide (x.1 ≤ r.toNat ∧ r.toNat < x.1 + x.2)) s

end Sys2Proof.Machine
end

