-- ==== Sys2Proof/Machine/Counters.lean ====
section
/-! DEFINITION. The operator's event counters (R421): what a step of the machine counts. No instruction reads them. -/

namespace Sys2Proof.Machine

/-- Something counted: its source, the die and the partition it is laid to where the spec says which, how many. -/
structure Tally where
  src : Nat
  die : Option Nat
  part : Option (BitVec 6)
  n : Nat
deriving DecidableEq, Repr

/-- What a device step counts, by the states before and after it. -/
def evTallies (e : Ev) (s t : State) : List Tally :=
  match e with
  | .stringIssue core _ =>
    if t.strings.length = s.strings.length + 1 then
      (let p := t.strings.getLast?.map (·.part)
       [{ src := 2, die := some (dieOfCore core), part := p, n := 1 }, { src := 3, die := some (dieOfCore core), part := p, n := 1 }])
    else []
  | .discovery line => [{ src := 9, die := some (dieOf (128 * line)), part := none, n := 1 }]
  | .invalidation id _ =>
    match s.merges.find? fun m => m.wb.id == id with
    | some m => [{ src := 10, die := m.wb.cells.head?.map fun c => dieOf c.1, part := none, n := 1 }]
    | none => []
  | .copyChunk die _ =>
    let chunks (x : State) : Nat := (x.copies.map (·.done)).sum
    [{ src := 11, die := some die, part := none, n := chunks t - chunks s }]
  | .queueRequest id =>
    match s.qreqs.find? (fun r => r.id == id), t.qreqs.find? (fun r => r.id == id) with
    | some a, some b => if !a.waiting && b.waiting then [{ src := 12, die := some (dieOf b.qcbPa), part := some b.part, n := 1 }] else []
    | _, _ => []
  | .scrubSector c _ f =>
    if (s.fr 384 (0x7100 + 8 * (c % 16))).getLsbD 31 then
      { src := 15, die := some (c / 2 % 8), part := none, n := 1 }
        :: (if f == .corrected then [{ src := 14, die := some (c / 2 % 8), part := none, n := 1 }] else [])
    else []
  | .linkRetry die _ true => [{ src := 14, die := some die, part := none, n := 1 }]
  | .blockSaveComplete b =>
    match s.block? b, t.block? b with
    | some x, some y => if x.state == .saving && y.state != .saving then [{ src := 16, die := some (dieOfCore x.core), part := some x.part, n := 1 }] else []
    | _, _ => []
  | .signatureCompare b _ =>
    match s.block? b, t.block? b with
    | some x, some y => if !x.rolling && y.rolling then [{ src := 17, die := some (dieOfCore x.core), part := some x.part, n := 1 }] else []
    | _, _ => []
  | _ => []
/-- Records an event log has taken or dropped between two states. -/
def State.logged (s t : State) (p : BitVec 6) : Nat :=
  let n := 2 ^ bitsN (s.pr p 0x5208).toNat 4 0
  ((t.pr p 0x5210).toNat + n - (s.pr p 0x5210).toNat) % n + (bitsN (t.pr p 0x5208).toNat 15 8 - bitsN (s.pr p 0x5208).toNat 15 8)
/-- What any step counts: cycles, denied reads, page walks, errors that reads found corrected, and traffic, of which the spec does not say
how a step makes it. -/
def stepTallies (s t : State) : List Tally :=
  { src := 1, die := none, part := none, n := 8 }
  :: ((List.range 48).map fun p => { src := 13, die := none, part := some (BitVec.ofNat 6 p), n := s.logged t (BitVec.ofNat 6 p) })
  ++ ((t.tlb.filter fun e => !s.tlb.contains e).filterMap fun e => match e.mmu with | .die d => some { src := 18, die := some d, part := some e.part, n := 1 } | .core _ => none)
  ++ ((s.upsets.filter fun u => u.fixed && !t.upsets.contains u).map fun u => { src := 14, die := some (dieOf (32 * u.sector)), part := none, n := 1 })
  ++ (List.range 5).map fun k => { src := 4 + k, die := none, part := none, n := Config.traffic (8 * s.cycle + k) }
/-- How much of a tally a selector counts: free, and no more than the whole, where the die or the partition is not said; every die
counts every cycle. -/
def Tally.share (x : Tally) (sel : DWord) (die seed : Nat) : Nat :=
  if x.src != bitsN sel.toNat 7 0 then 0
  else if x.src = 1 && !sel.getLsbD 30 then 1
  else
    let there := match x.die with | some d => d == die | none => true
    let mine := !sel.getLsbD 30 || (match x.part with | some p => p == sel.extractLsb' 16 6 | none => true)
    if !there || !mine then 0
    else if x.die.isNone || (sel.getLsbD 30 && x.part.isNone) then Config.traffic seed % (x.n + 1) else x.n
/-- The EVSEL registers whose EN is set, by key. -/
def State.selectors (s : State) : Sparse 64 :=
  s.freg.filter fun e => decide (65536 * 384 + 0x7300 ≤ e.1 ∧ e.1 < 65536 * 384 + 0x7700) && e.1 % 16 == 0 && e.2.getLsbD 31
/-- The counters after a step from s to t, in which a device step may have happened. -/
def State.counted (s : State) (e : Option Ev) (t : State) : State :=
  match s.selectors with
  | [] => t
  | sels =>
    let xs := (match e with | some e => evTallies e s t | none => []) ++ stepTallies s t
    sels.foldl (fun t sel =>
      let die := (sel.1 - (65536 * 384 + 0x7300)) / 0x80
      let n := (xs.map fun x => x.share sel.2 die (s.cycle + 4096 * sel.1)).sum
      { t with freg := wr t.freg (sel.1 + 8) ((rd t.freg (sel.1 + 8) + BitVec.ofNat 64 n) &&& 0xffffffffffff) }) t

end Sys2Proof.Machine
end

