-- ==== Sys2Proof/Machine/Dispatch.lean ====
section
/-! DEFINITION. One arm for each instruction word and device step: a call of its meaning. -/

namespace Sys2Proof.Machine

def exec (i : Instr) (s : State) : Host.Outcome State Fault Refusal :=
  match i with
  | .add q d a b => Sys2Proof.Machine.execAdd q d a b s
  | .sub q d a b => Sys2Proof.Machine.execSub q d a b s
  | .mul q d a b => Sys2Proof.Machine.execMul q d a b s
  | .mulhiI32 q d a b => Sys2Proof.Machine.execMulhiI32 q d a b s
  | .mulhiN32 q d a b => Sys2Proof.Machine.execMulhiN32 q d a b s
  | .divI32 q d a b => Sys2Proof.Machine.execDivI32 q d a b s
  | .divN32 q d a b => Sys2Proof.Machine.execDivN32 q d a b s
  | .remI32 q d a b => Sys2Proof.Machine.execRemI32 q d a b s
  | .remN32 q d a b => Sys2Proof.Machine.execRemN32 q d a b s
  | .minI32 q d a b => Sys2Proof.Machine.execMinI32 q d a b s
  | .minN32 q d a b => Sys2Proof.Machine.execMinN32 q d a b s
  | .maxI32 q d a b => Sys2Proof.Machine.execMaxI32 q d a b s
  | .maxN32 q d a b => Sys2Proof.Machine.execMaxN32 q d a b s
  | .and q d a b => Sys2Proof.Machine.execAnd q d a b s
  | .or q d a b => Sys2Proof.Machine.execOr q d a b s
  | .xor q d a b => Sys2Proof.Machine.execXor q d a b s
  | .shl q d a b => Sys2Proof.Machine.execShl q d a b s
  | .shr q d a b => Sys2Proof.Machine.execShr q d a b s
  | .sar q d a b => Sys2Proof.Machine.execSar q d a b s
  | .rol q d a b => Sys2Proof.Machine.execRol q d a b s
  | .addi q d a imm => Sys2Proof.Machine.execAddi q d a imm s
  | .shli q d a imm => Sys2Proof.Machine.execShli q d a imm s
  | .shri q d a imm => Sys2Proof.Machine.execShri q d a imm s
  | .sari q d a imm => Sys2Proof.Machine.execSari q d a imm s
  | .andi q d a imm => Sys2Proof.Machine.execAndi q d a imm s
  | .ori q d a imm => Sys2Proof.Machine.execOri q d a imm s
  | .xori q d a imm => Sys2Proof.Machine.execXori q d a imm s
  | .mad q d a b c => Sys2Proof.Machine.execMad q d a b c s
  | .madHiI32 q d a b c => Sys2Proof.Machine.execMadHiI32 q d a b c s
  | .madHiN32 q d a b c => Sys2Proof.Machine.execMadHiN32 q d a b c s
  | .madWideI32 q d a b c => Sys2Proof.Machine.execMadWideI32 q d a b c s
  | .madWideN32 q d a b c => Sys2Proof.Machine.execMadWideN32 q d a b c s
  | .popc q d a => Sys2Proof.Machine.execPopc q d a s
  | .clz q d a => Sys2Proof.Machine.execClz q d a s
  | .ctz q d a => Sys2Proof.Machine.execCtz q d a s
  | .brev q d a => Sys2Proof.Machine.execBrev q d a s
  | .not q d a => Sys2Proof.Machine.execNot q d a s
  | .abs q d a => Sys2Proof.Machine.execAbs q d a s
  | .neg q d a => Sys2Proof.Machine.execNeg q d a s
  | .bfeI32 q d a x => Sys2Proof.Machine.execBfeI32 q d a x s
  | .bfeN32 q d a x => Sys2Proof.Machine.execBfeN32 q d a x s
  | .bfi q d a b x => Sys2Proof.Machine.execBfi q d a b x s
  | .shfL q d a b x => Sys2Proof.Machine.execShfL q d a b x s
  | .shfR q d a b x => Sys2Proof.Machine.execShfR q d a b x s
  | .prmt q d a b x => Sys2Proof.Machine.execPrmt q d a b x s
  | .bitfn q d a b c fn => Sys2Proof.Machine.execBitfn q d a b c fn s
  | .setp q op d a b => Sys2Proof.Machine.execSetp q op d a b s
  | .pand q d a b => Sys2Proof.Machine.execPand q d a b s
  | .por q d a b => Sys2Proof.Machine.execPor q d a b s
  | .pxor q d a b => Sys2Proof.Machine.execPxor q d a b s
  | .pnot q d a => Sys2Proof.Machine.execPnot q d a s
  | .p2g q d => Sys2Proof.Machine.execP2g q d s
  | .g2p q a mask => Sys2Proof.Machine.execG2p q a mask s
  | .sel q d a b c => Sys2Proof.Machine.execSel q d a b c s
  | .mov q d b => Sys2Proof.Machine.execMov q d b s
  | .movi q d lit => Sys2Proof.Machine.execMovi q d lit s
  | .movs q d x => Sys2Proof.Machine.execMovs q d x s
  | .ymov q w d b => Sys2Proof.Machine.execYmov q w d b s
  | .ymovl q d imm => Sys2Proof.Machine.execYmovl q d imm s
  | .ymovh q d imm => Sys2Proof.Machine.execYmovh q d imm s
  | .yadd q w d a b => Sys2Proof.Machine.execYadd q w d a b s
  | .yaddi q w d a imm => Sys2Proof.Machine.execYaddi q w d a imm s
  | .addI64 q d a b => Sys2Proof.Machine.execAddI64 q d a b s
  | .subI64 q d a b => Sys2Proof.Machine.execSubI64 q d a b s
  | .addiI64 q d a imm => Sys2Proof.Machine.execAddiI64 q d a imm s
  | .lea q sx sh d a b off => Sys2Proof.Machine.execLea q sx sh d a b off s
  | .shlI64 q d a b => Sys2Proof.Machine.execShlI64 q d a b s
  | .shrI64 q d a b => Sys2Proof.Machine.execShrI64 q d a b s
  | .sarI64 q d a b => Sys2Proof.Machine.execSarI64 q d a b s
  | .minN64 q d a b => Sys2Proof.Machine.execMinN64 q d a b s
  | .maxN64 q d a b => Sys2Proof.Machine.execMaxN64 q d a b s
  | .next q => Sys2Proof.Machine.execNext q s
  | .jmp q off => Sys2Proof.Machine.execJmp q off s
  | .br q neg c off => Sys2Proof.Machine.execBr q neg c off s
  | .brx q a => Sys2Proof.Machine.execBrx q a s
  | .call q off => Sys2Proof.Machine.execCall q off s
  | .callx q a => Sys2Proof.Machine.execCallx q a s
  | .ret q => Sys2Proof.Machine.execRet q s
  | .exit q => Sys2Proof.Machine.execExit q s
  | .fadd q t rm d a b => Sys2Proof.Machine.execFadd q t rm d a b s
  | .fsub q t rm d a b => Sys2Proof.Machine.execFsub q t rm d a b s
  | .fmul q t rm d a b => Sys2Proof.Machine.execFmul q t rm d a b s
  | .fma q t rm d a b c => Sys2Proof.Machine.execFma q t rm d a b c s
  | .fmin q t d a b => Sys2Proof.Machine.execFmin q t d a b s
  | .fmax q t d a b => Sys2Proof.Machine.execFmax q t d a b s
  | .fdiv q dbl rm d a b => Sys2Proof.Machine.execFdiv q dbl rm d a b s
  | .fsqrt q dbl rm d a => Sys2Proof.Machine.execFsqrt q dbl rm d a s
  | .fabs q t d a => Sys2Proof.Machine.execFabs q t d a s
  | .fneg q t d a => Sys2Proof.Machine.execFneg q t d a s
  | .frcp q dbl d a => Sys2Proof.Machine.execFrcp q dbl d a s
  | .frsq q dbl d a => Sys2Proof.Machine.execFrsq q dbl d a s
  | .fex2 q d a => Sys2Proof.Machine.execFex2 q d a s
  | .flg2 q d a => Sys2Proof.Machine.execFlg2 q d a s
  | .fsin q d a => Sys2Proof.Machine.execFsin q d a s
  | .fcos q d a => Sys2Proof.Machine.execFcos q d a s
  | .ffloor q dbl d a => Sys2Proof.Machine.execFfloor q dbl d a s
  | .fceil q dbl d a => Sys2Proof.Machine.execFceil q dbl d a s
  | .ftrunc q dbl d a => Sys2Proof.Machine.execFtrunc q dbl d a s
  | .frint q dbl rm d a => Sys2Proof.Machine.execFrint q dbl rm d a s
  | .fcopysign q dbl d a b => Sys2Proof.Machine.execFcopysign q dbl d a b s
  | .fsetp q dbl c d a b => Sys2Proof.Machine.execFsetp q dbl c d a b s
  | .fclass q dbl d a => Sys2Proof.Machine.execFclass q dbl d a s
  | .cvt q rm dt st d a => Sys2Proof.Machine.execCvt q rm dt st d a s
  | .cvtSr q dt pos d a => Sys2Proof.Machine.execCvtSr q dt pos d a s
  | .srseed q b => Sys2Proof.Machine.execSrseed q b s
  | .pack q rm it dt pos d a => Sys2Proof.Machine.execPack q rm it dt pos d a s
  | .unpack q rm it st pos d a => Sys2Proof.Machine.execUnpack q rm it st pos d a s
  | .dp4 q f d a b c => Sys2Proof.Machine.execDp4 q f d a b c s
  | .dp8 q f d a b c => Sys2Proof.Machine.execDp8 q f d a b c s
  | .fscale q dbl rm pos d a b => Sys2Proof.Machine.execFscale q dbl rm pos d a b s
  | .ld q sz sx d m => Sys2Proof.Machine.execLd q sz sx d m s
  | .ldAcq q sc sz sx d m => Sys2Proof.Machine.execLdAcq q sc sz sx d m s
  | .ldQ q sz d a => Sys2Proof.Machine.execLdQ q sz d a s
  | .st q sz m b => Sys2Proof.Machine.execSt q sz m b s
  | .stRel q sc sz m b => Sys2Proof.Machine.execStRel q sc sz m b s
  | .stNt q sz m b => Sys2Proof.Machine.execStNt q sz m b s
  | .stQ q sz a b => Sys2Proof.Machine.execStQ q sz a b s
  | .drainNt q => Sys2Proof.Machine.execDrainNt q s
  | .prefetchL1 q m => Sys2Proof.Machine.execPrefetchL1 q m s
  | .prefetchL2 q m => Sys2Proof.Machine.execPrefetchL2 q m s
  | .viewDefG q slot k => Sys2Proof.Machine.execViewDefG q slot k s
  | .viewDefX q slot k => Sys2Proof.Machine.execViewDefX q slot k s
  | .viewDel q slot => Sys2Proof.Machine.execViewDel q slot s
  | .viewQ q k slot half => Sys2Proof.Machine.execViewQ q k slot half s
  | .atomExch q x => Sys2Proof.Machine.execAtomExch q x s
  | .atomCas q x => Sys2Proof.Machine.execAtomCas q x s
  | .atomAdd q x => Sys2Proof.Machine.execAtomAdd q x s
  | .atomAnd q x => Sys2Proof.Machine.execAtomAnd q x s
  | .atomOr q x => Sys2Proof.Machine.execAtomOr q x s
  | .atomXor q x => Sys2Proof.Machine.execAtomXor q x s
  | .atomMinI q x => Sys2Proof.Machine.execAtomMinI q x s
  | .atomMinN q x => Sys2Proof.Machine.execAtomMinN q x s
  | .atomMaxI q x => Sys2Proof.Machine.execAtomMaxI q x s
  | .atomMaxN q x => Sys2Proof.Machine.execAtomMaxN q x s
  | .atomFadd q x => Sys2Proof.Machine.execAtomFadd q x s
  | .atomInc q x => Sys2Proof.Machine.execAtomInc q x s
  | .atomDec q x => Sys2Proof.Machine.execAtomDec q x s
  | .redAdd q x => Sys2Proof.Machine.execRedAdd q x s
  | .redAnd q x => Sys2Proof.Machine.execRedAnd q x s
  | .redOr q x => Sys2Proof.Machine.execRedOr q x s
  | .redXor q x => Sys2Proof.Machine.execRedXor q x s
  | .redMinI q x => Sys2Proof.Machine.execRedMinI q x s
  | .redMinN q x => Sys2Proof.Machine.execRedMinN q x s
  | .redMaxI q x => Sys2Proof.Machine.execRedMaxI q x s
  | .redMaxN q x => Sys2Proof.Machine.execRedMaxN q x s
  | .redFadd q x => Sys2Proof.Machine.execRedFadd q x s
  | .fence q sc => Sys2Proof.Machine.execFence q sc s
  | .barBlk q => Sys2Proof.Machine.execBarBlk q s
  | .barGrp q => Sys2Proof.Machine.execBarGrp q s
  | .barGrid q => Sys2Proof.Machine.execBarGrid q s
  | .hitchDecl q h b mask => Sys2Proof.Machine.execHitchDecl q h b mask s
  | .hitchSign q h => Sys2Proof.Machine.execHitchSign q h s
  | .pfoldAnd q h d a => Sys2Proof.Machine.execPfoldAnd q h d a s
  | .pfoldOr q h d a => Sys2Proof.Machine.execPfoldOr q h d a s
  | .pcount q h d a => Sys2Proof.Machine.execPcount q h d a s
  | .prank q h d a => Sys2Proof.Machine.execPrank q h d a s
  | .agree q h d a => Sys2Proof.Machine.execAgree q h d a s
  | .pbits q h d a w => Sys2Proof.Machine.execPbits q h d a w s
  | .cycle q h d a b => Sys2Proof.Machine.execCycle q h d a b s
  | .xrank q h d a b => Sys2Proof.Machine.execXrank q h d a b s
  | .foldAdd q h d a => Sys2Proof.Machine.execFoldAdd q h d a s
  | .scanAdd q h d a => Sys2Proof.Machine.execScanAdd q h d a s
  | .foldMinI q h d a => Sys2Proof.Machine.execFoldMinI q h d a s
  | .foldMaxI q h d a => Sys2Proof.Machine.execFoldMaxI q h d a s
  | .enq q x => Sys2Proof.Machine.execEnq q x s
  | .deq q x => Sys2Proof.Machine.execDeq q x s
  | .enqTry q x => Sys2Proof.Machine.execEnqTry q x s
  | .deqTry q x => Sys2Proof.Machine.execDeqTry q x s
  | .qbindQueue q d m => Sys2Proof.Machine.execQbindQueue q d m s
  | .qbindCopy q d => Sys2Proof.Machine.execQbindCopy q d s
  | .qbindGather q d k => Sys2Proof.Machine.execQbindGather q d k s
  | .qunbind q d => Sys2Proof.Machine.execQunbind q d s
  | .qstat q d a => Sys2Proof.Machine.execQstat q d a s
  | .wait q nl ns na nt => Sys2Proof.Machine.execWait q nl ns na nt s
  | .tcfg q d b => Sys2Proof.Machine.execTcfg q d b s
  | .tld q h d m b => Sys2Proof.Machine.execTld q h d m b s
  | .tst q h d m b => Sys2Proof.Machine.execTst q h d m b s
  | .tmov q h t rm d a => Sys2Proof.Machine.execTmov q h t rm d a s
  | .tzero q h d n => Sys2Proof.Machine.execTzero q h d n s
  | .mma q x => Sys2Proof.Machine.execMma q x s
  | .mmaSp q x => Sys2Proof.Machine.execMmaSp q x s
  | .mmaSpt q x => Sys2Proof.Machine.execMmaSpt q x s
  | .mfactLu q x => Sys2Proof.Machine.execMfactLu q x s
  | .mfactChol q x => Sys2Proof.Machine.execMfactChol q x s
  | .mfactQr q x => Sys2Proof.Machine.execMfactQr q x s
  | .mtrsm q x => Sys2Proof.Machine.execMtrsm q x s
  | .accLdTile q h ct d b => Sys2Proof.Machine.execAccLdTile q h ct d b s
  | .accLdMem q h ct f d m b => Sys2Proof.Machine.execAccLdMem q h ct f d m b s
  | .accStTile q h ct d b => Sys2Proof.Machine.execAccStTile q h ct d b s
  | .accStMem q h ct f d m b => Sys2Proof.Machine.execAccStMem q h ct f d m b s
  | .accSnap q h ct d a b => Sys2Proof.Machine.execAccSnap q h ct d a b s
  | .accZero q h ct b => Sys2Proof.Machine.execAccZero q h ct b s
  | .pmLd q h d m => Sys2Proof.Machine.execPmLd q h d m s
  | .pmSt q h d m => Sys2Proof.Machine.execPmSt q h d m s
  | .pmApply q h ct d b => Sys2Proof.Machine.execPmApply q h ct d b s
  | .pmApplyInv q h ct d b => Sys2Proof.Machine.execPmApplyInv q h ct d b s
  | .copy q x => Sys2Proof.Machine.execCopy q x s
  | .copyMc q x m => Sys2Proof.Machine.execCopyMc q x m s
  | .ftest q d a => Sys2Proof.Machine.execFtest q d a s
  | .fcancel q a => Sys2Proof.Machine.execFcancel q a s
  | .relay q d m => Sys2Proof.Machine.execRelay q d m s
  | .join q a => Sys2Proof.Machine.execJoin q a s
  | .nop q => Sys2Proof.Machine.execNop q s
  | .trap q code => Sys2Proof.Machine.execTrap q code s
  | .brk q code => Sys2Proof.Machine.execBrk q code s
  | .commit q x => Sys2Proof.Machine.execCommit q x s
  | .phint q x => Sys2Proof.Machine.execPhint q x s
  | .sleep q n => Sys2Proof.Machine.execSleep q n s
  | .illegalMajor x a => Sys2Proof.Machine.execIllegalMajor x a s
  | .stringIssue core picker => Sys2Proof.Machine.execStringIssue core picker s
  | .sleepExpiry th => Sys2Proof.Machine.execSleepExpiry th s
  | .hitchFireComplete blk wheel h => Sys2Proof.Machine.execHitchFireComplete blk wheel h s
  | .loadReturn id => Sys2Proof.Machine.execLoadReturn id s
  | .storeAccept id => Sys2Proof.Machine.execStoreAccept id s
  | .releaseComplete id => Sys2Proof.Machine.execReleaseComplete id s
  | .writeBack id => Sys2Proof.Machine.execWriteBack id s
  | .invalidation id agent => Sys2Proof.Machine.execInvalidation id agent s
  | .invalidationAck id agent => Sys2Proof.Machine.execInvalidationAck id agent s
  | .l1Eviction core line => Sys2Proof.Machine.execL1Eviction core line s
  | .evictionNotice agent line => Sys2Proof.Machine.execEvictionNotice agent line s
  | .directoryDrop line => Sys2Proof.Machine.execDirectoryDrop line s
  | .discovery line => Sys2Proof.Machine.execDiscovery line s
  | .l2ReadRequest id => Sys2Proof.Machine.execL2ReadRequest id s
  | .atomicAtHome id => Sys2Proof.Machine.execAtomicAtHome id s
  | .updateLineMerge core line => Sys2Proof.Machine.execUpdateLineMerge core line s
  | .remoteAccess id => Sys2Proof.Machine.execRemoteAccess id s
  | .ntStoreAck id => Sys2Proof.Machine.execNtStoreAck id s
  | .hostAccess write pa sz data => Sys2Proof.Machine.execHostAccess write pa sz data s
  | .viewLineCompose id => Sys2Proof.Machine.execViewLineCompose id s
  | .viewStoreCheck id => Sys2Proof.Machine.execViewStoreCheck id s
  | .viewStoreScatter id => Sys2Proof.Machine.execViewStoreScatter id s
  | .viewStoreAck id => Sys2Proof.Machine.execViewStoreAck id s
  | .queueRequest id => Sys2Proof.Machine.execQueueRequest id s
  | .queueRequestResend id => Sys2Proof.Machine.execQueueRequestResend id s
  | .queueWithdrawal id => Sys2Proof.Machine.execQueueWithdrawal id s
  | .queueRequestComplete id => Sys2Proof.Machine.execQueueRequestComplete id s
  | .gatherRowReturn id => Sys2Proof.Machine.execGatherRowReturn id s
  | .copyChunk die engine => Sys2Proof.Machine.execCopyChunk die engine s
  | .copyComplete id => Sys2Proof.Machine.execCopyComplete id s
  | .copyCommandRead id => Sys2Proof.Machine.execCopyCommandRead id s
  | .joinDecrement part handle => Sys2Proof.Machine.execJoinDecrement part handle s
  | .relayPost id => Sys2Proof.Machine.execRelayPost id s
  | .launchPacket vf q => Sys2Proof.Machine.execLaunchPacket vf q s
  | .launchExpansion launch die => Sys2Proof.Machine.execLaunchExpansion launch die s
  | .recordGenerationResume launch die => Sys2Proof.Machine.execRecordGenerationResume launch die s
  | .blockAdmission bulkhead => Sys2Proof.Machine.execBlockAdmission bulkhead s
  | .blockSave blk => Sys2Proof.Machine.execBlockSave blk s
  | .blockSaveComplete blk => Sys2Proof.Machine.execBlockSaveComplete blk s
  | .blockRestore bulkhead => Sys2Proof.Machine.execBlockRestore bulkhead s
  | .blockRetire blk => Sys2Proof.Machine.execBlockRetire blk s
  | .launchComplete launch => Sys2Proof.Machine.execLaunchComplete launch s
  | .preemptTimeout blk => Sys2Proof.Machine.execPreemptTimeout blk s
  | .storeFault th cause addr pc => Sys2Proof.Machine.execStoreFault th cause addr pc s
  | .readAheadDiscard pa => Sys2Proof.Machine.execReadAheadDiscard pa s
  | .containedRelaunch blk => Sys2Proof.Machine.execContainedRelaunch blk s
  | .commitStoreRelease blk => Sys2Proof.Machine.execCommitStoreRelease blk s
  | .signatureCompare blk team => Sys2Proof.Machine.execSignatureCompare blk team s
  | .loadValueEntry id => Sys2Proof.Machine.execLoadValueEntry id s
  | .pendingMatrixOpBegin blk wheel id => Sys2Proof.Machine.execPendingMatrixOpBegin blk wheel id s
  | .matrixOpComplete blk wheel id => Sys2Proof.Machine.execMatrixOpComplete blk wheel id s
  | .factorisationColumn blk wheel => Sys2Proof.Machine.execFactorisationColumn blk wheel s
  | .pageWalk walker va write => Sys2Proof.Machine.execPageWalk walker va write s
  | .faultRecordPost part => Sys2Proof.Machine.execFaultRecordPost part s
  | .sqtailWrite vf q v => Sys2Proof.Machine.execSqtailWrite vf q v s
  | .sqctlWrite vf q v => Sys2Proof.Machine.execSqctlWrite vf q v s
  | .preempt fn arg => Sys2Proof.Machine.execPreempt fn arg s
  | .resume fn arg => Sys2Proof.Machine.execResume fn arg s
  | .cancel fn arg => Sys2Proof.Machine.execCancel fn arg s
  | .trapreplyRetry fn arg => Sys2Proof.Machine.execTrapreplyRetry fn arg s
  | .trapreplySkip fn arg => Sys2Proof.Machine.execTrapreplySkip fn arg s
  | .trapreplyKill fn arg => Sys2Proof.Machine.execTrapreplyKill fn arg s
  | .codeinval fn => Sys2Proof.Machine.execCodeinval fn s
  | .objlive fn arg => Sys2Proof.Machine.execObjlive fn arg s
  | .objunload fn arg => Sys2Proof.Machine.execObjunload fn arg s
  | .objfree fn arg => Sys2Proof.Machine.execObjfree fn arg s
  | .objectLoad r => Sys2Proof.Machine.execObjectLoad r s
  | .ractlWrite part die v => Sys2Proof.Machine.execRactlWrite part die v s
  | .relayAreaFillComplete part die => Sys2Proof.Machine.execRelayAreaFillComplete part die s
  | .vtbaseWrite part v => Sys2Proof.Machine.execVtbaseWrite part v s
  | .viewTableFillComplete part => Sys2Proof.Machine.execViewTableFillComplete part s
  | .prtbaseWrite part ctl v => Sys2Proof.Machine.execPrtbaseWrite part ctl v s
  | .prinv part v => Sys2Proof.Machine.execPrinv part v s
  | .tlbinv part v => Sys2Proof.Machine.execTlbinv part v s
  | .invalidationComplete part => Sys2Proof.Machine.execInvalidationComplete part s
  | .ringHeadWrite r v => Sys2Proof.Machine.execRingHeadWrite r v s
  | .ringCtlWrite r v => Sys2Proof.Machine.execRingCtlWrite r v s
  | .bulkheadReset b => Sys2Proof.Machine.execBulkheadReset b s
  | .bulkheadResetDone b ok => Sys2Proof.Machine.execBulkheadResetDone b ok s
  | .bulkheadHwFault b => Sys2Proof.Machine.execBulkheadHwFault b s
  | .partitionChange b assigned part => Sys2Proof.Machine.execPartitionChange b assigned part s
  | .frameownWrite v => Sys2Proof.Machine.execFrameownWrite v s
  | .frameownChangeComplete frame => Sys2Proof.Machine.execFrameownChangeComplete frame s
  | .windowEntryStage part w hi => Sys2Proof.Machine.execWindowEntryStage part w hi s
  | .windowEntryInstall part w lo => Sys2Proof.Machine.execWindowEntryInstall part w lo s
  | .sliceEntryStage e lo => Sys2Proof.Machine.execSliceEntryStage e lo s
  | .sliceEntryInstall e hi => Sys2Proof.Machine.execSliceEntryInstall e hi s
  | .gangSliceStart e => Sys2Proof.Machine.execGangSliceStart e s
  | .gangReady e pkg => Sys2Proof.Machine.execGangReady e pkg s
  | .gangGraceExpiry e => Sys2Proof.Machine.execGangGraceExpiry e s
  | .gangSliceEnd e => Sys2Proof.Machine.execGangSliceEnd e s
  | .keyLoad slot => Sys2Proof.Machine.execKeyLoad slot s
  | .keyClear slot => Sys2Proof.Machine.execKeyClear slot s
  | .injWrite v => Sys2Proof.Machine.execInjWrite v s
  | .registerWrite fn off v => Sys2Proof.Machine.execRegisterWrite fn off v s
  | .scrubSector controller sector found => Sys2Proof.Machine.execScrubSector controller sector found s
  | .linkRetry die link ok => Sys2Proof.Machine.execLinkRetry die link ok s
  | .linkRetraining die link => Sys2Proof.Machine.execLinkRetraining die link s
  | .telemetrySample power temps => Sys2Proof.Machine.execTelemetrySample power temps s
  | .heartbeatMiss pkg => Sys2Proof.Machine.execHeartbeatMiss pkg s
  | .agentLoss agent => Sys2Proof.Machine.execAgentLoss agent s
  | .agentRejoin agent => Sys2Proof.Machine.execAgentRejoin agent s
  | .directorySweep home agent => Sys2Proof.Machine.execDirectorySweep home agent s
  | .coldReset => Sys2Proof.Machine.execColdReset s
  | .getVersion => Sys2Proof.Machine.execGetVersion s
  | .getCapabilities => Sys2Proof.Machine.execGetCapabilities s
  | .negotiateAlgorithms algs => Sys2Proof.Machine.execNegotiateAlgorithms algs s
  | .getDigests => Sys2Proof.Machine.execGetDigests s
  | .getCertificate slot off len => Sys2Proof.Machine.execGetCertificate slot off len s
  | .challenge nonce => Sys2Proof.Machine.execChallenge nonce s
  | .getMeasurements nonce => Sys2Proof.Machine.execGetMeasurements nonce s
  | .keyExchange pub => Sys2Proof.Machine.execKeyExchange pub s
  | .finish verify => Sys2Proof.Machine.execFinish verify s
  | .pendingResultWritten th k => Sys2Proof.Machine.execPendingResultWritten th k s
  | .memoryBulkheadFatal die => Sys2Proof.Machine.execMemoryBulkheadFatal die s
  | .keySlotBusyClear => Sys2Proof.Machine.execKeySlotBusyClear s
  | .commandTakesEffect fn => Sys2Proof.Machine.execCommandTakesEffect fn s
  | .vendorDefinedMessage body => Sys2Proof.Machine.execVendorDefinedMessage body s

end Sys2Proof.Machine
end

