-- ==== Sys2Proof/Machine/Place.lean ====
section
/-! DEFINITION. A program that is in place: what a driver's load (R367), a launch and the dispatch of its block leave behind, for
one block of one thread that stands at an instruction (notes/assumptions/10.md). -/

namespace Sys2Proof.Machine

/-- Where the parts of the placed program lie in local memory. -/
def placeTable : Nat := 0x200000
def placeText : Nat := 0x210000
def placeVa : Nat := 0x100000000

/-- The clause header of the placed clause: two instruction words, class system, Y set, no waits (Table 9.3). -/
def placeHdr : Word := 0x2007ffc2

/-- Bytes of the object slot: LIVE, TEXTSZ 12, TEXTVA (Table 18.11). -/
def placeSlot (m : Memory) (base : Nat) : Memory :=
  wrNat (wrNat (wrNat m base 4 1) (base + 8) 4 12) (base + 16) 8 placeVa

/-- Bytes of the text: the header, then the two words of the instruction. -/
def placeCode (m : Memory) (base nbits w : Nat) : Memory :=
  wrNat (wrNat m base 4 placeHdr.toNat) (base + 4) 8 (w % 2 ^ nbits)

/-- The shape of the placed block: one thread with every register, tile and accumulator row (Table 1.3). -/
def placeShape : Shape :=
  { cores := false, red := false, cont := false, gidx := 0, gsize := 0, stage := 0, accrows := 128, tiles := 16, scratch := 256, gregs := 128, threads := 1 }
def placeBlock : Block :=
  { id := 0, handle := 0, part := 0, launch := 0, ident := 0, grp := 0, shape := placeShape, prio := 0, principal := 0, object := 0,
    entry := 4, frame := 0, succ := 0, state := .running, core := 0, age := 0, scrGen := 0, pool := 0, lead := Side.reset,
    wheels := Side.reset, sbuf := [], ckpt0 := none, ckpt1 := none, valid := none, relaunches := 0, mismatch := false, preempt := false,
    forced := false, quiesce := false, rolling := false, opening := none, releasing := [], due := 0, lost := false, relMade := false, doomed := false, moved := false }
def placeThread : ThreadId := { blk := 0, wheel := false, tid := 0 }

/-- The state with the instruction in the clause of a string in progress, and nothing else waiting to happen. -/
def State.placeWord (s : State) (nbits w : Nat) : State :=
  let base := s.chip.toNat * 2 ^ 42
  { s with
    boot := .done
    agenda := []
    l1 := []
    guests := []
    code := []
    dir := []
    mem := placeCode (placeSlot s.mem (base + placeTable)) (base + placeText) nbits w
    frames := wr s.frames ((base + placeText) / 2 ^ 21) 0x80
    walks := []
    tlb := [{ mmu := .core 0, part := 0, va := placeVa, size := 65536, leaf := { pa := base + placeText, owner := 0, key := 0, tag := 0, xo := true } }]
    preg := wr (wr s.preg 0x5600 (BitVec.ofNat 64 (base + placeTable))) 0x5608 1
    blocks := [placeBlock]
    teams := [Team.fresh 0 false 0 0 0]
    threads := [Thread.fresh placeThread 4]
    strings := [{ core := 0, picker := 0, part := 0, obj := 0, hdr := placeHdr, pc := 4, sched := false, members := [placeThread], seq := 0, hold := [], opened := none }] }

end Sys2Proof.Machine
end

