-- ==== Sys2Proof/Machine/Step.lean ====
section
/-! DEFINITION. One step of the machine: before the boot the cold reset; then one of the things that can happen next. -/

namespace Sys2Proof.Machine

/-- The head string's next word is fetched and performed; a thread that reads a poisoned register consumes the error instead (R417). -/
def stepWord (s : State) : Host.Outcome State Fault Refusal :=
  match s.strings with
  | [] => .next s.tick
  | c :: rest =>
    match s.fetch c with
    | .fault cause len more => .next (s.faultWord c rest cause len more)
    | .ins i =>
      match s.badReader i c with
      | some id => .next ((s.registerError c.core).consumed id c.pc).tick
      | none => exec i ((s.late c).useCopies i c)

/-- A candidate happens. -/
def runCand (c : Cand) (s : State) : Host.Outcome State Fault Refusal :=
  match c with
  | .agenda k =>
    match s.agenda[k]? with
    | some e => runEv e { s with agenda := s.agenda.eraseIdx k }
    | none => .next s.tick
  | .word k => stepWord (s.focus k)
  | .free e => runEv e s

/-- The device step that a candidate is. -/
def Cand.ev (c : Cand) (s : State) : Option Ev :=
  match c with
  | .agenda k => s.agenda[k]?
  | .word _ => none
  | .free e => some e
/-- A candidate happens, and is counted (R421). -/
def runCounted (c : Cand) (s : State) : Host.Outcome State Fault Refusal :=
  match runCand c s with
  | .next t => .next (s.counted (c.ev s) t)
  | .fault f => .fault f
  | .refused r => .refused r

/-- One step. -/
def step (s : State) : Host.Outcome State Fault Refusal :=
  match s.boot with
  | .failed => .fault .gated
  | .off => runEv .coldReset s
  | .done =>
    match s.cands with
    | [] => .next s.tick
    | [c] => runCounted c s
    | c :: l => runCounted ((c :: l).getD (s.draw (l.length + 1)) c) s.redraw

/-- An instruction placed where the next step fetches it. -/
def State.withFetchWord (s : State) (nbits w : Nat) : State := s.placeWord nbits w

end Sys2Proof.Machine
end

