-- ==== Sys2Proof/Laws/Agenda.lean ====
section
/-! SUPPORT. A device step of the agenda is the instruction of the same name: one lemma per constructor of `Ev`. -/

namespace Sys2Proof.Machine

theorem runEv_stringIssue : ∀ core picker s, runEv (.stringIssue core picker) s = exec (.stringIssue core picker) s := fun _ _ _ => rfl
theorem runEv_sleepExpiry : ∀ th s, runEv (.sleepExpiry th) s = exec (.sleepExpiry th) s := fun _ _ => rfl
theorem runEv_hitchFireComplete : ∀ blk wheel h s, runEv (.hitchFireComplete blk wheel h) s = exec (.hitchFireComplete blk wheel h) s := fun _ _ _ _ => rfl
theorem runEv_loadReturn : ∀ id s, runEv (.loadReturn id) s = exec (.loadReturn id) s := fun _ _ => rfl
theorem runEv_storeAccept : ∀ id s, runEv (.storeAccept id) s = exec (.storeAccept id) s := fun _ _ => rfl
theorem runEv_releaseComplete : ∀ id s, runEv (.releaseComplete id) s = exec (.releaseComplete id) s := fun _ _ => rfl
theorem runEv_writeBack : ∀ id s, runEv (.writeBack id) s = exec (.writeBack id) s := fun _ _ => rfl
theorem runEv_invalidation : ∀ id agent s, runEv (.invalidation id agent) s = exec (.invalidation id agent) s := fun _ _ _ => rfl
theorem runEv_invalidationAck : ∀ id agent s, runEv (.invalidationAck id agent) s = exec (.invalidationAck id agent) s := fun _ _ _ => rfl
theorem runEv_l1Eviction : ∀ core line s, runEv (.l1Eviction core line) s = exec (.l1Eviction core line) s := fun _ _ _ => rfl
theorem runEv_evictionNotice : ∀ agent line s, runEv (.evictionNotice agent line) s = exec (.evictionNotice agent line) s := fun _ _ _ => rfl
theorem runEv_directoryDrop : ∀ line s, runEv (.directoryDrop line) s = exec (.directoryDrop line) s := fun _ _ => rfl
theorem runEv_discovery : ∀ line s, runEv (.discovery line) s = exec (.discovery line) s := fun _ _ => rfl
theorem runEv_l2ReadRequest : ∀ id s, runEv (.l2ReadRequest id) s = exec (.l2ReadRequest id) s := fun _ _ => rfl
theorem runEv_atomicAtHome : ∀ id s, runEv (.atomicAtHome id) s = exec (.atomicAtHome id) s := fun _ _ => rfl
theorem runEv_updateLineMerge : ∀ core line s, runEv (.updateLineMerge core line) s = exec (.updateLineMerge core line) s := fun _ _ _ => rfl
theorem runEv_remoteAccess : ∀ id s, runEv (.remoteAccess id) s = exec (.remoteAccess id) s := fun _ _ => rfl
theorem runEv_ntStoreAck : ∀ id s, runEv (.ntStoreAck id) s = exec (.ntStoreAck id) s := fun _ _ => rfl
theorem runEv_hostAccess : ∀ write pa sz data s, runEv (.hostAccess write pa sz data) s = exec (.hostAccess write pa sz data) s := fun _ _ _ _ _ => rfl
theorem runEv_viewLineCompose : ∀ id s, runEv (.viewLineCompose id) s = exec (.viewLineCompose id) s := fun _ _ => rfl
theorem runEv_viewStoreCheck : ∀ id s, runEv (.viewStoreCheck id) s = exec (.viewStoreCheck id) s := fun _ _ => rfl
theorem runEv_viewStoreScatter : ∀ id s, runEv (.viewStoreScatter id) s = exec (.viewStoreScatter id) s := fun _ _ => rfl
theorem runEv_viewStoreAck : ∀ id s, runEv (.viewStoreAck id) s = exec (.viewStoreAck id) s := fun _ _ => rfl
theorem runEv_queueRequest : ∀ id s, runEv (.queueRequest id) s = exec (.queueRequest id) s := fun _ _ => rfl
theorem runEv_queueRequestResend : ∀ id s, runEv (.queueRequestResend id) s = exec (.queueRequestResend id) s := fun _ _ => rfl
theorem runEv_queueWithdrawal : ∀ id s, runEv (.queueWithdrawal id) s = exec (.queueWithdrawal id) s := fun _ _ => rfl
theorem runEv_queueRequestComplete : ∀ id s, runEv (.queueRequestComplete id) s = exec (.queueRequestComplete id) s := fun _ _ => rfl
theorem runEv_gatherRowReturn : ∀ id s, runEv (.gatherRowReturn id) s = exec (.gatherRowReturn id) s := fun _ _ => rfl
theorem runEv_copyChunk : ∀ die engine s, runEv (.copyChunk die engine) s = exec (.copyChunk die engine) s := fun _ _ _ => rfl
theorem runEv_copyComplete : ∀ id s, runEv (.copyComplete id) s = exec (.copyComplete id) s := fun _ _ => rfl
theorem runEv_copyCommandRead : ∀ id s, runEv (.copyCommandRead id) s = exec (.copyCommandRead id) s := fun _ _ => rfl
theorem runEv_joinDecrement : ∀ part handle s, runEv (.joinDecrement part handle) s = exec (.joinDecrement part handle) s := fun _ _ _ => rfl
theorem runEv_relayPost : ∀ id s, runEv (.relayPost id) s = exec (.relayPost id) s := fun _ _ => rfl
theorem runEv_launchPacket : ∀ vf q s, runEv (.launchPacket vf q) s = exec (.launchPacket vf q) s := fun _ _ _ => rfl
theorem runEv_launchExpansion : ∀ launch die s, runEv (.launchExpansion launch die) s = exec (.launchExpansion launch die) s := fun _ _ _ => rfl
theorem runEv_recordGenerationResume : ∀ launch die s, runEv (.recordGenerationResume launch die) s = exec (.recordGenerationResume launch die) s := fun _ _ _ => rfl
theorem runEv_blockAdmission : ∀ bulkhead s, runEv (.blockAdmission bulkhead) s = exec (.blockAdmission bulkhead) s := fun _ _ => rfl
theorem runEv_blockSave : ∀ blk s, runEv (.blockSave blk) s = exec (.blockSave blk) s := fun _ _ => rfl
theorem runEv_blockSaveComplete : ∀ blk s, runEv (.blockSaveComplete blk) s = exec (.blockSaveComplete blk) s := fun _ _ => rfl
theorem runEv_blockRestore : ∀ bulkhead s, runEv (.blockRestore bulkhead) s = exec (.blockRestore bulkhead) s := fun _ _ => rfl
theorem runEv_blockRetire : ∀ blk s, runEv (.blockRetire blk) s = exec (.blockRetire blk) s := fun _ _ => rfl
theorem runEv_launchComplete : ∀ launch s, runEv (.launchComplete launch) s = exec (.launchComplete launch) s := fun _ _ => rfl
theorem runEv_preemptTimeout : ∀ blk s, runEv (.preemptTimeout blk) s = exec (.preemptTimeout blk) s := fun _ _ => rfl
theorem runEv_storeFault : ∀ th cause addr pc s, runEv (.storeFault th cause addr pc) s = exec (.storeFault th cause addr pc) s := fun _ _ _ _ _ => rfl
theorem runEv_readAheadDiscard : ∀ pa s, runEv (.readAheadDiscard pa) s = exec (.readAheadDiscard pa) s := fun _ _ => rfl
theorem runEv_containedRelaunch : ∀ blk s, runEv (.containedRelaunch blk) s = exec (.containedRelaunch blk) s := fun _ _ => rfl
theorem runEv_commitStoreRelease : ∀ blk s, runEv (.commitStoreRelease blk) s = exec (.commitStoreRelease blk) s := fun _ _ => rfl
theorem runEv_signatureCompare : ∀ blk team s, runEv (.signatureCompare blk team) s = exec (.signatureCompare blk team) s := fun _ _ _ => rfl
theorem runEv_loadValueEntry : ∀ id s, runEv (.loadValueEntry id) s = exec (.loadValueEntry id) s := fun _ _ => rfl
theorem runEv_pendingMatrixOpBegin : ∀ blk wheel id s, runEv (.pendingMatrixOpBegin blk wheel id) s = exec (.pendingMatrixOpBegin blk wheel id) s := fun _ _ _ _ => rfl
theorem runEv_matrixOpComplete : ∀ blk wheel id s, runEv (.matrixOpComplete blk wheel id) s = exec (.matrixOpComplete blk wheel id) s := fun _ _ _ _ => rfl
theorem runEv_factorisationColumn : ∀ blk wheel s, runEv (.factorisationColumn blk wheel) s = exec (.factorisationColumn blk wheel) s := fun _ _ _ => rfl
theorem runEv_pageWalk : ∀ walker va write s, runEv (.pageWalk walker va write) s = exec (.pageWalk walker va write) s := fun _ _ _ _ => rfl
theorem runEv_faultRecordPost : ∀ part s, runEv (.faultRecordPost part) s = exec (.faultRecordPost part) s := fun _ _ => rfl
theorem runEv_sqtailWrite : ∀ vf q v s, runEv (.sqtailWrite vf q v) s = exec (.sqtailWrite vf q v) s := fun _ _ _ _ => rfl
theorem runEv_sqctlWrite : ∀ vf q v s, runEv (.sqctlWrite vf q v) s = exec (.sqctlWrite vf q v) s := fun _ _ _ _ => rfl
theorem runEv_preempt : ∀ fn arg s, runEv (.preempt fn arg) s = exec (.preempt fn arg) s := fun _ _ _ => rfl
theorem runEv_resume : ∀ fn arg s, runEv (.resume fn arg) s = exec (.resume fn arg) s := fun _ _ _ => rfl
theorem runEv_cancel : ∀ fn arg s, runEv (.cancel fn arg) s = exec (.cancel fn arg) s := fun _ _ _ => rfl
theorem runEv_trapreplyRetry : ∀ fn arg s, runEv (.trapreplyRetry fn arg) s = exec (.trapreplyRetry fn arg) s := fun _ _ _ => rfl
theorem runEv_trapreplySkip : ∀ fn arg s, runEv (.trapreplySkip fn arg) s = exec (.trapreplySkip fn arg) s := fun _ _ _ => rfl
theorem runEv_trapreplyKill : ∀ fn arg s, runEv (.trapreplyKill fn arg) s = exec (.trapreplyKill fn arg) s := fun _ _ _ => rfl
theorem runEv_codeinval : ∀ fn s, runEv (.codeinval fn) s = exec (.codeinval fn) s := fun _ _ => rfl
theorem runEv_objlive : ∀ fn arg s, runEv (.objlive fn arg) s = exec (.objlive fn arg) s := fun _ _ _ => rfl
theorem runEv_objunload : ∀ fn arg s, runEv (.objunload fn arg) s = exec (.objunload fn arg) s := fun _ _ _ => rfl
theorem runEv_objfree : ∀ fn arg s, runEv (.objfree fn arg) s = exec (.objfree fn arg) s := fun _ _ _ => rfl
theorem runEv_objectLoad : ∀ r s, runEv (.objectLoad r) s = exec (.objectLoad r) s := fun _ _ => rfl
theorem runEv_ractlWrite : ∀ part die v s, runEv (.ractlWrite part die v) s = exec (.ractlWrite part die v) s := fun _ _ _ _ => rfl
theorem runEv_relayAreaFillComplete : ∀ part die s, runEv (.relayAreaFillComplete part die) s = exec (.relayAreaFillComplete part die) s := fun _ _ _ => rfl
theorem runEv_vtbaseWrite : ∀ part v s, runEv (.vtbaseWrite part v) s = exec (.vtbaseWrite part v) s := fun _ _ _ => rfl
theorem runEv_viewTableFillComplete : ∀ part s, runEv (.viewTableFillComplete part) s = exec (.viewTableFillComplete part) s := fun _ _ => rfl
theorem runEv_prtbaseWrite : ∀ part ctl v s, runEv (.prtbaseWrite part ctl v) s = exec (.prtbaseWrite part ctl v) s := fun _ _ _ _ => rfl
theorem runEv_prinv : ∀ part v s, runEv (.prinv part v) s = exec (.prinv part v) s := fun _ _ _ => rfl
theorem runEv_tlbinv : ∀ part v s, runEv (.tlbinv part v) s = exec (.tlbinv part v) s := fun _ _ _ => rfl
theorem runEv_invalidationComplete : ∀ part s, runEv (.invalidationComplete part) s = exec (.invalidationComplete part) s := fun _ _ => rfl
theorem runEv_ringHeadWrite : ∀ r v s, runEv (.ringHeadWrite r v) s = exec (.ringHeadWrite r v) s := fun _ _ _ => rfl
theorem runEv_ringCtlWrite : ∀ r v s, runEv (.ringCtlWrite r v) s = exec (.ringCtlWrite r v) s := fun _ _ _ => rfl
theorem runEv_bulkheadReset : ∀ b s, runEv (.bulkheadReset b) s = exec (.bulkheadReset b) s := fun _ _ => rfl
theorem runEv_bulkheadResetDone : ∀ b ok s, runEv (.bulkheadResetDone b ok) s = exec (.bulkheadResetDone b ok) s := fun _ _ _ => rfl
theorem runEv_bulkheadHwFault : ∀ b s, runEv (.bulkheadHwFault b) s = exec (.bulkheadHwFault b) s := fun _ _ => rfl
theorem runEv_partitionChange : ∀ b assigned part s, runEv (.partitionChange b assigned part) s = exec (.partitionChange b assigned part) s := fun _ _ _ _ => rfl
theorem runEv_frameownWrite : ∀ v s, runEv (.frameownWrite v) s = exec (.frameownWrite v) s := fun _ _ => rfl
theorem runEv_frameownChangeComplete : ∀ frame s, runEv (.frameownChangeComplete frame) s = exec (.frameownChangeComplete frame) s := fun _ _ => rfl
theorem runEv_windowEntryStage : ∀ part w hi s, runEv (.windowEntryStage part w hi) s = exec (.windowEntryStage part w hi) s := fun _ _ _ _ => rfl
theorem runEv_windowEntryInstall : ∀ part w lo s, runEv (.windowEntryInstall part w lo) s = exec (.windowEntryInstall part w lo) s := fun _ _ _ _ => rfl
theorem runEv_sliceEntryStage : ∀ e lo s, runEv (.sliceEntryStage e lo) s = exec (.sliceEntryStage e lo) s := fun _ _ _ => rfl
theorem runEv_sliceEntryInstall : ∀ e hi s, runEv (.sliceEntryInstall e hi) s = exec (.sliceEntryInstall e hi) s := fun _ _ _ => rfl
theorem runEv_gangSliceStart : ∀ e s, runEv (.gangSliceStart e) s = exec (.gangSliceStart e) s := fun _ _ => rfl
theorem runEv_gangReady : ∀ e pkg s, runEv (.gangReady e pkg) s = exec (.gangReady e pkg) s := fun _ _ _ => rfl
theorem runEv_gangGraceExpiry : ∀ e s, runEv (.gangGraceExpiry e) s = exec (.gangGraceExpiry e) s := fun _ _ => rfl
theorem runEv_gangSliceEnd : ∀ e s, runEv (.gangSliceEnd e) s = exec (.gangSliceEnd e) s := fun _ _ => rfl
theorem runEv_keyLoad : ∀ slot s, runEv (.keyLoad slot) s = exec (.keyLoad slot) s := fun _ _ => rfl
theorem runEv_keyClear : ∀ slot s, runEv (.keyClear slot) s = exec (.keyClear slot) s := fun _ _ => rfl
theorem runEv_injWrite : ∀ v s, runEv (.injWrite v) s = exec (.injWrite v) s := fun _ _ => rfl
theorem runEv_registerWrite : ∀ fn off v s, runEv (.registerWrite fn off v) s = exec (.registerWrite fn off v) s := fun _ _ _ _ => rfl
theorem runEv_scrubSector : ∀ controller sector found s, runEv (.scrubSector controller sector found) s = exec (.scrubSector controller sector found) s := fun _ _ _ _ => rfl
theorem runEv_linkRetry : ∀ die link ok s, runEv (.linkRetry die link ok) s = exec (.linkRetry die link ok) s := fun _ _ _ _ => rfl
theorem runEv_linkRetraining : ∀ die link s, runEv (.linkRetraining die link) s = exec (.linkRetraining die link) s := fun _ _ _ => rfl
theorem runEv_telemetrySample : ∀ power temps s, runEv (.telemetrySample power temps) s = exec (.telemetrySample power temps) s := fun _ _ _ => rfl
theorem runEv_heartbeatMiss : ∀ pkg s, runEv (.heartbeatMiss pkg) s = exec (.heartbeatMiss pkg) s := fun _ _ => rfl
theorem runEv_agentLoss : ∀ agent s, runEv (.agentLoss agent) s = exec (.agentLoss agent) s := fun _ _ => rfl
theorem runEv_agentRejoin : ∀ agent s, runEv (.agentRejoin agent) s = exec (.agentRejoin agent) s := fun _ _ => rfl
theorem runEv_directorySweep : ∀ die agent s, runEv (.directorySweep die agent) s = exec (.directorySweep die agent) s := fun _ _ _ => rfl
theorem runEv_coldReset : ∀ s, runEv .coldReset s = exec .coldReset s := fun _ => rfl
theorem runEv_getVersion : ∀ s, runEv .getVersion s = exec .getVersion s := fun _ => rfl
theorem runEv_getCapabilities : ∀ s, runEv .getCapabilities s = exec .getCapabilities s := fun _ => rfl
theorem runEv_negotiateAlgorithms : ∀ algs s, runEv (.negotiateAlgorithms algs) s = exec (.negotiateAlgorithms algs) s := fun _ _ => rfl
theorem runEv_getDigests : ∀ s, runEv .getDigests s = exec .getDigests s := fun _ => rfl
theorem runEv_getCertificate : ∀ slot off len s, runEv (.getCertificate slot off len) s = exec (.getCertificate slot off len) s := fun _ _ _ _ => rfl
theorem runEv_challenge : ∀ nonce s, runEv (.challenge nonce) s = exec (.challenge nonce) s := fun _ _ => rfl
theorem runEv_getMeasurements : ∀ nonce s, runEv (.getMeasurements nonce) s = exec (.getMeasurements nonce) s := fun _ _ => rfl
theorem runEv_keyExchange : ∀ pub s, runEv (.keyExchange pub) s = exec (.keyExchange pub) s := fun _ _ => rfl
theorem runEv_finish : ∀ verify s, runEv (.finish verify) s = exec (.finish verify) s := fun _ _ => rfl
theorem runEv_pendingResultWritten : ∀ th k s, runEv (.pendingResultWritten th k) s = exec (.pendingResultWritten th k) s := fun _ _ _ => rfl
theorem runEv_memoryBulkheadFatal : ∀ die s, runEv (.memoryBulkheadFatal die) s = exec (.memoryBulkheadFatal die) s := fun _ _ => rfl
theorem runEv_keySlotBusyClear : ∀ s, runEv .keySlotBusyClear s = exec .keySlotBusyClear s := fun _ => rfl
theorem runEv_commandTakesEffect : ∀ fn s, runEv (.commandTakesEffect fn) s = exec (.commandTakesEffect fn) s := fun _ _ => rfl
theorem runEv_vendorDefinedMessage : ∀ body s, runEv (.vendorDefinedMessage body) s = exec (.vendorDefinedMessage body) s := fun _ _ => rfl

end Sys2Proof.Machine
end

