-- ==== Sys2Proof/Laws/Sparse.lean ====
section
/-! SUPPORT. Sparse stores (memory among them): reading after writing, and the canonical form, which every operation on them keeps. -/

namespace Sys2Proof.Machine

variable {w : Nat}

theorem rd_del_same (m : Sparse w) (a : Nat) : rd (del m a) a = 0 := by
  induction m with
  | nil => rfl
  | cons e m ih =>
    obtain ⟨k, v⟩ := e
    by_cases h : k = a
    · simp [del, h, ih]
    · simp [del, rd, h, ih]

theorem rd_del_other (m : Sparse w) {a b : Nat} (h : a ≠ b) : rd (del m a) b = rd m b := by
  induction m with
  | nil => rfl
  | cons e m ih =>
    obtain ⟨k, v⟩ := e
    by_cases h1 : k = a
    · subst h1; simp [del, rd, h, ih]
    · by_cases h2 : k = b
      · subst h2; simp [del, rd, h1]
      · simp [del, rd, h1, h2, ih]

theorem rd_ins_same (m : Sparse w) (a : Nat) (v : BitVec w) (h : rd m a = 0) (hz : ∀ e ∈ m, e.1 ≠ a) : rd (ins a v m) a = v := by
  induction m with
  | nil => simp [ins, rd]
  | cons e m ih =>
    obtain ⟨k, u⟩ := e
    have hk : k ≠ a := hz (k, u) (List.mem_cons_self ..)
    by_cases h1 : a < k
    · simp [ins, rd, h1]
    · have : rd m a = 0 := by simpa [rd, hk] using h
      simp [ins, rd, h1, hk, ih this fun e he => hz e (List.mem_cons_of_mem _ he)]

theorem rd_ins_other (m : Sparse w) {a b : Nat} (v : BitVec w) (h : a ≠ b) : rd (ins a v m) b = rd m b := by
  induction m with
  | nil => simp [ins, rd, h]
  | cons e m ih =>
    obtain ⟨k, u⟩ := e
    by_cases h1 : a < k
    · simp [ins, rd, h1, h]
    · by_cases h2 : k = b
      · subst h2; simp [ins, rd, h1]
      · simp [ins, rd, h1, h2, ih]

theorem del_ne (m : Sparse w) (a : Nat) : ∀ e ∈ del m a, e.1 ≠ a := by
  induction m with
  | nil => simp [del]
  | cons e m ih =>
    obtain ⟨k, v⟩ := e
    by_cases h : k = a
    · simpa [del, h] using ih
    · intro e he
      simp only [del, h, if_false, List.mem_cons] at he
      rcases he with rfl | he
      · exact h
      · exact ih e he

/-- Reading what was written. -/
@[simp] theorem rd_wr_same (m : Sparse w) (a : Nat) (v : BitVec w) : rd (wr m a v) a = v := by
  unfold wr
  split
  · next h => rw [rd_del_same, h]
  · exact rd_ins_same _ a v (rd_del_same m a) (del_ne m a)

/-- A write leaves every other address alone. -/
theorem rd_wr_other (m : Sparse w) {a b : Nat} (v : BitVec w) (h : a ≠ b) : rd (wr m a v) b = rd m b := by
  unfold wr
  split
  · exact rd_del_other m h
  · rw [rd_ins_other _ v h, rd_del_other m h]

theorem rd_wr (m : Sparse w) (a b : Nat) (v : BitVec w) : rd (wr m a v) b = if a = b then v else rd m b := by
  split
  · next h => rw [h, rd_wr_same]
  · next h => exact rd_wr_other m v h

/-! The canonical form. -/

theorem risingFrom_weaken {m : Sparse w} {lo : Nat} (h : risingFrom (some lo) m = true) : risingFrom none m = true := by
  cases m with
  | nil => rfl
  | cons e m => obtain ⟨k, v⟩ := e; simp_all [risingFrom]

theorem risingFrom_lower {m : Sparse w} {lo l : Nat} (h : risingFrom (some lo) m = true) (hl : l ≤ lo) : risingFrom (some l) m = true := by
  cases m with
  | nil => rfl
  | cons e m =>
    obtain ⟨k, v⟩ := e
    simp only [risingFrom, Bool.and_eq_true, decide_eq_true_eq] at h ⊢
    exact ⟨⟨by omega, h.1.2⟩, h.2⟩

theorem risingFrom_del {m : Sparse w} {lo : Option Nat} (a : Nat) (h : risingFrom lo m = true) : risingFrom lo (del m a) = true := by
  induction m generalizing lo with
  | nil => exact h
  | cons e m ih =>
    obtain ⟨k, v⟩ := e
    simp only [risingFrom, Bool.and_eq_true] at h
    by_cases hk : k = a
    · simp only [del, hk, if_true]
      cases lo with
      | none => exact ih (risingFrom_weaken h.2)
      | some l =>
        have : l < k := by simpa using h.1.1
        exact ih (risingFrom_lower h.2 (by omega))
    · simp only [del, hk, if_false, risingFrom, Bool.and_eq_true]
      exact ⟨h.1, ih h.2⟩

theorem risingFrom_ins {m : Sparse w} {lo : Option Nat} {a : Nat} {v : BitVec w} (hv : v ≠ 0) (h : risingFrom lo m = true)
    (hlo : ∀ l, lo = some l → l < a) (hne : ∀ e ∈ m, e.1 ≠ a) : risingFrom lo (ins a v m) = true := by
  induction m generalizing lo with
  | nil => cases lo <;> simp_all [ins, risingFrom]
  | cons e m ih =>
    obtain ⟨k, u⟩ := e
    have hka : k ≠ a := hne (k, u) (List.mem_cons_self ..)
    simp only [risingFrom, Bool.and_eq_true] at h
    by_cases h1 : a < k
    · have hu : ¬u = 0#w := by simpa using h.1.2
      have hz : ¬v = 0#w := hv
      cases lo with
      | none => simp [ins, h1, risingFrom, hz, hu, h.2]
      | some l => simp [ins, h1, risingFrom, hz, hu, h.2, hlo l rfl]
    · simp only [ins, h1, if_false, risingFrom, Bool.and_eq_true]
      refine ⟨h.1, ih h.2 ?_ fun e he => hne e (List.mem_cons_of_mem _ he)⟩
      intro l hl
      injection hl with hl
      omega

/-- A write keeps the canonical form. -/
theorem risingFrom_wr {m : Sparse w} (a : Nat) (v : BitVec w) (h : risingFrom none m = true) : risingFrom none (wr m a v) = true := by
  unfold wr
  split
  · exact risingFrom_del a h
  · next hv => exact risingFrom_ins hv (risingFrom_del a h) (fun _ hl => nomatch hl) (del_ne m a)

theorem risingFrom_filter {m : Sparse w} {lo : Option Nat} (p : Nat × BitVec w → Bool) (h : risingFrom lo m = true) :
    risingFrom lo (m.filter p) = true := by
  induction m generalizing lo with
  | nil => exact h
  | cons e m ih =>
    obtain ⟨k, v⟩ := e
    simp only [risingFrom, Bool.and_eq_true] at h
    by_cases hp : p (k, v) = true
    · simp only [List.filter_cons, hp, if_true, risingFrom, Bool.and_eq_true]
      exact ⟨h.1, ih h.2⟩
    · simp only [List.filter_cons, hp]
      cases lo with
      | none => exact ih (risingFrom_weaken h.2)
      | some l =>
        have : l < k := by simpa using h.1.1
        exact ih (risingFrom_lower h.2 (by omega))

/-! Memory. -/

theorem Memory.wf_wr {m : Memory} (a : Nat) (v : Byte) (h : Memory.wf m = true) : Memory.wf (wr m a v) = true := risingFrom_wr a v h
theorem Memory.wf_filter {m : Memory} (p : Host.Cell → Bool) (h : Memory.wf m = true) : Memory.wf (m.filter p) = true := risingFrom_filter p h
theorem Memory.wf_wrBytes {m : Memory} (a : Nat) (bs : List Byte) (h : Memory.wf m = true) : Memory.wf (wrBytes m a bs) = true := by
  induction bs generalizing m a with
  | nil => exact h
  | cons b bs ih => exact ih _ (Memory.wf_wr a b h)
theorem Memory.wf_wrNat {m : Memory} (a n v : Nat) (h : Memory.wf m = true) : Memory.wf (wrNat m a n v) = true := Memory.wf_wrBytes _ _ h
theorem Memory.wf_wrCells {m : Memory} (cs : List Host.Cell) (h : Memory.wf m = true) : Memory.wf (wrCells m cs) = true := by
  induction cs generalizing m with
  | nil => exact h
  | cons c cs ih => exact ih (Memory.wf_wr c.1 c.2 h)

/-- A write of bytes leaves every address outside them alone. -/
theorem rd_wrBytes_other (m : Memory) (a : Nat) (bs : List Byte) (b : Nat) (h : b < a ∨ a + bs.length ≤ b) : rd (wrBytes m a bs) b = rd m b := by
  induction bs generalizing m a with
  | nil => rfl
  | cons x bs ih =>
    simp only [List.length_cons] at h
    rw [wrBytes, ih _ _ (by omega), rd_wr_other _ _ (by omega)]
/-- The bytes written are read back. -/
theorem rd_wrBytes_in (m : Memory) (a : Nat) (bs : List Byte) (k : Nat) (h : k < bs.length) : rd (wrBytes m a bs) (a + k) = bs[k] := by
  induction bs generalizing m a k with
  | nil => exact absurd h (Nat.not_lt_zero _)
  | cons x bs ih =>
    cases k with
    | zero => rw [wrBytes, rd_wrBytes_other _ _ _ _ (by omega)]; simp
    | succ k =>
      rw [wrBytes, show a + (k + 1) = a + 1 + k by omega, ih _ _ _ (by simpa using h)]; rfl
@[simp] theorem bytesOfNat_length (n v : Nat) : (bytesOfNat n v).length = n := by
  induction n generalizing v with
  | zero => rfl
  | succ n ih => simp [bytesOfNat, ih]
theorem rd_wrNat_other (m : Memory) (a n v b : Nat) (h : b < a ∨ a + n ≤ b) : rd (wrNat m a n v) b = rd m b :=
  rd_wrBytes_other m a _ b (by simpa using h)

end Sys2Proof.Machine
end

