-- ==== Sys2Proof/Laws/State.lean ====
section
/-! SUPPORT. What each named update of the state does to each field: one lemma per field and update, so that no later proof
unfolds a record update. -/

namespace Sys2Proof.Machine

/-! `tick` changes `cycle` alone. -/

@[simp] theorem State.tick_boot (s : State) : s.tick.boot = s.boot := rfl
@[simp] theorem State.tick_cycle (s : State) : s.tick.cycle = s.cycle + 1 := rfl
@[simp] theorem State.tick_epoch (s : State) : s.tick.epoch = s.epoch := rfl
@[simp] theorem State.tick_chip (s : State) : s.tick.chip = s.chip := rfl
@[simp] theorem State.tick_domain (s : State) : s.tick.domain = s.domain := rfl
@[simp] theorem State.tick_agenda (s : State) : s.tick.agenda = s.agenda := rfl
@[simp] theorem State.tick_freeCtr (s : State) : s.tick.freeCtr = s.freeCtr := rfl
@[simp] theorem State.tick_nextId (s : State) : s.tick.nextId = s.nextId := rfl
@[simp] theorem State.tick_strings (s : State) : s.tick.strings = s.strings := rfl
@[simp] theorem State.tick_threads (s : State) : s.tick.threads = s.threads := rfl
@[simp] theorem State.tick_teams (s : State) : s.tick.teams = s.teams := rfl
@[simp] theorem State.tick_blocks (s : State) : s.tick.blocks = s.blocks := rfl
@[simp] theorem State.tick_sr (s : State) : s.tick.sr = s.sr := rfl
@[simp] theorem State.tick_mem (s : State) : s.tick.mem = s.mem := rfl
@[simp] theorem State.tick_host (s : State) : s.tick.host = s.host := rfl
@[simp] theorem State.tick_sectorKey (s : State) : s.tick.sectorKey = s.sectorKey := rfl
@[simp] theorem State.tick_keys (s : State) : s.tick.keys = s.keys := rfl
@[simp] theorem State.tick_poison (s : State) : s.tick.poison = s.poison := rfl
@[simp] theorem State.tick_upsets (s : State) : s.tick.upsets = s.upsets := rfl
@[simp] theorem State.tick_frames (s : State) : s.tick.frames = s.frames := rfl
@[simp] theorem State.tick_frameBusy (s : State) : s.tick.frameBusy = s.frameBusy := rfl
@[simp] theorem State.tick_l1 (s : State) : s.tick.l1 = s.l1 := rfl
@[simp] theorem State.tick_upd (s : State) : s.tick.upd = s.upd := rfl
@[simp] theorem State.tick_guests (s : State) : s.tick.guests = s.guests := rfl
@[simp] theorem State.tick_dir (s : State) : s.tick.dir = s.dir := rfl
@[simp] theorem State.tick_absent (s : State) : s.tick.absent = s.absent := rfl
@[simp] theorem State.tick_swept (s : State) : s.tick.swept = s.swept := rfl
@[simp] theorem State.tick_wbs (s : State) : s.tick.wbs = s.wbs := rfl
@[simp] theorem State.tick_merges (s : State) : s.tick.merges = s.merges := rfl
@[simp] theorem State.tick_rels (s : State) : s.tick.rels = s.rels := rfl
@[simp] theorem State.tick_loads (s : State) : s.tick.loads = s.loads := rfl
@[simp] theorem State.tick_rets (s : State) : s.tick.rets = s.rets := rfl
@[simp] theorem State.tick_staccs (s : State) : s.tick.staccs = s.staccs := rfl
@[simp] theorem State.tick_atoms (s : State) : s.tick.atoms = s.atoms := rfl
@[simp] theorem State.tick_vstores (s : State) : s.tick.vstores = s.vstores := rfl
@[simp] theorem State.tick_remotes (s : State) : s.tick.remotes = s.remotes := rfl
@[simp] theorem State.tick_tlb (s : State) : s.tick.tlb = s.tlb := rfl
@[simp] theorem State.tick_walks (s : State) : s.tick.walks = s.walks := rfl
@[simp] theorem State.tick_masks (s : State) : s.tick.masks = s.masks := rfl
@[simp] theorem State.tick_walkFaults (s : State) : s.tick.walkFaults = s.walkFaults := rfl
@[simp] theorem State.tick_code (s : State) : s.tick.code = s.code := rfl
@[simp] theorem State.tick_hostHeld (s : State) : s.tick.hostHeld = s.hostHeld := rfl
@[simp] theorem State.tick_farWins (s : State) : s.tick.farWins = s.farWins := rfl
@[simp] theorem State.tick_hostRead (s : State) : s.tick.hostRead = s.hostRead := rfl
@[simp] theorem State.tick_qreqs (s : State) : s.tick.qreqs = s.qreqs := rfl
@[simp] theorem State.tick_copies (s : State) : s.tick.copies = s.copies := rfl
@[simp] theorem State.tick_copyDone (s : State) : s.tick.copyDone = s.copyDone := rfl
@[simp] theorem State.tick_engines (s : State) : s.tick.engines = s.engines := rfl
@[simp] theorem State.tick_relays (s : State) : s.tick.relays = s.relays := rfl
@[simp] theorem State.tick_records (s : State) : s.tick.records = s.records := rfl
@[simp] theorem State.tick_areas (s : State) : s.tick.areas = s.areas := rfl
@[simp] theorem State.tick_launches (s : State) : s.tick.launches = s.launches := rfl
@[simp] theorem State.tick_nextLaunch (s : State) : s.tick.nextLaunch = s.nextLaunch := rfl
@[simp] theorem State.tick_resv (s : State) : s.tick.resv = s.resv := rfl
@[simp] theorem State.tick_lastQueue (s : State) : s.tick.lastQueue = s.lastQueue := rfl
@[simp] theorem State.tick_bulkheads (s : State) : s.tick.bulkheads = s.bulkheads := rfl
@[simp] theorem State.tick_freg (s : State) : s.tick.freg = s.freg := rfl
@[simp] theorem State.tick_preg (s : State) : s.tick.preg = s.preg := rfl
@[simp] theorem State.tick_vfPart (s : State) : s.tick.vfPart = s.vfPart := rfl
@[simp] theorem State.tick_fqHeld (s : State) : s.tick.fqHeld = s.fqHeld := rfl
@[simp] theorem State.tick_cmds (s : State) : s.tick.cmds = s.cmds := rfl
@[simp] theorem State.tick_schedObjs (s : State) : s.tick.schedObjs = s.schedObjs := rfl
@[simp] theorem State.tick_lastLoad (s : State) : s.tick.lastLoad = s.lastLoad := rfl
@[simp] theorem State.tick_invBusy (s : State) : s.tick.invBusy = s.invBusy := rfl
@[simp] theorem State.tick_vectors (s : State) : s.tick.vectors = s.vectors := rfl
@[simp] theorem State.tick_partSel (s : State) : s.tick.partSel = s.partSel := rfl
@[simp] theorem State.tick_frameSel (s : State) : s.tick.frameSel = s.frameSel := rfl
@[simp] theorem State.tick_keyBlob (s : State) : s.tick.keyBlob = s.keyBlob := rfl
@[simp] theorem State.tick_keyBusy (s : State) : s.tick.keyBusy = s.keyBusy := rfl
@[simp] theorem State.tick_keyErr (s : State) : s.tick.keyErr = s.keyErr := rfl
@[simp] theorem State.tick_inj (s : State) : s.tick.inj = s.inj := rfl
@[simp] theorem State.tick_slices (s : State) : s.tick.slices = s.slices := rfl
@[simp] theorem State.tick_sliceStage (s : State) : s.tick.sliceStage = s.sliceStage := rfl
@[simp] theorem State.tick_sliceNow (s : State) : s.tick.sliceNow = s.sliceNow := rfl
@[simp] theorem State.tick_sliceReady (s : State) : s.tick.sliceReady = s.sliceReady := rfl
@[simp] theorem State.tick_measure (s : State) : s.tick.measure = s.measure := rfl
@[simp] theorem State.tick_spdm (s : State) : s.tick.spdm = s.spdm := rfl
@[simp] theorem State.tick_linksDown (s : State) : s.tick.linksDown = s.linksDown := rfl
@[simp] theorem State.tick_linkFails (s : State) : s.tick.linkFails = s.linkFails := rfl
@[simp] theorem State.tick_lostDies (s : State) : s.tick.lostDies = s.lostDies := rfl
@[simp] theorem State.tick_lastError (s : State) : s.tick.lastError = s.lastError := rfl
@[simp] theorem State.tick_telemetry (s : State) : s.tick.telemetry = s.telemetry := rfl
@[simp] theorem State.tick_beats (s : State) : s.tick.beats = s.beats := rfl

/-! `push` changes `agenda` alone. -/

@[simp] theorem State.push_boot (s : State) (e : Ev) : (s.push e).boot = s.boot := rfl
@[simp] theorem State.push_cycle (s : State) (e : Ev) : (s.push e).cycle = s.cycle := rfl
@[simp] theorem State.push_epoch (s : State) (e : Ev) : (s.push e).epoch = s.epoch := rfl
@[simp] theorem State.push_chip (s : State) (e : Ev) : (s.push e).chip = s.chip := rfl
@[simp] theorem State.push_domain (s : State) (e : Ev) : (s.push e).domain = s.domain := rfl
@[simp] theorem State.push_agenda (s : State) (e : Ev) : (s.push e).agenda = s.agenda ++ [e] := rfl
@[simp] theorem State.push_freeCtr (s : State) (e : Ev) : (s.push e).freeCtr = s.freeCtr := rfl
@[simp] theorem State.push_nextId (s : State) (e : Ev) : (s.push e).nextId = s.nextId := rfl
@[simp] theorem State.push_strings (s : State) (e : Ev) : (s.push e).strings = s.strings := rfl
@[simp] theorem State.push_threads (s : State) (e : Ev) : (s.push e).threads = s.threads := rfl
@[simp] theorem State.push_teams (s : State) (e : Ev) : (s.push e).teams = s.teams := rfl
@[simp] theorem State.push_blocks (s : State) (e : Ev) : (s.push e).blocks = s.blocks := rfl
@[simp] theorem State.push_sr (s : State) (e : Ev) : (s.push e).sr = s.sr := rfl
@[simp] theorem State.push_mem (s : State) (e : Ev) : (s.push e).mem = s.mem := rfl
@[simp] theorem State.push_host (s : State) (e : Ev) : (s.push e).host = s.host := rfl
@[simp] theorem State.push_sectorKey (s : State) (e : Ev) : (s.push e).sectorKey = s.sectorKey := rfl
@[simp] theorem State.push_keys (s : State) (e : Ev) : (s.push e).keys = s.keys := rfl
@[simp] theorem State.push_poison (s : State) (e : Ev) : (s.push e).poison = s.poison := rfl
@[simp] theorem State.push_upsets (s : State) (e : Ev) : (s.push e).upsets = s.upsets := rfl
@[simp] theorem State.push_frames (s : State) (e : Ev) : (s.push e).frames = s.frames := rfl
@[simp] theorem State.push_frameBusy (s : State) (e : Ev) : (s.push e).frameBusy = s.frameBusy := rfl
@[simp] theorem State.push_l1 (s : State) (e : Ev) : (s.push e).l1 = s.l1 := rfl
@[simp] theorem State.push_upd (s : State) (e : Ev) : (s.push e).upd = s.upd := rfl
@[simp] theorem State.push_guests (s : State) (e : Ev) : (s.push e).guests = s.guests := rfl
@[simp] theorem State.push_dir (s : State) (e : Ev) : (s.push e).dir = s.dir := rfl
@[simp] theorem State.push_absent (s : State) (e : Ev) : (s.push e).absent = s.absent := rfl
@[simp] theorem State.push_swept (s : State) (e : Ev) : (s.push e).swept = s.swept := rfl
@[simp] theorem State.push_wbs (s : State) (e : Ev) : (s.push e).wbs = s.wbs := rfl
@[simp] theorem State.push_merges (s : State) (e : Ev) : (s.push e).merges = s.merges := rfl
@[simp] theorem State.push_rels (s : State) (e : Ev) : (s.push e).rels = s.rels := rfl
@[simp] theorem State.push_loads (s : State) (e : Ev) : (s.push e).loads = s.loads := rfl
@[simp] theorem State.push_rets (s : State) (e : Ev) : (s.push e).rets = s.rets := rfl
@[simp] theorem State.push_staccs (s : State) (e : Ev) : (s.push e).staccs = s.staccs := rfl
@[simp] theorem State.push_atoms (s : State) (e : Ev) : (s.push e).atoms = s.atoms := rfl
@[simp] theorem State.push_vstores (s : State) (e : Ev) : (s.push e).vstores = s.vstores := rfl
@[simp] theorem State.push_remotes (s : State) (e : Ev) : (s.push e).remotes = s.remotes := rfl
@[simp] theorem State.push_tlb (s : State) (e : Ev) : (s.push e).tlb = s.tlb := rfl
@[simp] theorem State.push_walks (s : State) (e : Ev) : (s.push e).walks = s.walks := rfl
@[simp] theorem State.push_masks (s : State) (e : Ev) : (s.push e).masks = s.masks := rfl
@[simp] theorem State.push_walkFaults (s : State) (e : Ev) : (s.push e).walkFaults = s.walkFaults := rfl
@[simp] theorem State.push_code (s : State) (e : Ev) : (s.push e).code = s.code := rfl
@[simp] theorem State.push_hostHeld (s : State) (e : Ev) : (s.push e).hostHeld = s.hostHeld := rfl
@[simp] theorem State.push_farWins (s : State) (e : Ev) : (s.push e).farWins = s.farWins := rfl
@[simp] theorem State.push_hostRead (s : State) (e : Ev) : (s.push e).hostRead = s.hostRead := rfl
@[simp] theorem State.push_qreqs (s : State) (e : Ev) : (s.push e).qreqs = s.qreqs := rfl
@[simp] theorem State.push_copies (s : State) (e : Ev) : (s.push e).copies = s.copies := rfl
@[simp] theorem State.push_copyDone (s : State) (e : Ev) : (s.push e).copyDone = s.copyDone := rfl
@[simp] theorem State.push_engines (s : State) (e : Ev) : (s.push e).engines = s.engines := rfl
@[simp] theorem State.push_relays (s : State) (e : Ev) : (s.push e).relays = s.relays := rfl
@[simp] theorem State.push_records (s : State) (e : Ev) : (s.push e).records = s.records := rfl
@[simp] theorem State.push_areas (s : State) (e : Ev) : (s.push e).areas = s.areas := rfl
@[simp] theorem State.push_launches (s : State) (e : Ev) : (s.push e).launches = s.launches := rfl
@[simp] theorem State.push_nextLaunch (s : State) (e : Ev) : (s.push e).nextLaunch = s.nextLaunch := rfl
@[simp] theorem State.push_resv (s : State) (e : Ev) : (s.push e).resv = s.resv := rfl
@[simp] theorem State.push_lastQueue (s : State) (e : Ev) : (s.push e).lastQueue = s.lastQueue := rfl
@[simp] theorem State.push_bulkheads (s : State) (e : Ev) : (s.push e).bulkheads = s.bulkheads := rfl
@[simp] theorem State.push_freg (s : State) (e : Ev) : (s.push e).freg = s.freg := rfl
@[simp] theorem State.push_preg (s : State) (e : Ev) : (s.push e).preg = s.preg := rfl
@[simp] theorem State.push_vfPart (s : State) (e : Ev) : (s.push e).vfPart = s.vfPart := rfl
@[simp] theorem State.push_fqHeld (s : State) (e : Ev) : (s.push e).fqHeld = s.fqHeld := rfl
@[simp] theorem State.push_cmds (s : State) (e : Ev) : (s.push e).cmds = s.cmds := rfl
@[simp] theorem State.push_schedObjs (s : State) (e : Ev) : (s.push e).schedObjs = s.schedObjs := rfl
@[simp] theorem State.push_lastLoad (s : State) (e : Ev) : (s.push e).lastLoad = s.lastLoad := rfl
@[simp] theorem State.push_invBusy (s : State) (e : Ev) : (s.push e).invBusy = s.invBusy := rfl
@[simp] theorem State.push_vectors (s : State) (e : Ev) : (s.push e).vectors = s.vectors := rfl
@[simp] theorem State.push_partSel (s : State) (e : Ev) : (s.push e).partSel = s.partSel := rfl
@[simp] theorem State.push_frameSel (s : State) (e : Ev) : (s.push e).frameSel = s.frameSel := rfl
@[simp] theorem State.push_keyBlob (s : State) (e : Ev) : (s.push e).keyBlob = s.keyBlob := rfl
@[simp] theorem State.push_keyBusy (s : State) (e : Ev) : (s.push e).keyBusy = s.keyBusy := rfl
@[simp] theorem State.push_keyErr (s : State) (e : Ev) : (s.push e).keyErr = s.keyErr := rfl
@[simp] theorem State.push_inj (s : State) (e : Ev) : (s.push e).inj = s.inj := rfl
@[simp] theorem State.push_slices (s : State) (e : Ev) : (s.push e).slices = s.slices := rfl
@[simp] theorem State.push_sliceStage (s : State) (e : Ev) : (s.push e).sliceStage = s.sliceStage := rfl
@[simp] theorem State.push_sliceNow (s : State) (e : Ev) : (s.push e).sliceNow = s.sliceNow := rfl
@[simp] theorem State.push_sliceReady (s : State) (e : Ev) : (s.push e).sliceReady = s.sliceReady := rfl
@[simp] theorem State.push_measure (s : State) (e : Ev) : (s.push e).measure = s.measure := rfl
@[simp] theorem State.push_spdm (s : State) (e : Ev) : (s.push e).spdm = s.spdm := rfl
@[simp] theorem State.push_linksDown (s : State) (e : Ev) : (s.push e).linksDown = s.linksDown := rfl
@[simp] theorem State.push_linkFails (s : State) (e : Ev) : (s.push e).linkFails = s.linkFails := rfl
@[simp] theorem State.push_lostDies (s : State) (e : Ev) : (s.push e).lostDies = s.lostDies := rfl
@[simp] theorem State.push_lastError (s : State) (e : Ev) : (s.push e).lastError = s.lastError := rfl
@[simp] theorem State.push_telemetry (s : State) (e : Ev) : (s.push e).telemetry = s.telemetry := rfl
@[simp] theorem State.push_beats (s : State) (e : Ev) : (s.push e).beats = s.beats := rfl

/-! `bump` changes `nextId` alone. -/

@[simp] theorem State.bump_boot (s : State) : s.bump.boot = s.boot := rfl
@[simp] theorem State.bump_cycle (s : State) : s.bump.cycle = s.cycle := rfl
@[simp] theorem State.bump_epoch (s : State) : s.bump.epoch = s.epoch := rfl
@[simp] theorem State.bump_chip (s : State) : s.bump.chip = s.chip := rfl
@[simp] theorem State.bump_domain (s : State) : s.bump.domain = s.domain := rfl
@[simp] theorem State.bump_agenda (s : State) : s.bump.agenda = s.agenda := rfl
@[simp] theorem State.bump_freeCtr (s : State) : s.bump.freeCtr = s.freeCtr := rfl
@[simp] theorem State.bump_nextId (s : State) : s.bump.nextId = s.nextId + 1 := rfl
@[simp] theorem State.bump_strings (s : State) : s.bump.strings = s.strings := rfl
@[simp] theorem State.bump_threads (s : State) : s.bump.threads = s.threads := rfl
@[simp] theorem State.bump_teams (s : State) : s.bump.teams = s.teams := rfl
@[simp] theorem State.bump_blocks (s : State) : s.bump.blocks = s.blocks := rfl
@[simp] theorem State.bump_sr (s : State) : s.bump.sr = s.sr := rfl
@[simp] theorem State.bump_mem (s : State) : s.bump.mem = s.mem := rfl
@[simp] theorem State.bump_host (s : State) : s.bump.host = s.host := rfl
@[simp] theorem State.bump_sectorKey (s : State) : s.bump.sectorKey = s.sectorKey := rfl
@[simp] theorem State.bump_keys (s : State) : s.bump.keys = s.keys := rfl
@[simp] theorem State.bump_poison (s : State) : s.bump.poison = s.poison := rfl
@[simp] theorem State.bump_upsets (s : State) : s.bump.upsets = s.upsets := rfl
@[simp] theorem State.bump_frames (s : State) : s.bump.frames = s.frames := rfl
@[simp] theorem State.bump_frameBusy (s : State) : s.bump.frameBusy = s.frameBusy := rfl
@[simp] theorem State.bump_l1 (s : State) : s.bump.l1 = s.l1 := rfl
@[simp] theorem State.bump_upd (s : State) : s.bump.upd = s.upd := rfl
@[simp] theorem State.bump_guests (s : State) : s.bump.guests = s.guests := rfl
@[simp] theorem State.bump_dir (s : State) : s.bump.dir = s.dir := rfl
@[simp] theorem State.bump_absent (s : State) : s.bump.absent = s.absent := rfl
@[simp] theorem State.bump_swept (s : State) : s.bump.swept = s.swept := rfl
@[simp] theorem State.bump_wbs (s : State) : s.bump.wbs = s.wbs := rfl
@[simp] theorem State.bump_merges (s : State) : s.bump.merges = s.merges := rfl
@[simp] theorem State.bump_rels (s : State) : s.bump.rels = s.rels := rfl
@[simp] theorem State.bump_loads (s : State) : s.bump.loads = s.loads := rfl
@[simp] theorem State.bump_rets (s : State) : s.bump.rets = s.rets := rfl
@[simp] theorem State.bump_staccs (s : State) : s.bump.staccs = s.staccs := rfl
@[simp] theorem State.bump_atoms (s : State) : s.bump.atoms = s.atoms := rfl
@[simp] theorem State.bump_vstores (s : State) : s.bump.vstores = s.vstores := rfl
@[simp] theorem State.bump_remotes (s : State) : s.bump.remotes = s.remotes := rfl
@[simp] theorem State.bump_tlb (s : State) : s.bump.tlb = s.tlb := rfl
@[simp] theorem State.bump_walks (s : State) : s.bump.walks = s.walks := rfl
@[simp] theorem State.bump_masks (s : State) : s.bump.masks = s.masks := rfl
@[simp] theorem State.bump_walkFaults (s : State) : s.bump.walkFaults = s.walkFaults := rfl
@[simp] theorem State.bump_code (s : State) : s.bump.code = s.code := rfl
@[simp] theorem State.bump_hostHeld (s : State) : s.bump.hostHeld = s.hostHeld := rfl
@[simp] theorem State.bump_farWins (s : State) : s.bump.farWins = s.farWins := rfl
@[simp] theorem State.bump_hostRead (s : State) : s.bump.hostRead = s.hostRead := rfl
@[simp] theorem State.bump_qreqs (s : State) : s.bump.qreqs = s.qreqs := rfl
@[simp] theorem State.bump_copies (s : State) : s.bump.copies = s.copies := rfl
@[simp] theorem State.bump_copyDone (s : State) : s.bump.copyDone = s.copyDone := rfl
@[simp] theorem State.bump_engines (s : State) : s.bump.engines = s.engines := rfl
@[simp] theorem State.bump_relays (s : State) : s.bump.relays = s.relays := rfl
@[simp] theorem State.bump_records (s : State) : s.bump.records = s.records := rfl
@[simp] theorem State.bump_areas (s : State) : s.bump.areas = s.areas := rfl
@[simp] theorem State.bump_launches (s : State) : s.bump.launches = s.launches := rfl
@[simp] theorem State.bump_nextLaunch (s : State) : s.bump.nextLaunch = s.nextLaunch := rfl
@[simp] theorem State.bump_resv (s : State) : s.bump.resv = s.resv := rfl
@[simp] theorem State.bump_lastQueue (s : State) : s.bump.lastQueue = s.lastQueue := rfl
@[simp] theorem State.bump_bulkheads (s : State) : s.bump.bulkheads = s.bulkheads := rfl
@[simp] theorem State.bump_freg (s : State) : s.bump.freg = s.freg := rfl
@[simp] theorem State.bump_preg (s : State) : s.bump.preg = s.preg := rfl
@[simp] theorem State.bump_vfPart (s : State) : s.bump.vfPart = s.vfPart := rfl
@[simp] theorem State.bump_fqHeld (s : State) : s.bump.fqHeld = s.fqHeld := rfl
@[simp] theorem State.bump_cmds (s : State) : s.bump.cmds = s.cmds := rfl
@[simp] theorem State.bump_schedObjs (s : State) : s.bump.schedObjs = s.schedObjs := rfl
@[simp] theorem State.bump_lastLoad (s : State) : s.bump.lastLoad = s.lastLoad := rfl
@[simp] theorem State.bump_invBusy (s : State) : s.bump.invBusy = s.invBusy := rfl
@[simp] theorem State.bump_vectors (s : State) : s.bump.vectors = s.vectors := rfl
@[simp] theorem State.bump_partSel (s : State) : s.bump.partSel = s.partSel := rfl
@[simp] theorem State.bump_frameSel (s : State) : s.bump.frameSel = s.frameSel := rfl
@[simp] theorem State.bump_keyBlob (s : State) : s.bump.keyBlob = s.keyBlob := rfl
@[simp] theorem State.bump_keyBusy (s : State) : s.bump.keyBusy = s.keyBusy := rfl
@[simp] theorem State.bump_keyErr (s : State) : s.bump.keyErr = s.keyErr := rfl
@[simp] theorem State.bump_inj (s : State) : s.bump.inj = s.inj := rfl
@[simp] theorem State.bump_slices (s : State) : s.bump.slices = s.slices := rfl
@[simp] theorem State.bump_sliceStage (s : State) : s.bump.sliceStage = s.sliceStage := rfl
@[simp] theorem State.bump_sliceNow (s : State) : s.bump.sliceNow = s.sliceNow := rfl
@[simp] theorem State.bump_sliceReady (s : State) : s.bump.sliceReady = s.sliceReady := rfl
@[simp] theorem State.bump_measure (s : State) : s.bump.measure = s.measure := rfl
@[simp] theorem State.bump_spdm (s : State) : s.bump.spdm = s.spdm := rfl
@[simp] theorem State.bump_linksDown (s : State) : s.bump.linksDown = s.linksDown := rfl
@[simp] theorem State.bump_linkFails (s : State) : s.bump.linkFails = s.linkFails := rfl
@[simp] theorem State.bump_lostDies (s : State) : s.bump.lostDies = s.lostDies := rfl
@[simp] theorem State.bump_lastError (s : State) : s.bump.lastError = s.lastError := rfl
@[simp] theorem State.bump_telemetry (s : State) : s.bump.telemetry = s.telemetry := rfl
@[simp] theorem State.bump_beats (s : State) : s.bump.beats = s.beats := rfl

/-! `redraw` changes `freeCtr` alone. -/

@[simp] theorem State.redraw_boot (s : State) : s.redraw.boot = s.boot := rfl
@[simp] theorem State.redraw_cycle (s : State) : s.redraw.cycle = s.cycle := rfl
@[simp] theorem State.redraw_epoch (s : State) : s.redraw.epoch = s.epoch := rfl
@[simp] theorem State.redraw_chip (s : State) : s.redraw.chip = s.chip := rfl
@[simp] theorem State.redraw_domain (s : State) : s.redraw.domain = s.domain := rfl
@[simp] theorem State.redraw_agenda (s : State) : s.redraw.agenda = s.agenda := rfl
@[simp] theorem State.redraw_freeCtr (s : State) : s.redraw.freeCtr = s.freeCtr + 1 := rfl
@[simp] theorem State.redraw_nextId (s : State) : s.redraw.nextId = s.nextId := rfl
@[simp] theorem State.redraw_strings (s : State) : s.redraw.strings = s.strings := rfl
@[simp] theorem State.redraw_threads (s : State) : s.redraw.threads = s.threads := rfl
@[simp] theorem State.redraw_teams (s : State) : s.redraw.teams = s.teams := rfl
@[simp] theorem State.redraw_blocks (s : State) : s.redraw.blocks = s.blocks := rfl
@[simp] theorem State.redraw_sr (s : State) : s.redraw.sr = s.sr := rfl
@[simp] theorem State.redraw_mem (s : State) : s.redraw.mem = s.mem := rfl
@[simp] theorem State.redraw_host (s : State) : s.redraw.host = s.host := rfl
@[simp] theorem State.redraw_sectorKey (s : State) : s.redraw.sectorKey = s.sectorKey := rfl
@[simp] theorem State.redraw_keys (s : State) : s.redraw.keys = s.keys := rfl
@[simp] theorem State.redraw_poison (s : State) : s.redraw.poison = s.poison := rfl
@[simp] theorem State.redraw_upsets (s : State) : s.redraw.upsets = s.upsets := rfl
@[simp] theorem State.redraw_frames (s : State) : s.redraw.frames = s.frames := rfl
@[simp] theorem State.redraw_frameBusy (s : State) : s.redraw.frameBusy = s.frameBusy := rfl
@[simp] theorem State.redraw_l1 (s : State) : s.redraw.l1 = s.l1 := rfl
@[simp] theorem State.redraw_upd (s : State) : s.redraw.upd = s.upd := rfl
@[simp] theorem State.redraw_guests (s : State) : s.redraw.guests = s.guests := rfl
@[simp] theorem State.redraw_dir (s : State) : s.redraw.dir = s.dir := rfl
@[simp] theorem State.redraw_absent (s : State) : s.redraw.absent = s.absent := rfl
@[simp] theorem State.redraw_swept (s : State) : s.redraw.swept = s.swept := rfl
@[simp] theorem State.redraw_wbs (s : State) : s.redraw.wbs = s.wbs := rfl
@[simp] theorem State.redraw_merges (s : State) : s.redraw.merges = s.merges := rfl
@[simp] theorem State.redraw_rels (s : State) : s.redraw.rels = s.rels := rfl
@[simp] theorem State.redraw_loads (s : State) : s.redraw.loads = s.loads := rfl
@[simp] theorem State.redraw_rets (s : State) : s.redraw.rets = s.rets := rfl
@[simp] theorem State.redraw_staccs (s : State) : s.redraw.staccs = s.staccs := rfl
@[simp] theorem State.redraw_atoms (s : State) : s.redraw.atoms = s.atoms := rfl
@[simp] theorem State.redraw_vstores (s : State) : s.redraw.vstores = s.vstores := rfl
@[simp] theorem State.redraw_remotes (s : State) : s.redraw.remotes = s.remotes := rfl
@[simp] theorem State.redraw_tlb (s : State) : s.redraw.tlb = s.tlb := rfl
@[simp] theorem State.redraw_walks (s : State) : s.redraw.walks = s.walks := rfl
@[simp] theorem State.redraw_masks (s : State) : s.redraw.masks = s.masks := rfl
@[simp] theorem State.redraw_walkFaults (s : State) : s.redraw.walkFaults = s.walkFaults := rfl
@[simp] theorem State.redraw_code (s : State) : s.redraw.code = s.code := rfl
@[simp] theorem State.redraw_hostHeld (s : State) : s.redraw.hostHeld = s.hostHeld := rfl
@[simp] theorem State.redraw_farWins (s : State) : s.redraw.farWins = s.farWins := rfl
@[simp] theorem State.redraw_hostRead (s : State) : s.redraw.hostRead = s.hostRead := rfl
@[simp] theorem State.redraw_qreqs (s : State) : s.redraw.qreqs = s.qreqs := rfl
@[simp] theorem State.redraw_copies (s : State) : s.redraw.copies = s.copies := rfl
@[simp] theorem State.redraw_copyDone (s : State) : s.redraw.copyDone = s.copyDone := rfl
@[simp] theorem State.redraw_engines (s : State) : s.redraw.engines = s.engines := rfl
@[simp] theorem State.redraw_relays (s : State) : s.redraw.relays = s.relays := rfl
@[simp] theorem State.redraw_records (s : State) : s.redraw.records = s.records := rfl
@[simp] theorem State.redraw_areas (s : State) : s.redraw.areas = s.areas := rfl
@[simp] theorem State.redraw_launches (s : State) : s.redraw.launches = s.launches := rfl
@[simp] theorem State.redraw_nextLaunch (s : State) : s.redraw.nextLaunch = s.nextLaunch := rfl
@[simp] theorem State.redraw_resv (s : State) : s.redraw.resv = s.resv := rfl
@[simp] theorem State.redraw_lastQueue (s : State) : s.redraw.lastQueue = s.lastQueue := rfl
@[simp] theorem State.redraw_bulkheads (s : State) : s.redraw.bulkheads = s.bulkheads := rfl
@[simp] theorem State.redraw_freg (s : State) : s.redraw.freg = s.freg := rfl
@[simp] theorem State.redraw_preg (s : State) : s.redraw.preg = s.preg := rfl
@[simp] theorem State.redraw_vfPart (s : State) : s.redraw.vfPart = s.vfPart := rfl
@[simp] theorem State.redraw_fqHeld (s : State) : s.redraw.fqHeld = s.fqHeld := rfl
@[simp] theorem State.redraw_cmds (s : State) : s.redraw.cmds = s.cmds := rfl
@[simp] theorem State.redraw_schedObjs (s : State) : s.redraw.schedObjs = s.schedObjs := rfl
@[simp] theorem State.redraw_lastLoad (s : State) : s.redraw.lastLoad = s.lastLoad := rfl
@[simp] theorem State.redraw_invBusy (s : State) : s.redraw.invBusy = s.invBusy := rfl
@[simp] theorem State.redraw_vectors (s : State) : s.redraw.vectors = s.vectors := rfl
@[simp] theorem State.redraw_partSel (s : State) : s.redraw.partSel = s.partSel := rfl
@[simp] theorem State.redraw_frameSel (s : State) : s.redraw.frameSel = s.frameSel := rfl
@[simp] theorem State.redraw_keyBlob (s : State) : s.redraw.keyBlob = s.keyBlob := rfl
@[simp] theorem State.redraw_keyBusy (s : State) : s.redraw.keyBusy = s.keyBusy := rfl
@[simp] theorem State.redraw_keyErr (s : State) : s.redraw.keyErr = s.keyErr := rfl
@[simp] theorem State.redraw_inj (s : State) : s.redraw.inj = s.inj := rfl
@[simp] theorem State.redraw_slices (s : State) : s.redraw.slices = s.slices := rfl
@[simp] theorem State.redraw_sliceStage (s : State) : s.redraw.sliceStage = s.sliceStage := rfl
@[simp] theorem State.redraw_sliceNow (s : State) : s.redraw.sliceNow = s.sliceNow := rfl
@[simp] theorem State.redraw_sliceReady (s : State) : s.redraw.sliceReady = s.sliceReady := rfl
@[simp] theorem State.redraw_measure (s : State) : s.redraw.measure = s.measure := rfl
@[simp] theorem State.redraw_spdm (s : State) : s.redraw.spdm = s.spdm := rfl
@[simp] theorem State.redraw_linksDown (s : State) : s.redraw.linksDown = s.linksDown := rfl
@[simp] theorem State.redraw_linkFails (s : State) : s.redraw.linkFails = s.linkFails := rfl
@[simp] theorem State.redraw_lostDies (s : State) : s.redraw.lostDies = s.lostDies := rfl
@[simp] theorem State.redraw_lastError (s : State) : s.redraw.lastError = s.lastError := rfl
@[simp] theorem State.redraw_telemetry (s : State) : s.redraw.telemetry = s.telemetry := rfl
@[simp] theorem State.redraw_beats (s : State) : s.redraw.beats = s.beats := rfl

/-! `modThread` changes `threads` alone. -/

@[simp] theorem State.modThread_boot (s : State) (k : ThreadId) (f : Thread → Thread) : (s.modThread k f).boot = s.boot := rfl
@[simp] theorem State.modThread_cycle (s : State) (k : ThreadId) (f : Thread → Thread) : (s.modThread k f).cycle = s.cycle := rfl
@[simp] theorem State.modThread_epoch (s : State) (k : ThreadId) (f : Thread → Thread) : (s.modThread k f).epoch = s.epoch := rfl
@[simp] theorem State.modThread_chip (s : State) (k : ThreadId) (f : Thread → Thread) : (s.modThread k f).chip = s.chip := rfl
@[simp] theorem State.modThread_domain (s : State) (k : ThreadId) (f : Thread → Thread) : (s.modThread k f).domain = s.domain := rfl
@[simp] theorem State.modThread_agenda (s : State) (k : ThreadId) (f : Thread → Thread) : (s.modThread k f).agenda = s.agenda := rfl
@[simp] theorem State.modThread_freeCtr (s : State) (k : ThreadId) (f : Thread → Thread) : (s.modThread k f).freeCtr = s.freeCtr := rfl
@[simp] theorem State.modThread_nextId (s : State) (k : ThreadId) (f : Thread → Thread) : (s.modThread k f).nextId = s.nextId := rfl
@[simp] theorem State.modThread_strings (s : State) (k : ThreadId) (f : Thread → Thread) : (s.modThread k f).strings = s.strings := rfl
@[simp] theorem State.modThread_threads (s : State) (k : ThreadId) (f : Thread → Thread) : (s.modThread k f).threads = s.threads.map fun t => if t.id == k then f t else t := rfl
@[simp] theorem State.modThread_teams (s : State) (k : ThreadId) (f : Thread → Thread) : (s.modThread k f).teams = s.teams := rfl
@[simp] theorem State.modThread_blocks (s : State) (k : ThreadId) (f : Thread → Thread) : (s.modThread k f).blocks = s.blocks := rfl
@[simp] theorem State.modThread_sr (s : State) (k : ThreadId) (f : Thread → Thread) : (s.modThread k f).sr = s.sr := rfl
@[simp] theorem State.modThread_mem (s : State) (k : ThreadId) (f : Thread → Thread) : (s.modThread k f).mem = s.mem := rfl
@[simp] theorem State.modThread_host (s : State) (k : ThreadId) (f : Thread → Thread) : (s.modThread k f).host = s.host := rfl
@[simp] theorem State.modThread_sectorKey (s : State) (k : ThreadId) (f : Thread → Thread) : (s.modThread k f).sectorKey = s.sectorKey := rfl
@[simp] theorem State.modThread_keys (s : State) (k : ThreadId) (f : Thread → Thread) : (s.modThread k f).keys = s.keys := rfl
@[simp] theorem State.modThread_poison (s : State) (k : ThreadId) (f : Thread → Thread) : (s.modThread k f).poison = s.poison := rfl
@[simp] theorem State.modThread_upsets (s : State) (k : ThreadId) (f : Thread → Thread) : (s.modThread k f).upsets = s.upsets := rfl
@[simp] theorem State.modThread_frames (s : State) (k : ThreadId) (f : Thread → Thread) : (s.modThread k f).frames = s.frames := rfl
@[simp] theorem State.modThread_frameBusy (s : State) (k : ThreadId) (f : Thread → Thread) : (s.modThread k f).frameBusy = s.frameBusy := rfl
@[simp] theorem State.modThread_l1 (s : State) (k : ThreadId) (f : Thread → Thread) : (s.modThread k f).l1 = s.l1 := rfl
@[simp] theorem State.modThread_upd (s : State) (k : ThreadId) (f : Thread → Thread) : (s.modThread k f).upd = s.upd := rfl
@[simp] theorem State.modThread_guests (s : State) (k : ThreadId) (f : Thread → Thread) : (s.modThread k f).guests = s.guests := rfl
@[simp] theorem State.modThread_dir (s : State) (k : ThreadId) (f : Thread → Thread) : (s.modThread k f).dir = s.dir := rfl
@[simp] theorem State.modThread_absent (s : State) (k : ThreadId) (f : Thread → Thread) : (s.modThread k f).absent = s.absent := rfl
@[simp] theorem State.modThread_swept (s : State) (k : ThreadId) (f : Thread → Thread) : (s.modThread k f).swept = s.swept := rfl
@[simp] theorem State.modThread_wbs (s : State) (k : ThreadId) (f : Thread → Thread) : (s.modThread k f).wbs = s.wbs := rfl
@[simp] theorem State.modThread_merges (s : State) (k : ThreadId) (f : Thread → Thread) : (s.modThread k f).merges = s.merges := rfl
@[simp] theorem State.modThread_rels (s : State) (k : ThreadId) (f : Thread → Thread) : (s.modThread k f).rels = s.rels := rfl
@[simp] theorem State.modThread_loads (s : State) (k : ThreadId) (f : Thread → Thread) : (s.modThread k f).loads = s.loads := rfl
@[simp] theorem State.modThread_rets (s : State) (k : ThreadId) (f : Thread → Thread) : (s.modThread k f).rets = s.rets := rfl
@[simp] theorem State.modThread_staccs (s : State) (k : ThreadId) (f : Thread → Thread) : (s.modThread k f).staccs = s.staccs := rfl
@[simp] theorem State.modThread_atoms (s : State) (k : ThreadId) (f : Thread → Thread) : (s.modThread k f).atoms = s.atoms := rfl
@[simp] theorem State.modThread_vstores (s : State) (k : ThreadId) (f : Thread → Thread) : (s.modThread k f).vstores = s.vstores := rfl
@[simp] theorem State.modThread_remotes (s : State) (k : ThreadId) (f : Thread → Thread) : (s.modThread k f).remotes = s.remotes := rfl
@[simp] theorem State.modThread_tlb (s : State) (k : ThreadId) (f : Thread → Thread) : (s.modThread k f).tlb = s.tlb := rfl
@[simp] theorem State.modThread_walks (s : State) (k : ThreadId) (f : Thread → Thread) : (s.modThread k f).walks = s.walks := rfl
@[simp] theorem State.modThread_masks (s : State) (k : ThreadId) (f : Thread → Thread) : (s.modThread k f).masks = s.masks := rfl
@[simp] theorem State.modThread_walkFaults (s : State) (k : ThreadId) (f : Thread → Thread) : (s.modThread k f).walkFaults = s.walkFaults := rfl
@[simp] theorem State.modThread_code (s : State) (k : ThreadId) (f : Thread → Thread) : (s.modThread k f).code = s.code := rfl
@[simp] theorem State.modThread_hostHeld (s : State) (k : ThreadId) (f : Thread → Thread) : (s.modThread k f).hostHeld = s.hostHeld := rfl
@[simp] theorem State.modThread_farWins (s : State) (k : ThreadId) (f : Thread → Thread) : (s.modThread k f).farWins = s.farWins := rfl
@[simp] theorem State.modThread_hostRead (s : State) (k : ThreadId) (f : Thread → Thread) : (s.modThread k f).hostRead = s.hostRead := rfl
@[simp] theorem State.modThread_qreqs (s : State) (k : ThreadId) (f : Thread → Thread) : (s.modThread k f).qreqs = s.qreqs := rfl
@[simp] theorem State.modThread_copies (s : State) (k : ThreadId) (f : Thread → Thread) : (s.modThread k f).copies = s.copies := rfl
@[simp] theorem State.modThread_copyDone (s : State) (k : ThreadId) (f : Thread → Thread) : (s.modThread k f).copyDone = s.copyDone := rfl
@[simp] theorem State.modThread_engines (s : State) (k : ThreadId) (f : Thread → Thread) : (s.modThread k f).engines = s.engines := rfl
@[simp] theorem State.modThread_relays (s : State) (k : ThreadId) (f : Thread → Thread) : (s.modThread k f).relays = s.relays := rfl
@[simp] theorem State.modThread_records (s : State) (k : ThreadId) (f : Thread → Thread) : (s.modThread k f).records = s.records := rfl
@[simp] theorem State.modThread_areas (s : State) (k : ThreadId) (f : Thread → Thread) : (s.modThread k f).areas = s.areas := rfl
@[simp] theorem State.modThread_launches (s : State) (k : ThreadId) (f : Thread → Thread) : (s.modThread k f).launches = s.launches := rfl
@[simp] theorem State.modThread_nextLaunch (s : State) (k : ThreadId) (f : Thread → Thread) : (s.modThread k f).nextLaunch = s.nextLaunch := rfl
@[simp] theorem State.modThread_resv (s : State) (k : ThreadId) (f : Thread → Thread) : (s.modThread k f).resv = s.resv := rfl
@[simp] theorem State.modThread_lastQueue (s : State) (k : ThreadId) (f : Thread → Thread) : (s.modThread k f).lastQueue = s.lastQueue := rfl
@[simp] theorem State.modThread_bulkheads (s : State) (k : ThreadId) (f : Thread → Thread) : (s.modThread k f).bulkheads = s.bulkheads := rfl
@[simp] theorem State.modThread_freg (s : State) (k : ThreadId) (f : Thread → Thread) : (s.modThread k f).freg = s.freg := rfl
@[simp] theorem State.modThread_preg (s : State) (k : ThreadId) (f : Thread → Thread) : (s.modThread k f).preg = s.preg := rfl
@[simp] theorem State.modThread_vfPart (s : State) (k : ThreadId) (f : Thread → Thread) : (s.modThread k f).vfPart = s.vfPart := rfl
@[simp] theorem State.modThread_fqHeld (s : State) (k : ThreadId) (f : Thread → Thread) : (s.modThread k f).fqHeld = s.fqHeld := rfl
@[simp] theorem State.modThread_cmds (s : State) (k : ThreadId) (f : Thread → Thread) : (s.modThread k f).cmds = s.cmds := rfl
@[simp] theorem State.modThread_schedObjs (s : State) (k : ThreadId) (f : Thread → Thread) : (s.modThread k f).schedObjs = s.schedObjs := rfl
@[simp] theorem State.modThread_lastLoad (s : State) (k : ThreadId) (f : Thread → Thread) : (s.modThread k f).lastLoad = s.lastLoad := rfl
@[simp] theorem State.modThread_invBusy (s : State) (k : ThreadId) (f : Thread → Thread) : (s.modThread k f).invBusy = s.invBusy := rfl
@[simp] theorem State.modThread_vectors (s : State) (k : ThreadId) (f : Thread → Thread) : (s.modThread k f).vectors = s.vectors := rfl
@[simp] theorem State.modThread_partSel (s : State) (k : ThreadId) (f : Thread → Thread) : (s.modThread k f).partSel = s.partSel := rfl
@[simp] theorem State.modThread_frameSel (s : State) (k : ThreadId) (f : Thread → Thread) : (s.modThread k f).frameSel = s.frameSel := rfl
@[simp] theorem State.modThread_keyBlob (s : State) (k : ThreadId) (f : Thread → Thread) : (s.modThread k f).keyBlob = s.keyBlob := rfl
@[simp] theorem State.modThread_keyBusy (s : State) (k : ThreadId) (f : Thread → Thread) : (s.modThread k f).keyBusy = s.keyBusy := rfl
@[simp] theorem State.modThread_keyErr (s : State) (k : ThreadId) (f : Thread → Thread) : (s.modThread k f).keyErr = s.keyErr := rfl
@[simp] theorem State.modThread_inj (s : State) (k : ThreadId) (f : Thread → Thread) : (s.modThread k f).inj = s.inj := rfl
@[simp] theorem State.modThread_slices (s : State) (k : ThreadId) (f : Thread → Thread) : (s.modThread k f).slices = s.slices := rfl
@[simp] theorem State.modThread_sliceStage (s : State) (k : ThreadId) (f : Thread → Thread) : (s.modThread k f).sliceStage = s.sliceStage := rfl
@[simp] theorem State.modThread_sliceNow (s : State) (k : ThreadId) (f : Thread → Thread) : (s.modThread k f).sliceNow = s.sliceNow := rfl
@[simp] theorem State.modThread_sliceReady (s : State) (k : ThreadId) (f : Thread → Thread) : (s.modThread k f).sliceReady = s.sliceReady := rfl
@[simp] theorem State.modThread_measure (s : State) (k : ThreadId) (f : Thread → Thread) : (s.modThread k f).measure = s.measure := rfl
@[simp] theorem State.modThread_spdm (s : State) (k : ThreadId) (f : Thread → Thread) : (s.modThread k f).spdm = s.spdm := rfl
@[simp] theorem State.modThread_linksDown (s : State) (k : ThreadId) (f : Thread → Thread) : (s.modThread k f).linksDown = s.linksDown := rfl
@[simp] theorem State.modThread_linkFails (s : State) (k : ThreadId) (f : Thread → Thread) : (s.modThread k f).linkFails = s.linkFails := rfl
@[simp] theorem State.modThread_lostDies (s : State) (k : ThreadId) (f : Thread → Thread) : (s.modThread k f).lostDies = s.lostDies := rfl
@[simp] theorem State.modThread_lastError (s : State) (k : ThreadId) (f : Thread → Thread) : (s.modThread k f).lastError = s.lastError := rfl
@[simp] theorem State.modThread_telemetry (s : State) (k : ThreadId) (f : Thread → Thread) : (s.modThread k f).telemetry = s.telemetry := rfl
@[simp] theorem State.modThread_beats (s : State) (k : ThreadId) (f : Thread → Thread) : (s.modThread k f).beats = s.beats := rfl

/-! `modTeam` changes `teams` alone. -/

@[simp] theorem State.modTeam_boot (s : State) (b : Nat) (w : Bool) (k : Nat) (f : Team → Team) : (s.modTeam b w k f).boot = s.boot := rfl
@[simp] theorem State.modTeam_cycle (s : State) (b : Nat) (w : Bool) (k : Nat) (f : Team → Team) : (s.modTeam b w k f).cycle = s.cycle := rfl
@[simp] theorem State.modTeam_epoch (s : State) (b : Nat) (w : Bool) (k : Nat) (f : Team → Team) : (s.modTeam b w k f).epoch = s.epoch := rfl
@[simp] theorem State.modTeam_chip (s : State) (b : Nat) (w : Bool) (k : Nat) (f : Team → Team) : (s.modTeam b w k f).chip = s.chip := rfl
@[simp] theorem State.modTeam_domain (s : State) (b : Nat) (w : Bool) (k : Nat) (f : Team → Team) : (s.modTeam b w k f).domain = s.domain := rfl
@[simp] theorem State.modTeam_agenda (s : State) (b : Nat) (w : Bool) (k : Nat) (f : Team → Team) : (s.modTeam b w k f).agenda = s.agenda := rfl
@[simp] theorem State.modTeam_freeCtr (s : State) (b : Nat) (w : Bool) (k : Nat) (f : Team → Team) : (s.modTeam b w k f).freeCtr = s.freeCtr := rfl
@[simp] theorem State.modTeam_nextId (s : State) (b : Nat) (w : Bool) (k : Nat) (f : Team → Team) : (s.modTeam b w k f).nextId = s.nextId := rfl
@[simp] theorem State.modTeam_strings (s : State) (b : Nat) (w : Bool) (k : Nat) (f : Team → Team) : (s.modTeam b w k f).strings = s.strings := rfl
@[simp] theorem State.modTeam_threads (s : State) (b : Nat) (w : Bool) (k : Nat) (f : Team → Team) : (s.modTeam b w k f).threads = s.threads := rfl
@[simp] theorem State.modTeam_teams (s : State) (b : Nat) (w : Bool) (k : Nat) (f : Team → Team) : (s.modTeam b w k f).teams = s.teams.map fun m => if m.blk == b && m.wheel == w && m.idx == k then f m else m := rfl
@[simp] theorem State.modTeam_blocks (s : State) (b : Nat) (w : Bool) (k : Nat) (f : Team → Team) : (s.modTeam b w k f).blocks = s.blocks := rfl
@[simp] theorem State.modTeam_sr (s : State) (b : Nat) (w : Bool) (k : Nat) (f : Team → Team) : (s.modTeam b w k f).sr = s.sr := rfl
@[simp] theorem State.modTeam_mem (s : State) (b : Nat) (w : Bool) (k : Nat) (f : Team → Team) : (s.modTeam b w k f).mem = s.mem := rfl
@[simp] theorem State.modTeam_host (s : State) (b : Nat) (w : Bool) (k : Nat) (f : Team → Team) : (s.modTeam b w k f).host = s.host := rfl
@[simp] theorem State.modTeam_sectorKey (s : State) (b : Nat) (w : Bool) (k : Nat) (f : Team → Team) : (s.modTeam b w k f).sectorKey = s.sectorKey := rfl
@[simp] theorem State.modTeam_keys (s : State) (b : Nat) (w : Bool) (k : Nat) (f : Team → Team) : (s.modTeam b w k f).keys = s.keys := rfl
@[simp] theorem State.modTeam_poison (s : State) (b : Nat) (w : Bool) (k : Nat) (f : Team → Team) : (s.modTeam b w k f).poison = s.poison := rfl
@[simp] theorem State.modTeam_upsets (s : State) (b : Nat) (w : Bool) (k : Nat) (f : Team → Team) : (s.modTeam b w k f).upsets = s.upsets := rfl
@[simp] theorem State.modTeam_frames (s : State) (b : Nat) (w : Bool) (k : Nat) (f : Team → Team) : (s.modTeam b w k f).frames = s.frames := rfl
@[simp] theorem State.modTeam_frameBusy (s : State) (b : Nat) (w : Bool) (k : Nat) (f : Team → Team) : (s.modTeam b w k f).frameBusy = s.frameBusy := rfl
@[simp] theorem State.modTeam_l1 (s : State) (b : Nat) (w : Bool) (k : Nat) (f : Team → Team) : (s.modTeam b w k f).l1 = s.l1 := rfl
@[simp] theorem State.modTeam_upd (s : State) (b : Nat) (w : Bool) (k : Nat) (f : Team → Team) : (s.modTeam b w k f).upd = s.upd := rfl
@[simp] theorem State.modTeam_guests (s : State) (b : Nat) (w : Bool) (k : Nat) (f : Team → Team) : (s.modTeam b w k f).guests = s.guests := rfl
@[simp] theorem State.modTeam_dir (s : State) (b : Nat) (w : Bool) (k : Nat) (f : Team → Team) : (s.modTeam b w k f).dir = s.dir := rfl
@[simp] theorem State.modTeam_absent (s : State) (b : Nat) (w : Bool) (k : Nat) (f : Team → Team) : (s.modTeam b w k f).absent = s.absent := rfl
@[simp] theorem State.modTeam_swept (s : State) (b : Nat) (w : Bool) (k : Nat) (f : Team → Team) : (s.modTeam b w k f).swept = s.swept := rfl
@[simp] theorem State.modTeam_wbs (s : State) (b : Nat) (w : Bool) (k : Nat) (f : Team → Team) : (s.modTeam b w k f).wbs = s.wbs := rfl
@[simp] theorem State.modTeam_merges (s : State) (b : Nat) (w : Bool) (k : Nat) (f : Team → Team) : (s.modTeam b w k f).merges = s.merges := rfl
@[simp] theorem State.modTeam_rels (s : State) (b : Nat) (w : Bool) (k : Nat) (f : Team → Team) : (s.modTeam b w k f).rels = s.rels := rfl
@[simp] theorem State.modTeam_loads (s : State) (b : Nat) (w : Bool) (k : Nat) (f : Team → Team) : (s.modTeam b w k f).loads = s.loads := rfl
@[simp] theorem State.modTeam_rets (s : State) (b : Nat) (w : Bool) (k : Nat) (f : Team → Team) : (s.modTeam b w k f).rets = s.rets := rfl
@[simp] theorem State.modTeam_staccs (s : State) (b : Nat) (w : Bool) (k : Nat) (f : Team → Team) : (s.modTeam b w k f).staccs = s.staccs := rfl
@[simp] theorem State.modTeam_atoms (s : State) (b : Nat) (w : Bool) (k : Nat) (f : Team → Team) : (s.modTeam b w k f).atoms = s.atoms := rfl
@[simp] theorem State.modTeam_vstores (s : State) (b : Nat) (w : Bool) (k : Nat) (f : Team → Team) : (s.modTeam b w k f).vstores = s.vstores := rfl
@[simp] theorem State.modTeam_remotes (s : State) (b : Nat) (w : Bool) (k : Nat) (f : Team → Team) : (s.modTeam b w k f).remotes = s.remotes := rfl
@[simp] theorem State.modTeam_tlb (s : State) (b : Nat) (w : Bool) (k : Nat) (f : Team → Team) : (s.modTeam b w k f).tlb = s.tlb := rfl
@[simp] theorem State.modTeam_walks (s : State) (b : Nat) (w : Bool) (k : Nat) (f : Team → Team) : (s.modTeam b w k f).walks = s.walks := rfl
@[simp] theorem State.modTeam_masks (s : State) (b : Nat) (w : Bool) (k : Nat) (f : Team → Team) : (s.modTeam b w k f).masks = s.masks := rfl
@[simp] theorem State.modTeam_walkFaults (s : State) (b : Nat) (w : Bool) (k : Nat) (f : Team → Team) : (s.modTeam b w k f).walkFaults = s.walkFaults := rfl
@[simp] theorem State.modTeam_code (s : State) (b : Nat) (w : Bool) (k : Nat) (f : Team → Team) : (s.modTeam b w k f).code = s.code := rfl
@[simp] theorem State.modTeam_hostHeld (s : State) (b : Nat) (w : Bool) (k : Nat) (f : Team → Team) : (s.modTeam b w k f).hostHeld = s.hostHeld := rfl
@[simp] theorem State.modTeam_farWins (s : State) (b : Nat) (w : Bool) (k : Nat) (f : Team → Team) : (s.modTeam b w k f).farWins = s.farWins := rfl
@[simp] theorem State.modTeam_hostRead (s : State) (b : Nat) (w : Bool) (k : Nat) (f : Team → Team) : (s.modTeam b w k f).hostRead = s.hostRead := rfl
@[simp] theorem State.modTeam_qreqs (s : State) (b : Nat) (w : Bool) (k : Nat) (f : Team → Team) : (s.modTeam b w k f).qreqs = s.qreqs := rfl
@[simp] theorem State.modTeam_copies (s : State) (b : Nat) (w : Bool) (k : Nat) (f : Team → Team) : (s.modTeam b w k f).copies = s.copies := rfl
@[simp] theorem State.modTeam_copyDone (s : State) (b : Nat) (w : Bool) (k : Nat) (f : Team → Team) : (s.modTeam b w k f).copyDone = s.copyDone := rfl
@[simp] theorem State.modTeam_engines (s : State) (b : Nat) (w : Bool) (k : Nat) (f : Team → Team) : (s.modTeam b w k f).engines = s.engines := rfl
@[simp] theorem State.modTeam_relays (s : State) (b : Nat) (w : Bool) (k : Nat) (f : Team → Team) : (s.modTeam b w k f).relays = s.relays := rfl
@[simp] theorem State.modTeam_records (s : State) (b : Nat) (w : Bool) (k : Nat) (f : Team → Team) : (s.modTeam b w k f).records = s.records := rfl
@[simp] theorem State.modTeam_areas (s : State) (b : Nat) (w : Bool) (k : Nat) (f : Team → Team) : (s.modTeam b w k f).areas = s.areas := rfl
@[simp] theorem State.modTeam_launches (s : State) (b : Nat) (w : Bool) (k : Nat) (f : Team → Team) : (s.modTeam b w k f).launches = s.launches := rfl
@[simp] theorem State.modTeam_nextLaunch (s : State) (b : Nat) (w : Bool) (k : Nat) (f : Team → Team) : (s.modTeam b w k f).nextLaunch = s.nextLaunch := rfl
@[simp] theorem State.modTeam_resv (s : State) (b : Nat) (w : Bool) (k : Nat) (f : Team → Team) : (s.modTeam b w k f).resv = s.resv := rfl
@[simp] theorem State.modTeam_lastQueue (s : State) (b : Nat) (w : Bool) (k : Nat) (f : Team → Team) : (s.modTeam b w k f).lastQueue = s.lastQueue := rfl
@[simp] theorem State.modTeam_bulkheads (s : State) (b : Nat) (w : Bool) (k : Nat) (f : Team → Team) : (s.modTeam b w k f).bulkheads = s.bulkheads := rfl
@[simp] theorem State.modTeam_freg (s : State) (b : Nat) (w : Bool) (k : Nat) (f : Team → Team) : (s.modTeam b w k f).freg = s.freg := rfl
@[simp] theorem State.modTeam_preg (s : State) (b : Nat) (w : Bool) (k : Nat) (f : Team → Team) : (s.modTeam b w k f).preg = s.preg := rfl
@[simp] theorem State.modTeam_vfPart (s : State) (b : Nat) (w : Bool) (k : Nat) (f : Team → Team) : (s.modTeam b w k f).vfPart = s.vfPart := rfl
@[simp] theorem State.modTeam_fqHeld (s : State) (b : Nat) (w : Bool) (k : Nat) (f : Team → Team) : (s.modTeam b w k f).fqHeld = s.fqHeld := rfl
@[simp] theorem State.modTeam_cmds (s : State) (b : Nat) (w : Bool) (k : Nat) (f : Team → Team) : (s.modTeam b w k f).cmds = s.cmds := rfl
@[simp] theorem State.modTeam_schedObjs (s : State) (b : Nat) (w : Bool) (k : Nat) (f : Team → Team) : (s.modTeam b w k f).schedObjs = s.schedObjs := rfl
@[simp] theorem State.modTeam_lastLoad (s : State) (b : Nat) (w : Bool) (k : Nat) (f : Team → Team) : (s.modTeam b w k f).lastLoad = s.lastLoad := rfl
@[simp] theorem State.modTeam_invBusy (s : State) (b : Nat) (w : Bool) (k : Nat) (f : Team → Team) : (s.modTeam b w k f).invBusy = s.invBusy := rfl
@[simp] theorem State.modTeam_vectors (s : State) (b : Nat) (w : Bool) (k : Nat) (f : Team → Team) : (s.modTeam b w k f).vectors = s.vectors := rfl
@[simp] theorem State.modTeam_partSel (s : State) (b : Nat) (w : Bool) (k : Nat) (f : Team → Team) : (s.modTeam b w k f).partSel = s.partSel := rfl
@[simp] theorem State.modTeam_frameSel (s : State) (b : Nat) (w : Bool) (k : Nat) (f : Team → Team) : (s.modTeam b w k f).frameSel = s.frameSel := rfl
@[simp] theorem State.modTeam_keyBlob (s : State) (b : Nat) (w : Bool) (k : Nat) (f : Team → Team) : (s.modTeam b w k f).keyBlob = s.keyBlob := rfl
@[simp] theorem State.modTeam_keyBusy (s : State) (b : Nat) (w : Bool) (k : Nat) (f : Team → Team) : (s.modTeam b w k f).keyBusy = s.keyBusy := rfl
@[simp] theorem State.modTeam_keyErr (s : State) (b : Nat) (w : Bool) (k : Nat) (f : Team → Team) : (s.modTeam b w k f).keyErr = s.keyErr := rfl
@[simp] theorem State.modTeam_inj (s : State) (b : Nat) (w : Bool) (k : Nat) (f : Team → Team) : (s.modTeam b w k f).inj = s.inj := rfl
@[simp] theorem State.modTeam_slices (s : State) (b : Nat) (w : Bool) (k : Nat) (f : Team → Team) : (s.modTeam b w k f).slices = s.slices := rfl
@[simp] theorem State.modTeam_sliceStage (s : State) (b : Nat) (w : Bool) (k : Nat) (f : Team → Team) : (s.modTeam b w k f).sliceStage = s.sliceStage := rfl
@[simp] theorem State.modTeam_sliceNow (s : State) (b : Nat) (w : Bool) (k : Nat) (f : Team → Team) : (s.modTeam b w k f).sliceNow = s.sliceNow := rfl
@[simp] theorem State.modTeam_sliceReady (s : State) (b : Nat) (w : Bool) (k : Nat) (f : Team → Team) : (s.modTeam b w k f).sliceReady = s.sliceReady := rfl
@[simp] theorem State.modTeam_measure (s : State) (b : Nat) (w : Bool) (k : Nat) (f : Team → Team) : (s.modTeam b w k f).measure = s.measure := rfl
@[simp] theorem State.modTeam_spdm (s : State) (b : Nat) (w : Bool) (k : Nat) (f : Team → Team) : (s.modTeam b w k f).spdm = s.spdm := rfl
@[simp] theorem State.modTeam_linksDown (s : State) (b : Nat) (w : Bool) (k : Nat) (f : Team → Team) : (s.modTeam b w k f).linksDown = s.linksDown := rfl
@[simp] theorem State.modTeam_linkFails (s : State) (b : Nat) (w : Bool) (k : Nat) (f : Team → Team) : (s.modTeam b w k f).linkFails = s.linkFails := rfl
@[simp] theorem State.modTeam_lostDies (s : State) (b : Nat) (w : Bool) (k : Nat) (f : Team → Team) : (s.modTeam b w k f).lostDies = s.lostDies := rfl
@[simp] theorem State.modTeam_lastError (s : State) (b : Nat) (w : Bool) (k : Nat) (f : Team → Team) : (s.modTeam b w k f).lastError = s.lastError := rfl
@[simp] theorem State.modTeam_telemetry (s : State) (b : Nat) (w : Bool) (k : Nat) (f : Team → Team) : (s.modTeam b w k f).telemetry = s.telemetry := rfl
@[simp] theorem State.modTeam_beats (s : State) (b : Nat) (w : Bool) (k : Nat) (f : Team → Team) : (s.modTeam b w k f).beats = s.beats := rfl

/-! `modBlock` changes `blocks` alone. -/

@[simp] theorem State.modBlock_boot (s : State) (b : Nat) (f : Block → Block) : (s.modBlock b f).boot = s.boot := rfl
@[simp] theorem State.modBlock_cycle (s : State) (b : Nat) (f : Block → Block) : (s.modBlock b f).cycle = s.cycle := rfl
@[simp] theorem State.modBlock_epoch (s : State) (b : Nat) (f : Block → Block) : (s.modBlock b f).epoch = s.epoch := rfl
@[simp] theorem State.modBlock_chip (s : State) (b : Nat) (f : Block → Block) : (s.modBlock b f).chip = s.chip := rfl
@[simp] theorem State.modBlock_domain (s : State) (b : Nat) (f : Block → Block) : (s.modBlock b f).domain = s.domain := rfl
@[simp] theorem State.modBlock_agenda (s : State) (b : Nat) (f : Block → Block) : (s.modBlock b f).agenda = s.agenda := rfl
@[simp] theorem State.modBlock_freeCtr (s : State) (b : Nat) (f : Block → Block) : (s.modBlock b f).freeCtr = s.freeCtr := rfl
@[simp] theorem State.modBlock_nextId (s : State) (b : Nat) (f : Block → Block) : (s.modBlock b f).nextId = s.nextId := rfl
@[simp] theorem State.modBlock_strings (s : State) (b : Nat) (f : Block → Block) : (s.modBlock b f).strings = s.strings := rfl
@[simp] theorem State.modBlock_threads (s : State) (b : Nat) (f : Block → Block) : (s.modBlock b f).threads = s.threads := rfl
@[simp] theorem State.modBlock_teams (s : State) (b : Nat) (f : Block → Block) : (s.modBlock b f).teams = s.teams := rfl
@[simp] theorem State.modBlock_blocks (s : State) (b : Nat) (f : Block → Block) : (s.modBlock b f).blocks = s.blocks.map fun x => if x.id == b then f x else x := rfl
@[simp] theorem State.modBlock_sr (s : State) (b : Nat) (f : Block → Block) : (s.modBlock b f).sr = s.sr := rfl
@[simp] theorem State.modBlock_mem (s : State) (b : Nat) (f : Block → Block) : (s.modBlock b f).mem = s.mem := rfl
@[simp] theorem State.modBlock_host (s : State) (b : Nat) (f : Block → Block) : (s.modBlock b f).host = s.host := rfl
@[simp] theorem State.modBlock_sectorKey (s : State) (b : Nat) (f : Block → Block) : (s.modBlock b f).sectorKey = s.sectorKey := rfl
@[simp] theorem State.modBlock_keys (s : State) (b : Nat) (f : Block → Block) : (s.modBlock b f).keys = s.keys := rfl
@[simp] theorem State.modBlock_poison (s : State) (b : Nat) (f : Block → Block) : (s.modBlock b f).poison = s.poison := rfl
@[simp] theorem State.modBlock_upsets (s : State) (b : Nat) (f : Block → Block) : (s.modBlock b f).upsets = s.upsets := rfl
@[simp] theorem State.modBlock_frames (s : State) (b : Nat) (f : Block → Block) : (s.modBlock b f).frames = s.frames := rfl
@[simp] theorem State.modBlock_frameBusy (s : State) (b : Nat) (f : Block → Block) : (s.modBlock b f).frameBusy = s.frameBusy := rfl
@[simp] theorem State.modBlock_l1 (s : State) (b : Nat) (f : Block → Block) : (s.modBlock b f).l1 = s.l1 := rfl
@[simp] theorem State.modBlock_upd (s : State) (b : Nat) (f : Block → Block) : (s.modBlock b f).upd = s.upd := rfl
@[simp] theorem State.modBlock_guests (s : State) (b : Nat) (f : Block → Block) : (s.modBlock b f).guests = s.guests := rfl
@[simp] theorem State.modBlock_dir (s : State) (b : Nat) (f : Block → Block) : (s.modBlock b f).dir = s.dir := rfl
@[simp] theorem State.modBlock_absent (s : State) (b : Nat) (f : Block → Block) : (s.modBlock b f).absent = s.absent := rfl
@[simp] theorem State.modBlock_swept (s : State) (b : Nat) (f : Block → Block) : (s.modBlock b f).swept = s.swept := rfl
@[simp] theorem State.modBlock_wbs (s : State) (b : Nat) (f : Block → Block) : (s.modBlock b f).wbs = s.wbs := rfl
@[simp] theorem State.modBlock_merges (s : State) (b : Nat) (f : Block → Block) : (s.modBlock b f).merges = s.merges := rfl
@[simp] theorem State.modBlock_rels (s : State) (b : Nat) (f : Block → Block) : (s.modBlock b f).rels = s.rels := rfl
@[simp] theorem State.modBlock_loads (s : State) (b : Nat) (f : Block → Block) : (s.modBlock b f).loads = s.loads := rfl
@[simp] theorem State.modBlock_rets (s : State) (b : Nat) (f : Block → Block) : (s.modBlock b f).rets = s.rets := rfl
@[simp] theorem State.modBlock_staccs (s : State) (b : Nat) (f : Block → Block) : (s.modBlock b f).staccs = s.staccs := rfl
@[simp] theorem State.modBlock_atoms (s : State) (b : Nat) (f : Block → Block) : (s.modBlock b f).atoms = s.atoms := rfl
@[simp] theorem State.modBlock_vstores (s : State) (b : Nat) (f : Block → Block) : (s.modBlock b f).vstores = s.vstores := rfl
@[simp] theorem State.modBlock_remotes (s : State) (b : Nat) (f : Block → Block) : (s.modBlock b f).remotes = s.remotes := rfl
@[simp] theorem State.modBlock_tlb (s : State) (b : Nat) (f : Block → Block) : (s.modBlock b f).tlb = s.tlb := rfl
@[simp] theorem State.modBlock_walks (s : State) (b : Nat) (f : Block → Block) : (s.modBlock b f).walks = s.walks := rfl
@[simp] theorem State.modBlock_masks (s : State) (b : Nat) (f : Block → Block) : (s.modBlock b f).masks = s.masks := rfl
@[simp] theorem State.modBlock_walkFaults (s : State) (b : Nat) (f : Block → Block) : (s.modBlock b f).walkFaults = s.walkFaults := rfl
@[simp] theorem State.modBlock_code (s : State) (b : Nat) (f : Block → Block) : (s.modBlock b f).code = s.code := rfl
@[simp] theorem State.modBlock_hostHeld (s : State) (b : Nat) (f : Block → Block) : (s.modBlock b f).hostHeld = s.hostHeld := rfl
@[simp] theorem State.modBlock_farWins (s : State) (b : Nat) (f : Block → Block) : (s.modBlock b f).farWins = s.farWins := rfl
@[simp] theorem State.modBlock_hostRead (s : State) (b : Nat) (f : Block → Block) : (s.modBlock b f).hostRead = s.hostRead := rfl
@[simp] theorem State.modBlock_qreqs (s : State) (b : Nat) (f : Block → Block) : (s.modBlock b f).qreqs = s.qreqs := rfl
@[simp] theorem State.modBlock_copies (s : State) (b : Nat) (f : Block → Block) : (s.modBlock b f).copies = s.copies := rfl
@[simp] theorem State.modBlock_copyDone (s : State) (b : Nat) (f : Block → Block) : (s.modBlock b f).copyDone = s.copyDone := rfl
@[simp] theorem State.modBlock_engines (s : State) (b : Nat) (f : Block → Block) : (s.modBlock b f).engines = s.engines := rfl
@[simp] theorem State.modBlock_relays (s : State) (b : Nat) (f : Block → Block) : (s.modBlock b f).relays = s.relays := rfl
@[simp] theorem State.modBlock_records (s : State) (b : Nat) (f : Block → Block) : (s.modBlock b f).records = s.records := rfl
@[simp] theorem State.modBlock_areas (s : State) (b : Nat) (f : Block → Block) : (s.modBlock b f).areas = s.areas := rfl
@[simp] theorem State.modBlock_launches (s : State) (b : Nat) (f : Block → Block) : (s.modBlock b f).launches = s.launches := rfl
@[simp] theorem State.modBlock_nextLaunch (s : State) (b : Nat) (f : Block → Block) : (s.modBlock b f).nextLaunch = s.nextLaunch := rfl
@[simp] theorem State.modBlock_resv (s : State) (b : Nat) (f : Block → Block) : (s.modBlock b f).resv = s.resv := rfl
@[simp] theorem State.modBlock_lastQueue (s : State) (b : Nat) (f : Block → Block) : (s.modBlock b f).lastQueue = s.lastQueue := rfl
@[simp] theorem State.modBlock_bulkheads (s : State) (b : Nat) (f : Block → Block) : (s.modBlock b f).bulkheads = s.bulkheads := rfl
@[simp] theorem State.modBlock_freg (s : State) (b : Nat) (f : Block → Block) : (s.modBlock b f).freg = s.freg := rfl
@[simp] theorem State.modBlock_preg (s : State) (b : Nat) (f : Block → Block) : (s.modBlock b f).preg = s.preg := rfl
@[simp] theorem State.modBlock_vfPart (s : State) (b : Nat) (f : Block → Block) : (s.modBlock b f).vfPart = s.vfPart := rfl
@[simp] theorem State.modBlock_fqHeld (s : State) (b : Nat) (f : Block → Block) : (s.modBlock b f).fqHeld = s.fqHeld := rfl
@[simp] theorem State.modBlock_cmds (s : State) (b : Nat) (f : Block → Block) : (s.modBlock b f).cmds = s.cmds := rfl
@[simp] theorem State.modBlock_schedObjs (s : State) (b : Nat) (f : Block → Block) : (s.modBlock b f).schedObjs = s.schedObjs := rfl
@[simp] theorem State.modBlock_lastLoad (s : State) (b : Nat) (f : Block → Block) : (s.modBlock b f).lastLoad = s.lastLoad := rfl
@[simp] theorem State.modBlock_invBusy (s : State) (b : Nat) (f : Block → Block) : (s.modBlock b f).invBusy = s.invBusy := rfl
@[simp] theorem State.modBlock_vectors (s : State) (b : Nat) (f : Block → Block) : (s.modBlock b f).vectors = s.vectors := rfl
@[simp] theorem State.modBlock_partSel (s : State) (b : Nat) (f : Block → Block) : (s.modBlock b f).partSel = s.partSel := rfl
@[simp] theorem State.modBlock_frameSel (s : State) (b : Nat) (f : Block → Block) : (s.modBlock b f).frameSel = s.frameSel := rfl
@[simp] theorem State.modBlock_keyBlob (s : State) (b : Nat) (f : Block → Block) : (s.modBlock b f).keyBlob = s.keyBlob := rfl
@[simp] theorem State.modBlock_keyBusy (s : State) (b : Nat) (f : Block → Block) : (s.modBlock b f).keyBusy = s.keyBusy := rfl
@[simp] theorem State.modBlock_keyErr (s : State) (b : Nat) (f : Block → Block) : (s.modBlock b f).keyErr = s.keyErr := rfl
@[simp] theorem State.modBlock_inj (s : State) (b : Nat) (f : Block → Block) : (s.modBlock b f).inj = s.inj := rfl
@[simp] theorem State.modBlock_slices (s : State) (b : Nat) (f : Block → Block) : (s.modBlock b f).slices = s.slices := rfl
@[simp] theorem State.modBlock_sliceStage (s : State) (b : Nat) (f : Block → Block) : (s.modBlock b f).sliceStage = s.sliceStage := rfl
@[simp] theorem State.modBlock_sliceNow (s : State) (b : Nat) (f : Block → Block) : (s.modBlock b f).sliceNow = s.sliceNow := rfl
@[simp] theorem State.modBlock_sliceReady (s : State) (b : Nat) (f : Block → Block) : (s.modBlock b f).sliceReady = s.sliceReady := rfl
@[simp] theorem State.modBlock_measure (s : State) (b : Nat) (f : Block → Block) : (s.modBlock b f).measure = s.measure := rfl
@[simp] theorem State.modBlock_spdm (s : State) (b : Nat) (f : Block → Block) : (s.modBlock b f).spdm = s.spdm := rfl
@[simp] theorem State.modBlock_linksDown (s : State) (b : Nat) (f : Block → Block) : (s.modBlock b f).linksDown = s.linksDown := rfl
@[simp] theorem State.modBlock_linkFails (s : State) (b : Nat) (f : Block → Block) : (s.modBlock b f).linkFails = s.linkFails := rfl
@[simp] theorem State.modBlock_lostDies (s : State) (b : Nat) (f : Block → Block) : (s.modBlock b f).lostDies = s.lostDies := rfl
@[simp] theorem State.modBlock_lastError (s : State) (b : Nat) (f : Block → Block) : (s.modBlock b f).lastError = s.lastError := rfl
@[simp] theorem State.modBlock_telemetry (s : State) (b : Nat) (f : Block → Block) : (s.modBlock b f).telemetry = s.telemetry := rfl
@[simp] theorem State.modBlock_beats (s : State) (b : Nat) (f : Block → Block) : (s.modBlock b f).beats = s.beats := rfl

/-! `modLaunch` changes `launches` alone. -/

@[simp] theorem State.modLaunch_boot (s : State) (l : Nat) (f : Launch → Launch) : (s.modLaunch l f).boot = s.boot := rfl
@[simp] theorem State.modLaunch_cycle (s : State) (l : Nat) (f : Launch → Launch) : (s.modLaunch l f).cycle = s.cycle := rfl
@[simp] theorem State.modLaunch_epoch (s : State) (l : Nat) (f : Launch → Launch) : (s.modLaunch l f).epoch = s.epoch := rfl
@[simp] theorem State.modLaunch_chip (s : State) (l : Nat) (f : Launch → Launch) : (s.modLaunch l f).chip = s.chip := rfl
@[simp] theorem State.modLaunch_domain (s : State) (l : Nat) (f : Launch → Launch) : (s.modLaunch l f).domain = s.domain := rfl
@[simp] theorem State.modLaunch_agenda (s : State) (l : Nat) (f : Launch → Launch) : (s.modLaunch l f).agenda = s.agenda := rfl
@[simp] theorem State.modLaunch_freeCtr (s : State) (l : Nat) (f : Launch → Launch) : (s.modLaunch l f).freeCtr = s.freeCtr := rfl
@[simp] theorem State.modLaunch_nextId (s : State) (l : Nat) (f : Launch → Launch) : (s.modLaunch l f).nextId = s.nextId := rfl
@[simp] theorem State.modLaunch_strings (s : State) (l : Nat) (f : Launch → Launch) : (s.modLaunch l f).strings = s.strings := rfl
@[simp] theorem State.modLaunch_threads (s : State) (l : Nat) (f : Launch → Launch) : (s.modLaunch l f).threads = s.threads := rfl
@[simp] theorem State.modLaunch_teams (s : State) (l : Nat) (f : Launch → Launch) : (s.modLaunch l f).teams = s.teams := rfl
@[simp] theorem State.modLaunch_blocks (s : State) (l : Nat) (f : Launch → Launch) : (s.modLaunch l f).blocks = s.blocks := rfl
@[simp] theorem State.modLaunch_sr (s : State) (l : Nat) (f : Launch → Launch) : (s.modLaunch l f).sr = s.sr := rfl
@[simp] theorem State.modLaunch_mem (s : State) (l : Nat) (f : Launch → Launch) : (s.modLaunch l f).mem = s.mem := rfl
@[simp] theorem State.modLaunch_host (s : State) (l : Nat) (f : Launch → Launch) : (s.modLaunch l f).host = s.host := rfl
@[simp] theorem State.modLaunch_sectorKey (s : State) (l : Nat) (f : Launch → Launch) : (s.modLaunch l f).sectorKey = s.sectorKey := rfl
@[simp] theorem State.modLaunch_keys (s : State) (l : Nat) (f : Launch → Launch) : (s.modLaunch l f).keys = s.keys := rfl
@[simp] theorem State.modLaunch_poison (s : State) (l : Nat) (f : Launch → Launch) : (s.modLaunch l f).poison = s.poison := rfl
@[simp] theorem State.modLaunch_upsets (s : State) (l : Nat) (f : Launch → Launch) : (s.modLaunch l f).upsets = s.upsets := rfl
@[simp] theorem State.modLaunch_frames (s : State) (l : Nat) (f : Launch → Launch) : (s.modLaunch l f).frames = s.frames := rfl
@[simp] theorem State.modLaunch_frameBusy (s : State) (l : Nat) (f : Launch → Launch) : (s.modLaunch l f).frameBusy = s.frameBusy := rfl
@[simp] theorem State.modLaunch_l1 (s : State) (l : Nat) (f : Launch → Launch) : (s.modLaunch l f).l1 = s.l1 := rfl
@[simp] theorem State.modLaunch_upd (s : State) (l : Nat) (f : Launch → Launch) : (s.modLaunch l f).upd = s.upd := rfl
@[simp] theorem State.modLaunch_guests (s : State) (l : Nat) (f : Launch → Launch) : (s.modLaunch l f).guests = s.guests := rfl
@[simp] theorem State.modLaunch_dir (s : State) (l : Nat) (f : Launch → Launch) : (s.modLaunch l f).dir = s.dir := rfl
@[simp] theorem State.modLaunch_absent (s : State) (l : Nat) (f : Launch → Launch) : (s.modLaunch l f).absent = s.absent := rfl
@[simp] theorem State.modLaunch_swept (s : State) (l : Nat) (f : Launch → Launch) : (s.modLaunch l f).swept = s.swept := rfl
@[simp] theorem State.modLaunch_wbs (s : State) (l : Nat) (f : Launch → Launch) : (s.modLaunch l f).wbs = s.wbs := rfl
@[simp] theorem State.modLaunch_merges (s : State) (l : Nat) (f : Launch → Launch) : (s.modLaunch l f).merges = s.merges := rfl
@[simp] theorem State.modLaunch_rels (s : State) (l : Nat) (f : Launch → Launch) : (s.modLaunch l f).rels = s.rels := rfl
@[simp] theorem State.modLaunch_loads (s : State) (l : Nat) (f : Launch → Launch) : (s.modLaunch l f).loads = s.loads := rfl
@[simp] theorem State.modLaunch_rets (s : State) (l : Nat) (f : Launch → Launch) : (s.modLaunch l f).rets = s.rets := rfl
@[simp] theorem State.modLaunch_staccs (s : State) (l : Nat) (f : Launch → Launch) : (s.modLaunch l f).staccs = s.staccs := rfl
@[simp] theorem State.modLaunch_atoms (s : State) (l : Nat) (f : Launch → Launch) : (s.modLaunch l f).atoms = s.atoms := rfl
@[simp] theorem State.modLaunch_vstores (s : State) (l : Nat) (f : Launch → Launch) : (s.modLaunch l f).vstores = s.vstores := rfl
@[simp] theorem State.modLaunch_remotes (s : State) (l : Nat) (f : Launch → Launch) : (s.modLaunch l f).remotes = s.remotes := rfl
@[simp] theorem State.modLaunch_tlb (s : State) (l : Nat) (f : Launch → Launch) : (s.modLaunch l f).tlb = s.tlb := rfl
@[simp] theorem State.modLaunch_walks (s : State) (l : Nat) (f : Launch → Launch) : (s.modLaunch l f).walks = s.walks := rfl
@[simp] theorem State.modLaunch_masks (s : State) (l : Nat) (f : Launch → Launch) : (s.modLaunch l f).masks = s.masks := rfl
@[simp] theorem State.modLaunch_walkFaults (s : State) (l : Nat) (f : Launch → Launch) : (s.modLaunch l f).walkFaults = s.walkFaults := rfl
@[simp] theorem State.modLaunch_code (s : State) (l : Nat) (f : Launch → Launch) : (s.modLaunch l f).code = s.code := rfl
@[simp] theorem State.modLaunch_hostHeld (s : State) (l : Nat) (f : Launch → Launch) : (s.modLaunch l f).hostHeld = s.hostHeld := rfl
@[simp] theorem State.modLaunch_farWins (s : State) (l : Nat) (f : Launch → Launch) : (s.modLaunch l f).farWins = s.farWins := rfl
@[simp] theorem State.modLaunch_hostRead (s : State) (l : Nat) (f : Launch → Launch) : (s.modLaunch l f).hostRead = s.hostRead := rfl
@[simp] theorem State.modLaunch_qreqs (s : State) (l : Nat) (f : Launch → Launch) : (s.modLaunch l f).qreqs = s.qreqs := rfl
@[simp] theorem State.modLaunch_copies (s : State) (l : Nat) (f : Launch → Launch) : (s.modLaunch l f).copies = s.copies := rfl
@[simp] theorem State.modLaunch_copyDone (s : State) (l : Nat) (f : Launch → Launch) : (s.modLaunch l f).copyDone = s.copyDone := rfl
@[simp] theorem State.modLaunch_engines (s : State) (l : Nat) (f : Launch → Launch) : (s.modLaunch l f).engines = s.engines := rfl
@[simp] theorem State.modLaunch_relays (s : State) (l : Nat) (f : Launch → Launch) : (s.modLaunch l f).relays = s.relays := rfl
@[simp] theorem State.modLaunch_records (s : State) (l : Nat) (f : Launch → Launch) : (s.modLaunch l f).records = s.records := rfl
@[simp] theorem State.modLaunch_areas (s : State) (l : Nat) (f : Launch → Launch) : (s.modLaunch l f).areas = s.areas := rfl
@[simp] theorem State.modLaunch_launches (s : State) (l : Nat) (f : Launch → Launch) : (s.modLaunch l f).launches = s.launches.map fun x => if x.id == l then f x else x := rfl
@[simp] theorem State.modLaunch_nextLaunch (s : State) (l : Nat) (f : Launch → Launch) : (s.modLaunch l f).nextLaunch = s.nextLaunch := rfl
@[simp] theorem State.modLaunch_resv (s : State) (l : Nat) (f : Launch → Launch) : (s.modLaunch l f).resv = s.resv := rfl
@[simp] theorem State.modLaunch_lastQueue (s : State) (l : Nat) (f : Launch → Launch) : (s.modLaunch l f).lastQueue = s.lastQueue := rfl
@[simp] theorem State.modLaunch_bulkheads (s : State) (l : Nat) (f : Launch → Launch) : (s.modLaunch l f).bulkheads = s.bulkheads := rfl
@[simp] theorem State.modLaunch_freg (s : State) (l : Nat) (f : Launch → Launch) : (s.modLaunch l f).freg = s.freg := rfl
@[simp] theorem State.modLaunch_preg (s : State) (l : Nat) (f : Launch → Launch) : (s.modLaunch l f).preg = s.preg := rfl
@[simp] theorem State.modLaunch_vfPart (s : State) (l : Nat) (f : Launch → Launch) : (s.modLaunch l f).vfPart = s.vfPart := rfl
@[simp] theorem State.modLaunch_fqHeld (s : State) (l : Nat) (f : Launch → Launch) : (s.modLaunch l f).fqHeld = s.fqHeld := rfl
@[simp] theorem State.modLaunch_cmds (s : State) (l : Nat) (f : Launch → Launch) : (s.modLaunch l f).cmds = s.cmds := rfl
@[simp] theorem State.modLaunch_schedObjs (s : State) (l : Nat) (f : Launch → Launch) : (s.modLaunch l f).schedObjs = s.schedObjs := rfl
@[simp] theorem State.modLaunch_lastLoad (s : State) (l : Nat) (f : Launch → Launch) : (s.modLaunch l f).lastLoad = s.lastLoad := rfl
@[simp] theorem State.modLaunch_invBusy (s : State) (l : Nat) (f : Launch → Launch) : (s.modLaunch l f).invBusy = s.invBusy := rfl
@[simp] theorem State.modLaunch_vectors (s : State) (l : Nat) (f : Launch → Launch) : (s.modLaunch l f).vectors = s.vectors := rfl
@[simp] theorem State.modLaunch_partSel (s : State) (l : Nat) (f : Launch → Launch) : (s.modLaunch l f).partSel = s.partSel := rfl
@[simp] theorem State.modLaunch_frameSel (s : State) (l : Nat) (f : Launch → Launch) : (s.modLaunch l f).frameSel = s.frameSel := rfl
@[simp] theorem State.modLaunch_keyBlob (s : State) (l : Nat) (f : Launch → Launch) : (s.modLaunch l f).keyBlob = s.keyBlob := rfl
@[simp] theorem State.modLaunch_keyBusy (s : State) (l : Nat) (f : Launch → Launch) : (s.modLaunch l f).keyBusy = s.keyBusy := rfl
@[simp] theorem State.modLaunch_keyErr (s : State) (l : Nat) (f : Launch → Launch) : (s.modLaunch l f).keyErr = s.keyErr := rfl
@[simp] theorem State.modLaunch_inj (s : State) (l : Nat) (f : Launch → Launch) : (s.modLaunch l f).inj = s.inj := rfl
@[simp] theorem State.modLaunch_slices (s : State) (l : Nat) (f : Launch → Launch) : (s.modLaunch l f).slices = s.slices := rfl
@[simp] theorem State.modLaunch_sliceStage (s : State) (l : Nat) (f : Launch → Launch) : (s.modLaunch l f).sliceStage = s.sliceStage := rfl
@[simp] theorem State.modLaunch_sliceNow (s : State) (l : Nat) (f : Launch → Launch) : (s.modLaunch l f).sliceNow = s.sliceNow := rfl
@[simp] theorem State.modLaunch_sliceReady (s : State) (l : Nat) (f : Launch → Launch) : (s.modLaunch l f).sliceReady = s.sliceReady := rfl
@[simp] theorem State.modLaunch_measure (s : State) (l : Nat) (f : Launch → Launch) : (s.modLaunch l f).measure = s.measure := rfl
@[simp] theorem State.modLaunch_spdm (s : State) (l : Nat) (f : Launch → Launch) : (s.modLaunch l f).spdm = s.spdm := rfl
@[simp] theorem State.modLaunch_linksDown (s : State) (l : Nat) (f : Launch → Launch) : (s.modLaunch l f).linksDown = s.linksDown := rfl
@[simp] theorem State.modLaunch_linkFails (s : State) (l : Nat) (f : Launch → Launch) : (s.modLaunch l f).linkFails = s.linkFails := rfl
@[simp] theorem State.modLaunch_lostDies (s : State) (l : Nat) (f : Launch → Launch) : (s.modLaunch l f).lostDies = s.lostDies := rfl
@[simp] theorem State.modLaunch_lastError (s : State) (l : Nat) (f : Launch → Launch) : (s.modLaunch l f).lastError = s.lastError := rfl
@[simp] theorem State.modLaunch_telemetry (s : State) (l : Nat) (f : Launch → Launch) : (s.modLaunch l f).telemetry = s.telemetry := rfl
@[simp] theorem State.modLaunch_beats (s : State) (l : Nat) (f : Launch → Launch) : (s.modLaunch l f).beats = s.beats := rfl

/-! `setFr` changes `freg` alone. -/

@[simp] theorem State.setFr_boot (s : State) (n o : Nat) (v : DWord) : (s.setFr n o v).boot = s.boot := rfl
@[simp] theorem State.setFr_cycle (s : State) (n o : Nat) (v : DWord) : (s.setFr n o v).cycle = s.cycle := rfl
@[simp] theorem State.setFr_epoch (s : State) (n o : Nat) (v : DWord) : (s.setFr n o v).epoch = s.epoch := rfl
@[simp] theorem State.setFr_chip (s : State) (n o : Nat) (v : DWord) : (s.setFr n o v).chip = s.chip := rfl
@[simp] theorem State.setFr_domain (s : State) (n o : Nat) (v : DWord) : (s.setFr n o v).domain = s.domain := rfl
@[simp] theorem State.setFr_agenda (s : State) (n o : Nat) (v : DWord) : (s.setFr n o v).agenda = s.agenda := rfl
@[simp] theorem State.setFr_freeCtr (s : State) (n o : Nat) (v : DWord) : (s.setFr n o v).freeCtr = s.freeCtr := rfl
@[simp] theorem State.setFr_nextId (s : State) (n o : Nat) (v : DWord) : (s.setFr n o v).nextId = s.nextId := rfl
@[simp] theorem State.setFr_strings (s : State) (n o : Nat) (v : DWord) : (s.setFr n o v).strings = s.strings := rfl
@[simp] theorem State.setFr_threads (s : State) (n o : Nat) (v : DWord) : (s.setFr n o v).threads = s.threads := rfl
@[simp] theorem State.setFr_teams (s : State) (n o : Nat) (v : DWord) : (s.setFr n o v).teams = s.teams := rfl
@[simp] theorem State.setFr_blocks (s : State) (n o : Nat) (v : DWord) : (s.setFr n o v).blocks = s.blocks := rfl
@[simp] theorem State.setFr_sr (s : State) (n o : Nat) (v : DWord) : (s.setFr n o v).sr = s.sr := rfl
@[simp] theorem State.setFr_mem (s : State) (n o : Nat) (v : DWord) : (s.setFr n o v).mem = s.mem := rfl
@[simp] theorem State.setFr_host (s : State) (n o : Nat) (v : DWord) : (s.setFr n o v).host = s.host := rfl
@[simp] theorem State.setFr_sectorKey (s : State) (n o : Nat) (v : DWord) : (s.setFr n o v).sectorKey = s.sectorKey := rfl
@[simp] theorem State.setFr_keys (s : State) (n o : Nat) (v : DWord) : (s.setFr n o v).keys = s.keys := rfl
@[simp] theorem State.setFr_poison (s : State) (n o : Nat) (v : DWord) : (s.setFr n o v).poison = s.poison := rfl
@[simp] theorem State.setFr_upsets (s : State) (n o : Nat) (v : DWord) : (s.setFr n o v).upsets = s.upsets := rfl
@[simp] theorem State.setFr_frames (s : State) (n o : Nat) (v : DWord) : (s.setFr n o v).frames = s.frames := rfl
@[simp] theorem State.setFr_frameBusy (s : State) (n o : Nat) (v : DWord) : (s.setFr n o v).frameBusy = s.frameBusy := rfl
@[simp] theorem State.setFr_l1 (s : State) (n o : Nat) (v : DWord) : (s.setFr n o v).l1 = s.l1 := rfl
@[simp] theorem State.setFr_upd (s : State) (n o : Nat) (v : DWord) : (s.setFr n o v).upd = s.upd := rfl
@[simp] theorem State.setFr_guests (s : State) (n o : Nat) (v : DWord) : (s.setFr n o v).guests = s.guests := rfl
@[simp] theorem State.setFr_dir (s : State) (n o : Nat) (v : DWord) : (s.setFr n o v).dir = s.dir := rfl
@[simp] theorem State.setFr_absent (s : State) (n o : Nat) (v : DWord) : (s.setFr n o v).absent = s.absent := rfl
@[simp] theorem State.setFr_swept (s : State) (n o : Nat) (v : DWord) : (s.setFr n o v).swept = s.swept := rfl
@[simp] theorem State.setFr_wbs (s : State) (n o : Nat) (v : DWord) : (s.setFr n o v).wbs = s.wbs := rfl
@[simp] theorem State.setFr_merges (s : State) (n o : Nat) (v : DWord) : (s.setFr n o v).merges = s.merges := rfl
@[simp] theorem State.setFr_rels (s : State) (n o : Nat) (v : DWord) : (s.setFr n o v).rels = s.rels := rfl
@[simp] theorem State.setFr_loads (s : State) (n o : Nat) (v : DWord) : (s.setFr n o v).loads = s.loads := rfl
@[simp] theorem State.setFr_rets (s : State) (n o : Nat) (v : DWord) : (s.setFr n o v).rets = s.rets := rfl
@[simp] theorem State.setFr_staccs (s : State) (n o : Nat) (v : DWord) : (s.setFr n o v).staccs = s.staccs := rfl
@[simp] theorem State.setFr_atoms (s : State) (n o : Nat) (v : DWord) : (s.setFr n o v).atoms = s.atoms := rfl
@[simp] theorem State.setFr_vstores (s : State) (n o : Nat) (v : DWord) : (s.setFr n o v).vstores = s.vstores := rfl
@[simp] theorem State.setFr_remotes (s : State) (n o : Nat) (v : DWord) : (s.setFr n o v).remotes = s.remotes := rfl
@[simp] theorem State.setFr_tlb (s : State) (n o : Nat) (v : DWord) : (s.setFr n o v).tlb = s.tlb := rfl
@[simp] theorem State.setFr_walks (s : State) (n o : Nat) (v : DWord) : (s.setFr n o v).walks = s.walks := rfl
@[simp] theorem State.setFr_masks (s : State) (n o : Nat) (v : DWord) : (s.setFr n o v).masks = s.masks := rfl
@[simp] theorem State.setFr_walkFaults (s : State) (n o : Nat) (v : DWord) : (s.setFr n o v).walkFaults = s.walkFaults := rfl
@[simp] theorem State.setFr_code (s : State) (n o : Nat) (v : DWord) : (s.setFr n o v).code = s.code := rfl
@[simp] theorem State.setFr_hostHeld (s : State) (n o : Nat) (v : DWord) : (s.setFr n o v).hostHeld = s.hostHeld := rfl
@[simp] theorem State.setFr_farWins (s : State) (n o : Nat) (v : DWord) : (s.setFr n o v).farWins = s.farWins := rfl
@[simp] theorem State.setFr_hostRead (s : State) (n o : Nat) (v : DWord) : (s.setFr n o v).hostRead = s.hostRead := rfl
@[simp] theorem State.setFr_qreqs (s : State) (n o : Nat) (v : DWord) : (s.setFr n o v).qreqs = s.qreqs := rfl
@[simp] theorem State.setFr_copies (s : State) (n o : Nat) (v : DWord) : (s.setFr n o v).copies = s.copies := rfl
@[simp] theorem State.setFr_copyDone (s : State) (n o : Nat) (v : DWord) : (s.setFr n o v).copyDone = s.copyDone := rfl
@[simp] theorem State.setFr_engines (s : State) (n o : Nat) (v : DWord) : (s.setFr n o v).engines = s.engines := rfl
@[simp] theorem State.setFr_relays (s : State) (n o : Nat) (v : DWord) : (s.setFr n o v).relays = s.relays := rfl
@[simp] theorem State.setFr_records (s : State) (n o : Nat) (v : DWord) : (s.setFr n o v).records = s.records := rfl
@[simp] theorem State.setFr_areas (s : State) (n o : Nat) (v : DWord) : (s.setFr n o v).areas = s.areas := rfl
@[simp] theorem State.setFr_launches (s : State) (n o : Nat) (v : DWord) : (s.setFr n o v).launches = s.launches := rfl
@[simp] theorem State.setFr_nextLaunch (s : State) (n o : Nat) (v : DWord) : (s.setFr n o v).nextLaunch = s.nextLaunch := rfl
@[simp] theorem State.setFr_resv (s : State) (n o : Nat) (v : DWord) : (s.setFr n o v).resv = s.resv := rfl
@[simp] theorem State.setFr_lastQueue (s : State) (n o : Nat) (v : DWord) : (s.setFr n o v).lastQueue = s.lastQueue := rfl
@[simp] theorem State.setFr_bulkheads (s : State) (n o : Nat) (v : DWord) : (s.setFr n o v).bulkheads = s.bulkheads := rfl
@[simp] theorem State.setFr_freg (s : State) (n o : Nat) (v : DWord) : (s.setFr n o v).freg = wr s.freg (65536 * n + o) v := rfl
@[simp] theorem State.setFr_preg (s : State) (n o : Nat) (v : DWord) : (s.setFr n o v).preg = s.preg := rfl
@[simp] theorem State.setFr_vfPart (s : State) (n o : Nat) (v : DWord) : (s.setFr n o v).vfPart = s.vfPart := rfl
@[simp] theorem State.setFr_fqHeld (s : State) (n o : Nat) (v : DWord) : (s.setFr n o v).fqHeld = s.fqHeld := rfl
@[simp] theorem State.setFr_cmds (s : State) (n o : Nat) (v : DWord) : (s.setFr n o v).cmds = s.cmds := rfl
@[simp] theorem State.setFr_schedObjs (s : State) (n o : Nat) (v : DWord) : (s.setFr n o v).schedObjs = s.schedObjs := rfl
@[simp] theorem State.setFr_lastLoad (s : State) (n o : Nat) (v : DWord) : (s.setFr n o v).lastLoad = s.lastLoad := rfl
@[simp] theorem State.setFr_invBusy (s : State) (n o : Nat) (v : DWord) : (s.setFr n o v).invBusy = s.invBusy := rfl
@[simp] theorem State.setFr_vectors (s : State) (n o : Nat) (v : DWord) : (s.setFr n o v).vectors = s.vectors := rfl
@[simp] theorem State.setFr_partSel (s : State) (n o : Nat) (v : DWord) : (s.setFr n o v).partSel = s.partSel := rfl
@[simp] theorem State.setFr_frameSel (s : State) (n o : Nat) (v : DWord) : (s.setFr n o v).frameSel = s.frameSel := rfl
@[simp] theorem State.setFr_keyBlob (s : State) (n o : Nat) (v : DWord) : (s.setFr n o v).keyBlob = s.keyBlob := rfl
@[simp] theorem State.setFr_keyBusy (s : State) (n o : Nat) (v : DWord) : (s.setFr n o v).keyBusy = s.keyBusy := rfl
@[simp] theorem State.setFr_keyErr (s : State) (n o : Nat) (v : DWord) : (s.setFr n o v).keyErr = s.keyErr := rfl
@[simp] theorem State.setFr_inj (s : State) (n o : Nat) (v : DWord) : (s.setFr n o v).inj = s.inj := rfl
@[simp] theorem State.setFr_slices (s : State) (n o : Nat) (v : DWord) : (s.setFr n o v).slices = s.slices := rfl
@[simp] theorem State.setFr_sliceStage (s : State) (n o : Nat) (v : DWord) : (s.setFr n o v).sliceStage = s.sliceStage := rfl
@[simp] theorem State.setFr_sliceNow (s : State) (n o : Nat) (v : DWord) : (s.setFr n o v).sliceNow = s.sliceNow := rfl
@[simp] theorem State.setFr_sliceReady (s : State) (n o : Nat) (v : DWord) : (s.setFr n o v).sliceReady = s.sliceReady := rfl
@[simp] theorem State.setFr_measure (s : State) (n o : Nat) (v : DWord) : (s.setFr n o v).measure = s.measure := rfl
@[simp] theorem State.setFr_spdm (s : State) (n o : Nat) (v : DWord) : (s.setFr n o v).spdm = s.spdm := rfl
@[simp] theorem State.setFr_linksDown (s : State) (n o : Nat) (v : DWord) : (s.setFr n o v).linksDown = s.linksDown := rfl
@[simp] theorem State.setFr_linkFails (s : State) (n o : Nat) (v : DWord) : (s.setFr n o v).linkFails = s.linkFails := rfl
@[simp] theorem State.setFr_lostDies (s : State) (n o : Nat) (v : DWord) : (s.setFr n o v).lostDies = s.lostDies := rfl
@[simp] theorem State.setFr_lastError (s : State) (n o : Nat) (v : DWord) : (s.setFr n o v).lastError = s.lastError := rfl
@[simp] theorem State.setFr_telemetry (s : State) (n o : Nat) (v : DWord) : (s.setFr n o v).telemetry = s.telemetry := rfl
@[simp] theorem State.setFr_beats (s : State) (n o : Nat) (v : DWord) : (s.setFr n o v).beats = s.beats := rfl

/-! `setPr` changes `preg` alone. -/

@[simp] theorem State.setPr_boot (s : State) (p : BitVec 6) (o : Nat) (v : DWord) : (s.setPr p o v).boot = s.boot := rfl
@[simp] theorem State.setPr_cycle (s : State) (p : BitVec 6) (o : Nat) (v : DWord) : (s.setPr p o v).cycle = s.cycle := rfl
@[simp] theorem State.setPr_epoch (s : State) (p : BitVec 6) (o : Nat) (v : DWord) : (s.setPr p o v).epoch = s.epoch := rfl
@[simp] theorem State.setPr_chip (s : State) (p : BitVec 6) (o : Nat) (v : DWord) : (s.setPr p o v).chip = s.chip := rfl
@[simp] theorem State.setPr_domain (s : State) (p : BitVec 6) (o : Nat) (v : DWord) : (s.setPr p o v).domain = s.domain := rfl
@[simp] theorem State.setPr_agenda (s : State) (p : BitVec 6) (o : Nat) (v : DWord) : (s.setPr p o v).agenda = s.agenda := rfl
@[simp] theorem State.setPr_freeCtr (s : State) (p : BitVec 6) (o : Nat) (v : DWord) : (s.setPr p o v).freeCtr = s.freeCtr := rfl
@[simp] theorem State.setPr_nextId (s : State) (p : BitVec 6) (o : Nat) (v : DWord) : (s.setPr p o v).nextId = s.nextId := rfl
@[simp] theorem State.setPr_strings (s : State) (p : BitVec 6) (o : Nat) (v : DWord) : (s.setPr p o v).strings = s.strings := rfl
@[simp] theorem State.setPr_threads (s : State) (p : BitVec 6) (o : Nat) (v : DWord) : (s.setPr p o v).threads = s.threads := rfl
@[simp] theorem State.setPr_teams (s : State) (p : BitVec 6) (o : Nat) (v : DWord) : (s.setPr p o v).teams = s.teams := rfl
@[simp] theorem State.setPr_blocks (s : State) (p : BitVec 6) (o : Nat) (v : DWord) : (s.setPr p o v).blocks = s.blocks := rfl
@[simp] theorem State.setPr_sr (s : State) (p : BitVec 6) (o : Nat) (v : DWord) : (s.setPr p o v).sr = s.sr := rfl
@[simp] theorem State.setPr_mem (s : State) (p : BitVec 6) (o : Nat) (v : DWord) : (s.setPr p o v).mem = s.mem := rfl
@[simp] theorem State.setPr_host (s : State) (p : BitVec 6) (o : Nat) (v : DWord) : (s.setPr p o v).host = s.host := rfl
@[simp] theorem State.setPr_sectorKey (s : State) (p : BitVec 6) (o : Nat) (v : DWord) : (s.setPr p o v).sectorKey = s.sectorKey := rfl
@[simp] theorem State.setPr_keys (s : State) (p : BitVec 6) (o : Nat) (v : DWord) : (s.setPr p o v).keys = s.keys := rfl
@[simp] theorem State.setPr_poison (s : State) (p : BitVec 6) (o : Nat) (v : DWord) : (s.setPr p o v).poison = s.poison := rfl
@[simp] theorem State.setPr_upsets (s : State) (p : BitVec 6) (o : Nat) (v : DWord) : (s.setPr p o v).upsets = s.upsets := rfl
@[simp] theorem State.setPr_frames (s : State) (p : BitVec 6) (o : Nat) (v : DWord) : (s.setPr p o v).frames = s.frames := rfl
@[simp] theorem State.setPr_frameBusy (s : State) (p : BitVec 6) (o : Nat) (v : DWord) : (s.setPr p o v).frameBusy = s.frameBusy := rfl
@[simp] theorem State.setPr_l1 (s : State) (p : BitVec 6) (o : Nat) (v : DWord) : (s.setPr p o v).l1 = s.l1 := rfl
@[simp] theorem State.setPr_upd (s : State) (p : BitVec 6) (o : Nat) (v : DWord) : (s.setPr p o v).upd = s.upd := rfl
@[simp] theorem State.setPr_guests (s : State) (p : BitVec 6) (o : Nat) (v : DWord) : (s.setPr p o v).guests = s.guests := rfl
@[simp] theorem State.setPr_dir (s : State) (p : BitVec 6) (o : Nat) (v : DWord) : (s.setPr p o v).dir = s.dir := rfl
@[simp] theorem State.setPr_absent (s : State) (p : BitVec 6) (o : Nat) (v : DWord) : (s.setPr p o v).absent = s.absent := rfl
@[simp] theorem State.setPr_swept (s : State) (p : BitVec 6) (o : Nat) (v : DWord) : (s.setPr p o v).swept = s.swept := rfl
@[simp] theorem State.setPr_wbs (s : State) (p : BitVec 6) (o : Nat) (v : DWord) : (s.setPr p o v).wbs = s.wbs := rfl
@[simp] theorem State.setPr_merges (s : State) (p : BitVec 6) (o : Nat) (v : DWord) : (s.setPr p o v).merges = s.merges := rfl
@[simp] theorem State.setPr_rels (s : State) (p : BitVec 6) (o : Nat) (v : DWord) : (s.setPr p o v).rels = s.rels := rfl
@[simp] theorem State.setPr_loads (s : State) (p : BitVec 6) (o : Nat) (v : DWord) : (s.setPr p o v).loads = s.loads := rfl
@[simp] theorem State.setPr_rets (s : State) (p : BitVec 6) (o : Nat) (v : DWord) : (s.setPr p o v).rets = s.rets := rfl
@[simp] theorem State.setPr_staccs (s : State) (p : BitVec 6) (o : Nat) (v : DWord) : (s.setPr p o v).staccs = s.staccs := rfl
@[simp] theorem State.setPr_atoms (s : State) (p : BitVec 6) (o : Nat) (v : DWord) : (s.setPr p o v).atoms = s.atoms := rfl
@[simp] theorem State.setPr_vstores (s : State) (p : BitVec 6) (o : Nat) (v : DWord) : (s.setPr p o v).vstores = s.vstores := rfl
@[simp] theorem State.setPr_remotes (s : State) (p : BitVec 6) (o : Nat) (v : DWord) : (s.setPr p o v).remotes = s.remotes := rfl
@[simp] theorem State.setPr_tlb (s : State) (p : BitVec 6) (o : Nat) (v : DWord) : (s.setPr p o v).tlb = s.tlb := rfl
@[simp] theorem State.setPr_walks (s : State) (p : BitVec 6) (o : Nat) (v : DWord) : (s.setPr p o v).walks = s.walks := rfl
@[simp] theorem State.setPr_masks (s : State) (p : BitVec 6) (o : Nat) (v : DWord) : (s.setPr p o v).masks = s.masks := rfl
@[simp] theorem State.setPr_walkFaults (s : State) (p : BitVec 6) (o : Nat) (v : DWord) : (s.setPr p o v).walkFaults = s.walkFaults := rfl
@[simp] theorem State.setPr_code (s : State) (p : BitVec 6) (o : Nat) (v : DWord) : (s.setPr p o v).code = s.code := rfl
@[simp] theorem State.setPr_hostHeld (s : State) (p : BitVec 6) (o : Nat) (v : DWord) : (s.setPr p o v).hostHeld = s.hostHeld := rfl
@[simp] theorem State.setPr_farWins (s : State) (p : BitVec 6) (o : Nat) (v : DWord) : (s.setPr p o v).farWins = s.farWins := rfl
@[simp] theorem State.setPr_hostRead (s : State) (p : BitVec 6) (o : Nat) (v : DWord) : (s.setPr p o v).hostRead = s.hostRead := rfl
@[simp] theorem State.setPr_qreqs (s : State) (p : BitVec 6) (o : Nat) (v : DWord) : (s.setPr p o v).qreqs = s.qreqs := rfl
@[simp] theorem State.setPr_copies (s : State) (p : BitVec 6) (o : Nat) (v : DWord) : (s.setPr p o v).copies = s.copies := rfl
@[simp] theorem State.setPr_copyDone (s : State) (p : BitVec 6) (o : Nat) (v : DWord) : (s.setPr p o v).copyDone = s.copyDone := rfl
@[simp] theorem State.setPr_engines (s : State) (p : BitVec 6) (o : Nat) (v : DWord) : (s.setPr p o v).engines = s.engines := rfl
@[simp] theorem State.setPr_relays (s : State) (p : BitVec 6) (o : Nat) (v : DWord) : (s.setPr p o v).relays = s.relays := rfl
@[simp] theorem State.setPr_records (s : State) (p : BitVec 6) (o : Nat) (v : DWord) : (s.setPr p o v).records = s.records := rfl
@[simp] theorem State.setPr_areas (s : State) (p : BitVec 6) (o : Nat) (v : DWord) : (s.setPr p o v).areas = s.areas := rfl
@[simp] theorem State.setPr_launches (s : State) (p : BitVec 6) (o : Nat) (v : DWord) : (s.setPr p o v).launches = s.launches := rfl
@[simp] theorem State.setPr_nextLaunch (s : State) (p : BitVec 6) (o : Nat) (v : DWord) : (s.setPr p o v).nextLaunch = s.nextLaunch := rfl
@[simp] theorem State.setPr_resv (s : State) (p : BitVec 6) (o : Nat) (v : DWord) : (s.setPr p o v).resv = s.resv := rfl
@[simp] theorem State.setPr_lastQueue (s : State) (p : BitVec 6) (o : Nat) (v : DWord) : (s.setPr p o v).lastQueue = s.lastQueue := rfl
@[simp] theorem State.setPr_bulkheads (s : State) (p : BitVec 6) (o : Nat) (v : DWord) : (s.setPr p o v).bulkheads = s.bulkheads := rfl
@[simp] theorem State.setPr_freg (s : State) (p : BitVec 6) (o : Nat) (v : DWord) : (s.setPr p o v).freg = s.freg := rfl
@[simp] theorem State.setPr_preg (s : State) (p : BitVec 6) (o : Nat) (v : DWord) : (s.setPr p o v).preg = wr s.preg (65536 * p.toNat + o) v := rfl
@[simp] theorem State.setPr_vfPart (s : State) (p : BitVec 6) (o : Nat) (v : DWord) : (s.setPr p o v).vfPart = s.vfPart := rfl
@[simp] theorem State.setPr_fqHeld (s : State) (p : BitVec 6) (o : Nat) (v : DWord) : (s.setPr p o v).fqHeld = s.fqHeld := rfl
@[simp] theorem State.setPr_cmds (s : State) (p : BitVec 6) (o : Nat) (v : DWord) : (s.setPr p o v).cmds = s.cmds := rfl
@[simp] theorem State.setPr_schedObjs (s : State) (p : BitVec 6) (o : Nat) (v : DWord) : (s.setPr p o v).schedObjs = s.schedObjs := rfl
@[simp] theorem State.setPr_lastLoad (s : State) (p : BitVec 6) (o : Nat) (v : DWord) : (s.setPr p o v).lastLoad = s.lastLoad := rfl
@[simp] theorem State.setPr_invBusy (s : State) (p : BitVec 6) (o : Nat) (v : DWord) : (s.setPr p o v).invBusy = s.invBusy := rfl
@[simp] theorem State.setPr_vectors (s : State) (p : BitVec 6) (o : Nat) (v : DWord) : (s.setPr p o v).vectors = s.vectors := rfl
@[simp] theorem State.setPr_partSel (s : State) (p : BitVec 6) (o : Nat) (v : DWord) : (s.setPr p o v).partSel = s.partSel := rfl
@[simp] theorem State.setPr_frameSel (s : State) (p : BitVec 6) (o : Nat) (v : DWord) : (s.setPr p o v).frameSel = s.frameSel := rfl
@[simp] theorem State.setPr_keyBlob (s : State) (p : BitVec 6) (o : Nat) (v : DWord) : (s.setPr p o v).keyBlob = s.keyBlob := rfl
@[simp] theorem State.setPr_keyBusy (s : State) (p : BitVec 6) (o : Nat) (v : DWord) : (s.setPr p o v).keyBusy = s.keyBusy := rfl
@[simp] theorem State.setPr_keyErr (s : State) (p : BitVec 6) (o : Nat) (v : DWord) : (s.setPr p o v).keyErr = s.keyErr := rfl
@[simp] theorem State.setPr_inj (s : State) (p : BitVec 6) (o : Nat) (v : DWord) : (s.setPr p o v).inj = s.inj := rfl
@[simp] theorem State.setPr_slices (s : State) (p : BitVec 6) (o : Nat) (v : DWord) : (s.setPr p o v).slices = s.slices := rfl
@[simp] theorem State.setPr_sliceStage (s : State) (p : BitVec 6) (o : Nat) (v : DWord) : (s.setPr p o v).sliceStage = s.sliceStage := rfl
@[simp] theorem State.setPr_sliceNow (s : State) (p : BitVec 6) (o : Nat) (v : DWord) : (s.setPr p o v).sliceNow = s.sliceNow := rfl
@[simp] theorem State.setPr_sliceReady (s : State) (p : BitVec 6) (o : Nat) (v : DWord) : (s.setPr p o v).sliceReady = s.sliceReady := rfl
@[simp] theorem State.setPr_measure (s : State) (p : BitVec 6) (o : Nat) (v : DWord) : (s.setPr p o v).measure = s.measure := rfl
@[simp] theorem State.setPr_spdm (s : State) (p : BitVec 6) (o : Nat) (v : DWord) : (s.setPr p o v).spdm = s.spdm := rfl
@[simp] theorem State.setPr_linksDown (s : State) (p : BitVec 6) (o : Nat) (v : DWord) : (s.setPr p o v).linksDown = s.linksDown := rfl
@[simp] theorem State.setPr_linkFails (s : State) (p : BitVec 6) (o : Nat) (v : DWord) : (s.setPr p o v).linkFails = s.linkFails := rfl
@[simp] theorem State.setPr_lostDies (s : State) (p : BitVec 6) (o : Nat) (v : DWord) : (s.setPr p o v).lostDies = s.lostDies := rfl
@[simp] theorem State.setPr_lastError (s : State) (p : BitVec 6) (o : Nat) (v : DWord) : (s.setPr p o v).lastError = s.lastError := rfl
@[simp] theorem State.setPr_telemetry (s : State) (p : BitVec 6) (o : Nat) (v : DWord) : (s.setPr p o v).telemetry = s.telemetry := rfl
@[simp] theorem State.setPr_beats (s : State) (p : BitVec 6) (o : Nat) (v : DWord) : (s.setPr p o v).beats = s.beats := rfl

end Sys2Proof.Machine
end

