-- ==== Sys2Proof/Safety.lean ====
section
/-! DEFINITION. What a safe run is, and the words that statements about the machine are made of: a word at the head of a string that
issues, what it leaves unchanged, what a register word writes. -/

namespace Sys2Proof

/-- A run of k steps stays out of a machine stop: it ends in a next state. -/
def Safe (k : Nat) (s : Machine.State) : Prop := ∃ t, core.run k s = .next t

namespace Machine

/-- Equal contents of memory are equal data: the canonical form of the package's memory and of the host's. -/
def Canonical (s : State) : Prop := Memory.wf s.mem = true ∧ Memory.wf s.host = true

/-- The head string stands at a word that issues: no register it names is held (R216), and every member has those registers (R49). -/
structure AtWord (s : State) (c : Str) (rest : List Str) (i : Instr) : Prop where
  head : s.strings = c :: rest
  free : s.boarded i c = false
  regs : ∀ id ∈ c.members, s.regsOk i id = true

/-- No thread of true guard has to wait before the word issues. -/
def NoStall (s : State) (c : Str) (i : Instr) (stall : State → Str → Thread → Bool) : Prop :=
  ((s.actors (guardOf i) c).any fun id => match s.thread? id with | some t => stall s c t | none => false) = false

/-- The last value that a list of writes gives a register. -/
def lastOf {α β : Type} [DecidableEq α] (l : List (α × β)) (r : α) : Option β := l.foldl (fun a x => if x.1 = r then some x.2 else a) none

/-- The registers of a thread after the results of a register word: what is written, everything else as before; p7 is not written. -/
structure Written (th th' : Thread) (o : Outs) : Prop where
  g : ∀ r, th'.gr r = (lastOf o.g r).getD (th.gr r)
  p : ∀ r, th'.pr r = if r = 7 then true else (lastOf o.p r).getD (th.pr r)
  /-- a register written is poisoned no more (R417) -/
  bad : th'.gbad = th.gbad.filter fun r => o.g.all fun x => r != x.1

/-- What a register word does (R227): its results for every thread of true guard, the flags of their teams, the word passed by every
member of the string, and nothing else. `f` gives the results of a thread. -/
def RegWordDoes (i : Instr) (f : State → Thread → Sparse 32 → Outs) : Prop :=
  ∀ s c rest, AtWord s c rest i → s.inj.getLsbD 0 = false →
    ∃ t, exec i s = .next t
      ∧ t = { s with threads := t.threads, teams := t.teams, strings := t.strings, freeCtr := t.freeCtr, cycle := s.cycle + 1 }
      ∧ t.teams = s.teams.map (fun m => { m with fpflags := m.fpflags ||| flagsOf s (s.actors (guardOf i) c) m (f s) })
      ∧ (∀ id th, s.thread? id = some th → ∃ th', t.thread? id = some th'
          ∧ (id ∈ s.actors (guardOf i) c → Written th th' (f s th (s.yOf id))
              ∧ th' = { th.pass (wordLen i) with g := th'.g, gbad := th'.gbad, p := th'.p, pend := th'.pend })
          ∧ (id ∈ c.members → id ∉ s.actors (guardOf i) c → th.ready = true → th' = th.pass (wordLen i))
          ∧ (id ∉ c.members → th' = th))

end Machine
end Sys2Proof
end

