-- ==== Sys2Proof/Laws/Issue.lean ====
section
/-! SUPPORT. How a word issues: the three shapes in which words are performed, and everything that a register word can do. -/

namespace Sys2Proof.Machine

/-- Where every member has the registers of the word, none traps. -/
theorem State.trapRegs_eq {s : State} {i : Instr} {c : Str} (h : ∀ id ∈ c.members, s.regsOk i id = true) : s.trapRegs i c = s := by
  unfold State.trapRegs
  generalize c.members = l at h
  induction l with
  | nil => rfl
  | cons a l ih =>
    rw [List.foldl_cons, if_pos (h a (List.mem_cons_self ..))]
    exact ih fun id hid => h id (List.mem_cons_of_mem _ hid)

theorem execReg_issues {s : State} {c : Str} {rest : List Str} {i : Instr} (h : AtWord s c rest i) (f : State → Thread → Sparse 32 → Outs) :
    execReg i f s = .next ((s.regEffect i c (f s)).advance c rest (wordLen i)).tick := by
  simp only [execReg, h.head, h.free, State.trapRegs_eq h.regs, Bool.false_eq_true, if_false]

/-- A held register keeps a register word from issuing (R216). -/
theorem execReg_held {s : State} {c : Str} {rest : List Str} {i : Instr} (hs : s.strings = c :: rest) (hb : s.boarded i c = true)
    (f : State → Thread → Sparse 32 → Outs) : execReg i f s = .next s.tick := by
  simp only [execReg, hs, hb, if_true]

theorem noStall_noStall (s : State) (c : Str) (i : Instr) : NoStall s c i noStall := by
  unfold NoStall
  rw [List.any_eq_false]
  intro id _
  cases s.thread? id <;> simp [noStall]

theorem execEach_issues {s : State} {c : Str} {rest : List Str} {i : Instr} (h : AtWord s c rest i)
    {stall : State → Str → Thread → Bool} (hn : NoStall s c i stall) (eff : Str → ThreadId → State → State) :
    execEach i stall eff s = .next (((s.actors (guardOf i) c).foldl (fun s id => eff c id s) s).advance c rest (wordLen i)).tick := by
  simp only [execEach, h.head, h.free, State.trapRegs_eq h.regs, Bool.false_or]
  split
  · next hc => exact absurd (hc.symm.trans hn) (by decide)
  · rfl

theorem execAll_issues {s : State} {c : Str} {rest : List Str} {i : Instr} (h : AtWord s c rest i)
    {stall : State → Str → Thread → Bool} (hn : NoStall s c i stall) (eff : Str → List ThreadId → State → State) :
    execAll i stall eff s = .next ((eff c (s.actors (guardOf i) c) s).advance c rest (wordLen i)).tick := by
  simp only [execAll, h.head, h.free, State.trapRegs_eq h.regs, Bool.false_or]
  split
  · next hc => exact absurd (hc.symm.trans hn) (by decide)
  · rfl

/-! Threads of a state whose list is mapped. -/

theorem find_map_id {l : List Thread} {id : ThreadId} {th : Thread} (f : Thread → Thread) (hf : ∀ t, (f t).id = t.id)
    (h : l.find? (fun t => t.id == id) = some th) : (l.map f).find? (fun t => t.id == id) = some (f th) := by
  induction l with
  | nil => simp at h
  | cons a l ih =>
    by_cases ha : a.id == id
    · simp only [List.find?_cons, ha, Option.some.injEq] at h; subst h; simp [hf, ha]
    · simp only [List.find?_cons, ha] at h; simp [hf, ha, ih h]

theorem thread_id {s : State} {id : ThreadId} {th : Thread} (h : s.thread? id = some th) : th.id = id := by
  have := List.find?_some h
  simpa using this

theorem thread_of_actor {s : State} {q : PReg} {c : Str} {id : ThreadId} (h : id ∈ s.actors q c) :
    ∃ th, s.thread? id = some th ∧ th.ready = true ∧ th.pr q = true := by
  have h2 := (List.mem_filter.mp h).2
  cases ht : s.thread? id with
  | none => simp [ht] at h2
  | some th => simp only [ht, Bool.and_eq_true] at h2; exact ⟨th, rfl, h2⟩

theorem actor_member {s : State} {q : PReg} {c : Str} {id : ThreadId} (h : id ∈ s.actors q c) : id ∈ c.members :=
  (List.mem_filter.mp h).1

/-! Registers of a thread after writes. -/

theorem Thread.gr_setG (t : Thread) (d r : GReg) (v : Word) : (t.setG d v).gr r = if d = r then v else t.gr r := by
  simp only [Thread.gr, Thread.setG, rd_wr]
  by_cases h : d = r
  · simp [h]
  · have : d.toNat ≠ r.toNat := fun e => h (BitVec.eq_of_toNat_eq e)
    simp [h, this]

@[simp] theorem Thread.gr_setP (t : Thread) (d : PReg) (r : GReg) (v : Bool) : (t.setP d v).gr r = t.gr r := by
  unfold Thread.setP; split <;> rfl
@[simp] theorem Thread.pr_setG (t : Thread) (d : GReg) (r : PReg) (v : Word) : (t.setG d v).pr r = t.pr r := rfl
@[simp] theorem Thread.pr_seven (t : Thread) : t.pr 7 = true := by simp [Thread.pr]

theorem Thread.pr_setP (t : Thread) (d r : PReg) (v : Bool) (hd : d ≠ 7) : (t.setP d v).pr r = if d = r then v else t.pr r := by
  have hdl : d.toNat < 7 := by
    have := d.isLt
    have : d.toNat ≠ 7 := fun e => hd (BitVec.eq_of_toNat_eq e)
    omega
  have hne : (d == 7) = false := by simpa using hd
  simp only [Thread.setP, hne, Bool.false_eq_true, if_false, Thread.pr]
  by_cases h : d = r
  · subst h
    have h7 : ¬d = 7#3 := hd
    cases v <;> simp [h7, hdl]
  · rw [if_neg h]
    by_cases hr : (r == 7) = true
    · rw [hr, Bool.true_or, Bool.true_or]
    · have hb : (1#7 <<< d.toNat).getLsbD r.toNat = false := by
        rw [BitVec.getLsbD_shiftLeft]
        by_cases hlt : r.toNat < d.toNat
        · simp [hlt]
        · have : r.toNat - d.toNat ≠ 0 := fun e => h (BitVec.eq_of_toNat_eq (by omega))
          simp [BitVec.getLsbD_one, this]
      have hrl : r.toNat < 7 := by
        have := r.isLt
        have : r.toNat ≠ 7 := fun e => hr (by simpa using BitVec.eq_of_toNat_eq (x := r) (y := 7) e)
        omega
      congr 1
      cases v
      · rw [if_neg (by decide), BitVec.getLsbD_and, BitVec.getLsbD_not, hb]; simp [hrl]
      · rw [if_pos rfl, BitVec.getLsbD_or, hb, Bool.or_false]

end Sys2Proof.Machine
end

