-- ==== Sys2Proof/Laws/Register.lean ====
section
/-! SUPPORT. Everything that a register word can do (`regWord`), from which the results of single instructions follow. -/

namespace Sys2Proof.Machine

/-! Writing a list of results. -/

theorem lastOf_foldl {α β : Type} [DecidableEq α] (l : List (α × β)) (r : α) (o : Option β) :
    l.foldl (fun a x => if x.1 = r then some x.2 else a) o = (lastOf l r).or o := by
  unfold lastOf
  induction l generalizing o with
  | nil => rfl
  | cons x l ih =>
    rw [List.foldl_cons, List.foldl_cons, ih, ih (if x.1 = r then some x.2 else none)]
    split <;> simp

theorem lastOf_cons {α β : Type} [DecidableEq α] (x : α × β) (l : List (α × β)) (r : α) :
    lastOf (x :: l) r = (lastOf l r).or (if x.1 = r then some x.2 else none) := lastOf_foldl l r _

theorem gr_foldl_setG (l : List (GReg × Word)) (t : Thread) (r : GReg) :
    (l.foldl (fun t x => t.setG x.1 x.2) t).gr r = (lastOf l r).getD (t.gr r) := by
  induction l generalizing t with
  | nil => rfl
  | cons x l ih =>
    rw [List.foldl_cons, ih, Thread.gr_setG, lastOf_cons]
    cases lastOf l r <;> simp
    split <;> simp

theorem pr_foldl_setG (l : List (GReg × Word)) (t : Thread) (r : PReg) : (l.foldl (fun t x => t.setG x.1 x.2) t).pr r = t.pr r := by
  induction l generalizing t with
  | nil => rfl
  | cons x l ih => rw [List.foldl_cons, ih, Thread.pr_setG]

theorem gr_foldl_setP (l : List (PReg × Bool)) (t : Thread) (r : GReg) : (l.foldl (fun t x => t.setP x.1 x.2) t).gr r = t.gr r := by
  induction l generalizing t with
  | nil => rfl
  | cons x l ih => rw [List.foldl_cons, ih, Thread.gr_setP]

theorem pr_foldl_setP (l : List (PReg × Bool)) (t : Thread) (r : PReg) :
    (l.foldl (fun t x => t.setP x.1 x.2) t).pr r = if r = 7 then true else (lastOf l r).getD (t.pr r) := by
  induction l generalizing t with
  | nil =>
    by_cases h : r = 7
    · rw [if_pos h, h]; exact Thread.pr_seven t
    · rw [if_neg h]; rfl
  | cons x l ih =>
    rw [List.foldl_cons, ih, lastOf_cons]
    by_cases h : r = 7
    · simp [h]
    · rw [if_neg h, if_neg h]
      by_cases hx : x.1 = 7
      · have h7 : ¬(7#3 = r) := fun e => h e.symm
        cases lastOf l r <;> simp [h7, Thread.setP, hx]
      · rw [Thread.pr_setP t x.1 r x.2 hx]
        cases lastOf l r <;> simp
        split <;> simp

/-- Only registers and the list of pending results change when results are written. -/
theorem foldl_setG_rest (l : List (GReg × Word)) (t : Thread) :
    l.foldl (fun t x => t.setG x.1 x.2) t = { t with g := (l.foldl (fun t x => t.setG x.1 x.2) t).g, gbad := (l.foldl (fun t x => t.setG x.1 x.2) t).gbad } := by
  induction l generalizing t with
  | nil => rfl
  | cons x l ih => rw [List.foldl_cons, ih]; rfl
/-- Registers that are written are poisoned no more. -/
theorem foldl_setG_gbad (l : List (GReg × Word)) (t : Thread) :
    (l.foldl (fun t x => t.setG x.1 x.2) t).gbad = t.gbad.filter fun r => l.all fun x => r != x.1 := by
  induction l generalizing t with
  | nil => simp
  | cons x l ih => rw [List.foldl_cons, ih]; simp [Thread.setG, List.filter_filter, Bool.and_comm]
theorem foldl_setP_rest (l : List (PReg × Bool)) (t : Thread) :
    l.foldl (fun t x => t.setP x.1 x.2) t = { t with p := (l.foldl (fun t x => t.setP x.1 x.2) t).p } := by
  induction l generalizing t with
  | nil => rfl
  | cons x l ih =>
    rw [List.foldl_cons, ih]
    unfold Thread.setP
    split <;> rfl

theorem Thread.put_written (t : Thread) (o : Outs) : Written t (t.put o) o := by
  refine ⟨fun r => ?_, fun r => ?_, ?_⟩
  · rw [Thread.put, gr_foldl_setP, gr_foldl_setG]; rfl
  · rw [Thread.put, pr_foldl_setP, pr_foldl_setG]; rfl
  · rw [Thread.put, foldl_setP_rest]; exact foldl_setG_gbad _ _
theorem Thread.put_rest (t : Thread) (o : Outs) : t.put o = { t with g := (t.put o).g, gbad := (t.put o).gbad, p := (t.put o).p, pend := (t.put o).pend } := by
  have h : ∀ u : Thread, o.p.foldl (fun t x => t.setP x.1 x.2) (o.g.foldl (fun t x => t.setG x.1 x.2) u)
      = { u with g := (o.p.foldl (fun t x => t.setP x.1 x.2) (o.g.foldl (fun t x => t.setG x.1 x.2) u)).g,
                 gbad := (o.p.foldl (fun t x => t.setP x.1 x.2) (o.g.foldl (fun t x => t.setG x.1 x.2) u)).gbad,
                 p := (o.p.foldl (fun t x => t.setP x.1 x.2) (o.g.foldl (fun t x => t.setG x.1 x.2) u)).p } := by
    intro u
    rw [foldl_setP_rest, foldl_setG_rest]
  unfold Thread.put
  rw [h]
  rfl

/-- Without injection armed a thread writes the word's results. -/
theorem regThread_plain {s : State} (hj : s.inj.getLsbD 0 = false) (i : Instr) (c : Str) (f : Thread → Sparse 32 → Outs) (t : Thread) :
    Written t (regThread i c s f t) (f t (s.yOf t.id))
    ∧ regThread i c s f t = { t with g := (regThread i c s f t).g, gbad := (regThread i c s f t).gbad, p := (regThread i c s f t).p, pend := (regThread i c s f t).pend } := by
  have ho : injOuts s.inj c.obj c.pc t.id (f t (s.yOf t.id)) = f t (s.yOf t.id) := by
    simp only [injOuts, injHits, hj, Bool.false_and, Bool.false_eq_true, if_false]
  have hw := Thread.put_written t (f t (s.yOf t.id))
  have hr := Thread.put_rest t (f t (s.yOf t.id))
  unfold regThread
  simp only [ho]
  split
  · refine ⟨⟨fun r => hw.g r, fun r => hw.p r, hw.bad⟩, ?_⟩
    conv_lhs => rw [hr]
    rfl
  · exact ⟨hw, hr⟩

theorem inj_unarmed {α : Type} {v : BitVec 128} (l : List α) (g : BitVec 128 → α → BitVec 128)
    (hg : ∀ a, g v a = v) : l.foldl g v = v := by
  induction l with
  | nil => rfl
  | cons a l ih => rw [List.foldl_cons, hg, ih]

theorem regEffect_rest {s : State} (hj : s.inj.getLsbD 0 = false) (i : Instr) (c : Str) (f : Thread → Sparse 32 → Outs) :
    s.regEffect i c f = { s with threads := (s.regEffect i c f).threads, teams := (s.regEffect i c f).teams, freeCtr := (s.regEffect i c f).freeCtr } := by
  have : (s.regEffect i c f).inj = s.inj := by
    apply inj_unarmed
    intro id
    cases s.thread? id with
    | none => rfl
    | some t => simp only [injHits, hj, Bool.false_and, Bool.false_eq_true, if_false]
  conv_lhs => rw [show s.regEffect i c f = { s with
    threads := (s.regEffect i c f).threads, teams := (s.regEffect i c f).teams, inj := (s.regEffect i c f).inj, freeCtr := (s.regEffect i c f).freeCtr }
    from rfl, this]

/-- A register word does what `RegWordDoes` says, with the function that its meaning hands to `execReg`. -/
theorem regWord {i : Instr} {f : State → Thread → Sparse 32 → Outs} (hx : ∀ s, exec i s = execReg i f s) : RegWordDoes i f := by
  intro s c rest h hj
  rw [hx, execReg_issues h]
  refine ⟨_, rfl, ?_, rfl, ?_⟩
  · conv_lhs => rw [State.advance, regEffect_rest hj]
    rfl
  · intro id th ht
    have hid := thread_id ht
    let g1 : Thread → Thread := fun t => if (s.actors (guardOf i) c).contains t.id then regThread i c s (f s) t else t
    let g2 : Thread → Thread := fun t => if c.members.contains t.id then (if t.ready then t.pass (wordLen i) else t.halt c.hdr (wordLen i)) else t
    have rr := fun t => (regThread_plain hj i c (f s) t).2
    have h1 : ∀ t, (g1 t).id = t.id := by
      intro t; simp only [g1]; split
      · rw [rr t]
      · rfl
    have h2 : ∀ t, (g2 t).id = t.id := by intro t; simp only [g2]; (repeat' split) <;> rfl
    refine ⟨g2 (g1 th), find_map_id g2 h2 (find_map_id g1 h1 ht), ?_, ?_, ?_⟩
    · intro ha
      obtain ⟨th2, ht2, hready, _⟩ := thread_of_actor ha
      obtain rfl : th2 = th := Option.some.inj (ht2.symm.trans ht)
      have e1 : g1 th2 = regThread i c s (f s) th2 := by simp only [g1, hid]; rw [if_pos (by simpa using ha)]
      have hrd : (g1 th2).ready = true := by rw [e1, rr th2]; exact hready
      have e2 : g2 (g1 th2) = (g1 th2).pass (wordLen i) := by
        simp only [g2, h1, hid]; rw [if_pos (by simpa using actor_member ha), if_pos hrd]
      obtain ⟨w, r⟩ := regThread_plain hj i c (f s) th2
      rw [hid] at w
      rw [e2, e1]
      refine ⟨⟨fun k => w.g k, fun k => w.p k, w.bad⟩, ?_⟩
      conv_lhs => rw [r]
      rfl
    · intro hm hna hready
      have e1 : g1 th = th := by simp only [g1, hid]; rw [if_neg (by simpa using hna)]
      rw [e1]; simp only [g2, hid]; rw [if_pos (by simpa using hm), if_pos hready]
    · intro hm
      have hna : id ∉ s.actors (guardOf i) c := fun ha => hm (actor_member ha)
      have e1 : g1 th = th := by simp only [g1, hid]; rw [if_neg (by simpa using hna)]
      rw [e1]; simp only [g2, hid]; rw [if_neg (by simpa using hm)]

end Sys2Proof.Machine
end

