-- ==== Sys2Proof/Machine/RegRead.lean ====
section
/-! DEFINITION. What the registers of the windows read as (R7, Tables 18.1, 18.10, 19.1, 19.3, 20.3, 21.3, 21.5; R393, R413, R421,
R422). A read changes nothing, so it is no step: it is a function of the state. -/

namespace Sys2Proof.Machine

def BhState.code : BhState → Nat
  | .off => 0 | .run => 1 | .resetting => 2 | .failed => 3
/-- BHCFG (Table 19.1); RST reads as 0. -/
def State.bhcfg (s : State) (b : Nat) : DWord :=
  let h := s.bh b
  BitVec.ofNat 64 (h.state.code * 2 ^ 30 + h.cores * 2 ^ 16 + (if h.cerr then 256 else 0) + (if h.assigned then 128 else 0) + h.part.toNat)
/-- FRAMEOWN: the selected byte, BUSY in bit 31 (R393). -/
def State.frameOwn (s : State) : DWord :=
  (if s.frameBusy.isEmpty then 0 else 0x80000000) ||| (rd s.frames s.selFrame).setWidth 64
/-- KEYCTL: BUSY in bit 31, the failed unwrapping in bit 30 (R413). -/
def State.keyCtl (s : State) : DWord := (if s.keyBusy.isSome then 0x80000000 else 0) ||| (if s.keyErr then 0x40000000 else 0)

/-- A register of a function's window. A virtual function reads its partition's window entries; the partition's other registers it
reads as its lead alone (R396, R406). What no table names reads as zero. -/
def State.regRead (s : State) (fn : Fn) (off : Nat) : DWord :=
  match fn with
  | .vf f =>
    if 0x4000 ≤ off && decide (off < 0x6000) then
      match s.vfPartOf f with
      | some p => if off < 0x5000 || s.leadFn p == some (.vf f) then s.pr p off else 0
      | none => 0
    else s.fr f off
  | .pf =>
    if 0x8000 ≤ off && decide (off < 0xa000) then s.pr s.partSel (off - 0x4000)
    else if 0x3000 ≤ off && decide (off < 0x3180) && off % 8 = 0 then s.bhcfg ((off - 0x3000) / 8)
    else if 0xa000 ≤ off && decide (off < 0xa400) then
      match s.slices.find? fun x => x.1 == (off - 0xa000) / 16 with
      | some x => if off % 16 = 0 then x.2.extractLsb' 0 64 else if off % 16 = 8 then x.2.extractLsb' 64 64 else 0
      | none => 0
    else if 0x6100 ≤ off && decide (off < 0x6148) && off % 8 = 0 then s.keyBlob.extractLsb' (8 * (off - 0x6100)) 64
    else
      match off with
      | 0x3200 => s.frameSel
      | 0x3208 => s.frameOwn
      | 0x3300 => s.partSel.setWidth 64
      | 0x6000 => s.keyCtl
      | 0x7800 => s.inj.extractLsb' 0 64
      | 0x7808 => s.inj.extractLsb' 64 64
      | _ => s.fr 384 off

end Sys2Proof.Machine
end

