-- ==== Sys2Proof/Certificates/Slice0/Obligations.lean ====
section
/-! DEFINITION. The statements about the model. Each docstring names the rules of spec/ that it formalises; the helper definitions say
in the spec's own words what the statements compare with. -/

open Sys2Proof Sys2Proof.Machine
namespace Sys2Proof
open Machine

/-! ## The machine and its steps -/

end Sys2Proof

/-- R8 and the reset columns of Tables 1.3, 5.6, 18.1, 19.1, 21.3, 21.5: what a cold reset of the package leaves. That memory lists
nothing and what it reads as is the model's choice (notes/assumptions/7.md). -/
def Obligations.ResetState : Prop :=
  State.reset.boot = .off ∧ State.reset.mem = [] ∧ State.reset.host = [] ∧ State.reset.cycle = 0
    ∧ State.reset.threads = [] ∧ State.reset.strings = [] ∧ State.reset.blocks = [] ∧ State.reset.launches = [] ∧ State.reset.records = []
    ∧ State.reset.bulkheads = List.replicate 48 Bulkhead.reset ∧ Bulkhead.reset.state = .off ∧ Bulkhead.reset.assigned = false
    ∧ (∀ f ≤ 384, State.reset.fr f 0x10 = 10000)
    ∧ (∀ d < 8, ∀ e < 4, State.reset.fr 384 (0x2000 + 0x10 * d + 4 * e) = 0x04040810)
    ∧ (∀ c < 16, State.reset.fr 384 (0x7100 + 8 * c) = 0x80000040)
    ∧ State.reset.partSel = 0 ∧ State.reset.inj = 0 ∧ State.reset.keyErr = false
    ∧ (∀ p off, State.reset.pr p off = 0) ∧ (∀ pipe, State.reset.gen pipe = 1)

/-- The memory of the machine after reset is in its canonical form. -/
def Obligations.ResetCanonical : Prop := Canonical State.reset

/-- R4, R208 and the encoding tables of file 9: words written out from the spec decode to the instructions that they stand for. -/
def Obligations.DecodeWords : Prop :=
  decode [0x2840002f] = .ok (.addi 7 16 0 5, [])
    ∧ decode [0x04008107] = .ok (.mul 7 0 16 (.g 16), [])
    ∧ decode [0x6c000007] = .ok (.ret 7, [])
    ∧ decode [0xc0202001, 0x01220040] = .ok (.ldAcq 1 .dev 2 false 8 { base := 4, off := 64 }, [])
    ∧ decode [0xee01f807, 0x00000fc2] = .ok (.wait 7 0 63 2 63, [])

/-- File 9: encoding and decoding agree: no field of an encoding is dropped, and the words that follow are left alone. -/
def Obligations.DecodeEncode : Prop :=
  ∀ (i : Instr) (rest : List Word), i.wf = true → encode i ≠ [] → decode (encode i ++ rest) = .ok (i, rest)

/-- A step in which nothing else can happen than the word at a string's program counter: the words there, read from memory, are decoded,
and the instruction is performed at that state, after the choices of R218 (`late`) and the first use of a copy's status (`useCopies`);
what the step counts (R421) is added. A thread that reads a poisoned register consumes the error instead (R193, R417). -/
def Obligations.StepRunsWord : Prop :=
  ∀ (s : State) (k : Nat) (c : Str) (rest : List Str) (w w2 : Word) (i : Instr) (r : List Word),
    s.boot = .done → s.cands = [.word k] → (s.focus k).strings = c :: rest →
    (s.focus k).textWord c.core c.part c.obj c.pc.toNat = some w →
    w2 = ((s.focus k).textWord c.core c.part c.obj (c.pc.toNat + 4)).getD 0 → decode [w, w2] = .ok (i, r) →
      ((s.focus k).badReader i c = none →
        (∀ t, exec i (((s.focus k).late c).useCopies i c) = .next t → step s = .next (s.counted none t))
        ∧ (∀ f, exec i (((s.focus k).late c).useCopies i c) = .fault f → step s = .fault f)
        ∧ (∀ x, exec i (((s.focus k).late c).useCopies i c) = .refused x → step s = .refused x))
      ∧ ∀ id, (s.focus k).badReader i c = some id →
          step s = .next (s.counted none (((s.focus k).registerError c.core).consumed id c.pc).tick)

/-- A step is one of the things that can happen next; before the boot it is the cold reset, and after a failed boot the package is gated (R414). -/
def Obligations.StepIsACandidate : Prop :=
  ∀ s : State,
    (s.boot = .off → step s = exec .coldReset s)
    ∧ (s.boot = .failed → step s = .fault .gated)
    ∧ (s.boot = .done → s.cands = [] → step s = .next s.tick)
    ∧ (s.boot = .done → s.cands ≠ [] → ∃ cand ∈ s.cands, ∃ s', (s' = s ∨ s' = s.redraw) ∧ step s = runCounted cand s')
    ∧ (∀ k e, s.agenda[k]? = some e → Cand.agenda k ∈ s.cands
        ∧ runCand (.agenda k) s = runEv e { s with agenda := s.agenda.eraseIdx k })
    ∧ (∀ core picker, (core, picker) ∈ s.pickersReady → Cand.free (.stringIssue core picker) ∈ s.cands)

/-- Every step keeps the memories of the package and of the host in their canonical form. -/
def Obligations.StepKeepsCanonical : Prop :=
  ∀ s t : State, Canonical s → step s = .next t → Canonical t

namespace Sys2Proof
open Machine

/-- A register word: what it computes depends on registers alone, and its results go to registers. -/
def IsRegisterWord (i : Instr) : Prop := ∃ f, ∀ s, exec i s = execReg i f s

end Sys2Proof

/-- R216: a held register named by the word keeps it from issuing; nothing of it happens. -/
def Obligations.HeldRegisterStalls : Prop :=
  ∀ (i : Instr) (s : State) (c : Str) (rest : List Str) (id : ThreadId) (th : Thread), IsRegisterWord i → s.strings = c :: rest →
    id ∈ s.actors (guardOf i) c → s.thread? id = some th →
    (∃ p ∈ gWaited i, ∃ r ∈ th.hold, p.1 ≤ r.toNat ∧ r.toNat < p.1 + p.2) →
      exec i s = .next { s with cycle := s.cycle + 1 }

/-- R49, R221, R184: a thread whose shape lacks a register that the word names parks at the word with ILLEGAL_OP, none of the word's effect
done for it; its block is to be saved. In a redundant block the trap waits for its signature (R426). -/
def Obligations.MissingRegisterTraps : Prop :=
  ∀ (i : Instr) (s : State) (c : Str) (rest : List Str) (id : ThreadId) (th : Thread), IsRegisterWord i → s.strings = c :: rest →
    s.boarded i c = false → id ∈ c.members → s.thread? id = some th → s.isRed id.blk = false →
    (∃ p ∈ gNamed i, ∃ k < p.2, gExists (s.gregs id) (p.1 + k) = false) →
      ∃ t th', exec i s = .next t ∧ t.thread? id = some th'
        ∧ th'.status = .parked { cause := .illegalOp, addr := 0, sub := 0, word := true }
        ∧ th'.pc = th.pc ∧ th'.g = th.g ∧ th'.p = th.p ∧ t.mem = s.mem ∧ Ev.blockSave id.blk ∈ t.agenda

/-- R184, R202 and R426: the ways in which a trap is taken (at once; in a redundant block once its signature matches, for which it waits while
the compare buffer is full), and how a thread leaves it (R187). -/
def Obligations.TrapTaking : Prop :=
  ∀ (s : State) (id : ThreadId) (th : Thread) (pc : Word) (cause : Cause) (addr : DWord) (sub : BitVec 8) (word : Bool),
    s.thread? id = some th →
      ((s.isRed id.blk = false ∨ th.granted = true) →
        ∃ t th', s.raise id pc cause addr sub word = t ∧ t.thread? id = some th'
          ∧ th'.status = .parked { cause := cause, addr := addr, sub := sub, word := word } ∧ th'.pc = th.pc ∧ th'.g = th.g ∧ th'.p = th.p
          ∧ t.agenda = s.agenda ++ [.blockSave id.blk] ∧ t.mem = s.mem ∧ ∀ k, k ≠ id → t.thread? k = s.thread? k)
      ∧ (s.isRed id.blk = true → th.granted = false → s.sigFull id pc = true →
        ∃ t th', s.raise id pc cause addr sub word = t ∧ t.thread? id = some th' ∧ th' = { th with status := .waiting (.signature none) }
          ∧ t.agenda = s.agenda ∧ t.mem = s.mem)
      ∧ (s.isRed id.blk = true → th.granted = false → s.sigFull id pc = false →
        ∃ t th', s.raise id pc cause addr sub word = t ∧ t.thread? id = some th'
          ∧ th'.status = .waiting (.signature (some { cause := cause, addr := addr, sub := sub, word := word }))
          ∧ t.agenda = s.agenda ++ [.signatureCompare id.blk (teamIdx id)] ∧ t.mem = s.mem)
      ∧ (∀ trap : TrapInfo, th.status = .parked trap →
          th.retry = { th with status := .ready }
          ∧ (trap.tag = none → trap.word = true → th.skip = { th with status := .ready, pc := th.pc + BitVec.ofNat 32 th.wlen })
          ∧ (trap.tag = none → trap.word = false → th.skip = { th with status := .ready, hdr := none, pc := th.pc + BitVec.ofNat 32 th.wlen })
          ∧ (trap.tag.isSome = true → th.skip = { th with status := .ready }))

namespace Sys2Proof
open Machine

/-- Majors 0x7e and 0x7f trap every thread of the string with ILLEGAL_OP, whatever its guard (R221, R222). -/
def illegalMajorsTrap : Prop :=
  ∀ (x : Bool) (a : BitVec 25) (s : State) (c : Str) (rest : List Str), s.strings = c :: rest →
    ∃ t, exec (.illegalMajor x a) s = .next t ∧ t.mem = s.mem ∧ t.cycle = s.cycle + 1
      ∧ ∀ id ∈ c.members, ∀ th, s.thread? id = some th → s.isRed id.blk = false →
          ∃ th', t.thread? id = some th' ∧ th'.status = .parked { cause := .illegalOp, addr := 0, sub := 0, word := true }
            ∧ th'.pc = th.pc ∧ th'.g = th.g ∧ th'.p = th.p ∧ Ev.blockSave id.blk ∈ t.agenda

/-! ## Register words of file 10 (R227 to R243) -/

/-- Z and S of R227, as integers; bits of an integer as a word. -/
def zi (x : Word) : Int := (x.toNat : Int)
def si (x : Word) : Int := x.toInt
def wordOf (v : Int) : Word := BitVec.ofInt 32 v
def dwordOf (v : Int) : DWord := BitVec.ofInt 64 v
/-- What a word with one 32-bit destination writes. -/
def to1 (d : GReg) (f : Thread → Sparse 32 → Word) : State → Thread → Sparse 32 → Outs := fun _ t y => { g := [(d, f t y)] }
/-- What a word with an even pair as its destination writes: the high word in the odd register (R5). -/
def to2 (d : GReg) (f : Thread → Sparse 32 → DWord) : State → Thread → Sparse 32 → Outs :=
  fun _ t y => { g := [(d, (f t y).setWidth 32), (d + 1, (f t y >>> 32).setWidth 32)] }
/-- What a word with a predicate as its destination writes. -/
def toP (d : PReg) (f : Thread → Sparse 32 → Bool) : State → Thread → Sparse 32 → Outs := fun _ t y => { p := [(d, f t y)] }

/-- R229, Table 10.1: the sums, products, minima, maxima and logic of two operands. -/
def integerTwoOperands : Prop :=
  ∀ (q : PReg) (d a : GReg) (b : Src),
    RegWordDoes (.add q d a b) (to1 d fun t y => wordOf (zi (t.gr a) + zi (bval y t b)))
    ∧ RegWordDoes (.sub q d a b) (to1 d fun t y => wordOf (zi (t.gr a) - zi (bval y t b)))
    ∧ RegWordDoes (.mul q d a b) (to1 d fun t y => wordOf (zi (t.gr a) * zi (bval y t b)))
    ∧ RegWordDoes (.mulhiI32 q d a b) (to1 d fun t y => wordOf (si (t.gr a) * si (bval y t b) / 2 ^ 32))
    ∧ RegWordDoes (.mulhiN32 q d a b) (to1 d fun t y => wordOf (zi (t.gr a) * zi (bval y t b) / 2 ^ 32))
    ∧ RegWordDoes (.minI32 q d a b) (to1 d fun t y => if si (t.gr a) ≤ si (bval y t b) then t.gr a else bval y t b)
    ∧ RegWordDoes (.minN32 q d a b) (to1 d fun t y => if zi (t.gr a) ≤ zi (bval y t b) then t.gr a else bval y t b)
    ∧ RegWordDoes (.maxI32 q d a b) (to1 d fun t y => if si (t.gr a) ≥ si (bval y t b) then t.gr a else bval y t b)
    ∧ RegWordDoes (.maxN32 q d a b) (to1 d fun t y => if zi (t.gr a) ≥ zi (bval y t b) then t.gr a else bval y t b)
    ∧ RegWordDoes (.and q d a b) (to1 d fun t y => t.gr a &&& bval y t b)
    ∧ RegWordDoes (.or q d a b) (to1 d fun t y => t.gr a ||| bval y t b)
    ∧ RegWordDoes (.xor q d a b) (to1 d fun t y => t.gr a ^^^ bval y t b)

/-- Bits 7:0 of a shift amount (R229). -/
def amount (b : Word) : Nat := b.toNat % 256
/-- The shift rows of Table 10.1. -/
def shiftL (a : Word) (n : Nat) : Word := if n ≥ 32 then 0 else wordOf (zi a * 2 ^ n)
def shiftR (a : Word) (n : Nat) : Word := if n ≥ 32 then 0 else wordOf (zi a / 2 ^ n)
def shiftA (a : Word) (n : Nat) : Word := wordOf (si a / 2 ^ min n 31)
def turnL (a : Word) (k : Nat) : Word := wordOf (zi a * 2 ^ k + zi a / 2 ^ (32 - k))

end Sys2Proof

/-- R229, Table 10.1: shifts with a count of 32 or more, and the rotation. -/
def Obligations.IntegerShifts : Prop :=
  ∀ (q : PReg) (d a : GReg) (b : Src),
    RegWordDoes (.shl q d a b) (to1 d fun t y => shiftL (t.gr a) (amount (bval y t b)))
    ∧ RegWordDoes (.shr q d a b) (to1 d fun t y => shiftR (t.gr a) (amount (bval y t b)))
    ∧ RegWordDoes (.sar q d a b) (to1 d fun t y => shiftA (t.gr a) (amount (bval y t b)))
    ∧ RegWordDoes (.rol q d a b) (to1 d fun t y => turnL (t.gr a) ((bval y t b).toNat % 32))

namespace Sys2Proof
open Machine

/-- R230: signed and unsigned quotient and remainder with their edge cases. -/
def divSigned (a b : Word) : Word × Word :=
  if b = 0 then (0xffffffff, a)
  else if si a = -2 ^ 31 ∧ si b = -1 then (0x80000000, 0)
  else (wordOf ((si a).tdiv (si b)), wordOf (si a - si b * (si a).tdiv (si b)))
def divUnsigned (a b : Word) : Word × Word :=
  if b = 0 then (0xffffffff, a) else (wordOf (zi a / zi b), wordOf (zi a - zi b * (zi a / zi b)))
def integerDivision : Prop :=
  ∀ (q : PReg) (d a : GReg) (b : Src),
    RegWordDoes (.divI32 q d a b) (to1 d fun t y => (divSigned (t.gr a) (bval y t b)).1)
    ∧ RegWordDoes (.remI32 q d a b) (to1 d fun t y => (divSigned (t.gr a) (bval y t b)).2)
    ∧ RegWordDoes (.divN32 q d a b) (to1 d fun t y => (divUnsigned (t.gr a) (bval y t b)).1)
    ∧ RegWordDoes (.remN32 q d a b) (to1 d fun t y => (divUnsigned (t.gr a) (bval y t b)).2)

/-- R231, Table 10.2: the immediate stands in for b, signed for sums and logic, unsigned for shifts. -/
def integerImmediates : Prop :=
  ∀ (q : PReg) (d a : GReg) (i : BitVec 8),
    RegWordDoes (.addi q d a i) (to1 d fun t _ => wordOf (zi (t.gr a) + i.toInt))
    ∧ RegWordDoes (.shli q d a i) (to1 d fun t _ => shiftL (t.gr a) i.toNat)
    ∧ RegWordDoes (.shri q d a i) (to1 d fun t _ => shiftR (t.gr a) i.toNat)
    ∧ RegWordDoes (.sari q d a i) (to1 d fun t _ => shiftA (t.gr a) i.toNat)
    ∧ RegWordDoes (.andi q d a i) (to1 d fun t _ => t.gr a &&& wordOf i.toInt)
    ∧ RegWordDoes (.ori q d a i) (to1 d fun t _ => t.gr a ||| wordOf i.toInt)
    ∧ RegWordDoes (.xori q d a i) (to1 d fun t _ => t.gr a ^^^ wordOf i.toInt)

/-- R232, Table 10.3: multiply-add, its high words and its wide forms. -/
def integerMultiplyAdd : Prop :=
  ∀ (q : PReg) (d a : GReg) (b : Src) (c : GReg),
    RegWordDoes (.mad q d a b c) (to1 d fun t y => wordOf (zi (t.gr a) * zi (bval y t b) + zi (t.gr c)))
    ∧ RegWordDoes (.madHiI32 q d a b c) (to1 d fun t y => wordOf (si (t.gr a) * si (bval y t b) / 2 ^ 32 + zi (t.gr c)))
    ∧ RegWordDoes (.madHiN32 q d a b c) (to1 d fun t y => wordOf (zi (t.gr a) * zi (bval y t b) / 2 ^ 32 + zi (t.gr c)))
    ∧ RegWordDoes (.madWideI32 q d a b c) (to2 d fun t y => dwordOf (si (t.gr a) * si (bval y t b) + (t.gr64 c).toInt))
    ∧ RegWordDoes (.madWideN32 q d a b c) (to2 d fun t y => dwordOf (zi (t.gr a) * zi (bval y t b) + ((t.gr64 c).toNat : Int)))
end Sys2Proof

/-- R230, R232: division with its corners (Table 10.1), multiply-add with its wide forms (Table 10.3). -/
def Obligations.IntegerDivisionAndMultiplyAdd : Prop := integerDivision ∧ integerMultiplyAdd

namespace Sys2Proof
open Machine

/-- Number of bits of a word that satisfy a test. -/
def countBits (p : Nat → Bool) : Nat := ((List.range 32).filter p).length
/-- R233, Table 10.4: counts, reversal, complement, absolute value, negation. -/
def integerOneOperand : Prop :=
  ∀ (q : PReg) (d a : GReg),
    RegWordDoes (.popc q d a) (to1 d fun t _ => wordOf (countBits fun k => (t.gr a).getLsbD k))
    ∧ RegWordDoes (.clz q d a) (to1 d fun t _ => wordOf (countBits fun k => zi (t.gr a) < 2 ^ k))
    ∧ RegWordDoes (.ctz q d a) (to1 d fun t _ => wordOf (countBits fun k => zi (t.gr a) % 2 ^ (k + 1) = 0))
    ∧ (∃ r : Word → Word, (∀ x, ∀ k < 32, (r x).getLsbD k = x.getLsbD (31 - k)) ∧ RegWordDoes (.brev q d a) (to1 d fun t _ => r (t.gr a)))
    ∧ RegWordDoes (.not q d a) (to1 d fun t _ => wordOf (2 ^ 32 - 1 - zi (t.gr a)))
    ∧ RegWordDoes (.abs q d a) (to1 d fun t _ => wordOf |si (t.gr a)|)
    ∧ RegWordDoes (.neg q d a) (to1 d fun t _ => wordOf (-si (t.gr a)))
end Sys2Proof

/-- R229, R231, R233: the integer words of Tables 10.1, 10.2 and 10.4 with two operands, an immediate, one operand. -/
def Obligations.IntegerArithmetic : Prop := integerTwoOperands ∧ integerImmediates ∧ integerOneOperand

namespace Sys2Proof
open Machine

/-- R234: position and length of a bit field, clamped to the word. -/
def fieldPos (t : Thread) : BfArg → Nat
  | .imm p _ => p.toNat
  | .reg c => min ((t.gr c).toNat % 256) 32
def fieldLen (t : Thread) (x : BfArg) : Nat :=
  min (match x with | .imm _ l => l.toNat | .reg c => (t.gr c).toNat / 256 % 256) (32 - fieldPos t x)
/-- The field of a word, read by Z, and read by S where it has a sign bit. -/
def fieldZ (x : Word) (p l : Nat) : Int := zi x / 2 ^ p % 2 ^ l
def fieldS' (x : Word) (p l : Nat) : Int := if l > 0 ∧ fieldZ x (p + l - 1) 1 = 1 then fieldZ x p l - 2 ^ l else fieldZ x p l
/-- A shift count of a funnel shift, a selector of a permutation. -/
def funnelN (t : Thread) : ShfArg → Nat
  | .imm n => n.toNat
  | .reg c => (t.gr c).toNat % 32
def selectorOf (t : Thread) : PrmtArg → Nat
  | .imm v => v.toNat
  | .reg c => (t.gr c).toNat % 65536
/-- Byte number i of eight, and what a 4-bit selector makes of them. -/
def byteOf8 (a b : Word) (i : Nat) : Nat := (a.toNat + 2 ^ 32 * b.toNat) / 256 ^ i % 256
def permuted (a b : Word) (s : Nat) : Nat := if s < 8 then byteOf8 a b s else if byteOf8 a b (s - 8) ≥ 128 then 255 else 0
end Sys2Proof

/-- R234: bit fields, funnel shifts, byte permutation, three-input logic. -/
def Obligations.IntegerBitFields : Prop :=
  ∀ (q : PReg) (d a : GReg) (b : Src) (c : GReg) (x : BfArg) (n : ShfArg) (sel : PrmtArg) (fn : BitVec 8),
    RegWordDoes (.bfeN32 q d a x) (to1 d fun t _ => wordOf (fieldZ (t.gr a) (fieldPos t x) (fieldLen t x)))
    ∧ RegWordDoes (.bfeI32 q d a x) (to1 d fun t _ => wordOf (fieldS' (t.gr a) (fieldPos t x) (fieldLen t x)))
    ∧ (∃ r : Word → Word → Nat → Nat → Word,
        (∀ u v p l k, k < 32 → (r u v p l).getLsbD k = if p ≤ k ∧ k < p + l then u.getLsbD (k - p) else v.getLsbD k)
        ∧ RegWordDoes (.bfi q d a b x) (to1 d fun t y => r (t.gr a) (bval y t b) (fieldPos t x) (fieldLen t x)))
    ∧ RegWordDoes (.shfL q d a b n) (to1 d fun t y => wordOf ((zi (bval y t b) * 2 ^ 32 + zi (t.gr a)) * 2 ^ funnelN t n / 2 ^ 32))
    ∧ RegWordDoes (.shfR q d a b n) (to1 d fun t y => wordOf ((zi (bval y t b) * 2 ^ 32 + zi (t.gr a)) / 2 ^ funnelN t n))
    ∧ RegWordDoes (.prmt q d a b sel) (to1 d fun t y =>
        BitVec.ofNat 32 (((List.range 4).map fun i => permuted (t.gr a) (bval y t b) (selectorOf t sel / 16 ^ i % 16) * 256 ^ i).sum))
    ∧ (∃ r : Word → Word → Word → Word,
        (∀ u v w, ∀ k < 32, (r u v w).getLsbD k = fn.getLsbD ((u.getLsbD k).toNat + 2 * (v.getLsbD k).toNat + 4 * (w.getLsbD k).toNat))
        ∧ RegWordDoes (.bitfn q d a b c fn) (to1 d fun t y => r (t.gr a) (bval y t b) (t.gr c)))

namespace Sys2Proof
open Machine

/-- A condition of R235 on two integers. -/
def holds : ICond → Int → Int → Prop
  | .eq, x, y => x = y
  | .ne, x, y => x ≠ y
  | .lt, x, y => x < y
  | .le, x, y => x ≤ y
  | .gt, x, y => x > y
  | .ge, x, y => x ≥ y
/-- The second operand of a compare: B, or IMM16 extended by sign or by zero. -/
def cmp32 (sx : Bool) (t : Thread) (y : Sparse 32) : SetpArg → Word
  | .src b => bval y t b
  | .imm v => if sx then wordOf v.toInt else wordOf v.toNat
def cmp64 (sx : Bool) (t : Thread) (y : Sparse 32) : SetpArg → DWord
  | .src b => bval64 y t b
  | .imm v => if sx then dwordOf v.toInt else dwordOf v.toNat
end Sys2Proof

/-- R235 to R237: compares, predicate logic, moves between predicates and registers, select. -/
def Obligations.ComparesPredicatesSelect : Prop :=
  ∀ (q pd pa pb pc : PReg) (d a : GReg) (b : Src) (x : SetpArg) (cond : ICond) (mask : BitVec 7),
    (∃ f : Thread → Sparse 32 → Bool, (∀ t y, f t y = true ↔ holds cond (si (t.gr a)) (si (cmp32 true t y x)))
        ∧ RegWordDoes (.setp q (.i32 cond) pd a x) (toP pd f))
    ∧ (∃ f : Thread → Sparse 32 → Bool, (∀ t y, f t y = true ↔ holds cond (zi (t.gr a)) (zi (cmp32 false t y x)))
        ∧ RegWordDoes (.setp q (.n32 cond) pd a x) (toP pd f))
    ∧ (∃ f : Thread → Sparse 32 → Bool, (∀ t y, f t y = true ↔ t.gr a &&& cmp32 true t y x ≠ 0) ∧ RegWordDoes (.setp q .tst pd a x) (toP pd f))
    ∧ (∃ f : Thread → Sparse 32 → Bool, (∀ t y, f t y = true ↔ holds cond (t.gr64 a).toInt (cmp64 true t y x).toInt)
        ∧ RegWordDoes (.setp q (.i64 cond) pd a x) (toP pd f))
    ∧ (∃ f : Thread → Sparse 32 → Bool, (∀ t y, f t y = true ↔ holds cond (t.gr64 a).toNat (cmp64 false t y x).toNat)
        ∧ RegWordDoes (.setp q (.n64 cond) pd a x) (toP pd f))
    ∧ RegWordDoes (.pand q pd pa pb) (toP pd fun t _ => t.pr pa && t.pr pb)
    ∧ RegWordDoes (.por q pd pa pb) (toP pd fun t _ => t.pr pa || t.pr pb)
    ∧ RegWordDoes (.pxor q pd pa pb) (toP pd fun t _ => t.pr pa != t.pr pb)
    ∧ RegWordDoes (.pnot q pd pa) (toP pd fun t _ => !t.pr pa)
    ∧ RegWordDoes (.p2g q d) (to1 d fun t _ => wordOf (((List.range 8).map fun k => if t.pr (BitVec.ofNat 3 k) then (2 : Int) ^ k else 0).sum))
    ∧ RegWordDoes (.g2p q a mask) (fun _ t _ =>
        { p := ((List.range 7).filter fun k => mask.getLsbD k).map fun k => (BitVec.ofNat 3 k, (t.gr a).getLsbD k) })
    ∧ RegWordDoes (.sel q d a b pc) (to1 d fun t y => if t.pr pc = true then t.gr a else bval y t b)

namespace Sys2Proof
open Machine

/-- The values of Table 2.3 for a thread of a block. -/
def special (s : State) (t : Thread) (b : Block) (fl : BitVec 5) : Special → Nat
  | .tid => t.id.tid
  | .team => t.id.tid / 128
  | .block => b.shape.gidx
  | .grp => b.grp
  | .launch => b.ident.toNat
  | .stage => b.shape.stage
  | .core => b.core % 8
  | .cluster => b.core / 8 % 3
  | .bulkhead => b.core / 24
  | .die => b.core / 144
  | .chip => s.chip.toNat
  | .clock => (s.epoch.toNat + s.cycle) % 2 ^ 64
  | .fpflags => fl.toNat
end Sys2Proof

/-- R238 to R240, R55: moves, literals, and the special values; %clock fills a pair; a read of %fpflags waits for the flags that earlier
instructions of the thread are still to raise. In a redundant block the leader's %clock goes through the
load-value queue, of which `MovsOfARedundantBlock` speaks. -/
def Obligations.MovesAndSpecials : Prop :=
  ∀ (q : PReg) (d : GReg) (b : Src) (lit : Word) (x : Special),
    RegWordDoes (.mov q d b) (to1 d fun t y => bval y t b)
    ∧ RegWordDoes (.movi q d lit) (to1 d fun _ _ => lit)
    ∧ (∀ s c rest, AtWord s c rest (.movs q d x) → s.inj.getLsbD 0 = false → (x = .clock → s.redString = false) →
        (x = .fpflags → ∀ id ∈ s.actors q c, s.flagsDue id = false) →
        ∃ t, exec (.movs q d x) s = .next t ∧ t.mem = s.mem ∧ t.cycle = s.cycle + 1
          ∧ ∀ id ∈ s.actors q c, ∀ th blk m, s.thread? id = some th → s.block? id.blk = some blk → s.teamOf id = some m →
              ∃ th', t.thread? id = some th' ∧ th'.pc = th.pc + 4
                ∧ th'.gr d = BitVec.ofNat 32 (special s th blk m.fpflags x)
                ∧ (x = .clock → th'.gr (d + 1) = BitVec.ofNat 32 (special s th blk m.fpflags x / 2 ^ 32))
                ∧ ∀ r, r ≠ d → (x = .clock → r ≠ d + 1) → th'.gr r = th.gr r)
    ∧ (∀ s c rest id, AtWord s c rest (.movs q d .fpflags) → id ∈ s.actors q c → s.flagsDue id = true →
        exec (.movs q d .fpflags) s = .next { s with cycle := s.cycle + 1 })

namespace Sys2Proof
open Machine

/-- R243: sums, differences, address arithmetic, shifts, minima and maxima of 64 bits. -/
def count64 (y : Sparse 32) (t : Thread) : Sh64Arg → Nat
  | .imm n => n.toNat
  | .src b => (bval y t b).toNat % 256
end Sys2Proof

def Obligations.SixtyFourBit : Prop :=
  ∀ (q : PReg) (d a : GReg) (b : Src) (i off : BitVec 16) (sx : Bool) (sh : BitVec 3) (n : Sh64Arg),
    RegWordDoes (.addI64 q d a b) (to2 d fun t y => dwordOf ((t.gr64 a).toNat + (bval64 y t b).toNat))
    ∧ RegWordDoes (.subI64 q d a b) (to2 d fun t y => dwordOf ((t.gr64 a).toNat - (bval64 y t b).toNat))
    ∧ RegWordDoes (.addiI64 q d a i) (to2 d fun t _ => dwordOf ((t.gr64 a).toNat + i.toInt))
    ∧ RegWordDoes (.lea q sx sh d a b off) (to2 d fun t y =>
        dwordOf ((t.gr64 a).toNat + (if sx then si (bval y t b) else zi (bval y t b)) * 2 ^ sh.toNat + off.toInt))
    ∧ RegWordDoes (.shlI64 q d a n) (to2 d fun t y => if count64 y t n ≥ 64 then 0 else dwordOf ((t.gr64 a).toNat * 2 ^ count64 y t n))
    ∧ RegWordDoes (.shrI64 q d a n) (to2 d fun t y => if count64 y t n ≥ 64 then 0 else dwordOf ((t.gr64 a).toNat / 2 ^ count64 y t n))
    ∧ RegWordDoes (.sarI64 q d a n) (to2 d fun t y => dwordOf ((t.gr64 a).toInt / 2 ^ min (count64 y t n) 63))
    ∧ RegWordDoes (.minN64 q d a b) (to2 d fun t y => if (t.gr64 a).toNat ≤ (bval64 y t b).toNat then t.gr64 a else bval64 y t b)
    ∧ RegWordDoes (.maxN64 q d a b) (to2 d fun t y => if (t.gr64 a).toNat ≥ (bval64 y t b).toNat then t.gr64 a else bval64 y t b)

namespace Sys2Proof
open Machine

/-- What a uniform yoke word does (R24, R241): each team with a thread of true guard has its yoke registers rewritten once, from its first
such thread; `f` gives the registers that change. -/
def YokeWordDoes (i : Instr) (f : Thread → Sparse 32 → YReg → Option Word) : Prop :=
  ∀ s c rest, AtWord s c rest i →
    ∃ t, exec i s = .next t
      ∧ t = { s with threads := t.threads, teams := t.teams, strings := t.strings, cycle := s.cycle + 1 }
      ∧ (∀ id th m, (s.actors (guardOf i) c).find? (sameTeam id) = some id → s.thread? id = some th → s.teamOf id = some m →
          ∃ m', t.teamOf id = some m' ∧ m' = { m with y := m'.y, ybad := m'.ybad } ∧ ∀ r : YReg, rd m'.y r.toNat = (f th m.y r).getD (rd m.y r.toNat))
      ∧ (∀ id, (s.actors (guardOf i) c).any (sameTeam id) = false → t.teamOf id = s.teamOf id)
      ∧ (∀ id th, s.thread? id = some th → ∃ th', t.thread? id = some th'
          ∧ (id ∈ c.members → th.ready = true → th' = th.pass (wordLen i)) ∧ (id ∉ c.members → th' = th))
/-- Values of 32 or 64 bits written to a yoke register or an even pair. -/
def yput (w : Bool) (d : YReg) (v : DWord) (r : YReg) : Option Word :=
  if r = d then some (v.setWidth 32) else if w = true ∧ r = d + 1 then some ((v >>> 32).setWidth 32) else none
def ywide (w : Bool) (y : Sparse 32) (r : YReg) : DWord := if w then rd y (r.toNat + 1) ++ rd y r.toNat else (rd y r.toNat).setWidth 64
def ysrc (w : Bool) (y : Sparse 32) (t : Thread) (b : Src) : DWord := if w then bval64 y t b else (bval y t b).setWidth 64
end Sys2Proof

/-- R241: the yoke words. With W the registers are even, so that a pair does not leave the file. -/
def Obligations.YokeWords : Prop :=
  ∀ (q : PReg) (w : Bool) (d a : YReg) (b : Src) (i : BitVec 16), (w = true → d.toNat % 2 = 0) →
    YokeWordDoes (.ymov q w d b) (fun t y => yput w d (ysrc w y t b))
    ∧ YokeWordDoes (.ymovl q d i) (fun _ _ => yput false d (i.setWidth 64))
    ∧ YokeWordDoes (.ymovh q d i) (fun _ y => yput false d ((i ++ (rd y d.toNat).setWidth 16).setWidth 64))
    ∧ YokeWordDoes (.yadd q w d a b) (fun t y => yput w d (ywide w y a + ysrc w y t b))
    ∧ YokeWordDoes (.yaddi q w d a i) (fun _ y => yput w d (ywide w y a + i.signExtend 64))

/-! ## Floating point and conversions (files 07 and 11) -/

namespace Sys2Proof
open Machine

/-- The rational value of a number m 2^e with a sign, of an encoding, and of an exact intermediate. -/
def dyadic (s : Bool) (m : Nat) (e : Int) : ℚ := (if s then -1 else 1) * (m : ℚ) * 2 ^ e
def valueOf (f : FFmt) (x : Nat) : Option ℚ := match f.val x with | .fin s m e => some (dyadic s m e) | _ => none
def Exactly (x : Exact) (v : ℚ) : Prop := x.sticky = false ∧ dyadic x.s x.m x.e = v
/-- An intermediate of at least n bits whose sticky bit tells whether the value of its magnitude goes on below them; `sq` compares
squares, for a square root. -/
def Leads (x : Exact) (n : Nat) (le : ℚ → Prop) (eq : ℚ → Prop) : Prop :=
  2 ^ n ≤ x.m ∧ le (dyadic false x.m x.e) ∧ ¬ le (dyadic false (x.m + 1) x.e) ∧ (x.sticky = false ↔ eq (dyadic false x.m x.e))

/-- Results with an operand that is a NaN (R252): the first such operand with the top bit of its fraction set, NV where one signals or the
operation is invalid besides; and the result of an invalid operation on numbers. -/
def quieted (f : FFmt) (ops : List Nat) (invalid : Bool) : FR :=
  { bits := ((ops.filter fun x => (f.val x).isNan).headD 0) ||| 2 ^ (f.m - 1),
    fl := if invalid = true ∨ (∃ x ∈ ops, (f.val x).isSig = true) then flNV else 0 }
def invalidResult (f : FFmt) : FR := { bits := f.nan, fl := flNV }
def infinite (f : FFmt) (s : Bool) : FR := { bits := infOf f s, fl := 0 }
/-- 0 times infinity. -/
def zeroByInf (x y : FV) : Bool := (x.isZero && y.isInf) || (x.isInf && y.isZero)

/-- R253, R254: on numbers, the exact value rounded once, an exact zero with the sign of R254; a finite number over zero sets DZ. -/
def arithmeticOnNumbers : Prop :=
  ∀ (f : FFmt) (rm : Rm) (a b c : Nat) (u v z : ℚ), valueOf f a = some u → valueOf f b = some v → valueOf f c = some z →
    (∃ x, Exactly x (u + v) ∧ fpAdd f rm a b = roundTo f rm x
      ∧ (u + v = 0 → x.s = if (f.val a).sign = (f.val b).sign then (f.val a).sign else (rm == .rd)))
    ∧ (∃ x, Exactly x (u - v) ∧ fpSub f rm a b = roundTo f rm x
      ∧ (u - v = 0 → x.s = if (f.val a).sign = (f.val b).sign then (rm == .rd) else (f.val a).sign))
    ∧ (∃ x, Exactly x (u * v) ∧ fpMul f rm a b = roundTo f rm x ∧ x.s = ((f.val a).sign != (f.val b).sign))
    ∧ (∃ x, Exactly x (u * v + z) ∧ fpFma f rm a b c = roundTo f rm x
      ∧ (u * v + z = 0 → x.s =
          if ((f.val a).sign != (f.val b).sign) = (f.val c).sign then (f.val c).sign else (rm == .rd)))
    ∧ (u ≠ 0 → v ≠ 0 → ∃ x, x.s = ((f.val a).sign != (f.val b).sign) ∧ Leads x (f.m + 3) (· ≤ |u / v|) (· = |u / v|)
        ∧ fpDiv f rm a b = roundTo f rm x)
    ∧ (u = 0 → v ≠ 0 → (fpDiv f rm a b).bits = f.sbit ((f.val a).sign != (f.val b).sign) ∧ (fpDiv f rm a b).fl = 0)
    ∧ (u ≠ 0 → v = 0 → fpDiv f rm a b = { bits := infOf f ((f.val a).sign != (f.val b).sign), fl := flDZ })
    ∧ (u = 0 → v = 0 → fpDiv f rm a b = invalidResult f)
    ∧ (0 < u → ∃ x, x.s = false ∧ Leads x (f.m + 3) (fun r => r ^ 2 ≤ u) (fun r => r ^ 2 = u) ∧ fpSqrt f rm a = roundTo f rm x)
    ∧ (u = 0 → fpSqrt f rm a = { bits := a, fl := 0 })
    ∧ (u < 0 → fpSqrt f rm a = invalidResult f)

/-- R252, R254, R255: with NaNs and infinities. -/
def arithmeticOnTheRest : Prop :=
  ∀ (f : FFmt) (rm : Rm) (a b c : Nat),
    (∀ op ∈ [fpAdd, fpSub, fpMul, fpDiv], ((f.val a).isNan = true ∨ (f.val b).isNan = true) → op f rm a b = quieted f [a, b] false)
    ∧ (((f.val a).isNan = true ∨ (f.val b).isNan = true ∨ (f.val c).isNan = true) →
        fpFma f rm a b c = quieted f [a, b, c] (zeroByInf (f.val a) (f.val b)))
    ∧ ((f.val a).isNan = true → fpSqrt f rm a = quieted f [a] false)
    ∧ (∀ s, f.val a = .inf s →
        fpSqrt f rm a = (if s then invalidResult f else { bits := a, fl := 0 })
        ∧ (∀ s', f.val b = .inf s' →
            fpAdd f rm a b = (if s = s' then infinite f s else invalidResult f)
            ∧ fpSub f rm a b = (if s = s' then invalidResult f else infinite f s)
            ∧ fpMul f rm a b = infinite f (s != s') ∧ fpDiv f rm a b = invalidResult f)
        ∧ (∀ s' m e, f.val b = .fin s' m e →
            fpAdd f rm a b = infinite f s ∧ fpSub f rm a b = infinite f s
            ∧ fpMul f rm a b = (if m = 0 then invalidResult f else infinite f (s != s'))
            ∧ fpDiv f rm a b = infinite f (s != s')
            ∧ fpAdd f rm b a = infinite f s ∧ fpSub f rm b a = infinite f (!s)
            ∧ fpMul f rm b a = (if m = 0 then invalidResult f else infinite f (s != s'))
            ∧ fpDiv f rm b a = { bits := f.sbit (s != s'), fl := 0 }))
    ∧ ((f.val a).isNan = false → (f.val b).isNan = false → (f.val c).isNan = false →
        (zeroByInf (f.val a) (f.val b) = true → fpFma f rm a b c = invalidResult f)
        ∧ (zeroByInf (f.val a) (f.val b) = false → ((f.val a).isInf = true ∨ (f.val b).isInf = true) →
            fpFma f rm a b c = (if (f.val c).isInf = true ∧ (f.val c).sign ≠ ((f.val a).sign != (f.val b).sign) then invalidResult f
              else infinite f ((f.val a).sign != (f.val b).sign)))
        ∧ ((f.val a).isInf = false → (f.val b).isInf = false → ∀ s, f.val c = .inf s → fpFma f rm a b c = infinite f s))

/-- Words of arithmetic (Table 11.3): the operation on the registers of each thread, halves apart in the packed types. -/
def arithmeticWords : Prop :=
  ∀ (q : PReg) (t : FpTy) (w : Bool) (rm : Rm) (d a c : GReg) (b : Src),
    RegWordDoes (.fadd q t rm d a b) (fun _ => fp2 t d a b (fpAdd · rm))
    ∧ RegWordDoes (.fsub q t rm d a b) (fun _ => fp2 t d a b (fpSub · rm))
    ∧ RegWordDoes (.fmul q t rm d a b) (fun _ => fp2 t d a b (fpMul · rm))
    ∧ RegWordDoes (.fma q t rm d a b c) (fun _ => fp3 t d a b c (fpFma · rm))
    ∧ RegWordDoes (.fdiv q w rm d a b) (fun _ => fp2 (fpOf w) d a b (fpDiv · rm))
    ∧ RegWordDoes (.fsqrt q w rm d a) (fun _ t _ => fp1 (fpOf w) d a (fpSqrt · rm) t)

end Sys2Proof

/-- R252 to R255: sums, differences, products, fused products, quotients and roots of numbers are the exact value, rounded once; NaNs,
invalid operations, infinities and divisions by zero give the results and flags of R252, R254 and R255; each word completes with them. -/
def Obligations.FloatArithmetic : Prop := arithmeticWords ∧ arithmeticOnNumbers ∧ arithmeticOnTheRest

namespace Sys2Proof
open Machine

/-- The floating-point formats of Tables 7.2 and 7.3. -/
def floatFormats : List FFmt := [f64, f32, f16, bf16, e4m3, e5m2, e3m2, e2m3, e2m1]
end Sys2Proof

/-- R170, R171: rounding of an exact value other than 0. The result has its sign, and is the nearest number, ties to the even encoding, or the
nearest one in the direction of the mode; a magnitude beyond the format overflows to infinity or to the largest number; NX tells whether
the value changed, UF whether it was below the normal range as well. -/
def Obligations.RoundingIsCorrect : Prop :=
  ∀ f ∈ floatFormats, ∀ (rm : Rm) (x : Exact) (v : ℚ), Exactly x v → v ≠ 0 →
    ((roundTo f rm x).bits < 2 ^ f.w ∧ ((roundTo f rm x).bits / 2 ^ (f.w - 1) = 1 ↔ x.s = true))
    ∧ ((roundTo f rm x).fl &&& flOF = 0 →
        ∃ u, valueOf f (roundTo f rm x).bits = some u
          ∧ (roundTo f rm x).fl = (if u = v then 0 else if |v| < 2 ^ f.emin then flNX ||| flUF else flNX)
          ∧ ∀ z w, valueOf f z = some w → match rm with
            | .rz => |u| ≤ |v| ∧ (|w| ≤ |v| → |w| ≤ |u|)
            | .ru => v ≤ u ∧ (v ≤ w → u ≤ w)
            | .rd => u ≤ v ∧ (w ≤ v → w ≤ u)
            | .rne => |u - v| ≤ |w - v| ∧ (|u - v| = |w - v| → w ≠ u → (roundTo f rm x).bits % 2 = 0))
    ∧ ((roundTo f rm x).fl &&& flOF ≠ 0 →
        (roundTo f rm x).fl = flOF ||| flNX
          ∧ (∀ z w, valueOf f z = some w → |w| < |v|)
          ∧ (roundTo f rm x).bits % 2 ^ (f.w - 1) =
              if f.hasInf = true ∧ (rm = .rne ∨ (rm = .ru ∧ x.s = false) ∨ (rm = .rd ∧ x.s = true)) then f.infP else f.top)

/-- R256, R257, R261, R262: sign operations on the bits, minimum and maximum with NaNs and signed zeros, compares and classes. -/
def Obligations.FloatComparesAndSigns : Prop :=
  (∀ (q p : PReg) (w : Bool) (t : FpTy) (d a : GReg) (b : Src) (cond : FCond),
    RegWordDoes (.fabs q .f32 d a) (to1 d fun t _ => t.gr a &&& 0x7fffffff)
    ∧ RegWordDoes (.fabs q .f16 d a) (to1 d fun t _ => t.gr a &&& 0x7fff7fff)
    ∧ RegWordDoes (.fabs q .bf16 d a) (to1 d fun t _ => t.gr a &&& 0x7fff7fff)
    ∧ RegWordDoes (.fabs q .f64 d a) (to2 d fun t _ => t.gr64 a &&& 0x7fffffffffffffff)
    ∧ RegWordDoes (.fneg q .f32 d a) (to1 d fun t _ => t.gr a ^^^ 0x80000000)
    ∧ RegWordDoes (.fneg q .f16 d a) (to1 d fun t _ => t.gr a ^^^ 0x80008000)
    ∧ RegWordDoes (.fneg q .bf16 d a) (to1 d fun t _ => t.gr a ^^^ 0x80008000)
    ∧ RegWordDoes (.fneg q .f64 d a) (to2 d fun t _ => t.gr64 a ^^^ 0x8000000000000000)
    ∧ RegWordDoes (.fcopysign q false d a b) (to1 d fun t y => (t.gr a &&& 0x7fffffff) ||| (bval y t b &&& 0x80000000))
    ∧ RegWordDoes (.fcopysign q true d a b) (to2 d fun t y => (t.gr64 a &&& 0x7fffffffffffffff) ||| (bval64 y t b &&& 0x8000000000000000))
    ∧ RegWordDoes (.fmin q t d a b) (fun _ => fp2 t d a b (fpMinMax · false))
    ∧ RegWordDoes (.fmax q t d a b) (fun _ => fp2 t d a b (fpMinMax · true))
    ∧ RegWordDoes (.fsetp q w cond p a b) (fun _ t y =>
        { p := [(p, (if w then fpCond f64 cond (t.gr64 a).toNat (bval64 y t b).toNat else fpCond f32 cond (t.gr a).toNat (bval y t b).toNat).1)],
          fl := (if w then fpCond f64 cond (t.gr64 a).toNat (bval64 y t b).toNat else fpCond f32 cond (t.gr a).toNat (bval y t b).toNat).2 })
    ∧ RegWordDoes (.fclass q w d a) (to1 d fun t _ => if w then fpClass f64 (t.gr64 a).toNat else fpClass f32 (t.gr a).toNat))
  ∧ (∀ (f : FFmt) (a b : Nat) (u v : ℚ), valueOf f a = some u → valueOf f b = some v →
      fpMinMax f false a b = { bits := if u < v ∨ (u = v ∧ ¬((f.val a).sign = false ∧ (f.val b).sign = true ∧ u = 0)) then a else b, fl := 0 }
      ∧ fpMinMax f true a b = { bits := if v < u ∨ (u = v ∧ ¬((f.val a).sign = true ∧ (f.val b).sign = false ∧ u = 0)) then a else b, fl := 0 }
      ∧ ((fpCond f .eq a b).1 = true ↔ u = v) ∧ ((fpCond f .ne a b).1 = true ↔ u ≠ v) ∧ ((fpCond f .lt a b).1 = true ↔ u < v)
      ∧ ((fpCond f .le a b).1 = true ↔ u ≤ v) ∧ ((fpCond f .gt a b).1 = true ↔ v < u) ∧ ((fpCond f .ge a b).1 = true ↔ v ≤ u)
      ∧ (fpCond f .num a b).1 = true ∧ (fpCond f .nan a b).1 = false ∧ ∀ cond, (fpCond f cond a b).2 = 0)
  ∧ (∀ (f : FFmt) (a b : Nat), (f.val a).isNan = true →
      ((f.val b).isNan = false → (fpMinMax f false a b).bits = b ∧ (fpMinMax f true a b).bits = b)
      ∧ ((f.val b).isNan = true → (fpMinMax f false a b).bits = f.nan ∧ (fpMinMax f true a b).bits = f.nan)
      ∧ (∀ cond, (fpCond f cond a b).1 = decide (cond = .ne ∨ cond = .nan))
      ∧ (∀ cond, (fpCond f cond a b).2 =
          if (cond = .lt ∨ cond = .le ∨ cond = .gt ∨ cond = .ge) ∨ (f.val a).isSig = true ∨ (f.val b).isSig = true then flNV else 0))
  ∧ (∀ (f : FFmt) (a : Nat),
      (∀ s sig x, f.val a = .nan s sig x → fpClass f a = if sig then 1 else 2)
      ∧ (∀ s, f.val a = .inf s → fpClass f a = if s then 4 else 512)
      ∧ (∀ s m e, f.val a = .fin s m e → fpClass f a =
          if m = 0 then (if s then 32 else 64) else if m < 2 ^ f.m ∧ e = f.emin - f.m then (if s then 16 else 128) else (if s then 8 else 256)))

namespace Sys2Proof
open Machine

/-- The words of the approximate functions, and `frcp`, complete with what their function gives for each thread. -/
def approximateWords : Prop :=
  ∀ (q : PReg) (w : Bool) (d a : GReg),
    RegWordDoes (.frcp q w d a) (fun _ t _ => fp1 (fpOf w) d a frcpP t)
    ∧ RegWordDoes (.frsq q w d a) (fun _ t _ => fp1 (fpOf w) d a (frsqP (if w then 5 else 0)) t)
    ∧ RegWordDoes (.fex2 q d a) (fun _ t _ => fp1 .f32 d a fex2P t)
    ∧ RegWordDoes (.flg2 q d a) (fun _ t _ => fp1 .f32 d a flg2P t)
    ∧ RegWordDoes (.fsin q d a) (fun _ t _ => fp1 .f32 d a fsinP t)
    ∧ RegWordDoes (.fcos q d a) (fun _ t _ => fp1 .f32 d a fcosP t)
/-- The column "exact and special results" of Table 11.4, and the NaNs and invalid operands of R252 and R255. -/
def exactAndSpecial : Prop :=
  (∀ (f : FFmt) (op a : Nat),
    ((f.val a).isNan = true → frcpP f a = quieted f [a] false ∧ frsqP op f a = quieted f [a] false)
    ∧ ((f.val a).isNan = false → frcpP f a = fpDiv f .rne (onePat f) a)
    ∧ (∀ s, f.val a = .inf s → frsqP op f a = if s then invalidResult f else { bits := 0, fl := 0 })
    ∧ (∀ s m e, f.val a = .fin s m e →
      (m = 0 → frsqP op f a = { bits := infOf f s, fl := flDZ })
      ∧ (m ≠ 0 → s = true → frsqP op f a = invalidResult f)
      ∧ (∀ k : Int, s = false → dyadic s m e = 4 ^ k → frsqP op f a = roundTo f .rne { s := false, m := 1, e := -k, sticky := false })))
  ∧ (∀ (a : Nat) (s : Bool) (m : Nat) (e : Int), f32.val a = .fin s m e →
      (∀ k : Int, -149 ≤ k → k ≤ 127 → dyadic s m e = k → fex2P f32 a = roundTo f32 .rne { s := false, m := 1, e := k, sticky := false })
      ∧ (128 ≤ dyadic s m e → fex2P f32 a = { bits := infOf f32 false, fl := flOF ||| flNX })
      ∧ (dyadic s m e < -150 → fex2P f32 a = { bits := 0, fl := flUF ||| flNX })
      ∧ (m = 0 → flg2P f32 a = { bits := infOf f32 true, fl := flDZ })
      ∧ (m ≠ 0 → s = true → flg2P f32 a = invalidResult f32)
      ∧ (∀ k : Int, dyadic s m e = 2 ^ k → flg2P f32 a = cvtIF f32 .rne k)
      ∧ (m = 0 → fsinP f32 a = { bits := a, fl := 0 } ∧ fcosP f32 a = { bits := onePat f32, fl := 0 }))
  ∧ (∀ (a : Nat) (s : Bool), f32.val a = .inf s →
      fsinP f32 a = invalidResult f32 ∧ fcosP f32 a = invalidResult f32
      ∧ flg2P f32 a = (if s then invalidResult f32 else { bits := a, fl := 0 })
      ∧ fex2P f32 a = { bits := if s then 0 else infOf f32 false, fl := 0 })
  ∧ (∀ a : Nat, (f32.val a).isNan = true →
      fsinP f32 a = quieted f32 [a] false ∧ fcosP f32 a = quieted f32 [a] false
      ∧ flg2P f32 a = quieted f32 [a] false ∧ fex2P f32 a = quieted f32 [a] false)
end Sys2Proof

/-- R252, R255, R259: `frcp` is a division rounded to nearest; where Table 11.4 gives an exact or special result, or the operand is a NaN or
invalid, the approximate functions give that result. (Elsewhere the table leaves a choice within its bound, a free value, notes/assumptions/3.md;
this statement does not speak of it.) Every one of these words completes with what its function gives. -/
def Obligations.ApproximateFunctions : Prop := approximateWords ∧ exactAndSpecial

namespace Sys2Proof
open Machine

/-- Floor, ceiling and the nearest integer with ties to even, as R258 and R170 take them. -/
def integerOf (rm : Rm) (v : ℚ) : ℤ :=
  match rm with
  | .rd => ⌊v⌋
  | .ru => ⌈v⌉
  | .rz => if v < 0 then ⌈v⌉ else ⌊v⌋
  | .rne => if v - ⌊v⌋ < 1 / 2 ∨ (v - ⌊v⌋ = 1 / 2 ∧ ⌊v⌋ % 2 = 0) then ⌊v⌋ else ⌊v⌋ + 1
/-- R258: rounding to an integral value keeps the format and the sign; only `frint` sets NX. -/
def integralRounding : Prop :=
  (∀ (q : PReg) (w : Bool) (rm : Rm) (d a : GReg),
    RegWordDoes (.ffloor q w d a) (fun _ t _ => fp1 (fpOf w) d a (fpIntegral · .rd false) t)
    ∧ RegWordDoes (.fceil q w d a) (fun _ t _ => fp1 (fpOf w) d a (fpIntegral · .ru false) t)
    ∧ RegWordDoes (.ftrunc q w d a) (fun _ t _ => fp1 (fpOf w) d a (fpIntegral · .rz false) t)
    ∧ RegWordDoes (.frint q w rm d a) (fun _ t _ => fp1 (fpOf w) d a (fpIntegral · rm true) t))
  ∧ (∀ f ∈ [f64, f32], ∀ (rm : Rm) (nx : Bool) (a : Nat) (v : ℚ), a < 2 ^ f.w → valueOf f a = some v →
      valueOf f (fpIntegral f rm nx a).bits = some (integerOf rm v : ℚ)
      ∧ (fpIntegral f rm nx a).bits / 2 ^ (f.w - 1) = a / 2 ^ (f.w - 1)
      ∧ (fpIntegral f rm nx a).fl = if nx = true ∧ v ≠ integerOf rm v then flNX else 0)
  ∧ (∀ (f : FFmt) (rm : Rm) (nx : Bool) (a : Nat),
      (∀ s, f.val a = .inf s → fpIntegral f rm nx a = { bits := a, fl := 0 })
      ∧ ((f.val a).isNan = true → fpIntegral f rm nx a = quieted f [a] false))

/-- Bits of an element's container from the lowest up, and the register with one element replaced (R177): a 6-bit element lies in a byte. -/
def containerOf (f : Fmt) : Nat := if fbits f = 6 then 8 else fbits f
def replaced (f : Fmt) (x : Word) (i v : Nat) : Nat :=
  x.toNat - x.toNat / 2 ^ (containerOf f * i) % 2 ^ containerOf f * 2 ^ (containerOf f * i) + v % 2 ^ fbits f * 2 ^ (containerOf f * i)
/-- R170 to R172: a number, an infinity and a NaN converted from one floating-point format to another. -/
def betweenFloats : Prop :=
  (∀ (f g : FFmt) (rm : Rm) (x : Nat) (v : ℚ), valueOf f x = some v → ∃ y, Exactly y v ∧ cvtFF f g rm x = roundTo g rm y)
  ∧ (∀ f ∈ floatFormats, ∀ (rm : Rm) (x : Nat),
      (∀ s, f.val x = .inf s →
        (∀ g ∈ [f64, f32, f16, bf16, e5m2], cvtFF f g rm x = infinite g s)
        ∧ (∀ g ∈ [e4m3, e3m2, e2m3, e2m1], cvtFF f g rm x = { bits := g.sbit s + g.top, fl := flNV }))
      ∧ (∀ s sig frac, f.val x = .nan s sig frac →
        (∀ g ∈ [f64, f32, f16, bf16], cvtFF f g rm x =
          { bits := g.sbit s + g.infP + (frac * 2 ^ g.m / 2 ^ f.m ||| 2 ^ (g.m - 1)), fl := if sig then flNV else 0 })
        ∧ (∀ g ∈ [e4m3, e5m2], cvtFF f g rm x = { bits := 0x7f, fl := if sig then flNV else 0 })
        ∧ (∀ g ∈ [e3m2, e2m3, e2m1], cvtFF f g rm x = { bits := 0, fl := flNV })))
/-- R173: a float to an integer rounds, saturates with NV, and sets NX where it was inexact in range; a NaN gives 0 with NV. An integer becomes
the exact value, rounded. -/
def withIntegers : Prop :=
  (∀ (f : FFmt) (lo hi : Int) (rm : Rm) (x : Nat), lo ≤ hi →
      ((f.val x).isNan = true → cvtFI f lo hi rm x = (0, flNV))
      ∧ (∀ s, f.val x = .inf s → cvtFI f lo hi rm x = (if s then lo else hi, flNV))
      ∧ (∀ v, valueOf f x = some v → cvtFI f lo hi rm x =
          (max lo (min hi (integerOf rm v)), if integerOf rm v < lo ∨ hi < integerOf rm v then flNV else if v ≠ integerOf rm v then flNX else 0)))
  ∧ (∀ (g : FFmt) (rm : Rm) (n : Int), ∃ y, Exactly y n ∧ cvtIF g rm n = roundTo g rm y)
/-- The source of `cvt`: an integer, or an encoding of a floating-point format; the range or the format of its destination (Table 11.7). -/
def cvtInt (t : Thread) (a : GReg) (sy : CvtTy) : Int := if sy = .i32 then si (t.gr a) else zi (t.gr a)
def cvtFloat : CvtTy → Option FFmt
  | .f64 => some f64 | .f32 => some f32 | .f16 => some f16 | .bf16 => some bf16 | _ => none
def cvtBits (t : Thread) (a : GReg) (f : FFmt) : Nat := if f = f64 then (t.gr64 a).toNat else (t.gr a).toNat % 2 ^ f.w
def cvtLo (dt : CvtTy) : Int := if dt = .i32 then -2 ^ 31 else 0
def cvtHi (dt : CvtTy) : Int := if dt = .i32 then 2 ^ 31 - 1 else 2 ^ 32 - 1
def cvtResult (rm : Rm) (dt sy : CvtTy) (a : GReg) (t : Thread) : FR :=
  match cvtFloat dt, cvtFloat sy with
  | some g, some f => cvtFF f g rm (cvtBits t a f)
  | some g, none => cvtIF g rm (cvtInt t a sy)
  | none, some f =>
    { bits := ((cvtFI f (cvtLo dt) (cvtHi dt) rm (cvtBits t a f)).1 % 2 ^ 32).toNat, fl := (cvtFI f (cvtLo dt) (cvtHi dt) rm (cvtBits t a f)).2 }
  | none, none => { bits := (max (cvtLo dt) (min (cvtHi dt) (cvtInt t a sy)) % 2 ^ 32).toNat, fl := 0 }
/-- R263: `cvt`, between registers. -/
def registerConversion : Prop :=
  ∀ (q : PReg) (rm : Rm) (dt sy : CvtTy) (d a : GReg),
    RegWordDoes (.cvt q rm dt sy d a) (fun _ t _ =>
      { g := if dt = .f64 then [(d, BitVec.ofNat 32 (cvtResult rm dt sy a t).bits), (d + 1, BitVec.ofNat 32 ((cvtResult rm dt sy a t).bits / 2 ^ 32))]
             else [(d, BitVec.ofNat 32 (cvtResult rm dt sy a t).bits)],
        fl := (cvtResult rm dt sy a t).fl })
/-- The conversion of a packed element (R175): between floating-point formats, between one of these and an integer, between integers. -/
def elementConversion : Prop :=
  ∀ (F G : Fmt) (rm : Rm) (x : Nat),
    (∀ f g, ffmt F = some f → ffmt G = some g → convert G F rm x = cvtFF f g rm (x % 2 ^ f.w))
    ∧ (∀ f lo hi, ffmt F = some f → frange G = some (lo, hi) →
        convert G F rm x = { bits := ((cvtFI f lo hi rm (x % 2 ^ f.w)).1 % 2 ^ fbits G).toNat, fl := (cvtFI f lo hi rm (x % 2 ^ f.w)).2 })
    ∧ (∀ r g, frange F = some r → ffmt G = some g → convert G F rm x = cvtIF g rm (intVal F x))
    ∧ (∀ r lo hi, frange F = some r → frange G = some (lo, hi) →
        convert G F rm x = { bits := (max lo (min hi (intVal F x)) % 2 ^ fbits G).toNat, fl := 0 })
    ∧ (∀ g, ffmt G = some g → x % 256 < 255 →
        ∃ y, Exactly y (2 ^ ((x % 256 : Nat) - 127 : Int)) ∧ convert G .e8m0 rm x = roundTo g rm y)
    ∧ (ffmt G = some f32 → x % 256 = 255 → convert G .e8m0 rm x = { bits := 0x7fc00000, fl := 0 })
/-- R264, R265: one element of a packed register is written, or read; every other bit is kept, or ignored. -/
def packedConversion : Prop :=
  ∀ (q : PReg) (rm : Rm) (f : Fmt) (it : Bool) (pos : BitVec 3) (d a : GReg), pos.toNat < f.packed →
    RegWordDoes (.pack q rm it f pos d a) (fun _ t _ =>
        { g := [(d, BitVec.ofNat 32 (replaced f (t.gr d) pos.toNat (convert f (if it then .int32 else .fp32) rm (t.gr a).toNat).bits))],
          fl := (convert f (if it then .int32 else .fp32) rm (t.gr a).toNat).fl })
    ∧ RegWordDoes (.unpack q rm it f pos d a) (fun _ t _ =>
        { g := [(d, BitVec.ofNat 32 (convert (if it then .int32 else .fp32) f rm ((t.gr a).toNat / 2 ^ (containerOf f * pos.toNat) % 2 ^ fbits f)).bits)],
          fl := (convert (if it then .int32 else .fp32) f rm ((t.gr a).toNat / 2 ^ (containerOf f * pos.toNat) % 2 ^ fbits f)).fl })
/-- R269: scaling by the power of two that a byte of gB holds. -/
def scaling : Prop :=
  (∀ (q : PReg) (rm : Rm) (pos : BitVec 3) (d a : GReg) (b : Src),
    RegWordDoes (.fscale q false rm pos d a b) (fun _ t y =>
        { g := [(d, BitVec.ofNat 32 (fscaleP f32 rm (t.gr a).toNat ((bval y t b).toNat / 2 ^ (8 * pos.toNat) % 256)).bits)],
          fl := (fscaleP f32 rm (t.gr a).toNat ((bval y t b).toNat / 2 ^ (8 * pos.toNat) % 256)).fl })
    ∧ RegWordDoes (.fscale q true rm pos d a b) (fun _ t y =>
        let r := fscaleP f64 rm (t.gr64 a).toNat ((bval y t b).toNat / 2 ^ (8 * pos.toNat) % 256)
        { g := [(d, BitVec.ofNat 32 r.bits), (d + 1, BitVec.ofNat 32 (r.bits / 2 ^ 32))], fl := r.fl }))
  ∧ (∀ (f : FFmt) (rm : Rm) (x e : Nat),
      (∀ v, e < 255 → valueOf f x = some v → ∃ y, Exactly y (v * 2 ^ ((e : Int) - 127)) ∧ fscaleP f rm x e = roundTo f rm y)
      ∧ (∀ s, e < 255 → f.val x = .inf s → fscaleP f rm x e = { bits := x, fl := 0 })
      ∧ ((f.val x).isNan = true → fscaleP f rm x e = quieted f [x] false)
      ∧ ((f.val x).isNan = false → e = 255 → fscaleP f rm x e = { bits := f.nan, fl := 0 }))
end Sys2Proof

/-- R172, R173, R175, R258, R263 to R265, R269: conversions, packed elements, scaling, rounding to an integral value. -/
def Obligations.ConversionsAndIntegralRounding : Prop :=
  integralRounding ∧ betweenFloats ∧ withIntegers ∧ registerConversion ∧ elementConversion ∧ packedConversion ∧ scaling

namespace Sys2Proof
open Machine

/-- An element of a packed register. -/
def element (f : Fmt) (x : Word) (i : Nat) : Nat := x.toNat / 2 ^ (fbits f * i) % 2 ^ fbits f
/-- R268, Table 11.8: the integer forms of `dp4` and `dp8` add exact products and wrap. -/
def integerDots : Prop :=
  ∀ (q : PReg) (d a c : GReg) (b : Src),
    (∀ form ∈ [Dp4Form.i8, .n8, .i8n8], RegWordDoes (.dp4 q form d a b c) (to1 d fun t y =>
        wordOf (si (t.gr c) + ((List.range 4).map fun k => intVal (dp4Fmts form).1 (element (dp4Fmts form).1 (t.gr a) k)
          * intVal (dp4Fmts form).2 (element (dp4Fmts form).2 (bval y t b) k)).sum)))
    ∧ (∀ form ∈ [Dp8Form.i4, .n4, .i4n4], RegWordDoes (.dp8 q form d a b c) (to1 d fun t y =>
        wordOf (si (t.gr c) + ((List.range 8).map fun k => intVal (dp8Fmts form).1 (element (dp8Fmts form).1 (t.gr a) k)
          * intVal (dp8Fmts form).2 (element (dp8Fmts form).2 (bval y t b) k)).sum)))
    ∧ (∀ form ∈ [Dp4Form.e4m3, .e5m2], RegWordDoes (.dp4 q form d a b c) (fun _ t y =>
        outF d (dotVal 4 (dp4Fmts form).1 (dp4Fmts form).2 (t.gr a) (bval y t b) (t.gr c))))
    ∧ RegWordDoes (.dp8 q .e2m1 d a b c) (fun _ t y => outF d (dotVal 8 .e2m1 .e2m1 (t.gr a) (bval y t b) (t.gr c)))
/-- An infinite product of two elements, of a sign. -/
def infiniteProduct (x y : FV) (s : Bool) : Prop := (x.isInf = true ∨ y.isInf = true) ∧ x.isZero = false ∧ y.isZero = false ∧ (x.sign != y.sign) = s
/-- R149, R268: the floating-point forms round the exact sum once; NaNs and infinities among the operands. -/
def floatDots : Prop :=
  ∀ (f : FFmt) (F : Fmt) (n : Nat) (x y z : Word), ffmt F = some f → (F = .e4m3 ∨ F = .e5m2 ∨ F = .e2m1) →
    let a (k : Nat) := f.val (element F x k)
    let b (k : Nat) := f.val (element F y k)
    let c := f32.val z.toNat
    (∀ (g h : Nat → ℚ) (v : ℚ), (∀ k < n, valueOf f (element F x k) = some (g k) ∧ valueOf f (element F y k) = some (h k)) →
        valueOf f32 z.toNat = some v →
          ∃ e, Exactly e (v + ((List.range n).map fun k => g k * h k).sum) ∧ dotVal n F F x y z = roundTo f32 .rne e)
    ∧ ((c.isNan = true ∨ ∃ k < n, (a k).isNan = true ∨ (b k).isNan = true) → dotVal n F F x y z = { bits := 0x7fc00000, fl := 0 })
    ∧ (c.isNan = false → (∀ k < n, (a k).isNan = false ∧ (b k).isNan = false) →
        (((∃ k < n, zeroByInf (a k) (b k) = true)
            ∨ ((∃ k < n, infiniteProduct (a k) (b k) false) ∧ ∃ k < n, infiniteProduct (a k) (b k) true)
            ∨ (c.isInf = true ∧ ∃ k < n, infiniteProduct (a k) (b k) (!c.sign))) →
          dotVal n F F x y z = { bits := 0x7fc00000, fl := flNV })
        ∧ ((∀ k < n, zeroByInf (a k) (b k) = false) → ∀ s, (∀ k < n, ¬ infiniteProduct (a k) (b k) (!s)) → c ≠ .inf (!s) →
            (c = .inf s ∨ ∃ k < n, infiniteProduct (a k) (b k) s) → dotVal n F F x y z = infinite f32 s))
end Sys2Proof

/-- R149, R268: dp4 and dp8. -/
def Obligations.DotProducts : Prop := integerDots ∧ floatDots

namespace Sys2Proof
open Machine

/-- What one step of a pipe's generator makes of its value (R178). -/
def advanceGen (g : Word) : Word := if g.toNat % 2 = 1 then BitVec.ofNat 32 (g.toNat / 2) ^^^ 0x80200003 else BitVec.ofNat 32 (g.toNat / 2)
/-- The generator's value in cycle j of a string: it has advanced once for each earlier cycle that carries a thread other than a wheeler. -/
def genIn (s : State) (c : Str) (j : Nat) : Word :=
  advanceGen^[((List.range j).filter fun k => c.members.any fun id => decide (id.tid % 128 / 16 = k) && !s.isWheel id).length]
    (s.gen (4 * c.core + c.picker))
/-- A thread whose element `pos` of gD has been replaced by a conversion with a word. -/
def converted (dt : Fmt) (g : FFmt) (pos : BitVec 3) (d a : GReg) (w : Word) (th th' : Thread) : Prop :=
  (∀ k, th'.gr k = if k = d then BitVec.ofNat 32 (replaced dt (th.gr d) pos.toNat (convertSr g w (th.gr a).toNat).bits) else th.gr k)
    ∧ th'.pc = th.pc + 8 ∧ th'.p = th.p
/-- R178 to R180, R266: `cvt.sr` takes each thread's word from the generator of the pipe, which advances once for each cycle that carries a thread;
a leader's word goes into its load-value queue, from which its wheeler takes it, waiting while there is none. -/
def stochasticConversion : Prop :=
  ∀ (q : PReg) (dt : Fmt) (g : FFmt) (pos : BitVec 3) (d a : GReg) (s : State) (c : Str) (rest : List Str), ffmt dt = some g → pos.toNat < dt.packed →
    AtWord s c rest (.cvtSr q dt pos d a) → s.inj.getLsbD 0 = false → c.members.Nodup → (∀ id ∈ s.actors q c, s.lvFull id = false) →
      ∃ t, exec (.cvtSr q dt pos d a) s = .next t ∧ t.mem = s.mem ∧ t.cycle = s.cycle + 1
        ∧ ((∀ id ∈ c.members, s.isRed id.blk = false) →
            t = { s with threads := t.threads, teams := t.teams, strings := t.strings, sr := t.sr, freeCtr := t.freeCtr, cycle := s.cycle + 1 })
        ∧ t.gen (4 * c.core + c.picker) = genIn s c 8
        ∧ ∀ id th, s.thread? id = some th → ∃ th', t.thread? id = some th'
            ∧ (id ∈ s.actors q c → s.isWheel id = false →
                converted dt g pos d a ((genIn s c (id.tid % 128 / 16)).rotateLeft (2 * (id.tid % 16))) th th')
            ∧ (s.actors q c = [id] → s.isWheel id = true → ∀ w ws, s.lvPeek id = some (w :: ws) → converted dt g pos d a w th th')
            ∧ (s.actors q c = [id] → s.isWheel id = true → s.lvPeek id = none →
                th'.status = .waiting .loadValue ∧ th'.pc = th.pc ∧ th'.g = th.g)
            ∧ (id ∉ c.members → th' = th)
/-- R178, R267: `srseed` sets the generator of the pipe from the lowest-numbered acting thread, 0 as 1; with no acting thread but wheelers nothing
happens to it. -/
def generatorSeed : Prop :=
  ∀ (q : PReg) (b : Src) (s : State) (c : Str) (rest : List Str), AtWord s c rest (.srseed q b) →
    ∃ t, exec (.srseed q b) s = .next t
      ∧ t = { s with threads := t.threads, strings := t.strings, sr := t.sr, cycle := s.cycle + 1 }
      ∧ (∀ pipe, pipe ≠ 4 * c.core + c.picker → t.gen pipe = s.gen pipe)
      ∧ (∀ id th, id ∈ s.actors q c → s.isWheel id = false → (∀ k ∈ s.actors q c, s.isWheel k = false → k ≠ id → id.tid < k.tid) →
          s.thread? id = some th → t.gen (4 * c.core + c.picker) = (if bval (s.yOf id) th b = 0 then 1 else bval (s.yOf id) th b))
      ∧ ((∀ id ∈ s.actors q c, s.isWheel id = true) → t.sr = s.sr)
      ∧ (∀ id th, s.thread? id = some th → ∃ th', t.thread? id = some th'
          ∧ (id ∈ c.members → th.ready = true → th' = th.pass (wordLen (.srseed q b))) ∧ (id ∉ c.members → th' = th))
/-- R179: the neighbour of larger magnitude with the probability of the fraction. -/
def stochasticRound : Prop :=
  ∀ (g : FFmt) (w : Word) (x y z : Nat) (v lo hi : ℚ), g ∈ floatFormats → valueOf f32 x = some v → valueOf g y = some lo → valueOf g z = some hi →
    0 ≤ lo → lo < |v| → |v| < hi → (∀ k u, valueOf g k = some u → ¬ (lo < u ∧ u < hi)) →
      valueOf g (convertSr g w x).bits =
        some ((if v < 0 then -1 else 1) * (if (w.toNat : ℤ) < ⌊(|v| - lo) / (hi - lo) * 2 ^ 32⌋ then hi else lo))
end Sys2Proof

/-- R178 to R180, R266, R267: the words of stochastic rounding, and what a conversion makes of its random word. -/
def Obligations.StochasticRounding : Prop := stochasticConversion ∧ generatorSeed ∧ stochasticRound

/-! ## Terminators (R223, R224, R244 to R249) -/

namespace Sys2Proof
open Machine

/-- A text offset at which a clause may begin: aligned and within the text (R224, R245). -/
def InText (s : State) (c : Str) (a : Word) : Prop := a.toNat % 4 = 0 ∧ a.toNat < s.textSize c.part c.obj
/-- The header of the clause whose terminator a string has reached, and the address behind the clause: a terminator is the clause's last word. -/
def clauseStart (c : Str) : Word := c.pc - 4 * (c.hdr &&& 15)
def clauseEnd (c : Str) : Word := c.pc + 4
/-- An offset in words, as bytes. -/
def wordsAhead {n : Nat} (off : BitVec n) : Word := BitVec.ofInt 32 (4 * off.toInt)
/-- A thread at the beginning of the clause at a text offset. -/
def AtClause (th th' : Thread) (a : Word) (cyc : Nat) : Prop :=
  th' = { th with pc := a, hdr := none, wlen := 0, lastIssue := cyc, ras := th'.ras, done := th'.done, granted := false }

/-- What a branch does: each thread of true guard takes its target, the others of the string fall through, and the string dissolves. -/
def Branches (i : Instr) (target : Str → Thread → Word) : Prop :=
  ∀ s c rest, AtWord s c rest i →
    (∀ id ∈ c.members, ∀ th, s.thread? id = some th → th.ready = true → InText s c (if th.pr (guardOf i) then target c th else clauseEnd c)) →
      ∃ t, exec i s = .next t ∧ t = { s with threads := t.threads, strings := rest, cycle := s.cycle + 1 }
        ∧ ∀ id th, s.thread? id = some th → ∃ th', t.thread? id = some th'
            ∧ (id ∈ c.members → th.ready = true →
                AtClause th th' (if th.pr (guardOf i) then target c th else clauseEnd c) s.cycle ∧ th'.ras = th.ras)
            ∧ (id ∉ c.members → th' = th)
/-- R224, R244: fall through, jump, branch on a predicate, branch to a register. -/
def branchesAndJumps : Prop :=
  ∀ (q p : PReg) (neg : Bool) (off : BitVec 22) (off18 : BitVec 18) (a : GReg),
    Branches (.next q) (fun c _ => clauseEnd c)
    ∧ Branches (.jmp q off) (fun c _ => clauseStart c + wordsAhead off)
    ∧ Branches (.br q neg p off18) (fun c th => if th.pr p = !neg then clauseStart c + wordsAhead off18 else clauseEnd c)
    ∧ Branches (.brx q a) (fun _ th => th.gr a)

/-- R224, R245: a register target that is not aligned takes ALIGN, and one beyond the text XLATE, at the terminator, behind which there is no word. -/
def badTargetTraps : Prop :=
  ∀ (q : PReg) (a : GReg) (s : State) (c : Str) (rest : List Str) (id : ThreadId) (th : Thread), AtWord s c rest (.brx q a) → id ∈ s.actors q c →
    s.thread? id = some th → s.isRed id.blk = false → ¬ InText s c (th.gr a) →
      ∃ t th', exec (.brx q a) s = .next t ∧ t.thread? id = some th'
        ∧ th'.status = .parked { cause := if (th.gr a).toNat % 4 ≠ 0 then .align else .xlate, addr := 0, sub := 0, word := false }
        ∧ th'.pc = th.pc ∧ th'.ras = th.ras ∧ Ev.blockSave id.blk ∈ t.agenda ∧ t.mem = s.mem
end Sys2Proof

/-- R224, R244, R245: branches, and the targets that trap. -/
def Obligations.BranchesAndTargets : Prop := branchesAndJumps ∧ badTargetTraps

namespace Sys2Proof
open Machine

/-- R224, R246: `call` and `callx` complete, each thread of true guard with fewer than eight entries held goes to its target with the address
behind the clause pushed; the others of the string fall through. -/
def callsComplete : Prop :=
  ∀ (q : PReg) (off : BitVec 22) (a : GReg) (s : State) (c : Str) (rest : List Str) (i : Instr) (target : Thread → Word),
    ((i = .call q off ∧ target = fun _ => clauseStart c + wordsAhead off) ∨ (i = .callx q a ∧ target = fun th => th.gr a)) →
    AtWord s c rest i → c.members.Nodup → InText s c (clauseEnd c) →
    (∀ id ∈ s.actors q c, ∀ th, s.thread? id = some th → th.ras.dp < 8 ∧ InText s c (target th)) →
      ∃ t, exec i s = .next t ∧ t = { s with threads := t.threads, strings := rest, cycle := s.cycle + 1 }
        ∧ ∀ id th, s.thread? id = some th → ∃ th', t.thread? id = some th'
            ∧ (id ∈ s.actors q c → AtClause th th' (target th) s.cycle
                ∧ th'.ras = { dp := th.ras.dp + 1, held := (clauseEnd c :: th.ras.held).take 8 })
            ∧ (id ∈ c.members → id ∉ s.actors q c → th.ready = true → AtClause th th' (clauseEnd c) s.cycle ∧ th'.ras = th.ras)
            ∧ (id ∉ c.members → th' = th)
/-- R224, R246: `ret` completes, each thread of true guard with at most eight entries goes to the newest one, which leaves its stack. -/
def returnsComplete : Prop :=
  ∀ (q : PReg) (s : State) (c : Str) (rest : List Str), AtWord s c rest (.ret q) → c.members.Nodup → InText s c (clauseEnd c) →
    (∀ id ∈ s.actors q c, ∀ th, s.thread? id = some th → th.ras.dp ≤ 8 ∧ ∃ x l, th.ras.held = x :: l ∧ InText s c x) →
      ∃ t, exec (.ret q) s = .next t ∧ t = { s with threads := t.threads, strings := rest, cycle := s.cycle + 1 }
        ∧ ∀ id th, s.thread? id = some th → ∃ th', t.thread? id = some th'
            ∧ (id ∈ s.actors q c → AtClause th th' (th.ras.held.headD 0) s.cycle ∧ th'.ras = { dp := th.ras.dp - 1, held := th.ras.held.tail })
            ∧ (id ∈ c.members → id ∉ s.actors q c → th.ready = true → AtClause th th' (clauseEnd c) s.cycle ∧ th'.ras = th.ras)
            ∧ (id ∉ c.members → th' = th)
/-- R246: depth 272 is full, an empty stack has nothing to return to: STACK at the terminator, and nothing of it is done. -/
def stackTraps : Prop :=
  ∀ (q : PReg) (off : BitVec 22) (a : GReg) (s : State) (c : Str) (rest : List Str) (id : ThreadId) (th : Thread) (i : Instr) (target : Word),
    s.thread? id = some th → id ∈ s.actors q c → s.isRed id.blk = false → AtWord s c rest i →
    ((th.ras.dp = 272 ∧ InText s c target ∧ NoStall s c i spillStall
        ∧ ((i = .call q off ∧ target = clauseStart c + wordsAhead off) ∨ (i = .callx q a ∧ target = th.gr a)))
      ∨ (th.ras.held = [] ∧ i = .ret q ∧ NoStall s c i refillStall)) →
      ∃ t th', exec i s = .next t ∧ t.thread? id = some th' ∧ th'.ras = th.ras ∧ th'.pc = th.pc
        ∧ th'.status = .parked { cause := .stack, addr := 0, sub := 0, word := false }
/-- The private-window address of the n-th spilled entry (R246). -/
def spillAddress (n : Nat) : DWord := 0x0200000000000000 + BitVec.ofNat 64 (4 * n)
/-- R246, R247: with eight entries held, a call of a thread of an ordinary block stores the oldest of them in its private window, and a return
loads the newest of the spilled ones back. (Strings of one thread.) -/
def spillAndRefill : Prop :=
  ∀ (q : PReg) (off : BitVec 22) (s s' : State) (c : Str) (rest : List Str) (id : ThreadId) (th : Thread) (acc : Acc) (pa : Nat) (b : Block),
    s.thread? id = some th → c.members = [id] → id ∈ s.actors q c → id.wheel = false → acc.loc = .mem pa → acc.denied = false →
    s'.thread? id = some th → s'.block? id.blk = some b → b.shape.cont = false → b.shape.red = false →
    (AtWord s c rest (.call q off) → NoStall s c (.call q off) spillStall → 8 ≤ th.ras.dp → th.ras.dp < 272 →
      InText s c (clauseStart c + wordsAhead off) → InText s' c (clauseStart c + wordsAhead off) →
      s.access id (spillAddress (th.ras.dp - 8)) 4 .write = (s', .ok acc) →
        ∃ t th', exec (.call q off) s = .next t ∧ t.thread? id = some th' ∧ AtClause th th' (clauseStart c + wordsAhead off) s'.cycle
          ∧ th'.ras = { dp := th.ras.dp + 1, held := (clauseEnd c :: th.ras.held).take 8 }
          ∧ ∀ k < 4, ∃ x, t.l1Byte b.core (pa + k) = some x ∧ id ∈ x.dirty
              ∧ x.val = BitVec.ofNat 8 (((th.ras.held.getLast?).getD 0).toNat / 256 ^ k))
    ∧ (∀ (x : Word) (l : List Word) (bytes : Nat → L1Byte), AtWord s c rest (.ret q) → NoStall s c (.ret q) refillStall → 9 ≤ th.ras.dp →
      th.ras.held = x :: l → InText s c x → InText s' c x →
      s.access id (spillAddress (th.ras.dp - 9)) 4 .read = (s', .ok acc) → s'.isPoison pa = false → s'.updHeld (s'.coreOf id) pa = false →
      (s'.refillAcc id acc).denied = false →
      (∀ k < 4, s'.ownByte id (pa + k) = none ∧ s'.l1Byte (s'.coreOf id) (pa + k) = some (bytes k)) →
        ∃ t th' w, exec (.ret q) s = .next t ∧ t.thread? id = some th' ∧ AtClause th th' x s'.cycle
          ∧ th'.ras = { dp := th.ras.dp - 1, held := l ++ [w] }
          ∧ ∀ k < 4, w.toNat / 256 ^ k % 256 = (bytes k).val.toNat)
end Sys2Proof

/-- R246, R247: calls and returns: where they complete and what they do to the return-address stack, where they trap, and the part of the stack
that lies in the private window. -/
def Obligations.CallsAndReturns : Prop := callsComplete ∧ returnsComplete ∧ stackTraps ∧ spillAndRefill

/-- R249, R202: a thread that exits ends: it leaves the string, its stack is empty, its status is exited. In a redundant block its exit is signed
first, for which the thread waits at the word. What exits bring about for barriers, hitches and the block follows (`afterExit`): a block whose
threads have all exited begins to retire (R46). -/
def Obligations.Exits : Prop :=
  (∀ (q : PReg) (s : State) (c : Str) (rest : List Str), AtWord s c rest (.exit q) →
    ∃ u, exec (.exit q) s = .next (((c.members.filter fun id => match u.thread? id with | some x => x.status == .exited | none => false).map
        (·.blk)).eraseDups.foldl (fun s b => s.afterExit b) u)
      ∧ u.strings = rest ∧ u.mem = s.mem ∧ u.cycle = s.cycle + 1
      ∧ ∀ id ∈ s.actors q c, ∀ th, s.thread? id = some th →
          ((s.isRed id.blk = false ∨ th.granted = true ∧ c.members.count id = 1) →
            ∃ th', u.thread? id = some th' ∧ th'.status = .exited ∧ th'.hdr = none ∧ th'.ras = { dp := 0, held := [] } ∧ th'.pend = [] ∧ th'.g = th.g)
          ∧ (s.isRed id.blk = true → th.granted = false →
            ∃ th', u.thread? id = some th' ∧ th'.status = .waiting (.signature none) ∧ th'.pc = th.pc ∧ th'.ras = th.ras ∧ th'.g = th.g))
  ∧ ∀ (s s1 : State) (blk : Nat) (b : Block), s1 = ((s.unsignableAll blk false).unsignableAll blk true).barCheckAll blk → s1.isCont blk = false →
      s1.block? blk = some b → b.state = .running → (∀ t ∈ s1.threads, t.id.blk = blk → t.status = .exited) →
        (s.afterExit blk).block? blk = some { b with state := .retiring } ∧ Ev.blockRetire blk ∈ (s.afterExit blk).agenda

/-! ## Hitches, collectives, the matrix array (files 01, 06, 12, 13) -/

namespace Sys2Proof
open Machine

/-- A word that signs a hitch: each thread of true guard signs in ascending order, with the values the word reads in it (R27, R294, R301). -/
def Signs (i : Instr) (h : Reg4) (vals : Sparse 32 → Thread → List Word) (preds : Thread → List Bool) : Prop :=
  ∀ s c rest, AtWord s c rest i → NoStall s c i (signStall i) →
    exec i s = .next (((s.actors (guardOf i) c).foldl (fun s id => signOne i h vals preds c id s) s).advance c rest (wordLen i)).tick
/-- Values that the words read: nothing, a predicate, g-registers, operand B, an address in units of 16 bytes with B and more. -/
def reads0 : Sparse 32 → Thread → List Word := fun _ _ => []
def addrWords (m : MemOp12) (t : Thread) : List Word :=
  let a := (t.gr64 m.base).toNat + 16 * m.off.toInt
  [BitVec.ofInt 32 a, BitVec.ofInt 32 (a / 2 ^ 32)]
end Sys2Proof

/-- R27, R294, R301, R307 to R320: every collective signs its hitch. -/
def Obligations.CollectivesSign : Prop :=
  ∀ (q : PReg) (h k k2 : Reg4) (p p2 : PReg) (d a : GReg) (b : Src) (w5 : BitVec 5) (m : MemOp12) (x : MmaArgs) (f : FactArgs) (tr : TrsmArgs)
    (ct : CellTy) (fm : Fmt) (pm : PmReg) (tt : Bool) (rm : Rm) (n : BitVec 2),
    Signs (.hitchSign q h) h reads0 (fun _ => [])
    ∧ Signs (.pfoldAnd q h p p2) h reads0 (fun t => [t.pr p2]) ∧ Signs (.pfoldOr q h p p2) h reads0 (fun t => [t.pr p2])
    ∧ Signs (.pcount q h d p) h reads0 (fun t => [t.pr p]) ∧ Signs (.prank q h d p) h reads0 (fun t => [t.pr p])
    ∧ Signs (.pbits q h d p w5) h reads0 (fun t => [t.pr p]) ∧ Signs (.agree q h p a) h (fun _ t => [t.gr a]) (fun _ => [])
    ∧ Signs (.cycle q h d a b) h (fun y t => [t.gr a, bval y t b]) (fun _ => [])
    ∧ Signs (.xrank q h d a b) h (fun y t => [t.gr a, bval y t b]) (fun _ => [])
    ∧ Signs (.foldAdd q h d a) h (fun _ t => [t.gr a]) (fun _ => []) ∧ Signs (.scanAdd q h d a) h (fun _ t => [t.gr a]) (fun _ => [])
    ∧ Signs (.foldMinI q h d a) h (fun _ t => [t.gr a]) (fun _ => []) ∧ Signs (.foldMaxI q h d a) h (fun _ t => [t.gr a]) (fun _ => [])
    ∧ Signs (.tld q h k m b) h (fun y t => addrWords m t ++ [bval y t b]) (fun _ => [])
    ∧ Signs (.tst q h k m b) h (fun y t => addrWords m t ++ [bval y t b]) (fun _ => [])
    ∧ Signs (.tmov q h tt rm k k2) h reads0 (fun _ => []) ∧ Signs (.tzero q h k n) h reads0 (fun _ => [])
    ∧ Signs (.mma q x) x.h (fun y t => [bval y t x.f]) (fun _ => []) ∧ Signs (.mmaSp q x) x.h (fun y t => [bval y t x.f]) (fun _ => [])
    ∧ Signs (.mmaSpt q x) x.h (fun y t => [bval y t x.f]) (fun _ => [])
    ∧ Signs (.mfactLu q f) f.h (fun _ t => [t.gr f.o, t.gr (f.o + 1)]) (fun _ => [])
    ∧ Signs (.mfactChol q f) f.h (fun _ t => [t.gr f.o, t.gr (f.o + 1)]) (fun _ => [])
    ∧ Signs (.mfactQr q f) f.h (fun _ t => [t.gr f.o, t.gr (f.o + 1)]) (fun _ => [])
    ∧ Signs (.mtrsm q tr) tr.h (fun _ t => [t.gr tr.o, t.gr (tr.o + 1)]) (fun _ => [])
    ∧ Signs (.accLdTile q h ct k b) h (fun y t => [bval y t b]) (fun _ => [])
    ∧ Signs (.accLdMem q h ct fm d m b) h (fun y t => addrWords m t ++ [bval y t b, t.gr d]) (fun _ => [])
    ∧ Signs (.accStTile q h ct k b) h (fun y t => [bval y t b]) (fun _ => [])
    ∧ Signs (.accStMem q h ct fm d m b) h (fun y t => addrWords m t ++ [bval y t b, t.gr d]) (fun _ => [])
    ∧ Signs (.accSnap q h ct d k b) h (fun y t => [bval y t b]) (fun _ => [])
    ∧ Signs (.accZero q h ct b) h (fun y t => [bval y t b]) (fun _ => [])
    ∧ Signs (.pmLd q h pm m) h (fun _ t => addrWords m t) (fun _ => []) ∧ Signs (.pmSt q h pm m) h (fun _ t => addrWords m t) (fun _ => [])
    ∧ Signs (.pmApply q h ct pm b) h (fun y t => [bval y t b]) (fun _ => [])
    ∧ Signs (.pmApplyInv q h ct pm b) h (fun y t => [bval y t b]) (fun _ => [])

/-- Table 1.1 and R27: a signature. A FREE hitch, or one whose mask leaves the team out, traps; a FIRING one holds it; an ARMED one takes it,
and the thread waits, with TL raised for a matrix collective (R215) and its destinations held (R216). -/
def Obligations.SigningAHitch : Prop :=
  ∀ (i : Instr) (h : Reg4) (vals : Sparse 32 → Thread → List Word) (preds : Thread → List Bool) (c : Str) (id : ThreadId) (s : State) (th : Thread)
    (d : Side) (y : Hitch), s.thread? id = some th → th.ready = true → s.side? id.blk id.wheel = some d → d.hitch.length = 16 → y = d.hi h →
      ((y.st = .free ∨ y.m.getLsbD (id.tid / 128) = false) → s.isRed id.blk = false →
        ∃ th', (signOne i h vals preds c id s).thread? id = some th' ∧ th'.pc = th.pc
          ∧ th'.status = .parked { cause := .hitchMisuse, addr := 0, sub := 0, word := true })
      ∧ (y.st ≠ .free → y.m.getLsbD (id.tid / 128) = true →
          (y.st = .firing ∨ y.signed.length + 1 < y.c
            ∧ y.c ≤ y.signed.length + 1 + ((s.eligible id.blk id.wheel y.m).filter fun k => k ≠ id ∧ ∀ g ∈ y.signed, g.th ≠ k).length) →
        ∃ th' d', (signOne i h vals preds c id s).thread? id = some th' ∧ (signOne i h vals preds c id s).side? id.blk id.wheel = some d'
          ∧ th'.status = .waiting (.hitch h) ∧ th'.g = th.g ∧ th'.tl = th.tl + (if isMat i then 1 else 0) ∧ th'.hold = th.hold ++ collDests i
          ∧ d'.hi h = (if y.st = .firing then { y with held := y.held ++ [{ th := id, ins := i, vals := vals (s.yOf id) th, preds := preds th }] }
              else { y with signed := y.signed ++ [{ th := id, ins := i, vals := vals (s.yOf id) th, preds := preds th }] })
          ∧ (signOne i h vals preds c id s).mem = s.mem)

/-- R293 and Table 1.1: `hitch.decl` arms a hitch for a count from 1 to the threads that may sign, else it frees it and traps; and R308: `tcfg`
writes a tile control register. -/
def Obligations.HitchDeclaration : Prop :=
  (∀ (q : PReg) (h : Reg4) (b : Src) (mask : BitVec 8) (s : State) (c : Str) (rest : List Str), AtWord s c rest (.hitchDecl q h b mask) →
    exec (.hitchDecl q h b mask) s =
      .next (((s.actors q c).foldl (fun s id => declOne h b mask c id s) s).advance c rest (wordLen (.hitchDecl q h b mask))).tick)
  ∧ (∀ (h : Reg4) (b : Src) (mask : BitVec 8) (c : Str) (id : ThreadId) (s : State) (th : Thread) (d : Side) (y : Hitch) (n : Nat),
      s.thread? id = some th → s.side? id.blk id.wheel = some d → d.hitch.length = 16 → y = d.hi h → n = (bval (s.yOf id) th b).toNat % 2048 →
        (y.st ≠ .firing → y.signed = [] → 1 ≤ n → n ≤ (s.eligible id.blk id.wheel mask).length →
          ∃ d', (declOne h b mask c id s).side? id.blk id.wheel = some d' ∧ (d'.hi h).st = .armed ∧ (d'.hi h).c = n ∧ (d'.hi h).m = mask
            ∧ (d'.hi h).signed = [] ∧ (∀ k, k ≠ h → d'.hi k = d.hi k) ∧ (declOne h b mask c id s).threads = s.threads)
        ∧ ((y.st = .firing ∨ y.signed ≠ []) → s.isRed id.blk = false →
          ∃ th', (declOne h b mask c id s).thread? id = some th' ∧ th'.status = .parked { cause := .hitchMisuse, addr := 0, sub := 0, word := true }
            ∧ (declOne h b mask c id s).blocks = s.blocks)
        ∧ (y.st ≠ .firing → y.signed = [] → (n = 0 ∨ (s.eligible id.blk id.wheel mask).length < n) →
            ¬(y.st = .armed ∧ y.c = n ∧ y.m = mask) → s.isRed id.blk = false →
          ∃ th' d', (declOne h b mask c id s).thread? id = some th' ∧ th'.status = .parked { cause := .hitchMisuse, addr := 0, sub := 0, word := true }
            ∧ (declOne h b mask c id s).side? id.blk id.wheel = some d' ∧ (d'.hi h).st = .free)
        ∧ (y.st = .armed → y.signed = [] → y.c = n → y.m = mask → declOne h b mask c id s = s))
  ∧ (∀ (q : PReg) (d : Reg4) (b : Src) (s : State) (c : Str) (rest : List Str), AtWord s c rest (.tcfg q d b) →
      NoStall s c (.tcfg q d b) (fun _ _ t => ctrFull t.tl) →
      ∃ t, exec (.tcfg q d b) s = .next t ∧ t = { s with threads := t.threads, strings := t.strings, blocks := t.blocks, cycle := s.cycle + 1 }
        ∧ ∀ id ∈ s.actors q c, ∀ th blk, s.thread? id = some th → s.block? id.blk = some blk →
            t.thread? id = some (th.pass (wordLen (.tcfg q d b)))
            ∧ ∃ blk' v, t.block? id.blk = some blk' ∧ rd (blk'.side id.wheel).tc d.toNat = v
                ∧ (∃ k ∈ s.actors q c, k.blk = id.blk ∧ k.wheel = id.wheel ∧ ∃ u, s.thread? k = some u ∧ v = bval (s.yOf k) u b)
                ∧ ∀ r, r ≠ d.toNat → rd (blk'.side id.wheel).tc r = rd (blk.side id.wheel).tc r)

/-- What the signer of rank k receives when the signers' values in order of rank are `xs` and their predicates `ps` (Table 12.9). -/
def Obligations.CollectiveResults : Prop :=
  ∀ (q : PReg) (h : Reg4) (p p2 : PReg) (d a : GReg) (b : Src) (w : BitVec 5) (l : List Sign) (k : Nat) (me : Sign) (xs ys : List Word) (ps : List Bool),
    l[k]? = some me → xs = l.map (·.vals.getD 0 0) → ys = l.map (·.vals.getD 1 0) → ps = l.map (·.preds.getD 0 false) →
      (collOut (.pfoldAnd q h p p2) l k).p = [(p, decide (∀ x ∈ ps, x = true))]
      ∧ (collOut (.pfoldOr q h p p2) l k).p = [(p, decide (true ∈ ps))]
      ∧ (collOut (.pcount q h d p) l k).g = [(d, BitVec.ofNat 32 (ps.count true))]
      ∧ (collOut (.prank q h d p) l k).g = [(d, BitVec.ofNat 32 ((ps.take k).count true))]
      ∧ (collOut (.agree q h p a) l k).p = [(p, decide (∀ x ∈ xs, some x = xs[k]?))]
      ∧ (∃ v : Word, (collOut (.pbits q h d p w) l k).g = [(d, v)] ∧ ∀ j < 32, v.getLsbD j = ps.getD (32 * w.toNat + j) false)
      ∧ (collOut (.cycle q h d a b) l k).g = [(d, xs.getD ((k + (ys.getD 0 0).toNat) % l.length) 0)]
      ∧ (∀ y, ys[k]? = some y → (collOut (.xrank q h d a b) l k).g = [(d, (xs[y.toNat]?).getD (xs.getD k 0))])
      ∧ (collOut (.foldAdd q h d a) l k).g = [(d, wordOf (xs.map zi).sum)]
      ∧ (collOut (.scanAdd q h d a) l k).g = [(d, wordOf ((xs.take (k + 1)).map zi).sum)]
      ∧ (∃ v, (collOut (.foldMinI q h d a) l k).g = [(d, v)] ∧ v ∈ xs ∧ ∀ x ∈ xs, si v ≤ si x)
      ∧ (∃ v, (collOut (.foldMaxI q h d a) l k).g = [(d, v)] ∧ v ∈ xs ∧ ∀ x ∈ xs, si x ≤ si v)

/-- R27, R292, R294: a hitch fires. Words that differ but for their guards trap every signer; a collective on values gives each signer its result,
in the order of their thread indices; and HITCH_FIRE_COMPLETE lets the signers go on and arms the hitch again. -/
def Obligations.HitchFires : Prop :=
  (∀ (s : State) (blk : Nat) (w : Bool) (h : Reg4) (d : Side) (l : List Sign) (x : Sign), s.side? blk w = some d → d.hitch.length = 16 →
    l = ranked (d.hi h).signed → l.head? = some x → isMat x.ins = false → (∀ y ∈ l, bareWords y.ins = bareWords x.ins) → (l.map (·.th)).Nodup → s.inj.getLsbD 0 = false →
      (∀ k me th, l[k]? = some me → s.thread? me.th = some th → (s.fire blk w h).thread? me.th = some ((th.put (collOut x.ins l k)).dropHold (collDests x.ins)))
      ∧ (s.fire blk w h).agenda = s.agenda ++ [.hitchFireComplete blk w h] ∧ (s.fire blk w h).mem = s.mem
      ∧ ∃ d', (s.fire blk w h).side? blk w = some d' ∧ (d'.hi h).st = .firing)
  ∧ (∀ l : List Sign, (ranked l).Perm l ∧ (ranked l).Pairwise fun x y => x.th.tid ≤ y.th.tid)
  ∧ (∀ (s : State) (blk : Nat) (w : Bool) (h : Reg4) (d : Side), s.side? blk w = some d → d.hitch.length = 16 → (d.hi h).st = .firing →
      (d.hi h).late = false → (d.hi h).held = [] →
        ∃ t d', exec (.hitchFireComplete blk w h) s = .next t ∧ t.side? blk w = some d' ∧ (d'.hi h).st = .armed ∧ (d'.hi h).signed = []
          ∧ (d'.hi h).c = (d.hi h).c ∧ (d'.hi h).m = (d.hi h).m ∧ t.mem = s.mem ∧ t.cycle = s.cycle + 1
          ∧ ∀ id th, s.thread? id = some th → ∃ th', t.thread? id = some th'
              ∧ ((th.status = .waiting (.hitch h) ∧ ∃ g ∈ (d.hi h).signed, g.th = id) →
                  th'.status = .ready ∧ th'.pc = th.pc + BitVec.ofNat 32 th.wlen ∧ th'.g = th.g)
              ∧ (¬(th.status = .waiting (.hitch h) ∧ ∃ g ∈ (d.hi h).signed, g.th = id) → th' = th))

/-- R143, R300, R302: the life of a matrix operation. The fire of a matrix collective compares what the signers read, checks, and records the
operation with the tile control registers of that moment; it begins once no earlier operation owns what it needs; when it completes, its side
of the block takes its effect, its signers' teams take its flags (R176), TL falls and the operation is gone. An `acc.snap` with no writer
before it answers all ones (R144). -/
def Obligations.MatrixOperations : Prop :=
  ∀ (s : State) (blk : Nat) (w : Bool) (b : Block) (d : Side), s.block? blk = some b → d = b.side w →
    (∀ (h : Reg4) (l : List Sign) (i : Instr) (x : Sign), l.head? = some x → s.isRed blk = false → (∀ y ∈ l, y.th.blk = blk ∧ y.th.wheel = w) → (∀ y ∈ l, ∃ th, s.thread? y.th = some th) → (l.map (·.th)).Nodup →
      (∀ c, ((∃ y ∈ l, y.vals ≠ x.vals) ∧ c = Cause.formatDivergence)
          ∨ ((∀ y ∈ l, y.vals = x.vals) ∧ checkWaits d b.shape i x.vals = false ∧ matCheck d b.shape i x.vals = some c) →
        ∀ y ∈ l, ∃ th', (s.fireMat blk w h l i).thread? y.th = some th' ∧ th'.status = .parked { cause := c, addr := 0, sub := 0, word := true })
      ∧ ((∀ y ∈ l, y.vals = x.vals) → checkWaits d b.shape i x.vals = false → matCheck d b.shape i x.vals = none →
          memPlan d.tc b.shape.tiles i x.vals = none → isFact i = false →
            ∃ d' o, (s.fireMat blk w h l i).side? blk w = some d' ∧ o ∈ d'.ops ∧ o.ins = i ∧ o.vals = x.vals ∧ o.signers = l.map (·.th) ∧ o.tc = d.tc
              ∧ Ev.hitchFireComplete blk w h ∈ (s.fireMat blk w h l i).agenda ∧ d'.acc = d.acc ∧ d'.tiles = d.tiles))
    ∧ (∀ (id : Nat) (o : MatOp), b.resident = true → d.ops.find? (fun o => o.id == id && !o.running) = some o → (id = 0 ∨ d.mayBegin b.shape o = true) →
        ∃ t b', exec (.pendingMatrixOpBegin blk w id) s = .next t ∧ t.block? blk = some b' ∧ t.mem = s.mem ∧ t.threads = s.threads
          ∧ (b'.side w).ops = d.ops.map (fun x => if x.id = id then { x with running := true } else x) ∧ (b'.side w).acc = d.acc
          ∧ (if isFact o.ins then Ev.factorisationColumn blk w else Ev.matrixOpComplete blk w id) ∈ t.agenda)
    ∧ (∀ (id : Nat) (o : MatOp), d.ops.find? (fun o => o.id == id && o.running) = some o → d.footPoison (o.foot b.shape) = false →
        memPlan o.tc b.shape.tiles o.ins o.vals = none → isSnap o.ins = false → o.signers.Nodup →
          ∃ t b', exec (.matrixOpComplete blk w id) s = .next t ∧ t.block? blk = some b' ∧ t.mem = s.mem
            ∧ b'.side w = { (matEffect d b.shape o [] []).1 with ops := (matEffect d b.shape o [] []).1.ops.filter fun x => x.id ≠ o.id }
            ∧ (∀ k ∈ o.signers, ∀ m, s.teamOf k = some m → ∃ m', t.teamOf k = some m' ∧ m'.fpflags = m.fpflags ||| (matEffect d b.shape o [] []).2)
            ∧ ∀ k ∈ o.signers, ∀ th, s.thread? k = some th → t.thread? k = some (th.unsign o.ins))
    ∧ (∀ (id : Nat) (o : MatOp) (q : PReg) (h a : Reg4) (ct : CellTy) (dst : GReg) (src : Src),
        d.ops.find? (fun o => o.id == id && o.running) = some o → o.ins = .accSnap q h ct dst a src → d.footPoison (o.foot b.shape) = false →
        d.writers b.shape o.id (o.foot b.shape).cr = [] → d.stalledWrites (o.foot b.shape).cr = false → o.signers.Nodup → s.inj.getLsbD 0 = false →
          ∃ t b', exec (.matrixOpComplete blk w id) s = .next t ∧ t.block? blk = some b' ∧ t.mem = s.mem ∧ (b'.side w).acc = d.acc
            ∧ (∀ x ∈ (b'.side w).ops, x.id ≠ o.id)
            ∧ ∀ k ∈ o.signers, ∀ th, s.thread? k = some th → ∃ th', t.thread? k = some th' ∧ th'.gr dst = 0xffffffff ∧ th'.pc = th.pc)

/-- R144, R145, R305, R309 to R312, R317 to R319: what operations do to the tiles and cells of their side. `g` is the group that a tile control
register describes (R52). -/
def Obligations.MatrixEffects : Prop :=
  ∀ (d : Side) (b : Shape) (o : MatOp) (rows : List (List Byte)) (q : PReg) (h k k2 : Reg4) (ct : CellTy) (src : Src) (rg : Region),
    rg = regionOf (o.vals.getD 0 0) →
      (∀ n : BitVec 2, o.ins = .tzero q h k n → ∀ x, rd (matEffect d b o rows []).1.tiles x =
          if 16384 * k.toNat ≤ x ∧ x < 16384 * (k.toNat + 2 ^ n.toNat) then 0 else rd d.tiles x)
      ∧ (o.ins = .accZero q h ct src → rg.ok b.accrows ct = true → ∀ r c, c < ctCols ct →
          cellGet (matEffect d b o rows []).1.acc (ctWide ct) r c =
            if rg.row0 ≤ r ∧ r < rg.row0 + rg.nr ∧ rg.col0 ≤ c ∧ c < rg.col0 + rg.nc then 0 else cellGet d.acc (ctWide ct) r c)
      ∧ (∀ (x : MmaArgs) (p : MmaPlan), o.ins = .mma q x → x.p = 0 → mmaPlan o.tc b.tiles b.accrows x false (o.vals.getD 0 0) = some p →
          p.ct = .i32 → p.gb2 = none → ∀ r < p.m, ∀ c < p.n,
            cellGet (matEffect d b o rows []).1.acc false (p.rg.row0 + r) (p.rg.col0 + c) =
              (wordOf (cellGet d.acc false (p.rg.row0 + r) (p.rg.col0 + c) + ((List.range p.k).map fun j =>
                intVal p.ga.fmt (p.ga.elem (p.ga.bits d.tiles) r j) * intVal p.gb.fmt (p.gb.elem (p.gb.bits d.tiles) j c)).sum)).toNat)
      ∧ ∀ g : Grp, grpOf o.tc b.tiles k.toNat = some g →
        (∀ (t : Bool) (rm : Rm) (ga : Grp), o.ins = .tmov q h t rm k k2 → grpOf o.tc b.tiles k2.toNat = some ga → ∀ r < g.rows, ∀ c < g.cols,
          g.elem (g.bits (matEffect d b o rows []).1.tiles) r c =
            (let x := if t then ga.elem (ga.bits d.tiles) c r else ga.elem (ga.bits d.tiles) r c
             if g.fmt = ga.fmt then x else (convert g.fmt ga.fmt rm x).bits) % 2 ^ fbits g.fmt)
        ∧ (∀ (m : MemOp12), o.ins = .tld q h k m src → rows.length = g.rows → (∀ r ∈ rows, natOfBytes r < 2 ^ (g.cols * fbits g.fmt)) →
          ∀ r < g.rows, ∀ c < g.cols, g.elem (g.bits (matEffect d b o rows []).1.tiles) r c =
            natOfBytes (rows.getD r []) / 2 ^ (c * fbits g.fmt) % 2 ^ fbits g.fmt)
        ∧ (o.ins = .accLdTile q h ct k src → rg.ok b.accrows ct = true → ∀ r c, c < ctCols ct →
          cellGet (matEffect d b o rows []).1.acc (ctWide ct) r c =
            if rg.row0 ≤ r ∧ r < rg.row0 + rg.nr ∧ rg.col0 ≤ c ∧ c < rg.col0 + rg.nc then
              (fill ct g.fmt (g.elem (g.bits d.tiles) (r - rg.row0) (c - rg.col0))).bits % 2 ^ (if ctWide ct then 64 else 32)
            else cellGet d.acc (ctWide ct) r c)
        ∧ (o.ins = .accStTile q h ct k src → rg.nr = g.rows → rg.nc = g.cols → ∀ r < g.rows, ∀ c < g.cols,
          g.elem (g.bits (matEffect d b o rows []).1.tiles) r c = (drain ct g.fmt (cellGet d.acc (ctWide ct) (rg.row0 + r) (rg.col0 + c))).bits % 2 ^ fbits g.fmt)

/-- R156 to R162: a factorisation advances column by column. FACTORISATION_COLUMN performs the column at PROG and moves PROG on; a zero pivot, a
matrix that is not positive definite, a zero on a diagonal trap where the flag does not ask to go on; the pivot is the row of largest magnitude
from the diagonal down, the first of equals, a NaN above all; at the last column the run ends and its signers go on. -/
def Obligations.Factorisations : Prop :=
  (∀ (s : State) (blk : Nat) (w : Bool) (b : Block) (o : MatOp) (p : FactPlan), s.block? blk = some b →
    (b.side w).ops.find? (fun o => isFact o.ins && o.running) = some o → factPlan o.ins (valPair o.vals) = some p → (b.side w).footPoison p.foot = false →
      ((b.side w).mstat.prog < p.cols → b.state ≠ .saving → (factColumn p (b.side w)).trap = none →
        ∃ t b', exec (.factorisationColumn blk w) s = .next t ∧ t.block? blk = some b' ∧ b'.side w = (factColumn p (b.side w)).side
          ∧ (b'.side w).mstat.prog = (b.side w).mstat.prog + 1 ∧ t.mem = s.mem ∧ t.threads = s.threads
          ∧ t.agenda = s.agenda ++ [.factorisationColumn blk w])
      ∧ (p.cols ≤ (b.side w).mstat.prog →
        ∃ t b', exec (.factorisationColumn blk w) s = .next t ∧ t.block? blk = some b' ∧ (b'.side w).mstat.active = false
          ∧ (b'.side w).mstat.kind = 0 ∧ (∀ x ∈ (b'.side w).ops, x.id ≠ o.id) ∧ (b'.side w).acc = (b.side w).acc ∧ t.mem = s.mem
          ∧ ∃ g, Ev.hitchFireComplete blk w g ∈ t.agenda))
  ∧ (∀ (p : FactPlan) (acc : Sparse 32) (j : Nat), j < p.n →
      j ≤ p.pivot acc j ∧ p.pivot acc j < p.n
      ∧ ∀ i, j ≤ i → i < p.n →
          p.rank (cellGet acc p.wide (p.row0 + i) (p.col0 + j)) ≤ p.rank (cellGet acc p.wide (p.row0 + p.pivot acc j) (p.col0 + j))
          ∧ (i < p.pivot acc j →
              p.rank (cellGet acc p.wide (p.row0 + i) (p.col0 + j)) < p.rank (cellGet acc p.wide (p.row0 + p.pivot acc j) (p.col0 + j))))
  ∧ (∀ (p : FactPlan) (d : Side), p.flag = false →
      (p.kind = 1 → p.isZero (cellGet d.acc p.wide (p.row0 + p.pivot d.acc d.mstat.prog) (p.col0 + d.mstat.prog)) = true →
        (factColumn p d).trap = some .zeroPivot ∧ (factColumn p d).side.acc = d.acc)
      ∧ (p.kind = 2 → d.mstat.prog = 0 → (∀ v, valueOf p.fmt (cellGet d.acc p.wide p.row0 p.col0) = some v → v ≤ 0) → (p.fmt.val (cellGet d.acc p.wide p.row0 p.col0)).isInf = false →
          (factColumn p d).trap = some .notPosdef ∧ (factColumn p d).side.acc = d.acc)
      ∧ (p.kind = 4 → d.mstat.prog = 0 → p.unit = false → (∃ i < p.n, p.isZero (cellGet d.acc p.wide (p.row0 + i) (p.col0 + i)) = true) →
          (factColumn p d).trap = some .zeroPivot ∧ (factColumn p d).side.acc = d.acc))

/-! ## Words performed thread by thread, loads and stores (files 03, 04, 08, 12) -/

namespace Sys2Proof
open Machine

/-- A word performed for each thread of true guard in turn (R272), `part` for one of them; the string goes on past it. -/
def EachDoes (i : Instr) (stall : State → Str → Thread → Bool) (part : Str → ThreadId → State → State) : Prop :=
  ∀ s c rest, AtWord s c rest i → NoStall s c i stall →
    exec i s = .next (((s.actors (guardOf i) c).foldl (fun s id => part c id s) s).advance c rest (wordLen i)).tick
/-- A thread that stays at the word with a new status. -/
def StaysWith (t : State) (c : Str) (i : Instr) (th : Thread) (st : TStatus) : Prop :=
  t.thread? th.id = some { th with status := st, hdr := some c.hdr, wlen := 4 * wordLen i }

end Sys2Proof

/-- R201, R240: `movs` of %clock in a redundant block: the leader takes the clock into its pair and puts it into the queue, the wheeler takes it
from there or waits. The other values of `movs` differ for no team (MovesAndSpecials). -/
def Obligations.MovsOfARedundantBlock : Prop :=
  (∀ (q : PReg) (d : GReg) (s : State) (c : Str) (rest : List Str), AtWord s c rest (.movs q d .clock) → (∃ id ∈ c.members, s.isRed id.blk = true) →
    NoStall s c (.movs q d .clock) (fun s _ t => s.lvFull t.id) →
      exec (.movs q d .clock) s = .next (((s.actors q c).foldl (fun s id => clockOne (.movs q d .clock) d c id s) s).advance c rest
        (wordLen (.movs q d .clock))).tick)
  ∧ ∀ (i : Instr) (d : GReg) (c : Str) (id : ThreadId) (s : State) (th : Thread), s.thread? id = some th → s.inj.getLsbD 0 = false →
      (id.wheel = false → ∃ th' r, (clockOne i d c id s).thread? id = some th' ∧ (clockOne i d c id s).rets = s.rets ++ [r]
          ∧ Written th th' { g := [d, d + 1].zip [s.clock.extractLsb' 0 32, s.clock.extractLsb' 32 32] } ∧ th'.status = th.status
          ∧ r.th = id ∧ r.outs = [(d, s.clock.extractLsb' 0 32), (d + 1, s.clock.extractLsb' 32 32)] ∧ r.toReg = false ∧ r.toQueue = true
          ∧ (clockOne i d c id s).agenda = s.agenda ++ [.loadValueEntry r.id] ∧ (clockOne i d c id s).mem = s.mem)
      ∧ (id.wheel = true → ∀ lo hi, s.lvPeek id = some [lo, hi] →
          ∃ th', (clockOne i d c id s).thread? id = some th' ∧ Written th th' { g := [(d, lo), (d + 1, hi)] } ∧ th'.status = th.status
            ∧ (clockOne i d c id s).agenda = s.agenda ∧ (clockOne i d c id s).mem = s.mem)
      ∧ (id.wheel = true → s.lvPeek id = none → (clockOne i d c id s).thread? id = some { th with status := .waiting .loadValue }
          ∧ (clockOne i d c id s).teams = s.teams ∧ (clockOne i d c id s).agenda = s.agenda)

namespace Sys2Proof
open Machine

/-- R283, R328: `nop` and the prefetches have no effect; the word is passed, and counted. -/
def nopAndPrefetches : Prop :=
  ∀ (q : PReg) (m : MemOp), RegWordDoes (.nop q) (fun _ _ _ => {}) ∧ RegWordDoes (.prefetchL1 q m) (fun _ _ _ => {})
    ∧ RegWordDoes (.prefetchL2 q m) (fun _ _ _ => {})

/-- R280, R282, R299, R329 to R331: `wait`, `sleep`, `drain.nt`, `phint` and `commit`: for each the condition under which a thread goes on past the
word at once, and what it waits for otherwise. They change no register and no memory. -/
def hintsAndWaits : Prop :=
  ∀ (q : PReg) (s : State) (c : Str) (rest : List Str) (i : Instr), AtWord s c rest i →
    (∀ nl ns na nt : BitVec 6, i = .wait q nl ns na nt →
      ∃ t, exec i s = .next t ∧ t = { s with threads := t.threads, strings := t.strings, cycle := s.cycle + 1 }
        ∧ ∀ id ∈ s.actors q c, ∀ th, s.thread? id = some th →
            (if th.ld ≤ nl.toNat ∧ th.st ≤ ns.toNat ∧ th.as ≤ na.toNat ∧ th.tl ≤ nt.toNat then t.thread? id = some (th.pass (wordLen i))
             else StaysWith t c i th (.waiting (.counters nl ns na nt))))
    ∧ (∀ n : BitVec 16, i = .sleep q n →
      ∃ t, exec i s = .next t ∧ t = { s with threads := t.threads, strings := t.strings, agenda := t.agenda, cycle := s.cycle + 1 }
        ∧ ∀ id ∈ s.actors q c, ∀ th, s.thread? id = some th →
            (if n = 0 then t.thread? id = some (th.pass (wordLen i))
             else StaysWith t c i th (.sleeping (s.cycle + 1 + n.toNat)) ∧ Ev.sleepExpiry id ∈ t.agenda))
    ∧ (i = .drainNt q → NoStall s c i (fun s _ t => s.sigPending t.id) →
      ∃ t, exec i s = .next t ∧ t = { s with threads := t.threads, strings := t.strings, cycle := s.cycle + 1 }
        ∧ ∀ id ∈ s.actors q c, ∀ th, s.thread? id = some th →
            (if (s.wbs.any fun w => w.nt && w.th == some id) || (s.merges.any fun m => m.wb.nt && m.wb.th == some id)
                || (s.vstores.any fun v => v.th == id && v.nt) then StaysWith t c i th (.waiting .drain)
             else t.thread? id = some (th.pass (wordLen i))))
    ∧ (∀ x : HintArgs, i = .phint q x →
      ∃ t, exec i s = .next t ∧ t = { s with threads := t.threads, strings := t.strings, agenda := t.agenda, cycle := s.cycle + 1 }
        ∧ ∀ id ∈ s.actors q c, ∀ th b, s.thread? id = some th → s.block? id.blk = some b →
            (if b.preempt && !s.sigOwed id then StaysWith t c i th (.stopped x.gmask x.pmask (hintRanges (s.yOf id) x)) ∧ Ev.blockSave id.blk ∈ t.agenda
             else t.thread? id = some (th.pass (wordLen i))))
    ∧ (∀ x : HintArgs, i = .commit q x → NoStall s c i (fun s _ t => s.isCont t.id.blk && s.orderStall t) →
      ∃ t, exec i s = .next t ∧ t = { s with threads := t.threads, strings := t.strings, agenda := t.agenda, cycle := s.cycle + 1 }
        ∧ ∀ id ∈ s.actors q c, ∀ th b, s.thread? id = some th → s.block? id.blk = some b →
            (if b.shape.cont || b.shape.red then
               StaysWith t c i th (.waiting (.commit x.gmask x.pmask (hintRanges (s.yOf id) x))) ∧ Ev.commitStoreRelease id.blk ∈ t.agenda
             else if b.preempt then StaysWith t c i th (.stopped x.gmask x.pmask (hintRanges (s.yOf id) x)) ∧ Ev.blockSave id.blk ∈ t.agenda
             else t.thread? id = some (th.pass (wordLen i))))
end Sys2Proof

/-- R280, R282, R283, R299, R328 to R331: the words that move no data. -/
def Obligations.HintsPrefetchesAndWaits : Prop := nopAndPrefetches ∧ hintsAndWaits

namespace Sys2Proof
open Machine

/-- R328: `trap` and `brk` take their exceptions with the code in SUB, in every acting thread; registers and memory stay. -/
def trapWords : Prop :=
  ∀ (q : PReg) (code : BitVec 8) (i : Instr) (cause : Cause) (s : State) (c : Str) (rest : List Str),
    (i = .trap q code ∧ cause = .swTrap) ∨ (i = .brk q code ∧ cause = .brk)→ AtWord s c rest i →
      ∃ t, exec i s = .next t ∧ t = { s with threads := t.threads, strings := t.strings, teams := t.teams, agenda := t.agenda, cycle := s.cycle + 1 }
        ∧ ∀ id th, s.thread? id = some th →
            (id ∈ s.actors q c → s.isRed id.blk = false →
              t.thread? id = some { th with status := .parked { cause := cause, addr := 0, sub := code, word := true }, granted := false,
                                            hdr := some c.hdr, wlen := 4 * wordLen i } ∧ Ev.blockSave id.blk ∈ t.agenda)
            ∧ (id ∈ c.members → id ∉ s.actors q c → th.ready = true → t.thread? id = some (th.pass (wordLen i)))
            ∧ (id ∉ c.members → t.thread? id = some th)
end Sys2Proof

/-- R221, R222, R328: `trap`, `brk` and the majors that are always illegal. -/
def Obligations.TrapsAndIllegalWords : Prop := illegalMajorsTrap ∧ trapWords

namespace Sys2Proof
open Machine

/-- The registers that a load of a size fills from a register up (R278). -/
def loadRegs (sz : BitVec 3) (d : GReg) : List GReg := (List.range (max 1 (2 ^ sz.toNat / 4))).map fun j => d + BitVec.ofNat 7 j
/-- The bytes that n bytes of memory at an address are read from at their home. -/
def atHome (pa n : Nat) (key : BitVec 9) : List LByte := (List.range n).map fun k => .at (pa + k) key
/-- A load has begun: its registers are held and LD is raised (R215, R216). -/
def BegunLoad (t : State) (th : Thread) (regs : List GReg) : Prop :=
  t.thread? th.id = some { th with hold := th.hold ++ regs, ld := th.ld + 1 }
/-- R278, R279: `ld` and `ld.acq` begin a load for each thread of true guard and report denied reads. Where the index entries of a view cannot be
read yet, the word waits (R108). -/
def loadWordsDo : Prop :=
  ∀ (q : PReg) (sc : Scope) (sz : BitVec 3) (sx : Bool) (d : GReg) (m : MemOp) (acq : Option Scope) (i : Instr) (s : State) (c : Str) (rest : List Str),
    (i = .ld q sz sx d m ∧ acq = none) ∨ (i = .ldAcq q sc sz sx d m ∧ acq = some sc) → AtWord s c rest i →
      (NoStall s c i (fun s _ t => s.loadStall t (t.gr64 m.base + m.off.signExtend 64) (2 ^ sz.toNat)) →
        exec i s = .next ((((s.actors q c).foldl (fun s' id => loadOne s.nextId acq sz sx d m c id s') s).reportWord c (s.actors q c)
          (loadDenials s (farOf acq) sz m)).advance c rest (wordLen i)).tick)
      ∧ (∀ id ∈ s.actors q c, ∀ th, s.thread? id = some th → isView (th.gr64 m.base + m.off.signExtend 64) = true →
          s.viewIdx id (th.gr64 m.base + m.off.signExtend 64) (2 ^ sz.toNat) ≠ [] →
            ∃ t, exec i s = .next t ∧ t.strings = s.strings ∧ t.threads = s.threads ∧ t.mem = s.mem ∧ t.cycle = s.cycle + 1)

/-- R71, R76, R77, R95, R184, R273, R278: the load of one thread of an ordinary block. Where its checks fail it traps with the address; a denied read
gives zero; bytes that all lie in the core's L1 are taken from there unless it is an acquire of .grp or wider; else the load goes to L2. -/
def loadOfOneThread : Prop :=
  ∀ (word : Nat) (acq : Option Scope) (sz : BitVec 3) (sx : Bool) (d : GReg) (m : MemOp) (c : Str) (id : ThreadId) (s s' : State) (th : Thread) (b : Block)
    (va : DWord) (n : Nat) (t : State), s.thread? id = some th → th.pend = [] → s.block? id.blk = some b → b.shape.cont = false → b.shape.red = false →
      id.wheel = false → b.sbuf = [] → b.releasing = [] → s.rels = [] → s.upd = [] → va = th.gr64 m.base + m.off.signExtend 64 → n = 2 ^ sz.toNat →
      isView va = false → t = loadOne word acq sz sx d m c id s →
        (∀ e, s.access id va n .read = (s', .error e) →
          t.thread? id = some { th with status := .parked { cause := e, addr := va, sub := 0, word := true }, granted := false } ∧ t.mem = s.mem)
        ∧ (∀ a pa, s.access id va n .read = (s', .ok a) → a.loc = .mem pa →
            BegunLoad t th (loadRegs sz d) ∧ t.mem = s.mem
            ∧ ((s'.servedTo id (s'.fromL1 id (farOf acq) a) a).denied = true →
                ∃ r, t.rets = s.rets ++ [r] ∧ r.th = id ∧ r.lowersLd = true ∧ r.poisoned = false ∧ r.outs = (loadRegs sz d).map (·, 0)
                  ∧ Ev.loadReturn r.id ∈ t.agenda)
            ∧ ((s'.servedTo id (s'.fromL1 id (farOf acq) a) a).denied = false →
                (∀ bs : List Byte, bs.length = n → (acq = none ∨ acq = some .blk) → (∀ k < n, ∃ x, s.l1Byte b.core (pa + k) = some x ∧ x.val = bs.getD k 0) →
                  t.l1 = s.l1 ∧ ∃ r, t.rets = s.rets ++ [r] ∧ r.th = id ∧ r.outs = loadOuts d n sx bs ∧ Ev.loadReturn r.id ∈ t.agenda)
                ∧ (((∃ sc, acq = some sc ∧ sc ≠ .blk) ∨ (∃ k < n, s.l1Byte b.core (pa + k) = none ∧ s.flightByte b.core (pa + k) = none)) →
                  t.rets = s.rets ∧ ∃ l, t.loads = s.loads ++ [l] ∧ l.th = id ∧ l.dst = d ∧ l.size = n ∧ l.sx = sx ∧ l.acq = acq ∧ l.bytes = atHome pa n a.key
                    ∧ Ev.l2ReadRequest l.id ∈ t.agenda)))
        ∧ (∀ a o, s.access id va n .read = (s', .ok a) → a.loc = .scr id.blk o →
            BegunLoad t th (loadRegs sz d) ∧ t.mem = s.mem
            ∧ ∃ r, t.rets = s.rets ++ [r] ∧ r.th = id ∧ r.outs = loadOuts d n sx ((List.range n).map fun k => rd b.lead.scratch (o + k)))

/-- R105, R108, R117: a thread's load through a view: the bytes of its elements in their order, zero for a denied one, read where views are composed;
where a check fails, the trap of the lowest-numbered faulting element. -/
def loadThroughAView : Prop :=
  ∀ (word : Nat) (acq : Option Scope) (sz : BitVec 3) (sx : Bool) (d : GReg) (m : MemOp) (c : Str) (id : ThreadId) (s s' : State) (th : Thread) (b : Block)
    (va : DWord) (n : Nat) (ds : List Denial) (t : State), s.thread? id = some th → th.pend = [] → s.block? id.blk = some b → b.shape.cont = false →
      b.shape.red = false → id.wheel = false → b.sbuf = [] → b.releasing = [] → s.rels = [] → va = th.gr64 m.base + m.off.signExtend 64 → n = 2 ^ sz.toNat →
      isView va = true → t = loadOne word acq sz sx d m c id s →
        (∀ e, s.viewAccess id va n .read false = (s', ds, .error e) →
          t.thread? id = some { th with status := .parked { cause := e, addr := va, sub := 0, word := true }, granted := false } ∧ t.mem = s.mem)
        ∧ (∀ bs, s.viewAccess id va n .read false = (s', ds, .ok bs) → (∃ x ∈ bs, x.denied = false) →
            BegunLoad t th (loadRegs sz d) ∧ t.mem = s.mem
            ∧ ∃ l, t.loads = s.loads ++ [l] ∧ l.th = id ∧ l.dst = d ∧ l.fill = false ∧ l.acq = acq
              ∧ l.bytes = bs.map (fun x => if x.denied then .val 0 else .at x.pa x.key) ∧ Ev.viewLineCompose l.id ∈ t.agenda)
        ∧ (∀ bs, s.viewAccess id va n .read false = (s', ds, .ok bs) → (∀ x ∈ bs, x.denied = true) → bs.length = n →
            ∃ r, t.rets = s.rets ++ [r] ∧ r.th = id ∧ r.outs = (loadRegs sz d).map (·, 0))
end Sys2Proof

/-- R71, R76, R77, R95, R105, R108, R117, R184, R273, R278: the load of one thread, of memory or scratch and through a view. -/
def Obligations.LoadOfOneThreadAnyWindow : Prop := loadOfOneThread ∧ loadThroughAView

namespace Sys2Proof
open Machine

/-- The bytes that a store of a size writes: its source registers from the lowest byte up (R278). -/
def storedBytes (s : State) (id : ThreadId) (th : Thread) (sz : BitVec 3) (b : Src) : List Byte :=
  (List.range (2 ^ sz.toNat)).map fun k => (bvalAt (s.yOf id) th (k / 4) b).extractLsb' (8 * (k % 4)) 8
/-- R278, R279: `st`, `st.rel` and `st.nt` store for each thread of true guard. Where a thread's address lies in the view window, its check is sent first
and the word waits (R109). -/
def storeWordsDo : Prop :=
  ∀ (q : PReg) (sc : Scope) (sz : BitVec 3) (b : Src) (m : MemOp) (nt : Bool) (rel : Option Scope) (i : Instr) (s : State) (c : Str) (rest : List Str),
    (i = .st q sz m b ∧ nt = false ∧ rel = none) ∨ (i = .stRel q sc sz m b ∧ nt = false ∧ rel = some sc) ∨ (i = .stNt q sz m b ∧ nt = true ∧ rel = none) →
      AtWord s c rest i → NoStall s c i (fun s c t => s.storeStall t (t.gr64 m.base + m.off.signExtend 64) (2 ^ sz.toNat) || s.viewWaits c t.id) →
        ((∀ id ∈ s.actors q c, ∀ th, s.thread? id = some th → isView (th.gr64 m.base + m.off.signExtend 64) = true →
            (s.vstore? id c.pc).isSome = true) →
          exec i s = .next (((s.actors q c).foldl (fun s id => storeOne nt rel sz m b c id s) s).advance c rest (wordLen i)).tick)
        ∧ (∀ id ∈ s.actors q c, ∀ th, s.thread? id = some th → isView (th.gr64 m.base + m.off.signExtend 64) = true →
            s.vstore? id c.pc = none →
              ∃ t v, exec i s = .next t ∧ t.strings = s.strings ∧ t.threads = s.threads ∧ t.mem = s.mem ∧ v ∈ t.vstores ∧ v.th = id ∧ v.pc = c.pc
                ∧ v.va = th.gr64 m.base + m.off.signExtend 64 ∧ v.data = storedBytes s id th sz b ∧ v.answer = none ∧ v.passed = false
                ∧ Ev.viewStoreCheck v.id ∈ t.agenda)
end Sys2Proof

/-- R278, R279, R109: a load or store word does for each thread of true guard what is done for one thread (LoadOfOneThreadAnyWindow, StoreOfOneThread). -/
def Obligations.LoadAndStoreWords : Prop := loadWordsDo ∧ storeWordsDo

/-- R72, R73, R79, R90, R192, R195, R202, R273: the store of one thread, at the address that its checks give: in an ordinary block the bytes go into
the core's L1, for `st.rel` of .grp or wider they wait for a release, for `st.nt` they leave for their home; into the block's own scratch at once; a
contained block buffers them; a redundant one compares them first. Memory itself takes no byte yet. -/
def Obligations.StoreOfOneThread : Prop :=
  ∀ (nt : Bool) (rel : Option Scope) (sz : BitVec 3) (m : MemOp) (src : Src) (c : Str) (id : ThreadId) (s s' : State) (th : Thread) (b : Block) (va : DWord)
    (n : Nat) (bs : List Byte) (t : State), s.thread? id = some th → s.block? id.blk = some b → s.sbufFull id.blk n = false → s.sigFull id c.pc = false →
      va = th.gr64 m.base + m.off.signExtend 64 → n = 2 ^ sz.toNat → bs = storedBytes s id th sz src → isView va = false → t = storeOne nt rel sz m src c id s →
        (∀ e, s.access id va n .write = (s', .error e) → b.shape.red = false → id.wheel = false → t.mem = s.mem
          ∧ (t.thread? id = some { th with status := .parked { cause := e, addr := va, sub := 0, word := true }, granted := false }
             ∨ (e = .xlate ∨ e = .permWrite ∨ e = .execStore) ∧ t.thread? id = some th ∧ Ev.storeFault id e.code va c.pc ∈ t.agenda))
        ∧ (∀ acc, s.access id va n .write = (s', .ok acc) → id.wheel = false → t.mem = s.mem ∧ t.thread? id = some { th with st := th.st + 1 })
        ∧ (∀ pa acc, s.access id va n .write = (s', .ok acc) → acc.loc = .mem pa → id.wheel = false → b.shape.cont = false → b.shape.red = false →
            (nt = false → (rel = none ∨ rel = some .blk) →
              (∀ k < n, ∃ x, t.l1Byte b.core (pa + k) = some x ∧ x.val = bs.getD k 0 ∧ id ∈ x.dirty ∧ x.key = acc.key ∧ x.tag = acc.tag)
              ∧ (∀ core a, core ≠ b.core ∨ a < pa ∨ pa + n ≤ a → t.l1Byte core a = s.l1Byte core a) ∧ t.blocks = s.blocks
              ∧ ∃ x ∈ t.staccs, x.th = id ∧ Ev.storeAccept x.id ∈ t.agenda)
            ∧ (∀ sc, rel = some sc → sc ≠ .blk → t.blocks = s.blocks
              ∧ ∃ r ∈ t.rels, r.th = id ∧ r.scope = sc ∧ r.cells = cellsAt (.mem pa) acc.key acc.tag bs ∧ Ev.releaseComplete r.id ∈ t.agenda)
            ∧ (nt = true → rel = none → t.blocks = s.blocks
              ∧ ∃ w ∈ t.wbs, w.th = some id ∧ w.nt = true ∧ w.core = b.core ∧ w.cells = (List.range n).map (fun k => (pa + k, bs.getD k 0))
                ∧ Ev.writeBack w.id ∈ t.agenda))
        ∧ (∀ o acc, s.access id va n .write = (s', .ok acc) → acc.loc = .scr id.blk o → id.wheel = false → b.shape.red = false → (rel = none ∨ rel = some .blk) →
            t.l1 = s.l1 ∧ ∃ b', t.block? id.blk = some b' ∧ (∀ k < n, rd b'.lead.scratch (o + k) = bs.getD k 0)
              ∧ (∀ x, x < o ∨ o + n ≤ x → rd b'.lead.scratch x = rd b.lead.scratch x) ∧ b'.wheels = b.wheels ∧ b'.sbuf = b.sbuf)
        ∧ (∀ pa acc, s.access id va n .write = (s', .ok acc) → acc.loc = .mem pa → id.wheel = false → b.shape.cont = true → b.shape.red = false →
            t.l1 = s.l1 ∧ ∃ b', t.block? id.blk = some b' ∧ b' = { b with sbuf := b.sbuf ++ cellsAt (.mem pa) acc.key acc.tag bs })
        ∧ (∀ acc m0, s.access id va n .write = (s', .ok acc) → id.wheel = false → b.shape.red = true → s.team? id.blk false (teamIdx id) = some m0 →
            t.l1 = s.l1 ∧ t.blocks = s.blocks ∧ ∃ m' e crc, t.team? id.blk false (teamIdx id) = some m' ∧ m'.sigs.getLast? = some e
              ∧ e.parts.getLast? = some { tid := id.tid, crc := crc, cells := cellsAt acc.loc acc.key acc.tag bs, kind := .store })

/-! ## Irrevocable words, ordering, views, queues, engines (files 03, 04, 05, 08, 12, 13) -/

namespace Sys2Proof
open Machine

/-- An irrevocable word performed thread by thread (R198, R206): each thread's faults first; then its effect in an ordinary block, the implicit commit
or the signature in the others; behind it the checkpoints of the blocks that performed it. -/
def IrrevDoes (i : Instr) (stall : State → Str → Thread → Bool) (chk : State → List ThreadId → Check) (sig : State → Thread → List Byte)
    (eff : State → List ThreadId → Str → ThreadId → State → State) : Prop :=
  ∀ s c rest, AtWord s c rest i → NoStall s c i stall →
    ∃ u acts, acts = s.actors (guardOf i) c
      ∧ u = ((acts.foldl (fun x id => gated (chk s acts) sig (eff s acts) c id x) s).advance c rest (wordLen i)).tick
      ∧ exec i s = .next (u.snapAfter s c)
      ∧ ((∀ id ∈ c.members, ∀ t, s.thread? id = some t → t.granted = false) → exec i s = .next u)
/-- One team's part of an irrevocable uniform word: its lowest-numbered acting thread decides. -/
def teamPart (chk : Check) (sig : State → Thread → List Byte) (eff : Str → ThreadId → List ThreadId → State → State) (c : Str) (l : ThreadId)
    (ids : List ThreadId) (s : State) : State :=
  match s.thread? l with
  | none => s
  | some t =>
    if l.wheel && t.granted then
      (if s.leadPassed t then eff c l ids s else ids.foldl (fun s id => s.modThread id fun t => { t with status := .waiting .leader }) s)
    else
    match chk c l s with
    | (s', some (cause, addr)) =>
      if l.wheel then ids.foldl (fun s id => s.raise id c.pc cause addr 0 true) s
      else if t.granted then ids.foldl (fun s id => s.raisePair id c.pc cause addr) s'
      else ids.foldl (fun s id => s.raise id c.pc cause addr 0 true) s'
    | (s', none) =>
      if !s.isCont l.blk || t.granted then eff c l ids s'
      else if s.isRed l.blk then ids.foldl (fun s id => s.sign id c.pc (sig s t) [] .irrev none) s
      else ids.foldl (fun s id => s.stopFor id .irrevocable) s
/-- An irrevocable uniform word (R24). -/
def IrrevTeamsDo (i : Instr) (stall : State → Str → Thread → Bool) (chk : Check) (sig : State → Thread → List Byte)
    (eff : State → Str → ThreadId → List ThreadId → State → State) : Prop :=
  ∀ s c rest, AtWord s c rest i → NoStall s c i stall →
    ∃ u acts, acts = s.actors (guardOf i) c
      ∧ u = (((s.teamLeads acts).foldl (fun x l => teamPart chk sig (eff s) c l (acts.filter (sameTeam l)) x) s).advance c rest (wordLen i)).tick
      ∧ exec i s = .next (u.snapAfter s c)
      ∧ ((∀ id ∈ c.members, ∀ t, s.thread? id = some t → t.granted = false) → exec i s = .next u)

end Sys2Proof

/-- R196, R198, R202, R206: how one thread comes to an irrevocable operation, and the checkpoint it leaves: an image in the half that is not valid,
valid at once, or, for blocking queue requests, once one of them proceeds. Threads waiting at a `commit`, once all of the block do, are
checkpointed in the same way; the buffered stores are released behind it. -/
def Obligations.ImplicitCommits : Prop :=
  (∀ (chk : Check) (sig : State → Thread → List Byte) (eff : Str → ThreadId → State → State) (c : Str) (id : ThreadId) (s s' : State) (th : Thread) (b : Block),
    s.thread? id = some th → s.block? id.blk = some b →
      (∀ cause addr, chk c id s = (s', some (cause, addr)) → id.wheel = false → th.granted = false →
          gated chk sig eff c id s = s'.raise id c.pc cause addr 0 true)
      ∧ (∀ cause addr, chk c id s = (s', some (cause, addr)) → id.wheel = true → th.granted = false →
          gated chk sig eff c id s = s.raise id c.pc cause addr 0 true)
      ∧ (chk c id s = (s', none) → id.wheel = false → (b.shape.cont = false ∧ b.shape.red = false) ∨ th.granted = true →
          gated chk sig eff c id s = eff c id s')
      ∧ (∀ l, id.wheel = true → th.granted = true → s.thread? { id with wheel := false } = some l →
          (th.done < l.done → gated chk sig eff c id s = eff c id s)
          ∧ (l.done ≤ th.done → gated chk sig eff c id s = s.modThread id fun t => { t with status := .waiting .leader }))
      ∧ (chk c id s = (s', none) → b.shape.cont = true → b.shape.red = false → th.granted = false →
          ∃ t, gated chk sig eff c id s = t ∧ t.thread? id = some { th with status := .waiting .irrevocable }
            ∧ t.block? id.blk = some { b with quiesce := true } ∧ Ev.commitStoreRelease id.blk ∈ t.agenda ∧ t.mem = s.mem ∧ t.l1 = s.l1)
      ∧ (chk c id s = (s', none) → b.shape.red = true → th.granted = false → s.sigFull id c.pc = true →
          gated chk sig eff c id s = s.modThread id fun t => { t with status := .waiting (.signature none) })
      ∧ (chk c id s = (s', none) → b.shape.red = true → th.granted = false → s.sigFull id c.pc = false →
          ∃ t, gated chk sig eff c id s = t ∧ t.thread? id = some { th with status := .waiting (.signature none) }
            ∧ Ev.signatureCompare id.blk (teamIdx id) ∈ t.agenda ∧ t.mem = s.mem ∧ t.blocks = s.blocks))
  ∧ (∀ (s : State) (blk : Nat) (ids : List Nat) (b : Block), s.block? blk = some b →
      ∃ b', (s.snap blk ids).block? blk = some b' ∧ (s.snap blk ids).mem = s.mem
        ∧ (b.valid = some false → b'.ckpt1 = some (s.imageOf b) ∧ b'.ckpt0 = b.ckpt0) ∧ (b.valid ≠ some false → b'.ckpt0 = some (s.imageOf b) ∧ b'.ckpt1 = b.ckpt1)
        ∧ (ids = [] → b'.valid = some (b.valid == some false) ∧ b'.relaunches = 0 ∧ b'.mismatch = false)
        ∧ (ids ≠ [] → b'.valid = b.valid ∧ ∃ l, b'.opening = some (b.valid == some false, ids ++ l)))
  ∧ (∀ (s : State) (blk : Nat) (b : Block), s.block? blk = some b → b.shape.red = false → b.preempt = false → s.allCommit blk = true → b.releasing = [] → s.cmtOpen blk = false →
      s.busy blk = false → b.arrayBusy = false → s.sigsOpen blk = false → b.rolling = false → s.ckptOk b = true →
        ∃ b', (s.commitCheck blk).block? blk = some b' ∧ b'.releasing = b.sbuf ∧ b'.sbuf = [] ∧ b'.valid = some (b.valid == some false)
          ∧ Ev.commitStoreRelease blk ∈ (s.commitCheck blk).agenda
          ∧ ∀ id th, id.blk = blk → s.thread? id = some th → ∀ g p r, th.status = .waiting (.commit g p r) →
              ∃ th', (s.commitCheck blk).thread? id = some th' ∧ th'.status = .ready ∧ th'.pc = th.pc + BitVec.ofNat 32 th.wlen ∧ th'.g = th.g)

namespace Sys2Proof
open Machine

/-- The first and the second operand of an atomic in operand B (R286). -/
def atomOperand (y : Sparse 32) (t : Thread) (b : Src) (wide : Bool) (k : Nat) : DWord :=
  if wide then bvalAt y t (2 * k + 1) b ++ bvalAt y t (2 * k) b else (bvalAt y t k b).setWidth 64
def opBits (wide : Bool) : Nat := if wide then 64 else 32
/-- An access through a view whose index entries are not all where they can be read yet (R108). -/
def indexOpen (s : State) (t : Thread) (va : DWord) (n : Nat) : Bool := isView va && !(s.viewIdx t.id va n).isEmpty
end Sys2Proof

/-- R285 to R289 and Table 12.6: the atomics and the reductions: what their words check and send, the request of one thread, and the function of each. -/
def Obligations.AtomicsAndReductions : Prop :=
  (∀ (q : PReg) (x : AtomArgs) (op : AtomOp) (i : Instr),
    (i, op) ∈ [(Instr.atomExch q x, AtomOp.exch), (.atomCas q x, .cas), (.atomAdd q x, .add), (.atomAnd q x, .and), (.atomOr q x, .or), (.atomXor q x, .xor),
      (.atomMinI q x, .minI), (.atomMinN q x, .minN), (.atomMaxI q x, .maxI), (.atomMaxN q x, .maxN), (.atomFadd q x, .fadd), (.atomInc q x, .inc),
      (.atomDec q x, .dec)] →
      IrrevDoes i (fun s _ t => s.atomStall t (memVa x.mem t) (opBits x.wide / 8) false || indexOpen s t (memVa x.mem t) (opBits x.wide / 8))
        (fun s0 ids => atomChk x.mem (opBits x.wide / 8) .atomic (s0.atomReports ids x.mem (opBits x.wide / 8) .atomic))
        (atomSig x.mem x.b x.wide (if op == .cas then 2 else 1))
        (fun s0 ids => atomSend op x.scope x.ord x.wide x.d x.mem x.b false s0.nextId (s0.atomReports ids x.mem (opBits x.wide / 8) .atomic)))
  ∧ (∀ (q : PReg) (x : RedArgs) (op : AtomOp) (i : Instr),
    (i, op) ∈ [(Instr.redAdd q x, AtomOp.add), (.redAnd q x, .and), (.redOr q x, .or), (.redXor q x, .xor), (.redMinI q x, .minI), (.redMinN q x, .minN),
      (.redMaxI q x, .maxI), (.redMaxN q x, .maxN), (.redFadd q x, .fadd)] →
      IrrevDoes i (fun s _ t => s.atomStall t (memVa x.mem t) (opBits x.wide / 8) true || indexOpen s t (memVa x.mem t) (opBits x.wide / 8))
        (fun s0 ids => atomChk x.mem (opBits x.wide / 8) .write (s0.atomReports ids x.mem (opBits x.wide / 8) .write)) (atomSig x.mem x.b x.wide 1)
        (fun s0 ids c id s => atomSend op x.scope .relaxed x.wide 0 x.mem x.b true s0.nextId (s0.atomReports ids x.mem (opBits x.wide / 8) .write) c id
          (match s.thread? id with | some t => s.setFlags id (redFlags op x s t) | none => s)))
  ∧ (∀ (op : AtomOp) (sc : Scope) (ord : Ord) (wide red : Bool) (d : GReg) (m : MemOp) (src : Src) (word : Nat) (reps : ThreadId → List Denial) (c : Str)
      (id : ThreadId) (s s' t : State) (th : Thread) (loc : Loc) (key : BitVec 9) (ds : List Denial),
      s.thread? id = some th → th.pend = [] → s.isRed id.blk = false → reps id = [] → t = atomSend op sc ord wide d m src red word reps c id s →
      s.atomPlace id (th.gr64 m.base + m.off.signExtend 64) (opBits wide / 8) (if red then .write else .atomic) = (s', ds, .ok (loc, key)) →
        t.mem = s.mem
        ∧ (red = false → t.thread? id = some { th with hold := th.hold ++ (if wide then [d, d + 1] else [d]), ld := th.ld + 1 }
            ∧ ∃ a, t.atoms = s.atoms ++ [a] ∧ a.th = id ∧ a.op = op ∧ a.wide = wide ∧ a.loc = loc ∧ a.key = key ∧ a.dst = d ∧ a.red = false
              ∧ a.b = atomOperand (s.yOf id) th src wide 0 ∧ a.c = (if op = .cas then atomOperand (s.yOf id) th src wide 1 else 0)
              ∧ a.acq = (if ord = .acq ∨ ord = .acqrel then some sc else none)
              ∧ (ord = .relaxed ∨ ord = .acq → Ev.atomicAtHome a.id ∈ t.agenda)
              ∧ (ord = .rel ∨ ord = .acqrel → ∃ r ∈ t.rels, r.th = id ∧ r.scope = sc ∧ r.after = some (.atomicAtHome a.id)))
        ∧ (red = true → ord = .relaxed → t.thread? id = some { th with st := th.st + 1 }
            ∧ ((∃ pa, loc = .mem pa) → isView (th.gr64 m.base + m.off.signExtend 64) = false → t.atoms = s.atoms
                ∧ ∃ u, t.upd = s.upd ++ [u] ∧ u.th = id ∧ u.op = op ∧ u.wide = wide ∧ loc = .mem u.pa ∧ u.val = atomOperand (s.yOf id) th src wide 0)
            ∧ ((∃ b o, loc = .scr b o) ∨ isView (th.gr64 m.base + m.off.signExtend 64) = true → t.upd = s.upd
                ∧ ∃ a, t.atoms = s.atoms ++ [a] ∧ a.op = op ∧ a.loc = loc ∧ a.red = true ∧ Ev.atomicAtHome a.id ∈ t.agenda)))
  ∧ ∀ (wide : Bool) (m b c : Nat), m < 2 ^ opBits wide → b < 2 ^ opBits wide → c < 2 ^ opBits wide →
      (∀ op f, (op, f) ∈ [(AtomOp.exch, b), (.add, (m + b) % 2 ^ opBits wide), (.and, m &&& b), (.or, m ||| b), (.xor, m ^^^ b), (.minN, min m b), (.maxN, max m b),
          (.minI, if (BitVec.ofNat (opBits wide) m).toInt ≤ (BitVec.ofNat (opBits wide) b).toInt then m else b),
          (.maxI, if (BitVec.ofNat (opBits wide) m).toInt < (BitVec.ofNat (opBits wide) b).toInt then b else m),
          (.inc, if b ≤ m then 0 else m + 1), (.dec, if m = 0 ∨ b < m then b else m - 1)] → atomFn op wide m b c = (some f, 0))
      ∧ atomFn .cas wide m b c = (if m = b then some c else none, 0)
      ∧ atomFn .fadd wide m b c = (some (fpAdd (if wide then f64 else f32) .rne m b).bits, (fpAdd (if wide then f64 else f32) .rne m b).fl)

namespace Sys2Proof
open Machine

/-- The record that a thread waits for. -/
def WaitsFor (t : State) (id : ThreadId) (st : Nat → TStatus) (sc : Scope) : Prop :=
  ∃ th' r, t.thread? id = some th' ∧ r ∈ t.rels ∧ r.th = id ∧ r.scope = sc ∧ th'.status = st r.id ∧ Ev.releaseComplete r.id ∈ t.agenda
/-- The string goes past its word and is held there behind a record. -/
def HeldBehind (t : State) (c : Str) (i : Instr) (n : Nat) : Prop :=
  ∃ c', t.strings.head? = some c' ∧ c'.pc = c.pc + BitVec.ofNat 32 (4 * wordLen i) ∧ n ∈ c'.hold
end Sys2Proof

/-- R29 to R31, R80, R81, R290, R291: a fence is a release and then an acquire of its scope, behind which the next word issues; a barrier a release, then
the arrival; `bar.blk` completes when every thread of its block has arrived or exited. `bar.grid` is illegal in a launch that is not co-resident. -/
def Obligations.FenceAndBarriers : Prop :=
  (∀ (q : PReg) (sc : Scope) (s : State) (c : Str) (rest : List Str), AtWord s c rest (.fence q sc) →
      NoStall s c (.fence q sc) (fun s _ t => s.orderStall t) →
        ∃ t, exec (.fence q sc) s = .next t ∧ t.mem = s.mem
          ∧ (∀ id ∈ c.members, ∀ th, s.thread? id = some th → th.ready = true → t.thread? id = some (th.pass (wordLen (.fence q sc))))
          ∧ ∀ id ∈ s.actors q c, ∃ r ∈ t.rels, r.th = id ∧ r.scope = sc ∧ r.acq = some sc ∧ r.after = none ∧ Ev.releaseComplete r.id ∈ t.agenda
              ∧ HeldBehind t c (.fence q sc) r.id)
  ∧ (∀ (s : State) (c : Str) (r : Rel), r ∈ s.rels → r.id ∈ c.hold → s.mayIssue c = false)
  ∧ (∀ (q : PReg) (i : Instr) (k : BarKind), (i, k) ∈ [(Instr.barBlk q, BarKind.blk), (.barGrp q, .grp), (.barGrid q, .grid)] →
      ∀ s c rest, AtWord s c rest i → NoStall s c i (fun s _ t => s.orderStall t) →
        ∃ t, exec i s = .next t ∧ t.mem = s.mem ∧ ∀ id ∈ s.actors q c, ∀ b, s.block? id.blk = some b →
          ((k = .grid → b.shape.cores = true) → WaitsFor t id (fun n => .waiting (.barrier k (some n))) (match k with | .blk => .blk | .grp => .grp | .grid => .dev))
          ∧ (k = .grid → b.shape.cores = false → b.shape.red = false → ∃ th', t.thread? id = some th'
              ∧ th'.status = .parked { cause := .illegalOp, addr := 0, sub := 0, word := true } ∧ Ev.blockSave id.blk ∈ t.agenda))
  ∧ (∀ (s : State) (r : Rel), 
      (∀ x ∈ (s.released r).l1, ∀ sc, r.acq = some sc → sc ≠ .blk → x.core = r.core → x.dirty ≠ [])
      ∧ (∀ k th, s.thread? r.th = some th → th.status = .waiting (.barrier k (some r.id)) → s.block? r.th.blk = none →
          (s.released r).thread? r.th = some { th with status := .waiting (.barrier k none) }))
  ∧ ∀ (s : State) (b : Block), s.block? b.id = some b → (∀ x ∈ s.blocks, x.id = b.id → x = b) → b.state = .running →
      ((∀ t ∈ s.threads, t.id.blk = b.id → t.status = .exited ∨ t.status = .waiting (.barrier .blk none)) →
          (∃ t ∈ s.threads, t.id.blk = b.id ∧ t.status = .waiting (.barrier .blk none)) →
          (s.barCheck b.id .blk).threads
            = s.threads.map fun t => if t.id.blk = b.id ∧ t.status = .waiting (.barrier .blk none) then t.resume else t)
      ∧ ((∃ t ∈ s.threads, t.id.blk = b.id ∧ t.status ≠ .exited ∧ t.status ≠ .waiting (.barrier .blk none)) → s.barCheck b.id .blk = s)

namespace Sys2Proof
open Machine

/-- Eight yoke words from a multiple of eight up, the lowest first. -/
def yokeRecord (y : Sparse 32) (k : BitVec 3) : Nat := natOfBytes ((List.range 8).flatMap fun j => bytesOfNat 4 (rd y (8 * k.toNat + j)).toNat)
/-- The releases of .dev scope that a word of the threads `ids` began, behind the last of which a slot is written (R114). -/
def SlotBehind (t : State) (c : Str) (i : Instr) (ids : List ThreadId) (a d : Nat) : Prop :=
  ∃ r others, r ∈ t.rels ∧ r.slot = some (others, a, d)
    ∧ ∀ id ∈ ids, ∃ x ∈ t.rels, x.th = id ∧ x.scope = .dev ∧ Ev.releaseComplete x.id ∈ t.agenda ∧ HeldBehind t c i x.id ∧ (x.id = r.id ∨ x.id ∈ others)
end Sys2Proof

/-- R24, R99, R100, R114, R284, R387: the view words, in a string whose acting threads are of one team of an ordinary block: `view.def.g` writes the
staging half; `view.def.x` and `view.del` pass their word, with the string held behind releases of .dev scope of all acting threads, and when the last
of these completes the slot is written; `view.q` reads the slot into yoke registers; and the traps. -/
def Obligations.ViewWords : Prop :=
  (∀ (s : State) (l : ThreadId) (more : List ThreadId), (∀ id ∈ more, sameTeam l id = true) → s.teamLeads (l :: more) = [l])
  ∧ (∀ (s : State) (r : Rel) (others : List Nat) (a d : Nat), r.slot = some (others, a, d) →
      rdNat (s.released r).mem a 64 = d % 2 ^ 512 ∧ rdNat (s.released r).mem (a + 64) 32 = 0 ∧ rd (s.released r).mem (a + 96) = 0
        ∧ ∀ x, x < a ∨ a + 97 ≤ x → rd (s.released r).mem x = rd s.mem x)
  ∧ ∀ (q : PReg) (slot : BitVec 8) (k : BitVec 3) (half : Bool) (i : Instr) (s : State) (c : Str) (rest : List Str) (l : ThreadId) (more : List ThreadId)
      (desc : Nat), AtWord s c rest i → s.actors q c = l :: more → (l :: more).Nodup → (∀ id ∈ more, sameTeam l id = true) →
      (∀ id ∈ c.members, s.isCont id.blk = false) → l.wheel = false →
      i ∈ [Instr.viewDefG q slot k, .viewDefX q slot k, .viewDel q slot, .viewQ q k slot half] →
      NoStall s c i (fun s _ t => s.orderStall t || ctrFull t.ld) →
        (s.viewSlot (s.partOf l) slot.toNat = none →
          ∃ t, exec i s = .next t ∧ t.mem = s.mem ∧ ∀ id ∈ l :: more, ∃ th', t.thread? id = some th'
            ∧ th'.status = .parked { cause := .xlate, addr := 0, sub := 0, word := true })
        ∧ ∀ a, s.viewSlot (s.partOf l) slot.toNat = some a →
          (i = .viewDefG q slot k →
            ∃ t, exec i s = .next t ∧ t = { s with mem := t.mem, threads := t.threads, strings := t.strings, cycle := s.cycle + 1 }
              ∧ rdNat t.mem (a + 64) 32 = yokeRecord (s.yOf l) k ∧ rd t.mem (a + 96) = 1
              ∧ (∀ x, x < a + 64 ∨ a + 97 ≤ x → rd t.mem x = rd s.mem x)
              ∧ ∀ id ∈ l :: more, ∀ th, s.thread? id = some th → t.thread? id = some (th.pass (wordLen i)))
          ∧ (i = .viewDefX q slot k → desc = rdNat s.mem (a + 64) 32 + 2 ^ 256 * yokeRecord (s.yOf l) k →
              ((rd s.mem (a + 96)).getLsbD 0 = true → vOk desc = true →
                ∃ t, exec i s = .next t ∧ t.mem = s.mem ∧ SlotBehind t c i (l :: more) a desc
                  ∧ ∀ id ∈ l :: more, ∀ th, s.thread? id = some th → t.thread? id = some (th.pass (wordLen i)))
              ∧ (((rd s.mem (a + 96)).getLsbD 0 = false ∨ vOk desc = false) →
                ∃ t, exec i s = .next t ∧ t.mem = s.mem ∧ ∀ id ∈ l :: more, ∃ th', t.thread? id = some th'
                  ∧ th'.status = .parked { cause := .illegalOp, addr := 0, sub := 0, word := true }))
          ∧ (i = .viewDel q slot →
              ∃ t, exec i s = .next t ∧ t.mem = s.mem ∧ SlotBehind t c i (l :: more) a 0
                ∧ ∀ id ∈ l :: more, ∀ th, s.thread? id = some th → t.thread? id = some (th.pass (wordLen i)))
          ∧ (i = .viewQ q k slot half →
              ∃ t r, exec i s = .next t ∧ t.mem = s.mem ∧ r ∈ t.rets ∧ r.th = l ∧ r.lowersLd = true ∧ Ev.loadReturn r.id ∈ t.agenda
                ∧ r.youts = (List.range 8).map (fun j => (BitVec.ofNat 6 (8 * k.toNat + j),
                    BitVec.ofNat 32 (rdNat s.mem a 64 / 2 ^ ((if half then 256 else 0) + 32 * j))))
                ∧ ∀ id ∈ l :: more, ∀ th, s.thread? id = some th → t.thread? id = some ({ th with ld := th.ld + 1 }.pass (wordLen i)))

namespace Sys2Proof
open Machine

/-- What one thread's part of a word through a queue register does (R130 to R133, R281): its checks, then its effect, as an irrevocable operation where
the binding makes it one. -/
def qregPart (read : Bool) (sz : BitVec 3) (k : QReg) (sig : State → Thread → List Byte) (eff : Str → ThreadId → State → State) (c : Str)
    (id : ThreadId) (s : State) : State :=
  if qIrrev read (s.qregOf id k) then gated (qregChk read sz k) sig eff c id s
  else
    match qregChk read sz k c id s with
    | (s', some (cause, addr)) => s'.raise id c.pc cause addr 0 true
    | (s', none) => eff c id s'
/-- The scope of a queue operation: the instruction's, else the control block's (R124). -/
def queueScope (s : State) (x : QueueArgs) (pa : Nat) (key : BitVec 9) : Scope := x.scope.getD (scopeOf (qScope (s.qcbAt pa key)))
/-- The requests of a try form: each acting thread's, or each team's, and their threads. -/
def tryRequests (s : State) (x : QueueArgs) (acts : List ThreadId) : List (ThreadId × List ThreadId) :=
  if x.team then (s.teamLeads acts).map fun l => (l, acts.filter (sameTeam l)) else acts.map fun l => (l, [l])
/-- R121, R123, R124, R296: a try form of an ordinary block. The word opens once the thread's earlier accesses to the control block are performed, an
enqueue with its releases; its requests are then handed to the slice one after the other; the string passes the word when every one is accepted. -/
def tryForms : Prop :=
  ∀ (q : PReg) (x : QueueArgs) (enq : Bool) (i : Instr), (i, enq) ∈ [(Instr.enqTry q x, true), (.deqTry q x, false)] →
    ∀ s c rest, AtWord s c rest i → (∀ id ∈ c.members, s.isCont id.blk = false) →
      (c.opened = none → s.actors q c ≠ [] → (∀ id ∈ s.actors q c, s.qNotYet .atomic x.mem id = none) → NoStall s c i (fun s _ t => s.qStall t enq) →
        ∃ t c', exec i s = .next t ∧ t.mem = s.mem ∧ t.threads = s.threads ∧ t.strings.head? = some c' ∧ c'.pc = c.pc ∧ (∃ n, c'.opened = some (n, []))
          ∧ (enq = true → ∀ id ∈ s.actors q c, ∃ r ∈ t.rels, r.th = id ∧ r.id ∈ c'.hold))
      ∧ (∀ word done u, c.opened = some (word, done) → (tryRequests s x (s.actors q c)).find? (fun u => !done.contains u.1) = some u →
          exec i s = .next (tryServe enq x c word u.1 u.2 s).tick)
      ∧ ((c.opened = none ∧ s.actors q c = [] ∨ ∃ word done, c.opened = some (word, done) ∧ ∀ u ∈ tryRequests s x (s.actors q c), u.1 ∈ done) →
          ∃ t, exec i s = .next t ∧ t = { s with threads := t.threads, strings := t.strings, cycle := s.cycle + 1 }
            ∧ ∀ id ∈ c.members, ∀ th, s.thread? id = some th → th.ready = true → t.thread? id = some (th.pass (wordLen i)))
/-- One request of a try form: a check that fails traps its threads at the word; an accepted one raises their counters and holds their registers. -/
def tryRequest : Prop :=
  ∀ (enq : Bool) (x : QueueArgs) (c : Str) (word : Nat) (l : ThreadId) (ids : List ThreadId) (s : State) (th : Thread), s.thread? l = some th →
    s.isRed l.blk = false → l ∈ ids → (∀ id ∈ ids, id.blk = l.blk) → ids.Nodup → (∀ id ∈ ids, ∀ u, s.thread? id = some u → u.pend = [] ∧ u.granted = false) →
    (∀ y ∈ s.qreqs, y.id < s.nextId) →
      (∀ s1 e, s.qPlace l (th.gr64 x.mem.base + x.mem.off.signExtend 64) .atomic = (s1, .error e) →
        ∀ id ∈ ids, ∀ u, s.thread? id = some u → ∃ u', (tryServe enq x c word l ids s).thread? id = some u' ∧ u'.g = u.g
          ∧ u'.status = .parked { cause := e, addr := th.gr64 x.mem.base + x.mem.off.signExtend 64, sub := 0, word := true })
      ∧ (∀ s1 a r, s.qPlace l (th.gr64 x.mem.base + x.mem.off.signExtend 64) .atomic = (s1, .ok a) →
          r = queueMk enq true x s1 c ids (th.gr64 x.mem.base + x.mem.off.signExtend 64) a word →
          r.enq = enq ∧ r.try_ = true ∧ r.ths = ids ∧ r.es = 4 * 2 ^ x.esz.toNat ∧ r.dst = x.b ∧ r.stat = some x.d ∧ r.team = x.team
            ∧ (∀ pa, a.loc = .mem pa → r.qcbPa = pa ∧ r.scope = queueScope s x pa a.key)
            ∧ (s1.qLater r (s1.qcbAt r.qcbPa r.key) = true → tryServe enq x c word l ids s = s1.qAskLater r (s1.qcbAt r.qcbPa r.key))
            ∧ (s1.qLater r (s1.qcbAt r.qcbPa r.key) = false → qBroken (s1.qcbAt r.qcbPa r.key) = false → s1.qcbOk r.qcbPa (s1.qcbAt r.qcbPa r.key) = true →
                r.fits (s1.qcbAt r.qcbPa r.key) = true → s1.qRoom r (s1.qcbAt r.qcbPa r.key) = false →
                  (∃ r' ∈ (tryServe enq x c word l ids s).qreqs, r'.ths = ids ∧ r'.result = some (if enq then 1 else 2, []) ∧ r'.waiting = false
                    ∧ Ev.queueRequestComplete r'.id ∈ (tryServe enq x c word l ids s).agenda)
                  ∧ (tryServe enq x c word l ids s).mem = s.mem
                  ∧ ∀ id ∈ ids, ∀ u, s.thread? id = some u → (tryServe enq x c word l ids s).thread? id = some { u with
                      st := u.st + (if enq then 1 else 0), ld := u.ld + (if enq then 0 else 1), hold := u.hold ++ r.regs }))
end Sys2Proof

/-- R24, R50, R121, R124, R125, R130 to R133, R281, R295 to R298: the queue words and the queue registers. -/
def Obligations.QueueWords : Prop :=
  (∀ (q : PReg) (x : QueueArgs) (enq : Bool) (i : Instr), (i, enq) ∈ [(Instr.enq q x, true), (.deq q x, false)] →
      (x.team = false → IrrevDoes i (fun s _ t => s.qStall t enq) (fun _ _ => queueChk x) (queueSig enq x) (fun s0 _ c id s => queueSend enq x s0.nextId c id [id] s))
      ∧ (x.team = true → IrrevTeamsDo i (fun s _ t => s.qStall t enq) (queueChk x) (queueSig enq x) (fun s0 => queueSend enq x s0.nextId)))
  ∧ tryForms ∧ tryRequest
  ∧ (∀ (x : QueueArgs) (enq : Bool) (word : Nat) (c : Str) (l : ThreadId) (ids : List ThreadId) (s s1 t : State) (th : Thread) (a : Acc) (pa : Nat),
      l ∈ ids → ids.head? = some l → ids.Nodup → s.thread? l = some th → s.isRed l.blk = false → (∀ id ∈ ids, id.blk = l.blk) →
      s.qPlace l (th.gr64 x.mem.base + x.mem.off.signExtend 64) .atomic = (s1, .ok a) → a.loc = .mem pa → t = queueSend enq x word c l ids s →
        t.mem = s.mem ∧ ∃ r ∈ t.qreqs, Ev.queueRequest r.id ∈ t.agenda ∧ r.ths = ids ∧ r.enq = enq ∧ r.try_ = false ∧ r.team = x.team ∧ r.qcbPa = pa ∧ r.key = a.key
          ∧ r.qcb = th.gr64 x.mem.base + x.mem.off.signExtend 64 ∧ r.es = 4 * 2 ^ x.esz.toNat ∧ r.scope = queueScope s x pa a.key
          ∧ r.dst = x.b ∧ r.stat = some x.d ∧ r.waiting = false ∧ r.result = none
          ∧ (enq = true → ∀ j < ids.length, ∀ u, s.thread? (ids.getD j l) = some u → r.elems.getD j [] = (List.range (2 ^ x.esz.toNat)).map fun w => u.gr (x.b + BitVec.ofNat 7 w))
          ∧ ∀ id ∈ ids, ∀ u, s.thread? id = some u → u.pend = [] → ∃ u', t.thread? id = some u' ∧ u'.g = u.g ∧ u'.pc = u.pc
              ∧ u'.st = u.st + (if enq then 1 else 0) ∧ u'.ld = u.ld + (if enq then 0 else 1) ∧ u'.status = .waiting (.queue r.id)
              ∧ (enq = true → ∃ n ∈ r.rels, ∃ y ∈ t.rels, y.id = n ∧ y.th = id ∧ y.scope = r.scope))
  ∧ (∀ (q : PReg) (d : QReg) (k : BitVec 4) (y : YReg) (m : MemOp) (i : Instr) (s : State) (c : Str) (rest : List Str) (l : ThreadId) (more : List ThreadId)
      (th : Thread) (b : Block) (mm : Team), AtWord s c rest i → s.actors q c = l :: more → (∀ id ∈ more, sameTeam l id = true) → s.thread? l = some th →
      s.block? l.blk = some b → b.shape.red = false → s.teamOf l = some mm → mm.q.length = 8 → l.wheel = false →
        (∀ bind, ((i = .qbindCopy q d ∧ bind = .copy []) ∨ (i = .qunbind q d ∧ bind = .unbound)
            ∨ (i = .qbindGather q d k ∧ (rd mm.y (4 * k.toNat + 1)).toNat < 2 ^ 24 ∧ ((rd mm.y (4 * k.toNat + 3)).toNat ∈ [32, 64, 128])
                ∧ bind = .gather { base := rd mm.y (4 * k.toNat + 1) ++ rd mm.y (4 * k.toNat), stride := rd mm.y (4 * k.toNat + 2),
                                   rs := (rd mm.y (4 * k.toNat + 3)).toNat, pushes := [], cur := [], lines := [], gerr := false, seen := [] })) →
          (s.canEnd l d = true → s.regReqs l d = [] → s.unbinding c.seq (fun u => !sameTeam u l) = false →
            ∃ t, exec i s = .next t ∧ t = { s with threads := t.threads, teams := t.teams, strings := t.strings, cycle := s.cycle + 1 }
              ∧ t.qregOf l d = bind ∧ (∀ e, e ≠ d → t.qregOf l e = s.qregOf l e) ∧ ∀ id ∈ l :: more, ∀ u, s.thread? id = some u → t.thread? id = some (u.pass (wordLen i)))
          ∧ (s.canEnd l d = false →
            ∃ t, exec i s = .next t ∧ t.qregOf l d = s.qregOf l d ∧ ∀ id ∈ l :: more, ∀ u, s.thread? id = some u → StaysWith t c i u (.waiting (.unbind d bind c.seq))))
        ∧ (i = .qbindGather q d k → (2 ^ 24 ≤ (rd mm.y (4 * k.toNat + 1)).toNat ∨ (rd mm.y (4 * k.toNat + 3)).toNat ∉ [32, 64, 128]) →
            ∃ t th', exec i s = .next t ∧ t.thread? l = some th' ∧ th'.status = .parked { cause := .illegalOp, addr := 0, sub := 0, word := true }
              ∧ t.qregOf l d = s.qregOf l d)
        ∧ (∀ (s' : State) (a : Acc) (pa x : Nat), i = .qbindQueue q d m → NoStall s c i (fun s _ t => s.orderStall t) →
            (∀ id ∈ l :: more, s.qNotYet .read m id = none) →
            s.qPlace l (th.gr64 m.base + m.off.signExtend 64) .read = (s', .ok a) → a.denied = false → a.loc = .mem pa →
            x = natOfBytes ((List.range 64).map fun k => (s.ownByte l (pa + k)).getD (s.homeByte (pa + k) a.key)) →
              (s.qcbOk pa x = true → (qEs x = 4 ∨ qEs x = 8) → s.canEnd l d = true → s.regReqs l d = [] → s.unbinding c.seq (fun u => !sameTeam u l) = false →
                ∃ t, exec i s = .next t ∧ t.mem = s.mem ∧ t.qregOf l d = .queue (th.gr64 m.base + m.off.signExtend 64) (qEs x) (scopeOf (qScope x))
                  ∧ ∀ id ∈ l :: more, ∀ u, s.thread? id = some u → t.thread? id = some (u.pass (wordLen i)))
              ∧ ((s.qcbOk pa x = false ∨ (qEs x ≠ 4 ∧ qEs x ≠ 8)) →
                ∃ t th', exec i s = .next t ∧ t.thread? l = some th' ∧ th'.status = .parked { cause := .illegalOp, addr := 0, sub := 0, word := true }
                  ∧ t.qregOf l d = s.qregOf l d))
        ∧ (i = .qstat q y d →
            ∃ t m', exec i s = .next t ∧ t = { s with threads := t.threads, teams := t.teams, strings := t.strings, cycle := s.cycle + 1 } ∧ t.teamOf l = some m'
              ∧ (∀ r : YReg, rd m'.y r.toNat = if r = y then qstatWord (mm.qreg d) ((s.regReqs l d).any fun r => r.waiting || r.result.isNone) else rd mm.y r.toNat)
              ∧ (∀ g, mm.qreg d = .gather g → m'.qreg d = .gather { g with gerr := false })
              ∧ ∀ id ∈ l :: more, ∀ u, s.thread? id = some u → t.thread? id = some (u.pass (wordLen i))))
  ∧ (∀ (q : PReg) (sz : BitVec 3) (d : GReg) (k : QReg) (b : Src) (s : State) (c : Str) (rest : List Str),
      (AtWord s c rest (.ldQ q sz d k) → NoStall s c (.ldQ q sz d k) (fun s _ t => s.qStall t false) →
        ∃ u sig, u = (((s.actors q c).foldl (fun x id => qregPart true sz k sig (ldQOne sz d k s.nextId (s.actors q c)) c id x) s).advance c rest (wordLen (.ldQ q sz d k))).tick
          ∧ exec (.ldQ q sz d k) s = .next (u.snapAfter s c))
      ∧ (AtWord s c rest (.stQ q sz k b) → NoStall s c (.stQ q sz k b) (fun s _ t => s.qStall t true || ctrFull t.as) →
        ∃ u sig, u = (((s.actors q c).foldl (fun x id => qregPart false sz k sig (stQOne sz k b s.nextId) c id x) s).advance c rest (wordLen (.stQ q sz k b))).tick
          ∧ exec (.stQ q sz k b) s = .next (u.snapAfter s c)))
  ∧ ∀ (sz : BitVec 3) (d : GReg) (k : QReg) (src : Src) (word : Nat) (c : Str) (id : ThreadId) (s : State) (th : Thread) (mm : Team), s.thread? id = some th →
      s.teamOf id = some mm → mm.q.length = 8 → s.isRed id.blk = false → th.pend = [] →
        (∀ read, s.qregOf id k = .unbound → qregChk read sz k c id s = (s, some (.illegalOp, 0)))
        ∧ (∀ n st sc more, s.qregOf id k = .copy ({ id := n, status := some st, scope := sc } :: more) → sz = 2 →
            qregChk true sz k c id s = (s, none) ∧ (ldQOne sz d k word [id] c id s).qregOf id k = .copy more
            ∧ ∃ th', (ldQOne sz d k word [id] c id s).thread? id = some th' ∧ th'.gr d = st ∧ (∀ r, r ≠ d → th'.gr r = th.gr r) ∧ th'.status = th.status)
        ∧ (∀ n sc more, s.qregOf id k = .copy ({ id := n, status := none, scope := sc } :: more) ∨ s.qregOf id k = .copy [] →
            ldQOne sz d k word [id] c id s = s.modThread id fun t => { t with status := .waiting (.qreg k true) })
        ∧ (∀ g line more, s.qregOf id k = .gather g → g.lines = line :: more → sz = 2 →
            ∃ r, (ldQOne sz d k word [id] c id s).rets = s.rets ++ [r] ∧ r.th = id
              ∧ r.outs = [(d, BitVec.ofNat 32 (natOfBytes ((line.drop (4 * (id.tid % 128 % 32))).take 4)))]
              ∧ (ldQOne sz d k word [id] c id s).thread? id = some { th with hold := th.hold ++ [d], ld := th.ld + 1 })
        ∧ (∀ g, s.qregOf id k = .gather g → g.lines = [] →
            ldQOne sz d k word [id] c id s = s.modThread id fun t => { t with status := .waiting (.qreg k true) })
        ∧ (∀ va es sc s1 a pa, s.qregOf id k = .queue va es sc → s.qPlace id va .atomic = (s1, .ok a) → a.loc = .mem pa →
            (∃ r ∈ (ldQOne sz d k word [id] c id s).qreqs, r.ths = [id] ∧ r.enq = false ∧ r.try_ = false ∧ r.qreg = some k ∧ r.stat = none ∧ r.dst = d
                ∧ r.es = es ∧ r.scope = sc ∧ r.qcbPa = pa ∧ Ev.queueRequest r.id ∈ (ldQOne sz d k word [id] c id s).agenda
                ∧ ∃ th', (ldQOne sz d k word [id] c id s).thread? id = some th' ∧ th'.status = .waiting (.queue r.id) ∧ th'.ld = th.ld + 1)
            ∧ ∃ r ∈ (stQOne sz k src word c id s).qreqs, r.ths = [id] ∧ r.enq = true ∧ r.try_ = false ∧ r.qreg = some k ∧ r.stat = none
                ∧ r.elems = [pairWords (s.yOf id) th src (szRegs sz)] ∧ r.es = es ∧ r.scope = sc ∧ r.qcbPa = pa
                ∧ Ev.queueRequest r.id ∈ (stQOne sz k src word c id s).agenda
                ∧ ∃ th', (stQOne sz k src word c id s).thread? id = some th' ∧ th'.status = .waiting (.queue r.id) ∧ th'.st = th.st + 1)
        ∧ (∀ g, s.qregOf id k = .gather g → g.pushes.length < 256 → (pairWords (s.yOf id) th src (szRegs sz)).headD 0 ≠ 0xffffffff →
            ∃ r ∈ (stQOne sz k src word c id s).rels, ∃ n, r.th = id ∧ r.scope = .dev ∧ r.after = some (.gatherRowReturn n)
              ∧ (stQOne sz k src word c id s).thread? id = some { th with st := th.st + 1 })
        ∧ (∀ g, s.qregOf id k = .gather g → 256 ≤ g.pushes.length →
            stQOne sz k src word c id s = s.modThread id fun t => { t with status := .waiting (.qreg k false) })
        ∧ (∀ subs, s.qregOf id k = .copy subs →
            ∃ x, (stQOne sz k src word c id s).copies = s.copies ++ [x] ∧ x.th = id ∧ x.cmd = ((pairWords (s.yOf id) th src (szRegs sz)).getD 1 0 ++ (pairWords (s.yOf id) th src (szRegs sz)).getD 0 0 : DWord)
              ∧ x.unread = true ∧ (stQOne sz k src word c id s).qregOf id k = .copy (subs ++ [{ id := x.id, status := none, scope := .sys }])
              ∧ (∃ th', (stQOne sz k src word c id s).thread? id = some th' ∧ th'.as = th.as + 1 ∧ th'.status = th.status)
              ∧ ∃ r ∈ (stQOne sz k src word c id s).rels, r.th = id ∧ r.scope = .sys ∧ r.after = some (.copyCommandRead x.id))


/-- R91, R115, R134 to R139, R321 to R326, Tables 5.5, 5.7, 13.8: the words of the copy engines and of the relay: their checks, what one thread sends,
and the status register of a copy, which `ftest` reads and `fcancel` leaves to the engine. -/
def Obligations.CopyAndRelayWords : Prop :=
  (∀ (q : PReg) (x : CopyArgs) (mask : GReg),
    IrrevDoes (.copy q x) (fun s c t => s.copyStall c t x || coordsHeld s t x) (fun _ _ => copyChk x none) (copySig x none) (fun _ _ => copySend x none)
    ∧ IrrevDoes (.copyMc q x mask) (fun s c t => s.copyStall c t x || coordsHeld s t x) (fun _ _ => copyChk x (some mask)) (copySig x (some mask))
        (fun _ _ => copySend x (some mask)))
  ∧ (∀ (x : CopyArgs) (mask : Option GReg) (c : Str) (id : ThreadId) (s : State) (th : Thread) (b : Block) (i : CopyIn) (l : Layout), s.thread? id = some th →
      s.block? id.blk = some b → i = copyIn (s.yOf id) th x mask → l = parseLayout i.lrec →
        (copyChk x mask c id s).1 = s
        ∧ (spansExist b.shape.gregs [(x.a.toNat, l.rank)] = false ∨ layoutBad i.lrec = true → copyChk x mask c id s = (s, some (.illegalOp, 0)))
        ∧ (spansExist b.shape.gregs [(x.a.toNat, l.rank)] = true → layoutBad i.lrec = false → mask = none →
            (s.copyPlace id i = none → copyChk x mask c id s = (s, some (.xlate, th.gr64 x.b)))
            ∧ (s.copyPlace id i ≠ none → copyChk x mask c id s = (s, none)))
        ∧ (∀ r, spansExist b.shape.gregs [(x.a.toNat, l.rank)] = true → layoutBad i.lrec = false → mask = some r →
            ((l.toGlobal = true ∨ (th.gr64 x.b).toNat / 2 ^ 48 ≠ 0x0100 ∨ 256 ≤ (th.gr r).toNat) → copyChk x mask c id s = (s, some (.illegalOp, 0)))
            ∧ (l.toGlobal = false → (th.gr64 x.b).toNat / 2 ^ 48 = 0x0100 → (th.gr r).toNat < 256 → (∃ k < 8, (th.gr r).getLsbD k = true ∧ b.shape.gsize < k) →
                copyChk x mask c id s = (s, some (.mcastMask, 0)))))
  ∧ (∀ (x : CopyArgs) (mask : Option GReg) (c : Str) (id : ThreadId) (s t : State) (th : Thread) (b : Block) (i : CopyIn), s.thread? id = some th → th.pend = [] →
      s.block? id.blk = some b → b.shape.red = false → i = copyIn (s.yOf id) th x mask → t = copySend x mask c id s →
      s.enginesFree (b.core / 144) (parseLayout i.lrec).cls ≠ [] →
        t.thread? id = some { th with hold := th.hold ++ [x.d], as := th.as + 1 } ∧ t.mem = s.mem
        ∧ ∃ y e r, y ∈ t.copies ∧ y.th = id ∧ y.dst = some x.d ∧ y.die = b.core / 144 ∧ y.part = b.part ∧ y.principal = b.principal
          ∧ y.lay = parseLayout i.lrec ∧ y.coords = i.coords ∧ y.succ = i.succ ∧ y.done = 0 ∧ y.cancelled = false ∧ y.unread = false
          ∧ y.engine = some e ∧ e ∈ s.enginesFree (b.core / 144) (parseLayout i.lrec).cls
          ∧ r ∈ t.rels ∧ r.id = y.rel ∧ r.th = id ∧ r.scope = scopeOf (parseLayout i.lrec).scope
          ∧ (if y.total = 0 then Ev.copyComplete y.id ∈ t.agenda else Ev.copyChunk y.die e ∈ t.agenda))
  ∧ (∀ (q : PReg) (d a : GReg) (i : Instr), i = .ftest q d a →
      EachDoes i (fun s _ t => s.acqPending t.id || s.lvFull t.id || (t.hold.contains a && (s.copyOf t.id a).isNone && !s.isWheel t.id)) (ftestOne i d a)
      ∧ ∀ (c : Str) (id : ThreadId) (s : State) (th : Thread), s.thread? id = some th → c.sched = false → s.isRed id.blk = false → s.inj.getLsbD 0 = false →
          ∃ th', (ftestOne i d a c id s).thread? id = some th' ∧ (ftestOne i d a c id s).mem = s.mem ∧ th'.status = th.status
            ∧ Written th th' (out1 d (match s.copyOf id a with | some y => y.status 1 | none => th.gr a)))
  ∧ (∀ (q : PReg) (a : GReg), EachDoes (.fcancel q a) noStall (fcancelOne a)
      ∧ ∀ (c : Str) (id : ThreadId) (s : State), s.isRed id.blk = false →
          (s.copyOf id a = none → fcancelOne a c id s = s)
          ∧ ∀ y, s.copyOf id a = some y →
              (y.total ≤ y.done ∨ y.cancelled = true → fcancelOne a c id s = s)
              ∧ (y.done < y.total → y.cancelled = false → ∃ t, fcancelOne a c id s = t ∧ Ev.copyComplete y.id ∈ t.agenda ∧ { y with cancelled := true } ∈ t.copies
                  ∧ t.threads = s.threads ∧ t.mem = s.mem))
  ∧ (∀ (q : PReg) (d a : GReg) (m : MemOp),
      IrrevDoes (.relay q d m) (fun s _ t => s.orderStall t || ctrFull t.as || s.lvFull t.id || s.sigPending t.id) (fun _ _ => relayChk m)
        (fun _ t => bytesOfNat 8 (memVa m t).toNat) (fun _ _ => relaySend d m)
      ∧ IrrevDoes (.join q a) (fun s _ t => s.orderStall t || ctrFull t.as || s.sigPending t.id) (fun _ _ => noCheck) (fun _ t => bytesOfNat 8 (t.gr64 a).toNat)
        (fun _ _ => joinSend a))
  ∧ ∀ (d a : GReg) (m : MemOp) (c : Str) (id : ThreadId) (s : State) (th : Thread) (b : Block), s.thread? id = some th → th.pend = [] → s.block? id.blk = some b →
      b.shape.red = false →
        (∀ s' e, s.access id (th.gr64 m.base + m.off.signExtend 64) 64 .read = (s', .error e) → relayChk m c id s = (s', some (e, th.gr64 m.base + m.off.signExtend 64)))
        ∧ (∀ s' acc t, s.access id (th.gr64 m.base + m.off.signExtend 64) 64 .read = (s', .ok acc) → acc.denied = false → t = relaySend d m c id s →
            t.thread? id = some { th with hold := th.hold ++ [d, d + 1], as := th.as + 1 } ∧ t.mem = s.mem ∧ t.records = s.records
            ∧ ∃ y r, t.relays = s.relays ++ [y] ∧ y.th = id ∧ y.loc = acc.loc ∧ y.key = acc.key ∧ y.dst = d ∧ y.join = none ∧ y.launch = b.launch
              ∧ y.prio = b.prio ∧ y.principal = b.principal ∧ r ∈ t.rels ∧ r.th = id ∧ r.scope = .dev ∧ r.after = some (.relayPost y.id))
        ∧ ∃ t y r, joinSend a c id s = t ∧ t.thread? id = some { th with as := th.as + 1 } ∧ t.mem = s.mem ∧ t.records = s.records ∧ t.relays = s.relays ++ [y]
            ∧ y.th = id ∧ y.join = some (th.gr64 a) ∧ r ∈ t.rels ∧ r.id = y.rel ∧ r.scope = .dev ∧ r.after = some (.joinDecrement b.part (th.gr64 a))

/-! ## Device steps of the memory system (files 03, 04, 08, 20) -/

namespace Sys2Proof
open Machine

/-- A device step is performed: it answers a next state, of which something holds. -/
def Goes (i : Instr) (s : State) (P : State → Prop) : Prop := ∃ t, exec i s = .next t ∧ P t
/-- Bytes stand at their homes under a key. -/
def AtHomes (t : State) (cells : List Host.Cell) (key : BitVec 9) : Prop := ∀ c ∈ cells, t.homeByte c.1 key = c.2
/-- Memory outside the sectors of some bytes is as before. -/
def OtherMem (s t : State) (cells : List Host.Cell) : Prop := ∀ a, (∀ c ∈ cells, c.1 / 32 ≠ a / 32) → rd t.mem a = rd s.mem a
/-- The bytes of a load as it reads them: at the home, but for a plain load where the reader's die holds a copy of the line (R77, R82, R105). -/
def readBytes (s : State) (l : Load) : List Byte :=
  l.bytes.map fun b => match b with
    | .val v => v
    | .at pa k =>
      match if l.view then none else s.guest? l.core pa k with
      | some g => g.data.getD (pa % 128) 0
      | none => s.homeByte pa k
/-- No dirty byte of the core's L1 lies over what a refill reads (R81). -/
def NoneDirty (s : State) (l : Load) : Prop := ∀ p ∈ l.open, ∀ x, s.l1Byte l.core p.1 = some x → l.fill = false ∨ x.dirty = []

end Sys2Proof

/-- R71, R77, R79, R83, R87, R105, R201, R215, R216, R249, R332: loads are served at L2 or where views are composed, once nothing is under way there,
remote ones by their home; the values of one word come back to the registers of a team together, which are held no longer, and in a redundant block
to the load-value queue. -/
def Obligations.LoadsServed : Prop :=
  (∀ (id : Nat) (i : Instr) (s : State) (l : Load), i = .l2ReadRequest id ∨ i = .viewLineCompose id → s.loads.find? (fun x => x.id == id) = some l →
    s.upsets = [] →
      (((l.view = true ∧ ∃ p ∈ l.open, s.homeBusy p.1 1 = true) ∨ ∃ p ∈ l.open, s.l2Waits l.core p.1 p.2 = true) → Goes i s fun t => t.loads = s.loads ∧ t.rets = s.rets ∧ t.mem = s.mem
          ∧ (Ev.l2ReadRequest id ∈ t.agenda ∨ Ev.viewLineCompose id ∈ t.agenda))
      ∧ ((∀ p ∈ l.open, (l.view = true → s.homeBusy p.1 1 = false) ∧ s.l2Waits l.core p.1 p.2 = false) → (∃ p ∈ l.open, s.isRemote p.1 = true) →
          Goes i s fun t => t.loads = s.loads ∧ t.mem = s.mem
            ∧ ∃ r, t.remotes = s.remotes ++ [r] ∧ r.load = some id ∧ r.write = false ∧ Ev.remoteAccess r.id ∈ t.agenda)
      ∧ ((∀ p ∈ l.open, (l.view = true → s.homeBusy p.1 1 = false) ∧ s.l2Waits l.core p.1 p.2 = false ∧ s.isRemote p.1 = false) → NoneDirty s l →
          Goes i s fun t => t.loads = s.loads.filter (fun x => x.id != id) ∧ t.mem = s.mem
            ∧ ∃ r, t.rets = s.rets ++ [r] ∧ r.th = l.th ∧ r.outs = loadOuts l.dst l.size l.sx (readBytes s l) ∧ r.lowersLd = true ∧ r.word = some l.word
              ∧ r.poisoned = (l.bad || l.open.any fun p => s.isPoison p.1) ∧ Ev.loadReturn r.id ∈ t.agenda))
  ∧ (∀ (id : Nat) (s : State) (r : Remote), s.remotes.find? (fun x => x.id == id) = some r → s.upsets = [] →
      (∀ k l, r.load = some k → s.loads.find? (fun x => x.id == k) = some l → NoneDirty s l →
        Goes (.remoteAccess id) s fun t => t.mem = s.mem ∧ t.remotes = s.remotes.filter (fun x => x.id != id)
          ∧ ∃ y, t.rets = s.rets ++ [y] ∧ y.th = l.th ∧ y.outs = loadOuts l.dst l.size l.sx (readBytes s l))
      ∧ (∀ w, r.load = none → s.wbs.find? (fun x => x.id == id) = some w → (w.cells.map (·.1)).Nodup →
        Goes (.remoteAccess id) s fun t => AtHomes t w.cells w.key ∧ OtherMem s t w.cells ∧ t.wbs = s.wbs.filter (fun x => x.id != id)))
  ∧ (∀ (id : Nat) (s : State) (r : Ret), s.rets.find? (fun x => x.id == id && x.toReg) = some r →
      (s.retWaits r = true → exec (.loadReturn id) s = .next { s with agenda := s.agenda ++ [.loadReturn id], cycle := s.cycle + 1 })
      ∧ (s.retWaits r = false → exec (.loadReturn id) s = .next ((s.retsWith r).foldl returnOne s).tick)
      ∧ (∀ w, r.word = some w → (s.retWaits r = true ↔ (∃ l ∈ s.loads, l.word = w ∧ sameTeam l.th r.th = true)
            ∨ ∃ a ∈ s.atoms, a.word = w ∧ a.red = false ∧ sameTeam a.th r.th = true)
          ∧ ∀ k, k ∈ s.retsWith r ↔ ∃ x ∈ s.rets, x.id = k ∧ x.toReg = true ∧ x.word = some w ∧ sameTeam x.th r.th = true)
      ∧ (r.word = none → s.retWaits r = false ∧ s.retsWith r = [id]))
  ∧ (∀ (id : Nat) (s : State) (r : Ret) (th : Thread), s.rets.find? (fun x => x.id == id) = some r → s.thread? r.th = some th → r.poisoned = false →
      (r.th.wheel = false ∨ s.inj.getLsbD 0 = false) → (∀ o ∈ r.outs, o.1 ∈ th.hold) →
        ∃ t, returnOne s id = t ∧ t.mem = s.mem ∧ t.agenda = s.agenda
          ∧ (r.toQueue = false → t.rets = s.rets.filter (fun x => x.id != id))
          ∧ ∃ th', t.thread? r.th = some th' ∧ th'.pc = th.pc ∧ th'.status = th.status ∧ th'.p = th.p
            ∧ th'.hold = (r.outs.map (·.1)).foldl (fun h x => h.erase x) th.hold ∧ th'.ld = (if r.lowersLd then th.ld - 1 else th.ld)
            ∧ (th.status ≠ .exited → ∀ x, th'.gr x = (lastOf r.outs x).getD (th.gr x)) ∧ (th.status = .exited → th'.g = th.g))
  ∧ ∀ (id : Nat) (s : State) (r : Ret) (m : Team) (e : LvEntry) (v : LvVal), s.rets.find? (fun x => x.id == id) = some r → s.isRed r.th.blk = true →
      r.th.wheel = false → s.team? r.th.blk false (teamIdx r.th) = some m → m.lvq.find? (fun e => e.vals.any fun v => v.tid == r.th.tid) = some e →
      e.vals.find? (fun v => v.tid == r.th.tid) = some v → v.src = r.src → v.val = none →
      (∀ w ∈ e.vals, (w.tid = v.tid ∧ w.src = v.src) ∨ w.val.isSome = true) →
        Goes (.loadValueEntry id) s fun t => t.lvPeek r.th = some (r.outs.map (·.2) ++ r.youts.map (·.2) ++ [r.fl.setWidth 32])
          ∧ t.threads = s.threads ∧ t.mem = s.mem

/-- R72, R73, R80, R82 to R90, R94, R215, R282, R286: stores are accepted, releases complete when what they wait for is done, write-backs are merged
at their homes and exposed once every sharer has dropped its copy, caches and directories give up lines, atomics and reductions are one
read-modify-write at the home, the host reads and writes memory. -/
def Obligations.CoherenceSteps : Prop :=
  (∀ (id : Nat) (s : State) (x : StAcc) (th : Thread), s.staccs.find? (fun y => y.id == id) = some x → s.thread? x.th = some th →
    Goes (.storeAccept id) s fun t => t = { s with threads := t.threads, blocks := t.blocks, staccs := s.staccs.filter (fun y => y.id != id), cycle := s.cycle + 1 }
      ∧ t.thread? x.th = some { th with st := th.st - 1 } ∧ ∀ k, k ≠ x.th → t.thread? k = s.thread? k)
  ∧ (∀ (id : Nat) (s : State) (r : Rel), s.rels.find? (fun y => y.id == id) = some r →
      (s.relDone r = false → Goes (.releaseComplete id) s fun t => t = { s with agenda := s.agenda ++ [.releaseComplete id], cycle := s.cycle + 1 })
      ∧ (s.relDone r = true → r.cells = [] → Goes (.releaseComplete id) s fun t => (r.slot = none → t.mem = s.mem) ∧ (∀ e, r.after = some e → e ∈ t.agenda)
          ∧ t.rels = s.rels.filter (fun y => y.id != id))
      ∧ (∀ mem key tag, s.relDone r = true → r.cells = mem.map (fun c => { loc := .mem c.1, val := c.2, key := key, tag := tag }) → r.after = none → r.slot = none →
          (mem.map (·.1)).Nodup →
          s.dir = [] → (∀ c ∈ mem, s.homeBusy c.1 1 = false) → (∀ th, s.thread? r.th = some th → th.status = .ready) →
          Goes (.releaseComplete id) s fun t => AtHomes t mem key ∧ OtherMem s t mem ∧ t.rels = s.rels.filter (fun y => y.id != id)))
  ∧ (∀ (id : Nat) (s : State) (w : WB), s.wbs.find? (fun y => y.id == id) = some w → s.wbBehind w = false → s.wbUpd w = false →
      (w.atL2 = false → Goes (.writeBack id) s fun t =>
        t = { s with wbs := s.wbs.map (fun y => if y.id == id then { y with atL2 := true } else y), agenda := s.agenda ++ [.writeBack id], cycle := s.cycle + 1 })
      ∧ (w.atL2 = true → (∀ c ∈ w.cells, s.isRemote c.1 = false ∧ s.needsDiscovery (lineOf c.1) = false) →
        (s.sharers w.core w.cells = [] → (w.cells.map (·.1)).Nodup →
          Goes (.writeBack id) s fun t => AtHomes t w.cells w.key ∧ OtherMem s t w.cells ∧ t.wbs = s.wbs.filter (fun y => y.id != id))
        ∧ (∀ as, s.sharers w.core w.cells = as → as ≠ [] → (∀ m ∈ s.merges, m.wb.id ≠ w.id) →
          Goes (.writeBack id) s fun t => t.wbs = s.wbs.filter (fun y => y.id != id) ∧ (∀ a ∈ as, Ev.invalidation w.id a ∈ t.agenda)
            ∧ (w.dom = true ∨ (∃ a ∈ as, s.atHomePkg w a = true) → t.mem = s.mem ∧ t.merges = s.merges ++ [{ wb := w, waits := as, exposed := false }])
            ∧ (w.dom = false → (∀ a ∈ as, s.atHomePkg w a = false) → (w.cells.map (·.1)).Nodup →
                AtHomes t w.cells w.key ∧ OtherMem s t w.cells ∧ t.merges = s.merges ++ [{ wb := w, waits := as, exposed := true }]))))
  ∧ (∀ (id agent : Nat) (s : State) (m : Merge), s.merges.find? (fun y => y.wb.id == id) = some m →
      Goes (.invalidation id agent) s (fun t => t = { s with guests := t.guests, agenda := s.agenda ++ [.invalidationAck id agent], cycle := s.cycle + 1 }
        ∧ ∀ g, g ∈ t.guests ↔ g ∈ s.guests ∧ ¬ (g.agent = agent ∧ ∃ c ∈ m.wb.cells, lineOf c.1 = g.line))
      ∧ ((∀ x ∈ s.merges, x.wb.id = id → x = m) → m.waits.erase agent ≠ [] →
          m.exposed = true ∨ m.wb.dom = true ∨ (∃ a ∈ m.waits.erase agent, s.atHomePkg m.wb a = true) → Goes (.invalidationAck id agent) s fun t => t.mem = s.mem
            ∧ t.merges = s.merges.map (fun x => if x.wb.id == id then { x with waits := m.waits.erase agent } else x))
      ∧ ((∀ x ∈ s.merges, x.wb.id = id → x = m) → m.waits.erase agent ≠ [] → m.exposed = false → m.wb.dom = false →
          (∀ a ∈ m.waits.erase agent, s.atHomePkg m.wb a = false) → (m.wb.cells.map (·.1)).Nodup → Goes (.invalidationAck id agent) s fun t =>
            AtHomes t m.wb.cells m.wb.key ∧ OtherMem s t m.wb.cells
            ∧ t.merges = s.merges.map (fun x => if x.wb.id == id then { x with waits := m.waits.erase agent, exposed := true } else x))
      ∧ ((∀ x ∈ s.merges, x.wb.id = id → x = m) → m.waits.erase agent = [] → (m.wb.cells.map (·.1)).Nodup → Goes (.invalidationAck id agent) s fun t =>
          (m.exposed = false → AtHomes t m.wb.cells m.wb.key ∧ OtherMem s t m.wb.cells) ∧ (m.exposed = true → t.mem = s.mem)
          ∧ (m.wb.nt = true → Ev.ntStoreAck m.wb.id ∈ t.agenda) ∧ (m.wb.nt = false → ∀ x ∈ t.merges, x.wb.id ≠ id)))
  ∧ (∀ (core line : Nat) (s : State), Goes (.l1Eviction core line) s fun t => t.mem = s.mem ∧ (∀ b ∈ t.l1, ¬ (b.core = core ∧ lineOf b.pa = line))
      ∧ (∀ b ∈ s.l1, ¬ (b.core = core ∧ lineOf b.pa = line) → b ∈ t.l1)
      ∧ ∀ b ∈ s.l1, b.core = core → lineOf b.pa = line → b.dirty ≠ [] → ∃ w ∈ t.wbs, w.core = core ∧ (b.pa, b.val) ∈ w.cells ∧ Ev.writeBack w.id ∈ t.agenda)
  ∧ (∀ (agent line : Nat) (s : State) (d : DirEntry),
      Goes (.evictionNotice agent line) s (fun t => t.mem = s.mem ∧ (∀ g, g ∈ t.guests ↔ g ∈ s.guests ∧ ¬ (g.agent = agent ∧ g.line = line))
        ∧ (s.dirEntry? line = some d → d.coarse = false → ∀ d', t.dirEntry? line = some d' → d'.ptrs = d.ptrs.filter (· != agent)))
      ∧ Goes (.directoryDrop line) s (fun t => t.mem = s.mem ∧ t.dirEntry? line = none
        ∧ (s.dirEntry? line = some d → d.coarse = false → d.ptrs.length = 1 → t.guests = s.guests)
        ∧ (s.dirEntry? line = some d → d.coarse = true ∨ d.ptrs.length ≠ 1 → ∀ g ∈ t.guests, g.line ≠ line))
      ∧ Goes (.discovery line) s (fun t => t.mem = s.mem ∧ t.guests = s.guests
        ∧ ((∀ g ∈ s.guests, g.line = line → g.agent ∈ s.absent) → t.dirEntry? line = none)
        ∧ ∀ g ∈ s.guests, g.line = line → g.agent ∉ s.absent → g.agent < 64 → ∃ d', t.dirEntry? line = some d' ∧ g.agent ∈ d'.agents))
  ∧ (∀ (id : Nat) (s : State) (m : Merge) (id' : ThreadId) (th : Thread), s.merges.find? (fun y => y.wb.id == id && y.wb.nt && y.wb.cells.isEmpty) = some m →
      m.wb.th = some id' → s.thread? id' = some th → (∀ x ∈ s.merges, x.wb.id ≠ id → x.wb.th ≠ some id') → (∀ x ∈ s.wbs, x.th ≠ some id') → (∀ x ∈ s.vstores, x.th ≠ id' ∨ x.nt = false) →
        Goes (.ntStoreAck id) s fun t => t.mem = s.mem ∧ t.thread? id' = some (if th.status = .waiting .drain then th.resume else th))
  ∧ (∀ (write : Bool) (pa : BitVec 56) (sz : BitVec 2) (data : DWord) (s : State), isMem pa.toNat = true → pkgOf pa.toNat = s.chip.toNat →
      s.homeBusy pa.toNat (2 ^ sz.toNat) = true → Goes (.hostAccess write pa sz data) s fun t => t.mem = s.mem ∧ Ev.hostAccess write pa sz data ∈ t.agenda
        ∧ Ev.hostAccess write pa sz data ∈ t.hostHeld)
  ∧ (∀ (pa : BitVec 56) (sz : BitVec 2) (data : DWord) (s : State), isMem pa.toNat = true → pkgOf pa.toNat = s.chip.toNat → s.homeBusy pa.toNat (2 ^ sz.toNat) = false →
      (s.dir = [] → Goes (.hostAccess true pa sz data) s fun t => (∀ k < 2 ^ sz.toNat, t.homeByte (pa.toNat + k) 0 = BitVec.ofNat 8 (data.toNat / 256 ^ k))
        ∧ ∀ a, a < pa.toNat / 32 * 32 ∨ (pa.toNat + 2 ^ sz.toNat + 31) / 32 * 32 ≤ a → rd t.mem a = rd s.mem a)
      ∧ Goes (.hostAccess false pa sz data) s fun t => t.mem = s.mem
        ∧ t.hostRead = BitVec.ofNat 64 (natOfBytes ((List.range (2 ^ sz.toNat)).map fun k => s.homeByte (pa.toNat + k) 0)))
  ∧ (∀ (id : Nat) (s : State) (a : AtomReq) (pa n old : Nat), s.atoms.find? (fun x => x.id == id) = some a → s.atomBehind a = false → a.loc = .mem pa →
      n = opBits a.wide / 8 → (∀ k < n, s.wbInFlight a.core (pa + k) = false) → s.homeBusy pa n = false → s.dir = [] →
      old = natOfBytes ((List.range n).map fun k => s.homeByte (pa + k) a.key) →
        Goes (.atomicAtHome id) s fun t => t.atoms = s.atoms.filter (fun x => x.id != id)
          ∧ (∀ v, (atomFn a.op a.wide old a.b.toNat a.c.toNat).1 = some v → ∀ k < n, t.homeByte (pa + k) a.key = BitVec.ofNat 8 (v / 256 ^ k))
          ∧ ((atomFn a.op a.wide old a.b.toNat a.c.toNat).1 = none → t.mem = s.mem)
          ∧ (a.red = false → ∃ r, t.rets = s.rets ++ [r] ∧ r.th = a.th ∧ r.lowersLd = true ∧ r.fl = (atomFn a.op a.wide old a.b.toNat a.c.toNat).2
              ∧ r.outs = (if a.wide then [(a.dst, BitVec.ofNat 32 old), (a.dst + 1, BitVec.ofNat 32 (old / 2 ^ 32))] else [(a.dst, BitVec.ofNat 32 old)]))
          ∧ (a.red = true → t.rets = s.rets ∧ ∀ th, s.thread? a.th = some th → t.thread? a.th = some { th with st := th.st - 1 }))
  ∧ ∀ (core line : Nat) (s : State) (u : UpdOp) (n old v : Nat), s.upd.filter (fun u => u.core == core && lineOf u.pa == line) = [u] → n = opBits u.wide / 8 →
      (∀ w ∈ s.wbs, w.core ≠ core) → (∀ k < n, s.underMerge (u.pa + k) = false ∧ s.frameWait (u.pa + k) = false) → s.pkgLost (pkgOf u.pa) = false → s.needsDiscovery line = false → s.dir = [] →
      old = natOfBytes ((List.range n).map fun k => s.homeByte (u.pa + k) u.key) → (atomFn u.op u.wide old u.val.toNat 0).1 = some v →
        Goes (.updateLineMerge core line) s fun t => (∀ k < n, t.homeByte (u.pa + k) u.key = BitVec.ofNat 8 (v / 256 ^ k))
          ∧ ∀ x, x ∈ t.upd ↔ x ∈ s.upd ∧ ¬ (x.core = core ∧ lineOf x.pa = line)

namespace Sys2Proof
open Machine

/-- The record of a page that the walker did not find: PC holds why (R405). -/
def pageRecord (va : DWord) (why : Word) (write : Bool) : BitVec 256 :=
  (0 : DWord) ++ va ++ why ++ (0 : BitVec 32) ++ (0 : BitVec 40) ++ (1 : BitVec 8) ++ (if write then (1 : BitVec 8) else 0) ++ (0 : BitVec 8)

/-- The record of a store fault of a thread that has exited (R192, Table 8.2). -/
def lateRecord (b : Block) (id : ThreadId) (cause : BitVec 8) (addr : DWord) (pc : Word) : BitVec 256 :=
  b.handle ++ addr ++ pc ++ b.object ++ (0 : BitVec 11) ++ BitVec.ofNat 10 id.tid ++ (0b10 : BitVec 2) ++ (0 : BitVec 17) ++ (0 : BitVec 8) ++ cause ++ (0x80 : BitVec 8)

end Sys2Proof

/-- R109 to R111, R192, R402 to R405, R425: a view store is checked, scattered to its homes and acknowledged; a store fault found late; page walks,
page-fault records, and the rings in which software finds records. -/
def Obligations.ViewStoresFaultsAndRings : Prop :=
  (∀ (id : Nat) (s : State) (v : VStore), s.vstores.find? (fun x => x.id == id) = some v → s.vsBehind v = false →
    (s.isWheel v.th = false → s.vsIndex v = [] →
      (∀ s' e, s.viewThrough v.desc v.th v.va v.data.length .write false = (s', [], .error e) → Goes (.viewStoreCheck id) s fun t => t.mem = s.mem
        ∧ t.vstores.find? (fun x => x.id == id) = some { v with answer := some (some (e, v.va)), bytes := [], pages := [] })
      ∧ (∀ s' bs, s.viewThrough v.desc v.th v.va v.data.length .write false = (s', [], .ok bs) → Goes (.viewStoreCheck id) s fun t => t.mem = s.mem
        ∧ t.vstores.find? (fun x => x.id == id) = some { v with answer := some none, bytes := bs, pages := [] }))
    ∧ (s.isWheel v.th = true → Goes (.viewStoreCheck id) s fun t => t.mem = s.mem
        ∧ t.vstores.find? (fun x => x.id == id) = some { v with answer := some (s.leadAnswer v), bytes := [], pages := [] }))
  ∧ (∀ (id : Nat) (s : State) (v : VStore) (key : BitVec 9), s.vstores.find? (fun x => x.id == id) = some v → s.rels = [] → s.dir = [] →
      (∀ x ∈ s.vstores, x.word = v.word → x.id < v.id → x.scattered = true) → (∀ b ∈ v.bytes, s.homeBusy b.pa 1 = false ∧ b.key = key) →
      (v.bytes.map (·.pa)).Nodup →
        Goes (.viewStoreScatter id) s fun t => AtHomes t ((v.bytes.zip v.data).map fun p => (p.1.pa, p.2)) key
          ∧ OtherMem s t ((v.bytes.zip v.data).map fun p => (p.1.pa, p.2)) ∧ Ev.viewStoreAck id ∈ t.agenda)
  ∧ (∀ (id : Nat) (s : State) (v : VStore) (th : Thread), s.vstores.find? (fun x => x.id == id) = some v → s.thread? v.th = some th →
      (∀ k ∈ v.wbs, ∀ m ∈ s.merges, m.wb.id ≠ k) →
        Goes (.viewStoreAck id) s fun t => t.mem = s.mem ∧ t.vstores = s.vstores.filter (fun x => x.id != id)
          ∧ (th.status ≠ .waiting .drain → t.thread? v.th = some { th with st := th.st - 1 })
          ∧ (th.status = .waiting .drain → ({ s with vstores := t.vstores } : State).ntUnacked v.th = false →
              t.thread? v.th = some ({ th with st := th.st - 1 } : Thread).resume)
          ∧ ∀ b ∈ t.l1, b.core = v.core → b.dirty = [] → ∀ x ∈ v.bytes, x.pa / 32 ≠ b.pa / 32)
  ∧ (∀ (id : ThreadId) (cause : BitVec 8) (addr : DWord) (pc : Word) (s : State) (th : Thread) (b : Block), s.thread? id = some th → s.block? id.blk = some b →
      (th.status = .ready → s.inString id = false → th.hdr = none → Goes (.storeFault id cause addr pc) s fun t => t.mem = s.mem ∧ Ev.blockSave id.blk ∈ t.agenda
          ∧ t.thread? id = some { th with status := .parked { cause := .storeFault, addr := addr, sub := cause, word := false, tag := some pc }, granted := false })
      ∧ (th.status = .exited → Goes (.storeFault id cause addr pc) s fun t => t.threads = s.threads ∧ Ev.faultRecordPost b.part ∈ t.agenda
          ∧ t.fqHeld = s.fqHeld ++ [{ part := b.part, record := lateRecord b id cause addr pc }]
          ∧ ∀ l, s.launch? b.launch = some l → t.launch? b.launch = some { l with sfault := true }))
  ∧ (∀ (die : Nat) (p : BitVec 6) (va : DWord) (write : Bool) (s : State),
      (∀ x f, s.lookup (.die die) p va.toNat = .ok (x, f) → (s.tlb.filter fun y => y.mmu == .die die).length < 4096 →
        Goes (.pageWalk { die := die, part := p } va write) s fun t => t = { s with tlb := s.tlb ++ f.tlb, walks := t.walks, cycle := s.cycle + 1 } ∧ ∀ w ∈ t.walks, w ∈ s.walks ∨ w ∈ f.walks)
      ∧ (∀ leaf size, s.xlOff p = false → s.tlbHit (.die die) p va.toNat = none → walk s p va.toNat = .ok (leaf, size) →
          ∃ x f, s.lookup (.die die) p va.toNat = .ok (x, f) ∧ x.pa = leaf.pa + va.toNat % size
            ∧ f.tlb = [{ mmu := .die die, part := p, va := va.toNat / size * size, size := size, leaf := leaf }])
      ∧ (∀ f, s.lookup (.die die) p va.toNat = .error f → (∀ x ∈ s.walkFaults, x.1 ≠ s.cycle) → Goes (.pageWalk { die := die, part := p } va write) s fun t => t.tlb = s.tlb ∧ t.walks = s.walks ∧ Ev.faultRecordPost p ∈ t.agenda
          ∧ t.fqHeld = s.fqHeld ++ [{ part := p, record := pageRecord va (match f with | .notPresent => 0 | .malformed => 1 | .owner => 2) write }]))
  ∧ (∀ (p : BitVec 6) (s : State) (h : HeldRecord), s.fqHeld.find? (fun h => h.part == p) = some h → (s.pr p 0x5108).getLsbD 30 = false →
      (ringRoom (s.pr p 0x5108) (s.pr p 0x510c) (s.pr p 0x5110) = true →
        Goes (.faultRecordPost p) s fun t => t.fqHeld = s.fqHeld.erase h ∧ t.mem = s.mem
          ∧ rdNat t.host (s.pr p 0x5100 + s.pr p 0x5110 * 32).toNat 32 = h.record.toNat
          ∧ t.pr p 0x5110 = BitVec.ofNat 64 (((s.pr p 0x5110).toNat + 1) % 2 ^ ((s.pr p 0x5108).toNat % 32)))
      ∧ (ringRoom (s.pr p 0x5108) (s.pr p 0x510c) (s.pr p 0x5110) = false → Goes (.faultRecordPost p) s fun t => t = { s with cycle := s.cycle + 1 }))
  ∧ ∀ (r : Ring) (v : Word) (s : State) (n : Nat), n = 2 ^ ((s.ringRegs r).ctl.toNat % 32) →
      (∀ p, r = .fault p → s.hostOpen (.ringHeadWrite r v) = true → Goes (.ringHeadWrite r v) s fun t => Ev.ringHeadWrite r v ∈ t.agenda ∧ t.ringRegs r = s.ringRegs r)
      ∧ (v.toNat < n → (∀ p, r = .fault p → s.hostOpen (.ringHeadWrite r v) = false) → (v.toNat + n - (s.ringRegs r).head.toNat) % n ≤ ((s.ringRegs r).tail.toNat + n - (s.ringRegs r).head.toNat) % n →
        Goes (.ringHeadWrite r v) s fun t => t.ringRegs r = { s.ringRegs r with head := v.setWidth 64 } ∧ t.mem = s.mem)
      ∧ (n ≤ v.toNat → (∀ p, r = .fault p → s.hostOpen (.ringHeadWrite r v) = false) → Goes (.ringHeadWrite r v) s fun t =>
          t = { s with hostHeld := t.hostHeld, cycle := s.cycle + 1 })
      ∧ (v.getLsbD 31 = true → (s.ringRegs r).ctl.getLsbD 31 = false → 1 ≤ v.toNat % 32 → v.toNat % 32 ≤ 16 →
          Goes (.ringCtlWrite r v) s fun t => (t.ringRegs r).head = 0 ∧ (t.ringRegs r).tail = 0 ∧ (t.ringRegs r).ctl.getLsbD 31 = true
            ∧ (t.ringRegs r).ctl.toNat / 256 % 256 = 0 ∧ (t.ringRegs r).ctl.toNat % 32 = v.toNat % 32)
      ∧ (v.getLsbD 31 = true → (v.toNat % 32 = 0 ∨ 16 < v.toNat % 32) →
          Goes (.ringCtlWrite r v) s fun t => (t.ringRegs r).ctl.getLsbD 31 = false ∧ (t.ringRegs r).head = (s.ringRegs r).head ∧ (t.ringRegs r).tail = (s.ringRegs r).tail)
      ∧ (v.getLsbD 31 = false → Goes (.ringCtlWrite r v) s fun t => (t.ringRegs r).ctl.getLsbD 31 = false)

namespace Sys2Proof
open Machine

/-- The request with a number after a step. -/
def ReqNow (t : State) (id : Nat) (r : QReq) : Prop := t.qreqs.find? (fun x => x.id == id) = some r
end Sys2Proof

/-- R120 to R129: the home slice performs the requests of a queue one at a time: a broken or corrupt control block, a size that does not fit, room or
elements or none of them; withdrawal, and what the requesting threads receive. -/
def Obligations.QueueSteps : Prop :=
  (∀ (id : Nat) (s : State) (r : QReq) (q : Nat), ReqNow s id r → r.result = none → r.refused = false → r.ths ≠ [] → r.moving = none → r.waiting = false →
    s.qBehind r = false → s.waiters r.qcbPa true = [] → s.waiters r.qcbPa false = [] → q = s.qcbAt r.qcbPa r.key →
      (qBroken q = true → r.qreg = none → Goes (.queueRequest id) s fun t => t.mem = s.mem ∧ ReqNow t id { r with result := some (3, []) }
        ∧ Ev.queueRequestComplete id ∈ t.agenda)
      ∧ (qBroken q = true → r.qreg.isSome = true → Goes (.queueRequest id) s fun t => t.mem = s.mem
        ∧ ReqNow t id { r with result := some (15, []), trap := some (.qcbCorrupt, r.qcb) } ∧ Ev.queueRequestComplete id ∈ t.agenda)
      ∧ (qBroken q = false → s.qcbOk r.qcbPa q = false → s.dir = [] → Goes (.queueRequest id) s fun t => t.homeByte (r.qcbPa + 3) r.key = BitVec.ofNat 8 (bitsN q 31 24 + 8)
        ∧ ReqNow t id { r with result := some (15, []), trap := some (.qcbCorrupt, r.qcb) } ∧ Ev.queueRequestComplete id ∈ t.agenda)
      ∧ (qBroken q = false → s.qcbOk r.qcbPa q = true →
          (r.fits q = false → Goes (.queueRequest id) s fun t => t.mem = s.mem
            ∧ ReqNow t id { r with result := some (15, []), trap := some (.illegalOp, 0) } ∧ Ev.queueRequestComplete id ∈ t.agenda)
          ∧ (r.fits q = true → s.qRoom r q = false → r.try_ = true → Goes (.queueRequest id) s fun t => t.mem = s.mem
            ∧ ReqNow t id { r with result := some (if r.enq then 1 else 2, []) } ∧ Ev.queueRequestComplete id ∈ t.agenda)
          ∧ (r.fits q = true → s.qRoom r q = false → r.try_ = false → (∀ x ∈ s.qreqs, x.waiting = false) →
              Goes (.queueRequest id) s fun t => { r with waiting := true } ∈ t.qreqs ∧ t.threads = s.threads)
          ∧ (∀ s' as cells key, r.fits q = true → s.qRoom r q = true → s.qSlotsBusy r q = false → s.dir = [] → r.enq = true →
              s.qSlots r q (qTail q + s.qMoving r.qcbPa) (List.range r.n) = (s', .ok as) → (∀ a ∈ as, a.key = key) →
              cells = (as.zip r.elems).flatMap (fun p => memCells (accPa p.1) (p.2.flatMap fun w => bytesOfNat 4 w.toNat)) → (cells.map (·.1)).Nodup →
                Goes (.queueRequest id) s fun t => AtHomes t cells key ∧ OtherMem s t cells ∧ Ev.queueRequest id ∈ t.agenda ∧ ∃ r', ReqNow t id r' ∧ r'.moving.isSome = true)
          ∧ (∀ s' as, r.fits q = true → s.qRoom r q = true → s.qSlotsBusy r q = false → s.dir = [] → r.enq = false →
              s.qSlots r q (qHead q) (List.range r.n) = (s', .ok as) → (∀ a ∈ as, a.denied = false) →
                Goes (.queueRequest id) s fun t => Ev.queueRequestComplete id ∈ t.agenda
                  ∧ (∃ r', ReqNow t id r' ∧ r'.result = some (0, as.map fun a => (List.range (r.es / 4)).map fun j =>
                      BitVec.ofNat 32 (natOfBytes ((List.range 4).map fun k => s.homeByte (accPa a + 4 * j + k) a.key))))
                  ∧ natOfBytes ((List.range 4).map fun k => t.homeByte (r.qcbPa + 8 + k) r.key) = (qHead q + r.n) % 2 ^ 32
                  ∧ natOfBytes ((List.range 4).map fun k => t.homeByte (r.qcbPa + 16 + k) r.key) = (qFree q + r.n) % 2 ^ 32)))
  ∧ (∀ (id : Nat) (s : State) (r : QReq) (place : Nat) (cells : List Nat) (q : Nat), ReqNow s id r → r.result = none → r.refused = false → r.ths ≠ [] →
      r.moving = some (place, cells) → (∀ x ∈ s.qreqs, x.qcbPa = r.qcbPa → ∀ j cs, x.moving = some (j, cs) → place ≤ j) →
      (∀ c ∈ cells, s.underMerge c = false) → s.homeBusy r.qcbPa 64 = false → s.dir = [] → q = s.qcbAt r.qcbPa r.key → r.n ≤ qFree q →
        Goes (.queueRequest id) s fun t => (∃ r', ReqNow t id r' ∧ r'.result = some (0, []) ∧ r'.moving = none) ∧ Ev.queueRequestComplete id ∈ t.agenda
          ∧ natOfBytes ((List.range 4).map fun k => t.homeByte (r.qcbPa + 12 + k) r.key) = (qTail q + r.n) % 2 ^ 32
          ∧ natOfBytes ((List.range 4).map fun k => t.homeByte (r.qcbPa + 16 + k) r.key) = qFree q - r.n)
  ∧ (∀ (id : Nat) (s : State) (r : QReq), ReqNow s id r →
      Goes (.queueRequestResend id) s (fun t => ReqNow t id { r with refused := false } ∧ Ev.queueRequest id ∈ t.agenda ∧ t.threads = s.threads ∧ t.mem = s.mem)
      ∧ (r.result = none → r.moving = none → r.try_ = false → r.waiting = false → r.ths.Nodup →
          Goes (.queueWithdrawal id) s fun t => t.mem = s.mem ∧ t.qreqs = s.qreqs.filter (fun x => x.id != id)
            ∧ ∀ k ∈ r.ths, ∀ th, s.thread? k = some th → th.status = .waiting (.queue id) → s.isRed k.blk = false →
                t.thread? k = some (if r.enq then { th with status := .ready, granted := false, st := th.st - 1 }
                  else { th with status := .ready, granted := false, ld := th.ld - 1 })))
  ∧ ∀ (id : Nat) (s : State) (r : QReq) (code : Nat) (elems : List (List Word)) (d : GReg), ReqNow s id r → r.result = some (code, elems) → r.ths.Nodup →
      (∀ k ∈ r.ths, s.isRed k.blk = false) → r.stat = some d → r.poisoned = false → r.try_ = false →
        (r.trap = none → Goes (.queueRequestComplete id) s fun t => t.mem = s.mem ∧ t.qreqs = s.qreqs.filter (fun x => x.id != id)
          ∧ ∀ j < r.ths.length, ∀ th, s.thread? (r.ths.getD j default) = some th → th.status = .waiting (.queue r.id) →
              ∃ th', t.thread? (r.ths.getD j default) = some th' ∧ th'.status = .ready ∧ th'.pc = th.pc + BitVec.ofNat 32 th.wlen
                ∧ th'.st = th.st - (if r.enq then 1 else 0) ∧ th'.ld = th.ld - (if r.enq then 0 else 1)
                ∧ ∀ x, th'.gr x = (lastOf ((d, BitVec.ofNat 32 (256 * (if code = 0 then r.ths.length else 0) + code))
                    :: (if r.enq = true ∨ code ≠ 0 then [] else ((List.range (r.es / 4)).map fun w => r.dst + BitVec.ofNat 7 w).zip (elems.getD j []))) x).getD (th.gr x))
        ∧ (∀ c, r.trap = some c → Goes (.queueRequestComplete id) s fun t => t.mem = s.mem ∧ ∀ k ∈ r.ths, ∀ th, s.thread? k = some th →
            ∃ th', t.thread? k = some th' ∧ th'.pc = th.pc ∧ th'.g = th.g ∧ Ev.blockSave k.blk ∈ t.agenda
              ∧ th'.status = .parked { cause := c.1, addr := c.2, sub := 0, word := true })

/-- R36 to R39, R91, R95, R131 to R139, R326: the rows of gather ports, the chunks and the ends of copies, submitted commands, joins and relay posts. -/
def Obligations.EngineAndRelaySteps : Prop :=
  (∀ (id a : Nat) (s s' : State) (m : Team) (b : Block) (g : GatherPort) (p : Push) (x : Acc), s.teams.find? (fun m => m.q.any (QBind.holds id)) = some m →
    s.team? m.blk m.wheel m.idx = some m → s.block? m.blk = some b → m.q = .gather g :: List.replicate 7 .unbound → g.pushes = [p] → p.id = id → p.idx ≠ 0xffffffff →
    p.row = none → g.cur = [] → g.lines.length < 8 → g.rs = 128 → a = (g.base.toNat + p.idx.toNat * g.stride.toNat) % 2 ^ 64 → a % 65536 + 128 ≤ 65536 →
    s.globAccess (.die (dieOfCore b.core)) b.part b.handle b.principal a .read = (s', .ok x) → (∀ k < 128, s.isPoison (accPa x + k) = false) → s.gBusy b p [(a, 128)] = false →
      (x.denied = false → Goes (.gatherRowReturn id) s fun t => ∃ m' seen, t.team? m.blk m.wheel m.idx = some m'
        ∧ m'.q.head? = some (.gather { g with pushes := [], seen := seen, lines := g.lines ++ [(List.range 128).map fun k => s.homeByte (accPa x + k) x.key] }))
      ∧ (x.denied = true → Goes (.gatherRowReturn id) s fun t => ∃ m' seen, t.team? m.blk m.wheel m.idx = some m'
        ∧ m'.q.head? = some (.gather { g with pushes := [], seen := seen, lines := g.lines ++ [List.replicate 128 0] })))
  ∧ (∀ (die e : Nat) (s : State), (∀ c ∈ s.copies, c.die = die → c.engine = some e → c.unread = true ∨ c.cancelled = true ∨ c.total ≤ c.done) →
      Goes (.copyChunk die e) s fun t => t = { s with engines := t.engines, cycle := s.cycle + 1 }
        ∧ ∃ g ∈ t.engines, g.die = die ∧ g.num = e ∧ g.deficit = [0, 0, 0, 0])
  ∧ (∀ (die e : Nat) (s : State) (g : Engine) (c : CopyCmd) (p : Prog) (es : List (Nat × Option (List (Option VByte)))) (b : Block) (gen : Nat),
      (∃ k < 4, s.classQueue die e k ≠ []) → s.serve 40 (s.engineOf die e) = (g, some c) → c.lay.toGlobal = false → s.copies.find? (fun x => x.id == c.id) = some c →
      Prog.elems { s := s, c := c, dens := [] } .read (c.range c.done) = (p, es) → s.copyHeld c = false → chunkBusy s es = [] →
      (∀ pa ∈ c.indexBytes s (c.range c.done), s.homeBusy pa 1 = false) → p.dens = [] → p.c = c →
      c.targets = [some (b.id, gen)] → s.copyLive (some (b.id, gen)) = some b → (es.map (·.1)).Nodup →
      (∀ x ∈ es, ∀ bs, x.2 = some bs → bs.length = c.lay.es) → (∀ x ∈ c.undel, x ≠ 0) →
        Goes (.copyChunk die e) s fun t => t.mem = s.mem ∧ Ev.copyChunk die e ∈ t.agenda ∧ (c.done + 1 = c.total → Ev.copyComplete c.id ∈ t.agenda)
          ∧ (∃ c', t.copies.find? (fun x => x.id == c.id) = some c' ∧ c'.done = c.done + 1 ∧ c'.total = c.total)
          ∧ ∃ b', t.block? b.id = some b' ∧ ∀ x ∈ es, ∀ k < c.lay.es, rd b'.lead.scratch (c.off + c.lay.es * x.1 + k)
              = (match x.2 with | none => 0 | some bs => match bs.getD k none with | none => 0 | some v => if v.denied then 0 else s.homeByte v.pa v.key))
  ∧ (∀ (id : Nat) (s : State) (c : CopyCmd) (d : GReg) (th : Thread), s.copies.find? (fun x => x.id == id) = some c → s.copyOpen c = false → c.succ = 0 → c.dst = some d →
      s.thread? c.th = some th → th.status ≠ .exited → d ∈ th.hold → s.isRed c.th.blk = false →
        Goes (.copyComplete id) s fun t => t.copies = s.copies.filter (fun x => x.id != id) ∧ t.mem = s.mem
          ∧ ∃ th', t.thread? c.th = some th' ∧ th'.as = th.as - 1 ∧ th'.hold = th.hold.erase d ∧ (∀ r, r ≠ d → th'.gr r = th.gr r)
            ∧ th'.gr d = c.status (if c.cancelled then 2 else if c.perm || c.xl || c.index || c.bounds then 3 else 0))
  ∧ (∀ (id : Nat) (s : State) (c : CopyCmd) (p : Prog), s.copies.find? (fun x => x.id == id) = some c → c.unread = true → s.cmdBusy c = [] → p.dens = [] → p.c = c →
      (Prog.cmdBytes { s := s, c := c, dens := [] } c.cmd.toNat (List.range 64) = (p, none) →
        Goes (.copyCommandRead id) s fun t => Ev.copyComplete id ∈ t.agenda
          ∧ t.copies.find? (fun x => x.id == id) = some { c with unread := false, bounds := true, succ := 0 })
      ∧ (∀ bs l, Prog.cmdBytes { s := s, c := c, dens := [] } c.cmd.toNat (List.range 64) = (p, some bs) → p.s = s → s.copyFault c.th (parseCommand bs) = none →
          l = parseLayout (natOfBytes (bs.take 32)) → s.enginesFree c.die l.cls ≠ [] →
          Goes (.copyCommandRead id) s fun t => ∃ c', c' ∈ t.copies ∧ c'.id = id ∧ c'.lay = l ∧ c'.unread = false ∧ c'.coords = (parseCommand bs).coords
            ∧ c'.succ = (parseCommand bs).succ ∧ c'.engine.isSome = true))
  ∧ (∀ (p : BitVec 6) (h : DWord) (s : State) (q : RelayReq) (th : Thread), s.relays.find? (fun q => q.part == p && q.join == some h && !(s.rels.any fun r => r.id == q.rel)) = some q →
      s.thread? q.th = some th → (∀ x ∈ s.relays, x.id = q.id → x = q) →
        (∀ r, s.records.find? (fun r => r.part == p && r.handle == h) = some r → r.join ≠ 0 → s.launch? r.launch = none →
          Goes (.joinDecrement p h) s fun t => t.thread? q.th = some { th with as := th.as - 1 }
            ∧ ∃ r', t.records.find? (fun r => r.part == p && r.handle == h) = some r' ∧ r'.join = r.join - 1 ∧ r'.state = (if r.join = 1 then .ready else r.state)
              ∧ r'.frame = r.frame ∧ r'.entry = r.entry ∧ r'.shape = r.shape)
        ∧ ((∀ r ∈ s.records, r.part = p → r.handle = h → False) → Goes (.joinDecrement p h) s fun t => t.thread? q.th = some { th with as := th.as - 1 }
            ∧ t.records = s.records ∧ t.fqHeld = s.fqHeld ++ [{ part := p, record := FqRecord.pack { handle := h, kind := 3 } }]))
  ∧ ∀ (id w : Nat) (s : State) (q : RelayReq) (th : Thread) (b : Nat) (o : Nat) (l : Launch), s.relays.find? (fun x => x.id == id) = some q → q.loc = .scr b o →
      q.dst.toNat % 2 = 0 → s.thread? q.th = some th → q.dst ∈ th.hold → q.dst + 1 ∈ th.hold → s.isRed q.th.blk = false → w = natOfBytes (s.relayBytes q) →
      (b ≠ q.th.blk → s.scrHeld (some q.loc) = false) →
        (s.launch? q.launch = none → Goes (.relayPost id) s fun t => t = { s with relays := s.relays.filter (fun x => x.id != id), cycle := s.cycle + 1 })
        ∧ (s.launch? q.launch = some l →
        (s.postBad q.part w = true → ∃ u : State, exec (.relayPost id) s = .next (u.failLaunch q.launch 0x10).tick ∧ u.records = s.records
          ∧ (∃ th', u.thread? q.th = some th' ∧ th'.gr64 q.dst = 2 ∧ th'.as = th.as - 1)
          ∧ u.fqHeld = s.fqHeld ++ [{ part := q.part, record := FqRecord.pack { addr := q.va, pc := q.ident, kind := 2 } }])
        ∧ (s.postBad q.part w = false → s.freeSlots q.part (s.postDie q.part (BitVec.ofNat 64 (bitsN w 383 320))) = [] → Goes (.relayPost id) s fun t => t.records = s.records
          ∧ ∃ th', t.thread? q.th = some th' ∧ th'.gr64 q.dst = 1 ∧ th'.as = th.as - 1)
        ∧ (∀ die, s.postBad q.part w = false → die = s.postDie q.part (BitVec.ofNat 64 (bitsN w 383 320)) → s.freeSlots q.part die ≠ [] →
            ∃ (t : State) (slot : Nat) (r : Record) (th' : Thread), exec (.relayPost id) s = .next (t.sweepLaunch q.launch).tick ∧ slot ∈ s.freeSlots q.part die ∧ t.records = s.records ++ [r] ∧ r.slot = slot ∧ r.die = die ∧ r.part = q.part ∧ r.launch = q.launch
              ∧ r.object = BitVec.ofNat 32 (bitsN w 31 0) ∧ r.entry = BitVec.ofNat 32 (bitsN w 63 32) ∧ r.frame = BitVec.ofNat 64 (bitsN w 127 64)
              ∧ r.principal = q.principal ∧ r.prio = max q.prio (bitsN w 225 224) ∧ r.join = bitsN w 207 192
              ∧ r.state = (if bitsN w 207 192 = 0 then .ready else .held)
              ∧ t.thread? q.th = some th' ∧ th'.gr64 q.dst = r.handle ∧ th'.as = th.as - 1
              ∧ t.launch? q.launch = some { l with outstanding := l.outstanding + 1 }))

/-! ## Launches, blocks, commands, registers (files 01, 02, 08, 18, 19, 20) -/

namespace Sys2Proof
open Machine

/-- What a record is but for its place: slot, handle and place in the order. -/
def unplaced (r : Record) : Record := { r with slot := 0, handle := 0, seq := 0 }
/-- Records generated for a launch: as many of them, in order, as there are free slots; the others wait (R40, R386). -/
def Generated (s t : State) (l die : Nat) (rs : List Record) (part : BitVec 6) : Prop :=
  ∃ n new, t.records = s.records ++ new ∧ new.map unplaced = (rs.take n).map unplaced
    ∧ (n < rs.length → t.freeSlots part die = [] ∧ ∃ x, t.launch? l = some x ∧ (die, rs.drop n) ∈ x.paused)
    ∧ (rs.length ≤ n → ∀ x, t.launch? l = some x → ∀ p ∈ x.paused, p.1 ≠ die)

end Sys2Proof

/-- R40, R47, R373 to R376, R378, R379, R386: a packet is fetched, and refused with its completion record or accepted; its records are generated, at
once or when slots are free again; a launch that has no work left writes its completion record. -/
def Obligations.LaunchSteps : Prop :=
  (∀ (f q w : Nat) (s : State), s.sqReady f q = true → (∀ p, s.vfPartOf f = some p → s.rrNext p f q = true ∧ s.noBhs p = false) → s.sqFetch f q = .ok w →
    (∀ p, s.vfPartOf f = some p → s.refusal f w = none → Goes (.launchPacket f q) s fun t =>
      t.fr f (sqHead q) = BitVec.ofNat 64 (((s.fr f (sqHead q)).toNat + 1) % s.sqSize f q)
        ∧ ∃ x, t.launches = s.launches ++ [x] ∧ x.part = p ∧ x.vf = f ∧ x.queue = q ∧ x.object = BitVec.ofNat 32 (bitsN w 31 0)
          ∧ x.entry = BitVec.ofNat 32 (bitsN w 63 32) ∧ x.frame = BitVec.ofNat 64 (bitsN w 127 64) ∧ x.compl = BitVec.ofNat 64 (bitsN w 191 128)
          ∧ x.waith = BitVec.ofNat 64 (bitsN w 255 192) ∧ x.principal = BitVec.ofNat 16 (bitsN w 271 256) ∧ x.prio = bitsN w 308 307
          ∧ x.tag = BitVec.ofNat 64 (bitsN w 383 320) ∧ x.outstanding = pkBlocks w ∧ x.bhs = s.partBhs p ∧ x.failed = none ∧ x.cancelled = false
          ∧ ∀ d ∈ x.dies, Ev.launchExpansion x.id d ∈ t.agenda)
    ∧ (∀ r, s.refusal f w = some r → (s.fr f (sqCtl q)).getLsbD 30 = false → Goes (.launchPacket f q) s fun t =>
      t.launches = s.launches ∧ t.fr f (sqHead q) = BitVec.ofNat 64 (((s.fr f (sqHead q)).toNat + 1) % s.sqSize f q)
        ∧ rdNat t.host (bitsN w 191 128) 32
          = (complRecord s.clock (BitVec.ofNat 64 (bitsN w 383 320)) false false false r 2 0 0xffffffff).toNat))
  ∧ (∀ (l die : Nat) (s : State) (x : Launch), s.launch? l = some x → x.cancelled = false → x.failed = none →
      (die ∉ x.expanded → x.waith = 0 → (∀ r ∈ s.expand x die, r.gen.isSome = true) →
        Goes (.launchExpansion l die) s fun t => Generated s t l die (s.expand x die) x.part ∧ ∃ y, t.launch? l = some y ∧ die ∈ y.expanded)
      ∧ (∀ rs, x.paused.find? (fun p => p.1 == die) = some (die, rs) → (∀ r ∈ rs, r.gen.isSome = true) → (∀ r ∈ rs, r.part = x.part ∧ r.die = die) →
        Goes (.recordGenerationResume l die) s fun t => Generated s t l die rs x.part))
  ∧ ∀ (l : Nat) (s : State) (x : Launch), s.launch? l = some x → x.outstanding = 0 → (∀ c ∈ s.copies, c.launch ≠ l) → (∀ m ∈ s.merges, m.wb.core < devCore) →
      x.complDev = false → Goes (.launchComplete l) s fun t => t.launches = s.launches.filter (fun y => y.id != l) ∧ t.mem = s.mem
        ∧ rdNat t.host x.compl.toNat 32 = (complRecord s.clock x.tag x.evlog x.gabort x.sfault (if x.cancelled then 0 else x.failed.getD 0)
            (if x.cancelled then 3 else if x.failed = none then 0 else 1) (BitVec.ofNat 32 (min x.retired 0xffffffff)) x.ident).toNat

/-- R17, R34, R41 to R46, R185 to R190, R196 to R199, R202 to R206: records become blocks and their threads begin; blocks are saved, restored and
relaunched; they retire once their writes are released; commits release stores; the signatures of redundant pairs are compared. -/
def Obligations.BlockSteps : Prop :=
  (∀ (b : Nat) (s : State), s.bhWorks b = true →
    (∀ r, s.firstBad b = some r ∨ (s.firstBad b = none ∧ ∃ l, (s.reserve b).choose b = some (.recs l) ∧ l.find? s.recBad = some r) → Goes (.blockAdmission b) s fun t => (∀ x ∈ t.records, x ∈ s.records)
      ∧ (∃ l, t.fqHeld = s.fqHeld ++ { part := r.part, record := FqRecord.pack { handle := r.handle, pc := r.ident, kind := 2 } } :: l)
      ∧ (∀ x ∈ t.records, ¬ (x.part = r.part ∧ x.die = r.die ∧ x.slot = r.slot ∧ x.handle = r.handle))
      ∧ ∀ x, s.launch? r.launch = some x → ∃ y, t.launch? r.launch = some y ∧ y.failed = some (x.failed.getD 0x10))
    ∧ (∀ l, s.firstBad b = none → (s.reserve b).choose b = some (.recs l) → (∀ r ∈ l, r.shape.cores = false ∧ s.recBad r = false) →
        (∀ x, s.launch? (l.headD default).launch = some x → x.cores = false) → Goes (.blockAdmission b) s fun t => t.mem = s.mem
          ∧ ∃ bs, t.blocks = s.blocks ++ bs ∧ bs.map (fun k => (k.handle, k.part, k.launch, k.shape, k.entry, k.frame))
              = l.map (fun r => (r.handle, r.part, r.launch, r.shape, r.entry, r.frame))
            ∧ (∀ k ∈ bs, k.state = .running ∧ k.lead = Side.reset ∧ k.sbuf = [] ∧ k.valid = none)
            ∧ (∃ ts, t.threads = s.threads ++ ts ∧ ∀ th ∈ ts, th.status = .ready ∧ th.g = [] ∧ th.p = 0 ∧ ∃ k ∈ bs, th.id.blk = k.id ∧ th.pc = k.entry)
            ∧ ∃ ms, t.teams = s.teams ++ ms ∧ ∀ m ∈ ms, ∃ k ∈ bs, m.blk = k.id ∧ rd m.y 0 = k.frame.extractLsb' 0 32 ∧ rd m.y 1 = k.frame.extractLsb' 32 32)
    ∧ (∀ k, s.firstBad b = none → (s.reserve b).choose b = some (.saved k) → s.saveOk k = true → Goes (.blockRestore b) s fun t => t.mem = s.mem
        ∧ ∃ k', t.block? k.id = some k' ∧ (k'.state = .running ∨ k'.state = .retiring) ∧ k'.scrGen = k.scrGen ∧ k'.lead = k.lead ∧ bhOf k'.core = b))
  ∧ (∀ (blk : Nat) (s : State) (b : Block), s.block? blk = some b →
      (b.state = .running → b.doomed = false → s.saveNow b = true → Goes (.blockSave blk) s fun t => t.mem = s.mem ∧ t.threads = s.threads
        ∧ t.block? blk = some { b with state := .saving, quiesce := false, relMade := false } ∧ Ev.blockSaveComplete blk ∈ t.agenda)
      ∧ (b.state = .saving → b.doomed = false → s.working b = false → b.relMade = false → Goes (.blockSaveComplete blk) s fun t => t.mem = s.mem
          ∧ t.block? blk = some { b with relMade := true } ∧ t.threads = s.threads
          ∧ ∃ r ∈ t.rels, r.th.blk = blk ∧ r.scope = .dev ∧ r.after = some (.blockSaveComplete blk) ∧ Ev.releaseComplete r.id ∈ t.agenda)
      ∧ (b.state = .saving → b.doomed = false → s.working b = false → b.relMade = true → s.saveOk b = true → (∀ x ∈ s.blockThreads blk, x.rebinds = false) →
          (∀ r, trapRecord b (s.blockThreads blk) = some r → Goes (.blockSaveComplete blk) s fun t => t.mem = s.mem ∧ t.bulkheads = s.bulkheads
            ∧ t.fqHeld = s.fqHeld ++ [{ part := b.part, record := r.pack }] ∧ ∃ k, t.block? blk = some k ∧ k.state = .held true)
          ∧ (trapRecord b (s.blockThreads blk) = none → Goes (.blockSaveComplete blk) s fun t => t.mem = s.mem ∧ t.fqHeld = s.fqHeld
            ∧ ∃ k, t.block? blk = some k ∧ ((∃ l, s.launch? b.launch = some l ∧ l.stopped = true) → k.state = .held false)
              ∧ ((∀ l, s.launch? b.launch = some l → l.stopped = false) → k.state = .saved)))
      ∧ (b.state = .running → b.preempt = true → b.due ≤ s.cycle → Goes (.preemptTimeout blk) s fun t =>
          t = { s with blocks := t.blocks, agenda := s.agenda ++ [.blockSave blk], cycle := s.cycle + 1 } ∧ t.block? blk = some { b with forced := true })
      ∧ (b.state = .killed → s.bhWorks (bhOf b.core) = true → s.placeable b.launch = true → (s.reserve (bhOf b.core)).clustersOf (bhOf b.core) (.again b) ≠ [] →
          s.imageOk b = true →
          Goes (.containedRelaunch blk) s fun t => t.mem = s.mem ∧ ∃ k, t.block? blk = some k ∧ (k.state = .running ∨ k.state = .retiring)
            ∧ bhOf k.core = bhOf b.core ∧ k.scrGen = s.nextId ∧ k.lead = b.lead)
      ∧ (b.lost = false → b.state = .retiring → s.unfinished b = false → b.shape.red = false → b.shape.cont = false →
          Goes (.blockRetire blk) s fun t => t.mem = s.mem ∧ t.threads = s.threads ∧ t.block? blk = some { b with state := .releasing }
            ∧ ∃ r ∈ t.rels, r.th.blk = blk ∧ r.scope = .dev ∧ r.after = some (.blockRetire blk))
      ∧ (b.lost = false → b.state = .releasing → b.releasing = [] → s.cmtOpen blk = false → s.scrUsed blk = false → (∀ r ∈ s.rels, r.th.blk ≠ blk) → Goes (.blockRetire blk) s fun t =>
          t.block? blk = none ∧ t.threads = s.threads.filter (fun x => x.id.blk != blk) ∧ t.teams = s.teams.filter (fun m => m.blk != blk)
            ∧ ∀ l, s.launch? b.launch = some l → ∃ l', t.launch? b.launch = some l' ∧ l'.retired = l.retired + 1)
      ∧ (b.releasing = [] → b.rolling = false → b.quiesce = true → s.quiet b = true → b.sbuf = [] → s.cmtOpen blk = false → s.ckptOk b = true →
          ∀ f, (s.blockThreads blk).find? waitsIrrev = some f → Goes (.commitStoreRelease blk) s fun t =>
            t = { s with threads := s.threads.map (fun x => if x.id.blk = blk ∧ x.status = .waiting .irrevocable ∧ teamIdx x.id = teamIdx f.id ∧ x.pc = f.pc
                    then { x with status := .ready, granted := true } else x), cycle := s.cycle + 1 })
      ∧ (b.releasing = [] → b.rolling = false → b.quiesce = true → s.quiet b = true → (∀ x ∈ s.blockThreads blk, waitsIrrev x = false) →
          (∃ x ∈ s.blockThreads blk, waitsStaging x = true) → s.ckptOk b = true → Goes (.commitStoreRelease blk) s fun t => t.mem = s.mem
            ∧ t.threads = s.threads.map (fun x => if x.id.blk = blk ∧ x.status = .waiting .staging then { x with status := .ready } else x)
            ∧ ∃ k, t.block? blk = some k ∧ k.releasing = b.sbuf ∧ k.sbuf = [] ∧ k.valid = some (b.valid == some false) ∧ k.quiesce = false)
      ∧ (b.releasing ≠ [] → b.quiesce = true → s.cellsHeld b = false → s.stageOk b = true → Goes (.commitStoreRelease blk) s fun t => t.mem = s.mem
          ∧ (∃ k, t.block? blk = some k ∧ k.releasing = [] ∧ k.sbuf = b.sbuf)
          ∧ ∀ pa v key tag, ({ loc := .mem pa, val := v, key := key, tag := tag } : LCell) ∈ b.releasing →
              ∃ w ∈ t.wbs, (pa, v) ∈ w.cells ∧ w.key = key ∧ w.cmt = some blk ∧ Ev.writeBack w.id ∈ t.agenda)
      ∧ (b.releasing = [] → s.cmtOpen blk = false → b.quiesce = false → b.preempt = false → b.rolling = false → s.allCommit blk = true → s.busy blk = false → b.arrayBusy = false →
          s.sigsOpen blk = false → b.shape.red = false → s.ckptOk b = true → Goes (.commitStoreRelease blk) s fun t => t.mem = s.mem
            ∧ t.threads = s.threads.map (fun x => if x.id.blk = blk ∧ waitsCommit x = true then x.resume else x)
            ∧ ∃ k, t.block? blk = some k ∧ k.releasing = b.sbuf ∧ k.sbuf = [] ∧ k.valid = some (b.valid == some false) ∧ k.relaunches = 0)
      ∧ (b.rolling = true → b.mismatch = false → s.imageOk b = true → (∀ c ∈ s.copies, c.blk ≠ blk) → ∀ team, Goes (.signatureCompare blk team) s fun t => t.mem = s.mem
          ∧ ∃ k, t.block? blk = some k ∧ k.mismatch = true ∧ k.rolling = false ∧ k.sbuf = [])
      ∧ (∀ team m tid pc pc' p p', b.rolling = false → s.team? blk false team = some m → tid / 128 = team → p.tid = tid → p'.tid = tid →
          m.sigs = [{ wheel := false, pc := pc, parts := [p] }, { wheel := true, pc := pc', parts := [p'] }] →
            (pc' ≠ pc ∨ p'.crc ≠ p.crc ∨ p'.kind ≠ p.kind → Goes (.signatureCompare blk team) s fun t => t.mem = s.mem ∧ t.threads = s.threads
              ∧ t.block? blk = some { b with rolling := true } ∧ Ev.signatureCompare blk 0 ∈ t.agenda)
            ∧ (pc' = pc → p'.crc = p.crc → p'.kind = p.kind → p.kind = .stop → Goes (.signatureCompare blk team) s fun t => t.mem = s.mem ∧ t.blocks = s.blocks
              ∧ ∀ wheel th trap, s.thread? { blk := blk, wheel := wheel, tid := tid } = some th → th.status = .waiting (.signature trap) →
                  t.thread? { blk := blk, wheel := wheel, tid := tid } = some (match trap with
                    | some x => { th with status := .parked x, granted := false }
                    | none => { th with status := .ready, granted := true }))))

/-- R16 to R21, R212, R214, R218, R331: a picker's string is formed and its clause checked, a sleep ends, a pending result reaches its register. -/
def Obligations.IssueSteps : Prop :=
  (∀ (core picker : Nat) (s : State) (ts : List Thread) (a : Thread) (b : Block), ts = s.wake.readyOf core picker → s.wake.seed ts = some a →
    s.block? a.id.blk = some b →
      (∀ h, (a.hdr = some h ∧ s.codeBad core b.part b.object a.pc.toNat 1 = false) ∨ (a.hdr = none ∧ s.textWord core b.part b.object a.pc.toNat = some h
          ∧ s.codeBad core b.part b.object a.pc.toNat (hLen h + 1) = false
          ∧ ∃ ws, s.textWords core b.part b.object (a.pc.toNat + 4) (hLen h) = some ws ∧ clauseOk h ws = true) →
        Goes (.stringIssue core picker) s fun t => t.mem = s.mem ∧ ∃ c, t.strings = s.strings ++ [c] ∧ c.core = core ∧ c.picker = picker ∧ c.obj = b.object ∧ c.hdr = h
          ∧ c.pc = (if a.hdr = none then a.pc + 4 else a.pc) ∧ a.id ∈ c.members ∧ (∀ id, id ∈ c.members ↔ ∃ x ∈ s.wake.gather a ts, x.id = id)
          ∧ (∀ id ∈ c.members, ∀ th, t.thread? id = some th → th.pc = c.pc ∧ th.waitCount = 0
            ∧ (a.hdr = none → ∀ e ∈ th.pend, e.mine = false ∧ hSb h e.cls = false ∧ e.dist < Config.latency e.cls))
          ∧ ∀ id th, s.wake.thread? id = some th → id ∉ c.members → t.thread? id = some (if id ∈ ts.map (·.id) then { th with waitCount := th.waitCount + 1 } else th))
      ∧ (∀ cause h, a.hdr = none → s.isRed a.id.blk = false →
          (cause = .xlate ∧ (s.textWord core b.part b.object a.pc.toNat = none
              ∨ s.textWord core b.part b.object a.pc.toNat = some h ∧ s.textWords core b.part b.object (a.pc.toNat + 4) (hLen h) = none)
            ∨ cause = .illegalClause ∧ s.textWord core b.part b.object a.pc.toNat = some h ∧ s.codeBad core b.part b.object a.pc.toNat (hLen h + 1) = false
              ∧ ∃ ws, s.textWords core b.part b.object (a.pc.toNat + 4) (hLen h) = some ws ∧ clauseOk h ws = false) →
            Goes (.stringIssue core picker) s fun t => t.mem = s.mem ∧ t.strings = s.strings ∧ ∃ th, t.thread? a.id = some th ∧ th.pc = a.pc
              ∧ th.status = .parked { cause := cause, addr := 0, sub := 0, word := false }))
  ∧ (∀ (id : ThreadId) (s : State) (th : Thread) (w : Nat), s.thread? id = some th → th.status = .sleeping w →
      (w ≤ s.cycle → Goes (.sleepExpiry id) s fun t => t = { s with threads := t.threads, cycle := s.cycle + 1 }
        ∧ t.thread? id = some { th with status := .ready, pc := th.pc + BitVec.ofNat 32 th.wlen, done := th.done + 1, granted := false })
      ∧ (s.cycle < w → Goes (.sleepExpiry id) s fun t => t = { s with agenda := s.agenda ++ [.sleepExpiry id], cycle := s.cycle + 1 }))
  ∧ ∀ (id : ThreadId) (k : Nat) (s : State) (th : Thread) (e : PendRes), s.thread? id = some th → th.pend[k]? = some e →
      Goes (.pendingResultWritten id k) s fun t => t = { s with threads := t.threads, cycle := s.cycle + 1 }
        ∧ ∃ th', t.thread? id = some th' ∧ (th.shadowed e = true → th' = th) ∧ (th.shadowed e = false →
          th'.pend = (th.pend.eraseIdx k).map (fun x => if x.dst == e.dst then { x with old := e.new } else x) ∧ th'.pc = th.pc ∧ th'.status = th.status
          ∧ (e.late = false → th'.g = th.g ∧ th'.p = th.p)
          ∧ (∀ d, e.late = true → e.dst = .g d → th'.p = th.p ∧ ∀ r, th'.gr r = if r = d then e.new else th.gr r))

namespace Sys2Proof
open Machine

/-- A driver command taken: BUSY, and its result to be shown when it has taken effect (R380, Table 18.1). -/
def Taken (t : State) (fn : Fn) (code res : BitVec 8) : Prop :=
  t.fr (fnNum fn) 0x118 = 0x80000000 ∧ (∃ c ∈ t.cmds, c.fn = fn ∧ c.code = code ∧ c.result = res) ∧ Ev.commandTakesEffect fn ∈ t.agenda
/-- A step in which one byte of memory changes. -/
def OneByte (s t : State) (a : Nat) (v : Byte) : Prop := rd t.mem a = v ∧ ∀ x, x ≠ a → rd t.mem x = rd s.mem x

end Sys2Proof

/-- R187, R188, R370, R371, R380, R381, R388, R367, R368: the driver's commands, what each does to the launch, the trapped block or the code object that
it names, and its result; the load of a code object. -/
def Obligations.CommandSteps : Prop :=
  (∀ (fn : Fn) (arg : DWord) (s : State) (p : BitVec 6), (s.fr (fnNum fn) 0x118).getLsbD 31 = false → s.cmdPart fn = some p → (s.blocks.map (·.id)).Nodup →
    (∀ x, s.launchNamed p arg = some x → s.launch? x.id = some x →
      Goes (.preempt fn arg) s (fun t => Taken t fn 1 0 ∧ t.mem = s.mem ∧ t.threads = s.threads ∧ t.launch? x.id = some { x with stopped := true }
        ∧ ∀ b ∈ s.blocks, (b.launch = x.id → b.state = .running → Ev.blockSave b.id ∈ t.agenda ∧ Ev.preemptTimeout b.id ∈ t.agenda
            ∧ t.block? b.id = some { b with preempt := true, due := s.cycle + 1000 * (s.fr x.vf 0x10).toNat })
          ∧ (b.launch = x.id → b.state = .saved → t.block? b.id = some { b with state := .held false })
          ∧ (b.launch ≠ x.id → t.block? b.id = some b))
      ∧ Goes (.resume fn arg) s (fun t => Taken t fn 2 0 ∧ t.mem = s.mem ∧ t.threads = s.threads ∧ t.launch? x.id = some { x with stopped := false }
        ∧ ∀ b ∈ s.blocks, b.launch = x.id → b.state = .held false → t.block? b.id = some { b with state := .saved }
            ∧ (bhOf b.core < s.bulkheads.length → b.id ∈ (t.bh (bhOf b.core)).restore))
      ∧ Goes (.cancel fn arg) s (fun t => Taken t fn 3 0 ∧ (∃ y, t.launch? x.id = some y ∧ y.cancelled = true) ∧ (∀ r ∈ t.records, r.launch = x.id → r.state = .running)
        ∧ ∀ b ∈ s.blocks, (b.launch = x.id → b.state = .running → Ev.blockSave b.id ∈ t.agenda ∧ t.block? b.id = some { b with doomed := true })
          ∧ (b.launch = x.id → b.state = .saved → t.block? b.id = none)))
    ∧ (s.launchNamed p arg = none → Goes (.preempt fn arg) s (fun t => Taken t fn 1 1 ∧ t.blocks = s.blocks ∧ t.launches = s.launches)
      ∧ Goes (.resume fn arg) s (fun t => Taken t fn 2 1 ∧ t.blocks = s.blocks ∧ t.launches = s.launches)
      ∧ Goes (.cancel fn arg) s (fun t => Taken t fn 3 1 ∧ t.blocks = s.blocks ∧ t.launches = s.launches))
    ∧ (∀ b, s.trapped p arg = some b → (∀ l, s.launch? b.launch = some l → l.stopped = false) →
        (s.hostOpen (.trapreplyRetry fn arg) = false → Goes (.trapreplyRetry fn arg) s fun t => Taken t fn 4 0 ∧ t.mem = s.mem ∧ t.block? b.id = some { b with state := .saved }
          ∧ t.threads = s.threads.map (fun x => if x.id.blk = b.id then x.retry else x) ∧ t.hostHeld = s.hostHeld.erase (.trapreplyRetry fn arg))
        ∧ (s.hostOpen (.trapreplyRetry fn arg) = true → Goes (.trapreplyRetry fn arg) s fun t => t.threads = s.threads ∧ t.blocks = s.blocks
          ∧ Ev.trapreplyRetry fn arg ∈ t.agenda)
        ∧ Goes (.trapreplySkip fn arg) s (fun t => Taken t fn 4 0 ∧ t.mem = s.mem
          ∧ (∃ b', t.block? b.id = some b' ∧ b' = { b with state := .saved, lead := b'.lead, wheels := b'.wheels }
              ∧ (factTrapped (s.blockThreads b.id) false = true → b'.lead = { b.lead with mstat := { b.lead.mstat with active := false } })
              ∧ (factTrapped (s.blockThreads b.id) false = false → b'.lead = b.lead))
          ∧ t.threads = s.threads.map (fun x => if x.id.blk = b.id then x.skip else x)))
    ∧ (∀ b, s.trapped p arg = some b → b.doomed = false → b.shape.cont = false → b.shape.red = false → b.shape.cores = false → Goes (.trapreplyKill fn arg) s fun t => Taken t fn 4 0
        ∧ t.block? b.id = none ∧ ∀ x, s.launch? b.launch = some x → ∃ y, t.launch? b.launch = some y ∧ y.failed = some (x.failed.getD 0x11))
    ∧ Goes (.codeinval fn) s (fun t => Taken t fn 5 0 ∧ t.mem = s.mem ∧ t.blocks = s.blocks ∧ t.threads = s.threads
        ∧ (∀ w, w ∈ t.code ↔ w ∈ s.code ∧ ¬((s.bh (bhOf w.core)).assigned = true ∧ (s.bh (bhOf w.core)).part = p)))
    ∧ (∀ a, arg.toNat < 2 ^ 24 → s.objSlot p (BitVec.ofNat 32 arg.toNat) = some a →
        (s.liveOk p a = true → Goes (.objlive fn arg) s fun t => Taken t fn 6 0 ∧ OneByte s t a (BitVec.ofNat 8 (s.objField a 7 2 * 4 + 1)))
        ∧ (s.liveOk p a = false → Goes (.objlive fn arg) s fun t => Taken t fn 6 2 ∧ t.mem = s.mem))
    ∧ (∀ a, s.objIn p arg 1 = some a →
        (s.objCount a ≠ 0 → Goes (.objunload fn arg) s fun t => Taken t fn 7 0 ∧ OneByte s t a (BitVec.ofNat 8 (s.objField a 7 2 * 4 + 2)) ∧ t.fqHeld = s.fqHeld)
        ∧ (s.objCount a = 0 → Goes (.objunload fn arg) s fun t => Taken t fn 7 0 ∧ OneByte s t a (BitVec.ofNat 8 (s.objField a 7 2 * 4 + 3))
            ∧ t.fqHeld = s.fqHeld ++ [{ part := p, record := FqRecord.pack { kind := 4, object := BitVec.ofNat 32 arg.toNat } }]))
    ∧ (∀ a, s.objIn p arg 3 = some a → Goes (.objfree fn arg) s fun t => Taken t fn 8 0 ∧ rd t.mem a = BitVec.ofNat 8 (s.objField a 7 2 * 4)
        ∧ rd t.mem (a + 3) = BitVec.ofNat 8 (s.objField a 31 24 + 1) ∧ (∀ x, x ≠ a → x ≠ a + 3 → rd t.mem x = rd s.mem x)
        ∧ (p, BitVec.ofNat 32 arg.toNat) ∉ t.schedObjs))
  ∧ (∀ (fn : Fn) (arg : DWord) (s : State), (s.fr (fnNum fn) 0x118).getLsbD 31 = true → ∀ i ∈ [Instr.preempt fn arg, .resume fn arg, .cancel fn arg,
      .trapreplySkip fn arg, .trapreplyKill fn arg, .codeinval fn, .objlive fn arg, .objunload fn arg, .objfree fn arg],
        exec i s = .next { s with cycle := s.cycle + 1 }
          ∧ (s.hostOpen (.trapreplyRetry fn arg) = false →
              exec (.trapreplyRetry fn arg) s = .next { s with hostHeld := s.hostHeld.erase (.trapreplyRetry fn arg), cycle := s.cycle + 1 }))
  ∧ (∀ (fn : Fn) (s : State) (c : PendingCmd), s.cmds.find? (fun c => c.fn == fn) = some c → Goes (.commandTakesEffect fn) s fun t =>
      (s.cmdDone c = true → t.fr (fnNum fn) 0x118 = c.result.setWidth 64
        ∧ t = { s with cmds := s.cmds.filter (fun c => c.fn != fn), freg := t.freg, cycle := s.cycle + 1 })
      ∧ (s.cmdDone c = false → t = { s with agenda := s.agenda ++ [.commandTakesEffect fn], cycle := s.cycle + 1 })
      ∧ (s.cmdDone c = true ↔ ∀ l, c.launch = some l → ∀ b ∈ s.blocks, b.launch = l → (b.preempt = true ∨ b.doomed = true) → b.state ≠ .running ∧ b.state ≠ .saving))
  ∧ ∀ (r : LoadRequest) (s : State),
      (∀ st, buildObject r.file r.dataVa = .error st → Goes (.objectLoad r) s fun t =>
        t = { s with lastLoad := some { status := st, handle := 0, entries := [], map := [] }, cycle := s.cycle + 1 })
      ∧ (∀ b, buildObject r.file r.dataVa = .ok b →
          ((r.heapPages < (4 * b.text.length + 65535) / 65536 ∨ s.commitObject r b = none) → Goes (.objectLoad r) s fun t =>
            t = { s with lastLoad := some { status := 2, handle := 0, entries := [], map := [] }, cycle := s.cycle + 1 })
          ∧ (∀ s' h a, (4 * b.text.length + 65535) / 65536 ≤ r.heapPages → s.commitObject r b = some (s', h) → s.objSlot r.part (r.slot.setWidth 32) = some a →
              Goes (.objectLoad r) s fun t => t.lastLoad = some { status := 0, handle := h, entries := b.entries, map := b.map } ∧ t.objField a 1 0 = 1
                ∧ (scheduledMode r = true ↔ (r.part, h) ∈ t.schedObjs) ∧ t.threads = s.threads))

/-- R7, R372, R373, R382, R386, R387, R391, R393, R406 to R410: doorbells, the registers of relay areas, of the view table, of the principal table and of
invalidations, with what follows each write, and writes to the register windows. -/
def Obligations.RegisterSteps : Prop :=
  (∀ (f q : Nat) (v : Word) (s : State) (n : Nat), n = s.sqSize f q → (s.hostOpen (.sqtailWrite f q v) = false →
    ((s.fr f (sqCtl q)).getLsbD 31 = false → exec (.sqtailWrite f q v) s = .next { s with hostHeld := s.hostHeld.erase (.sqtailWrite f q v), cycle := s.cycle + 1 })
    ∧ ((s.fr f (sqCtl q)).getLsbD 31 = true → v.toNat < n →
        ((s.fr f (sqTail q)).toNat + n - (s.fr f (sqHead q)).toNat) % n ≤ (v.toNat + n - (s.fr f (sqHead q)).toNat) % n →
          Goes (.sqtailWrite f q v) s fun t => t = { s with freg := t.freg, hostHeld := s.hostHeld.erase (.sqtailWrite f q v), agenda := s.agenda ++ [.launchPacket f q], cycle := s.cycle + 1 }
            ∧ t.fr f (sqTail q) = v.setWidth 64)
    ∧ ((s.fr f (sqCtl q)).getLsbD 31 = true → n ≤ v.toNat → Goes (.sqtailWrite f q v) s fun t => t = { s with freg := t.freg, hostHeld := s.hostHeld.erase (.sqtailWrite f q v), cycle := s.cycle + 1 }
        ∧ (t.fr f (sqCtl q)).getLsbD 31 = false ∧ (t.fr f (sqCtl q)).getLsbD 29 = true))
    ∧ (v.getLsbD 31 = true → ((s.fr f (sqCtl q)).getLsbD 31 = false ∨ bitsN v.toNat 4 0 = 0 ∨ 16 < bitsN v.toNat 4 0) → Goes (.sqctlWrite f q v) s fun t => t = { s with freg := t.freg, cycle := s.cycle + 1 }
        ∧ (1 ≤ bitsN v.toNat 4 0 → bitsN v.toNat 4 0 ≤ 16 → t.fr f (sqHead q) = 0 ∧ t.fr f (sqTail q) = 0 ∧ t.fr f (sqCtl q) = ((v &&& 0xc0ff001f).setWidth 64 : DWord))
        ∧ ((bitsN v.toNat 4 0 = 0 ∨ 16 < bitsN v.toNat 4 0) → t.fr f (sqCtl q) = ((v &&& 0x40ff001f).setWidth 64 : DWord) ||| 0x20000000
            ∧ t.fr f (sqHead q) = s.fr f (sqHead q) ∧ t.fr f (sqTail q) = s.fr f (sqTail q)))
    ∧ (v.getLsbD 31 = false → Goes (.sqctlWrite f q v) s fun t => t = { s with freg := t.freg, cycle := s.cycle + 1 } ∧ (t.fr f (sqCtl q)).getLsbD 31 = false
        ∧ t.fr f (sqHead q) = s.fr f (sqHead q) ∧ t.fr f (sqTail q) = s.fr f (sqTail q)))
  ∧ (∀ (f q : Nat) (p : BitVec 6) (v : Word) (w : DWord) (s : State), ∀ x ∈ [(Instr.sqtailWrite f q v, Ev.sqtailWrite f q v), (.prinv p v, .prinv p v), (.tlbinv p w, .tlbinv p w),
      (.ringHeadWrite (.fault p) v, .ringHeadWrite (.fault p) v)], s.hostOpen x.2 = true → Goes x.1 s fun t =>
        t = { s with hostHeld := if x.2 ∈ s.hostHeld then s.hostHeld else s.hostHeld ++ [x.2], agenda := s.agenda ++ [x.2], cycle := s.cycle + 1 })
  ∧ (∀ (p : BitVec 6) (s : State),
      ((∀ x ∈ s.launches, x.part ≠ p) → ∀ v : DWord, Goes (.vtbaseWrite p v) s fun t => t.pr p 0x5500 = v &&& 0xffffff8001 ∧ t.pr p 0x5018 = 0x80000000
          ∧ t = { s with preg := t.preg, invBusy := s.invBusy ++ [(p, .views)], agenda := s.agenda ++ [.viewTableFillComplete p], cycle := s.cycle + 1 })
      ∧ (∀ x ∈ s.launches, x.part = p → ∀ (v : DWord) (d : Nat) (w : Word), exec (.vtbaseWrite p v) s = .next { s with cycle := s.cycle + 1 }
          ∧ exec (.ractlWrite p d w) s = .next { s with cycle := s.cycle + 1 })
      ∧ (∀ a, (p, InvOp.views) ∈ s.invBusy → a = s.chip.toNat * 2 ^ 42 + bitsN (s.pr p 0x5500).toNat 39 15 * 32768 →
          s.ownerOf a = some p → Goes (.viewTableFillComplete p) s fun t => (∀ x, a ≤ x → x < a + 32768 → rd t.mem x = 0)
            ∧ (∀ x, (x < a ∨ a + 32768 ≤ x) → rd t.mem x = rd s.mem x) ∧ t.invBusy = s.invBusy.erase (p, .views)
            ∧ ((∀ y ∈ t.invBusy, y.1 ≠ p) → t.pr p 0x5018 = 0))
      ∧ ((s.pr p 0x5018).getLsbD 31 = false →
          (∀ v : DWord, Goes (.prtbaseWrite p false v) s (fun t => t.pr p 0x5300 = v &&& 0xfffffff000 ∧ t.pr p 0x5018 = 0x80000000
              ∧ t = { s with preg := t.preg, invBusy := s.invBusy ++ [(p, .table (s.pr p 0x5300) (s.pr p 0x5308))], agenda := s.agenda ++ [.invalidationComplete p], cycle := s.cycle + 1 })
            ∧ Goes (.prtbaseWrite p true v) s (fun t => t.pr p 0x5308 = v &&& 0xffff ∧ t.pr p 0x5018 = 0x80000000
              ∧ t = { s with preg := t.preg, invBusy := s.invBusy ++ [(p, .table (s.pr p 0x5300) (s.pr p 0x5308))], agenda := s.agenda ++ [.invalidationComplete p], cycle := s.cycle + 1 })
            ∧ (s.hostOpen (.tlbinv p v) = false → bitsN v.toNat 7 0 ≤ 40 → Goes (.tlbinv p v) s fun t => t.pr p 0x5018 = 0x80000000 ∧ Ev.invalidationComplete p ∈ t.agenda ∧ t.tlb = s.tlb
                ∧ t.invBusy = s.invBusy ++ [(p, .tlb (v &&& 0xffffffffff03ff))])
            ∧ (s.hostOpen (.tlbinv p v) = false → 40 < bitsN v.toNat 7 0 → Goes (.tlbinv p v) s fun t => t = { s with preg := t.preg, hostHeld := s.hostHeld.erase (.tlbinv p v), cycle := s.cycle + 1 } ∧ t.pr p 0x5018 = 2))
          ∧ ∀ v : Word, s.hostOpen (.prinv p v) = false → Goes (.prinv p v) s fun t => t.pr p 0x5018 = 0x80000000
              ∧ t = { s with preg := t.preg, hostHeld := s.hostHeld.erase (.prinv p v), invBusy := s.invBusy ++ [(p, .principal (v.setWidth 16))], agenda := s.agenda ++ [.invalidationComplete p], cycle := s.cycle + 1 })
      ∧ ((s.pr p 0x5018).getLsbD 31 = true → ∀ (v : DWord) (w : Word) (c : Bool), exec (.prtbaseWrite p c v) s = .next { s with cycle := s.cycle + 1 }
          ∧ (s.hostOpen (.tlbinv p v) = false → exec (.tlbinv p v) s = .next { s with hostHeld := s.hostHeld.erase (.tlbinv p v), cycle := s.cycle + 1 })
          ∧ (s.hostOpen (.prinv p w) = false → exec (.prinv p w) s = .next { s with hostHeld := s.hostHeld.erase (.prinv p w), cycle := s.cycle + 1 }))
      ∧ (∀ o, s.invBusy.find? (fun x => x.1 == p && !isViews x.2) = some (p, o) → (∀ v, o = .tlb v → v.getLsbD 9 = false) →
          Goes (.invalidationComplete p) s fun t => t = { s with tlb := t.tlb, walks := t.walks, masks := t.masks, preg := t.preg, invBusy := s.invBusy.erase (p, o), cycle := s.cycle + 1 }
            ∧ t.tlb = (match o with | .tlb v => s.tlb.filter (fun e => !tlbMeets p v e) | _ => s.tlb)
            ∧ t.masks = (match o with
                | .principal q => s.masks.filter (fun m => !(m.part == p && m.principal == q)) | .table .. => s.masks.filter (fun m => m.part != p) | _ => s.masks)
            ∧ ((∀ y ∈ t.invBusy, y.1 ≠ p) → t.pr p 0x5018 = 0))
      ∧ (∀ v e, s.invBusy.find? (fun x => x.1 == p && !isViews x.2) = some (p, .tlb v) → e ∈ s.tlb → tlbMeets p v e = true →
          Goes (.invalidationComplete p) s fun t => e ∉ t.tlb)
      ∧ (∀ v w, s.invBusy.find? (fun x => x.1 == p && !isViews x.2) = some (p, .tlb v) → w ∈ s.walks → walkMeets p v w = true →
          Goes (.invalidationComplete p) s fun t => w ∉ t.walks)
      ∧ (∀ (d : Nat) (v : Word), d < 8 → (∀ x ∈ s.launches, x.part ≠ p) → v.getLsbD 31 = true → (s.pr p (0x5408 + 16 * d)).getLsbD 31 = false →
          Goes (.ractlWrite p d v) s fun t => Ev.relayAreaFillComplete p d ∈ t.agenda ∧ t.pr p (0x5408 + 16 * d) = ((v &&& 0xfffff).setWidth 64 : DWord) ||| 0xc0000000
            ∧ t.areas = s.areas.filter (fun a => !(a.part == p && a.die == d)) ++ [{ part := p, die := d, enabled := true, busy := true, slots := (v &&& 0xfffff).toNat + 1, gens := [] }])
      ∧ (∀ (d : Nat) (a : RelayArea), d < 8 → s.areas.find? (fun a => a.part == p && a.die == d && a.enabled && a.busy) = some a → a.slots ≤ 1024 →
          ∀ x e, s.lookup (.die d) p (s.pr p (0x5400 + 16 * d)).toNat = .ok (x, e) → s.ownerOf x.pa = some p →
            Goes (.relayAreaFillComplete p d) s fun t => (∀ k < 64 * a.slots, rd t.mem (x.pa + k) = 0) ∧ (∀ y, (y < x.pa ∨ x.pa + 64 * a.slots ≤ y) → rd t.mem y = rd s.mem y)
              ∧ (t.pr p (0x5408 + 16 * d)).getLsbD 30 = false ∧ t.areas = s.areas.map (fun y => if y.part = p ∧ y.die = d then { y with busy := false } else y)))
  ∧ (∀ (v : DWord) (s : State), Goes (.registerWrite .pf 0x3300 v) s (fun t => t = { s with partSel := v.setWidth 6, cycle := s.cycle + 1 } ∧ t.regRead .pf 0x3300 = v &&& 63)
      ∧ Goes (.registerWrite .pf 0x3200 v) s (fun t => t = { s with frameSel := v &&& 0xffffe00000, cycle := s.cycle + 1 }
        ∧ t.regRead .pf 0x3200 = v &&& 0xffffe00000)
      ∧ (∀ f, Goes (.registerWrite (.vf f) 0x10 v) s (fun t => t.fr f 0x10 = v &&& 0xffffffff ∧ t = { s with freg := t.freg, cycle := s.cycle + 1 })
          ∧ Goes (.registerWrite (.vf f) 0x108 v) s (fun t => t.fr f 0x108 = v ∧ t = { s with freg := t.freg, cycle := s.cycle + 1 })
          ∧ (∀ p off, s.vfPartOf f = some p → s.leadFn p ≠ some (.vf f) → 0x4000 ≤ off → off < 0x6000 →
              Goes (.registerWrite (.vf f) (BitVec.ofNat 16 off) v) s fun t => t = { s with cycle := s.cycle + 1 })
          ∧ (∀ p, s.vfPartOf f = some p → s.leadFn p = some (.vf f) →
              Goes (.registerWrite (.vf f) 0x5100 v) s fun t => t.pr p 0x5100 = v &&& 0xffffffffffffffe0 ∧ t = { s with preg := t.preg, cycle := s.cycle + 1 })))

/-- R391 to R399, R383, R384, Tables 18.7, 19.1, 19.4: the reset of a bulkhead and what ends it; the assignment of bulkheads, frames and windows; the slices of gangs. -/
def Obligations.BulkheadAndGangSteps : Prop :=
  (∀ (b : Nat) (s : State), b < s.bulkheads.length →
    ((s.bh b).state ≠ .resetting → ∀ i, i = .bulkheadReset b ∨ i = .bulkheadHwFault b → Goes i s fun t => (∃ ok, Ev.bulkheadResetDone b ok ∈ t.agenda)
        ∧ (t.bh b).state = .resetting ∧ (t.bh b).gateOpen = false ∧ (t.bh b).cause = (if i = .bulkheadReset b then 0 else 2)
        ∧ (∀ x ∈ t.l1, bhOf x.core ≠ b) ∧ (∀ x ∈ t.upd, bhOf x.core ≠ b) ∧ (∀ x ∈ t.resv, x.bh ≠ b)
        ∧ (∀ x ∈ t.code, bhOf x.core ≠ b)
        ∧ (∀ x ∈ t.l1, x ∈ s.l1) ∧ (∀ x ∈ s.l1, bhOf x.core ≠ b → x.dirty ≠ [] → x ∈ t.l1)
        ∧ ∀ k ∈ s.blocks, (s.blocks.map (·.id)).Nodup → bhOf k.core = b → k.resident = true → ∀ k', t.block? k.id = some k' → k'.state = .killed)
    ∧ ((s.bh b).state = .resetting → exec (.bulkheadReset b) s = .next { s with cycle := s.cycle + 1 } ∧ exec (.bulkheadHwFault b) s = .next { s with cycle := s.cycle + 1 })
    ∧ ((s.bh b).state = .resetting → (s.bh b).cause ≠ 1 → Goes (.bulkheadResetDone b true) s fun t =>
        (∃ n ≤ 24, t.bh b = { s.bh b with state := .run, gateOpen := true, cores := n })
        ∧ t.fqHeld = (if (s.bh b).assigned then s.fqHeld ++ [{ part := (s.bh b).part, record := FqRecord.pack { tid := BitVec.ofNat 10 b, sub := (s.bh b).cause, kind := 5 } }]
            else s.fqHeld)
        ∧ t.blocks = s.blocks ∧ t.mem = s.mem)
    ∧ ((s.bh b).state = .resetting → Goes (.bulkheadResetDone b false) s fun t => (t.bh b).state = .failed ∧ (t.bh b).gateOpen = false)
    ∧ (∀ (a : Bool) (p : BitVec 6),
        ((s.bh b).assigned = a → (s.bh b).part = p → exec (.partitionChange b a p) s = .next { s with cycle := s.cycle + 1 })
        ∧ (((s.bh b).assigned ≠ a ∨ (s.bh b).part ≠ p) →
            ((48 ≤ p.toNat ∨ ((s.bh b).assigned = true ∧ s.hasLaunch (s.bh b).part = true) ∨ (a = true ∧ s.hasLaunch p = true)) →
              Goes (.partitionChange b a p) s fun t => t = { s with bulkheads := s.bulkheads.set b { s.bh b with cerr := true }, cycle := s.cycle + 1 })
            ∧ (p.toNat < 48 → ((s.bh b).assigned = true → s.hasLaunch (s.bh b).part = false) → (a = true → s.hasLaunch p = false) → (s.bh b).state ≠ .resetting →
                Goes (.partitionChange b a p) s fun t => (t.bh b).assigned = a ∧ (t.bh b).part = p ∧ (t.bh b).cerr = false
                  ∧ (t.bh b).state = .resetting ∧ (t.bh b).cause = 1 ∧ (∀ v ∈ t.vfPart, v.1 / 8 ≠ b)))))
  ∧ (∀ (v : Word) (s : State) (byte : Byte), byte = (v &&& 0xbf).setWidth 8 →
      (s.frameBusy = [] → rd s.frames s.selFrame ≠ byte → (byte.getLsbD 7 = true → s.ownable s.selFrame = true) → Goes (.frameownWrite v) s fun t =>
        t = { s with frameBusy := [(s.selFrame, byte)], agenda := s.agenda ++ [.frameownChangeComplete s.selFrame], cycle := s.cycle + 1 })
      ∧ (s.frameBusy ≠ [] → Goes (.frameownWrite v) s fun t => t = { s with cycle := s.cycle + 1 }))
  ∧ (∀ (f : Nat) (byte : Byte) (s : State), s.frameBusy.find? (fun x => x.1 == f) = some (f, byte) → Goes (.frameownChangeComplete f) s fun t =>
      rd t.frames f = byte ∧ (∀ g, g ≠ f → rd t.frames g = rd s.frames g) ∧ t.frameBusy = [] ∧ (∀ a, a / 2 ^ 21 = f → rd t.mem a = 0)
        ∧ (∀ a, a / 2 ^ 21 ≠ f → rd t.mem a = rd s.mem a) ∧ (∀ x ∈ t.l1, x.pa / 2 ^ 21 ≠ f) ∧ (∀ w ∈ t.wbs, ∀ c ∈ w.cells, c.1 / 2 ^ 21 ≠ f)
        ∧ (∀ l ∈ t.loads, ∀ x ∈ l.bytes, ∀ pa k, x = .at pa k → pa / 2 ^ 21 ≠ f)
        ∧ (∀ v ∈ s.vstores, v.passed = true → v.scattered = false → (∃ x ∈ v.bytes, x.pa / 2 ^ 21 = f) → v ∉ t.vstores ∧ Ev.storeFault v.th Cause.xlate.code v.va v.pc ∈ t.agenda)
        ∧ (∀ a ∈ s.atoms, ∀ pa, a.loc = .mem pa → pa / 2 ^ 21 = f → a ∉ t.atoms ∧ (a.red = true → Ev.storeFault a.th Cause.xlate.code 0 a.pc ∈ t.agenda))
        ∧ (s.vstores = [] → s.atoms = [] → s.wbs = [] → t.threads = s.threads))
  ∧ (∀ (p : BitVec 6) (w : Nat) (v : DWord) (s : State), w < 16 →
      Goes (.windowEntryStage p w v) s (fun t => t = { s with preg := t.preg, cycle := s.cycle + 1 } ∧ (∀ k < 16, t.winEntry p k = s.winEntry p k)
        ∧ t.pr p (0xc008 + 16 * w) = v &&& 0xfffff3ffffffffff)
      ∧ ((s.winEntry p w).v = false → Goes (.windowEntryInstall p w v) s fun t => t = { s with preg := t.preg, cycle := s.cycle + 1 }
          ∧ t.pr p (0x4000 + 16 * w) = v &&& 7 ∧ t.pr p (0x4008 + 16 * w) = s.pr p (0xc008 + 16 * w))
      ∧ ((s.winEntry p w).v = true → ∀ u, u = s.winDrop (s.winEntry p w) p →
          (u.winBusy (s.winEntry p w) p = true → Goes (.windowEntryInstall p w v) s fun t => t.preg = s.preg ∧ Ev.windowEntryInstall p w v ∈ t.agenda)
          ∧ (u.winBusy (s.winEntry p w) p = false → Goes (.windowEntryInstall p w v) s fun t =>
              t.pr p (0x4000 + 16 * w) = v &&& 7 ∧ t.pr p (0x4008 + 16 * w) = s.pr p (0xc008 + 16 * w)
              ∧ (∀ g ∈ t.guests, (s.winCovers (s.winEntry p w) (g.line * 128)) = false))))
  ∧ ∀ (e : BitVec 6) (s : State),
      (∀ v : DWord, Goes (.sliceEntryStage e v) s fun t => t = { s with sliceStage := t.sliceStage, cycle := s.cycle + 1 }
        ∧ t.sliceStage = s.sliceStage.filter (fun x => x.1 != e.toNat) ++ [(e.toNat, v &&& 0xffffffff0000ffff)])
      ∧ (∀ (hi lo : DWord) (n : SliceEntry), s.sliceStage.find? (fun x => x.1 == e.toNat) = some (e.toNat, lo) → n = sliceEntryOf (hi ++ lo) →
          (s.clock.toNat + 1000000 ≤ n.start → s.slices = [] → n.gid ≠ 0 → Goes (.sliceEntryInstall e hi) s fun t =>
            t = { s with slices := [(e.toNat, hi ++ lo)], agenda := s.agenda ++ [.gangSliceStart e], cycle := s.cycle + 1 })
          ∧ (n.start < s.clock.toNat + 1000000 → Goes (.sliceEntryInstall e hi) s fun t => t = { s with cycle := s.cycle + 1 }))
      ∧ (∀ n, s.sliceAt e = some n →
          (s.clock.toNat < n.start → Goes (.gangSliceStart e) s fun t => t = { s with agenda := s.agenda ++ [.gangSliceStart e], cycle := s.cycle + 1 })
          ∧ (n.start ≤ s.clock.toNat → Goes (.gangSliceStart e) s fun t => t.mem = s.mem ∧ Ev.gangGraceExpiry e ∈ t.agenda ∧ Ev.gangSliceEnd e ∈ t.agenda
              ∧ ∃ sl, t.sliceNow = some sl ∧ sl.entry = e ∧ sl.gid = n.gid ∧ sl.aborted = false ∧ sl.ready = (s.sliceReady.filter (fun r => r.1 == e)).map (·.2))
          ∧ (∀ sl, s.sliceNow = some sl → sl.entry = e → sl.grace = true → n.start + 250000 ≤ s.clock.toNat → Goes (.gangGraceExpiry e) s fun t => t.mem = s.mem
              ∧ t.sliceNow = some { sl with grace := false, aborted := true } ∧ ∀ x ∈ t.launches, x.gang = true → Config.gangOf x.part = sl.gid → x.gabort = true)
          ∧ (n.stop ≤ s.clock.toNat → Goes (.gangSliceEnd e) s fun t => t.mem = s.mem ∧ t.slices = s.slices.filter (fun x => x.1 != e.toNat)
              ∧ t.sliceReady = s.sliceReady.filter (fun r => r.1 != e) ∧ t.sliceNow = s.sliceNow.filter (fun sl => sl.entry != e)))
      ∧ (∀ sl p, s.sliceNow = some sl → sl.entry = e →
          (p ≠ s.chip → (sl.grace = false ∨ s.graceOver e = false) → Goes (.gangReady e p) s fun t =>
            t = { s with sliceNow := t.sliceNow, cycle := s.cycle + 1 } ∧ ∃ y, t.sliceNow = some y ∧ y.ready = sl.ready ++ [p] ∧ y.aborted = sl.aborted ∧ y.gid = sl.gid)
          ∧ ((sl.grace = true ∧ s.graceOver e = true ∨ p = s.chip ∧ (s.gangClear sl.gid = false ∨ sl.aborted = false ∧ s.gangPlaced sl.gid = false)) →
            Goes (.gangReady e p) s fun t => t = { s with agenda := s.agenda ++ [.gangReady e p], cycle := s.cycle + 1 }))

/-- R194, R399, R412 to R424: keys, the injection register, scrubbing, links, lost memory, telemetry, absent agents and the cold reset with the verified boot, and the
answers of the SPDM responder, whose contents are the platform's (`Config.spdmAnswer`). -/
def Obligations.FleetSteps : Prop :=
  (∀ (k : BitVec 9) (s : State), (s.keyBusy = none → k ≠ 0 →
      (∀ v, s.spdm.phase = 5 → Config.keyUnwrap s.spdm.answers s.keyBlob = some v → Goes (.keyLoad k) s fun t =>
        t = { s with keyErr := false, keyBusy := some (k, some v), agenda := s.agenda ++ [.keySlotBusyClear], cycle := s.cycle + 1 })
      ∧ ((s.spdm.phase ≠ 5 ∨ Config.keyUnwrap s.spdm.answers s.keyBlob = none) → Goes (.keyLoad k) s fun t => t = { s with keyErr := true, cycle := s.cycle + 1 })
      ∧ Goes (.keyClear k) s fun t => t = { s with keyErr := false, keyBusy := some (k, none), agenda := s.agenda ++ [.keySlotBusyClear], cycle := s.cycle + 1 })
    ∧ (∀ v, s.keyBusy = some (k, v) → Goes .keySlotBusyClear s fun t => t.keyBusy = none ∧ (t.keys.find? (fun x => x.1 == k)).map (·.2) = v
        ∧ (∀ j, j ≠ k → t.keys.find? (fun x => x.1 == j) = s.keys.find? (fun x => x.1 == j))
        ∧ ((∀ c ∈ s.sectorKey, c.2.toNat ≠ k.toNat + 1) → t.mem = s.mem)))
  ∧ (∀ (v : BitVec 128) (s : State), Goes (.injWrite v) s fun t => t = { s with inj := v &&& 0xffffffffffffffff03ff1f0f00000001, cycle := s.cycle + 1 })
  ∧ (∀ (c n : Nat) (s : State),
      ((s.fr 384 (0x7100 + 8 * (c % 16))).getLsbD 31 = true →
        Goes (.scrubSector c n .clean) s (fun t => t = { s with cycle := s.cycle + 1 })
        ∧ Goes (.scrubSector c n .corrected) s (fun t => t.mem = s.mem ∧ t.poison = s.poison ∧ (∀ u ∈ t.upsets, u.sector ≠ s.scrubPa c n / 32)
            ∧ (s.lastError = none → (s.frameOf (s.scrubPa c n)).getLsbD 7 = true → ringRoom (s.fr 384 0x7208) (s.fr 384 0x720c) (s.fr 384 0x7210) = true → ∃ synd, t.lastError = some
                (ErrRec.pack { pa := BitVec.ofNat 56 (s.scrubPa c n), unit := errUnit (dieOf (s.scrubPa c n)) (c % 16), code := 1, kind := 3 } s.clock synd 1)))
        ∧ Goes (.scrubSector c n .uncorrected) s (fun t => t.mem = s.mem ∧ s.scrubPa c n / 32 ∈ t.poison
            ∧ ∀ x, x ≠ s.scrubPa c n / 32 → (x ∈ t.poison ↔ x ∈ s.poison)))
      ∧ ((s.fr 384 (0x7100 + 8 * (c % 16))).getLsbD 31 = false → ∀ found, exec (.scrubSector c n found) s = .next { s with cycle := s.cycle + 1 }))
  ∧ (∀ (d l : Nat) (s : State), d < 8 → l < 3 →
      ((d, l) ∉ s.linksDown → (∀ x ∈ s.linkFails, ¬ (x.1 = d ∧ x.2.1 = l)) →
        Goes (.linkRetry d l false) s (fun t => t = { s with linkFails := s.linkFails ++ [(d, l, 1)], cycle := s.cycle + 1 })
        ∧ Goes (.linkRetry d l true) s (fun t => t.linksDown = s.linksDown ∧ t.linkFails = s.linkFails ∧ t.mem = s.mem))
      ∧ ((d, l) ∉ s.linksDown → (d, l, 7) ∈ s.linkFails → (∀ x ∈ s.linkFails, x.1 = d → x.2.1 = l → x = (d, l, 7)) →
          Goes (.linkRetry d l false) s fun t => (d, l) ∈ t.linksDown ∧ linkPeer d l ∈ t.linksDown)
      ∧ ((d, l) ∈ s.linksDown → Goes (.linkRetraining d l) s fun t => (d, l) ∉ t.linksDown ∧ linkPeer d l ∉ t.linksDown ∧ t.mem = s.mem)
      ∧ (∀ lane < 72, lane ∉ s.lanesDown → (0, lane + 3, 7) ∈ s.linkFails → (∀ x ∈ s.linkFails, x.1 = 0 → x.2.1 = lane + 3 → x = (0, lane + 3, 7)) →
          Goes (.linkRetry 0 (lane + 3) false) s fun t => t.lanesDown = s.lanesDown ++ [lane] ∧ t.linksDown = s.linksDown ∧ t.mem = s.mem
            ∧ (t.fr 384 0x7000).toNat / 2 ^ 48 = ((List.range 18).map (portLanes t.lanesDown)).sum)
      ∧ ((linkPeer d l).1 < 8 ∧ (linkPeer d l).2 < 3 ∧ (linkPeer d l).1 ≠ d ∧ linkPeer (linkPeer d l).1 (linkPeer d l).2 = (d, l)))
  ∧ (∀ (d : Nat) (s : State), d < 8 → Goes (.memoryBulkheadFatal d) s fun t => t = { s with lostDies := t.lostDies, freg := t.freg, freeCtr := t.freeCtr, cycle := s.cycle + 1 } ∧ d ∈ t.lostDies
      ∧ (∀ x, x ≠ d → (x ∈ t.lostDies ↔ x ∈ s.lostDies)) ∧ ∀ a, pkgOf a = s.chip.toNat → dieOf a = d → t.isPoison a = true)
  ∧ (∀ (pa : BitVec 56) (s : State), Goes (.readAheadDiscard pa) s fun t => t.mem = s.mem ∧ t.blocks = s.blocks ∧ t.threads = s.threads
      ∧ (s.lastError = none → ringRoom (s.fr 384 0x7208) (s.fr 384 0x720c) (s.fr 384 0x7210) = true → ∃ r, t.lastError = some r ∧ r.extractLsb' 136 56 = pa))
  ∧ (∀ (w : Nat) (temps : List Nat) (s : State), Goes (.telemetrySample w temps) s fun t => t = { s with telemetry := t.telemetry, cycle := s.cycle + 1 }
      ∧ (s.telemetry.length ≤ 10 → t.telemetry.length ≤ 10) ∧ ∃ u, t.telemetry.getLast? = some (w :: (temps ++ u)))
  ∧ (∀ (pkg : BitVec 14) (s : State),
      ((s.beats.filter (· == pkg)).length < 4 → Goes (.heartbeatMiss pkg) s fun t => t = { s with beats := s.beats ++ [pkg], cycle := s.cycle + 1 })
      ∧ (4 ≤ (s.beats.filter (· == pkg)).length → ∀ i, s.domPos pkg.toNat = some i → i < 8 → Goes (.heartbeatMiss pkg) s fun t => pkg ∉ t.beats
          ∧ ∀ d < 8, 8 * i + d ∈ t.absent))
  ∧ (∀ (a : BitVec 6) (d : Nat) (s : State),
      (a.toNat ∉ s.absent → Goes (.agentLoss a) s fun t => a.toNat ∈ t.absent ∧ (∀ x ∈ s.absent, x ∈ t.absent) ∧ (∀ g ∈ t.guests, g.agent ≠ a.toNat)
        ∧ ∀ x ∈ t.swept, x.2 ≠ a.toNat)
      ∧ (a.toNat ∈ s.absent → Goes (.directorySweep d a) s fun t => t = { s with dir := t.dir, swept := t.swept, cycle := s.cycle + 1 } ∧ (d, a.toNat) ∈ t.swept)
      ∧ ((∀ k < 8 * s.domain.length, (k, a.toNat) ∈ s.swept) → Goes (.agentRejoin a) s fun t => t = { s with absent := t.absent, swept := t.swept, cycle := s.cycle + 1 }
          ∧ a.toNat ∉ t.absent ∧ ∀ x ∈ t.swept, x.2 ≠ a.toNat)
      ∧ ((∃ k < 8 * s.domain.length, (k, a.toNat) ∉ s.swept) → Goes (.agentRejoin a) s fun t => t = { s with cycle := s.cycle + 1 }))
  ∧ (∀ s : State, Goes .coldReset s fun t => t.mem = [] ∧ t.threads = [] ∧ t.blocks = [] ∧ t.host = s.host ∧ t.chip = s.chip
      ∧ ((imageOk 0 = false ∨ imageOk 1 = false ∨ imageOk 2 = false ∨ Config.bootStep s.freeCtr 3 = false ∨ Config.bootStep s.freeCtr 5 = false) → t.boot = .failed)
      ∧ (imageOk 0 = true → imageOk 1 = true → imageOk 2 = true → Config.bootStep s.freeCtr 3 = true → Config.bootStep s.freeCtr 5 = true → t.boot = .done ∧ t.linksDown = bootDown ∧ t.lanesDown = bootLanes ∧ (t.keys.map (·.1) = [0])
          ∧ t.measure.length = 8 ∧ ∀ k : Fin 3, t.measure[k.val]? = some (extend 0 (Config.imageDigest k))))
  ∧ ∀ (s : State) (algs : Word) (slot : BitVec 3) (off len : BitVec 16) (nonce : BitVec 256) (pub : BitVec 768) (verify : BitVec 384) (body : List Byte),
      ∀ p ∈ [(Instr.getVersion, (1 : Nat)), (.getCapabilities, max 2 s.spdm.phase), (.negotiateAlgorithms algs, max 3 s.spdm.phase), (.getDigests, s.spdm.phase),
        (.getCertificate slot off len, s.spdm.phase), (.challenge nonce, s.spdm.phase), (.getMeasurements nonce, s.spdm.phase), (.keyExchange pub, max 4 s.spdm.phase),
        (.finish verify, if s.spdm.phase = 4 ∧ Config.spdmFinishOk verify = true then 5 else s.spdm.phase), (.vendorDefinedMessage body, s.spdm.phase)],
        Goes p.1 s fun t => t = { s with spdm := t.spdm, cycle := s.cycle + 1 } ∧ t.spdm.phase = p.2
          ∧ ∃ a, t.spdm.answers = s.spdm.answers ++ [a]
            ∧ (p.1 = .getMeasurements nonce ∨ p.1 = .challenge nonce → s.measured <:+ a)
            ∧ (p.1 = .vendorDefinedMessage body → (s.telemetry.flatMap fun x => x.flatMap (bytesOfNat 8)) <:+ a)
end

