-- ==== Sys2Proof/Tests/Slice0.lean ====
section
/-! SUPPORT. Tests: words written out from the encodings of file 9, terms that the checks of WellFormed refuse, results that the spec's
worked examples give, and for the statements a state and operands that meet their hypotheses. -/

namespace Sys2Proof.Tests
set_option Elab.async false
open Sys2Proof Sys2Proof.Machine

/-! ## Decoding -/

/-- Word 0 of formats G and X (Tables 9.7, 9.8): MAJ, D, A, B, YB, G. -/
def w0 (maj d a b : BitVec 7) (yb : BitVec 1) (g : BitVec 3) : Word := maj ++ d ++ a ++ b ++ yb ++ g
/-- Word 1 of format X (Table 9.8): XOP, MOD, LOW. -/
def w1 (xop mode : BitVec 8) (low : BitVec 16) : Word := xop ++ mode ++ low

/-- The function of R353's example, and Table 10.10. -/
theorem test_decode_one_word :
    decode [0x2840002f] = .ok (.addi 7 16 0 5, []) ∧ decode [0x04008107] = .ok (.mul 7 0 16 (.g 16), [])
    ∧ decode [0x6c000007] = .ok (.ret 7, []) ∧ decode [0x6e000007] = .ok (.exit 7, []) ∧ decode [0x68000037] = .ok (.call 7 6, [])
    ∧ decode [0x69ffffe7] = .ok (.call 7 (BitVec.ofInt 22 (-4)), []) ∧ decode [0x6400004f] = .ok (.br 7 false 0 9, [])
    ∧ decode [0x280007ff] = .ok (.addi 7 0 0 0xff, []) ∧ decode [0x44000007, 10] = .ok (.movi 7 0 10, []) := by decide +kernel
/-- Worked examples of files 10 and 11: setp.eq.i32, bitfn, fma.rz, cvt.rz.i32.f32. -/
theorem test_decode_arithmetic :
    decode [0x3c000007, 0x00010000] = .ok (.setp 7 (.i32 .eq) 0 0 (.imm 0), [])
    ∧ decode [0x3a102867, 0x05d80e00] = .ok (.bitfn 7 4 5 (.g 6) 7 0xd8, [])
    ∧ decode [0x80102867, 0x03010e00] = .ok (.fma 7 .f32 .rz 4 5 (.g 6) 7, [])
    ∧ decode [0x8a204807, 0xf2010000] = .ok (.cvt 7 .rz .i32 .f32 8 9, []) := by decide +kernel
/-- Worked examples of files 12 and 13: ld.acq, cycle, wait, mma.sp, mfact.lu, pm.apply, mtrsm, copy, commit. -/
theorem test_decode_memory_and_matrix :
    decode [0xc0202001, 0x01220040] = .ok (.ldAcq 1 .dev 2 false 8 { base := 4, off := 64 }, [])
    ∧ decode [0xe8080897, 0x08002000] = .ok (.cycle 7 2 2 1 (.g 9), []) ∧ decode [0xee01f807, 0x00000fc2] = .ok (.wait 7 0 63 2 63, [])
    ∧ decode [0xf2800067, 0x01443411]
        = .ok (.mmaSp 7 { row0 := 32, a := 0, f := .g 6, mf := 1, nf := 4, h := 3, tb := 4, col := 4, p := 1 }, [])
    ∧ decode [0xf4286007, 0x00044000] = .ok (.mfactLu 7 { d := 10, o := 12, f64 := false, flag := false, pm := 1, h := 4 }, [])
    ∧ decode [0xf60400e7, 0x06004000] = .ok (.pmApply 7 4 .f32 1 (.g 14), [])
    ∧ decode [0xf4409007, 0x03204000] = .ok (.mtrsm 7 { d := 16, o := 18, f64 := false, flag := false, up := false, unit := true, h := 4 }, [])
    ∧ decode [0xf8506047, 0x00020000] = .ok (.copy 7 { d := 20, a := 12, b := 4, k := 1, c := none }, [])
    ∧ decode [0xfa004007, 0x03838003] = .ok (.commit 7 { gmask := 0x8003, pmask := 3, k := some 8 }, []) := by decide +kernel
/-- Words written from Tables 9.7 to 9.9, 10.8, 12.1, 12.4 to 12.9, 13.2, 13.9, one for each family that has no worked example. -/
theorem test_decode_other_arithmetic :
    decode [w0 0x24 8 0 5 0 7, w1 0 0 0] = .ok (.ymov 7 false 8 (.g 5), [])
    ∧ decode [w0 0x25 2 4 6 0 7, w1 1 0 0] = .ok (.subI64 7 2 4 (.g 6), [])
    ∧ decode [w0 0x44 1 3 4 0 7, w1 2 0 0] = .ok (.fsetp 7 false .le 1 3 (.g 4), [])
    ∧ decode [w0 0x4a 1 2 3 1 7, w1 3 0 0x0800] = .ok (.dp4 7 .e4m3 1 2 (.y 3) 4, []) := by decide +kernel
theorem test_decode_other_memory :
    decode [w0 0x61 0 4 9 0 7, w1 0 2 0xfffc] = .ok (.st 7 2 { base := 4, off := BitVec.ofInt 16 (-4) } (.g 9), [])
    ∧ decode [w0 0x62 0 0 0 0 2] = .ok (.drainNt 2, [])
    ∧ decode [w0 0x64 0 16 0 0 7, w1 0 0 5] = .ok (.viewDefG 7 5 2, [])
    ∧ decode [w0 0x70 8 4 9 0 7, w1 2 0x22 16] = .ok (.atomAdd 7 { scope := .dev, ord := .acq, wide := false, d := 8, mem := { base := 4, off := 16 }, b := .g 9 }, [])
    ∧ decode [w0 0x71 0 4 8 0 7, w1 5 0x11 0] = .ok (.redXor 7 { scope := .grp, wide := true, mem := { base := 4, off := 0 }, b := .g 8 }, [])
    ∧ decode [w0 0x72 0 0 0 0 7, w1 0 0x20 0] = .ok (.fence 7 .dev, []) ∧ decode [w0 0x73 0 0 0 0 7, w1 1 0 0] = .ok (.barGrp 7, []) := by decide +kernel
theorem test_decode_other_async :
    decode [w0 0x75 8 4 16 0 7, w1 0 0x91 0] = .ok (.enq 7 { team := true, scope := some .blk, esz := 1, d := 8, mem := { base := 4, off := 0 }, b := 16 }, [])
    ∧ decode [w0 0x76 2 12 0 0 7, w1 2 0 0] = .ok (.qbindGather 7 2 3, [])
    ∧ decode [w0 0x78 3 4 6 0 7, w1 1 0 0x5002] = .ok (.tld 7 5 3 { base := 4, off := 2 } (.g 6), [])
    ∧ decode [w0 0x7b 0 0 6 0 7, w1 3 0 0x2000] = .ok (.accZero 7 2 .f32 (.g 6), [])
    ∧ decode [w0 0x7d 0 0 0 0 3, w1 1 0 0x42] = .ok (.trap 3 0x42, []) := by decide +kernel
/-- Encodings that nothing assigns are refused (R221): an unassigned major, an unassigned XOP, a reserved bit. Major 0x7e decodes as itself (R222). -/
theorem test_decode_refuses :
    (decode [w0 0x26 0 0 0 0 7]).toOption = none ∧ (decode [w0 0x1b 0 0 0 0 7, w1 5 0 0]).toOption = none
    ∧ (decode [w0 0x72 0 0 0 0 7, w1 0 0x28 0]).toOption = none ∧ (decode [w0 0x30 1 0 0 0 7]).toOption = none
    ∧ decode [w0 0x7e 0 0 0 0 7] = .ok (.illegalMajor false 7, []) := by decide +kernel
theorem test_encode_decode : (Instr.lea 7 true 3 8 4 (.y 9) 0x10).wf = true
    ∧ decode (encode (.lea 7 true 3 8 4 (.y 9) 0x10) ++ [0]) = .ok (.lea 7 true 3 8 4 (.y 9) 0x10, [0]) := by decide +kernel

/-! ## Ill-formed terms: one for each check of WellFormed -/

theorem test_wf_integer :
    Instr.wf (.shli 7 0 0 32) = false ∧ Instr.wf (.madWideI32 7 1 0 (.g 0) 0) = false ∧ Instr.wf (.madWideN32 7 0 0 (.g 0) 1) = false
    ∧ Instr.wf (.bfeI32 7 0 0 (.imm 0 33)) = false ∧ Instr.wf (.setp 7 (.n32 .eq) 0 0 (.imm 0)) = false
    ∧ Instr.wf (.setp 7 (.i64 .lt) 0 1 (.imm 0)) = false ∧ Instr.wf (.setp 7 (.n64 .lt) 0 0 (.src (.y 3))) = false
    ∧ Instr.wf (.movs 7 1 .clock) = false ∧ Instr.wf (.ymov 7 true 1 (.g 0)) = false ∧ Instr.wf (.ymov 7 true 0 (.g 1)) = false
    ∧ Instr.wf (.yadd 7 true 0 1 (.y 0)) = false ∧ Instr.wf (.yaddi 7 true 1 0 0) = false ∧ Instr.wf (.addI64 7 0 0 (.g 1)) = false
    ∧ Instr.wf (.lea 7 false 0 0 1 (.g 0) 0) = false := by decide +kernel
theorem test_wf_float :
    Instr.wf (.fadd 7 .f64 .rne 1 0 (.g 0)) = false ∧ Instr.wf (.fma 7 .f64 .rne 0 0 (.g 0) 1) = false ∧ Instr.wf (.fabs 7 .f64 0 1) = false
    ∧ Instr.wf (.fdiv 7 true .rne 0 0 (.g 1)) = false ∧ Instr.wf (.fsqrt 7 true .rne 1 0) = false ∧ Instr.wf (.fsetp 7 true .lt 0 1 (.g 0)) = false
    ∧ Instr.wf (.fclass 7 true 0 1) = false ∧ Instr.wf (.cvt 7 .rne .f32 .f32 0 0) = false ∧ Instr.wf (.cvt 7 .rne .f64 .f32 1 0) = false
    ∧ Instr.wf (.cvtSr 7 .e8m0 0 0 0) = false ∧ Instr.wf (.cvtSr 7 .fp16 2 0 0) = false ∧ Instr.wf (.pack 7 .rne false .e4m3 4 0 0) = false
    ∧ Instr.wf (.unpack 7 .rne false .bf16 2 0 0) = false ∧ Instr.wf (.fscale 7 false .rne 4 0 0 (.g 0)) = false := by decide +kernel
theorem test_wf_memory :
    Instr.wf (.ld 7 2 true 0 { base := 0, off := 0 }) = false ∧ Instr.wf (.ld 7 3 false 1 { base := 0, off := 0 }) = false
    ∧ Instr.wf (.ld 7 4 false 2 { base := 0, off := 0 }) = false ∧ Instr.wf (.ld 7 5 false 0 { base := 0, off := 0 }) = false
    ∧ Instr.wf (.ld 7 0 false 0 { base := 1, off := 0 }) = false ∧ Instr.wf (.ldQ 7 4 2 0) = false ∧ Instr.wf (.st 7 3 { base := 0, off := 0 } (.y 1)) = false
    ∧ Instr.wf (.stQ 7 3 0 (.g 1)) = false ∧ Instr.wf (.prefetchL1 7 { base := 1, off := 0 }) = false ∧ Instr.wf (.relay 7 1 { base := 0, off := 0 }) = false
    ∧ Instr.wf (.atomAdd 7 { scope := .dev, ord := .relaxed, wide := true, d := 1, mem := { base := 0, off := 0 }, b := .g 0 }) = false
    ∧ Instr.wf (.atomCas 7 { scope := .dev, ord := .relaxed, wide := false, d := 0, mem := { base := 0, off := 0 }, b := .g 1 }) = false
    ∧ Instr.wf (.atomInc 7 { scope := .dev, ord := .relaxed, wide := true, d := 0, mem := { base := 0, off := 0 }, b := .g 0 }) = false
    ∧ Instr.wf (.redAdd 7 { scope := .dev, wide := true, mem := { base := 0, off := 0 }, b := .g 1 }) = false
    ∧ Instr.wf (.enq 7 { team := false, scope := none, esz := 2, d := 0, mem := { base := 0, off := 0 }, b := 2 }) = false
    ∧ Instr.wf (.deq 7 { team := false, scope := none, esz := 6, d := 0, mem := { base := 0, off := 0 }, b := 0 }) = false := by decide +kernel
theorem test_wf_matrix_and_engines :
    Instr.wf (.tld 7 0 0 { base := 1, off := 0 } (.g 0)) = false ∧ Instr.wf (.accLdMem 7 0 .f32 .fp32 0 { base := 1, off := 0 } (.g 0)) = false
    ∧ Instr.wf (.tzero 7 0 0 3) = false ∧ Instr.wf (.mma 7 { row0 := 0, a := 0, f := .g 0, mf := 3, nf := 0, h := 0, tb := 0, col := 0, p := 0 }) = false
    ∧ Instr.wf (.mma 7 { row0 := 0, a := 0, f := .g 0, mf := 0, nf := 0, h := 0, tb := 0, col := 0, p := 1 }) = false
    ∧ Instr.wf (.mmaSp 7 { row0 := 0, a := 0, f := .g 0, mf := 0, nf := 0, h := 0, tb := 0, col := 0, p := 3 }) = false
    ∧ Instr.wf (.mfactLu 7 { d := 1, o := 0, f64 := false, flag := false, pm := 0, h := 0 }) = false
    ∧ Instr.wf (.mtrsm 7 { d := 0, o := 1, f64 := false, flag := false, up := false, unit := false, h := 0 }) = false
    ∧ Instr.wf (.copy 7 { d := 0, a := 2, b := 0, k := 0, c := none }) = false ∧ Instr.wf (.copyMc 7 { d := 0, a := 0, b := 1, k := 0, c := none } 0) = false
    ∧ Instr.wf (.copy 7 { d := 0, a := 0, b := 0, k := 0, c := some 1 }) = false ∧ Instr.wf (.ftest 7 4 4) = false ∧ Instr.wf (.join 7 1) = false
    ∧ Instr.wf (.commit 7 { gmask := 0, pmask := 0, k := some 1 }) = false := by decide +kernel

/-! ## Results of worked examples: one word by one thread -/

/-- A block of one thread in the middle of a clause, with some registers; the word issues next. -/
def str : Str :=
  { core := 0, picker := 0, part := 0, obj := 0, hdr := placeHdr, pc := 4, sched := false, members := [placeThread],
    seq := 0, hold := [], opened := none }
def stateOf (g : Sparse 32) : State :=
  { State.reset with boot := .done, blocks := [placeBlock], teams := [Team.fresh 0 false 0 0 0],
                     threads := [{ Thread.fresh placeThread 4 with g := g }], strings := [str] }
/-- A thing of the state that a word leaves. -/
def after {α : Type} (i : Instr) (s : State) (f : State → Option α) : Option α :=
  match exec i s with
  | .next t => f t
  | _ => none
def gAfter (i : Instr) (g : Sparse 32) (r : GReg) : Option Word := after i (stateOf g) fun t => (t.thread? placeThread).map (·.gr r)

/-- The table under R230. -/
theorem test_division :
    gAfter (.divI32 7 2 0 (.g 1)) [(0, 0xfffffff9), (1, 2)] 2 = some 0xfffffffd
    ∧ gAfter (.remI32 7 2 0 (.g 1)) [(0, 0xfffffff9), (1, 2)] 2 = some 0xffffffff
    ∧ gAfter (.divI32 7 2 0 (.g 1)) [(0, 0x80000000), (1, 0xffffffff)] 2 = some 0x80000000
    ∧ gAfter (.divN32 7 2 0 (.g 1)) [(0, 7)] 2 = some 0xffffffff ∧ gAfter (.remN32 7 2 0 (.g 1)) [(0, 7)] 2 = some 7 := by decide +kernel
/-- `bitfn` as a select (R234), `lea.sx` (R243), and shifts by the whole width (R229). -/
theorem test_bitfn_lea :
    gAfter (.bitfn 7 4 5 (.g 6) 7 0xd8) [(5, 0xff00ff00), (6, 0x12345678), (7, 0x9abcdef0)] 4 = some 0x12bc56f0
    ∧ gAfter (.lea 7 true 3 10 4 (.g 6) 0x40) [(5, 0x40), (6, 0xffffffff)] 10 = some 0x38
    ∧ gAfter (.lea 7 true 3 10 4 (.g 6) 0x40) [(5, 0x40), (6, 0xffffffff)] 11 = some 0x40
    ∧ gAfter (.shl 7 2 0 (.g 1)) [(0, 1), (1, 32)] 2 = some 0 ∧ gAfter (.sar 7 2 0 (.g 1)) [(0, 0x80000000), (1, 255)] 2 = some 0xffffffff := by
  decide +kernel
/-- Examples under R257 and R263: a tie, its rounding up, an invalid product, a conversion. -/
theorem test_float :
    gAfter (.fadd 7 .f32 .rne 2 0 (.g 1)) [(0, 0x4b800000), (1, 0x3f800000)] 2 = some 0x4b800000
    ∧ gAfter (.fadd 7 .f32 .ru 2 0 (.g 1)) [(0, 0x4b800000), (1, 0x3f800000)] 2 = some 0x4b800001
    ∧ gAfter (.fmul 7 .f32 .rne 2 0 (.g 1)) [(1, 0x7f800000)] 2 = some 0x7fc00000
    ∧ gAfter (.fdiv 7 false .rne 2 0 (.g 1)) [(0, 0x3f800000), (1, 0x80000000)] 2 = some 0xff800000
    ∧ gAfter (.cvt 7 .rz .i32 .f32 2 0) [(0, 0xc0200000)] 2 = some 0xfffffffe
    ∧ gAfter (.cvt 7 .rne .f16 .f32 2 0) [(0, 0x47c35000)] 2 = some 0x7c00 := by decide +kernel
/-- The quantising example of R268 and R269. -/
theorem test_packed :
    gAfter (.pack 7 .rne false .e4m3 1 10 5) [(5, 0xbe99999a), (10, 0x3c)] 10 = some 0xaa3c
    ∧ gAfter (.pack 7 .rne false .e4m3 2 10 6) [(6, 0x43fa0000), (10, 0xaa3c)] 10 = some 0x7eaa3c
    ∧ gAfter (.fscale 7 false .rne 0 15 14 (.g 13)) [(13, 0x7c), (14, 0x41f60000)] 15 = some 0x40760000 := by decide +kernel
/-- R48: a write to p7 is ignored. -/
theorem test_write_p7 : after (.setp 7 (.i32 .ne) 7 0 (.imm 0)) (stateOf []) (fun t => (t.thread? placeThread).map fun th => (th.pr 7, th.pc)) = some (true, 12) := by
  decide +kernel
/-- R328, Table 8.2: `trap 0x42` parks the thread with its code. -/
theorem test_trap : after (.trap 7 0x42) (stateOf []) (fun t => (t.thread? placeThread).map (·.status))
    = some (.parked { cause := .swTrap, addr := 0, sub := 0x42, word := true }) := by decide +kernel
/-- R291, R294: the last signer of a barrier of one block lets it complete; here the release that comes before is begun. -/
theorem test_bar : after (.barBlk 7) (stateOf []) (fun t => some (t.agenda, t.rels.map (·.scope))) = some ([.releaseComplete 1], [.blk]) := by decide +kernel
/-- Words placed where the first step fetches them run. -/
theorem test_step_runs : (match step (State.reset.withFetchWord 32 0x2840002f) with | .next t => (t.thread? placeThread).map (·.gr 16) | _ => none) = some 5 := by
  decide +kernel

/-- R365's worked example in Hinus, and its native text with the register that holds V130. -/
def hinCode0 : List Word := [0xb0000008, 0x2800002f, 0x82, 0, 0x04000007, 0, 0x82, 0x82, 0x6c000007]
def native0 (r : Word) : Config.Translated :=
  { text := [0x1f87ff83, 0x2800002f ||| (r <<< 18), 0x04000007 ||| (r <<< 11) ||| (r <<< 4), 0x6c000007], segs := [0], stk := [0],
    places := [⟨0, 0, .own⟩, ⟨0, 3, .own⟩, ⟨0, 7, .own⟩] }
/-- With V130 in g16 it is a translation, in the words of the example; in g48, which is not saved, it is none. -/
theorem test_hinus : (native0 16).text = [0x1f87ff83, 0x2840002f, 0x04008107, 0x6c000007]
    ∧ ((hinCode hinCode0 [0x4001]).map fun c => (translationOk c [] [0] (native0 16), translationOk c [] [0] (native0 48))) = some (true, false) := by
  decide +kernel

/-! ## Witnesses: states and operands that meet the hypotheses of the statements -/

/-- The thread of the small state with changes, and the state with it. -/
def th0 : Thread := Thread.fresh placeThread 4
def withTh (f : Thread → Thread) : State := { stateOf [] with threads := [f th0] }
def S : State := stateOf []
/-- A word at the head of the small state's string. -/
theorem atWord_str (i : Instr) (s : State) (hs : s.strings = [str]) (h : (s.boarded i str || !s.regsOk i placeThread) = false) : AtWord s str [] i := by
  simp only [Bool.or_eq_false_iff, Bool.not_eq_false'] at h
  exact ⟨hs, h.1, by intro id hid; simp only [str, List.mem_singleton] at hid; subst hid; exact h.2⟩

/-- A next state is answered. -/
def answers (o : Host.Outcome State Fault Refusal) : Bool :=
  match o with
  | .next _ => true
  | _ => false
/-- A word is in place and is fetched: nothing else can happen (StepRunsWord). -/
def fetched : State := State.reset.withFetchWord 32 0x2840002f
theorem witness_StepRunsWord : fetched.boot = .done ∧ fetched.cands = [.word 0] ∧ (fetched.focus 0).strings = str :: []
    ∧ (fetched.focus 0).textWord str.core str.part str.obj str.pc.toNat = some 0x2840002f
    ∧ decode [0x2840002f, ((fetched.focus 0).textWord str.core str.part str.obj (str.pc.toNat + 4)).getD 0] = .ok (.addi 7 16 0 5, [0])
    ∧ answers (exec (.addi 7 16 0 5) (((fetched.focus 0).late str).useCopies (.addi 7 16 0 5) str)) = true
    ∧ (fetched.focus 0).badReader (.addi 7 16 0 5) str = none
    ∧ (({ fetched with threads := fetched.threads.map fun t => { t with gbad := [0] } } : State).focus 0).badReader (.addi 7 16 0 5) str = some placeThread := by
  refine ⟨by decide +kernel, by decide +kernel, by decide +kernel, by decide +kernel, by decide +kernel, by decide +kernel, by decide +kernel,
    by decide +kernel⟩
theorem witness_StepIsACandidate : State.reset.boot = .off ∧ ({ S with boot := .failed } : State).boot = .failed
    ∧ ({ State.reset with boot := .done } : State).cands = [] ∧ fetched.cands ≠ []
    ∧ ({ S with agenda := [.keySlotBusyClear] } : State).agenda[0]? = some .keySlotBusyClear
    ∧ (0, 0) ∈ ({ fetched with strings := [], threads := [Thread.fresh placeThread 0] } : State).pickersReady := by
  refine ⟨by decide +kernel, by decide +kernel, by decide +kernel, by decide +kernel, by decide +kernel, by decide +kernel⟩
theorem witness_StepKeepsCanonical : Canonical State.reset ∧ answers (step State.reset) = true :=
  ⟨⟨by decide +kernel, by decide +kernel⟩, by decide +kernel⟩
theorem witness_HeldRegisterStalls : IsRegisterWord (.mov 7 2 (.g 1)) ∧ (withTh fun t => { t with hold := [1] }).strings = [str]
    ∧ placeThread ∈ (withTh fun t => { t with hold := [1] }).actors (guardOf (.mov 7 2 (.g 1))) str
    ∧ (∃ p ∈ gWaited (.mov 7 2 (.g 1)), ∃ r ∈ ({ th0 with hold := [1] } : Thread).hold, p.1 ≤ r.toNat ∧ r.toNat < p.1 + p.2) :=
  ⟨⟨fun _ t y => out1 2 (bval y t (.g 1)), fun _ => rfl⟩, rfl, by decide +kernel, by decide +kernel⟩
/-- A block of 16 registers lacks g100. -/
def small : State := { S with blocks := [{ placeBlock with shape := { placeShape with gregs := 16 } }] }
theorem witness_MissingRegisterTraps : IsRegisterWord (.mov 7 100 (.g 1)) ∧ small.strings = [str] ∧ small.boarded (.mov 7 100 (.g 1)) str = false
    ∧ placeThread ∈ str.members ∧ small.thread? placeThread = some th0 ∧ small.isRed 0 = false
    ∧ (∃ p ∈ gNamed (.mov 7 100 (.g 1)), ∃ k < p.2, gExists (small.gregs placeThread) (p.1 + k) = false) :=
  ⟨⟨fun _ t y => out1 100 (bval y t (.g 1)), fun _ => rfl⟩, rfl, by decide +kernel, by decide +kernel, by decide +kernel, by decide +kernel, by decide +kernel⟩
/-- A redundant block: leader and wheeler. -/
def redBlock : Block := { placeBlock with shape := { placeShape with red := true } }
def wheelThread : ThreadId := { placeThread with wheel := true }
def redState (f : Thread → Thread) : State :=
  { S with blocks := [redBlock], teams := [Team.fresh 0 false 0 0 0, Team.fresh 0 true 0 0 0], threads := [f th0, f (Thread.fresh wheelThread 4)] }
def trap1 : TrapInfo := { cause := .swTrap, addr := 0, sub := 1, word := true }
theorem witness_TrapTaking : S.thread? placeThread = some th0 ∧ S.isRed 0 = false
    ∧ (redState fun t => { t with granted := true }).thread? placeThread = some { th0 with granted := true }
    ∧ (redState id).isRed 0 = true ∧ (redState id).thread? placeThread = some th0
    ∧ ({ th0 with status := .parked trap1 } : Thread).status = .parked trap1 ∧ trap1.tag = none ∧ trap1.word = true
    ∧ ({ trap1 with word := false } : TrapInfo).word = false ∧ ({ trap1 with tag := some 4 } : TrapInfo).tag.isSome = true := by
  refine ⟨?_, ?_, ?_, ?_, ?_, ?_, ?_, ?_, ?_, ?_⟩ <;> decide +kernel
theorem witness_TrapsAndIllegalWords : S.strings = [str] ∧ S.thread? placeThread = some th0 ∧ S.isRed 0 = false ∧ AtWord S str [] (.brk 7 0xff)
    ∧ placeThread ∈ S.actors 7 str
    ∧ placeThread ∉ S.actors 0 str ∧ th0.ready = true :=
  ⟨rfl, by decide +kernel, by decide +kernel, atWord_str _ _ rfl (by decide +kernel), by decide +kernel, by decide +kernel, by decide +kernel⟩

/-! Register words: a word of each statement stands at the head of a string (RegWordDoes, YokeWordDoes). -/

theorem witness_IntegerArithmetic : AtWord S str [] (.add 7 2 0 (.g 1)) ∧ AtWord S str [] (.xori 0 127 127 0x80) ∧ AtWord S str [] (.brev 7 2 0)
    ∧ S.inj.getLsbD 0 = false :=
  ⟨atWord_str _ _ rfl (by decide +kernel), atWord_str _ _ rfl (by decide +kernel), atWord_str _ _ rfl (by decide +kernel), by decide +kernel⟩
theorem witness_IntegerShifts : AtWord S str [] (.rol 7 2 0 (.y 63)) ∧ S.inj.getLsbD 0 = false := ⟨atWord_str _ _ rfl (by decide +kernel), by decide +kernel⟩
theorem witness_IntegerDivisionAndMultiplyAdd : AtWord S str [] (.remI32 7 2 0 (.g 1)) ∧ AtWord S str [] (.madWideN32 7 126 0 (.g 1) 2) :=
  ⟨atWord_str _ _ rfl (by decide +kernel), atWord_str _ _ rfl (by decide +kernel)⟩
theorem witness_IntegerBitFields : AtWord S str [] (.bfi 7 2 0 (.g 1) (.imm 31 32)) ∧ AtWord S str [] (.prmt 7 2 0 (.g 1) (.reg 5)) :=
  ⟨atWord_str _ _ rfl (by decide +kernel), atWord_str _ _ rfl (by decide +kernel)⟩
theorem witness_ComparesPredicatesSelect : AtWord S str [] (.setp 7 (.n64 .ge) 6 0 (.src (.g 2))) ∧ AtWord S str [] (.g2p 7 0 0x7f) :=
  ⟨atWord_str _ _ rfl (by decide +kernel), atWord_str _ _ rfl (by decide +kernel)⟩
theorem witness_MovesAndSpecials : AtWord S str [] (.movs 7 2 .clock) ∧ S.inj.getLsbD 0 = false ∧ S.redString = false ∧ placeThread ∈ S.actors 7 str
    ∧ S.thread? placeThread = some th0 ∧ S.block? 0 = some placeBlock ∧ S.teamOf placeThread = some (Team.fresh 0 false 0 0 0) :=
  ⟨atWord_str _ _ rfl (by decide +kernel), by decide +kernel, by decide +kernel, by decide +kernel, by decide +kernel, by decide +kernel, by decide +kernel⟩
theorem witness_SixtyFourBit : AtWord S str [] (.sarI64 7 2 0 (.imm 63)) ∧ AtWord S str [] (.maxN64 7 2 0 (.y 62)) :=
  ⟨atWord_str _ _ rfl (by decide +kernel), atWord_str _ _ rfl (by decide +kernel)⟩
theorem witness_YokeWords : (62 : YReg).toNat % 2 = 0 ∧ AtWord S str [] (.yadd 7 true 62 0 (.y 2))
    ∧ (S.actors (guardOf (.yadd 7 true 62 0 (.y 2))) str).find? (sameTeam placeThread) = some placeThread
    ∧ ((S.actors (guardOf (.yadd 0 true 62 0 (.y 2))) str).any (sameTeam placeThread)) = false :=
  ⟨by decide +kernel, atWord_str _ _ rfl (by decide +kernel), by decide +kernel, by decide +kernel⟩

/-! Numbers: encodings of values at the ends of the cases. -/

theorem witness_FloatArithmetic : AtWord S str [] (.fma 7 .f64 .rd 2 0 (.g 4) 6) ∧ valueOf f32 0x3f800000 = some 1 ∧ valueOf f32 0xbf800000 = some (-1)
    ∧ valueOf f32 0 = some 0 ∧ f32.val 0x7f800000 = .inf false ∧ f32.val 0xff800000 = .inf true := by
  refine ⟨atWord_str _ _ rfl (by decide +kernel), ?_, ?_, ?_, by decide +kernel, by decide +kernel⟩ <;>
    · norm_num [valueOf, FFmt.val, f32, dyadic]

theorem witness_RoundingIsCorrect : f32 ∈ floatFormats ∧ Exactly { s := false, m := 1, e := 0, sticky := false } 1
    ∧ (roundTo f32 .rne { s := false, m := 1, e := 0, sticky := false }).fl &&& flOF = 0
    ∧ Exactly { s := true, m := 1, e := 128, sticky := false } (-2 ^ 128)
    ∧ (roundTo f32 .rne { s := true, m := 1, e := 128, sticky := false }).fl &&& flOF ≠ 0 := by
  refine ⟨by decide +kernel, ⟨rfl, ?_⟩, by decide +kernel, ⟨rfl, ?_⟩, by decide +kernel⟩ <;> norm_num [dyadic]
theorem witness_FloatComparesAndSigns : AtWord S str [] (.fmin 7 .f32 2 0 (.g 1)) ∧ valueOf f32 0x3f800000 = some 1
    ∧ (f32.val 0xff800001).isNan = true ∧ (f32.val 0x7f800000).isNan = false ∧ f32.val 0x7f800001 = .nan false true 1
    ∧ f32.val 0xff800000 = .inf true ∧ f32.val 0x80000001 = .fin true 1 (-149) := by
  refine ⟨atWord_str _ _ rfl (by decide +kernel), ?_, ?_, ?_, ?_, ?_, ?_⟩
  · norm_num [valueOf, FFmt.val, f32, dyadic]
  all_goals decide +kernel
theorem witness_ApproximateFunctions : AtWord S str [] (.frsq 7 false 2 0) ∧ (f32.val 0x7f800000).isNan = false ∧ f32.val 0x80000000 = .fin true 0 (-149)
    ∧ f32.val 0xbf800000 = .fin true 8388608 (-23) ∧ f32.val 0x40800000 = .fin false 8388608 (-21) ∧ dyadic false 8388608 (-21) = 4 ^ (1 : ℤ)
    ∧ f32.val 0x43000000 = .fin false 8388608 (-16) ∧ dyadic false 8388608 (-16) = 128 ∧ f32.val 0xc3170000 = .fin true 9895936 (-16)
    ∧ dyadic true 9895936 (-16) < -150 ∧ dyadic false 8388608 (-23) = 2 ^ (0 : ℤ) ∧ dyadic true 0 (-149) = (0 : ℤ) ∧ f32.val 0x7f800000 = .inf false := by
  refine ⟨atWord_str _ _ rfl (by decide +kernel), by decide +kernel, by decide +kernel, by decide +kernel, by decide +kernel, ?_, by decide +kernel, ?_,
    by decide +kernel, ?_, ?_, ?_, by decide +kernel⟩ <;> norm_num [dyadic]
theorem witness_ConversionsAndIntegralRounding : AtWord S str [] (.unpack 7 .rne true .int4 7 2 0) ∧ (7 : BitVec 3).toNat < Fmt.int4.packed
    ∧ AtWord S str [] (.fscale 7 true .rd 3 2 0 (.g 1)) ∧ 0x3f800000 < 2 ^ f32.w ∧ valueOf f32 0x3f800000 = some 1 ∧ f32.val 0x7f800000 = .inf false
    ∧ (-2 ^ 31 : Int) ≤ 2 ^ 31 - 1 ∧ (f32.val 0x7fc00000).isNan = true := by
  refine ⟨atWord_str _ _ rfl (by decide +kernel), by decide +kernel, atWord_str _ _ rfl (by decide +kernel), by decide +kernel, ?_, by decide +kernel, by decide, by decide +kernel⟩
  norm_num [valueOf, FFmt.val, f32, dyadic]
theorem witness_DotProducts : AtWord S str [] (.dp4 7 .e4m3 2 0 (.g 1) 3) ∧ ffmt .e4m3 = some e4m3 ∧ element .e4m3 0x38383838 3 = 0x38 ∧ valueOf e4m3 0x38 = some 1
    ∧ valueOf f32 0x3f800000 = some 1 ∧ (e4m3.val (element .e4m3 0x7f000000 3)).isNan = true := by
  refine ⟨atWord_str _ _ rfl (by decide +kernel), by decide +kernel, by decide +kernel, ?_, ?_, by decide +kernel⟩ <;>
    norm_num [valueOf, FFmt.val, f32, e4m3, dyadic, FFmt.emin]
theorem witness_StochasticRounding : ffmt .e4m3 = some e4m3 ∧ (3 : BitVec 3).toNat < Fmt.e4m3.packed ∧ AtWord S str [] (.cvtSr 7 .e4m3 3 2 0)
    ∧ S.inj.getLsbD 0 = false ∧ (∀ id ∈ str.members, S.isRed id.blk = false) ∧ str.members.Nodup ∧ str.sched = false ∧ AtWord S str [] (.srseed 7 (.g 0))
    ∧ placeThread ∈ S.actors 7 str ∧ S.isWheel placeThread = false ∧ (∀ k ∈ S.actors 7 str, S.isWheel k = false → k ≠ placeThread → placeThread.tid < k.tid)
    ∧ e2m1 ∈ floatFormats ∧ valueOf f32 0x3fa00000 = some (5 / 4) ∧ valueOf e2m1 2 = some 1 ∧ valueOf e2m1 3 = some (3 / 2) := by
  refine ⟨by decide +kernel, by decide +kernel, atWord_str _ _ rfl (by decide +kernel), by decide +kernel, by decide +kernel, by decide +kernel, by decide +kernel,
    atWord_str _ _ rfl (by decide +kernel), by decide +kernel, by decide +kernel, by decide +kernel, by decide +kernel, ?_, ?_, ?_⟩ <;>
    norm_num [valueOf, FFmt.val, f32, e2m1, dyadic]

/-! Control, hitches, the array. -/

/-- The clause of `str` with one word behind the header; its terminator's clause starts at 0 and ends at 8. -/
theorem witness_BranchesAndTargets : AtWord S str [] (.jmp 7 0) ∧ AtWord S str [] (.brx 7 2) ∧ placeThread ∈ S.actors 7 str ∧ S.isRed 0 = false
    ∧ InText fetched str 8 ∧ ¬ InText S str 8 ∧ ¬ InText fetched str 12 ∧ ¬ InText fetched str 2 :=
  ⟨atWord_str _ _ rfl (by decide +kernel), atWord_str _ _ rfl (by decide +kernel), by decide +kernel, by decide +kernel, by unfold InText; decide +kernel,
    by unfold InText; decide +kernel, by unfold InText; decide +kernel, by unfold InText; decide +kernel⟩
/-- The placed program with a thread that is changed. -/
def P (f : Thread → Thread) : State := { fetched with threads := [f th0] }
def deep (n : Nat) (l : List Word) : Thread → Thread := fun t => { t with ras := { dp := n, held := l } }
/-- The same with a launch whose private memory lies in a mapped page, and the first four bytes of that in the L1. -/
def spillAt (n : Nat) : State :=
  { P (deep n (List.replicate 8 8)) with
    launches := [{ (default : Launch) with pool := 0x10000, entkb := 1, privkb := 1 }], frames := wr fetched.frames 2 0x80
    masks := [{ part := 0, principal := 0, mask := 1 }]
    tlb := fetched.tlb ++ [{ mmu := .core 0, part := 0, va := 0x10000, size := 65536, leaf := { pa := 0x400000, owner := 0, key := 0, tag := 0, xo := false } },
      { mmu := .die 0, part := 0, va := 0x10000, size := 65536, leaf := { pa := 0x400000, owner := 0, key := 0, tag := 0, xo := false } }]
    l1 := (List.range 4).map fun k => { core := 0, pa := 0x400000 + k, val := 8, dirty := [], key := 0, tag := 0 } }
def spillPage : Acc := { loc := .mem 0x400000, key := 0, tag := 0, denied := false, page := 0x10000 }
theorem witness_CallsAndReturns :
    (AtWord (P (deep 7 (List.replicate 7 8))) str [] (.callx 7 2) ∧ str.members.Nodup ∧ InText fetched str (clauseEnd str)
      ∧ (∀ id ∈ (P (deep 7 (List.replicate 7 8))).actors 7 str, ∀ th ∈ (P (deep 7 (List.replicate 7 8))).thread? id, th.ras.dp < 8 ∧ InText fetched str (th.gr 2)))
    ∧ (AtWord (P (deep 8 (List.replicate 8 8))) str [] (.ret 7) ∧ InText fetched str 8)
    ∧ (NoStall (P (deep 272 (List.replicate 8 8))) str (.call 7 0) spillStall ∧ NoStall (P (deep 0 [])) str (.ret 7) refillStall ∧ fetched.isRed 0 = false
      ∧ placeThread ∈ fetched.actors 7 str)
    ∧ (AtWord (spillAt 8) str [] (.call 7 1) ∧ NoStall (spillAt 8) str (.call 7 1) spillStall ∧ InText (spillAt 8) str (clauseStart str + wordsAhead (1 : BitVec 22))
      ∧ ((spillAt 8).access placeThread (spillAddress 0) 4 .write).2 = .ok spillPage
      ∧ ((spillAt 8).access placeThread (spillAddress 0) 4 .write).1.thread? placeThread = (spillAt 8).thread? placeThread
      ∧ ((spillAt 8).access placeThread (spillAddress 0) 4 .write).1.block? 0 = some placeBlock)
    ∧ (AtWord (spillAt 9) str [] (.ret 7) ∧ NoStall (spillAt 9) str (.ret 7) refillStall
      ∧ ((spillAt 9).access placeThread (spillAddress 0) 4 .read).2 = .ok spillPage
      ∧ ∃ s : State, s = ((spillAt 9).access placeThread (spillAddress 0) 4 .read).1 ∧ s.isPoison 0x400000 = false ∧ s.updHeld 0 0x400000 = false
          ∧ (s.refillAcc placeThread spillPage).denied = false
          ∧ ∀ k < 4, s.ownByte placeThread (0x400000 + k) = none ∧ (s.l1Byte 0 (0x400000 + k)).isSome = true) := by
  refine ⟨⟨atWord_str _ _ rfl (by decide +kernel), ?_, ?_, ?_⟩, ⟨atWord_str _ _ rfl (by decide +kernel), ?_⟩, ⟨?_, ?_, ?_, ?_⟩,
    ⟨atWord_str _ _ rfl (by decide +kernel), ?_, ?_, ?_, ?_, ?_⟩, ⟨atWord_str _ _ rfl (by decide +kernel), ?_, ?_, ⟨_, rfl, ?_, ?_, ?_, ?_⟩⟩⟩ <;>
    (try unfold NoStall) <;> (try unfold InText) <;> decide +kernel
theorem witness_Exits : AtWord S str [] (.exit 7) ∧ placeThread ∈ S.actors 7 str ∧ S.isRed 0 = false
    ∧ (((withTh fun t => { t with status := .exited }).unsignableAll 0 false).unsignableAll 0 true).barCheckAll 0 = withTh (fun t => { t with status := .exited })
    ∧ S.isCont 0 = false ∧ S.block? 0 = some placeBlock ∧ placeBlock.state = .running :=
  ⟨atWord_str _ _ rfl (by decide +kernel), by decide +kernel, by decide +kernel, by decide +kernel, by decide +kernel, by decide +kernel, rfl⟩

/-- The state with another leaders' side. -/
def withSide (f : Side → Side) : State := { S with blocks := [{ placeBlock with lead := f Side.reset }] }
def hitched (y : Hitch) : State := withSide fun d => { d with hitch := d.hitch.set 0 y }
def armed (n : Nat) (l : List Sign) : Hitch := { st := .armed, c := n, m := 1, signed := l, held := [], late := false, room := false }
def sign0 (i : Instr) (v : List Word) : Sign := { th := placeThread, ins := i, vals := v, preds := [true] }
def thread1 : ThreadId := { placeThread with tid := 1 }
theorem witness_CollectivesSign : AtWord S str [] (.hitchSign 7 0) ∧ NoStall S str (.hitchSign 7 0) (signStall (.hitchSign 7 0)) ∧ AtWord S str [] (.tzero 7 15 0 3)
    ∧ NoStall S str (.tzero 7 15 0 3) (signStall (.tzero 7 15 0 3)) :=
  ⟨atWord_str _ _ rfl (by decide +kernel), by unfold NoStall; decide +kernel, atWord_str _ _ rfl (by decide +kernel), by unfold NoStall; decide +kernel⟩
theorem witness_SigningAHitch : (Side.reset.hi 0).st = .free ∧ S.side? 0 false = some Side.reset ∧ Side.reset.hitch.length = 16 ∧ th0.ready = true
    ∧ (let s : State := { hitched (armed 2 []) with threads := [th0, Thread.fresh thread1 4] }
       (∃ d, s.side? 0 false = some d ∧ d.hitch.length = 16 ∧ (d.hi 0).st = .armed ∧ (d.hi 0).signed.length + 1 < (d.hi 0).c)
       ∧ 2 ≤ 1 + ((s.eligible 0 false 1).filter fun k => k ≠ placeThread).length) := by
  refine ⟨by decide +kernel, by decide +kernel, by decide +kernel, by decide +kernel, ⟨_, rfl, by decide +kernel, by decide +kernel, by decide +kernel⟩, by decide +kernel⟩
theorem witness_HitchDeclaration : AtWord S str [] (.hitchDecl 7 15 (.y 63) 0xff) ∧ AtWord S str [] (.tcfg 7 15 (.g 2))
    ∧ NoStall S str (.tcfg 7 15 (.g 2)) (fun _ _ t => ctrFull t.tl) ∧ (Side.reset.hi 15).signed = []
    ∧ 1 ≤ (bval [(63, 2049)] th0 (.y 63)).toNat % 2048 ∧ (bval [(63, 2049)] th0 (.y 63)).toNat % 2048 ≤ (S.eligible 0 false 0xff).length ∧ (S.eligible 0 false 0xff).length < 2 ∧ ((hitched { armed 1 [] with st := .firing }).side? 0 false).isSome = true
    ∧ placeThread ∈ S.actors 7 str ∧ S.block? 0 = some placeBlock :=
  ⟨atWord_str _ _ rfl (by decide +kernel), atWord_str _ _ rfl (by decide +kernel), by unfold NoStall; decide +kernel, by decide +kernel, by decide +kernel, by decide +kernel, by decide +kernel, by decide +kernel, by decide +kernel, by decide +kernel⟩
theorem witness_CollectiveResults : ([sign0 (.foldAdd 7 0 2 1) [1]] : List Sign)[0]? = some (sign0 (.foldAdd 7 0 2 1) [1]) := rfl
theorem witness_HitchFires : (∃ d, (hitched (armed 1 [sign0 (.foldAdd 7 0 2 1) [1]])).side? 0 false = some d ∧ d.hitch.length = 16
      ∧ ranked (d.hi 0).signed = [sign0 (.foldAdd 7 0 2 1) [1]] ∧ isMat (.foldAdd 7 0 2 1) = false) ∧ S.inj.getLsbD 0 = false
    ∧ ∃ d, (hitched { armed 1 [sign0 (.foldAdd 7 0 2 1) [1]] with st := .firing }).side? 0 false = some d ∧ (d.hi 0).st = .firing ∧ (d.hi 0).late = false ∧ (d.hi 0).held = [] := by
  refine ⟨⟨_, rfl, by decide +kernel, by decide +kernel, by decide +kernel⟩, by decide +kernel, ⟨_, rfl, by decide +kernel, by decide +kernel, by decide +kernel⟩⟩
def op (i : Instr) (v : List Word) : MatOp := { id := 1, ins := i, vals := v, signers := [placeThread], tc := [], running := true, pc := 4, prog := 0, desc := [], stores := 0, cells := [] }
theorem witness_MatrixOperations : matCheck Side.reset placeShape (.accSnap 7 0 .i32 2 0 (.g 1)) [0] ≠ none
    ∧ matCheck Side.reset placeShape (.tzero 7 0 0 3) [] = none ∧ checkWaits Side.reset placeShape (.tzero 7 0 0 3) [] = false
    ∧ memPlan [] 16 (.tzero 7 0 0 3) [] = none ∧ isFact (.tzero 7 0 0 3) = false ∧ isSnap (.tzero 7 0 0 3) = false
    ∧ { Side.reset with ops := [{ op (.tzero 7 0 0 3) [] with running := false }] }.mayBegin placeShape { op (.tzero 7 0 0 3) [] with running := false } = true
    ∧ { Side.reset with ops := [op (.tzero 7 0 0 3) []] }.footPoison ((op (.tzero 7 0 0 3) []).foot placeShape) = false
    ∧ (∀ k : Reg4, (Side.reset.hi k).late = false) ∧ (∀ k : Reg4, ((matEffect Side.reset placeShape (op (.tzero 7 0 0 3) []) [] []).1.hi k).late = false) := by
  refine ⟨?_, ?_, ?_, ?_, ?_, ?_, ?_, ?_, ?_, ?_⟩ <;> decide +kernel
/-- Two groups of bytes, 16 by 64 and 64 by 16, and the product of both into 16 by 16 cells. -/
def tcs : Sparse 32 := [(0, 0x07e1e00b), (1, 0x01e7e00b)]
def mm : MmaArgs := { row0 := 112, a := 0, f := .g 1, mf := 0, nf := 1, h := 0, tb := 1, col := 63, p := 0 }
theorem witness_MatrixEffects : (regionOf 0).ok placeShape.accrows .i32 = true ∧ (grpOf tcs 16 0).isSome = true
    ∧ (match mmaPlan tcs 16 128 mm false 0x2bb with | some p => decide (p.ct = .i32 ∧ p.gb2 = none ∧ p.m = 16 ∧ p.n = 16 ∧ p.k = 64) | none => false) = true := by
  refine ⟨by decide +kernel, by decide +kernel, by decide +kernel⟩
def lu : FactArgs := { d := 2, o := 4, f64 := false, flag := false, pm := 0, h := 0 }
def luSide (n : Nat) : Side := { Side.reset with ops := [op (.mfactLu 7 lu) [0x00020000, 0]], mstat := { Side.reset.mstat with prog := n, active := true, kind := 1 } }
/-- The matrix of order 2 with the rows 0 1 and 2 0 takes its pivot from row 1. -/
theorem witness_Factorisations : ∃ p, factPlan (.mfactLu 7 lu) (valPair [0x00020000, 0]) = some p ∧ p.n = 2 ∧ p.cols = 2 ∧ p.flag = false ∧ p.kind = 1
    ∧ (luSide 0).ops.find? (fun o => isFact o.ins && o.running) = some (op (.mfactLu 7 lu) [0x00020000, 0]) ∧ (luSide 0).footPoison p.foot = false
    ∧ (factColumn p { luSide 0 with acc := [(1, 0x3f800000), (1024, 0x40000000)] }).trap = none ∧ p.pivot [(1, 0x3f800000), (1024, 0x40000000)] 0 = 1
    ∧ p.isZero (cellGet (luSide 0).acc p.wide 0 0) = true ∧ ∀ k : Reg4, ((luSide 2).hi k).late = false := by
  refine ⟨_, rfl, ?_, ?_, ?_, ?_, ?_, ?_, ?_, ?_, ?_, ?_⟩ <;> decide +kernel


/-! Memory: one mapped page whose tag the principal may read and write, with a NONE view of it in slot 0. -/

/-- A descriptor: base 0x10000, elements of 4 bytes, one dimension of 16 elements, stride 1 (Table 4.1). -/
def desc0 : Nat := 0x10000 + 2 * 2 ^ 64 + 1 * 2 ^ 67 + 15 * 2 ^ 96 + 2 ^ 256
def viewVa : DWord := 0x8000000000000000
def D : State :=
  { S with tlb := [{ mmu := .core 0, part := 0, va := 0x10000, size := 65536, leaf := { pa := 0x400000, owner := 0, key := 0, tag := 0, xo := false } },
      { mmu := .die 0, part := 0, va := 0x10000, size := 65536, leaf := { pa := 0x400000, owner := 0, key := 0, tag := 0, xo := false } }]
           frames := [(2, 0x80)], masks := [{ part := 0, principal := 0, mask := 1 }], preg := [(0x5500, 0x600001)],
           mem := wrNat [] 0x600000 64 desc0
           threads := [{ th0 with g := [(0, 0x10000), (3, 0x80000000), (4, 7)] }] }
def thD : Thread := { th0 with g := [(0, 0x10000), (3, 0x80000000), (4, 7)] }
def m0 : MemOp := { base := 0, off := 0 }
def inMem (denied : Bool) : Acc := { loc := .mem 0x400000, key := 0, tag := 0, denied := denied, page := 0x10000 }
def D0 : State := { D with masks := [{ part := 0, principal := 0, mask := 0 }] }
/-- The same view through one index entry at 0x10100, of which a byte is dirty in the L1. -/
def Dx : State :=
  { D with mem := wrNat [] 0x600000 64 (desc0 + 4 * 2 ^ 70 + 0x10100 * 2 ^ 448), l1 := [{ core := 0, pa := 0x400100, val := 0, dirty := [placeThread], key := 0, tag := 0 }] }
theorem witness_LoadAndStoreWords : AtWord D str [] (.ld 7 2 false 6 m0) ∧ AtWord D str [] (.stRel 7 .sys 3 m0 (.g 4)) ∧ placeThread ∈ D.actors 7 str
    ∧ NoStall D str (.ld 7 2 false 6 m0) (fun s _ t => s.loadStall t (t.gr64 m0.base + m0.off.signExtend 64) (2 ^ (2 : BitVec 3).toNat))
    ∧ NoStall D str (.stRel 7 .sys 3 m0 (.g 4)) (fun s c t => s.storeStall t (t.gr64 m0.base + m0.off.signExtend 64) (2 ^ (3 : BitVec 3).toNat) || s.viewWaits c t.id)
    ∧ isView (thD.gr64 m0.base + m0.off.signExtend 64) = false ∧ isView (thD.gr64 2) = true ∧ D.vstore? placeThread 4 = none
    ∧ Dx.viewIdx placeThread viewVa 4 ≠ [] :=
  ⟨atWord_str _ _ rfl (by decide +kernel), atWord_str _ _ rfl (by decide +kernel), by decide +kernel, by unfold NoStall; decide +kernel, by unfold NoStall; decide +kernel,
    by decide +kernel, by decide +kernel, by decide +kernel, by decide +kernel⟩
theorem witness_LoadOfOneThreadAnyWindow : D.thread? placeThread = some thD ∧ D.block? 0 = some placeBlock ∧ D.rels = [] ∧ D.upd = []
    ∧ (D.access placeThread 0x10000 4 .read).2 = .ok (inMem false) ∧ (D0.access placeThread 0x10000 4 .read).2 = .ok (inMem true)
    ∧ (D.access placeThread 0x10002 4 .read).2 = .error .align ∧ (S.access placeThread 0x10000 4 .read).2 = .error .xlate
    ∧ (match (D.access placeThread 0x0100000000000010 4 .read).2 with | .ok a => a.loc | _ => .mem 0) = .scr 0 0x10
    ∧ D.l1Byte 0 0x400000 = none ∧ D.flightByte 0 0x400000 = none
    ∧ (D.servedTo placeThread (D.fromL1 placeThread false (inMem false)) (inMem false)).denied = false
    ∧ (D0.servedTo placeThread (D0.fromL1 placeThread false (inMem true)) (inMem true)).denied = true
    ∧ (D.viewAccess placeThread viewVa 4 .read false).2.2.toOption.map (·.map (·.pa)) = some [0x400000, 0x400001, 0x400002, 0x400003]
    ∧ (match (D.viewAccess placeThread (viewVa + 64) 4 .read false).2.2 with | .error e => some e | _ => none) = some .viewBounds
    ∧ ((D0.viewAccess placeThread viewVa 4 .read false).2.2.toOption.map fun r => r.map (·.denied)) = some [true, true, true, true] := by
  refine ⟨?_, ?_, ?_, ?_, ?_, ?_, ?_, ?_, ?_, ?_, ?_, ?_, ?_, ?_, ?_, ?_⟩ <;> decide +kernel
theorem witness_StoreOfOneThread : D.sbufFull 0 4 = false ∧ D.sigFull placeThread 4 = false ∧ (D.access placeThread 0x10000 4 .write).2 = .ok (inMem false)
    ∧ (D0.access placeThread 0x10000 4 .write).2 = .error .permWrite ∧ (match (D.access placeThread 0x0100000000000010 4 .write).2 with | .ok a => a.loc | _ => .mem 0) = .scr 0 0x10
    ∧ ({ D with blocks := [redBlock] }).team? 0 false (teamIdx placeThread) = some (Team.fresh 0 false 0 0 0) := by
  refine ⟨?_, ?_, ?_, ?_, ?_, ?_⟩ <;> decide +kernel
/-- The example of R72: the bytes of a store stand in the core's L1, and a load of the same thread takes them from there. -/
theorem test_store_then_load :
    after (.st 7 2 m0 (.g 4)) D (fun t => t.l1Byte 0 0x400000 |>.map fun b => (b.val, b.dirty)) = some (7, [placeThread])
    ∧ (match exec (.st 7 2 m0 (.g 4)) D with
       | .next t => after (.ld 7 2 false 6 m0) { t with strings := [str] } fun u => u.rets.head?.map (·.outs)
       | _ => none) = some [(6, 7)] := by decide +kernel
theorem witness_MovsOfARedundantBlock : AtWord (redState id) str [] (.movs 7 2 .clock) ∧ (redState id).isRed 0 = true ∧ placeThread ∈ str.members
    ∧ NoStall (redState id) str (.movs 7 2 .clock) (fun s _ t => s.lvFull t.id) ∧ (redState id).inj.getLsbD 0 = false ∧ str.sched = false
    ∧ (redState id).lvPeek wheelThread = none
    ∧ ({ redState id with teams := [{ Team.fresh 0 false 0 0 0 with lvq := [{ pc := 4, vals := [{ tid := 0, src := 1, val := some [1, 2] }] }] }] }).lvPeek wheelThread = some [1, 2] := by
  refine ⟨atWord_str _ _ rfl (by decide +kernel), ?_, ?_, ?_, ?_, ?_, ?_, ?_⟩ <;> (try unfold NoStall) <;> decide +kernel
theorem witness_HintsPrefetchesAndWaits : AtWord S str [] (.wait 7 0 63 2 63) ∧ AtWord S str [] (.commit 7 { gmask := 0x8003, pmask := 3, k := some 8 })
    ∧ NoStall S str (.drainNt 7) (fun s _ t => s.sigPending t.id) ∧ NoStall S str (.commit 7 { gmask := 0x8003, pmask := 3, k := some 8 })
        (fun s _ t => s.isCont t.id.blk && s.orderStall t) ∧ placeThread ∈ S.actors 7 str := by
  refine ⟨atWord_str _ _ rfl (by decide +kernel), atWord_str _ _ rfl (by decide +kernel), ?_, ?_, ?_⟩ <;> (try unfold NoStall) <;> decide +kernel


/-! Irrevocable words, ordering, views, queues, engines. -/

def contBlock : Block := { placeBlock with shape := { placeShape with cont := true } }
/-- A contained block whose one thread waits at its `commit`. -/
def C : State := { S with blocks := [contBlock], threads := [{ th0 with status := .waiting (.commit 0 0 []) }] }
def granted : Thread → Thread := fun t => { t with granted := true }
/-- The redundant block with a full compare buffer of its leaders. -/
def full : State :=
  { redState id with teams := [{ Team.fresh 0 false 0 0 0 with sigs := List.replicate 64 { (default : SigEntry) with pc := 8 } }, Team.fresh 0 true 0 0 0] }
theorem witness_ImplicitCommits : C.block? 0 = some contBlock ∧ contBlock.shape.red = false ∧ contBlock.preempt = false ∧ C.allCommit 0 = true ∧ contBlock.releasing = []
    ∧ C.cmtOpen 0 = false ∧ C.busy 0 = false ∧ contBlock.arrayBusy = false ∧ C.sigsOpen 0 = false ∧ contBlock.rolling = false ∧ C.ckptOk contBlock = true
    ∧ noCheck str placeThread C = (C, none) ∧ (redState granted).thread? wheelThread = some (granted (Thread.fresh wheelThread 4))
    ∧ (redState granted).thread? { wheelThread with wheel := false } = some (granted th0) ∧ contBlock.valid ≠ some false ∧ ({ contBlock with valid := some false } : Block).valid = some false
    ∧ (redState id).sigFull placeThread 4 = false ∧ full.sigFull placeThread 4 = true := by
  refine ⟨?_, ?_, ?_, ?_, ?_, ?_, ?_, ?_, ?_, ?_, ?_, rfl, ?_, ?_, ?_, ?_, ?_, ?_⟩ <;> decide +kernel
def atom0 : AtomArgs := { scope := .dev, ord := .acqrel, wide := false, d := 8, mem := m0, b := .g 4 }
def red0 : RedArgs := { scope := .dev, wide := false, mem := m0, b := .g 4 }
theorem witness_AtomicsAndReductions : AtWord D str [] (.atomAdd 7 atom0) ∧ AtWord D str [] (.redAdd 7 red0) ∧ D.isRed 0 = false ∧ thD.pend = []
    ∧ NoStall D str (.atomAdd 7 atom0) (fun s _ t => s.atomStall t (memVa m0 t) 4 false || indexOpen s t (memVa m0 t) 4)
    ∧ NoStall D str (.redAdd 7 red0) (fun s _ t => s.atomStall t (memVa m0 t) 4 true || indexOpen s t (memVa m0 t) 4)
    ∧ (D.atomPlace placeThread (thD.gr64 0 + 0) 4 .atomic).2.2 = .ok (.mem 0x400000, 0)
    ∧ (D.atomPlace placeThread 0x0100000000000010 4 .write).2.2 = .ok (.scr 0 0x10, 0)
    ∧ D.atomReports [placeThread] m0 4 .atomic placeThread = [] := by
  refine ⟨atWord_str _ _ rfl (by decide +kernel), atWord_str _ _ rfl (by decide +kernel), ?_, ?_, ?_, ?_, ?_, ?_, ?_⟩ <;> (try unfold NoStall) <;> decide +kernel
/-- Table 12.6: signed minimum, increments that wrap, a compare that fails. -/
theorem test_atomFn : atomFn .minI false 0x80000000 1 0 = (some 0x80000000, 0) ∧ atomFn .minN false 0x80000000 1 0 = (some 1, 0)
    ∧ atomFn .inc false 5 5 0 = (some 0, 0) ∧ atomFn .dec false 9 5 0 = (some 5, 0) ∧ atomFn .cas false 3 4 9 = (none, 0)
    ∧ atomFn .add true 0xffffffffffffffff 2 0 = (some 1, 0) := by decide +kernel
def rel0 : Rel := { id := 9, th := placeThread, core := 0, scope := .dev, waits := [], upd := [], cells := [], after := none, acq := some .dev }
def barrier (st : TStatus) : State := { withTh (fun t => { t with status := st }) with rels := [rel0] }
theorem witness_FenceAndBarriers : AtWord S str [] (.fence 7 .sys) ∧ NoStall S str (.fence 7 .sys) (fun s _ t => s.orderStall t) ∧ AtWord S str [] (.barGrid 7)
    ∧ NoStall S str (.barGrid 7) (fun s _ t => s.orderStall t) ∧ S.block? 0 = some placeBlock ∧ placeBlock.shape.cores = false
    ∧ (rel0 ∈ (barrier .ready).rels ∧ rel0.id ∈ ({ str with hold := [9] } : Str).hold)
    ∧ ({ barrier (.waiting (.barrier .blk (some 9))) with blocks := [] }).block? 0 = none
    ∧ ({ barrier (.waiting (.barrier .blk (some 9))) with blocks := [] }).thread? placeThread = some { th0 with status := .waiting (.barrier .blk (some rel0.id)) }
    ∧ (∀ t ∈ (barrier (.waiting (.barrier .blk none))).threads, t.id.blk = 0 → t.status = .exited ∨ t.status = .waiting (.barrier .blk none)) ∧ S.threads = [th0] := by
  refine ⟨atWord_str _ _ rfl (by decide +kernel), ?_, atWord_str _ _ rfl (by decide +kernel), ?_, ?_, ?_, ?_, ?_, ?_, ?_, ?_⟩ <;> (try unfold NoStall) <;> decide +kernel
/-- The staging half of slot 0 is there, and the yoke words make a whole descriptor with it. -/
def staged : State :=
  { D with mem := wr (wrNat D.mem 0x600040 32 (desc0 % 2 ^ 256)) 0x600060 1, teams := [{ Team.fresh 0 false 0 0 0 with y := [(8, 1)] }] }
theorem witness_ViewWords : (AtWord staged str [] (.viewDefX 7 0 1) ∧ staged.actors 7 str = [placeThread]
      ∧ NoStall staged str (.viewDefX 7 0 1) (fun s _ t => s.orderStall t || ctrFull t.ld))
    ∧ S.viewSlot 0 0 = none ∧ staged.viewSlot (staged.partOf placeThread) 0 = some 0x600000 ∧ (rd staged.mem 0x600060).getLsbD 0 = true
    ∧ rdNat staged.mem 0x600040 32 + 2 ^ 256 * yokeRecord (staged.yOf placeThread) 1 = desc0 ∧ vOk desc0 = true ∧ vOk 0 = false ∧ staged.isCont 0 = false
    ∧ ({ rel0 with slot := some ([], 0x600000, desc0) } : Rel).slot = some ([], 0x600000, desc0) := by
  refine ⟨⟨atWord_str _ _ rfl (by decide +kernel), ?_, ?_⟩, ?_, ?_, ?_, ?_, ?_, ?_, ?_, rfl⟩ <;> (try unfold NoStall) <;> decide +kernel
def q0 : QueueArgs := { team := false, scope := some .dev, esz := 0, d := 8, mem := m0, b := 4 }
/-- A control block of four elements of 4 bytes (Table 5.1) in the mapped page, its ring at 0x10040; and one without room. -/
def qcb0 : Nat := 0x0210d951 + 2 ^ 32 * 0xa4bf + 2 ^ 128 * 4 + 2 ^ 256 * 0x18000
def qcb4 : Nat := qcb0 + 2 ^ 96 * 4 - 2 ^ 128 * 4
def Qs (b : QBind) : State := { D with mem := wrNat D.mem 0x400000 64 qcb0, teams := [{ Team.fresh 0 false 0 0 0 with q := b :: List.replicate 7 .unbound }] }
def port0 : GatherPort := { base := 0x10000, stride := 128, rs := 128, pushes := [], cur := [], lines := [List.replicate 128 1], gerr := true, seen := [] }
def push0 : Push := { (default : Push) with id := 7, idx := 0, row := none }
def opened : Str := { str with opened := some (3, []) }
theorem witness_QueueWords :
    (AtWord D str [] (.enqTry 7 q0) ∧ (∀ id ∈ str.members, D.isCont id.blk = false) ∧ D.actors 7 str ≠ [] ∧ D.qNotYet .atomic m0 placeThread = none
      ∧ NoStall D str (.enqTry 7 q0) (fun s _ t => s.qStall t true) ∧ AtWord { D with strings := [opened] } opened [] (.enqTry 7 q0)
      ∧ (tryRequests D q0 [placeThread]).find? (fun u => !([] : List ThreadId).contains u.1) = some (placeThread, [placeThread]))
    ∧ ((D.qPlace placeThread 0x10000 .atomic).2 = .ok (inMem false) ∧ (match (S.qPlace placeThread 0x10000 .atomic).2 with | .error e => some e | _ => none) = some .xlate
      ∧ (Qs .unbound).qcbOk 0x400000 qcb0 = true ∧ qBroken qcb0 = false ∧ qEs qcb0 = 4 ∧ qCap qcb0 = 4)
    ∧ (∃ s r, s = ({ D with mem := wrNat D.mem 0x400000 64 qcb4 } : State) ∧ r = queueMk true true q0 s str [placeThread] 0x10000 (inMem false) 3
      ∧ s.qcbAt 0x400000 0 = qcb4 ∧ s.qLater r qcb4 = false ∧ qBroken qcb4 = false ∧ s.qcbOk 0x400000 qcb4 = true ∧ r.fits qcb4 = true ∧ s.qRoom r qcb4 = false)
    ∧ (AtWord (Qs (.copy [])) str [] (.qunbind 7 0) ∧ (Qs (.copy [])).canEnd placeThread 0 = true ∧ (Qs (.copy [])).regReqs placeThread 0 = []
      ∧ (Qs (.copy [])).unbinding str.seq (fun u => !sameTeam u placeThread) = false
      ∧ (Qs (.gather { port0 with pushes := [push0] })).canEnd placeThread 0 = false)
    ∧ (AtWord (Qs .unbound) str [] (.qbindQueue 7 0 m0) ∧ NoStall (Qs .unbound) str (.qbindQueue 7 0 m0) (fun s _ t => s.orderStall t)
      ∧ (Qs .unbound).qNotYet .read m0 placeThread = none
      ∧ natOfBytes ((List.range 64).map fun k => ((Qs .unbound).ownByte placeThread (0x400000 + k)).getD ((Qs .unbound).homeByte (0x400000 + k) 0)) = qcb0)
    ∧ (AtWord (Qs (.gather port0)) str [] (.ldQ 7 2 8 0) ∧ NoStall (Qs (.gather port0)) str (.ldQ 7 2 8 0) (fun s _ t => s.qStall t false)
      ∧ AtWord (Qs (.gather port0)) str [] (.stQ 7 2 0 (.g 4)) ∧ NoStall (Qs (.gather port0)) str (.stQ 7 2 0 (.g 4)) (fun s _ t => s.qStall t true || ctrFull t.as)
      ∧ (Qs (.gather port0)).qregOf placeThread 0 = .gather port0) := by
  refine ⟨⟨atWord_str _ _ rfl (by decide +kernel), ?_, ?_, ?_, ?_, ⟨rfl, ?_, ?_⟩, ?_⟩, ⟨?_, ?_, ?_, ?_, ?_, ?_⟩, ⟨_, _, rfl, rfl, ?_, ?_, ?_, ?_, ?_, ?_⟩,
    ⟨atWord_str _ _ rfl (by decide +kernel), ?_, ?_, ?_, ?_⟩, ⟨atWord_str _ _ rfl (by decide +kernel), ?_, ?_, ?_⟩,
    ⟨atWord_str _ _ rfl (by decide +kernel), ?_, atWord_str _ _ rfl (by decide +kernel), ?_, ?_⟩⟩ <;> (try unfold NoStall) <;> (try simp only [ne_eq]) <;> decide +kernel
def c0 : CopyArgs := { d := 20, a := 12, b := 6, k := 1, c := none }
/-- A copy of one byte into the block's own scratch; the layout record in the yoke registers is all zero. -/
def thC : Thread := { th0 with g := [(0, 0x10000), (7, 0x01000000)] }
def Cs : State := { D with threads := [thC] }
theorem witness_CopyAndRelayWords : AtWord Cs str [] (.copy 7 c0) ∧ NoStall Cs str (.copy 7 c0) (fun s c t => s.copyStall c t c0 || coordsHeld s t c0)
    ∧ spansExist 128 [(12, 1)] = true ∧ spansExist 12 [(12, 1)] = false ∧ layoutBad 0 = false ∧ layoutBad (2 ^ 255) = true
    ∧ Cs.copyPlace placeThread (copyIn (Cs.yOf placeThread) thC c0 none) ≠ none ∧ D.copyPlace placeThread (copyIn (D.yOf placeThread) thD c0 none) = none
    ∧ Cs.enginesFree 0 0 ≠ [] ∧ AtWord Cs str [] (.relay 7 8 m0) ∧ (Cs.access placeThread 0x10000 64 .read).2 = .ok (inMem false) ∧ AtWord Cs str [] (.join 7 2)
    ∧ AtWord Cs str [] (.ftest 7 4 20) ∧ Cs.copyOf placeThread 20 = none := by
  refine ⟨atWord_str _ _ rfl (by decide +kernel), ?_, ?_, ?_, ?_, ?_, ?_, ?_, ?_, atWord_str _ _ rfl (by decide +kernel), ?_, atWord_str _ _ rfl (by decide +kernel),
    atWord_str _ _ rfl (by decide +kernel), ?_⟩ <;> (try unfold NoStall) <;> (try simp only [ne_eq]) <;> decide +kernel


/-! Device steps: the memory system, queues, engines, relay. -/

def load0 : Load :=
  { id := 5, th := placeThread, pc := 4, core := 0, dst := 6, size := 4, sx := false, fill := true, view := false, acq := none, bytes := atHome 0x400000 4 0,
    tag := 0, word := 5 }
def ret0 : Ret := { id := 5, th := placeThread, src := 5, outs := [(6, 1)], youts := [], lowersLd := true, poisoned := false, toReg := true, toQueue := false }
def wb0 : WB := { id := 6, core := 0, th := none, cells := [(0x400000, 7), (0x400001, 8)], nt := false, key := 0, atL2 := true, dom := false }
def remote0 : Remote := { id := 5, write := false, cells := [], load := some 5 }
def Ls : State := { D with loads := [load0], rets := [ret0] }
theorem witness_LoadsServed : Ls.loads.find? (fun x => x.id == 5) = some load0 ∧ Ls.upsets = []
    ∧ (∀ p ∈ load0.open, Ls.homeBusy p.1 1 = false ∧ Ls.l2Waits load0.core p.1 p.2 = false ∧ Ls.isRemote p.1 = false ∧ Ls.l1Byte load0.core p.1 = none)
    ∧ (∃ p ∈ load0.open, ∃ s : State, s = { Ls with merges := [{ wb := wb0, waits := [1], exposed := false }] } ∧ s.homeBusy p.1 1 = true ∧ s.l2Waits load0.core p.1 p.2 = true)
    ∧ (∃ p ∈ ({ load0 with bytes := atHome (2 ^ 42 + 0x400000) 4 0 } : Load).open, Ls.isRemote p.1 = true)
    ∧ ({ Ls with remotes := [remote0] }).remotes.find? (fun x => x.id == 5) = some remote0
    ∧ ({ Ls with wbs := [wb0] }).wbs.find? (fun x => x.id == 6) = some wb0 ∧ (wb0.cells.map (·.1)).Nodup
    ∧ Ls.rets.find? (fun x => x.id == 5) = some ret0 ∧ Ls.thread? placeThread = some thD ∧ ret0.th.wheel = false ∧ ret0.outs.map (·.1) = ({ thD with hold := [6] } : Thread).hold
    ∧ Ls.retWaits ret0 = false ∧ Ls.retWaits { ret0 with word := some 5 } = true
    ∧ (∃ s : State, s = { redState id with rets := [ret0], teams := [{ Team.fresh 0 false 0 0 0 with lvq := [{ pc := 4, vals := [{ tid := 0, src := 5, val := none }] }] }] }
      ∧ s.rets.find? (fun x => x.id == 5) = some ret0 ∧ s.isRed 0 = true
      ∧ (s.team? 0 false (teamIdx placeThread)).bind (fun m => m.lvq.find? fun e => e.vals.any fun v => v.tid == placeThread.tid)
        = some { pc := 4, vals := [{ tid := 0, src := 5, val := none }] }) := by
  refine ⟨?_, ?_, ?_, ⟨(0x400000, 0), ?_, _, rfl, ?_, ?_⟩, ?_, ?_, ?_, ?_, ?_, ?_, ?_, ?_, ?_, ?_, ⟨_, rfl, ?_, ?_, ?_⟩⟩ <;> decide +kernel
def dirty0 : L1Byte := { core := 0, pa := 0x400000, val := 7, dirty := [placeThread], key := 0, tag := 0 }
def guest0 : Guest := { agent := 1, line := 0x400000 / 128, data := List.replicate 128 0, key := 0, tag := 0 }
def dir0 : DirEntry := { line := 0x400000 / 128, coarse := false, ptrs := [1], vec := 0 }
def atom1 : AtomReq :=
  { id := 5, th := placeThread, pc := 4, core := 0, op := .add, wide := false, acq := none, dom := false, loc := .mem 0x400000, key := 0, b := 7, c := 0, dst := 6, red := false, word := 5 }
def upd0 : UpdOp := { id := 5, th := placeThread, core := 0, pa := 0x400000, key := 0, op := .add, wide := false, val := 7 }
def merge0 (nt : Bool) (waits : List Nat) : Merge := { wb := { wb0 with nt := nt, th := some placeThread }, waits := waits, exposed := false }
theorem witness_CoherenceSteps : ({ D with staccs := [{ id := 5, th := placeThread }] } : State).staccs.find? (fun (y : StAcc) => y.id == 5) = some { id := 5, th := placeThread }
    ∧ (∃ s : State, s = { D with rels := [rel0] } ∧ s.rels.find? (fun y => y.id == 9) = some rel0 ∧ s.relDone rel0 = true
        ∧ s.relDone { rel0 with waits := [6] } = true ∧ ({ s with wbs := [wb0] }).relDone { rel0 with waits := [6] } = false
        ∧ s.relDone { rel0 with cells := [{ loc := .mem 0x400000, val := 7, key := 0, tag := 0 }] } = true ∧ s.homeBusy 0x400000 1 = false ∧ s.dir = [])
    ∧ (∃ s : State, s = { D with wbs := [wb0] } ∧ s.wbBehind wb0 = false ∧ s.wbUpd wb0 = false ∧ s.sharers 0 wb0.cells = []
        ∧ (∀ c ∈ wb0.cells, s.isRemote c.1 = false ∧ s.needsDiscovery (lineOf c.1) = false))
    ∧ ({ D with wbs := [wb0], dir := [dir0] }).sharers 0 wb0.cells = [1] ∧ D.atHomePkg wb0 1 = true ∧ D.atHomePkg wb0 9 = false
    ∧ (merge0 false [1, 2]).waits.erase 1 ≠ [] ∧ (merge0 false [1]).waits.erase 1 = []
    ∧ (∃ b ∈ ({ D with l1 := [dirty0] } : State).l1, b.core = 0 ∧ lineOf b.pa = 0x400000 / 128 ∧ b.dirty ≠ [])
    ∧ ({ D with guests := [guest0], dir := [dir0] }).dirEntry? (0x400000 / 128) = some dir0 ∧ dir0.ptrs.length = 1 ∧ ({ dir0 with coarse := true } : DirEntry).coarse = true
    ∧ (∀ g ∈ ({ D with guests := [guest0], absent := [1] } : State).guests, g.agent ∈ [1]) ∧ guest0.agent < 64
    ∧ ({ D with merges := [{ wb := { wb0 with nt := true, th := some placeThread, cells := [] }, waits := [], exposed := true }] } : State).merges.find? (fun (y : Merge) => y.wb.id == 6 && y.wb.nt && y.wb.cells.isEmpty)
        = some { wb := { wb0 with nt := true, th := some placeThread, cells := [] }, waits := [], exposed := true }
    ∧ isMem 0x400000 = true ∧ pkgOf 0x400000 = D.chip.toNat ∧ D.homeBusy 0x400000 8 = false ∧ D.dir = []
    ∧ ({ D with merges := [merge0 false [1]] }).homeBusy 0x400000 8 = true ∧ D.pkgLost (pkgOf 0x400000) = false ∧ D.frameWait 0x400000 = false
    ∧ ({ D with atoms := [atom1] }).atomBehind atom1 = false ∧ (atomFn .add false 0 7 0).1 = some 7 ∧ (atomFn .cas false 3 4 9).1 = none
    ∧ ({ D with upd := [upd0] }).upd.filter (fun u => u.core == 0 && lineOf u.pa == 0x400000 / 128) = [upd0] ∧ D.underMerge 0x400000 = false
    ∧ D.needsDiscovery (0x400000 / 128) = false := by
  refine ⟨?_, ⟨_, rfl, ?_, ?_, ?_, ?_, ?_, ?_, ?_⟩, ⟨_, rfl, ?_, ?_, ?_, ?_⟩, ?_, ?_, ?_, ?_, ?_, ?_, ?_, ?_, ?_, ?_, ?_, ?_, ?_, ?_, ?_, ?_, ?_, ?_, ?_, ?_, ?_, ?_, ?_, ?_, ?_⟩ <;>
    (try simp only [ne_eq]) <;> decide +kernel
def vst0 : VStore :=
  { id := 5, th := placeThread, core := 0, pc := 4, word := 5, va := viewVa, desc := some desc0, data := [1, 2, 3, 4], nt := false, dom := false, rel := none,
    answer := none, pages := [], bytes := [], passed := true, scattered := false, wbs := [] }
def Vs : State := { D with vstores := [vst0] }
/-- Five levels of tables that map the page (R402). -/
def tables : State :=
  { D with tlb := [], preg := [(0x5000, 0x500000)],
           mem := wrNat (wrNat (wrNat (wrNat (wrNat [] 0x500000 16 0x510001) 0x510000 16 0x520001) 0x520000 16 0x530001) 0x530000 16 0x540001) 0x540010 16 0x400003 }
/-- A fault queue of 16 records, and one without room. -/
def fq (head tail : BitVec 64) : State :=
  { D with preg := [(0x5108, 0x80000004), (0x510c, head), (0x5110, tail)], fqHeld := [{ part := 0, record := 1 }] }
theorem witness_ViewStoresFaultsAndRings : Vs.vstores.find? (fun x => x.id == 5) = some vst0 ∧ Vs.vsBehind vst0 = false
    ∧ Vs.vsIndex vst0 = [] ∧ Vs.isWheel vst0.th = false ∧ (redState id).isWheel wheelThread = true
    ∧ (match Vs.viewThrough vst0.desc placeThread (viewVa + 64) 4 .write false with | (_, [], .error e) => some e | _ => none) = some .viewBounds
    ∧ (match Vs.viewThrough vst0.desc placeThread viewVa 4 .write false with | (_, [], .ok bs) => some bs.length | _ => none) = some 4
    ∧ (∀ k < 4, Vs.homeBusy (0x400000 + k) 1 = false) ∧ Vs.thread? placeThread = some thD ∧ Vs.block? 0 = some placeBlock
    ∧ ({ Vs with strings := [] }).inString placeThread = false ∧ ({ thD with hdr := none } : Thread).hdr = none
    ∧ (D.lookup (.die 0) 0 0x30000).toOption = none ∧ (D.tlb.filter fun y => y.mmu == .die 0).length < 4096 ∧ D.walkFaults = []
    ∧ D.hostOpen (.ringHeadWrite (.fault 0) 2) = false ∧ ({ D with hostHeld := [.keySlotBusyClear] }).hostOpen (.ringHeadWrite (.fault 0) 2) = true
    ∧ (∃ s : State, s = tables ∧ (s.lookup (.die 0) 0 0x10000).toOption.map (·.1.pa) = some 0x400000 ∧ (s.lookup (.die 0) 0 0x10000).toOption.map (·.2.tlb.length) = some 1
        ∧ (s.lookup (.die 0) 0 0x10000).toOption.map (·.2.walks.length) = some 4 ∧ s.xlOff 0 = false ∧ s.tlbHit (.die 0) 0 0x10000 = none)
    ∧ (fq 0 0).fqHeld.find? (fun h => h.part == 0) = some { part := 0, record := 1 } ∧ ((fq 0 0).pr 0 0x5108).getLsbD 30 = false
    ∧ ringRoom ((fq 0 3).pr 0 0x5108) ((fq 0 3).pr 0 0x510c) ((fq 0 3).pr 0 0x5110) = true ∧ ringRoom ((fq 4 3).pr 0 0x5108) ((fq 4 3).pr 0 0x510c) ((fq 4 3).pr 0 0x5110) = false
    ∧ (2 : Word).toNat < 2 ^ (((fq 0 3).ringRegs (.fault 0)).ctl.toNat % 32)
    ∧ ((2 : Word).toNat + 16 - ((fq 0 3).ringRegs (.fault 0)).head.toNat) % 16 ≤ (((fq 0 3).ringRegs (.fault 0)).tail.toNat + 16 - ((fq 0 3).ringRegs (.fault 0)).head.toNat) % 16
    ∧ (D.ringRegs (.fault 0)).ctl.getLsbD 31 = false := by
  refine ⟨?_, ?_, ?_, ?_, ?_, ?_, ?_, ?_, ?_, ?_, ?_, ?_, ?_, ?_, ?_, ?_, ?_, ⟨_, rfl, ?_, ?_⟩, ?_, ?_, ?_, ?_, ?_, ?_, ?_⟩ <;> decide +kernel
/-- A request of one thread for the queue of `Qs`. -/
def qr (enq try_ : Bool) : QReq :=
  { (default : QReq) with id := 5, enq := enq, try_ := try_, ths := [placeThread], elems := [[7]], qcb := 0x10000, qcbPa := 0x400000, es := 4, scope := .dev, dst := 4, stat := some 8 }
def Qr (r : QReq) : State := { Qs .unbound with qreqs := [r], strings := [], threads := [{ thD with status := .waiting (.queue 5), ld := 1, st := 1 }] }
/-- The same control block with one element in its ring. -/
def qcb1 : Nat := qcb0 + 2 ^ 96 - 2 ^ 128
theorem witness_QueueSteps : ReqNow (Qr (qr true false)) 5 (qr true false) ∧ (Qr (qr true false)).qBehind (qr true false) = false ∧ (Qr (qr true false)).waiters 0x400000 true = []
    ∧ (Qr (qr true false)).qcbAt 0x400000 0 = qcb0 ∧ qBroken qcb0 = false ∧ qBroken (qcb0 + 2 ^ 27) = true ∧ (Qr (qr true false)).qcbOk 0x400000 qcb0 = true
    ∧ (Qr (qr true false)).qcbOk 0x400000 (qcb0 + 1) = false ∧ (qr true false).fits qcb0 = true ∧ ({ qr true false with es := 8 } : QReq).fits qcb0 = false
    ∧ D.qRoom (qr true false) qcb0 = true ∧ D.qRoom (qr false true) qcb0 = false ∧ D.qRoom (qr false false) qcb1 = true ∧ (Qr (qr true false)).qcbOk 0x400000 qcb1 = true
    ∧ (Qr (qr true false)).qSlotsBusy (qr true false) qcb0 = false
    ∧ ((Qr (qr true false)).qSlots (qr true false) qcb0 (qTail qcb0) (List.range 1)).2.toOption.map (·.map fun a => (a.loc, a.denied)) = some [(.mem 0x408000, false)]
    ∧ (∀ c ∈ [0x408000], (Qr (qr true false)).underMerge c = false) ∧ (Qr (qr true false)).homeBusy 0x400000 64 = false ∧ 1 ≤ qFree qcb0
    ∧ ReqNow (Qr { qr true false with moving := some (0, [0x408000]) }) 5 { qr true false with moving := some (0, [0x408000]) }
    ∧ (∀ x ∈ (Qr { qr true false with moving := some (0, [0x408000]) }).qreqs, ∀ y ∈ x.moving, 0 ≤ y.1)
    ∧ ReqNow (Qr { qr true false with result := some (15, []), trap := some (.illegalOp, 0) }) 5 { qr true false with result := some (15, []), trap := some (.illegalOp, 0) }
    ∧ ReqNow (Qr { qr false false with result := some (0, [[7]]) }) 5 { qr false false with result := some (0, [[7]]) }
    ∧ (Qr (qr true false)).thread? placeThread = some { thD with status := .waiting (.queue 5), ld := 1, st := 1 } := by
  refine ⟨?_, ?_, ?_, ?_, ?_, ?_, ?_, ?_, ?_, ?_, ?_, ?_, ?_, ?_, ?_, ?_, ?_, ?_, ?_, ?_, ?_, ?_, ?_, ?_⟩ <;> (try unfold ReqNow) <;> decide +kernel


/-! Engines and the relay. -/

/-- A loaded object with one entry at text offset 0, a relay area, a principal, function 0 and bulkhead 0 of partition 0. -/
def W : State :=
  { D with
    vfPart := [(0, 0)]
    bulkheads := State.reset.bulkheads.set 0 { Bulkhead.reset with state := .run, cores := 24, assigned := true, gateOpen := true }
    preg := [(0x5300, 0x800000), (0x5308, 1), (0x5400, 0x10400), (0x5408, 0x80000003), (0x5500, 0x600001), (0x5600, 0x700000), (0x5608, 1)]
    areas := [{ part := 0, die := 0, enabled := true, busy := false, slots := 4, gens := [] }]
    mem := wrNat (wrNat (wrNat (wrNat (wrNat D.mem 0x400200 64 (2 ^ 448 * 0x10000 + 2 ^ 416 * 64 + 2 ^ 384)) 0x700000 4 1) 0x700008 8 (12 + 2 ^ 32)) 0x700010 16
      (placeVa + 2 ^ 64 * 0x10100)) 0x800200 64 (1 + 2 ^ 384) }
def relay0 : RelayReq := { (default : RelayReq) with id := 5, th := placeThread, loc := .scr 0 0, dst := 8, va := 0x0100000000000000, rel := 99 }
def rec0 : Record := { (default : Record) with handle := 0x40, join := 1, launch := 77, state := .held }
def Es (b : QBind) (cs : List CopyCmd) : State :=
  { D with teams := [{ Team.fresh 0 false 0 0 0 with y := [(8, 0x10000)], q := b :: List.replicate 7 .unbound }], copies := cs, strings := []
           threads := [{ thC with hold := [20, 8, 9], as := 1 }] }
def cmd0 : CopyCmd :=
  { (CopyCmd.load { (default : CopyCmd) with id := 5, th := placeThread, dst := some 20, engine := some 0, rel := 99 } (Es .unbound []) placeThread
      (copyIn [(8, 0x10000)] thC c0 none)) with engine := some 0 }
def sub0 (va : DWord) : CopyCmd := { (default : CopyCmd) with id := 5, th := placeThread, unread := true, cmd := va, rel := 99 }
theorem witness_EngineAndRelaySteps :
    (∃ s : State, s = Es (.gather { port0 with pushes := [push0], lines := [] }) [] ∧ (s.teams.find? (fun m => m.q.any (QBind.holds 7))).isSome = true ∧ push0.row = none
        ∧ (s.globAccess (.die 0) 0 0 0 0x10000 .read).2 = .ok (inMem false) ∧ s.gBusy placeBlock push0 [(0x10000, 128)] = false ∧ (0x10000 + 0 * 128) % 2 ^ 64 % 65536 + 128 ≤ 65536)
    ∧ ({ Es .unbound [] with masks := [{ part := 0, principal := 0, mask := 0 }] }.globAccess (.die 0) 0 0 0 0x10000 .read).2 = .ok (inMem true)
    ∧ (Es .unbound []).copies = []
    ∧ (∃ s : State, s = Es .unbound [cmd0] ∧ (∃ k < 4, s.classQueue 0 0 k ≠ []) ∧ (s.serve 40 (s.engineOf 0 0)).2 = some cmd0 ∧ cmd0.lay.toGlobal = false
        ∧ (Prog.elems { s := s, c := cmd0, dens := [] } .read (cmd0.range cmd0.done)).1.dens = []
        ∧ (Prog.elems { s := s, c := cmd0, dens := [] } .read (cmd0.range cmd0.done)).1.c = cmd0 ∧ (∀ pa ∈ cmd0.indexBytes s (cmd0.range cmd0.done), s.homeBusy pa 1 = false)
        ∧ ((Prog.elems { s := s, c := cmd0, dens := [] } .read (cmd0.range cmd0.done)).2.map fun e => (e.1, e.2.map (·.length))) = [(0, some 1)] ∧ s.copyHeld cmd0 = false
        ∧ chunkBusy s (Prog.elems { s := s, c := cmd0, dens := [] } .read (cmd0.range cmd0.done)).2 = [] ∧ cmd0.targets = [some (0, 0)] ∧ (s.copyLive (some (0, 0))).isSome = true
        ∧ cmd0.undel = [] ∧ cmd0.total = 1 ∧ s.copyOpen { cmd0 with done := 1 } = false)
    ∧ (∃ s : State, s = Es .unbound [sub0 0x30000] ∧ s.cmdBusy (sub0 0x30000) = [] ∧ (Prog.cmdBytes { s := s, c := sub0 0x30000, dens := [] } 0x30000 (List.range 64)).2 = none)
    ∧ (∃ s : State, s = { Es .unbound [sub0 0x10000] with mem := wrNat D.mem 0x400020 8 0x0100000000000000 }
        ∧ ((Prog.cmdBytes { s := s, c := sub0 0x10000, dens := [] } 0x10000 (List.range 64)).2.map fun bs => s.copyFault placeThread (parseCommand bs)) = some none)
    ∧ (∃ s : State, s = { Es .unbound [] with relays := [{ relay0 with join := some 0x40 }], records := [rec0] }
        ∧ s.relays.find? (fun q => q.part == 0 && q.join == some 0x40 && !(s.rels.any fun r => r.id == q.rel)) = some { relay0 with join := some 0x40 }
        ∧ s.records.find? (fun r => r.part == 0 && r.handle == 0x40) = some rec0 ∧ s.launch? rec0.launch = none)
    ∧ (∃ s : State, s = { Es .unbound [] with relays := [relay0] } ∧ natOfBytes (s.relayBytes relay0) = 0 ∧ s.postBad 0 0 = true ∧ s.launch? relay0.launch = none)
    ∧ (∃ s : State, s = { W with relays := [relay0], launches := [default] } ∧ s.launch? relay0.launch = some default ∧ natOfBytes (s.relayBytes relay0) = 0 ∧ s.postBad 0 0 = false ∧ s.postDie 0 0 = 0 ∧ s.freeSlots 0 0 = [0, 1, 2, 3]
        ∧ ({ s with areas := [] }).freeSlots 0 0 = []) := by
  refine ⟨⟨_, rfl, ?_, ?_, ?_, ?_, ?_⟩, ?_, rfl, ⟨_, rfl, ?_, ?_, ?_, ?_, ?_, ?_, ?_, ?_, ?_, ?_, ?_, ?_, ?_, ?_⟩, ⟨_, rfl, ?_, ?_⟩, ⟨_, rfl, ?_⟩, ⟨_, rfl, ?_, ?_, ?_⟩,
    ⟨_, rfl, ?_, ?_, ?_⟩, ⟨_, rfl, ?_, ?_, ?_, ?_, ?_, ?_⟩⟩ <;> (try simp only [ne_eq]) <;> decide +kernel
/-! Launches and blocks. -/

/-- A launch packet of one block of one thread (Table 18.3). -/
def packet : Nat := 2 ^ 64 * 0x10000 + 2 ^ 128 * 0x2000 + 2 ^ 384 * 0x10200 + 2 ^ 512 * 2 ^ 44
def Wq : State := { W with freg := wr (wr (wr State.reset.freg 0x1000 0x4000) 0x1008 0x80000004) 0x100c 1, host := wrNat [] 0x4000 128 packet }
def launch0 : Launch := W.launchOf 0 0 0 packet
def Wl : State := { W with launches := [launch0], nextId := 2, blocks := [], threads := [], teams := [], strings := [] }
def rec1 : Record := (Wl.expand launch0 0).headD default
theorem witness_LaunchSteps : Wq.sqReady 0 0 = true ∧ Wq.vfPartOf 0 = some 0 ∧ Wq.rrNext 0 0 0 = true ∧ Wq.noBhs 0 = false ∧ (Wq.sqFetch 0 0).toOption = some packet ∧ Wq.refusal 0 packet = none
    ∧ ({ Wq with vfPart := [] }).refusal 0 packet = some 1 ∧ Wq.refusal 0 (packet + 2 ^ 313) = some 2 ∧ (Wq.fr 0 (sqCtl 0)).getLsbD 30 = false
    ∧ Wl.launch? launch0.id = some launch0 ∧ launch0.cancelled = false ∧ launch0.failed = none ∧ launch0.waith = 0 ∧ launch0.expanded = []
    ∧ (Wl.expand launch0 0).all (·.gen.isSome) = true ∧ (Wl.expand launch0 0).length = 1 ∧ launch0.complDev = false ∧ ({ launch0 with outstanding := 0 } : Launch).outstanding = 0
    ∧ (∀ m ∈ Wl.merges, m.wb.core < devCore) ∧ ({ launch0 with paused := [(0, [rec1])] } : Launch).paused.find? (fun p => p.1 == 0) = some (0, [rec1]) ∧ rec1.gen.isSome = true
    ∧ rec1.part = launch0.part ∧ rec1.die = 0 := by
  refine ⟨?_, ?_, ?_, ?_, ?_, ?_, ?_, ?_, ?_, ?_, ?_, ?_, ?_, ?_, ?_, ?_, ?_, ?_, ?_, ?_, ?_, ?_, ?_⟩ <;> decide +kernel
def Wr (r : Record) : State := { Wl with records := [{ r with slot := 0, handle := 0x10400, seq := 1 }] }
def saved0 : Block := { placeBlock with state := .saved, launch := launch0.id }
def Wb (b : Block) (st : TStatus) : State := { Wl with blocks := [b], threads := [{ th0 with status := st }], teams := [Team.fresh 0 false 0 0 0] }
def sigOf (wheel : Bool) (crc : Word) : SigEntry := { wheel := wheel, pc := 4, parts := [{ tid := 0, crc := crc, cells := [], kind := .stop }] }
theorem witness_BlockSteps : (Wr rec1).bhWorks 0 = true ∧ ((Wr rec1).recBad rec1 = false ∧ rec1.shape.cores = false) ∧ (Wr rec1).firstBad 0 = none ∧ ((Wr { rec1 with entry := 8 }).firstBad 0).isSome = true
    ∧ (match ((Wr rec1).reserve 0).choose 0 with | some (.recs l) => l.map (·.entry) | _ => []) = [0]
    ∧ (∃ s : State, s = { Wb saved0 .ready with bulkheads := Wl.bulkheads.set 0 { Wl.bh 0 with restore := [0] } } ∧ s.firstBad 0 = none
        ∧ (match (s.reserve 0).choose 0 with | some (.saved k) => some k | _ => none) = some saved0)
    ∧ (∃ s : State, s = Wb placeBlock (.parked trap1) ∧ placeBlock.doomed = false ∧ placeBlock.relMade = false ∧ s.saveNow placeBlock = true ∧ (trapRecord placeBlock (s.blockThreads 0)).isSome = true
        ∧ s.working placeBlock = false ∧ (∀ x ∈ s.blockThreads 0, x.rebinds = false))
    ∧ trapRecord placeBlock (Wl.blockThreads 0) = none ∧ ({ Wl with launches := [] }).saveOk placeBlock = true
    ∧ ({ placeBlock with preempt := true } : Block).due ≤ W.cycle ∧ (Wb { saved0 with state := .killed } .ready).placeable launch0.id = true
    ∧ ((Wb { saved0 with state := .killed } .ready).reserve 0).clustersOf 0 (.again { saved0 with state := .killed }) ≠ []
    ∧ (Wb { saved0 with state := .killed } .ready).imageOk { saved0 with state := .killed } = true ∧ (Wb placeBlock .exited).cmtOpen 0 = false ∧ (Wb placeBlock .exited).scrUsed 0 = false
    ∧ (Wb { contBlock with releasing := [{ loc := .mem 0x400000, val := 7, key := 0, tag := 0 }] } .exited).cellsHeld { contBlock with releasing := [{ loc := .mem 0x400000, val := 7, key := 0, tag := 0 }] } = false
    ∧ Wl.stageOk contBlock = true
    ∧ (Wb { placeBlock with state := .retiring } .exited).unfinished { placeBlock with state := .retiring } = false
    ∧ (∃ s : State, s = { Wb { contBlock with quiesce := true } (.waiting .irrevocable) with launches := [] } ∧ s.quiet { contBlock with quiesce := true } = true
        ∧ (s.blockThreads 0).find? waitsIrrev = some { th0 with status := .waiting .irrevocable } ∧ s.cmtOpen 0 = false ∧ s.ckptOk contBlock = true)
    ∧ (sigOf true 7).parts ≠ (sigOf true 8).parts ∧ ({ sigOf true 7 with pc := 8 } : SigEntry).pc ≠ (sigOf false 7).pc := by
  refine ⟨?_, ⟨?_, ?_⟩, ?_, ?_, ?_, ⟨_, rfl, ?_, ?_⟩, ⟨_, rfl, ?_, ?_, ?_, ?_, ?_, ?_⟩, ?_, ?_, ?_, ?_, ?_, ?_, ?_, ?_, ?_, ?_, ?_, ⟨_, rfl, ?_, ?_, ?_, ?_⟩, ?_, ?_⟩ <;> (try simp only [ne_eq]) <;> decide +kernel

/-! Issue, commands, registers, resets, the fleet. -/

def I0 (n : Nat) : State := { State.reset.withFetchWord 64 n with strings := [], threads := [Thread.fresh placeThread 0] }
/-- The clause of thread 0 is read in mapped text, and whether its words are legal. -/
def clause0 (s : State) : Option Bool :=
  match s.textWord 0 0 0 0 with
  | none => none
  | some h => if s.codeBad 0 0 0 0 (hLen h + 1) then none else (s.textWords 0 0 0 4 (hLen h)).map (clauseOk h)
def pend0 : PendRes := { cls := 5, dst := .g 4, old := 3, new := 7, mine := false, dist := 1, late := true }
theorem witness_IssueSteps : (∃ s : State, s = I0 0x6e0000072840002f ∧ s.wake.readyOf 0 0 = [Thread.fresh placeThread 0] ∧ s.wake.seed [Thread.fresh placeThread 0] = some (Thread.fresh placeThread 0)
        ∧ (s.block? 0).isSome = true ∧ clause0 s = some true)
    ∧ clause0 (I0 0x6c000007) = some false ∧ ({ I0 0x6c000007 with tlb := [] }).textWord 0 0 0 0 = none
    ∧ ((I0 0x6c000007).textWord 0 0 0 8 = some 0 ∧ (I0 0x6c000007).textWords 0 0 0 12 1 = none) ∧ (I0 0x6c000007).isRed 0 = false ∧ (Thread.fresh placeThread 0).hdr = none
    ∧ ({ th0 with status := .sleeping 3 } : Thread).status = .sleeping 3 ∧ 0 < 3
    ∧ ({ th0 with pend := [pend0] } : Thread).pend[0]? = some pend0 ∧ ({ th0 with pend := [pend0] } : Thread).shadowed pend0 = false
    ∧ ({ th0 with pend := [pend0, { pend0 with mine := true }] } : Thread).shadowed pend0 = true := by
  refine ⟨⟨_, rfl, ?_, ?_, ?_, ?_⟩, ?_, ?_, ⟨?_, ?_⟩, ?_, ?_, ?_, ?_, ?_, ?_, ?_⟩ <;> decide +kernel
/-- A native file of one clause, its entry `main` (Tables 17.1 to 17.3, R357). -/
def file0 : List Byte :=
  bytesOfNat 32 (0x4f514401 + 2 ^ 32 + 2 ^ 160 * 3 + 2 ^ 192 * 32)
    ++ bytesOfNat 16 (1 + 2 ^ 32 * 8 + 2 ^ 64 * 80) ++ bytesOfNat 16 (4 + 2 ^ 32 * 32 + 2 ^ 64 * 96) ++ bytesOfNat 16 (6 + 2 ^ 32 * 16 + 2 ^ 64 * 128)
    ++ bytesOfNat 4 0x2003ffc1 ++ bytesOfNat 4 0x6e000007 ++ bytesOfNat 8 0 ++ bytesOfNat 32 (2 ^ 8 * 16) ++ bytesOfNat 16 0
def load1 (f : List Byte) (pages : Nat) : LoadRequest :=
  { part := 0, file := f, slot := 0, textVa := 0x20000, textPa := 0x410000, dataVa := 0x10000, dataPa := 0x400000, entVa := 0x30000, entPa := 0x420000, heapPages := pages
    ptes := [(0x540020, 0x410007), (0x540030, 0x420003)], interlocked := true }
/-- A slot not yet live, a block in each state, a trapped block. -/
def Wc : State := { W with mem := wrNat W.mem 0x700000 4 0, launches := [launch0], blocks := [{ placeBlock with launch := launch0.id, handle := 0x40, state := .held true }] }
def built0 : Built := match buildObject file0 0 with | .ok b => b | .error _ => { text := [], entries := [], map := [] }
/-- An object slot in a state, and tables of five levels. -/
def Wo (st : Nat) : State :=
  { W with
    preg := (0x5000, 0x500000) :: W.preg
    mem := wrNat (wrNat (wrNat (wrNat (wrNat W.mem 0x500000 16 0x510001) 0x510000 16 0x520001) 0x520000 16 0x530001) 0x530000 16 0x540001) 0x700000 4 st }
theorem witness_CommandSteps : (Wc.fr (fnNum (.vf 0)) 0x118).getLsbD 31 = false ∧ Wc.cmdPart (.vf 0) = some 0 ∧ (Wc.blocks.map (·.id)).Nodup
    ∧ Wc.launchNamed 0 (launch0.ident.setWidth 64) = some launch0 ∧ Wc.launch? launch0.id = some launch0 ∧ (Wc.launchNamed 0 0xfff).isNone = true
    ∧ (∃ b, Wc.trapped 0 0x40 = some b ∧ (Wc.launch? b.launch).all (fun l => !l.stopped) = true)
    ∧ factTrapped [{ th0 with status := .parked trap1 }] false = false
    ∧ (∃ a, (Wo 0).objSlot 0 0 = some a ∧ (Wo 1).liveOk 0 a = false) ∧ ((Wo 1).objIn 0 0 1).isSome = true ∧ ((Wo 3).objIn 0 0 3).isSome = true
    ∧ (Wo 1).objCount 0x700000 = 0 ∧ ({ W with mem := wrNat W.mem 0x700060 4 1 }).objCount 0x700000 = 1
    ∧ (match buildObject [] 0 with | .error e => some e | .ok _ => none) = some 1
    ∧ (match buildObject file0 0 with | .ok b => some b.entries | .error _ => none) = some [(0, 0)] ∧ (load1 file0 0).heapPages < 1
    ∧ ({ Wo 0 with mem := wrNat (Wo 0).mem 0x700010 8 0x10000 }).liveOk 0 0x700000 = true
    ∧ ((Wo 0).commitObject (load1 file0 1) built0).isSome = true ∧ ((Wo 0).commitObject { load1 file0 1 with ptes := [(0x540020, 0x410003), (0x540030, 0x420003)] } built0).isSome = false
    ∧ Wc.cmdDone { (default : PendingCmd) with launch := some launch0.id } = true
    ∧ ({ Wc with blocks := [{ placeBlock with launch := launch0.id, preempt := true }] }).cmdDone { (default : PendingCmd) with launch := some launch0.id } = false
    ∧ ({ (default : PendingCmd) with fn := .pf } : PendingCmd).fn = .pf := by
  refine ⟨?_, ?_, ?_, ?_, ?_, ?_, ⟨_, rfl, ?_⟩, ?_, ⟨_, rfl, ?_⟩, ?_, ?_, ?_, ?_, ?_, ?_, ?_, ?_, ?_, ?_, ?_⟩ <;> decide +kernel

/-- Registers of partition 0 over those of `W`. -/
def Wp (l : List (Nat × DWord)) : State := { W with preg := l ++ W.preg }
theorem witness_RegisterSteps : (Wq.fr 0 (sqCtl 0)).getLsbD 31 = true ∧ Wq.sqSize 0 0 = 16
    ∧ (1 + 16 - 0) % 16 ≤ ((15 : Word).toNat + 16 - 0) % 16 ∧ Wq.sqSize 0 0 ≤ (16 : Word).toNat ∧ (W.fr 0 (sqCtl 0)).getLsbD 31 = false
    ∧ (W.launches.all fun x => x.part != 0) = true ∧ (Wl.launches.all fun x => x.part == 0) = true ∧ (W.pr 0 0x5018).getLsbD 31 = false
    ∧ ((Wp [(0x5018, 0x80000000)]).pr 0 0x5018).getLsbD 31 = true ∧ bitsN (40 : DWord).toNat 7 0 ≤ 40 ∧ 40 < bitsN (41 : DWord).toNat 7 0
    ∧ (W.pr 0 0x5500).getLsbD 0 = true ∧ W.ownerOf (bitsN (W.pr 0 0x5500).toNat 39 15 * 32768) = none
    ∧ ({ W with frames := [(2, 0x80), (3, 0x80)] }).ownerOf (bitsN (W.pr 0 0x5500).toNat 39 15 * 32768) = some 0
    ∧ (∃ s : State, s = { W with invBusy := [(0, .tlb 12)] } ∧ s.invBusy.find? (fun x => x.1 == 0 && !isViews x.2) = some (0, .tlb 12)
        ∧ (s.tlb.map fun e => tlbMeets 0 12 e) = [true, true]
        ∧ walkMeets 0 12 { part := 0, level := 3, idx := 0, next := 0 } = true ∧ ((12 : DWord).getLsbD 9) = false)
    ∧ (∃ s : State, s = { W with areas := [{ part := 0, die := 0, enabled := true, busy := true, slots := 4, gens := [] }] }
        ∧ (s.areas.find? (fun a => a.part == 0 && a.die == 0 && a.enabled && a.busy)).isSome = true
        ∧ ((s.lookup (.die 0) 0 (s.pr 0 0x5400).toNat).toOption.map fun x => s.ownerOf x.1.pa) = some (some 0))
    ∧ W.hostOpen (.tlbinv 0 12) = false ∧ ({ W with hostHeld := [.keySlotBusyClear] }).hostOpen (.tlbinv 0 12) = true
    ∧ W.ownerOf (W.chip.toNat * 2 ^ 42 + bitsN (W.pr 0 0x5500).toNat 39 15 * 32768) = none ∧ (0, InvOp.views) ∈ ({ W with invBusy := [(0, .views)] } : State).invBusy
    ∧ W.vfPartOf 0 = some 0 ∧ W.leadFn 0 = some (.vf 0) ∧ ({ W with vfPart := [(0, 0), (1, 0)] }).vfPartOf 1 = some 0
    ∧ ({ W with vfPart := [(0, 0), (1, 0)] }).leadFn 0 ≠ some (.vf 1) := by
  refine ⟨?_, ?_, ?_, ?_, ?_, ?_, ?_, ?_, ?_, ?_, ?_, ?_, ?_, ?_, ⟨_, rfl, ?_, ?_, ?_, ?_⟩, ⟨_, rfl, ?_, ?_⟩, ?_, ?_, ?_, ?_, ?_, ?_, ?_, ?_⟩ <;> (try simp only [ne_eq]) <;> decide +kernel
def bhSt (st : BhState) : State := { W with bulkheads := W.bulkheads.set 0 { W.bh 0 with state := st } }
def slice1 (start : Nat) : BitVec 128 := BitVec.ofNat 128 (2 ^ 64 * start + 1)
/-- Window 15 of partition 0 a GRANT of frame 2 to partition 1, with or without a write-back under it; a slice in its grace. -/
def win15 : State := { W with preg := wr (wr W.preg 0x40f0 1) 0x40f8 (2 ^ 44 + 2 ^ 22 + 2), bulkheads := W.bulkheads.set 0 { W.bh 0 with part := 1 } }
def sl0 : Slice := { entry := 3, gid := 1, ready := [], grace := true, aborted := false }
def Gs (start now : Nat) : State := { W with slices := [(3, slice1 start)], sliceNow := some sl0, cycle := now }
theorem witness_BulkheadAndGangSteps : 0 < W.bulkheads.length ∧ (W.bh 0).state = .run ∧ ((bhSt .resetting).bh 0).state = .resetting ∧ ((bhSt .resetting).bh 0).cause ≠ 1
    ∧ (W.bh 0).assigned = true ∧ (W.bh 0).part = 0 ∧ W.hasLaunch 0 = false ∧ Wl.hasLaunch 0 = true ∧ ¬ 48 ≤ (1 : BitVec 6).toNat ∧ 48 ≤ (48 : BitVec 6).toNat
    ∧ W.frameBusy = [] ∧ ({ W with frameSel := 0x200000 }).selFrame = 1 ∧ rd W.frames 1 ≠ 0x80 ∧ ({ W with frameSel := 0x200000 }).ownable 1 = true
    ∧ ([(1, 0x80)] : List (Nat × Byte)).find? (fun x => x.1 == 1) = some (1, 0x80) ∧ (W.winEntry 0 15).v = false
    ∧ ({ W with sliceStage := [(3, 0x1000)] }).sliceStage.find? (fun x => x.1 == (3 : BitVec 6).toNat) = some (3, 0x1000)
    ∧ (win15.winEntry 0 15).v = true ∧ (win15.winDrop (win15.winEntry 0 15) 0).winBusy (win15.winEntry 0 15) 0 = false
    ∧ (∃ s : State, s = { win15 with wbs := [wb0] } ∧ (s.winDrop (s.winEntry 0 15) 0).winBusy (s.winEntry 0 15) 0 = true)
    ∧ ((Gs 1000000 1000000).sliceAt 3).map (·.start) = some 1000000 ∧ (Gs 1000000 1249999).graceOver 3 = false ∧ (Gs 1000000 1250000).graceOver 3 = true
    ∧ W.gangClear 1 = true ∧ (∃ s : State, s = { W with frameBusy := [(2, 0)], vstores := [{ vst0 with bytes := [{ pa := 0x400000, key := 0, denied := false }] }] }
        ∧ s.frameBusy.find? (fun x => x.1 == 2) = some (2, 0) ∧ ∀ v ∈ s.vstores, v.passed = true ∧ v.scattered = false ∧ ∃ x ∈ v.bytes, x.pa / 2 ^ 21 = 2)
    ∧ (∀ a ∈ ({ D with atoms := [atom1] } : State).atoms, a.loc = .mem 0x400000 ∧ 0x400000 / 2 ^ 21 = 2) := by
  refine ⟨?_, ?_, ?_, ?_, ?_, ?_, ?_, ?_, ?_, ?_, ?_, ?_, ?_, ?_, ?_, ?_, ?_, ?_, ?_, ⟨_, rfl, ?_⟩, ?_, ?_, ?_, ?_, ⟨_, rfl, ?_, ?_⟩, ?_⟩ <;> (try simp only [ne_eq]) <;> decide +kernel
theorem witness_FleetSteps : ((7 : Nat) < 8 ∧ (2 : Nat) < 3) ∧ (2 ∈ W.absent ↔ False) ∧ W.domPos 0 = some 0 ∧ W.keyBusy = none ∧ (5 : BitVec 9) ≠ 0 ∧ ({ W with keyBusy := some (5, none) }).keyBusy = some (5, none)
    ∧ (W.sectorKey.all fun c => c.2.toNat != 6) = true ∧ (W.fr 384 0x7100).getLsbD 31 = true
    ∧ (({ W with freg := wr W.freg (384 * 2 ^ 16 + 0x7100) 0 } : State).fr 384 0x7100).getLsbD 31 = false ∧ W.lastError = none ∧ W.linksDown = [] ∧ W.linkFails = []
    ∧ (0, 0, 7) ∈ ({ W with linkFails := [(0, 0, 7)] }).linkFails ∧ (0, 0) ∈ ({ W with linksDown := [(0, 0)] }).linksDown
    ∧ 4 ≤ (({ W with beats := List.replicate 4 1 }).beats.filter (· == 1)).length ∧ (0 : BitVec 6).toNat ∉ W.absent
    ∧ (0 : BitVec 6).toNat ∈ ({ W with absent := [0] }).absent ∧ (∀ k < 8, (k, (0 : BitVec 6).toNat) ∈ ({ W with swept := (List.range 8).map fun d => (d, 0) }).swept)
    ∧ ((0 : Nat), (0 : BitVec 6).toNat) ∉ W.swept ∧ 8 * W.domain.length = 8 ∧ (1 : Nat) ∉ W.lanesDown ∧ (0, 1 + 3, 7) ∈ ({ W with linkFails := [(0, 4, 7)] }).linkFails
    ∧ portLanes [1] 0 = 2 ∧ laneCount [] = 72 ∧ laneCount [1] = 70 ∧ W.cutOff = false
    ∧ (∃ s : State, s = { W with spdm := { phase := 5, answers := [] } } ∧ s.spdm.phase = 5) ∧ W.spdm.phase ≠ 5 := by
  refine ⟨?_, ?_, ?_, ?_, ?_, ?_, ?_, ?_, ?_, ?_, ?_, ?_, ?_, ?_, ?_, ?_, ?_, ?_, ?_, ?_, ?_, ?_, ?_, ?_, ?_, ?_, ⟨_, rfl, ?_⟩, ?_⟩ <;> (try simp only [ne_eq]) <;> decide +kernel
/-- The scrubbed sector, wherever it lies, in a frame that is owned. -/
theorem witness_FleetSteps_scrub : (({ W with frames := [(W.scrubPa 0 0 / 2 ^ 21, 0x80)] } : State).frameOf (W.scrubPa 0 0)).getLsbD 7 = true := by
  have h : ∀ k : Nat, (rd ([(k, 0x80)] : Sparse 8) k).getLsbD 7 = true := fun k => by simp [rd]
  exact h _
theorem witness_DecodeEncode : Instr.wf (.lea 7 true 3 8 4 (.y 9) 0x10) = true ∧ encode (.lea 7 true 3 8 4 (.y 9) 0x10) ≠ [] := by
  refine ⟨?_, ?_⟩ <;> decide +kernel

end Sys2Proof.Tests
end

section
/-! PROOFS. What a cold reset leaves (R8): the window registers with a stated reset value, read out of the list that holds them. -/

namespace Sys2Proof.Machine

theorem rd_append_of_ne {w : Nat} {l m : Sparse w} {a : Nat} (h : ∀ e ∈ l, e.1 ≠ a) : rd (l ++ m) a = rd m a := by
  induction l with
  | nil => rfl
  | cons e l ih =>
    obtain ⟨k, v⟩ := e
    have hk : k ≠ a := h (k, v) (List.mem_cons_self ..)
    simp only [List.cons_append, rd, if_neg hk]
    exact ih fun e he => h e (List.mem_cons_of_mem _ he)

/-- Entries that all hold one value: an address they list reads as it, whatever follows them. -/
theorem rd_map_const_append {w : Nat} {l : List Nat} {key : Nat → Nat} {v : BitVec w} {m : Sparse w} {i : Nat} (hi : i ∈ l) :
    rd (l.map (fun j => (key j, v)) ++ m) (key i) = v := by
  induction l with
  | nil => cases hi
  | cons j l ih =>
    simp only [List.map_cons, List.cons_append, rd]
    split
    · rfl
    · next hj => exact ih ((List.mem_cons.mp hi).resolve_left fun e => hj (e ▸ rfl))

theorem map_key_ne {w : Nat} {l : List Nat} {key : Nat → Nat} {val : Nat → BitVec w} {a : Nat} (h : ∀ i ∈ l, key i ≠ a) :
    ∀ e ∈ l.map (fun i => (key i, val i)), e.1 ≠ a := by
  intro e he
  obtain ⟨i, hi, rfl⟩ := List.mem_map.mp he
  exact h i hi

/-- PTO of every function (Table 18.1). -/
theorem reset_pto {f : Nat} (hf : f ≤ 384) : State.reset.fr f 0x10 = 10000 := by
  show rd State.resetFreg (65536 * f + 0x10) = 10000
  simp only [State.resetFreg, List.append_assoc]
  by_cases h : f = 384
  · subst h
    rw [rd_append_of_ne (map_key_ne fun i hi => by have := List.mem_range.mp hi; omega)]
    rfl
  · exact rd_map_const_append (key := fun f => 65536 * f + 0x10) (List.mem_range.mpr (by omega))

/-- The quanta of the copy engines (Table 5.6). -/
theorem reset_quanta {d e : Nat} (hd : d < 8) (he : e < 4) : State.reset.fr 384 (0x2000 + 0x10 * d + 4 * e) = 0x04040810 := by
  show rd State.resetFreg (65536 * 384 + (0x2000 + 0x10 * d + 4 * e)) = 0x04040810
  simp only [State.resetFreg, List.append_assoc]
  rw [rd_append_of_ne (map_key_ne fun i hi => by have := List.mem_range.mp hi; omega), rd_append_of_ne (by simp; omega)]
  have hkey : 65536 * 384 + (0x2000 + 0x10 * d + 4 * e) = 65536 * 384 + 0x2000 + 0x10 * ((4 * d + e) / 4) + 4 * ((4 * d + e) % 4) := by omega
  rw [hkey]
  exact rd_map_const_append (key := fun i => 65536 * 384 + 0x2000 + 0x10 * (i / 4) + 4 * (i % 4)) (List.mem_range.mpr (by omega))

/-- SCRUBCFG of every controller (Table 21.3). -/
theorem reset_scrubcfg {c : Nat} (hc : c < 16) : State.reset.fr 384 (0x7100 + 8 * c) = 0x80000040 := by
  show rd State.resetFreg (65536 * 384 + (0x7100 + 8 * c)) = 0x80000040
  simp only [State.resetFreg, List.append_assoc]
  rw [rd_append_of_ne (map_key_ne fun i hi => by have := List.mem_range.mp hi; omega), rd_append_of_ne (by simp; omega),
    rd_append_of_ne (map_key_ne fun i hi => by have := List.mem_range.mp hi; omega),
    rd_append_of_ne (map_key_ne fun i hi => by have := List.mem_range.mp hi; omega), ← List.append_nil (List.map _ _), ← Nat.add_assoc]
  exact rd_map_const_append (key := fun c => 65536 * 384 + 0x7100 + 8 * c) (List.mem_range.mpr hc)

end Sys2Proof.Machine

namespace Sys2Proof
open Machine

/-- Settles O1: the registers with a stated reset value are read out of `State.resetFreg`; the rest is how `State.reset` is made. -/
theorem resetState : Obligations.ResetState :=
  ⟨rfl, rfl, rfl, rfl, rfl, rfl, rfl, rfl, rfl, rfl, rfl, rfl, fun _ => reset_pto, fun _ hd _ => reset_quanta hd, fun _ => reset_scrubcfg,
    rfl, rfl, rfl, fun _ _ => rfl, fun _ => rfl⟩

end Sys2Proof
end

section
/-! PROOFS. Every step keeps the memories of the package and of the host in canonical form (02_state_and_address_spaces.md). `Canonical` speaks of
`mem` and `host` alone, so an update of other fields keeps it by unfolding; memory itself is written through `wr`, `wrBytes`, `wrNat` and
`List.filter` alone, each of which keeps the form (Laws/Sparse.lean). The lemmas follow the definitions of the model in their order: one
for each operation that answers a state, proved along the operation's branches from the lemmas about what it calls. -/

namespace Sys2Proof.Machine

variable {s : State}

/-- Where an outcome is a state, its memories are in canonical form. -/
def EndsCanonical (o : Out) : Prop := ∀ t, o = .next t → Canonical t

theorem EndsCanonical.next (h : Canonical s) : EndsCanonical (.next s) := fun _ e => by cases e; exact h
theorem EndsCanonical.fault {f : Fault} : EndsCanonical (.fault f) := fun _ e => nomatch e
theorem EndsCanonical.refused {r : Refusal} : EndsCanonical (.refused r) := fun _ e => nomatch e

theorem EndsCanonical.ite {c : Prop} [Decidable c] {a b : Out} (ha : EndsCanonical a) (hb : EndsCanonical b) :
    EndsCanonical (if c then a else b) := by
  split <;> assumption

theorem Canonical.mem (h : Canonical s) : Memory.wf s.mem = true := h.1
theorem Canonical.host (h : Canonical s) : Memory.wf s.host = true := h.2

theorem Canonical.of_next {o : Out} (e : o = .next s) (h : EndsCanonical o) : Canonical s := h s e

theorem Canonical.fst {α : Type} {x : α} {p : State × α} (e : p = (s, x)) (h : Canonical p.1) : Canonical s := by
  subst e; exact h

theorem Canonical.snd {α : Type} {x : α} {p : α × State} (e : p = (x, s)) (h : Canonical p.2) : Canonical s := by
  subst e; exact h

theorem Canonical.ite {c : Prop} [Decidable c] {a b : State} (ha : Canonical a) (hb : Canonical b) : Canonical (if c then a else b) := by
  split <;> assumption

theorem Canonical.foldl {α : Type} {l : List α} {f : State → α → State} (h : Canonical s)
    (hf : ∀ s x, Canonical s → Canonical (f s x)) : Canonical (l.foldl f s) := by
  induction l generalizing s with
  | nil => exact h
  | cons x l ih => exact ih (hf s x h)

theorem Canonical.foldl_fst {α β : Type} {l : List α} {f : State × β → α → State × β} {p : State × β} (h : Canonical p.1)
    (hf : ∀ p x, Canonical p.1 → Canonical (f p x).1) : Canonical (l.foldl f p).1 := by
  induction l generalizing p with
  | nil => exact h
  | cons x l ih => exact ih (hf p x h)

theorem Memory.wf_foldl_wrNat {m : Memory} {l : List (BitVec 56 × BitVec 128)} (h : Memory.wf m = true) :
    Memory.wf (l.foldl (fun m p => wrNat m p.1.toNat 16 p.2.toNat) m) = true := by
  induction l generalizing m with
  | nil => exact h
  | cons p l ih => exact ih (Memory.wf_wrNat _ _ _ h)

/-! Small updates of the state, traps, and how a word issues (Machine/Ops.lean). -/

theorem Canonical.tick (h : Canonical s) : Canonical s.tick := h
theorem Canonical.push {i} (h : Canonical s) : Canonical (s.push i) := h
theorem Canonical.ask {i} (h : Canonical s) : Canonical (s.ask i) := .ite h (.push h)
theorem Canonical.bump (h : Canonical s) : Canonical s.bump := h
theorem Canonical.redraw (h : Canonical s) : Canonical s.redraw := h
theorem Canonical.modThread {id f} (h : Canonical s) : Canonical (s.modThread id f) := h
theorem Canonical.modTeam {blk wheel idx f} (h : Canonical s) : Canonical (s.modTeam blk wheel idx f) := h
theorem Canonical.modBlock {b f} (h : Canonical s) : Canonical (s.modBlock b f) := h
theorem Canonical.modLaunch {l f} (h : Canonical s) : Canonical (s.modLaunch l f) := h
theorem Canonical.modTeamOf {id f} (h : Canonical s) : Canonical (s.modTeamOf id f) := .modTeam h
theorem Canonical.modSide {blk wheel f} (h : Canonical s) : Canonical (s.modSide blk wheel f) := .modBlock h
theorem Canonical.setFr {fn off v} (h : Canonical s) : Canonical (s.setFr fn off v) := h
theorem Canonical.setPr {part off v} (h : Canonical s) : Canonical (s.setPr part off v) := h
theorem Canonical.park {id trap} (h : Canonical s) : Canonical (s.park id trap) := .push (.modThread h)

theorem Canonical.sign {id pc bytes cells kind trap} (h : Canonical s) : Canonical (s.sign id pc bytes cells kind trap) := by
  unfold State.sign
  refine .ite (.modThread h) ?_
  extract_lets part s1
  have hs1 : Canonical s1 := .modTeam h
  exact .push (.ite (.modThread hs1) hs1)

theorem Canonical.raise {id pc cause addr sub word} (h : Canonical s) : Canonical (s.raise id pc cause addr sub word) := by
  unfold State.raise
  split
  · exact h
  · exact .ite (.sign h) (.park h)

theorem Canonical.postFault {part r} (h : Canonical s) : Canonical (s.postFault part r) := .push h

theorem Canonical.advance {c rest len} (h : Canonical s) : Canonical (s.advance c rest len) := h

theorem Canonical.faultWord {c rest cause len more} (h : Canonical s) : Canonical (s.faultWord c rest cause len more) :=
  .tick (.advance (.foldl h fun _ _ h => .raise h))

/-! The shapes in which words are performed (Machine/Operands.lean). -/

theorem Canonical.trapRegs {i c} (h : Canonical s) : Canonical (s.trapRegs i c) := .foldl h fun _ _ h => .ite h (.raise h)
theorem Canonical.injected {id obj pc o} (h : Canonical s) : Canonical (s.injected id obj pc o).2 := h

theorem Canonical.regEffect {i c f} (h : Canonical s) : Canonical (s.regEffect i c f) := h

theorem Canonical.writeOuts {i c id o} (h : Canonical s) : Canonical (s.writeOuts i c id o) := by
  unfold State.writeOuts
  split <;> exact h

theorem EndsCanonical.execReg {i f} (h : Canonical s) : EndsCanonical (execReg i f s) := by
  unfold Machine.execReg
  split
  · exact .next (.tick h)
  · exact .ite (.next (.tick h)) (.next (.tick (.advance (.regEffect (.trapRegs h)))))

theorem EndsCanonical.execEach {i stall eff} (h : Canonical s) (heff : ∀ {x y s}, Canonical s → Canonical (eff x y s)) :
    EndsCanonical (execEach i stall eff s) := by
  unfold Machine.execEach
  split
  · exact .next (.tick h)
  · exact .ite (.next (.tick h)) (.next (.tick (.advance (.foldl (.trapRegs h) fun _ _ h => heff h))))

theorem EndsCanonical.execAll {i stall eff} (h : Canonical s) (heff : ∀ {x y s}, Canonical s → Canonical (eff x y s)) :
    EndsCanonical (execAll i stall eff s) := by
  unfold Machine.execAll
  split
  · exact .next (.tick h)
  · exact .ite (.next (.tick h)) (.next (.tick (.advance (heff (.trapRegs h)))))

theorem EndsCanonical.execTeams {i stall eff} (h : Canonical s) (heff : ∀ {x y z s}, Canonical s → Canonical (eff x y z s)) :
    EndsCanonical (execTeams i stall eff s) :=
  .execAll h (fun h => .foldl h fun _ _ h => heff h)

theorem Canonical.setY {id dst f} (h : Canonical s) : Canonical (s.setY id dst f) := .modTeamOf h

/-! Floating-point flags (Machine/Flags.lean). -/

theorem Canonical.setFlags {id fl} (h : Canonical s) : Canonical (s.setFlags id fl) := .modTeamOf h
theorem Canonical.setFlagsAll {ids fl} (h : Canonical s) : Canonical (s.setFlagsAll ids fl) := .foldl h fun _ _ h => .setFlags h

/-! Yoke words (Machine/Integer.lean). -/

theorem EndsCanonical.binOp {i d a b f} (h : Canonical s) : EndsCanonical (binOp i d a b f s) := .execReg h
theorem EndsCanonical.unOp {i d a f} (h : Canonical s) : EndsCanonical (unOp i d a f s) := .execReg h

theorem EndsCanonical.yokeOp {i f} (h : Canonical s) : EndsCanonical (yokeOp i f s) := by
  unfold Machine.yokeOp
  exact .execTeams h (fun h => by
    split
    · exact .setY h
    · exact h)

/-! Translation, records of the device and checked accesses (Machine/Access.lean). -/

theorem Canonical.fillTlb {f} (h : Canonical s) : Canonical (s.fillTlb f) := h

theorem Canonical.postPageFault {part handle va f write} (h : Canonical s) : Canonical (s.postPageFault part handle va f write) :=
  .ite h (.postFault h)

theorem Canonical.cacheMask {part pr} (h : Canonical s) : Canonical (s.cacheMask part pr) := .ite h h

theorem Canonical.raiseVec {fn vec} (h : Canonical s) : Canonical (s.raiseVec fn vec) := by
  unfold State.raiseVec
  split
  · exact .ite h h
  · exact h

theorem Canonical.devWrite {s t : State} {part dev a n v} (h : Canonical s) (e : s.devWrite part dev a n v = some t) : Canonical t := by
  unfold State.devWrite at e
  split at e
  · split at e
    · cases e
    · split at e
      · obtain rfl := Option.some.inj e
        exact ⟨Memory.wf_wrNat _ _ _ h.mem, h.host⟩
      · cases e
  · obtain rfl := Option.some.inj e
    exact ⟨h.mem, Memory.wf_wrNat _ _ _ h.host⟩

theorem Canonical.ringPut {s t : State} {part off r} (h : Canonical s) (e : s.ringPut part off r = some t) : Canonical t := by
  unfold State.ringPut at e
  dsimp only at e
  split at e
  · split at e
    · cases e
    · next he =>
      obtain rfl := Option.some.inj e
      exact .raiseVec (.setPr (.devWrite h he))
  · cases e

theorem Canonical.postEvent {part launch e} (h : Canonical s) : Canonical (s.postEvent part launch e) := by
  unfold State.postEvent
  extract_lets r s1
  have hs1 : Canonical s1 := .modLaunch h
  split
  · next heq => exact .ringPut hs1 heq
  · exact .setPr hs1

theorem Canonical.fillCode {core xs} (h : Canonical s) : Canonical (s.fillCode core xs) := h

theorem Canonical.globAccess {m part handle pr g k} (h : Canonical s) : Canonical (s.globAccess m part handle pr g k).1 := by
  unfold State.globAccess
  extract_lets
  split
  · exact h
  · split
    · exact .postPageFault h
    · extract_lets s1
      have hs1 : Canonical s1 := .cacheMask (.fillTlb h)
      split
      · exact hs1
      · split
        · exact hs1
        · split
          · exact hs1
          · split <;> exact hs1

theorem Canonical.access {id va n k} (h : Canonical s) : Canonical (s.access id va n k).1 := by
  unfold State.access
  split
  · exact h
  · split
    · exact h
    · exact .globAccess h
    · exact h

theorem Canonical.reportDenied {id va pc tag src} (h : Canonical s) : Canonical (s.reportDenied id va pc tag src) := by
  unfold State.reportDenied
  split
  · exact h
  · exact .postEvent h

/-! The error log (Machine/ErrLog.lean). -/

theorem Canonical.postError {e} (h : Canonical s) : Canonical (s.postError e) := by
  unfold State.postError
  extract_lets
  split
  · exact ⟨h.mem, Memory.wf_wrNat _ _ _ h.host⟩
  · exact .ite (.raiseVec (.setFr ⟨h.mem, Memory.wf_wrNat _ _ _ h.host⟩)) (.setFr h)

theorem Canonical.detect {sectors} (h : Canonical s) : Canonical (s.detect sectors) := .foldl h fun _ _ h => .postError (.ite h h)
theorem Canonical.registerError {core} (h : Canonical s) : Canonical (s.registerError core) := .postError h

/-! The memory system (Machine/Memory.lean). -/

theorem Canonical.putHome {pa v key} (h : Canonical s) : Canonical (s.putHome pa v key) := by
  unfold State.putHome
  extract_lets k nk mem
  have hmem : Memory.wf mem = true := by
    unfold mem
    split
    · exact h.mem
    · exact Memory.wf_wrBytes _ _ h.mem
  exact ⟨Memory.wf_wr _ _ hmem, h.host⟩

theorem Canonical.mergeGuest {core cells} (h : Canonical s) : Canonical (s.mergeGuest core cells) := h

theorem Canonical.expose {core cells key bad} (h : Canonical s) : Canonical (s.expose core cells key bad) :=
  .mergeGuest (.foldl h fun _ _ h => .putHome h)

theorem Canonical.setDir {line d} (h : Canonical s) : Canonical (s.setDir line d) := h

theorem Canonical.dropGuest {agent line} (h : Canonical s) : Canonical (s.dropGuest agent line) := .ite (.setDir h) h

theorem Canonical.addGuest {agent line key tag} (h : Canonical s) : Canonical (s.addGuest agent line key tag) := by
  unfold State.addGuest
  refine .ite h ?_
  extract_lets s1 d s2
  have hs1 : Canonical s1 := .dropGuest h
  have hs2 : Canonical s2 := .setDir hs1
  exact hs2

theorem Canonical.tryExpose {id} (h : Canonical s) : Canonical (s.tryExpose id) := by
  unfold State.tryExpose
  split
  · exact h
  · exact .ite h (.expose h)

theorem Canonical.mergeHome {w} (h : Canonical s) : Canonical (s.mergeHome w) := by
  unfold State.mergeHome
  split
  · extract_lets s1
    have hs1 : Canonical s1 := .expose h
    exact .ite (.push hs1) hs1
  · exact .tryExpose (.foldl h fun _ _ h => .push h)

theorem Canonical.sendWb {core th cells nt key cmt bad} (h : Canonical s) : Canonical (s.sendWb core th cells nt key cmt bad) :=
  .ite h (.push h)

theorem Canonical.sendCells {core cells cmt bad} (h : Canonical s) : Canonical (s.sendCells core cells cmt bad) :=
  .foldl h fun _ _ h => .sendWb h

theorem Canonical.flush {core p} (h : Canonical s) : Canonical (s.flush core p) := .sendCells h

theorem Canonical.invalL1 {core} (h : Canonical s) : Canonical (s.invalL1 core) := h
theorem Canonical.acquire {core sc} (h : Canonical s) : Canonical (s.acquire core sc) := .ite h (.invalL1 h)
theorem Canonical.sendUpd {core} (h : Canonical s) : Canonical (s.sendUpd core) := .foldl h fun _ _ h => .push h

theorem Canonical.beginRelease {id sc cells after} (h : Canonical s) : Canonical (s.beginRelease id sc cells after) := by
  unfold State.beginRelease
  extract_lets core cont far n s1 s2
  have hs1 : Canonical s1 := .bump h
  have hs2 : Canonical s2 := .ite hs1 (.flush hs1)
  exact .push (.ite (.sendUpd hs2) hs2)

theorem Canonical.sendRet {id src outs youts ld poisoned fl pc word} (h : Canonical s) :
    Canonical (s.sendRet id src outs youts ld poisoned fl pc word) := by
  unfold State.sendRet
  extract_lets lead n s1
  have hs1 : Canonical s1 := .push h
  exact .ite (.push hs1) hs1

theorem Canonical.startLoad {id pc view bad d size sx fill acq tag word bs} (h : Canonical s) :
    Canonical (s.startLoad id pc view bad d size sx fill acq tag word bs) := by
  unfold State.startLoad
  extract_lets regs s1 s2
  have hs1 : Canonical s1 := .modThread h
  have hs2 : Canonical s2 := by
    unfold s2
    split
    · exact .acquire hs1
    · exact hs1
  split
  · exact .sendRet hs2
  · exact .push hs1

theorem Canonical.lvOpen {id pc src} (h : Canonical s) : Canonical (s.lvOpen id pc src) := .ite h (.modTeam h)

theorem Canonical.modLv {id f} (h : Canonical s) : Canonical (s.modLv id f) := .ite h (.modBlock h)

theorem Canonical.lvFill {id src ws} (h : Canonical s) : Canonical (s.lvFill id src ws) := .modLv h
theorem Canonical.lvDrop {id src} (h : Canonical s) : Canonical (s.lvDrop id src) := .modLv h
theorem Canonical.lvTake {id} (h : Canonical s) : Canonical (s.lvTake id) := .modTeam h

theorem Canonical.wheelTake {id f} (h : Canonical s) (hf : ∀ {x s}, Canonical s → Canonical (f x s)) : Canonical (s.wheelTake id f) := by
  unfold State.wheelTake
  split
  · exact hf (.lvTake h)
  · exact .modThread h

theorem Canonical.homeWrite {core th cells key dom} (h : Canonical s) : Canonical (s.homeWrite core th cells key dom) := by
  unfold State.homeWrite
  split
  · exact h
  · exact .ite (.expose h) (.mergeHome (.bump h))

theorem Canonical.recallUpd {line} (h : Canonical s) : Canonical (s.recallUpd line) := .foldl h fun _ _ h => .ask h

theorem Canonical.homeAsk {pa n} (h : Canonical s) : Canonical (s.homeAsk pa n) :=
  .foldl h fun _ _ h => .ite (.ask (.recallUpd h)) (.recallUpd h)

theorem Canonical.l2Ask {core pa key} (h : Canonical s) : Canonical (s.l2Ask core pa key) := .ite (.homeAsk h) (.ite (.recallUpd h) h)

theorem Canonical.forget {core home pas} (h : Canonical s) : Canonical (s.forget core home pas) := by
  unfold State.forget
  extract_lets s1
  have hs1 : Canonical s1 := h
  exact .ite (.foldl hs1 fun _ _ h => .dropGuest h) hs1

theorem Canonical.dirtyL1 {id core pa v key tag} (h : Canonical s) : Canonical (s.dirtyL1 id core pa v key tag) := h

theorem Canonical.stRaise {id} (h : Canonical s) : Canonical (s.stRaise id) := by
  unfold State.stRaise
  exact .push (by
    extract_lets s1
    have hs1 : Canonical s1 := .modThread h
    exact hs1)

theorem Canonical.putScr {id blk off v} (h : Canonical s) : Canonical (s.putScr id blk off v) := .ite (.modSide h) (.modBlock h)

theorem Canonical.putCell {id c} (h : Canonical s) : Canonical (s.putCell id c) := by
  unfold State.putCell
  split
  · exact .dirtyL1 h
  · exact .putScr h

theorem Canonical.putCont {id cells} (h : Canonical s) : Canonical (s.putCont id cells) := .modBlock (.foldl h fun _ _ h => .putCell h)

theorem Canonical.storeCells {id pc va a bs nt} (h : Canonical s) : Canonical (s.storeCells id pc va a bs nt) := by
  unfold State.storeCells
  extract_lets l
  refine .ite (.sign h) (.ite (.putCont h) ?_)
  clear_value l
  split
  · exact .sendWb (.flush h)
  · exact .foldl h fun _ _ h => .putCell h

/-! Checkpoints and irrevocable words (Machine/Commit.lean). -/

theorem Canonical.deliver {id p f} (h : Canonical s) : Canonical (s.deliver id p f) := .modBlock (.modThread h)

theorem Canonical.snap {blk ids} (h : Canonical s) : Canonical (s.snap blk ids) := by
  unfold State.snap
  split
  · exact h
  · exact .modBlock h

theorem Canonical.opDone {blk rid} (h : Canonical s) : Canonical (s.opDone blk rid) := .modBlock h
theorem Canonical.opWithdrawn {blk rid} (h : Canonical s) : Canonical (s.opWithdrawn blk rid) := .modBlock h
theorem Canonical.stopFor {id w} (h : Canonical s) : Canonical (s.stopFor id w) := .push (.modBlock (.modThread h))
theorem Canonical.lose {blk} (h : Canonical s) : Canonical (s.lose blk) := .push (.modBlock h)
theorem Canonical.noCheck {c id} (h : Canonical s) : Canonical (noCheck c id s).1 := h

theorem Canonical.raisePair {id pc cause addr} (h : Canonical s) : Canonical (s.raisePair id pc cause addr) := by
  unfold State.raisePair
  extract_lets s1
  have hs1 : Canonical s1 := .raise h
  split
  · exact .ite (.park hs1) hs1
  · exact hs1

theorem Canonical.gated {chk sig eff c id} (h : Canonical s)
    (hchk : ∀ {x y s}, Canonical s → Canonical (chk x y s).1) (heff : ∀ {x y s}, Canonical s → Canonical (eff x y s)) :
    Canonical (gated chk sig eff c id s) := by
  unfold Machine.gated
  split
  · exact h
  · refine .ite (.ite (heff h) (.modThread h)) ?_
    split
    · next s' _ _ heq1 =>
      have hs' : Canonical s' := .fst heq1 (hchk h)
      exact .ite (.raise h) (.ite (.raisePair hs') (.raise hs'))
    · next heq1 => exact .ite (heff (.fst heq1 (hchk h))) (.ite (.sign h) (.stopFor h))

theorem Canonical.snapWord {s0 blk ids} (h : Canonical s) : Canonical (s.snapWord s0 blk ids) := .modBlock (.snap h)

theorem Canonical.snapAfter {s0 c} (h : Canonical s) : Canonical (s.snapAfter s0 c) := by
  unfold State.snapAfter
  extract_lets
  exact .foldl h fun _ _ h => by
      extract_lets ids s2
      have hs2 : Canonical s2 := .ite h (.snapWord h)
      exact .ite (.push hs2) (.modBlock hs2)

theorem EndsCanonical.execIrrev {i stall chk sig eff} (h : Canonical s)
    (hchk : ∀ {x y s}, Canonical s → Canonical (chk x y s).1) (heff : ∀ {x y s}, Canonical s → Canonical (eff x y s)) :
    EndsCanonical (execIrrev i stall chk sig eff s) := by
  unfold Machine.execIrrev
  split
  · exact .next (.tick h)
  · split
    · next heq1 => exact .next (.snapAfter (.of_next heq1 (.execEach h (fun h => .gated h hchk heff))))
    · exact .execEach h (fun h => .gated h hchk heff)

theorem EndsCanonical.execIrrevTeams {i stall chk sig eff} (h : Canonical s)
    (hchk : ∀ {x y s}, Canonical s → Canonical (chk x y s).1) (heff : ∀ {x y z s}, Canonical s → Canonical (eff x y z s)) :
    EndsCanonical (execIrrevTeams i stall chk sig eff s) := by
  unfold Machine.execIrrevTeams
  split
  · exact .next (.tick h)
  · next c _ _ =>
    extract_lets one
    have hone : ∀ {c l ids s}, Canonical s → Canonical (one c l ids s) := fun h => by
      unfold one
      split
      · exact h
      · refine .ite (.ite (heff h) (.foldl h fun _ _ h => .modThread h)) ?_
        split
        · next s' _ _ heq2 =>
          have hs' : Canonical s' := .fst heq2 (hchk h)
          refine .ite (.foldl h fun _ _ h => .raise h) ?_
          exact .ite (.foldl hs' fun _ _ h => .raisePair h) (.foldl hs' fun _ _ h => .raise h)
        · next heq2 =>
          exact .ite (heff (.fst heq2 (hchk h))) (.ite (.foldl h fun _ _ h => .sign h) (.foldl h fun _ _ h => .stopFor h))
    split
    · next heq1 => exact .next (.snapAfter (.of_next heq1 (.execTeams h hone)))
    · exact .execTeams h hone

/-! Layout views (Machine/Views.lean). -/

theorem Canonical.viewElem {q d i k} (h : Canonical s) : Canonical (s.viewElem q d i k).1 := by
  unfold State.viewElem
  split
  next s1 ix den heq =>
  have hs1 : Canonical s1 := by
    split at heq
    · cases heq; exact h
    · split at heq
      · next hg => cases heq; exact .fst hg (.globAccess h)
      · next hg =>
        have hs := Canonical.fst hg (.globAccess h)
        dsimp only at heq
        split at heq
        · cases heq; exact hs
        · split at heq <;> (cases heq; exact hs)
  split
  · exact hs1
  · split
    · exact hs1
    · split
      · next hg => exact .fst hg (.globAccess hs1)
      · next hg => exact .fst hg (.globAccess hs1)

theorem Canonical.viewPieces {q d k ps} (h : Canonical s) : Canonical (s.viewPieces q d k ps).1 := by
  induction ps generalizing s with
  | nil => exact h
  | cons p ps ih =>
    unfold State.viewPieces
    split
    · next hv => exact .fst hv (.viewElem h)
    · next hv => exact ih (.fst hv (.viewElem h))

theorem Canonical.viewThrough {desc id va n k single} (h : Canonical s) : Canonical (s.viewThrough desc id va n k single).1 := by
  unfold State.viewThrough
  split
  · exact h
  · exact h
  · split
    · next heq2 => exact .fst heq2 (.viewPieces h)

theorem Canonical.viewAccess {id va n k single} (h : Canonical s) : Canonical (s.viewAccess id va n k single).1 := .viewThrough h

theorem Canonical.idxAsk {q xs} (h : Canonical s) : Canonical (s.idxAsk q xs) := .foldl (.ite (.flush h) h) fun _ _ h => .l2Ask h

theorem Canonical.viewIdxAsk {id va n} (h : Canonical s) : Canonical (s.viewIdxAsk id va n) := by
  unfold State.viewIdxAsk
  split
  · exact .idxAsk h
  · exact h

theorem Canonical.reportWord {c ids f} (h : Canonical s) : Canonical (s.reportWord c ids f) := by
  unfold State.reportWord
  exact .foldl_fst h fun _ _ h => by
      split
      · exact .foldl_fst h fun _ _ h => by
            split
            · exact h
            · exact .reportDenied h

theorem Canonical.viewChk {slot id x} (h : Canonical s) : Canonical (viewChk slot id x s).1 := by
  unfold Machine.viewChk
  split <;> exact h

theorem Canonical.viewDefChk {slot k x y} (h : Canonical s) : Canonical (viewDefChk slot k x y s).1 := by
  unfold Machine.viewDefChk
  split
  · exact h
  · extract_lets
    split <;> exact h

theorem Canonical.putSlot {a active stage staged} (h : Canonical s) : Canonical (s.putSlot a active stage staged) := by
  unfold State.putSlot
  extract_lets m
  have hm : Memory.wf m = true := by
    unfold m
    split
    · exact Memory.wf_wrNat _ _ _ h.mem
    · exact h.mem
  exact ⟨Memory.wf_wr _ _ (Memory.wf_wrNat _ _ _ hm), h.host⟩

theorem Canonical.defineSlot {ids a d} (h : Canonical s) : Canonical (s.defineSlot ids a d) := .foldl h fun _ _ h => .beginRelease h

theorem EndsCanonical.execViewDefG {q slot k} (h : Canonical s) : EndsCanonical (execViewDefG q slot k s) := by
  unfold Machine.execViewDefG
  exact .execIrrevTeams h (fun h => .viewChk h) (fun h => .ite h (by
    split
    · exact h
    · exact .putSlot h))

theorem EndsCanonical.heldFrom {n} {o : Out} (h : EndsCanonical o) : EndsCanonical (heldFrom n o) := by
  cases o with
  | next s =>
    have hs : Canonical s := h s rfl
    unfold Machine.heldFrom
    dsimp only
    split
    · exact h
    · exact .next (.ite hs hs)
  | fault f => exact h
  | refused r => exact h

theorem EndsCanonical.execViewDefX {q slot k} (h : Canonical s) : EndsCanonical (execViewDefX q slot k s) := by
  unfold Machine.execViewDefX
  exact .heldFrom (.execIrrevTeams h .viewDefChk (fun h => .ite h (by
    split
    · exact h
    · exact .defineSlot h)))

theorem EndsCanonical.execViewDel {q slot} (h : Canonical s) : EndsCanonical (execViewDel q slot s) := by
  unfold Machine.execViewDel
  exact .heldFrom (.execIrrevTeams h .viewChk (fun h => .ite h (by
    split
    · exact h
    · exact .defineSlot h)))

theorem EndsCanonical.execViewQ {q k slot half} (h : Canonical s) : EndsCanonical (execViewQ q k slot half s) := by
  unfold Machine.execViewQ
  exact .execTeams h (fun h => by
    extract_lets
    split
    · exact .foldl h fun _ _ h => .raise h
    · refine .ite (.ite (.foldl h fun _ _ h => .modThread h) (.wheelTake h (fun h => .setY h))) ?_
      exact .foldl (.modTeamOf (.lvOpen h)) fun _ _ h => .sendRet (.modThread h))

/-! Loads and stores (Machine/LoadStore.lean). -/

theorem Canonical.takeWords {c id regs ws} (h : Canonical s) : Canonical (s.takeWords c id regs ws) := .modThread (.injected h)

theorem Canonical.loadOne {word acq sz sx d m c id} (h : Canonical s) : Canonical (loadOne word acq sz sx d m c id s) := by
  unfold Machine.loadOne
  split
  · exact h
  · extract_lets va n regs take
    have htake : ∀ {s}, Canonical s → Canonical (take s) := fun h => .wheelTake h (fun h => .takeWords h)
    refine .ite ?_ ?_
    · split
      · next s' _ _ heq1 =>
        have hs' : Canonical s' := .fst heq1 (.viewAccess h)
        exact .raise (.ite h hs')
      · next s' _ _ heq1 =>
        have hs' : Canonical s' := .fst heq1 (.viewAccess h)
        exact .ite (htake h) (.startLoad (.lvOpen (.flush hs')))
    · split
      · next s1 _ heq1 =>
        have hs1 : Canonical s1 := .fst heq1 (.access h)
        exact .raise (.ite h hs1)
      · next s1 _ heq1 =>
        have hs1 : Canonical s1 := .fst heq1 (.access h)
        extract_lets l1 a1 s'
        have hs' : Canonical s' := by
          unfold s'
          split
          · exact .ite hs1 (.flush hs1)
          · exact hs1
        exact .ite (.startLoad hs1) (.ite (htake h) (.startLoad (.lvOpen hs')))

theorem EndsCanonical.withIndex {i m n k} (h : Canonical s) (hk : ∀ {s}, Canonical s → EndsCanonical (k s)) :
    EndsCanonical (withIndex i m n k s) := by
  unfold Machine.withIndex
  split
  · exact hk h
  · extract_lets
    exact .ite (hk h) (.next (.tick (.foldl h fun _ _ h => by
        split
        · exact .viewIdxAsk h
        · exact h)))

theorem EndsCanonical.loadWord {i acq sz sx d m} (h : Canonical s) : EndsCanonical (loadWord i acq sz sx d m s) :=
  .withIndex h (fun h => .execAll h (fun h => .reportWord (.foldl h fun _ _ h => .loadOne h)))

theorem Canonical.openView {id pc word va data nt rel} (h : Canonical s) : Canonical (s.openView id pc word va data nt rel) := by
  unfold State.openView
  extract_lets s1
  have hs1 : Canonical s1 := .flush h
  exact .push (.ite (.beginRelease hs1) hs1)

theorem Canonical.dropView {id pc} (h : Canonical s) : Canonical (s.dropView id pc) := h

theorem Canonical.storeFails {id pc cause va} (h : Canonical s) : Canonical (s.storeFails id pc cause va) :=
  .ite (.ite (.raise (.redraw h)) (.push (.redraw h))) (.raise h)

theorem Canonical.storeGoes {id pc va a bs nt rel} (h : Canonical s) : Canonical (s.storeGoes id pc va a bs nt rel) := by
  unfold State.storeGoes
  split
  · exact .ite (.stRaise (.beginRelease h)) (.stRaise (.storeCells h))
  · exact .stRaise (.storeCells h)

theorem Canonical.viewGoes {id v} (h : Canonical s) : Canonical (s.viewGoes id v) := by
  unfold State.viewGoes
  extract_lets drop cells s1
  have hdrop : Canonical drop := h
  have hs1 : Canonical s1 := .modThread h
  split
  · exact .raise hdrop
  · exact .ite (.stRaise (.sign hdrop)) (.ite (.stRaise (.putCont hdrop)) (.push hs1))

theorem Canonical.storeOne {nt rel sz m b c id} (h : Canonical s) : Canonical (storeOne nt rel sz m b c id s) := by
  unfold Machine.storeOne
  split
  · exact h
  · extract_lets
    refine .ite (.stopFor (.dropView h)) (.ite (.modThread (.dropView h)) ?_)
    refine .ite ?_ ?_
    · split
      · exact .viewGoes h
      · exact h
    · split
      · next heq1 => exact .storeFails (.ite h (.fst heq1 (.access h)))
      · next heq1 => exact .storeGoes (.ite h (.fst heq1 (.access h)))

theorem EndsCanonical.storeWord {i nt rel sz m b} (h : Canonical s) : EndsCanonical (storeWord i nt rel sz m b s) := by
  unfold Machine.storeWord
  split
  · exact .next (.tick h)
  · extract_lets
    exact .ite (.next (.tick (.foldl h fun _ _ h => .ite (by
        split
        · exact .openView h
        · exact h) h))) (.execEach h (fun h => .storeOne h))

theorem EndsCanonical.execDrainNt {q} (h : Canonical s) : EndsCanonical (execDrainNt q s) := .execEach h (fun h => .ite (.modThread h) h)

theorem Canonical.sendQueue {id pc outs} (h : Canonical s) : Canonical (s.sendQueue id pc outs) := .push (.bump (.lvOpen h))

theorem Canonical.clockOne {i d c id} (h : Canonical s) : Canonical (clockOne i d c id s) :=
  .ite (.wheelTake h (fun h => .writeOuts h)) (.sendQueue (.writeOuts h))

theorem EndsCanonical.execMovs {q d x} (h : Canonical s) : EndsCanonical (execMovs q d x s) := by
  unfold Machine.execMovs
  refine .ite ?_ ?_
  · exact .execEach h (fun h => by
    split
    · exact .writeOuts h
    · exact h)
  · exact .ite (.execEach h (fun h => .clockOne h)) (.execReg h)

/-! Blocks at their beginning, commits, fences and barriers (Machine/Sync.lean). -/

theorem Canonical.dropFlight {blk} (h : Canonical s) : Canonical (s.dropFlight blk) := .foldl h fun _ _ h => .push h

theorem Canonical.putImage {b im} (h : Canonical s) : Canonical (s.putImage b im) := h
theorem Canonical.rollback {b} (h : Canonical s) : Canonical (s.rollback b) := .putImage (.dropFlight h)

theorem Canonical.mismatched {blk} (h : Canonical s) : Canonical (s.mismatched blk) := .push (.modBlock h)

theorem Canonical.commitCheck {blk} (h : Canonical s) : Canonical (s.commitCheck blk) := by
  unfold State.commitCheck
  split
  · exact h
  · refine .ite ?_ h
    refine .ite (.mismatched h) (.ite (.lose h) ?_)
    extract_lets s1 s2
    have hs2 : Canonical s2 := .snap h
    exact .push (.modBlock (.ite (.push hs2) hs2))

theorem Canonical.wakeMat {blk} (h : Canonical s) : Canonical (s.wakeMat blk) := by
  unfold State.wakeMat
  split
  · exact h
  · exact .foldl h fun _ _ h => .ask h

theorem Canonical.releaseCells {b} (h : Canonical s) : Canonical (s.releaseCells b) := by
  unfold State.releaseCells
  extract_lets id s1 s2
  have hs2 : Canonical s2 := .foldl (.forget h) fun _ _ h => by
      split
      · exact .putScr h
      · exact h
  exact .sendCells hs2

theorem Canonical.grant {blk} (h : Canonical s) : Canonical (s.grant blk) := by
  unfold State.grant
  split <;> exact h

theorem Canonical.commitRelease {blk} (h : Canonical s) : Canonical (commitRelease blk s) := by
  unfold Machine.commitRelease
  split
  · exact h
  · refine .ite (.push h) (.ite (.lose (.modBlock h)) ?_)
    refine .ite ?_ ?_
    · extract_lets s1
      have hs1 : Canonical s1 := .modBlock (.releaseCells h)
      exact .ite (.push hs1) (.commitCheck hs1)
    · refine .ite h ?_
      refine .ite ?_ ?_
      · refine .ite ?_ h
        extract_lets s1
        have hs1 : Canonical s1 := .commitCheck h
        exact .ite (.push hs1) hs1
      · refine .ite (.ite (.push h) (.modBlock h)) ?_
        refine .ite (.ite (.push (.modBlock h)) (.ite (.push h) (.ite (.lose h) (.grant h)))) ?_
        exact .ite (.ite (.lose h) (.push (.wakeMat (.modBlock (.snap h))))) (.modBlock h)

theorem EndsCanonical.execCommitStoreRelease {blk} (h : Canonical s) : EndsCanonical (execCommitStoreRelease blk s) :=
  .next (.tick (.commitRelease h))

theorem EndsCanonical.execFence {q sc} (h : Canonical s) : EndsCanonical (execFence q sc s) :=
  .heldFrom (.execEach h fun {_ id s} h => (Canonical.beginRelease h : Canonical (s.beginRelease id sc [] none)))

theorem Canonical.barRelease {bs k} (h : Canonical s) : Canonical (s.barRelease bs k) := .foldl h fun _ _ h => .acquire h

theorem Canonical.barCheck {blk k} (h : Canonical s) : Canonical (s.barCheck blk k) := by
  unfold State.barCheck
  split
  · exact h
  · exact .ite (.barRelease h) h

theorem Canonical.barCheckAll {blk} (h : Canonical s) : Canonical (s.barCheckAll blk) := .barCheck (.barCheck (.barCheck h))

theorem EndsCanonical.barWord {i k} (h : Canonical s) : EndsCanonical (barWord i k s) :=
  .execEach h (fun h => .ite (.raise h) (.modThread (.beginRelease h)))

theorem EndsCanonical.execWait {q nl ns na nt} (h : Canonical s) : EndsCanonical (execWait q nl ns na nt s) :=
  .execEach h (fun h => .modThread h)

/-! The end of blocks, records and launches (Machine/Blocks.lean). -/

theorem Canonical.drainCheck {part handle} (h : Canonical s) : Canonical (s.drainCheck part handle) := by
  unfold State.drainCheck
  split
  · exact h
  · exact .ite (.postFault ⟨Memory.wf_wr _ _ h.mem, h.host⟩) h

theorem Canonical.objRef {part handle die up} (h : Canonical s) : Canonical (s.objRef part handle die up) := by
  unfold State.objRef
  split
  · exact h
  · extract_lets n s1
    have hs1 : Canonical s1 := ⟨Memory.wf_wrNat _ _ _ h.mem, h.host⟩
    exact .ite hs1 (.drainCheck hs1)

theorem Canonical.areaMod {part die f} (h : Canonical s) : Canonical (s.areaMod part die f) := h

theorem Canonical.launchLess {l n} (h : Canonical s) : Canonical (s.launchLess l n) := by
  unfold State.launchLess
  extract_lets s1
  have hs1 : Canonical s1 := .modLaunch h
  split
  · exact .ite (.push hs1) hs1
  · exact hs1

theorem Canonical.freeRecord {r} (h : Canonical s) : Canonical (s.freeRecord r) :=
  .foldl (.launchLess (.objRef (.areaMod h))) fun _ _ h => .push h

theorem Canonical.sweepLaunch {l} (h : Canonical s) : Canonical (s.sweepLaunch l) := by
  unfold State.sweepLaunch
  split
  · exact h
  · exact .ite h (.foldl (.foldl h fun _ _ h => .push h) fun _ _ h => .freeRecord h)

theorem Canonical.failLaunch {l reason} (h : Canonical s) : Canonical (s.failLaunch l reason) := .sweepLaunch (.modLaunch h)

theorem Canonical.dropBlock {b} (h : Canonical s) : Canonical (s.dropBlock b) := by
  unfold State.dropBlock
  extract_lets s1 s2
  have hs2 : Canonical s2 := .dropFlight (.ite h (.releaseCells h))
  split
  · exact .freeRecord hs2
  · exact hs2

theorem Canonical.barNeighbours {b} (h : Canonical s) : Canonical (s.barNeighbours b) := .foldl h fun _ _ h => .barCheckAll h

theorem Canonical.cancelBlock {b} (h : Canonical s) : Canonical (s.cancelBlock b) := by
  unfold State.cancelBlock
  split
  · exact .push (.modBlock h)
  · exact .push (.modBlock h)
  · exact h
  · exact h
  · exact .dropBlock h

theorem Canonical.killForGood {b reason} (h : Canonical s) : Canonical (s.killForGood b reason) := by
  unfold State.killForGood
  extract_lets s1
  have hs1 : Canonical s1 := .failLaunch (.dropBlock h)
  exact .ite (.foldl hs1 fun _ _ h => .cancelBlock h) (.barNeighbours hs1)

theorem Canonical.kill {blk reason rec} (h : Canonical s) : Canonical (s.kill blk reason rec) := by
  unfold State.kill
  split
  · exact h
  · refine .ite h ?_
    extract_lets s1
    have hs1 : Canonical s1 := by
      unfold s1
      split
      · exact .postFault h
      · exact h
    exact .ite (.dropBlock hs1) (.ite (.push (.modBlock (.rollback hs1))) (.killForGood hs1))

theorem Canonical.consumed {id pc} (h : Canonical s) : Canonical (s.consumed id pc) := by
  unfold State.consumed
  split
  · exact h
  · exact .kill h

/-! Atomics and reductions (Machine/Atomics.lean). -/

theorem Canonical.atomPlace {id va n k} (h : Canonical s) : Canonical (s.atomPlace id va n k).1 := by
  unfold State.atomPlace
  split
  · split
    · next heq1 => exact .fst heq1 (.viewAccess h)
    · next heq1 => exact .fst heq1 (.viewAccess h)
  · split
    · next heq1 => exact .fst heq1 (.access h)
    · next heq1 => exact .fst heq1 (.access h)

theorem Canonical.atomChk {m n k reps z x2} (h : Canonical s) : Canonical (atomChk m n k reps z x2 s).1 := by
  unfold Machine.atomChk
  split
  · exact h
  · split
    · next heq1 => exact .foldl (.fst heq1 (.atomPlace h)) fun _ _ h => .reportDenied h
    · next heq1 => exact .fst heq1 (.atomPlace h)

theorem Canonical.atomSend {op scope ord wide d m b red word reps c id} (h : Canonical s) :
    Canonical (atomSend op scope ord wide d m b red word reps c id s) := by
  unfold Machine.atomSend
  split
  · exact h
  · extract_lets
    refine .ite (.ite h (.wheelTake h fun h => .setFlags (.takeWords h))) ?_
    split
    · next hp => exact .fst hp (.atomPlace h)
    · next s1 _ _ _ hp =>
      have hs1 : Canonical s1 := .fst hp (.atomPlace h)
      extract_lets s2 bv core s3 k s4 s5 s6 s7 s8
      have hs2 : Canonical s2 := .foldl hs1 fun _ _ h => .reportDenied h
      have hs3 : Canonical s3 := by
        unfold s3
        split
        · exact .flush hs2
        · exact hs2
      have hs4 : Canonical s4 := .bump hs3
      have hs5 : Canonical s5 := .ite hs3 (.lvOpen hs3)
      have hs7 : Canonical s7 := Canonical.bump hs5
      have hs8 : Canonical s8 := .modThread hs7
      clear_value s4 s8
      split
      · exact .stRaise hs4
      · exact .ite (.beginRelease hs8) (.push hs8)

theorem EndsCanonical.atomWord {i op x} (h : Canonical s) : EndsCanonical (atomWord i op x s) :=
  .withIndex h (fun h => .execIrrev h (fun h => .atomChk h) (fun h => .atomSend h))

theorem EndsCanonical.redWord {i op x} (h : Canonical s) : EndsCanonical (redWord i op x s) := by
  unfold Machine.redWord
  extract_lets
  exact .withIndex h (fun h => .execIrrev h (fun h => .atomChk h) (fun h => by
    extract_lets s1
    have hs1 : Canonical s1 := by
      unfold s1
      split
      · exact .setFlags h
      · exact h
    exact .atomSend hs1))

theorem Canonical.atomDone {a m fl poisoned} (h : Canonical s) : Canonical (s.atomDone a m fl poisoned) := by
  unfold State.atomDone
  extract_lets s1 s2
  have hs1 : Canonical s1 := h
  have hs2 : Canonical s2 := by
    unfold s2
    split
    · exact .acquire hs1
    · exact hs1
  exact .ite (.deliver hs1) (.sendRet hs2)

theorem Canonical.atomicAtHome {id} (h : Canonical s) : Canonical (atomicAtHome id s) := by
  unfold Machine.atomicAtHome
  split
  · exact h
  · extract_lets
    refine .ite (.push h) ?_
    split
    · split
      · exact .atomDone h
      · exact .ite (.push h) (.atomDone (.modBlock h))
    · exact .ite (.push h) (.ite (.push (.homeAsk h)) (.atomDone (.homeWrite (.forget h))))

theorem EndsCanonical.execAtomicAtHome {id} (h : Canonical s) : EndsCanonical (execAtomicAtHome id s) := .next (.tick (.atomicAtHome h))

theorem Canonical.updateLineMerge {core line} (h : Canonical s) : Canonical (updateLineMerge core line s) :=
  .ite h (.ite (.push h) (.ite (.push (.push h)) (.homeWrite h)))

theorem EndsCanonical.execUpdateLineMerge {core line} (h : Canonical s) : EndsCanonical (execUpdateLineMerge core line s) :=
  .next (.tick (.updateLineMerge h))

/-! Queues (Machine/Queues.lean). -/

theorem Canonical.qPut {pa key off n v dom} (h : Canonical s) : Canonical (s.qPut pa key off n v dom) := .homeWrite h
theorem Canonical.qSync {pa key} (h : Canonical s) : Canonical (s.qSync pa key) := .qPut h
theorem Canonical.modReq {id f} (h : Canonical s) : Canonical (s.modReq id f) := h

theorem Canonical.qPlace {id va k} (h : Canonical s) : Canonical (s.qPlace id va k).1 := by
  unfold State.qPlace
  split
  · exact h
  · split
    · exact h
    · split
      · exact h
      · split
        · next s1 _ heq3 =>
          have hs1 : Canonical s1 := .fst heq3 (.globAccess h)
          split
          · split <;> exact hs1
          · exact hs1
        · exact .globAccess h

theorem Canonical.qBreak {pa key q} (h : Canonical s) : Canonical (s.qBreak pa key q) :=
  .qSync (.qPut (.foldl h fun _ _ h => .push (.opDone (.modReq h))))

theorem Canonical.qRaise {r} (h : Canonical s) : Canonical (s.qRaise r) := .foldl h fun _ _ h => .modThread h

theorem Canonical.qSend {r} (h : Canonical s) : Canonical (s.qSend r) := by
  unfold State.qSend
  extract_lets s1 s2 s3 s4
  have hs3 : Canonical s3 := .flush (.bump h)
  have hs4 : Canonical s4 := .ite (.foldl hs3 fun _ _ h => by
      exact .modReq (.beginRelease h)) (.foldl hs3 fun _ _ h => .lvOpen h)
  exact .push (.qRaise hs4)

theorem Canonical.qOpenStat {r} (h : Canonical s) : Canonical (s.qOpenStat r) := .ite (.foldl h fun _ _ h => .lvOpen h) h

theorem Canonical.qTake {regs stat c id} (h : Canonical s) : Canonical (qTake regs stat c id s) := by
  unfold Machine.qTake
  exact .wheelTake h (fun h => by
    split
    · exact .takeWords h
    · exact .takeWords h)

theorem Canonical.queueChk {x id x'} (h : Canonical s) : Canonical (queueChk x id x' s).1 := by
  unfold Machine.queueChk
  split
  · exact h
  · split
    · next heq1 => exact .fst heq1 (.qPlace h)
    · next heq1 => exact .fst heq1 (.qPlace h)

theorem Canonical.queueSend {s0 : State} {enq x word c l ids} (h : Canonical s0) : Canonical (queueSend enq x word c l ids s0) := by
  unfold Machine.queueSend
  refine .ite (.foldl h fun _ _ h => .qTake h) ?_
  split
  · exact h
  · split
    · next heq1 => exact .fst heq1 (.qPlace h)
    · next heq1 => exact .qOpenStat (.qSend (.fst heq1 (.qPlace h)))

theorem Canonical.qReady {id pa} (h : Canonical s) : Canonical (s.qReady id pa) := .homeAsk (.flush h)

theorem Canonical.qReadyAll {k m ids} (h : Canonical s) : Canonical (s.qReadyAll k m ids) := by
  unfold State.qReadyAll
  exact .foldl h fun _ _ h => by
      split
      · exact .qReady h
      · exact h

theorem EndsCanonical.queueWord {i enq x} (h : Canonical s) : EndsCanonical (queueWord i enq x s) :=
  .ite (.execIrrevTeams h (fun h => .queueChk h) (fun h => .queueSend h)) (.execIrrev h (fun h => .queueChk h) (fun h => .queueSend h))

theorem Canonical.ungrant {id pc} (h : Canonical s) : Canonical (s.ungrant id pc) := .ite (.modThread h) h

theorem Canonical.qSlots {r q first js} (h : Canonical s) : Canonical (s.qSlots r q first js).1 := by
  induction js generalizing s with
  | nil => exact h
  | cons j js ih =>
    unfold State.qSlots
    split
    · next hg => exact .fst hg (.globAccess h)
    · next hg =>
      have hr := ih (.fst hg (.globAccess h))
      split
      · next hq => exact .fst hq hr
      · exact hr

theorem Canonical.qEnd {r code elems} (h : Canonical s) : Canonical (s.qEnd r code elems) := .push (.opDone (.modReq h))

theorem Canonical.qRetry {pa first} (h : Canonical s) : Canonical (s.qRetry pa first) := .foldl h fun _ _ h => .push h
theorem Canonical.qTrap {r c} (h : Canonical s) : Canonical (s.qTrap r c) := .push (.modReq h)

theorem Canonical.qPerform {r q} (h : Canonical s) : Canonical (s.qPerform r q) := by
  unfold State.qPerform
  extract_lets first waits s1
  have hs1 : Canonical s1 := .ite (.qSync (.modReq h)) h
  split
  · next s2 _ heq =>
    have hs2 : Canonical s2 := .fst heq (.qSlots hs1)
    exact .qRetry (.qTrap hs2)
  · next s2 _ heq =>
    have hs2 : Canonical s2 := .fst heq (.qSlots hs1)
    refine .ite ?_ ?_
    · extract_lets s3
      have hs3 : Canonical s3 := .foldl hs2 fun _ _ h => .homeWrite h
      exact .push (.opDone (.bump (.modReq hs3)))
    · extract_lets words bad dens s3
      have hs3 : Canonical s3 := .foldl_fst hs2 fun _ _ h => by
          split
          · exact h
          · exact .reportDenied h
      exact .qRetry (.qEnd (.modReq (.qPut (.qPut (.forget hs3)))))

theorem Canonical.qAccept {r q} (h : Canonical s) : Canonical (s.qAccept r q) := by
  unfold State.qAccept
  refine .ite (.ite (.qTrap h) (.qEnd h)) ?_
  refine .ite (.qBreak (.qTrap h)) (.ite (.qTrap h) (.ite (.qPerform h) (.ite (.qEnd h) ?_)))
  exact .ite (.push (.modReq (.redraw h))) (.qSync (.redraw h))

theorem Canonical.qAskLater {r q} (h : Canonical s) : Canonical (s.qAskLater r q) := .foldl (.homeAsk h) fun _ _ h => .ask h

theorem Canonical.queueRequest {id} (h : Canonical s) : Canonical (queueRequest id s) := by
  unfold Machine.queueRequest
  split
  · exact h
  · refine .ite h ?_
    extract_lets
    split
    · exact .ite (.push (.homeAsk h)) (.qRetry (.qEnd (.qPut (.qPut h))))
    · refine .ite ?_ ?_
      · exact .ite (.push (.homeAsk h)) (.ite h (.ite (.qBreak (.qTrap (.modReq h))) (.ite h (.ite (.push h) (.qPerform h)))))
      · exact .ite (.push (.qAskLater h)) (.qAccept h)

theorem EndsCanonical.execQueueRequest {id} (h : Canonical s) : EndsCanonical (execQueueRequest id s) := .next (.tick (.queueRequest h))

theorem EndsCanonical.execQueueRequestResend {id} (h : Canonical s) : EndsCanonical (execQueueRequestResend id s) :=
  .next (.tick (.push (.modReq h)))

theorem Canonical.queueWithdrawal {id} (h : Canonical s) : Canonical (queueWithdrawal id s) := by
  unfold Machine.queueWithdrawal
  split
  · exact h
  · refine .ite h (.ite h ?_)
    extract_lets s1 s2 s3 s4
    have hs4 : Canonical s4 := .opWithdrawn (.foldl (.foldl h fun _ _ h => .deliver h) fun _ _ h => .ungrant (.lvDrop h))
    exact .ite (.qRetry (.qSync hs4)) hs4

theorem EndsCanonical.execQueueWithdrawal {id} (h : Canonical s) : EndsCanonical (execQueueWithdrawal id s) :=
  .next (.tick (.queueWithdrawal h))

theorem Canonical.qPark {r c id} (h : Canonical s) : Canonical (s.qPark r c id) := by
  unfold State.qPark
  extract_lets
  exact .foldl (.lvDrop h) fun _ _ h => by
      split
      · exact h
      · exact .park (.modThread h)

theorem Canonical.queueRequestComplete {id} (h : Canonical s) : Canonical (queueRequestComplete id s) := by
  unfold Machine.queueRequestComplete
  split
  · exact h
  · extract_lets gone s1 s2
    have hgone : Canonical gone := h
    have hs2 : Canonical s2 := .foldl (.ite hgone (.ite (.acquire hgone) hgone)) fun _ _ h => by
        exact .lvFill (.deliver h)
    split
    · exact .foldl hgone fun _ _ h => .qPark h
    · exact .ite (.consumed hs2) hs2

theorem EndsCanonical.execQueueRequestComplete {id} (h : Canonical s) : EndsCanonical (execQueueRequestComplete id s) :=
  .next (.tick (.queueRequestComplete h))

theorem Canonical.tryOpen {s0 : State} {enq x c leads} (h : Canonical s0) : Canonical (tryOpen enq x c leads s0) := by
  unfold Machine.tryOpen
  extract_lets s
  have hs : Canonical s := .foldl h fun _ _ h => by
      extract_lets s3
      have hs3 : Canonical s3 := .flush h
      split
      · exact hs3
      · exact .ite (.beginRelease hs3) hs3
  exact .bump hs

theorem Canonical.tryServe {enq x c word l ids} (h : Canonical s) : Canonical (tryServe enq x c word l ids s) := by
  unfold Machine.tryServe
  extract_lets served fail
  have hserved : ∀ {s}, Canonical s → Canonical (served s) := fun h => h
  have hfail : ∀ {s e}, Canonical s → Canonical (fail s e) := fun h => .foldl (hserved h) fun _ _ h => .ite (.raisePair h) (.raise h)
  split
  · exact hserved h
  · split
    · next s1 _ heq1 =>
      have hs1 : Canonical s1 := .fst heq1 (.qPlace h)
      exact hfail hs1
    · next s1 _ heq1 =>
      have hs1 : Canonical s1 := .fst heq1 (.qPlace h)
      extract_lets r q s2 s11 s12 s21
      have hs11 : Canonical s11 := .bump hs1
      have hs21 : Canonical s21 := .qAccept (.qOpenStat (.ite hs11 (.foldl hs11 fun _ _ h => .lvOpen h)))
      refine .ite (.qAskLater hs1) ?_
      split
      · exact hfail (.foldl hs21 fun _ _ h => .lvDrop h)
      · exact hserved (.qRaise hs21)

theorem Canonical.tryPass {i enq x c rest acting} (h : Canonical s) : Canonical (tryWord.tryPass i enq x c rest acting s) := by
  unfold Machine.tryWord.tryPass
  extract_lets s1 s2
  have hs2 : Canonical s2 := .foldl (.trapRegs h) fun _ _ h => by
      split
      · exact .ite h (.ite (.qTake h) (.modThread h))
      · exact h
  exact .snapAfter (.advance hs2)

theorem EndsCanonical.tryWord {i enq x} (h : Canonical s) : EndsCanonical (tryWord i enq x s) := by
  unfold Machine.tryWord
  split
  · exact .next (.tick h)
  · extract_lets
    refine .ite (.execIrrev h (fun h => .queueChk h) (fun h => h)) (.ite (.next (.tick h)) ?_)
    refine .ite (.next (.tick (.qReadyAll h))) ?_
    split
    · exact .ite (.next (.tick (.tryPass h))) (.next (.tick (.tryOpen h)))
    · split
      · exact .next (.tick (.tryServe h))
      · exact .next (.tick (.tryPass h))

/-! Queue registers (Machine/QRegs.lean). -/

theorem Canonical.setQreg {id k b} (h : Canonical s) : Canonical (s.setQreg id k b) := .modTeamOf h
theorem Canonical.endBind {id k} (h : Canonical s) : Canonical (s.endBind id k) := .setQreg (.foldl h fun _ _ h => .queueWithdrawal h)

theorem Canonical.rebind {k b c l ids} (h : Canonical s) : Canonical (rebind k b c l ids s) :=
  .ite (.setQreg (.endBind h)) (.foldl h fun _ _ h => .modThread h)

theorem Canonical.endWait {t} (h : Canonical s) : Canonical (s.endWait t) := by
  unfold State.endWait
  split
  · split
    · refine .ite ?_ h
      extract_lets s1
      have hs1 : Canonical s1 := .setQreg (.endBind h)
      exact hs1
    · exact h
  · exact h

theorem Canonical.endWaits {p} (h : Canonical s) : Canonical (s.endWaits p) := by
  unfold State.endWaits
  exact .foldl h fun _ _ h => by
      split
      · exact .endWait h
      · exact h

theorem EndsCanonical.execQbindQueue {q d m} (h : Canonical s) : EndsCanonical (execQbindQueue q d m s) := by
  unfold Machine.execQbindQueue
  extract_lets fail
  have hfail : ∀ {c ids s e va}, Canonical s → Canonical (fail c ids s e va) := fun h => .foldl h fun _ _ h => .raise h
  exact .ite (.next (.tick (.qReadyAll h))) (.execTeams h (fun h => by
    split
    · exact h
    · split
      · next s1 _ heq1 =>
        have hs1 : Canonical s1 := .fst heq1 (.qPlace h)
        exact hfail (.ite h hs1)
      · next s1 _ heq1 =>
        have hs1 : Canonical s1 := .fst heq1 (.qPlace h)
        refine .ite ?_ ?_
        · split
          · exact .foldl h fun _ _ h => .modThread h
          · exact .ite (hfail (.lvTake h)) (.rebind (.lvTake h))
        · extract_lets x2 w s' s'1
          have hs' : Canonical s' := .ite (.reportDenied hs1) hs1
          have hs'1 : Canonical s'1 := .ite (.sendQueue hs') hs'
          exact .ite (hfail hs'1) (.rebind (.acquire hs'1))))

theorem EndsCanonical.execQbindCopy {q d} (h : Canonical s) : EndsCanonical (execQbindCopy q d s) := .execTeams h (fun h => .rebind h)

theorem EndsCanonical.execQbindGather {q d k} (h : Canonical s) : EndsCanonical (execQbindGather q d k s) :=
  .execTeams h (fun h => .ite (.foldl h fun _ _ h => .raise h) (.rebind h))

theorem EndsCanonical.execQunbind {q d} (h : Canonical s) : EndsCanonical (execQunbind q d s) := .execTeams h (fun h => .rebind h)

theorem EndsCanonical.execQstat {q d a} (h : Canonical s) : EndsCanonical (execQstat q d a s) := by
  unfold Machine.execQstat
  exact .execTeams h (fun h => .ite (.ite (.foldl h fun _ _ h => .modThread h) (.wheelTake h (fun h => .setY h))) (by
    extract_lets b w s1 s2
    have hs1 : Canonical s1 := .setY h
    have hs2 : Canonical s2 := by
      unfold s2
      clear_value b
      split
      · exact .setQreg hs1
      · exact hs1
    exact .ite (.sendQueue hs2) hs2))

theorem Canonical.gPush {word id k g idx c} (h : Canonical s) : Canonical (s.gPush word id k g idx c) := by
  unfold State.gPush
  extract_lets n fill p s1
  have hs1 : Canonical s1 := .setQreg (.bump h)
  exact .ite hs1 (.beginRelease hs1)

theorem Canonical.gPart {b l p row a n pages} (h : Canonical s) : Canonical (s.gPart b l p row a n pages).1 := by
  unfold State.gPart
  split
  · next s1 _ heq =>
    have hs1 : Canonical s1 := .fst heq (.globAccess h)
    exact hs1
  · next s1 _ heq =>
    have hs1 : Canonical s1 := .fst heq (.globAccess h)
    split
    · split
      · exact hs1
      · exact .postEvent hs1
    · exact hs1

theorem Canonical.gRow {b l p row parts} (h : Canonical s) : Canonical (s.gRow b l p row parts).1 := .foldl_fst h fun _ _ h => .gPart h

theorem Canonical.gTrim (h : Canonical s) : Canonical s.gTrim := h

theorem Canonical.gatherRowReturn {id} (h : Canonical s) : Canonical (gatherRowReturn id s) := by
  unfold Machine.gatherRowReturn
  split
  · exact h
  · split
    · extract_lets l a parts r s1 s2
      have hs2 : Canonical s2 := .modBlock (.gTrim (.modTeam (.gRow h)))
      refine .ite ?_ ?_
      · exact .push (.foldl h fun _ _ h => by
          split
          · exact .homeAsk h
          · exact h)
      · exact .ite (.consumed hs2) hs2
    · exact h

theorem EndsCanonical.execGatherRowReturn {id} (h : Canonical s) : EndsCanonical (execGatherRowReturn id s) :=
  .next (.tick (.gatherRowReturn h))

theorem Canonical.qregChk {read sz k c id} (h : Canonical s) : Canonical (qregChk read sz k c id s).1 := by
  unfold Machine.qregChk
  extract_lets b
  clear_value b
  split
  · exact h
  · split
    · split
      · next hp => exact .fst hp (.qPlace h)
      · next hp => exact .fst hp (.qPlace h)
    · exact h

theorem EndsCanonical.qregWord {i read sz k stall sig eff} (h : Canonical s) (heff : ∀ {x y s}, Canonical s → Canonical (eff x y s)) :
    EndsCanonical (qregWord i read sz k stall sig eff s) := by
  unfold Machine.qregWord
  split
  · exact .next (.tick h)
  · next c _ _ =>
    extract_lets one
    have hone : ∀ {c id s}, Canonical s → Canonical (one c id s) := fun h => .ite (.gated h (fun h => .qregChk h) heff) (by
      split
      · next heq1 => exact .raise (.fst heq1 (.qregChk h))
      · next heq1 => exact heff (.fst heq1 (.qregChk h)))
    split
    · next heq1 => exact .next (.snapAfter (.of_next heq1 (.execEach h hone)))
    · exact .execEach h hone

theorem Canonical.qregSend {word enq k c id va es sc dst elem} (h : Canonical s) :
    Canonical (s.qregSend word enq k c id va es sc dst elem) := by
  unfold State.qregSend
  split
  · next heq => exact .fst heq (.qPlace h)
  · next heq => exact .qSend (.fst heq (.qPlace h))

theorem Canonical.ldQOne {sz d k word ids c id} (h : Canonical s) : Canonical (ldQOne sz d k word ids c id s) := by
  unfold Machine.ldQOne
  extract_lets regs wait take
  have hwait : ∀ {x s}, Canonical s → Canonical (wait x s) := fun h => .modThread h
  have htake : ∀ {s}, Canonical s → Canonical (take s) := fun h => .wheelTake h (fun h => .takeWords h)
  split
  · exact h
  · exact .ite (htake h) (.qregSend h)
  · refine .ite (htake h) ?_
    split
    · extract_lets s1
      have hs1 : Canonical s1 := .modThread (.acquire (.setQreg h))
      exact .ite (.sendQueue hs1) hs1
    · exact hwait h
  · refine .ite (htake h) (.ite (.ite (hwait h) h) ?_)
    split
    · exact hwait h
    · exact .foldl (.setQreg h) fun _ _ h => .sendRet (.modThread (.lvOpen h))

theorem EndsCanonical.execLdQ {q sz d a} (h : Canonical s) : EndsCanonical (execLdQ q sz d a s) := .qregWord h (fun h => .ldQOne h)

theorem Canonical.stQOne {sz k b word c id} (h : Canonical s) : Canonical (stQOne sz k b word c id s) := by
  unfold Machine.stQOne
  split
  · exact h
  · extract_lets
    split
    · exact h
    · exact .ite h (.qregSend h)
    · exact .ite h (.beginRelease (.modThread (.setQreg (.bump h))))
    · exact .ite h (.ite (.modThread h) (.stRaise (.gPush h)))

theorem EndsCanonical.execStQ {q sz a b} (h : Canonical s) : EndsCanonical (execStQ q sz a b s) := .qregWord h (fun h => .stQOne h)

/-! Copy engines (Machine/Engines.lean). -/

theorem Canonical.copyQueue {c} (h : Canonical s) : Canonical (s.copyQueue c) := by
  unfold State.copyQueue
  extract_lets free e s1 s2
  have hs2 : Canonical s2 := .redraw h
  exact .ite (.push hs2) (.push hs2)

theorem Canonical.copyChk {x m x' y} (h : Canonical s) : Canonical (copyChk x m x' y s).1 := by
  unfold Machine.copyChk
  split
  · exact h
  · split
    · exact h
    · extract_lets
      split <;> exact h

theorem Canonical.copySend {x m c id} (h : Canonical s) : Canonical (copySend x m c id s) := by
  unfold Machine.copySend
  refine .ite (.wheelTake h (fun h => .takeWords h)) ?_
  split
  · extract_lets i n s1 r s2 s3 s4
    have hs1 : Canonical s1 := .bump (.lvOpen h)
    have hs2 : Canonical s2 := .beginRelease hs1
    have hs3 : Canonical s3 := .modThread hs2
    have hs4 : Canonical s4 := hs3
    exact .copyQueue hs4
  · exact h

theorem EndsCanonical.copyWord {i x m} (h : Canonical s) : EndsCanonical (copyWord i x m s) :=
  .execIrrev h (fun h => .copyChk h) (fun h => .copySend h)

theorem Canonical.useCopy {id p} (h : Canonical s) : Canonical (s.useCopy id p) := .foldl h fun _ _ h => .acquire h

theorem Canonical.ftestOne {i d a c id} (h : Canonical s) : Canonical (ftestOne i d a c id s) := by
  unfold Machine.ftestOne
  refine .ite (.wheelTake h (fun h => .writeOuts h)) ?_
  split
  · exact h
  · split
    · extract_lets s1
      have hs1 : Canonical s1 := .writeOuts h
      exact .ite (.sendQueue hs1) hs1
    · extract_lets s1
      have hs1 : Canonical s1 := .writeOuts (.useCopy h)
      exact .ite (.sendQueue hs1) hs1

theorem EndsCanonical.execFtest {q d a} (h : Canonical s) : EndsCanonical (execFtest q d a s) := .execEach h (fun h => .ftestOne h)
theorem Canonical.modCopy {id f} (h : Canonical s) : Canonical (s.modCopy id f) := h

theorem Canonical.fcancelOne {a id id'} (h : Canonical s) : Canonical (fcancelOne a id id' s) := by
  unfold Machine.fcancelOne
  refine .ite h ?_
  split
  · exact .ite (.push (.modCopy h)) h
  · exact h

theorem EndsCanonical.execFcancel {q a} (h : Canonical s) : EndsCanonical (execFcancel q a s) := .execEach h (fun h => .fcancelOne h)

theorem Canonical.copyPut {c b o bs} (h : Canonical s) : Canonical (s.copyPut c b o bs) := .modBlock h

theorem Canonical.copyOut {c bs} (h : Canonical s) : Canonical (s.copyOut c bs) := .foldl h fun _ _ h => .homeWrite h

theorem Canonical.reach {p : Prog} {r first n} (h : Canonical p.s) : Canonical (p.reach r first n).1.s := by
  unfold Prog.reach
  split <;> exact h

theorem Canonical.viewBytes {p : Prog} {k ps} (h : Canonical p.s) : Canonical (p.viewBytes k ps).1.s := by
  induction ps generalizing p with
  | nil => exact h
  | cons x ps ih =>
    unfold Prog.viewBytes
    dsimp only
    refine ih ?_
    split
    · exact h
    · exact .reach (.viewElem h)

theorem Canonical.elem {p : Prog} {k goff} (h : Canonical p.s) : Canonical (p.elem k goff).1.s := by
  unfold Prog.elem
  dsimp only
  split
  · split
    · exact h
    · exact .viewBytes h
  · split
    · exact h
    · split
      · next hg => exact .reach (.fst hg (.globAccess h))
      · next hg => exact .reach (.fst hg (.globAccess h))

theorem Canonical.elems {p : Prog} {k is} (h : Canonical p.s) : Canonical (p.elems k is).1.s := by
  induction is generalizing p with
  | nil => exact h
  | cons i is ih =>
    unfold Prog.elems
    split
    · refine ih ?_
      split <;> exact h
    · exact ih (.elem h)

theorem Canonical.report {p : Prog} (h : Canonical p.s) : Canonical p.report.s := by
  unfold Prog.report
  generalize p.dens = ds
  induction ds generalizing p with
  | nil => exact h
  | cons d ds ih =>
    rw [List.foldl_cons]
    refine ih ?_
    split
    · exact h
    · exact .postEvent h

theorem Canonical.cmdBytes {p : Prog} {va ks} (h : Canonical p.s) : Canonical (p.cmdBytes va ks).1.s := by
  induction ks generalizing p with
  | nil => exact h
  | cons k ks ih =>
    unfold Prog.cmdBytes
    split
    · exact ih h
    · split
      · next hg => exact .fst hg (.globAccess h)
      · next hg => exact ih (.fst hg (.globAccess h))
    · exact h

theorem Canonical.chunkDo {c p es} (h : Canonical s) (hp : Canonical p.s) : Canonical (s.chunkDo c p es) := by
  unfold State.chunkDo
  extract_lets p1 lost c1 c' s1 s2
  have hp1 : Canonical p1.s := .report hp
  have hs1 : Canonical s1 := .ite (by
    split
    · exact h
    · exact .ite (.mismatched hp1) (.foldl hp1 fun _ _ h => by
        split
        · exact h
        · exact .copyOut h)) (.foldl hp1 fun _ _ h => .foldl h fun _ _ h => .copyPut h)
  have hs2 : Canonical s2 := .modCopy hs1
  exact .ite (.push hs2) hs2

theorem Canonical.setEngine {e} (h : Canonical s) : Canonical (s.setEngine e) := h

theorem Canonical.copyChunk {die e} (h : Canonical s) : Canonical (copyChunk die e s) := by
  unfold Machine.copyChunk
  refine .ite (.setEngine h) ?_
  split
  · exact .push (.setEngine h)
  · next c _ =>
    split
    next p es he =>
    have hp : Canonical p.s := by
      have := Canonical.elems (p := { s := s, c := c, dens := [] }) (k := if c.lay.toGlobal then .write else .read) (is := c.range c.done) h
      rwa [he] at this
    exact .ite (.push h) (.ite (.push (.foldl h fun _ _ h => .homeAsk h)) (.push (.setEngine (.chunkDo h hp))))

theorem EndsCanonical.execCopyChunk {die e} (h : Canonical s) : EndsCanonical (execCopyChunk die e s) := .next (.tick (.copyChunk h))

theorem Canonical.putRecord {r} (h : Canonical s) : Canonical (s.putRecord r) := by
  unfold State.putRecord
  split
  · exact ⟨Memory.wf_wrNat _ _ _ h.mem, h.host⟩
  · exact h

theorem Canonical.joinDec {part handle} (h : Canonical s) : Canonical (s.joinDec part handle) := by
  unfold State.joinDec
  split
  · exact .postFault h
  · refine .ite (.postFault h) ?_
    extract_lets r' s1 s2 s3
    have hs3 : Canonical s3 := .putRecord (.bump h)
    exact .ite (.sweepLaunch hs3) hs3

theorem Canonical.copyComplete {id} (h : Canonical s) : Canonical (copyComplete id s) := by
  unfold Machine.copyComplete
  split
  · exact h
  · refine .ite (.push h) ?_
    extract_lets st s1 s2 s3 s4
    have hs1 : Canonical s1 := h
    have hs2 : Canonical s2 := .deliver hs1
    have hs3 : Canonical s3 := hs2
    have hs4 : Canonical s4 := by
      unfold s4
      split
      · extract_lets s5 s6
        have hs5 : Canonical s5 := .deliver (.deliver hs1)
        have hs6 : Canonical s6 := .lvFill hs5
        exact .ite hs6 hs6
      · exact .modBlock hs3
    exact .ite hs4 (.joinDec hs4)

theorem EndsCanonical.execCopyComplete {id} (h : Canonical s) : EndsCanonical (execCopyComplete id s) := .next (.tick (.copyComplete h))

theorem Canonical.copyCommandRead {id} (h : Canonical s) : Canonical (copyCommandRead id s) := by
  unfold Machine.copyCommandRead
  split
  · exact h
  · next c _ =>
    extract_lets
    refine .ite h (.ite (.push (.foldl h fun _ _ h => .homeAsk h)) ?_)
    split
    next p bs hb =>
    have hp : Canonical p.s := by
      have := Canonical.cmdBytes (p := { s := s, c := c, dens := [] }) (va := c.cmd.toNat) (ks := List.range 64) h
      rwa [hb] at this
    extract_lets p1 c1 illegal
    have hp1 : Canonical p1.s := .report hp
    have hillegal : ∀ {succ}, Canonical (illegal succ) := .push (.modCopy hp1)
    split
    · exact hillegal
    · exact .ite hillegal (.ite (.push h) (.copyQueue hp1))

theorem EndsCanonical.execCopyCommandRead {id} (h : Canonical s) : EndsCanonical (execCopyCommandRead id s) :=
  .next (.tick (.copyCommandRead h))

/-! Relay records and joins (Machine/Relay.lean). -/

theorem Canonical.addRecord {r} (h : Canonical s) : Canonical (s.addRecord r) := .bump (.objRef (.putRecord h))

theorem Canonical.relayChk {m id x} (h : Canonical s) : Canonical (relayChk m id x s).1 := by
  unfold Machine.relayChk
  split
  · exact h
  · split
    · next heq1 => exact .fst heq1 (.access h)
    · next heq1 => exact .fst heq1 (.access h)

theorem Canonical.relaySend {d m c id} (h : Canonical s) : Canonical (relaySend d m c id s) := by
  unfold Machine.relaySend
  extract_lets
  refine .ite (.wheelTake h (fun h => .takeWords h)) ?_
  split
  · extract_lets
    split
    · next s1 _ heq2 =>
      have hs1 : Canonical s1 := .fst heq2 (.access h)
      exact hs1
    · next s1 _ heq2 =>
      have hs1 : Canonical s1 := .fst heq2 (.access h)
      extract_lets n s2 s3 s4
      have hs2 : Canonical s2 := .ite (.reportDenied hs1) hs1
      have hs3 : Canonical s3 := .bump (.lvOpen hs2)
      have hs4 : Canonical s4 := .modThread hs3
      exact .beginRelease hs4
  · exact h

theorem EndsCanonical.execRelay {q d m} (h : Canonical s) : EndsCanonical (execRelay q d m s) :=
  .execIrrev h (fun h => .relayChk h) (fun h => .relaySend h)

theorem Canonical.relayDone {q v} (h : Canonical s) : Canonical (s.relayDone q v) := .lvFill (.deliver h)

theorem Canonical.relayPost {id} (h : Canonical s) : Canonical (relayPost id s) := by
  unfold Machine.relayPost
  split
  · exact h
  · refine .ite h (.ite (.push h) ?_)
    split
    · exact .push (.homeAsk h)
    · extract_lets
      refine .ite (.failLaunch (.relayDone (.postFault h))) ?_
      split
      · exact .relayDone h
      · exact .sweepLaunch (.relayDone (.modLaunch (.addRecord (.redraw h))))

theorem EndsCanonical.execRelayPost {id} (h : Canonical s) : EndsCanonical (execRelayPost id s) := .next (.tick (.relayPost h))

theorem Canonical.joinSend {a id id'} (h : Canonical s) : Canonical (joinSend a id id' s) := by
  unfold Machine.joinSend
  refine .ite h ?_
  split
  · extract_lets n h1 s1
    have hs1 : Canonical s1 := .modThread (.bump h)
    exact .beginRelease hs1
  · exact h

theorem EndsCanonical.execJoin {q a} (h : Canonical s) : EndsCanonical (execJoin q a s) :=
  .execIrrev h (fun h => .noCheck h) (fun h => .joinSend h)

theorem Canonical.joinDecrement {part handle} (h : Canonical s) : Canonical (joinDecrement part handle s) := by
  unfold Machine.joinDecrement
  split
  · exact h
  · exact .deliver (.joinDec h)

theorem EndsCanonical.execJoinDecrement {part handle} (h : Canonical s) : EndsCanonical (execJoinDecrement part handle s) :=
  .next (.tick (.joinDecrement h))

/-! The dispatchers (Machine/Dispatcher.lean). -/

theorem Canonical.modBh {b f} (h : Canonical s) : Canonical (s.modBh b f) := h

theorem Canonical.reserve {b} (h : Canonical s) : Canonical (s.reserve b) := by
  unfold State.reserve
  extract_lets
  exact .foldl h fun _ _ h => .ite h (by
      extract_lets
      split
      · exact h
      · exact (.redraw h))

theorem Canonical.freeBad {r} (h : Canonical s) : Canonical (s.freeBad r) := by
  unfold State.freeBad
  split
  · exact .freeRecord h
  · exact h

theorem Canonical.dropBad {r} (h : Canonical s) : Canonical (s.dropBad r) := .freeBad (.failLaunch (.postFault h))

theorem Canonical.spread {p cores n done} (h : Canonical s) : Canonical (s.spread p cores n done).2 := by
  induction n generalizing s done with
  | zero => exact h
  | succ n ih => exact ih (.redraw h)

theorem Canonical.placeOn {b p want} (h : Canonical s) : Canonical (s.placeOn b p want).2 := by
  unfold State.placeOn
  split
  · exact h
  · exact .spread (.redraw h)

theorem Canonical.admitRecord {r core pool} (h : Canonical s) : Canonical (s.admitRecord r core pool) := .acquire h

theorem Canonical.startCo {l} (h : Canonical s) : Canonical (s.startCo l) := by
  unfold State.startCo
  split
  · exact .ite h h
  · exact h

theorem Canonical.blockAdmission {b} (h : Canonical s) : Canonical (blockAdmission b s) := by
  unfold Machine.blockAdmission
  refine .ite h ?_
  split
  · exact .dropBad h
  · extract_lets s1
    have hs1 : Canonical s1 := .reserve h
    split
    · split
      · exact .dropBad hs1
      · extract_lets
        split
        · next heq3 =>
          extract_lets s3
          have hs3 : Canonical s3 := .foldl (.snd heq3 (.placeOn hs1)) fun _ _ h => by
              split
              · exact .admitRecord h
              · exact h
          exact .reserve (.startCo hs3)
    · exact hs1

theorem EndsCanonical.execBlockAdmission {b} (h : Canonical s) : EndsCanonical (execBlockAdmission b s) := .next (.tick (.blockAdmission h))
theorem Canonical.retireIfDone {blk} (h : Canonical s) : Canonical (s.retireIfDone blk) := .ite (.push (.modBlock h)) h

theorem Canonical.settleOn {k core} (h : Canonical s) : Canonical (s.settleOn k core) := by
  unfold State.settleOn
  extract_lets ps s1 s2 s3
  have hs3 : Canonical s3 := .barCheckAll (.acquire (.bump (.modBlock h)))
  exact .retireIfDone (.wakeMat (.ite (.push hs3) hs3))

theorem Canonical.blockRestore {b} (h : Canonical s) : Canonical (blockRestore b s) := by
  unfold Machine.blockRestore
  refine .ite h ?_
  extract_lets s1
  have hs1 : Canonical s1 := .reserve h
  split
  · refine .ite (.killForGood hs1) ?_
    split
    · next heq1 => exact .reserve (.settleOn (.modBh (.snd heq1 (.placeOn hs1))))
  · exact hs1

theorem EndsCanonical.execBlockRestore {b} (h : Canonical s) : EndsCanonical (execBlockRestore b s) := .next (.tick (.blockRestore h))

theorem Canonical.containedRelaunch {blk} (h : Canonical s) : Canonical (containedRelaunch blk s) := by
  unfold Machine.containedRelaunch
  split
  · exact h
  · refine .ite h ?_
    extract_lets b1 p s1
    have hs1 : Canonical s1 := .reserve h
    refine .ite (.push hs1) (.ite (.killForGood hs1) ?_)
    split
    · next heq1 => exact .settleOn (.bump (.modBlock (.snd heq1 (.placeOn hs1))))

theorem EndsCanonical.execContainedRelaunch {blk} (h : Canonical s) : EndsCanonical (execContainedRelaunch blk s) :=
  .next (.tick (.containedRelaunch h))

/-! The groom engine (Machine/Groom.lean). -/

theorem Canonical.catchUp {blk} (h : Canonical s) : Canonical (s.catchUp blk) := h

theorem Canonical.blockRelease {b after} (h : Canonical s) : Canonical (s.blockRelease b after) := .push (.sendUpd (.flush h))

theorem Canonical.blockSave {blk} (h : Canonical s) : Canonical (blockSave blk s) := by
  unfold Machine.blockSave
  split
  · exact h
  · refine .ite (.ite (.dropBlock h) h) (.ite (.ite (.dropBlock h) (.push h)) ?_)
    exact .ite (.push (.foldl (.modBlock h) fun _ _ h => .push h)) (.ite (.push (.catchUp h)) h)

theorem EndsCanonical.execBlockSave {blk} (h : Canonical s) : EndsCanonical (execBlockSave blk s) := .next (.tick (.blockSave h))

theorem Canonical.blockSaveComplete {blk} (h : Canonical s) : Canonical (blockSaveComplete blk s) := by
  unfold Machine.blockSaveComplete
  split
  · exact h
  · refine .ite h (.ite (.dropBlock h) (.ite (.push h) (.ite (.blockRelease (.modBlock h)) (.ite (.killForGood h) ?_))))
    extract_lets s1 ts rs trap stop after s2 s3
    have hs3 : Canonical s3 := .endWaits h
    clear_value s3 trap
    split
    · exact .postFault hs3
    · exact .ite hs3 (.modBh hs3)

theorem EndsCanonical.execBlockSaveComplete {blk} (h : Canonical s) : EndsCanonical (execBlockSaveComplete blk s) :=
  .next (.tick (.blockSaveComplete h))

theorem Canonical.preemptTimeout {blk} (h : Canonical s) : Canonical (preemptTimeout blk s) := by
  unfold Machine.preemptTimeout
  split
  · exact h
  · exact .ite (.ite (.push (.modBlock h)) (.push h)) h

theorem EndsCanonical.execPreemptTimeout {blk} (h : Canonical s) : EndsCanonical (execPreemptTimeout blk s) :=
  .next (.tick (.preemptTimeout h))

theorem Canonical.finalCommit {b} (h : Canonical s) : Canonical (s.finalCommit b) := .push (.modBlock (.snap h))

theorem Canonical.blockRetire {blk} (h : Canonical s) : Canonical (blockRetire blk s) := by
  unfold Machine.blockRetire
  split
  · exact h
  · refine .ite (.killForGood h) ?_
    refine .ite (.ite (.push h) (.ite (.mismatched h) (.ite (.lose h) (.blockRelease (.modBlock (.ite (.finalCommit h) h)))))) ?_
    exact .ite (.push h) (.ite (.dropBlock (.modLaunch (.ite h (.joinDec h)))) h)

theorem EndsCanonical.execBlockRetire {blk} (h : Canonical s) : EndsCanonical (execBlockRetire blk s) := .next (.tick (.blockRetire h))

theorem Canonical.matchStore {blk tid cells} (h : Canonical s) : Canonical (s.matchStore blk tid cells) :=
  .modBlock (.foldl h fun _ _ h => .putCell (.putCell h))

theorem Canonical.matchStop {id} (h : Canonical s) : Canonical (s.matchStop id) := by
  unfold State.matchStop
  split
  · split
    · exact .park h
    · exact .modThread h
    · exact h
  · exact h

theorem Canonical.matchSig {blk tid p} (h : Canonical s) : Canonical (s.matchSig blk tid p) := by
  unfold State.matchSig
  extract_lets
  split
  · exact .matchStore h
  · exact .matchStop (.matchStop h)
  · exact .stopFor (.stopFor h)

theorem Canonical.compareOne {blk team tid} (h : Canonical s) : Canonical (s.compareOne blk team tid) := by
  unfold State.compareOne
  split
  · exact h
  · split
    · exact .ite (.matchSig (.modTeam h)) (.mismatched h)
    · exact .ite (.mismatched h) h
    · exact .ite (.mismatched h) h
    · exact h

theorem Canonical.signatureCompare {blk team} (h : Canonical s) : Canonical (signatureCompare blk team s) := by
  unfold Machine.signatureCompare
  split
  · exact h
  · refine .ite (.ite (.push h) (.ite (.kill h) (.ite (.killForGood h) (.retireIfDone (.modBlock (.wakeMat (.rollback h))))))) ?_
    exact .foldl h fun _ _ h => .compareOne h

theorem EndsCanonical.execSignatureCompare {blk team} (h : Canonical s) : EndsCanonical (execSignatureCompare blk team s) :=
  .next (.tick (.signatureCompare h))

/-! Launches (Machine/Launch.lean). -/

theorem Canonical.sqError {f q} (h : Canonical s) : Canonical (s.sqError f q) := .setFr h
theorem Canonical.sqAdvance {f q} (h : Canonical s) : Canonical (s.sqAdvance f q) := .setFr h

theorem Canonical.complete {f q part dev a r} (h : Canonical s) : Canonical (s.complete f q part dev a r) := by
  unfold State.complete
  extract_lets s1
  have hs1 : Canonical s1 := by
    unfold s1
    split
    · next hw =>
      split at hw
      · split at hw
        · exact .devWrite h hw
        · cases hw
      · exact .devWrite h hw
    · exact .postError h
  exact .raiseVec hs1

theorem Canonical.takePacket {f q w} (h : Canonical s) : Canonical (s.takePacket f q w) := by
  unfold State.takePacket
  extract_lets s1
  have hs1 : Canonical s1 := by
    unfold s1
    split <;> exact h
  split
  · exact .foldl (.bump hs1) fun _ _ h => .push h
  · exact .complete hs1

theorem Canonical.launchPacket {f q} (h : Canonical s) : Canonical (launchPacket f q s) := by
  unfold Machine.launchPacket
  refine .ite h (.ite (.push h) (.ite (.push h) ?_))
  split
  · split
    · exact .postPageFault (.sqError h)
    · exact .sqError h
  · extract_lets s1
    have hs1 : Canonical s1 := .sqAdvance (.takePacket h)
    exact .ite (.push hs1) hs1

theorem EndsCanonical.execLaunchPacket {vf q} (h : Canonical s) : EndsCanonical (execLaunchPacket vf q s) := .next (.tick (.launchPacket h))

theorem Canonical.generate {rs} (h : Canonical s) : Canonical (s.generate rs).1 := by
  induction rs generalizing s with
  | nil => exact h
  | cons r rs ih =>
    unfold State.generate
    dsimp only
    split
    · exact h
    · exact ih (.addRecord (.redraw h))

theorem Canonical.generateFor {x die rs} (h : Canonical s) : Canonical (s.generateFor x die rs) := by
  unfold State.generateFor
  extract_lets s1
  have hs1 : Canonical s1 := .modLaunch h
  refine .ite (.launchLess (.ite (.failLaunch hs1) hs1)) ?_
  split
  · next s2 _ heq =>
    have hs2 : Canonical s2 := .fst heq (.generate hs1)
    exact .ite hs2 (.modLaunch hs2)

theorem Canonical.launchExpansion {l die} (h : Canonical s) : Canonical (launchExpansion l die s) := by
  unfold Machine.launchExpansion
  split
  · exact h
  · exact .ite h (.ite (.push h) (.generateFor (.modLaunch h)))

theorem EndsCanonical.execLaunchExpansion {launch die} (h : Canonical s) : EndsCanonical (execLaunchExpansion launch die s) :=
  .next (.tick (.launchExpansion h))

theorem Canonical.recordGenerationResume {l die} (h : Canonical s) : Canonical (recordGenerationResume l die s) := by
  unfold Machine.recordGenerationResume
  split
  · exact h
  · split
    · exact h
    · exact .generateFor h

theorem EndsCanonical.execRecordGenerationResume {launch die} (h : Canonical s) : EndsCanonical (execRecordGenerationResume launch die s) :=
  .next (.tick (.recordGenerationResume h))

theorem Canonical.launchComplete {l} (h : Canonical s) : Canonical (launchComplete l s) := by
  unfold Machine.launchComplete
  split
  · exact h
  · exact .ite h (.ite (.push h) (.complete h))

theorem EndsCanonical.execLaunchComplete {launch} (h : Canonical s) : EndsCanonical (execLaunchComplete launch s) :=
  .next (.tick (.launchComplete h))

/-! Doorbells and driver commands (Machine/Driver.lean). -/

theorem Canonical.afterHost {e f} (h : Canonical s) (hf : ∀ {s}, Canonical s → Canonical (f s)) : Canonical (afterHost e f s) :=
  .ite (.push h) (hf h)

theorem Canonical.sqtailWrite {f q v} (h : Canonical s) : Canonical (sqtailWrite f q v s) := .ite h (.ite (.sqError h) (.push (.setFr h)))

theorem EndsCanonical.execSqtailWrite {vf q v} (h : Canonical s) : EndsCanonical (execSqtailWrite vf q v s) :=
  .next (.tick (.afterHost h (fun h => .sqtailWrite h)))

theorem Canonical.sqctlWrite {f q v} (h : Canonical s) : Canonical (sqctlWrite f q v s) :=
  .ite (.setFr h) (.ite (.setFr (.setFr (.setFr h))) (.setFr h))

theorem EndsCanonical.execSqctlWrite {vf q v} (h : Canonical s) : EndsCanonical (execSqctlWrite vf q v s) := .next (.tick (.sqctlWrite h))

theorem Canonical.command {fn code arg act} (h : Canonical s) (hact : ∀ {x s}, Canonical s → Canonical (act x s).1) :
    Canonical (s.command fn code arg act) := by
  unfold State.command
  refine .ite h ?_
  extract_lets l s1 r
  have hs1 : Canonical s1 := .setFr (.setFr (.setFr h))
  have hr : Canonical r.1 := by
    unfold r
    split
    · exact hact hs1
    · exact hs1
  exact .push hr

theorem Canonical.commandTakesEffect {fn} (h : Canonical s) : Canonical (commandTakesEffect fn s) := by
  unfold Machine.commandTakesEffect
  split
  · exact h
  · exact .ite (.push h) (.setFr h)

theorem EndsCanonical.execCommandTakesEffect {fn} (h : Canonical s) : EndsCanonical (execCommandTakesEffect fn s) :=
  .next (.tick (.commandTakesEffect h))

theorem Canonical.preemptBlock {x b} (h : Canonical s) : Canonical (s.preemptBlock x b) := by
  unfold State.preemptBlock
  split
  · exact .push (.push (.modBlock h))
  · extract_lets s1
    have hs1 : Canonical s1 := .modBlock h
    exact hs1
  · exact h

theorem Canonical.preemptLaunch {x} (h : Canonical s) : Canonical (s.preemptLaunch x) := .foldl (.modLaunch h) fun _ _ h => .preemptBlock h

theorem EndsCanonical.execPreempt {fn arg} (h : Canonical s) : EndsCanonical (execPreempt fn arg s) := by
  unfold Machine.execPreempt
  exact .next (.tick (.command h (fun h => by
    split
    · exact .preemptLaunch h
    · exact h)))

theorem Canonical.toRestore {b} (h : Canonical s) : Canonical (s.toRestore b) := .modBh (.modBlock h)
theorem Canonical.resumeLaunch {x} (h : Canonical s) : Canonical (s.resumeLaunch x) := .foldl (.modLaunch h) fun _ _ h => .toRestore h

theorem EndsCanonical.execResume {fn arg} (h : Canonical s) : EndsCanonical (execResume fn arg s) := by
  unfold Machine.execResume
  exact .next (.tick (.command h (fun h => by
    split
    · exact .resumeLaunch h
    · exact h)))

theorem Canonical.cancelLaunch {x} (h : Canonical s) : Canonical (s.cancelLaunch x) :=
  .foldl (.sweepLaunch (.modLaunch h)) fun _ _ h => .cancelBlock h

theorem EndsCanonical.execCancel {fn arg} (h : Canonical s) : EndsCanonical (execCancel fn arg s) := by
  unfold Machine.execCancel
  exact .next (.tick (.command h (fun h => by
    split
    · exact .cancelLaunch h
    · exact h)))

theorem Canonical.unpark {b f} (h : Canonical s) : Canonical (s.unpark b f) := by
  unfold State.unpark
  extract_lets s1
  have hs1 : Canonical s1 := h
  exact .ite (.modBlock hs1) (.toRestore hs1)

theorem Canonical.trapReply {fn arg act} (h : Canonical s) (hact : ∀ {x s}, Canonical s → Canonical (act x s)) :
    Canonical (trapReply fn arg act s) := by
  unfold Machine.trapReply
  exact .command h (fun h => by
    split
    · exact hact h
    · exact h)

theorem EndsCanonical.execTrapreplyRetry {fn arg} (h : Canonical s) : EndsCanonical (execTrapreplyRetry fn arg s) :=
  .next (.tick (.afterHost h (fun h => .trapReply h (fun h => .unpark h))))

theorem Canonical.skipBlock {b} (h : Canonical s) : Canonical (skipBlock b s) := .unpark (.modBlock h)

theorem EndsCanonical.execTrapreplySkip {fn arg} (h : Canonical s) : EndsCanonical (execTrapreplySkip fn arg s) :=
  .next (.tick (.trapReply h (fun h => .skipBlock h)))

theorem EndsCanonical.execTrapreplyKill {fn arg} (h : Canonical s) : EndsCanonical (execTrapreplyKill fn arg s) :=
  .next (.tick (.trapReply h (fun h => .kill h)))

theorem EndsCanonical.execCodeinval {fn} (h : Canonical s) : EndsCanonical (execCodeinval fn s) := .next (.tick (.command h (fun h => h)))

theorem Canonical.setObjState {a st} (h : Canonical s) : Canonical (s.setObjState a st) :=
  ⟨Memory.wf_wr _ _ h.mem, h.host⟩

theorem EndsCanonical.execObjlive {fn arg} (h : Canonical s) : EndsCanonical (execObjlive fn arg s) := by
  unfold Machine.execObjlive
  exact .next (.tick (.command h (fun h => by
    split
    · split
      · exact .setObjState h
      · exact h
    · exact h)))

theorem EndsCanonical.execObjunload {fn arg} (h : Canonical s) : EndsCanonical (execObjunload fn arg s) := by
  unfold Machine.execObjunload
  exact .next (.tick (.command h (fun h => by
    split
    · exact .drainCheck (.setObjState h)
    · exact h)))

theorem EndsCanonical.execObjfree {fn arg} (h : Canonical s) : EndsCanonical (execObjfree fn arg s) := by
  unfold Machine.execObjfree
  exact .next (.tick (.command h (fun h => by
    split
    · exact ⟨Memory.wf_wr _ _ (Canonical.setObjState h).mem, h.host⟩
    · exact h)))

theorem EndsCanonical.writeCmd {fn v} (h : Canonical s) : EndsCanonical (s.writeCmd fn v) := by
  unfold State.writeCmd
  extract_lets a0 a1 bad
  have hbad : EndsCanonical bad := .next (.tick (.command h fun h => h))
  refine .ite (.ite (.execTrapreplyRetry h) (.ite (.execTrapreplySkip h) (.ite (.execTrapreplyKill h) hbad))) ?_
  refine .ite hbad ?_
  split
  · exact .execPreempt h
  · exact .execResume h
  · exact .execCancel h
  · exact .ite (.execCodeinval h) hbad
  · exact .execObjlive h
  · exact .execObjunload h
  · exact .execObjfree h
  · exact hbad

/-! System instructions (Machine/System.lean). -/

theorem EndsCanonical.trapWord {i c code} (h : Canonical s) : EndsCanonical (trapWord i c code s) := .execEach h (fun h => .raise h)

theorem Canonical.hintOne {x id} (h : Canonical s) : Canonical (hintOne x id s) := by
  unfold Machine.hintOne
  split
  · exact h
  · exact .ite (.push (.modThread h)) h

theorem EndsCanonical.execPhint {q x} (h : Canonical s) : EndsCanonical (execPhint q x s) := .execEach h (fun h => .hintOne h)

theorem EndsCanonical.execCommit {q x} (h : Canonical s) : EndsCanonical (execCommit q x s) := by
  unfold Machine.execCommit
  exact .execEach h (fun h => .ite (by
    extract_lets s1
    have hs1 : Canonical s1 := .push (.modThread h)
    exact .ite (.push hs1) hs1) (.hintOne h))

theorem EndsCanonical.execSleep {q n} (h : Canonical s) : EndsCanonical (execSleep q n s) :=
  .execEach h (fun h => .ite h (.push (.modThread h)))

theorem Canonical.sleepExpiry {id} (h : Canonical s) : Canonical (sleepExpiry id s) := by
  unfold Machine.sleepExpiry
  split
  · exact h
  · split
    · exact .ite (.modThread h) (.push h)
    · exact h

theorem EndsCanonical.execSleepExpiry {th} (h : Canonical s) : EndsCanonical (execSleepExpiry th s) := .next (.tick (.sleepExpiry h))

theorem EndsCanonical.execIllegalMajor {c id} (h : Canonical s) : EndsCanonical (execIllegalMajor c id s) := by
  unfold Machine.execIllegalMajor
  split
  · exact .next (.tick h)
  · exact .next (.faultWord h)

/-! Device steps of the memory system (Machine/Memsys.lean). -/

theorem Canonical.fillL1 {core pa key tag} (h : Canonical s) : Canonical (s.fillL1 core pa key tag) := .foldl h fun _ _ h => .ite h h

theorem Canonical.guestFor {core pa key tag} (h : Canonical s) : Canonical (s.guestFor core pa key tag) := .ite h (.addGuest h)

theorem Canonical.bindLoad {l} (h : Canonical s) : Canonical (s.bindLoad l) := by
  unfold State.bindLoad
  extract_lets s1 v bad s2 s3 s4
  have hs2 : Canonical s2 := .detect h
  have hs3 : Canonical s3 := by
    unfold s3
    split
    · exact .acquire hs2
    · exact hs2
  have hs4 : Canonical s4 := .ite (.forget hs3) (.foldl hs3 fun _ _ h => by
      extract_lets s6
      have hs6 : Canonical s6 := .guestFor h
      exact .ite (.fillL1 hs6) hs6)
  exact .sendRet hs4

theorem Canonical.serve1 {id again} (h : Canonical s) : Canonical (s.serve1 id again) := by
  unfold State.serve1
  split
  · exact h
  · refine .ite (.push (.foldl h fun _ _ h => .homeAsk h)) (.ite (.push (.foldl h fun _ _ h => .l2Ask h)) ?_)
    exact .ite (.push ((.bump h))) (.bindLoad h)

theorem EndsCanonical.execL2ReadRequest {id} (h : Canonical s) : EndsCanonical (execL2ReadRequest id s) := .next (.tick (.serve1 h))
theorem EndsCanonical.execViewLineCompose {id} (h : Canonical s) : EndsCanonical (execViewLineCompose id s) := .next (.tick (.serve1 h))

theorem Canonical.returnOne {id} (h : Canonical s) : Canonical (returnOne s id) := by
  unfold Machine.returnOne
  split
  · exact h
  · extract_lets regs s1
    have hs1 : Canonical s1 := h
    split
    · next s2 heq1 =>
      have hs2 : Canonical s2 := .snd heq1 (.injected hs1)
      extract_lets s3 s4
      have hs3 : Canonical s3 := .deliver hs2
      have hs4 : Canonical s4 := .modBlock hs3
      exact .ite (.consumed hs4) hs4

theorem Canonical.loadReturn {id} (h : Canonical s) : Canonical (loadReturn id s) := by
  unfold Machine.loadReturn
  split
  · exact h
  · exact .ite (.push h) (.foldl h fun _ _ h => .returnOne h)

theorem EndsCanonical.execLoadReturn {id} (h : Canonical s) : EndsCanonical (execLoadReturn id s) := .next (.tick (.loadReturn h))

theorem Canonical.loadValueEntry {id} (h : Canonical s) : Canonical (loadValueEntry id s) := by
  unfold Machine.loadValueEntry
  split
  · exact h
  · exact .lvFill h

theorem EndsCanonical.execLoadValueEntry {id} (h : Canonical s) : EndsCanonical (execLoadValueEntry id s) :=
  .next (.tick (.loadValueEntry h))

theorem Canonical.storeAccept {id} (h : Canonical s) : Canonical (storeAccept id s) := by
  unfold Machine.storeAccept
  split
  · exact h
  · exact .deliver h

theorem EndsCanonical.execStoreAccept {id} (h : Canonical s) : EndsCanonical (execStoreAccept id s) := .next (.tick (.storeAccept h))

theorem Canonical.showCells {r} (h : Canonical s) : Canonical (s.showCells r) := by
  unfold State.showCells
  extract_lets s1
  have hs1 : Canonical s1 := .foldl h fun _ _ h => by
      split
      · exact .putScr h
      · exact h
  exact .homeWrite hs1

theorem Canonical.released {r} (h : Canonical s) : Canonical (s.released r) := by
  unfold State.released
  extract_lets s1 s2
  have hs1 : Canonical s1 := by
    unfold s1
    split
    · exact .acquire h
    · exact h
  have hs2 : Canonical s2 := by
    unfold s2
    split
    · exact .putSlot hs1
    · exact hs1
  split
  · exact hs2
  · split
    · exact .ite (.barCheck (.modThread hs2)) hs2
    · exact hs2

theorem Canonical.releaseComplete {id} (h : Canonical s) : Canonical (releaseComplete id s) := by
  unfold Machine.releaseComplete
  split
  · exact h
  · extract_lets busy s1 s2
    have hs1 : Canonical s1 := .showCells h
    have hs2 : Canonical s2 := by
      unfold s2
      split
      · exact .push hs1
      · exact hs1
    exact .ite (.push h) (.ite (.push (.foldl h fun _ _ h => .homeAsk h)) (.released hs2))

theorem EndsCanonical.execReleaseComplete {id} (h : Canonical s) : EndsCanonical (execReleaseComplete id s) :=
  .next (.tick (.releaseComplete h))

theorem Canonical.writeBack {id} (h : Canonical s) : Canonical (writeBack id s) := by
  unfold Machine.writeBack
  split
  · exact h
  · extract_lets
    refine .ite (.push h) (.ite (.push (.foldl h fun _ _ h => .push h)) (.ite (.push h) ?_))
    exact .ite (.push (.foldl h fun _ _ h => .ite (.push h) h)) (.ite (.push h) (.mergeHome h))

theorem EndsCanonical.execWriteBack {id} (h : Canonical s) : EndsCanonical (execWriteBack id s) := .next (.tick (.writeBack h))
theorem Canonical.ackNt {w} (h : Canonical s) : Canonical (s.ackNt w) := .ite (.push h) h

theorem Canonical.remoteAccess {id} (h : Canonical s) : Canonical (remoteAccess id s) := by
  unfold Machine.remoteAccess
  split
  · exact h
  · extract_lets s1
    have hs1 : Canonical s1 := h
    split
    · split
      · exact .bindLoad hs1
      · exact hs1
    · split
      · exact hs1
      · exact .ackNt (.expose hs1)

theorem EndsCanonical.execRemoteAccess {id} (h : Canonical s) : EndsCanonical (execRemoteAccess id s) := .next (.tick (.remoteAccess h))
theorem Canonical.drained {th} (h : Canonical s) : Canonical (s.drained th) := .ite h (.modThread h)

theorem Canonical.ntStoreAck {id} (h : Canonical s) : Canonical (ntStoreAck id s) := by
  unfold Machine.ntStoreAck
  split
  · exact h
  · extract_lets s1
    have hs1 : Canonical s1 := h
    split
    · exact hs1
    · exact .drained hs1

theorem EndsCanonical.execNtStoreAck {id} (h : Canonical s) : EndsCanonical (execNtStoreAck id s) := .next (.tick (.ntStoreAck h))

theorem Canonical.invalidation {id agent} (h : Canonical s) : Canonical (invalidation id agent s) := by
  unfold Machine.invalidation
  split
  · exact h
  · exact .push h

theorem EndsCanonical.execInvalidation {id agent} (h : Canonical s) : EndsCanonical (execInvalidation id agent s) :=
  .next (.tick (.invalidation h))

theorem Canonical.dirAfter {core line} (h : Canonical s) : Canonical (s.dirAfter core line) := by
  unfold State.dirAfter
  extract_lets
  split
  · exact .setDir h
  · split
    · exact .setDir h
    · exact h

theorem Canonical.invalidationAck {id agent} (h : Canonical s) : Canonical (invalidationAck id agent s) := by
  unfold Machine.invalidationAck
  extract_lets s1
  have hs1 : Canonical s1 := .tryExpose h
  split
  · exact hs1
  · exact .ite hs1 (.ackNt (.foldl hs1 fun _ _ h => .dirAfter h))

theorem EndsCanonical.execInvalidationAck {id agent} (h : Canonical s) : EndsCanonical (execInvalidationAck id agent s) :=
  .next (.tick (.invalidationAck h))

theorem Canonical.l1Eviction {core line} (h : Canonical s) : Canonical (l1Eviction core line s) := by
  unfold Machine.l1Eviction
  extract_lets s1 s2
  have hs2 : Canonical s2 := .flush h
  exact .ite (.push hs2) hs2

theorem EndsCanonical.execL1Eviction {core line} (h : Canonical s) : EndsCanonical (execL1Eviction core line s) :=
  .next (.tick (.l1Eviction h))

theorem Canonical.evictionNotice {agent line} (h : Canonical s) : Canonical (evictionNotice agent line s) := .setDir h

theorem EndsCanonical.execEvictionNotice {agent line} (h : Canonical s) : EndsCanonical (execEvictionNotice agent line s) :=
  .next (.tick (.evictionNotice h))

theorem Canonical.directoryDrop {line} (h : Canonical s) : Canonical (directoryDrop line s) := by
  unfold Machine.directoryDrop
  split
  · exact h
  · extract_lets s1
    have hs1 : Canonical s1 := .setDir h
    exact .ite hs1 hs1

theorem EndsCanonical.execDirectoryDrop {line} (h : Canonical s) : EndsCanonical (execDirectoryDrop line s) :=
  .next (.tick (.directoryDrop h))

theorem Canonical.discovery {line} (h : Canonical s) : Canonical (discovery line s) := by
  unfold Machine.discovery
  split <;> exact .setDir h

theorem EndsCanonical.execDiscovery {line} (h : Canonical s) : EndsCanonical (execDiscovery line s) := .next (.tick (.discovery h))

theorem Canonical.viewStoreCheck {id} (h : Canonical s) : Canonical (viewStoreCheck id s) := by
  unfold Machine.viewStoreCheck
  split
  · exact h
  · extract_lets put r before p
    have hput : ∀ {s a bs pages}, Canonical s → Canonical (put s a bs pages) := fun h => h
    have hp : Canonical p.1 := .foldl_fst (.viewThrough h) fun _ _ h => by
        split
        · exact h
        · exact .reportDenied h
    refine .ite (.push h) (.ite (hput h) ?_)
    refine .ite ?_ ?_
    · exact .push (by
      split
      · exact .idxAsk h
      · exact h)
    · split <;> exact hput hp

theorem EndsCanonical.execViewStoreCheck {id} (h : Canonical s) : EndsCanonical (execViewStoreCheck id s) :=
  .next (.tick (.viewStoreCheck h))

theorem Canonical.scatter {v} (h : Canonical s) : Canonical (s.scatter v) := .foldl h fun _ _ h => .homeWrite h

theorem Canonical.viewStoreScatter {id} (h : Canonical s) : Canonical (viewStoreScatter id s) := by
  unfold Machine.viewStoreScatter
  split
  · exact h
  · exact .ite (.push h) (.ite (.push (.foldl h fun _ _ h => .homeAsk h)) (.push (.scatter h)))

theorem EndsCanonical.execViewStoreScatter {id} (h : Canonical s) : EndsCanonical (execViewStoreScatter id s) :=
  .next (.tick (.viewStoreScatter h))

theorem Canonical.viewStoreAck {id} (h : Canonical s) : Canonical (viewStoreAck id s) := by
  unfold Machine.viewStoreAck
  split
  · exact h
  · exact .ite (.push h) (.drained (.modThread h))

theorem EndsCanonical.execViewStoreAck {id} (h : Canonical s) : EndsCanonical (execViewStoreAck id s) := .next (.tick (.viewStoreAck h))

theorem Canonical.storeFault {th cause addr pc} (h : Canonical s) : Canonical (storeFault th cause addr pc s) := by
  unfold Machine.storeFault
  split
  · extract_lets
    split
    · exact .modLaunch (.postFault h)
    · exact .ite (.push h) (.park h)
    · exact .push h
  · exact h

theorem EndsCanonical.execStoreFault {th cause addr pc} (h : Canonical s) : EndsCanonical (execStoreFault th cause addr pc s) :=
  .next (.tick (.storeFault h))

theorem Canonical.hostAccess {write pa sz data} (h : Canonical s) : Canonical (hostAccess write pa sz data s) := by
  unfold Machine.hostAccess
  extract_lets a n e rest
  have hrest : Canonical rest := h
  exact .ite hrest (.ite (.push (.homeAsk h)) (.ite (.homeWrite hrest) hrest))

theorem EndsCanonical.execHostAccess {write pa sz data} (h : Canonical s) : EndsCanonical (execHostAccess write pa sz data s) :=
  .next (.tick (.hostAccess h))

/-! The registers of a partition (Machine/Translate.lean). -/

theorem Canonical.zeroRange {pa n} (h : Canonical s) : Canonical (s.zeroRange pa n) :=
  ⟨Memory.wf_filter _ h.mem, h.host⟩

theorem Canonical.ractlWrite {p d v} (h : Canonical s) : Canonical (ractlWrite p d v s) := by
  unfold Machine.ractlWrite
  extract_lets r old slots area put
  have hput : ∀ {s a}, Canonical s → Canonical (put s a) := fun h => h
  refine .ite h (.ite (.push (hput (.setPr h))) (.ite ?_ (hput (.setPr h))))
  split
  · exact hput (.setPr h)
  · exact h

theorem EndsCanonical.execRactlWrite {part die v} (h : Canonical s) : EndsCanonical (execRactlWrite part die v s) :=
  .next (.tick (.ractlWrite h))

theorem Canonical.relayAreaFillComplete {p d} (h : Canonical s) : Canonical (relayAreaFillComplete p d s) := by
  unfold Machine.relayAreaFillComplete
  split
  · exact h
  · extract_lets va s1
    have hs1 : Canonical s1 := .foldl h fun _ _ h => by
        split
        · exact .ite (.zeroRange h) h
        · exact h
    exact .foldl (.setPr (.areaMod hs1)) fun _ _ h => .push h

theorem EndsCanonical.execRelayAreaFillComplete {part die} (h : Canonical s) : EndsCanonical (execRelayAreaFillComplete part die s) :=
  .next (.tick (.relayAreaFillComplete h))

theorem Canonical.invBegin {p o e} (h : Canonical s) : Canonical (s.invBegin p o e) := by
  unfold State.invBegin
  exact .push (by
    extract_lets s1
    have hs1 : Canonical s1 := .setPr h
    exact hs1)

theorem Canonical.invEnd {p o} (h : Canonical s) : Canonical (s.invEnd p o) := by
  unfold State.invEnd
  extract_lets s1
  have hs1 : Canonical s1 := h
  exact .ite hs1 (.setPr hs1)

theorem Canonical.vtbaseWrite {p v} (h : Canonical s) : Canonical (vtbaseWrite p v s) := .ite h (.invBegin (.setPr h))

theorem EndsCanonical.execVtbaseWrite {part v} (h : Canonical s) : EndsCanonical (execVtbaseWrite part v s) :=
  .next (.tick (.vtbaseWrite h))

theorem Canonical.viewTableFillComplete {p} (h : Canonical s) : Canonical (viewTableFillComplete p s) :=
  .ite h (.invEnd (.ite (.zeroRange h) h))

theorem EndsCanonical.execViewTableFillComplete {part} (h : Canonical s) : EndsCanonical (execViewTableFillComplete part s) :=
  .next (.tick (.viewTableFillComplete h))

theorem Canonical.prtbaseWrite {p ctl v} (h : Canonical s) : Canonical (prtbaseWrite p ctl v s) :=
  .ite h (.invBegin (.ite (.setPr h) (.setPr h)))

theorem EndsCanonical.execPrtbaseWrite {part ctl v} (h : Canonical s) : EndsCanonical (execPrtbaseWrite part ctl v s) :=
  .next (.tick (.prtbaseWrite h))

theorem Canonical.prinv {p v} (h : Canonical s) : Canonical (prinv p v s) := .ite h (.invBegin (.setPr h))

theorem EndsCanonical.execPrinv {part v} (h : Canonical s) : EndsCanonical (execPrinv part v s) :=
  .next (.tick (.afterHost h (fun h => .prinv h)))

theorem Canonical.tlbinv {p v} (h : Canonical s) : Canonical (tlbinv p v s) := .ite h (.ite (.setPr (.setPr h)) (.invBegin (.setPr h)))

theorem EndsCanonical.execTlbinv {part v} (h : Canonical s) : EndsCanonical (execTlbinv part v s) :=
  .next (.tick (.afterHost h (fun h => .tlbinv h)))

theorem Canonical.dropLines {p} (h : Canonical s) : Canonical (s.dropLines p) := by
  unfold State.dropLines
  extract_lets cores s1
  have hs1 : Canonical s1 := .foldl h fun _ _ h => by
      exact .flush h
  exact .foldl hs1 fun _ _ h => .evictionNotice h

theorem Canonical.invDo {p x} (h : Canonical s) : Canonical (s.invDo p x) := by
  unfold State.invDo
  split
  · extract_lets s1
    have hs1 : Canonical s1 := h
    exact .ite (.dropLines hs1) hs1
  · exact h
  · exact h
  · exact h

theorem Canonical.invalidationComplete {p} (h : Canonical s) : Canonical (invalidationComplete p s) := by
  unfold Machine.invalidationComplete
  split
  · exact h
  · exact .invEnd (.invDo h)

theorem EndsCanonical.execInvalidationComplete {part} (h : Canonical s) : EndsCanonical (execInvalidationComplete part s) :=
  .next (.tick (.invalidationComplete h))

theorem Canonical.setRing {r x} (h : Canonical s) : Canonical (s.setRing r x) := by
  unfold State.setRing
  split
  · exact .setPr (.setPr (.setPr h))
  · exact .setPr (.setPr (.setPr h))
  · exact .setFr (.setFr (.setFr h))

theorem Canonical.retryHeld {r} (h : Canonical s) : Canonical (s.retryHeld r) := by
  unfold State.retryHeld
  split
  · exact .foldl h fun _ _ h => .push h
  · exact h

theorem Canonical.ringHeadWrite {r v} (h : Canonical s) : Canonical (ringHeadWrite r v s) := .ite h (.retryHeld (.setRing h))

theorem EndsCanonical.execRingHeadWrite {r v} (h : Canonical s) : EndsCanonical (execRingHeadWrite r v s) := by
  unfold Machine.execRingHeadWrite
  split
  · exact .next (.tick (.afterHost h (fun h => .ringHeadWrite h)))
  · exact .next (.tick (.ringHeadWrite h))

theorem Canonical.ringCtlWrite {r v} (h : Canonical s) : Canonical (ringCtlWrite r v s) := by
  unfold Machine.ringCtlWrite
  extract_lets x fields s1
  have hs1 : Canonical s1 := .setRing h
  exact .ite (.setRing h) (.ite (.retryHeld (.ite hs1 hs1)) (.setRing h))

theorem EndsCanonical.execRingCtlWrite {r v} (h : Canonical s) : EndsCanonical (execRingCtlWrite r v s) := .next (.tick (.ringCtlWrite h))

theorem Canonical.faultRecordPost {p} (h : Canonical s) : Canonical (faultRecordPost p s) := by
  unfold Machine.faultRecordPost
  split
  · exact h
  · split
    · next s1 heq1 =>
      have hs1 : Canonical s1 := .ringPut h heq1
      exact hs1
    · exact .ite (.push h) h

theorem EndsCanonical.execFaultRecordPost {part} (h : Canonical s) : EndsCanonical (execFaultRecordPost part s) :=
  .next (.tick (.faultRecordPost h))

theorem Canonical.pageWalk {w va write} (h : Canonical s) : Canonical (pageWalk w va write s) := by
  unfold Machine.pageWalk
  split
  · exact .fillTlb h
  · exact .postPageFault h

theorem EndsCanonical.execPageWalk {walker va write} (h : Canonical s) : EndsCanonical (execPageWalk walker va write s) :=
  .next (.tick (.pageWalk h))

/-! Bulkheads, partitions, frames and windows (Machine/Bulkheads.lean). -/

theorem Canonical.gateShut {b} (h : Canonical s) : Canonical (s.gateShut b) := by
  unfold State.gateShut
  extract_lets
  exact .foldl h fun _ _ h => by
      extract_lets s3
      have hs3 : Canonical s3 := .modCopy h
      exact .ite (.push hs3) hs3

theorem Canonical.bhReset {b cause} (h : Canonical s) : Canonical (s.bhReset b cause) :=
  .ite h (.push (.redraw (.foldl (.gateShut (.modBh h)) fun _ _ h => .kill h)))

theorem EndsCanonical.execBulkheadReset {b} (h : Canonical s) : EndsCanonical (execBulkheadReset b s) := .next (.tick (.bhReset h))
theorem EndsCanonical.execBulkheadHwFault {b} (h : Canonical s) : EndsCanonical (execBulkheadHwFault b s) := .next (.tick (.bhReset h))

theorem Canonical.moveGroup {t ks} (h : Canonical s) : Canonical (s.moveGroup t ks) := .redraw h

theorem Canonical.moveWork {b} (h : Canonical s) : Canonical (s.moveWork b) := by
  unfold State.moveWork
  extract_lets
  split
  · exact .foldl (.foldl h fun _ _ h => .killForGood h) fun _ _ h => .failLaunch h
  · exact .modBh (.modBh (.foldl h fun _ _ h => .moveGroup h))

theorem Canonical.bindFns {b} (h : Canonical s) : Canonical (s.bindFns b) := .ite h h

theorem Canonical.endPart {p} (h : Canonical s) : Canonical (s.endPart p) := .ite h h
theorem Canonical.logRepair {b was} (h : Canonical s) : Canonical (s.logRepair b was) := .ite (.postError h) h
theorem Canonical.unmapCores {b} (h : Canonical s) : Canonical (s.unmapCores b) := h

theorem Canonical.bulkheadResetDone {b ok} (h : Canonical s) : Canonical (bulkheadResetDone b ok s) := by
  unfold Machine.bulkheadResetDone
  extract_lets x n s1 s2 s3 s4
  have hs1 : Canonical s1 := .modBh (.redraw h)
  have hs2 : Canonical s2 := .ite (.unmapCores (.logRepair hs1)) hs1
  have hs3 : Canonical s3 := .ite (.postFault hs2) hs2
  have hs4 : Canonical s4 := .ite (.bindFns hs3) hs3
  exact .ite h (.ite hs4 (.ite (.endPart (.moveWork hs4)) hs4))

theorem EndsCanonical.execBulkheadResetDone {b ok} (h : Canonical s) : EndsCanonical (execBulkheadResetDone b ok s) :=
  .next (.tick (.bulkheadResetDone h))

theorem Canonical.partitionChange {b assigned p} (h : Canonical s) : Canonical (partitionChange b assigned p s) :=
  .ite h (.ite (.modBh h) (.bhReset (.endPart (.modBh h))))

theorem EndsCanonical.execPartitionChange {b assigned part} (h : Canonical s) : EndsCanonical (execPartitionChange b assigned part s) :=
  .next (.tick (.partitionChange h))

theorem Canonical.frameownWrite {v} (h : Canonical s) : Canonical (frameownWrite v s) := .ite h (.push h)

theorem EndsCanonical.execFrameownWrite {v} (h : Canonical s) : EndsCanonical (execFrameownWrite v s) := .next (.tick (.frameownWrite h))
theorem Canonical.refuse {th pc addr} (h : Canonical s) : Canonical (s.refuse th pc addr) := .push h

theorem Canonical.refuseAt {f} (h : Canonical s) : Canonical (s.refuseAt f) := by
  unfold State.refuseAt
  extract_lets lost atoms rels nts qs clean s1 s2 s3 s4 s5
  have hs3 : Canonical s3 := .foldl (.foldl h fun _ _ h => .refuse (.modThread h)) fun _ _ h => by
      extract_lets s7
      have hs7 : Canonical s7 := .atomDone h
      exact .ite (.refuse hs7) hs7
  have hs5 : Canonical s5 := .foldl (.foldl hs3 fun _ _ h => .refuse h) fun _ _ h => by
      split
      · exact .drained (.refuse h)
      · exact h
  exact .foldl hs5 fun _ _ h => .qTrap h

theorem Canonical.frameownChangeComplete {frame} (h : Canonical s) : Canonical (frameownChangeComplete frame s) := by
  unfold Machine.frameownChangeComplete
  split
  · exact h
  · exact .zeroRange (.refuseAt h)

theorem EndsCanonical.execFrameownChangeComplete {frame} (h : Canonical s) : EndsCanonical (execFrameownChangeComplete frame s) :=
  .next (.tick (.frameownChangeComplete h))

theorem EndsCanonical.execWindowEntryStage {part w hi} (h : Canonical s) : EndsCanonical (execWindowEntryStage part w hi s) :=
  .next (.tick (.setPr h))

theorem Canonical.winDrop {e own} (h : Canonical s) : Canonical (s.winDrop e own) :=
  .foldl (.foldl h fun _ _ h => .flush h) fun _ _ h => .evictionNotice h

theorem Canonical.windowEntryInstall {p w lo} (h : Canonical s) : Canonical (windowEntryInstall p w lo s) := by
  unfold Machine.windowEntryInstall
  extract_lets old s'
  have hs' : Canonical s' := .ite (.winDrop h) h
  exact .ite (.push hs') (.setPr (.setPr hs'))

theorem EndsCanonical.execWindowEntryInstall {part w lo} (h : Canonical s) : EndsCanonical (execWindowEntryInstall part w lo s) :=
  .next (.tick (.windowEntryInstall h))

/-! Gang slices (Machine/Gangs.lean). -/

theorem EndsCanonical.execSliceEntryStage {e lo} (h : Canonical s) : EndsCanonical (execSliceEntryStage e lo s) := .next (.tick h)

theorem Canonical.sliceEntryInstall {e hi} (h : Canonical s) : Canonical (sliceEntryInstall e hi s) := .ite h (.push h)

theorem EndsCanonical.execSliceEntryInstall {e hi} (h : Canonical s) : EndsCanonical (execSliceEntryInstall e hi s) :=
  .next (.tick (.sliceEntryInstall h))

theorem Canonical.gangPreempt {p} (h : Canonical s) : Canonical (s.gangPreempt p) := .foldl h fun _ _ h => .preemptBlock h
theorem Canonical.readyEarly {e p} (h : Canonical s) : Canonical (s.readyEarly e p) := .ite h (.ite (.push h) h)

theorem Canonical.gangSliceStart {e} (h : Canonical s) : Canonical (gangSliceStart e s) := by
  unfold Machine.gangSliceStart
  split
  · exact h
  · exact .ite (.push h) (.push (.push (.foldl (.gangPreempt h) fun _ _ h => .ite h (.push h))))

theorem EndsCanonical.execGangSliceStart {e} (h : Canonical s) : EndsCanonical (execGangSliceStart e s) := .next (.tick (.gangSliceStart h))

theorem Canonical.gangReady {e p} (h : Canonical s) : Canonical (gangReady e p s) := by
  unfold Machine.gangReady
  split
  · refine .ite ?_ (.readyEarly h)
    refine .ite (.push h) (.ite (.push h) ?_)
    extract_lets sl1 s1
    have hs1 : Canonical s1 := h
    exact .ite (.gangPreempt hs1) hs1
  · exact .readyEarly h

theorem EndsCanonical.execGangReady {e pkg} (h : Canonical s) : EndsCanonical (execGangReady e pkg s) := .next (.tick (.gangReady h))

theorem Canonical.gangGraceExpiry {e} (h : Canonical s) : Canonical (gangGraceExpiry e s) := by
  unfold Machine.gangGraceExpiry
  split
  · exact .ite h (.ite (.push h) (.foldl (.gangPreempt h) fun _ _ h => .postFault h))
  · exact h

theorem EndsCanonical.execGangGraceExpiry {e} (h : Canonical s) : EndsCanonical (execGangGraceExpiry e s) :=
  .next (.tick (.gangGraceExpiry h))

theorem Canonical.gangSliceEnd {e} (h : Canonical s) : Canonical (gangSliceEnd e s) := by
  unfold Machine.gangSliceEnd
  split
  · exact h
  · refine .ite (.push h) ?_
    extract_lets s1
    have hs1 : Canonical s1 := h
    exact .ite hs1 (.gangPreempt hs1)

theorem EndsCanonical.execGangSliceEnd {e} (h : Canonical s) : EndsCanonical (execGangSliceEnd e s) := .next (.tick (.gangSliceEnd h))

/-! Errors, scrubbing, links, keys and absence (Machine/Fleet.lean). -/

theorem EndsCanonical.execReadAheadDiscard {pa} (h : Canonical s) : EndsCanonical (execReadAheadDiscard pa s) :=
  .next (.tick (.postError h))

theorem Canonical.keyLoad {slot} (h : Canonical s) : Canonical (keyLoad slot s) := by
  unfold Machine.keyLoad
  refine .ite h ?_
  split
  · exact h
  · exact .push h

theorem EndsCanonical.execKeyLoad {slot} (h : Canonical s) : EndsCanonical (execKeyLoad slot s) := .next (.tick (.keyLoad h))
theorem Canonical.keyClear {slot} (h : Canonical s) : Canonical (keyClear slot s) := .ite h (.push h)
theorem EndsCanonical.execKeyClear {slot} (h : Canonical s) : EndsCanonical (execKeyClear slot s) := .next (.tick (.keyClear h))

theorem Canonical.rekey {slot} (h : Canonical s) : Canonical (s.rekey slot) :=
  .foldl h fun _ _ h => ⟨Memory.wf_wrBytes _ _ h.mem, h.host⟩

theorem Canonical.keySlotBusyClear (h : Canonical s) : Canonical (keySlotBusyClear s) := by
  unfold Machine.keySlotBusyClear
  split
  · exact h
  · exact .ite h (.rekey h)

theorem EndsCanonical.execKeySlotBusyClear (h : Canonical s) : EndsCanonical (execKeySlotBusyClear s) := .next (.tick (.keySlotBusyClear h))
theorem EndsCanonical.execInjWrite {v} (h : Canonical s) : EndsCanonical (execInjWrite v s) := .next (.tick h)
theorem Canonical.repairRow {pa c} (h : Canonical s) : Canonical (s.repairRow pa c) := .ite (.redraw h) (.postError (.redraw h))

theorem Canonical.scrubSector {c n found} (h : Canonical s) : Canonical (scrubSector c n found s) := by
  unfold Machine.scrubSector
  refine .ite h ?_
  extract_lets
  split
  · exact h
  · exact .repairRow (.postError h)
  · exact .repairRow (.postError h)

theorem EndsCanonical.execScrubSector {controller sector found} (h : Canonical s) :
    EndsCanonical (execScrubSector controller sector found s) :=
  .next (.tick (.scrubSector h))

theorem Canonical.loseMemory {die} (h : Canonical s) : Canonical (s.loseMemory die) := h

theorem Canonical.lessUnits {die hi lo} (h : Canonical s) : Canonical (s.lessUnits die hi lo) := .redraw (.setFr h)

theorem Canonical.memoryBulkheadFatal {die} (h : Canonical s) : Canonical (memoryBulkheadFatal die s) :=
  .ite h (.ite (.loseMemory (.lessUnits (.redraw h))) (.loseMemory (.lessUnits (.redraw h))))

theorem EndsCanonical.execMemoryBulkheadFatal {die} (h : Canonical s) : EndsCanonical (execMemoryBulkheadFatal die s) :=
  .next (.tick (.memoryBulkheadFatal h))

theorem Canonical.showLinks {die} (h : Canonical s) : Canonical (s.showLinks die) := .setFr h

theorem Canonical.agentLoss {a} (h : Canonical s) : Canonical (agentLoss a s) :=
  .ite h (.foldl (.foldl h fun _ _ h => .invalidationAck h) fun _ _ h => .ite (.foldl h fun _ _ h => .bhReset h) h)

theorem Canonical.checkDie {die} (h : Canonical s) : Canonical (s.checkDie die) := .ite (.agentLoss (.loseMemory h)) h
theorem Canonical.linkEnd {up l} (h : Canonical s) : Canonical (s.linkEnd up l) := .showLinks h

theorem Canonical.loseLane {lane} (h : Canonical s) : Canonical (s.loseLane lane) := .setFr h

theorem Canonical.linkRetry {die link ok} (h : Canonical s) : Canonical (linkRetry die link ok s) := by
  unfold Machine.linkRetry
  refine .ite h ?_
  extract_lets n s1
  have hs1 : Canonical s1 := h
  refine .ite (.postError hs1) (.ite hs1 ?_)
  exact .ite (.loseLane (.postError hs1)) (.checkDie (.checkDie (.linkEnd (.linkEnd (.postError hs1)))))

theorem EndsCanonical.execLinkRetry {die link ok} (h : Canonical s) : EndsCanonical (execLinkRetry die link ok s) :=
  .next (.tick (.linkRetry h))

theorem Canonical.linkRetraining {die link} (h : Canonical s) : Canonical (linkRetraining die link s) :=
  .ite h (.postError (.linkEnd (.linkEnd h)))

theorem EndsCanonical.execLinkRetraining {die link} (h : Canonical s) : EndsCanonical (execLinkRetraining die link s) :=
  .next (.tick (.linkRetraining h))

theorem Canonical.telemetrySample {power temps} (h : Canonical s) : Canonical (telemetrySample power temps s) := h

theorem EndsCanonical.execTelemetrySample {power temps} (h : Canonical s) : EndsCanonical (execTelemetrySample power temps s) :=
  .next (.tick (.telemetrySample h))

theorem EndsCanonical.execAgentLoss {agent} (h : Canonical s) : EndsCanonical (execAgentLoss agent s) := .next (.tick (.agentLoss h))
theorem Canonical.directorySweep {home a} (h : Canonical s) : Canonical (directorySweep home a s) := .ite h h

theorem EndsCanonical.execDirectorySweep {home agent} (h : Canonical s) : EndsCanonical (execDirectorySweep home agent s) :=
  .next (.tick (.directorySweep h))

theorem Canonical.agentRejoin {a} (h : Canonical s) : Canonical (agentRejoin a s) := .ite h h
theorem EndsCanonical.execAgentRejoin {agent} (h : Canonical s) : EndsCanonical (execAgentRejoin agent s) := .next (.tick (.agentRejoin h))

theorem Canonical.heartbeatMiss {pkg} (h : Canonical s) : Canonical (heartbeatMiss pkg s) := by
  unfold Machine.heartbeatMiss
  extract_lets n s1 s2
  have hs1 : Canonical s1 := h
  have hs2 : Canonical s2 := by
    unfold s2
    split
    · exact .foldl hs1 fun _ _ h => .agentLoss h
    · exact hs1
  exact .ite h (.gangPreempt hs2)

theorem EndsCanonical.execHeartbeatMiss {pkg} (h : Canonical s) : EndsCanonical (execHeartbeatMiss pkg s) :=
  .next (.tick (.heartbeatMiss h))

/-! The cold reset and the SPDM responder (Machine/Boot.lean). -/

theorem Canonical.coldReset (h : Canonical s) : Canonical (coldReset s) := by
  unfold Machine.coldReset
  extract_lets r s0
  have hs0 : Canonical s0 := ⟨rfl, h.host⟩
  exact .ite hs0 (.ite hs0 (.ite hs0 (.ite hs0 hs0)))

theorem EndsCanonical.execColdReset (h : Canonical s) : EndsCanonical (execColdReset s) := .next (.tick (.coldReset h))
theorem Canonical.answerSpdm {kind body more phase} (h : Canonical s) : Canonical (s.answerSpdm kind body more phase) := h
theorem EndsCanonical.execGetVersion (h : Canonical s) : EndsCanonical (execGetVersion s) := .next (.tick (.answerSpdm h))
theorem EndsCanonical.execGetCapabilities (h : Canonical s) : EndsCanonical (execGetCapabilities s) := .next (.tick (.answerSpdm h))

theorem EndsCanonical.execNegotiateAlgorithms {algs} (h : Canonical s) : EndsCanonical (execNegotiateAlgorithms algs s) :=
  .next (.tick (.answerSpdm h))

theorem EndsCanonical.execGetDigests (h : Canonical s) : EndsCanonical (execGetDigests s) := .next (.tick (.answerSpdm h))

theorem EndsCanonical.execGetCertificate {slot off len} (h : Canonical s) : EndsCanonical (execGetCertificate slot off len s) :=
  .next (.tick (.answerSpdm h))

theorem EndsCanonical.execChallenge {nonce} (h : Canonical s) : EndsCanonical (execChallenge nonce s) := .next (.tick (.answerSpdm h))

theorem EndsCanonical.execGetMeasurements {nonce} (h : Canonical s) : EndsCanonical (execGetMeasurements nonce s) :=
  .next (.tick (.answerSpdm h))

theorem EndsCanonical.execKeyExchange {pub} (h : Canonical s) : EndsCanonical (execKeyExchange pub s) := .next (.tick (.answerSpdm h))
theorem EndsCanonical.execFinish {verify} (h : Canonical s) : EndsCanonical (execFinish verify s) := .next (.tick (.answerSpdm h))

theorem EndsCanonical.execVendorDefinedMessage {body} (h : Canonical s) : EndsCanonical (execVendorDefinedMessage body s) :=
  .next (.tick (.answerSpdm h))

/-! Memory accesses of matrix operations (Machine/Array.lean). -/

theorem Canonical.matChunk {ds id row va n k} (h : Canonical s) : Canonical (s.matChunk ds id row va n k).1 := by
  unfold State.matChunk
  split
  · exact .foldl_fst h fun _ _ h => by
        split
        · exact h
        · exact .viewThrough h
  · split
    · next heq1 => exact .fst heq1 (.access h)
    · next heq1 => exact .fst heq1 (.access h)

theorem Canonical.matBytes {ds id p} (h : Canonical s) : Canonical (s.matBytes ds id p).1 := by
  unfold State.matBytes
  split
  · exact h
  · exact .foldl_fst h fun _ _ h => by
        split
        · exact h
        · exact .matChunk h

theorem Canonical.reportMat {id pc ds} (h : Canonical s) : Canonical (s.reportMat id pc ds) := by
  unfold State.reportMat
  exact .foldl_fst h fun _ _ h => by
      split
      · exact h
      · exact .reportDenied h

theorem Canonical.matIdxAsk {id xs} (h : Canonical s) : Canonical (s.matIdxAsk id xs) := by
  unfold State.matIdxAsk
  split
  · exact .idxAsk h
  · exact h

theorem Canonical.askBytes {id bs} (h : Canonical s) : Canonical (s.askBytes id bs) :=
  .foldl (.flush h) fun _ _ h => .ite (.homeAsk h) (.l2Ask h)

theorem Canonical.forgetBytes {id bs} (h : Canonical s) : Canonical (s.forgetBytes id bs) := .forget (.forget h)

/-! Hitch registers and collectives (Machine/Hitch.lean). -/

theorem Canonical.modHitch {blk wheel r f} (h : Canonical s) : Canonical (s.modHitch blk wheel r f) := .modSide h

theorem Canonical.trapSigns {l cause addr} (h : Canonical s) : Canonical (s.trapSigns l cause addr) := by
  unfold State.trapSigns
  exact .foldl h fun _ _ h => by
      extract_lets s2
      have hs2 : Canonical s2 := .modThread h
      split
      · exact .raise hs2
      · exact hs2

theorem Canonical.unsignable {blk wheel r} (h : Canonical s) : Canonical (s.unsignable blk wheel r) := .ite (.trapSigns (.modHitch h)) h

theorem Canonical.unsignableAll {blk wheel} (h : Canonical s) : Canonical (s.unsignableAll blk wheel) := .foldl h fun _ _ h => .unsignable h

theorem Canonical.collWrite {i set} (h : Canonical s) : Canonical (s.collWrite i set) := by
  unfold State.collWrite
  exact .foldl h fun _ _ h => by
      split
      · exact .modThread (.injected h)
      · exact h

theorem Canonical.matBegin {blk wheel id} (h : Canonical s) : Canonical (s.matBegin blk wheel id) := by
  unfold State.matBegin
  split
  · exact h
  · extract_lets
    split
    · exact h
    · exact .ite h (.push (.modSide h))

theorem Canonical.matRecord {blk wheel i vals ids pc slots stores} (h : Canonical s) :
    Canonical (s.matRecord blk wheel i vals ids pc slots stores) := by
  unfold State.matRecord
  split
  · exact h
  · exact .matBegin (.modSide (.bump h))

theorem Canonical.fireMat {blk wheel r l i} (h : Canonical s) : Canonical (s.fireMat blk wheel r l i) := by
  unfold State.fireMat
  extract_lets fail later vals low pc record
  have hfail : ∀ {s cause addr}, Canonical s → Canonical (fail s cause addr) := fun h => .push (.trapSigns h)
  have hlater : ∀ {s room}, Canonical s → Canonical (later s room) := fun h => .modHitch h
  have hrecord : ∀ {s slots stores}, Canonical s → Canonical (record s slots stores) := fun h => by
    unfold record
    extract_lets s1
    have hs1 : Canonical s1 := .matRecord h
    exact .ite hs1 (.push hs1)
  split
  · exact h
  · extract_lets
    refine .ite (hfail h) (.ite (hlater h) ?_)
    split
    · exact hfail h
    · split
      · exact hrecord h
      · refine .ite ?_ ?_
        · split
          · exact hlater h
          · exact hfail h
          · exact hrecord h
        · extract_lets
          refine .ite (.push (hlater (.matIdxAsk h))) ?_
          split
          · next heq3 => exact hfail (.reportMat (.fst heq3 (.matBytes h)))
          · next heq3 => exact .ite (.push (.modBlock (hlater h))) (hrecord (.fst heq3 (.matBytes h)))

theorem Canonical.fire {blk wheel r} (h : Canonical s) : Canonical (s.fire blk wheel r) := by
  unfold State.fire
  extract_lets l s1
  have hs1 : Canonical s1 := .modHitch h
  clear_value l s1
  split
  · exact h
  · exact .ite (.push (.trapSigns hs1)) (.ite (.fireMat hs1) (.push (.collWrite hs1)))

theorem Canonical.takeSign {r x} (h : Canonical s) : Canonical (s.takeSign r x) := by
  unfold State.takeSign
  extract_lets blk w y s1
  have hs1 : Canonical s1 := .modHitch h
  split
  · exact .modHitch h
  · exact .ite (.fire hs1) (.unsignable hs1)

theorem Canonical.wakeWheel {blk wheel} (h : Canonical s) : Canonical (s.wakeWheel blk wheel) :=
  .ite h (.foldl h fun _ _ h => .ite (.ask h) h)

theorem Canonical.fireDone {blk wheel r} (h : Canonical s) : Canonical (s.fireDone blk wheel r) := by
  unfold State.fireDone
  extract_lets
  refine .ite h (.ite ?_ (.wakeWheel (.unsignable (.foldl (.modHitch h) fun _ _ h => .takeSign h))))
  split
  · exact .ite (.fire h) h
  · exact h

theorem EndsCanonical.execHitchFireComplete {blk wheel r} (h : Canonical s) : EndsCanonical (execHitchFireComplete blk wheel r s) :=
  .next (.tick (.fireDone h))

theorem Canonical.signOne {i r vals preds c id} (h : Canonical s) : Canonical (signOne i r vals preds c id s) := by
  unfold Machine.signOne
  split
  · exact h
  · exact .ite (.raise h) (.takeSign (.modThread h))

theorem EndsCanonical.signWord {i r vals preds} (h : Canonical s) : EndsCanonical (signWord i r vals preds s) :=
  .execEach h (fun h => .signOne h)

theorem Canonical.declOne {r b mask c id} (h : Canonical s) : Canonical (declOne r b mask c id s) := by
  unfold Machine.declOne
  split
  · exact h
  · extract_lets n y bad
    have hbad : ∀ {s}, Canonical s → Canonical (bad s) := fun h => .raise h
    exact .ite (hbad h) (.ite h (.ite (hbad (.modHitch h)) (.modHitch h)))

theorem EndsCanonical.execHitchDecl {q r b mask} (h : Canonical s) : EndsCanonical (execHitchDecl q r b mask s) :=
  .execEach h (fun h => .declOne h)

theorem EndsCanonical.execTcfg {q d b} (h : Canonical s) : EndsCanonical (execTcfg q d b s) := by
  unfold Machine.execTcfg
  exact .execEach h (fun h => by
    split
    · exact .modSide h
    · exact h)

/-! Device steps of the matrix array (Machine/MatSteps.lean). -/

theorem Canonical.unsignAll {o} (h : Canonical s) : Canonical (s.unsignAll o) := .foldl h fun _ _ h => .modThread h
theorem Canonical.matOver {blk wheel o} (h : Canonical s) : Canonical (s.matOver blk wheel o) := .wakeMat (.modSide h)

theorem EndsCanonical.execPendingMatrixOpBegin {blk wheel id} (h : Canonical s) : EndsCanonical (execPendingMatrixOpBegin blk wheel id s) :=
  .next (.tick (.matBegin h))

theorem Canonical.matFault {o cause addr} (h : Canonical s) : Canonical (s.matFault o cause addr) := .foldl h fun _ _ h => .push h

theorem Canonical.matWrite {o view cells} (h : Canonical s) : Canonical (s.matWrite o view cells) := by
  unfold State.matWrite
  extract_lets
  exact .foldl (.sendCells (.flush h)) fun _ _ h => by
      split
      · exact .putScr h
      · exact h

theorem Canonical.matSign {o p data wheel cells} (h : Canonical s) : Canonical (s.matSign o p data wheel cells) :=
  .modSide (.push (.modTeam h))

theorem Canonical.lvArray {o bs} (h : Canonical s) : Canonical (s.lvArray o bs) := .modTeam h

theorem Canonical.lvArrayTake {s t : State} {o n bs} (h : Canonical s) (e : s.lvArrayTake o n = some (bs, t)) : Canonical t := by
  unfold State.lvArrayTake at e
  dsimp only at e
  split at e
  · cases e
  · split at e
    · cases e
    · cases e
      exact .modTeam h

theorem Canonical.matDone {blk wheel o r} (h : Canonical s) : Canonical (s.matDone blk wheel o r) :=
  .matOver (.unsignAll (.setFlagsAll (.modSide h)))

theorem Canonical.matFails {blk wheel o ds c a} (h : Canonical s) : Canonical (s.matFails blk wheel o ds c a) :=
  .matOver (.unsignAll (.matFault (.reportMat h)))

theorem Canonical.matLoad {b wheel o p} (h : Canonical s) : Canonical (s.matLoad b wheel o p) := by
  unfold State.matLoad
  extract_lets id again
  have hagain : ∀ {s}, Canonical s → Canonical (again s) := fun h => .push h
  refine .ite ?_ ?_
  · split
    · exact hagain h
    · next heq => exact .matDone (.lvArrayTake h heq)
  · refine .ite (hagain (.matIdxAsk h)) ?_
    split
    · next heq => exact .matFails (.fst heq (.matBytes h))
    · next heq =>
      refine .ite (hagain (.askBytes h)) ?_
      extract_lets data bad cutB s'1
      have hs'1 : Canonical s'1 := .forgetBytes (.reportMat (.fst heq (.matBytes h)))
      split
      · exact .ite (.consumed hs'1) (.matDone (.ite (.lvArray hs'1) hs'1))
      · exact .matDone (.ite (.lvArray hs'1) hs'1)

theorem Canonical.matStore {b wheel o p} (h : Canonical s) : Canonical (s.matStore b wheel o p) := by
  unfold State.matStore
  extract_lets id again d data fin
  have hagain : ∀ {s}, Canonical s → Canonical (again s) := fun h => .push h
  have hfin : ∀ {s}, Canonical s → Canonical (fin s) := fun h => .matDone h
  refine .ite (.ite (.ite (hagain h) (hfin h)) (.ite (hagain h) (hagain (.matSign h)))) ?_
  refine .ite (hagain (.matIdxAsk h)) ?_
  split
  · next s' _ _ _ heq =>
    have hs' : Canonical s' := .fst heq (.matBytes h)
    exact .matFails hs'
  · next s' _ _ heq =>
    have hs' : Canonical s' := .fst heq (.matBytes h)
    extract_lets
    refine .ite (.ite (hagain h) (hagain (.matSign (.reportMat hs')))) ?_
    exact .ite (hfin (.putCont (.reportMat hs'))) (.ite (hagain h) (.ite (hagain (.flush h)) (hfin (.matWrite (.reportMat hs')))))

theorem Canonical.matSnap {b wheel o ct dst a} (h : Canonical s) : Canonical (s.matSnap b wheel o ct dst a) := by
  unfold State.matSnap
  extract_lets
  split
  · extract_lets d2 d3 s1
    have hs1 : Canonical s1 := .foldl (.redraw h) fun _ _ h => by
        exact .modThread (.injected h)
    exact .matDone hs1

theorem Canonical.matFinish {blk wheel id} (h : Canonical s) : Canonical (s.matFinish blk wheel id) := by
  unfold State.matFinish
  split
  · exact h
  · extract_lets
    split
    · exact h
    · refine .ite (.consumed h) ?_
      split
      · exact .ite (.matStore h) (.matLoad h)
      · split
        · exact .matSnap h
        · exact .matDone h

theorem EndsCanonical.execMatrixOpComplete {blk wheel id} (h : Canonical s) : EndsCanonical (execMatrixOpComplete blk wheel id s) :=
  .next (.tick (.matFinish h))

theorem Canonical.factOver {blk wheel o} (h : Canonical s) : Canonical (s.factOver blk wheel o) := .push (.matOver (.unsignAll h))

theorem Canonical.factStop {blk wheel o} (h : Canonical s) : Canonical (s.factStop blk wheel o) :=
  .wakeMat (.fireDone (.modSide (.unsignAll h)))

theorem Canonical.factEnd {blk wheel o} (h : Canonical s) : Canonical (s.factEnd blk wheel o) := by
  unfold State.factEnd
  split
  · exact h
  · exact .factOver (.modSide (.foldl h fun _ _ h => .modThread h))

theorem Canonical.factStep {blk wheel} (h : Canonical s) : Canonical (s.factStep blk wheel) := by
  unfold State.factStep
  split
  · exact h
  · extract_lets
    split
    · exact h
    · split
      · exact h
      · refine .ite (.consumed h) (.ite (.factEnd h) (.ite (.factStop h) ?_))
        extract_lets
        split
        · extract_lets s2
          have hs2 : Canonical s2 := .foldl (.modSide h) fun _ _ h => by
              extract_lets s4
              have hs4 : Canonical s4 := .modThread h
              split
              · exact .raise hs4
              · exact hs4
          exact .push (.matOver hs2)
        · exact .push (.setFlagsAll (.modSide h))

theorem EndsCanonical.execFactorisationColumn {blk wheel} (h : Canonical s) : EndsCanonical (execFactorisationColumn blk wheel s) :=
  .next (.tick (.factStep h))

/-! Terminators (Machine/Control.lean). -/

theorem Canonical.raiseTerm {c id cause addr} (h : Canonical s) : Canonical (s.raiseTerm c id cause addr) := .raise h

theorem Canonical.take {c id succ f} (h : Canonical s) : Canonical (s.take c id succ f) := by
  unfold State.take
  split
  · exact .raiseTerm h
  · exact .modThread h

theorem Canonical.pushRas {c id succ} (h : Canonical s) : Canonical (pushRas c id succ s) := by
  unfold Machine.pushRas
  split
  · exact h
  · split
    · exact .raiseTerm h
    · extract_lets go
      have hgo : ∀ {s}, Canonical s → Canonical (go s) := fun h => .take h
      refine .ite (.raiseTerm h) (.ite (hgo h) ?_)
      split
      · next heq2 => exact .raiseTerm (.ite h (.fst heq2 (.access h)))
      · next heq2 =>
        extract_lets s2
        have hs2 : Canonical s2 := .ite h (.fst heq2 (.access h))
        exact .ite (.stopFor hs2) (hgo (.storeCells hs2))

theorem Canonical.popRas {c id} (h : Canonical s) : Canonical (popRas c id s) := by
  unfold Machine.popRas
  split
  · exact h
  · split
    · exact .raiseTerm h
    · split
      · exact .raiseTerm h
      · extract_lets dp go
        have hgo : ∀ {s r}, Canonical s → Canonical (go s r) := fun h => .take h
        refine .ite (hgo h) ?_
        split
        · next s1 _ heq3 =>
          have hs1 : Canonical s1 := .fst heq3 (.access h)
          exact .raiseTerm (.ite h hs1)
        · next s1 _ heq3 =>
          have hs1 : Canonical s1 := .fst heq3 (.access h)
          refine .ite (.wheelTake h (fun h => hgo h)) ?_
          extract_lets a1 v1 bad s'
          have hs' : Canonical s' := .ite (.reportDenied hs1) hs1
          exact .ite (.consumed hs') (hgo (.ite (.sendQueue hs') hs'))

theorem Canonical.termRegs {i c} (h : Canonical s) : Canonical (s.termRegs i c) := .foldl h fun _ _ h => .ite h (.raiseTerm h)

theorem Canonical.termOne {q eff c id} (h : Canonical s) (heff : ∀ {x y s}, Canonical s → Canonical (eff x y s)) :
    Canonical (termOne q eff c s id) := by
  unfold Machine.termOne
  split
  · exact h
  · exact .ite h (.ite (heff h) (.take h))

theorem Canonical.dissolve {c rest} (h : Canonical s) : Canonical (s.dissolve c rest) := h

theorem EndsCanonical.termWord {i stall eff} (h : Canonical s) (heff : ∀ {x y s}, Canonical s → Canonical (eff x y s)) :
    EndsCanonical (termWord i stall eff s) := by
  unfold Machine.termWord
  split
  · exact .next (.tick h)
  · exact .ite (.next (.tick h)) (.next (.tick (.dissolve (.foldl (.termRegs h) fun _ _ h => .termOne h heff))))

theorem EndsCanonical.execNext {q} (h : Canonical s) : EndsCanonical (execNext q s) := .termWord h (fun h => .take h)
theorem EndsCanonical.execJmp {q off} (h : Canonical s) : EndsCanonical (execJmp q off s) := .termWord h (fun h => .take h)

theorem EndsCanonical.execBr {q neg p off} (h : Canonical s) : EndsCanonical (execBr q neg p off s) := by
  unfold Machine.execBr
  exact .termWord h (fun h => by
    split
    · exact .take h
    · exact h)

theorem EndsCanonical.execBrx {q a} (h : Canonical s) : EndsCanonical (execBrx q a s) := by
  unfold Machine.execBrx
  exact .termWord h (fun h => by
    split
    · exact .take h
    · exact h)

theorem EndsCanonical.execCall {q off} (h : Canonical s) : EndsCanonical (execCall q off s) := .termWord h (fun h => .pushRas h)

theorem EndsCanonical.execCallx {q a} (h : Canonical s) : EndsCanonical (execCallx q a s) := by
  unfold Machine.execCallx
  exact .termWord h (fun h => by
    split
    · exact .pushRas h
    · exact h)

theorem Canonical.recallRefills (h : Canonical s) : Canonical s.recallRefills := by
  unfold State.recallRefills
  split
  · exact h
  · exact .foldl h fun _ _ h => .foldl h fun _ _ h => .l2Ask h

theorem EndsCanonical.execRet {q} (h : Canonical s) : EndsCanonical (execRet q s) := by
  unfold Machine.execRet
  split
  · next s' heq =>
    have hs' : Canonical s' := .of_next heq (.termWord h (fun h => .popRas h))
    exact .next (.ite (.recallRefills hs') hs')
  · exact .termWord h (fun h => .popRas h)

theorem Canonical.exitOne {c id} (h : Canonical s) : Canonical (exitOne c id s) := by
  unfold Machine.exitOne
  split
  · exact h
  · exact .ite (.sign h) (.modThread h)

theorem Canonical.afterExit {blk} (h : Canonical s) : Canonical (s.afterExit blk) := by
  unfold State.afterExit
  extract_lets s1 s2
  have hs1 : Canonical s1 := .barCheckAll (.unsignableAll (.unsignableAll h))
  have hs2 : Canonical s2 := .ite (.push hs1) hs1
  exact .ite (.push (.modBlock hs2)) hs2

theorem EndsCanonical.execExit {q} (h : Canonical s) : EndsCanonical (execExit q s) := by
  unfold Machine.execExit
  split
  · exact .next (.tick h)
  · split
    · next heq1 => exact .next (.foldl (.of_next heq1 (.termWord h (fun h => .exitOne h))) fun _ _ h => .afterExit h)
    · exact .termWord h (fun h => .exitOne h)

/-! Conversions (Machine/Convert.lean). -/

theorem Canonical.setGen {pipe v} (h : Canonical s) : Canonical (s.setGen pipe v) := h

theorem Canonical.srOne {i dt pos d a cyc c id} (h : Canonical s) : Canonical (srOne i dt pos d a cyc c id s) := by
  unfold Machine.srOne
  split
  · exact h
  · refine .ite (.wheelTake h (fun h => .writeOuts h)) ?_
    extract_lets w s1
    have hs1 : Canonical s1 := .writeOuts h
    exact .ite (.sendQueue hs1) hs1

theorem EndsCanonical.execCvtSr {q dt pos d a} (h : Canonical s) : EndsCanonical (execCvtSr q dt pos d a s) :=
  .execAll h (fun h => .foldl (.setGen h) fun _ _ h => .srOne h)

theorem EndsCanonical.execSrseed {q b} (h : Canonical s) : EndsCanonical (execSrseed q b s) := by
  unfold Machine.execSrseed
  exact .execAll h (fun h => by
    split
    · exact h
    · exact .setGen h)

/-! Issue (Machine/Issue.lean). -/

theorem Canonical.wake (h : Canonical s) : Canonical s.wake := .endWaits h

theorem Canonical.stopHeader {ts cause len} (h : Canonical s) : Canonical (s.stopHeader ts cause len) :=
  .foldl h fun _ _ h => .raise (.modThread h)

theorem Canonical.stringIssue {core picker} (h : Canonical s) : Canonical (stringIssue core picker s) := by
  unfold Machine.stringIssue
  extract_lets s1
  have hs1 : Canonical s1 := .wake h
  split
  · exact hs1
  · split
    · exact hs1
    · extract_lets ms ids word s2 go
      have hs2 : Canonical s2 := hs1
      have hgo : ∀ {hdr pc s}, Canonical s → Canonical (go hdr pc s) := fun h => h
      clear_value s2 word
      split
      · exact .ite (.foldl hs2 fun _ _ h => .consumed h) (hgo hs2)
      · split
        · exact .stopHeader hs2
        · split
          · exact .stopHeader hs2
          · exact .ite (.foldl hs2 fun _ _ h => .consumed h) (.ite (hgo (.fillCode hs2)) (.stopHeader (.fillCode hs2)))

theorem EndsCanonical.execStringIssue {core picker} (h : Canonical s) : EndsCanonical (execStringIssue core picker s) :=
  .next (.tick (.stringIssue h))

theorem Canonical.late {c} (h : Canonical s) : Canonical (s.late c) := .ite h h

theorem EndsCanonical.execPendingResultWritten {th i} (h : Canonical s) : EndsCanonical (execPendingResultWritten th i s) :=
  .next (.tick (.modThread h))

/-! Loading an object (Machine/Loader.lean). -/

theorem Canonical.drvWrite {part va pa bs} (h : Canonical s) : Canonical (s.drvWrite part va pa bs) := .foldl h fun _ _ h => .putHome h

theorem Canonical.commitObject {s t : State} {r b w} (h : Canonical s) (e : s.commitObject r b = some (t, w)) : Canonical t := by
  unfold State.commitObject at e
  split at e
  · cases e
  · split at e
    · cases e
    · extract_lets offs s1 s2 s3 s4 s5 at e
      have hs4 : Canonical s4 := .drvWrite (.drvWrite (.drvWrite (⟨Memory.wf_foldl_wrNat h.mem, h.host⟩)))
      have hs5 : Canonical s5 := ⟨Memory.wf_wrNat _ _ _ (Memory.wf_wrNat _ _ _ (Memory.wf_wrNat _ _ _ (Memory.wf_wrNat _ _ _ hs4.mem))), hs4.host⟩
      split at e
      · cases e
        exact .setObjState hs5
      · cases e

theorem Canonical.objectLoad {r} (h : Canonical s) : Canonical (objectLoad r s) := by
  unfold Machine.objectLoad
  extract_lets fail
  have hfail : ∀ {st}, Canonical (fail st) := h
  split
  · exact hfail
  · refine .ite hfail ?_
    split
    · exact hfail
    · next s1 _ heq1 =>
      have hs1 : Canonical s1 := .commitObject h heq1
      exact hs1

theorem EndsCanonical.execObjectLoad {r} (h : Canonical s) : EndsCanonical (execObjectLoad r s) := .next (.tick (.objectLoad h))

/-! Writes to the register windows (Machine/Registers.lean). -/

theorem EndsCanonical.putFr {fn off mask v} (h : Canonical s) : EndsCanonical (putFr fn off mask v s) := .next (.tick (.setFr h))
theorem EndsCanonical.putPr {p off mask v} (h : Canonical s) : EndsCanonical (putPr p off mask v s) := .next (.tick (.setPr h))
theorem EndsCanonical.noWrite (h : Canonical s) : EndsCanonical (noWrite s) := .next (.tick h)

theorem EndsCanonical.partWrite {p off v} (h : Canonical s) : EndsCanonical (partWrite p off v s) := by
  unfold Machine.partWrite
  refine .ite (.ite (.execWindowEntryInstall h) (.ite (.execWindowEntryStage h) (.noWrite h))) ?_
  refine .ite (.ite (.ite (.noWrite h) (.putPr h)) (.ite (.execRactlWrite h) (.noWrite h))) ?_
  split
  · exact .putPr h
  · exact .execTlbinv h
  · exact .execPrinv h
  · exact .putPr h
  · exact .execRingCtlWrite h
  · exact .execRingHeadWrite h
  · exact .putPr h
  · exact .execRingCtlWrite h
  · exact .execRingHeadWrite h
  · exact .execPrtbaseWrite h
  · exact .execPrtbaseWrite h
  · exact .execVtbaseWrite h
  · exact .putPr h
  · exact .putPr h
  · exact .noWrite h

theorem EndsCanonical.fnWrite {fn off v} (h : Canonical s) : EndsCanonical (fnWrite fn off v s) := by
  unfold Machine.fnWrite
  extract_lets
  refine .ite ?_ ?_
  · split
    · exact .putFr h
    · exact .execSqctlWrite h
    · exact .execSqtailWrite h
    · exact .noWrite h
  · split
    · exact .putFr h
    · exact .writeCmd h
    · exact .putFr h
    · exact .putFr h
    · exact .noWrite h

theorem Canonical.bhcfgWrite {b v} (h : Canonical s) : Canonical (bhcfgWrite b v s) := by
  unfold Machine.bhcfgWrite
  extract_lets s1
  have hs1 : Canonical s1 := .partitionChange h
  exact .ite (.bhReset hs1) hs1

theorem EndsCanonical.keyctlWrite {v} (h : Canonical s) : EndsCanonical (keyctlWrite v s) :=
  .ite (.execKeyLoad h) (.ite (.execKeyClear h) (.noWrite h))

theorem EndsCanonical.pfWrite {off v} (h : Canonical s) : EndsCanonical (pfWrite off v s) := by
  unfold Machine.pfWrite
  refine .ite (.partWrite h) (.ite (.ite (.execSliceEntryStage h) (.ite (.execSliceEntryInstall h) (.noWrite h))) ?_)
  refine .ite (.putFr h) (.ite (.next (.tick (.bhcfgWrite h))) (.ite (.next (.tick h)) (.ite (.putFr h) ?_)))
  refine .ite (.ite (.putFr h) (.ite (.putFr h) (.noWrite h))) ?_
  split
  · exact .next (.tick h)
  · exact .execFrameownWrite h
  · exact .next (.tick h)
  · exact .keyctlWrite h
  · exact .putFr h
  · exact .execRingCtlWrite h
  · exact .execRingHeadWrite h
  · exact .execInjWrite h
  · exact .execInjWrite h
  · exact .fnWrite h

theorem EndsCanonical.execRegisterWrite {fn off v} (h : Canonical s) : EndsCanonical (execRegisterWrite fn off v s) := by
  unfold Machine.execRegisterWrite
  split
  · exact .pfWrite h
  · refine .ite ?_ (.fnWrite h)
    split
    · exact .ite (.partWrite h) (.noWrite h)
    · exact .noWrite h

/-! Device steps of the agenda (Machine/Agenda.lean). -/

theorem EndsCanonical.runEv {e} (h : Canonical s) : EndsCanonical (runEv e s) := by
  cases e with
  | stringIssue => exact .execStringIssue h | sleepExpiry => exact .execSleepExpiry h
  | hitchFireComplete => exact .execHitchFireComplete h | loadReturn => exact .execLoadReturn h
  | storeAccept => exact .execStoreAccept h | releaseComplete => exact .execReleaseComplete h
  | writeBack => exact .execWriteBack h | invalidation => exact .execInvalidation h
  | invalidationAck => exact .execInvalidationAck h | l1Eviction => exact .execL1Eviction h
  | evictionNotice => exact .execEvictionNotice h | directoryDrop => exact .execDirectoryDrop h
  | discovery => exact .execDiscovery h | l2ReadRequest => exact .execL2ReadRequest h | atomicAtHome => exact .execAtomicAtHome h
  | updateLineMerge => exact .execUpdateLineMerge h | remoteAccess => exact .execRemoteAccess h
  | ntStoreAck => exact .execNtStoreAck h | hostAccess => exact .execHostAccess h
  | viewLineCompose => exact .execViewLineCompose h | viewStoreCheck => exact .execViewStoreCheck h
  | viewStoreScatter => exact .execViewStoreScatter h | viewStoreAck => exact .execViewStoreAck h
  | queueRequest => exact .execQueueRequest h | queueRequestResend => exact .execQueueRequestResend h
  | queueWithdrawal => exact .execQueueWithdrawal h | queueRequestComplete => exact .execQueueRequestComplete h
  | gatherRowReturn => exact .execGatherRowReturn h | copyChunk => exact .execCopyChunk h
  | copyComplete => exact .execCopyComplete h | copyCommandRead => exact .execCopyCommandRead h
  | joinDecrement => exact .execJoinDecrement h | relayPost => exact .execRelayPost h | launchPacket => exact .execLaunchPacket h
  | launchExpansion => exact .execLaunchExpansion h | recordGenerationResume => exact .execRecordGenerationResume h
  | blockAdmission => exact .execBlockAdmission h | blockSave => exact .execBlockSave h
  | blockSaveComplete => exact .execBlockSaveComplete h | blockRestore => exact .execBlockRestore h
  | blockRetire => exact .execBlockRetire h | launchComplete => exact .execLaunchComplete h
  | preemptTimeout => exact .execPreemptTimeout h | storeFault => exact .execStoreFault h
  | readAheadDiscard => exact .execReadAheadDiscard h | containedRelaunch => exact .execContainedRelaunch h
  | commitStoreRelease => exact .execCommitStoreRelease h | signatureCompare => exact .execSignatureCompare h
  | loadValueEntry => exact .execLoadValueEntry h | pendingMatrixOpBegin => exact .execPendingMatrixOpBegin h
  | matrixOpComplete => exact .execMatrixOpComplete h | factorisationColumn => exact .execFactorisationColumn h
  | pageWalk => exact .execPageWalk h | faultRecordPost => exact .execFaultRecordPost h | sqtailWrite => exact .execSqtailWrite h
  | sqctlWrite => exact .execSqctlWrite h | preempt => exact .execPreempt h | resume => exact .execResume h
  | cancel => exact .execCancel h | trapreplyRetry => exact .execTrapreplyRetry h | trapreplySkip => exact .execTrapreplySkip h
  | trapreplyKill => exact .execTrapreplyKill h | codeinval => exact .execCodeinval h | objlive => exact .execObjlive h
  | objunload => exact .execObjunload h | objfree => exact .execObjfree h | objectLoad => exact .execObjectLoad h
  | ractlWrite => exact .execRactlWrite h | relayAreaFillComplete => exact .execRelayAreaFillComplete h
  | vtbaseWrite => exact .execVtbaseWrite h | viewTableFillComplete => exact .execViewTableFillComplete h
  | prtbaseWrite => exact .execPrtbaseWrite h | prinv => exact .execPrinv h | tlbinv => exact .execTlbinv h
  | invalidationComplete => exact .execInvalidationComplete h | ringHeadWrite => exact .execRingHeadWrite h
  | ringCtlWrite => exact .execRingCtlWrite h | bulkheadReset => exact .execBulkheadReset h
  | bulkheadResetDone => exact .execBulkheadResetDone h | bulkheadHwFault => exact .execBulkheadHwFault h
  | partitionChange => exact .execPartitionChange h | frameownWrite => exact .execFrameownWrite h
  | frameownChangeComplete => exact .execFrameownChangeComplete h | windowEntryStage => exact .execWindowEntryStage h
  | windowEntryInstall => exact .execWindowEntryInstall h | sliceEntryStage => exact .execSliceEntryStage h
  | sliceEntryInstall => exact .execSliceEntryInstall h | gangSliceStart => exact .execGangSliceStart h
  | gangReady => exact .execGangReady h | gangGraceExpiry => exact .execGangGraceExpiry h
  | gangSliceEnd => exact .execGangSliceEnd h | keyLoad => exact .execKeyLoad h | keyClear => exact .execKeyClear h
  | injWrite => exact .execInjWrite h | registerWrite => exact .execRegisterWrite h | scrubSector => exact .execScrubSector h
  | linkRetry => exact .execLinkRetry h | linkRetraining => exact .execLinkRetraining h
  | telemetrySample => exact .execTelemetrySample h | heartbeatMiss => exact .execHeartbeatMiss h
  | agentLoss => exact .execAgentLoss h | agentRejoin => exact .execAgentRejoin h | directorySweep => exact .execDirectorySweep h
  | coldReset => exact .execColdReset h | getVersion => exact .execGetVersion h | getCapabilities => exact .execGetCapabilities h
  | negotiateAlgorithms => exact .execNegotiateAlgorithms h | getDigests => exact .execGetDigests h
  | getCertificate => exact .execGetCertificate h | challenge => exact .execChallenge h
  | getMeasurements => exact .execGetMeasurements h | keyExchange => exact .execKeyExchange h | finish => exact .execFinish h
  | pendingResultWritten => exact .execPendingResultWritten h | memoryBulkheadFatal => exact .execMemoryBulkheadFatal h
  | keySlotBusyClear => exact .execKeySlotBusyClear h | commandTakesEffect => exact .execCommandTakesEffect h
  | vendorDefinedMessage => exact .execVendorDefinedMessage h

/-! Fetching a word (Machine/Fetch.lean). -/

theorem Canonical.focus {k} (h : Canonical s) : Canonical (s.focus k) := by
  unfold State.focus
  split <;> exact h

theorem Canonical.useCopies {i c} (h : Canonical s) : Canonical (s.useCopies i c) := .ite h (.foldl h fun _ _ h => .useCopy h)

/-! Event counters (Machine/Counters.lean). -/

theorem Canonical.counted {s t : State} {e} (h : Canonical t) : Canonical (s.counted e t) := by
  unfold State.counted
  split
  · exact h
  · exact .foldl h fun _ _ h => h

/-! Every instruction and device step (Machine/Dispatch.lean). -/

theorem EndsCanonical.exec {i} (h : Canonical s) : EndsCanonical (exec i s) := by
  cases i with
  | add | sub | mul | mulhiI32 | mulhiN32 | divI32 | divN32 | remI32 | remN32 | minI32 | minN32 | maxI32 | maxN32 | and | or | xor
  | shl | shr | sar | rol =>
    unfold Machine.exec; exact .binOp h
  | addi | shli | shri | sari | andi | ori | xori | popc | clz | ctz | brev | not | abs | neg =>
    unfold Machine.exec; exact .unOp h
  | mad | madHiI32 | madHiN32 | madWideI32 | madWideN32 | bfeI32 | bfeN32 | bfi | shfL | shfR | prmt | bitfn | setp | pand | por |
  pxor | pnot | p2g | g2p | sel | mov | movi | addI64 | subI64 | addiI64 | lea | shlI64 | shrI64 | sarI64 | minN64 | maxN64 | fadd
  | fsub | fmul | fma | fmin | fmax | fdiv | fsqrt | fabs | fneg | frcp | frsq | fex2 | flg2 | fsin | fcos | ffloor | fceil |
  ftrunc | frint | fcopysign | fsetp | fclass | cvt | pack | unpack | dp4 | dp8 | fscale | prefetchL1 | prefetchL2 | nop =>
    unfold Machine.exec; exact .execReg h
  | ymov | ymovl | ymovh | yadd | yaddi =>
    unfold Machine.exec; exact .yokeOp h
  | ld | ldAcq =>
    unfold Machine.exec; exact .loadWord h
  | st | stRel | stNt =>
    unfold Machine.exec; exact .storeWord h
  | atomExch | atomCas | atomAdd | atomAnd | atomOr | atomXor | atomMinI | atomMinN | atomMaxI | atomMaxN | atomFadd | atomInc |
  atomDec =>
    unfold Machine.exec; exact .atomWord h
  | redAdd | redAnd | redOr | redXor | redMinI | redMinN | redMaxI | redMaxN | redFadd =>
    unfold Machine.exec; exact .redWord h
  | barBlk | barGrp | barGrid =>
    unfold Machine.exec; exact .barWord h
  | hitchSign | pfoldAnd | pfoldOr | pcount | prank | agree | pbits | cycle | xrank | foldAdd | scanAdd | foldMinI | foldMaxI |
  tld | tst | tmov | tzero | mma | mmaSp | mmaSpt | mfactLu | mfactChol | mfactQr | mtrsm | accLdTile | accLdMem | accStTile |
  accStMem | accSnap | accZero | pmLd | pmSt | pmApply | pmApplyInv =>
    unfold Machine.exec; exact .signWord h
  | enq | deq =>
    unfold Machine.exec; exact .queueWord h
  | enqTry | deqTry =>
    unfold Machine.exec; exact .tryWord h
  | copy | copyMc =>
    unfold Machine.exec; exact .copyWord h
  | trap | brk =>
    unfold Machine.exec; exact .trapWord h
  | movs => exact .execMovs h | next => exact .execNext h | jmp => exact .execJmp h | br => exact .execBr h
  | brx => exact .execBrx h | call => exact .execCall h | callx => exact .execCallx h | ret => exact .execRet h
  | exit => exact .execExit h | cvtSr => exact .execCvtSr h | srseed => exact .execSrseed h | ldQ => exact .execLdQ h
  | stQ => exact .execStQ h | drainNt => exact .execDrainNt h | viewDefG => exact .execViewDefG h
  | viewDefX => exact .execViewDefX h | viewDel => exact .execViewDel h | viewQ => exact .execViewQ h
  | fence => exact .execFence h | hitchDecl => exact .execHitchDecl h | qbindQueue => exact .execQbindQueue h
  | qbindCopy => exact .execQbindCopy h | qbindGather => exact .execQbindGather h | qunbind => exact .execQunbind h
  | qstat => exact .execQstat h | wait => exact .execWait h | tcfg => exact .execTcfg h | ftest => exact .execFtest h
  | fcancel => exact .execFcancel h | relay => exact .execRelay h | join => exact .execJoin h | commit => exact .execCommit h
  | phint => exact .execPhint h | sleep => exact .execSleep h | illegalMajor => unfold Machine.exec; exact .execIllegalMajor h
  | stringIssue => exact .execStringIssue h | sleepExpiry => exact .execSleepExpiry h
  | hitchFireComplete => exact .execHitchFireComplete h | loadReturn => exact .execLoadReturn h
  | storeAccept => exact .execStoreAccept h | releaseComplete => exact .execReleaseComplete h
  | writeBack => exact .execWriteBack h | invalidation => exact .execInvalidation h
  | invalidationAck => exact .execInvalidationAck h | l1Eviction => exact .execL1Eviction h
  | evictionNotice => exact .execEvictionNotice h | directoryDrop => exact .execDirectoryDrop h
  | discovery => exact .execDiscovery h | l2ReadRequest => exact .execL2ReadRequest h | atomicAtHome => exact .execAtomicAtHome h
  | updateLineMerge => exact .execUpdateLineMerge h | remoteAccess => exact .execRemoteAccess h
  | ntStoreAck => exact .execNtStoreAck h | hostAccess => exact .execHostAccess h
  | viewLineCompose => exact .execViewLineCompose h | viewStoreCheck => exact .execViewStoreCheck h
  | viewStoreScatter => exact .execViewStoreScatter h | viewStoreAck => exact .execViewStoreAck h
  | queueRequest => exact .execQueueRequest h | queueRequestResend => exact .execQueueRequestResend h
  | queueWithdrawal => exact .execQueueWithdrawal h | queueRequestComplete => exact .execQueueRequestComplete h
  | gatherRowReturn => exact .execGatherRowReturn h | copyChunk => exact .execCopyChunk h
  | copyComplete => exact .execCopyComplete h | copyCommandRead => exact .execCopyCommandRead h
  | joinDecrement => exact .execJoinDecrement h | relayPost => exact .execRelayPost h | launchPacket => exact .execLaunchPacket h
  | launchExpansion => exact .execLaunchExpansion h | recordGenerationResume => exact .execRecordGenerationResume h
  | blockAdmission => exact .execBlockAdmission h | blockSave => exact .execBlockSave h
  | blockSaveComplete => exact .execBlockSaveComplete h | blockRestore => exact .execBlockRestore h
  | blockRetire => exact .execBlockRetire h | launchComplete => exact .execLaunchComplete h
  | preemptTimeout => exact .execPreemptTimeout h | storeFault => exact .execStoreFault h
  | readAheadDiscard => exact .execReadAheadDiscard h | containedRelaunch => exact .execContainedRelaunch h
  | commitStoreRelease => exact .execCommitStoreRelease h | signatureCompare => exact .execSignatureCompare h
  | loadValueEntry => exact .execLoadValueEntry h | pendingMatrixOpBegin => exact .execPendingMatrixOpBegin h
  | matrixOpComplete => exact .execMatrixOpComplete h | factorisationColumn => exact .execFactorisationColumn h
  | pageWalk => exact .execPageWalk h | faultRecordPost => exact .execFaultRecordPost h | sqtailWrite => exact .execSqtailWrite h
  | sqctlWrite => exact .execSqctlWrite h | preempt => exact .execPreempt h | resume => exact .execResume h
  | cancel => exact .execCancel h | trapreplyRetry => exact .execTrapreplyRetry h | trapreplySkip => exact .execTrapreplySkip h
  | trapreplyKill => exact .execTrapreplyKill h | codeinval => exact .execCodeinval h | objlive => exact .execObjlive h
  | objunload => exact .execObjunload h | objfree => exact .execObjfree h | objectLoad => exact .execObjectLoad h
  | ractlWrite => exact .execRactlWrite h | relayAreaFillComplete => exact .execRelayAreaFillComplete h
  | vtbaseWrite => exact .execVtbaseWrite h | viewTableFillComplete => exact .execViewTableFillComplete h
  | prtbaseWrite => exact .execPrtbaseWrite h | prinv => exact .execPrinv h | tlbinv => exact .execTlbinv h
  | invalidationComplete => exact .execInvalidationComplete h | ringHeadWrite => exact .execRingHeadWrite h
  | ringCtlWrite => exact .execRingCtlWrite h | bulkheadReset => exact .execBulkheadReset h
  | bulkheadResetDone => exact .execBulkheadResetDone h | bulkheadHwFault => exact .execBulkheadHwFault h
  | partitionChange => exact .execPartitionChange h | frameownWrite => exact .execFrameownWrite h
  | frameownChangeComplete => exact .execFrameownChangeComplete h | windowEntryStage => exact .execWindowEntryStage h
  | windowEntryInstall => exact .execWindowEntryInstall h | sliceEntryStage => exact .execSliceEntryStage h
  | sliceEntryInstall => exact .execSliceEntryInstall h | gangSliceStart => exact .execGangSliceStart h
  | gangReady => exact .execGangReady h | gangGraceExpiry => exact .execGangGraceExpiry h
  | gangSliceEnd => exact .execGangSliceEnd h | keyLoad => exact .execKeyLoad h | keyClear => exact .execKeyClear h
  | injWrite => exact .execInjWrite h | registerWrite => exact .execRegisterWrite h | scrubSector => exact .execScrubSector h
  | linkRetry => exact .execLinkRetry h | linkRetraining => exact .execLinkRetraining h
  | telemetrySample => exact .execTelemetrySample h | heartbeatMiss => exact .execHeartbeatMiss h
  | agentLoss => exact .execAgentLoss h | agentRejoin => exact .execAgentRejoin h | directorySweep => exact .execDirectorySweep h
  | coldReset => exact .execColdReset h | getVersion => exact .execGetVersion h | getCapabilities => exact .execGetCapabilities h
  | negotiateAlgorithms => exact .execNegotiateAlgorithms h | getDigests => exact .execGetDigests h
  | getCertificate => exact .execGetCertificate h | challenge => exact .execChallenge h
  | getMeasurements => exact .execGetMeasurements h | keyExchange => exact .execKeyExchange h | finish => exact .execFinish h
  | pendingResultWritten => exact .execPendingResultWritten h | memoryBulkheadFatal => exact .execMemoryBulkheadFatal h
  | keySlotBusyClear => exact .execKeySlotBusyClear h | commandTakesEffect => exact .execCommandTakesEffect h
  | vendorDefinedMessage => exact .execVendorDefinedMessage h

/-! One step (Machine/Step.lean). -/

theorem EndsCanonical.stepWord (h : Canonical s) : EndsCanonical (stepWord s) := by
  unfold Machine.stepWord
  split
  · exact .next (.tick h)
  · split
    · exact .next (.faultWord h)
    · split
      · exact .next (.tick (.consumed (.registerError h)))
      · exact .exec (.useCopies (.late h))

theorem EndsCanonical.runCand {c} (h : Canonical s) : EndsCanonical (runCand c s) := by
  unfold Machine.runCand
  split
  · split
    · exact .runEv h
    · exact .next (.tick h)
  · exact .stepWord (.focus h)
  · exact .runEv h

theorem EndsCanonical.runCounted {c} (h : Canonical s) : EndsCanonical (runCounted c s) := by
  unfold Machine.runCounted
  split
  · next hr => exact .next (.counted (.of_next hr (.runCand h)))
  · exact .fault
  · exact .refused

theorem EndsCanonical.step (h : Canonical s) : EndsCanonical (step s) := by
  unfold Machine.step
  split
  · exact .fault
  · exact .runEv h
  · split
    · exact .next (.tick h)
    · exact .runCounted h
    · exact .runCounted (.redraw h)

end Sys2Proof.Machine

namespace Sys2Proof
open Machine

/-- Settles O7: whichever candidate happens, its operations keep the canonical form. -/
theorem stepKeepsCanonical : Obligations.StepKeepsCanonical := fun _ t h e => EndsCanonical.step h t e

end Sys2Proof
end

section
/-! PROOFS. Doorbells, the registers of a partition and writes to the register windows (R7, R372, R373, R382, R386, R387, R391, R393, R406 to
R410): first what a window register reads after a write, then each register's own step by its branches, then the steps of O58. -/

namespace Sys2Proof.Machine

variable {s : State} {f q n off off' d : Nat} {p : BitVec 6} {v : Word} {w x : DWord} {e : Ev}

/-! Window registers after a write. -/

@[simp] theorem State.fr_tick : s.tick.fr f off = s.fr f off := rfl
@[simp] theorem State.fr_push : (s.push e).fr f off = s.fr f off := rfl
@[simp] theorem State.pr_tick : s.tick.pr p off = s.pr p off := rfl
@[simp] theorem State.pr_push : (s.push e).pr p off = s.pr p off := rfl

@[simp] theorem State.fr_setFr_same : (s.setFr f off x).fr f off = x := rd_wr_same ..

theorem State.fr_setFr_other (h : off ≠ off') : (s.setFr f off x).fr f off' = s.fr f off' := rd_wr_other _ _ (by omega)

@[simp] theorem State.pr_setPr_same : (s.setPr p off x).pr p off = x := rd_wr_same ..

theorem State.pr_setPr_other (h : off ≠ off') : (s.setPr p off x).pr p off' = s.pr p off' := rd_wr_other _ _ (by omega)

/-! Writes that order the host's earlier writes (R94, R406). -/

theorem afterHost_of_open {g : State → State} (h : s.hostOpen e = true) :
    afterHost e g s = State.push { s with hostHeld := if e ∈ s.hostHeld then s.hostHeld else s.hostHeld ++ [e] } e := by
  simp only [afterHost, h, if_true, List.contains_iff_mem]

theorem afterHost_of_not_open {g : State → State} (h : s.hostOpen e = false) :
    afterHost e g s = g { s with hostHeld := s.hostHeld.erase e } := by
  simp [afterHost, h]

/-! What `exec` does on each of these steps. -/

theorem exec_sqtailWrite : exec (.sqtailWrite f q v) s = .next (afterHost (.sqtailWrite f q v) (sqtailWrite f q v) s).tick := rfl
theorem exec_sqctlWrite : exec (.sqctlWrite f q v) s = .next (sqctlWrite f q v s).tick := rfl
theorem exec_prinv : exec (.prinv p v) s = .next (afterHost (.prinv p v) (prinv p v) s).tick := rfl
theorem exec_tlbinv : exec (.tlbinv p w) s = .next (afterHost (.tlbinv p w) (tlbinv p w) s).tick := rfl
theorem exec_faultHeadWrite : exec (.ringHeadWrite (.fault p) v) s =
    .next (afterHost (.ringHeadWrite (.fault p) v) (ringHeadWrite (.fault p) v) s).tick := rfl
theorem exec_ractlWrite : exec (.ractlWrite p d v) s = .next (ractlWrite p d v s).tick := rfl
theorem exec_relayAreaFillComplete : exec (.relayAreaFillComplete p d) s = .next (relayAreaFillComplete p d s).tick := rfl
theorem exec_vtbaseWrite : exec (.vtbaseWrite p w) s = .next (vtbaseWrite p w s).tick := rfl
theorem exec_viewTableFillComplete : exec (.viewTableFillComplete p) s = .next (viewTableFillComplete p s).tick := rfl
theorem exec_prtbaseWrite {c : Bool} : exec (.prtbaseWrite p c w) s = .next (prtbaseWrite p c w s).tick := rfl
theorem exec_invalidationComplete : exec (.invalidationComplete p) s = .next (invalidationComplete p s).tick := rfl
theorem exec_registerWrite {fn : Fn} {o : BitVec 16} : exec (.registerWrite fn o w) s = execRegisterWrite fn o w s := rfl

/-! Doorbells and the control of a submission queue (R373). -/

theorem sqCtl_ne_sqTail (q : Nat) : sqCtl q ≠ sqTail q := by unfold sqCtl sqTail; omega
theorem sqCtl_ne_sqHead (q : Nat) : sqCtl q ≠ sqHead q := by unfold sqCtl sqHead; omega
theorem sqTail_ne_sqHead (q : Nat) : sqTail q ≠ sqHead q := by unfold sqTail sqHead; omega

theorem sqtailWrite_of_disabled (h : (s.fr f (sqCtl q)).getLsbD 31 = false) : sqtailWrite f q v s = s := by
  simp only [sqtailWrite, h, Bool.not_false, if_true]

theorem sqtailWrite_of_room (h : (s.fr f (sqCtl q)).getLsbD 31 = true) (hv : v.toNat < s.sqSize f q)
    (hr : ((s.fr f (sqTail q)).toNat + s.sqSize f q - (s.fr f (sqHead q)).toNat) % s.sqSize f q
      ≤ (v.toNat + s.sqSize f q - (s.fr f (sqHead q)).toNat) % s.sqSize f q) :
    sqtailWrite f q v s = (s.setFr f (sqTail q) (v.setWidth 64)).push (.launchPacket f q) := by
  simp only [sqtailWrite, h, Bool.not_true, Bool.false_eq_true, if_false, Nat.not_le.mpr hv, Nat.not_lt.mpr hr, decide_false, Bool.or_self]

theorem sqtailWrite_of_large (h : (s.fr f (sqCtl q)).getLsbD 31 = true) (hv : s.sqSize f q ≤ v.toNat) :
    sqtailWrite f q v s = s.sqError f q := by
  simp only [sqtailWrite, h, Bool.not_true, Bool.false_eq_true, if_false, hv, decide_true, Bool.true_or, if_true]

theorem sqError_en : ((s.sqError f q).fr f (sqCtl q)).getLsbD 31 = false := by
  simp [State.sqError]

theorem sqError_err : ((s.sqError f q).fr f (sqCtl q)).getLsbD 29 = true := by
  simp [State.sqError]

theorem sqctlWrite_of_bad_size (hv : v.getLsbD 31 = true) (hz : bitsN v.toNat 4 0 = 0 ∨ 16 < bitsN v.toNat 4 0) :
    sqctlWrite f q v s = s.setFr f (sqCtl q) ((v &&& 0x40ff001f).setWidth 64 ||| 0x20000000) := by
  have hbad : ¬ (1 ≤ bitsN v.toNat 4 0 ∧ bitsN v.toNat 4 0 ≤ 16) := by omega
  simp only [sqctlWrite, hv, hbad, decide_false, Bool.not_false, Bool.and_self, if_true]

theorem sqctlWrite_of_enable (hv : v.getLsbD 31 = true) (h1 : 1 ≤ bitsN v.toNat 4 0) (h16 : bitsN v.toNat 4 0 ≤ 16)
    (h : (s.fr f (sqCtl q)).getLsbD 31 = false) :
    sqctlWrite f q v s = ((s.setFr f (sqCtl q) ((v &&& 0x40ff001f).setWidth 64 ||| 0x80000000)).setFr f (sqHead q) 0).setFr f (sqTail q) 0 := by
  simp only [sqctlWrite, hv, h1, h16, h, and_self, decide_true, Bool.not_true, Bool.and_false, Bool.false_eq_true, if_false, Bool.not_false,
    Bool.and_self, if_true]

theorem sqctlWrite_of_disable (hv : v.getLsbD 31 = false) :
    sqctlWrite f q v s = s.setFr f (sqCtl q) ((v &&& 0x40ff001f).setWidth 64 ||| (s.fr f (sqCtl q) &&& 0x20000000)) := by
  simp only [sqctlWrite, hv, Bool.false_and, Bool.false_eq_true, if_false]
  exact congrArg _ BitVec.or_zero

/-- EN beside the other fields of SQCTL. -/
theorem sqctl_fields_en (hv : v.getLsbD 31 = true) : ((v &&& 0x40ff001f).setWidth 64 ||| 0x80000000 : DWord) = (v &&& 0xc0ff001f).setWidth 64 := by
  have hen : v &&& 0x80000000 = 0x80000000 := (BitVec.and_twoPow v 31).trans (if_pos hv)
  calc ((v &&& 0x40ff001f).setWidth 64 ||| 0x80000000 : DWord) = (v &&& 0x40ff001f ||| v &&& 0x80000000).setWidth 64 := by
        rw [hen, BitVec.setWidth_or]; rfl
    _ = (v &&& 0xc0ff001f).setWidth 64 := by rw [← BitVec.and_or_distrib_left]; rfl

/-! Memory zeroed by the device. -/

theorem rd_filter_of_neg {k : Nat} {m : Sparse k} {keep : Nat × BitVec k → Bool} {a : Nat} (h : ∀ u, keep (a, u) = false) :
    rd (m.filter keep) a = 0 := by
  induction m with
  | nil => rfl
  | cons c m ih => grind [rd]

theorem rd_filter_of_pos {k : Nat} {m : Sparse k} {keep : Nat × BitVec k → Bool} {a : Nat} (h : ∀ u, keep (a, u) = true) :
    rd (m.filter keep) a = rd m a := by
  induction m with
  | nil => rfl
  | cons c m ih => grind [rd]

theorem zeroRange_rd_in {pa a : Nat} (h : pa ≤ a) (h' : a < pa + n) : rd (s.zeroRange pa n).mem a = 0 :=
  rd_filter_of_neg fun _ => by simp [h, h']

theorem zeroRange_rd_out {pa a : Nat} (h : a < pa ∨ pa + n ≤ a) : rd (s.zeroRange pa n).mem a = rd s.mem a := by
  have hout : ¬ (pa ≤ a ∧ a < pa + n) := by omega
  exact rd_filter_of_pos fun _ => by simp only [hout, decide_false, Bool.not_false]

/-! The registers of a partition (R386, R387, R406 to R410). -/

theorem hasLaunch_eq_false (h : ∀ l ∈ s.launches, l.part ≠ p) : s.hasLaunch p = false := by
  simpa [State.hasLaunch] using h

theorem hasLaunch_of_mem {l : Launch} (hl : l ∈ s.launches) (h : l.part = p) : s.hasLaunch p = true :=
  List.any_eq_true.mpr ⟨l, hl, by simpa using h⟩

theorem vtbaseWrite_of_free (h : s.hasLaunch p = false) :
    vtbaseWrite p w s = (s.setPr p 0x5500 (w &&& 0xffffff8001)).invBegin p .views (.viewTableFillComplete p) := by
  simp only [vtbaseWrite, h, Bool.false_eq_true, if_false]

theorem vtbaseWrite_of_launch (h : s.hasLaunch p = true) : vtbaseWrite p w s = s := by
  simp only [vtbaseWrite, h, if_true]

theorem ractlWrite_of_launch (h : s.hasLaunch p = true) : ractlWrite p d v s = s := by
  simp only [ractlWrite, h, if_true]

theorem ractlWrite_of_enable (h : s.hasLaunch p = false) (hv : v.getLsbD 31 = true) (ho : (s.pr p (0x5408 + 16 * d)).getLsbD 31 = false) :
    ractlWrite p d v s = State.push { s.setPr p (0x5408 + 16 * d) ((v &&& 0xfffff).setWidth 64 ||| 0xc0000000) with
      areas := s.areas.filter (fun a => !(a.part == p && a.die == d))
        ++ [{ part := p, die := d, enabled := true, busy := true, slots := (v &&& 0xfffff).toNat + 1, gens := [] }] }
      (.relayAreaFillComplete p d) := by
  have hslots : ((v &&& 0xfffff).setWidth 64).toNat = (v &&& 0xfffff).toNat :=
    BitVec.toNat_setWidth_of_le (by decide)
  simp only [ractlWrite, h, hv, ho, hslots, Bool.false_eq_true, if_false, Bool.not_false, Bool.and_self, if_true, State.setPr_areas]

@[simp] theorem invBegin_stat {o : InvOp} : (s.invBegin p o e).pr p 0x5018 = 0x80000000 :=
  State.pr_setPr_same (s := s) (p := p) (off := 0x5018) (x := 0x80000000)

theorem invBegin_pr {o : InvOp} (h : off ≠ 0x5018) : (s.invBegin p o e).pr p off = s.pr p off :=
  State.pr_setPr_other (s := s) (p := p) (x := 0x80000000) h.symm

theorem setPr_invBegin_frame {o : InvOp} : ((s.setPr p off x).invBegin p o e).tick =
    { s with preg := ((s.setPr p off x).invBegin p o e).tick.preg, invBusy := s.invBusy ++ [(p, o)], agenda := s.agenda ++ [e],
             cycle := s.cycle + 1 } := by
  simp only [State.tick, State.invBegin, State.push, State.setPr]

/-- The end of an operation changes INVSTAT and the list of operations alone. -/
theorem invEnd_frame {o : InvOp} : s.invEnd p o = { s with preg := (s.invEnd p o).preg, invBusy := s.invBusy.erase (p, o) } := by
  unfold State.invEnd
  dsimp only
  split <;> rfl

theorem invEnd_invBusy {o : InvOp} : (s.invEnd p o).invBusy = s.invBusy.erase (p, o) := by rw [invEnd_frame]

theorem invEnd_mem {o : InvOp} : (s.invEnd p o).mem = s.mem := by rw [invEnd_frame]

theorem invEnd_tlb {o : InvOp} : (s.invEnd p o).tlb = s.tlb := by rw [invEnd_frame]

theorem invEnd_walks {o : InvOp} : (s.invEnd p o).walks = s.walks := by rw [invEnd_frame]

theorem invEnd_masks {o : InvOp} : (s.invEnd p o).masks = s.masks := by rw [invEnd_frame]

/-- BUSY clears with the last operation of the partition (R406). -/
theorem invEnd_stat {o : InvOp} (h : ∀ y ∈ (s.invEnd p o).invBusy, y.1 ≠ p) : (s.invEnd p o).pr p 0x5018 = 0 := by
  rw [invEnd_invBusy] at h
  have hlast : ((s.invBusy.erase (p, o)).any fun x => x.1 == p) = false := by simpa using h
  simp only [State.invEnd, hlast, Bool.false_eq_true, if_false]
  exact State.pr_setPr_same

theorem viewTableFillComplete_of_busy (hb : (p, InvOp.views) ∈ s.invBusy)
    (ho : s.ownerOf (s.chip.toNat * 2 ^ 42 + bitsN (s.pr p 0x5500).toNat 39 15 * 32768) = some p) :
    viewTableFillComplete p s =
      (s.zeroRange (s.chip.toNat * 2 ^ 42 + bitsN (s.pr p 0x5500).toNat 39 15 * 32768) 32768).invEnd p .views := by
  simp only [viewTableFillComplete, List.contains_iff_mem.mpr hb, Bool.not_true, Bool.false_eq_true, if_false, ho, BEq.rfl, if_true]

theorem prtbaseWrite_base (h : (s.pr p 0x5018).getLsbD 31 = false) : prtbaseWrite p false w s =
    (s.setPr p 0x5300 (w &&& 0xfffffff000)).invBegin p (.table (s.pr p 0x5300) (s.pr p 0x5308)) (.invalidationComplete p) := by
  simp only [prtbaseWrite, State.invStat, h, Bool.false_eq_true, if_false]

theorem prtbaseWrite_ctl (h : (s.pr p 0x5018).getLsbD 31 = false) : prtbaseWrite p true w s =
    (s.setPr p 0x5308 (w &&& 0xffff)).invBegin p (.table (s.pr p 0x5300) (s.pr p 0x5308)) (.invalidationComplete p) := by
  simp only [prtbaseWrite, State.invStat, h, Bool.false_eq_true, if_false, if_true]

theorem prtbaseWrite_of_busy {c : Bool} (h : (s.pr p 0x5018).getLsbD 31 = true) : prtbaseWrite p c w s = s := by
  simp only [prtbaseWrite, State.invStat, h, if_true]

theorem prinv_of_free (h : (s.pr p 0x5018).getLsbD 31 = false) : prinv p v s =
    (s.setPr p 0x5010 (v &&& 0xffff).toNat).invBegin p (.principal (v.setWidth 16)) (.invalidationComplete p) := by
  simp only [prinv, State.invStat, h, Bool.false_eq_true, if_false]

theorem prinv_of_busy (h : (s.pr p 0x5018).getLsbD 31 = true) : prinv p v s = s := by
  simp only [prinv, State.invStat, h, if_true]

/-- SPAN lies below the reserved bits of TLBINV. -/
theorem tlbinv_span : bitsN (w &&& 0xffffffffff03ff).toNat 7 0 = bitsN w.toNat 7 0 := by
  have hlow (x : DWord) : bitsN x.toNat 7 0 = (x.setWidth 8).toNat := by simp [bitsN]
  rw [hlow, hlow, BitVec.setWidth_and]
  exact congrArg BitVec.toNat BitVec.and_allOnes

theorem tlbinv_of_span (h : (s.pr p 0x5018).getLsbD 31 = false) (hw : bitsN w.toNat 7 0 ≤ 40) : tlbinv p w s =
    (s.setPr p 0x5008 (w &&& 0xffffffffff03ff)).invBegin p (.tlb (w &&& 0xffffffffff03ff)) (.invalidationComplete p) := by
  simp only [tlbinv, State.invStat, h, tlbinv_span, Nat.not_lt.mpr hw, Bool.false_eq_true, if_false]

theorem tlbinv_of_bad_span (h : (s.pr p 0x5018).getLsbD 31 = false) (hw : 40 < bitsN w.toNat 7 0) :
    tlbinv p w s = (s.setPr p 0x5008 (w &&& 0xffffffffff03ff)).setPr p 0x5018 2 := by
  simp only [tlbinv, State.invStat, h, tlbinv_span, hw, Bool.false_eq_true, if_false, if_true]

theorem tlbinv_of_busy (h : (s.pr p 0x5018).getLsbD 31 = true) : tlbinv p w s = s := by
  simp only [tlbinv, State.invStat, h, if_true]

/-! What an invalidation drops (R406 to R410). -/

/-- What a fold of steps cannot change. -/
theorem foldl_keeps {α β : Type} {g : State → β} {step : State → α → State} (h : ∀ s a, g (step s a) = g s) (l : List α) (s : State) :
    g (l.foldl step s) = g s := by
  induction l generalizing s with
  | nil => rfl
  | cons a l ih => exact (ih _).trans (h s a)

/-- The TLBs and the walk caches. -/
def State.translations (s : State) : List TlbEntry × List WalkEntry := (s.tlb, s.walks)

theorem sendWb_translations {core th cells nt key cmt bad} : (s.sendWb core th cells nt key cmt bad).translations = s.translations := by
  unfold State.sendWb
  split <;> rfl

theorem flush_translations {core keep} : (s.flush core keep).translations = s.translations :=
  foldl_keeps (fun _ _ => sendWb_translations) ..

/-- Cached lines may leave: translations stay. -/
theorem dropLines_translations : (s.dropLines p).translations = s.translations := by
  refine (foldl_keeps (g := State.translations) ?_ ..).trans (foldl_keeps (g := State.translations) ?_ ..)
  · exact fun _ _ => rfl
  · exact fun _ _ => flush_translations

theorem invDo_tlb_translations : (s.invDo p (.tlb w)).translations =
    (s.tlb.filter (fun e => !tlbMeets p w e), s.walks.filter fun k => !walkMeets p w k) := by
  simp only [State.invDo]
  split
  · exact dropLines_translations
  · rfl

theorem invDo_tlb {o : InvOp} : (s.invDo p o).tlb = match o with | .tlb w => s.tlb.filter (fun e => !tlbMeets p w e) | _ => s.tlb := by
  cases o with
  | tlb w => exact congrArg Prod.fst invDo_tlb_translations
  | principal k => rfl
  | table base ctl => rfl
  | views => rfl

section
variable {o : InvOp} (h : ∀ w, o = .tlb w → w.getLsbD 9 = false)
include h

/-- An invalidation that drops no cached lines changes the translation caches and the masks alone. -/
theorem invDo_frame : s.invDo p o = { s with tlb := (s.invDo p o).tlb, walks := (s.invDo p o).walks, masks := (s.invDo p o).masks } := by
  cases o with
  | tlb w => simp only [State.invDo, h w rfl, Bool.false_eq_true, if_false]
  | principal k => rfl
  | table base ctl => rfl
  | views => rfl

theorem invDo_masks : (s.invDo p o).masks = match (generalizing := false) o with
    | .principal k => s.masks.filter (fun m => !(m.part == p && m.principal == k))
    | .table .. => s.masks.filter (fun m => m.part != p)
    | _ => s.masks := by
  cases o with
  | tlb w => simp only [State.invDo, h w rfl, Bool.false_eq_true, if_false]
  | principal k => rfl
  | table base ctl => rfl
  | views => rfl

end

theorem invalidationComplete_of_find {o : InvOp} (h : s.invBusy.find? (fun x => x.1 == p && !isViews x.2) = some (p, o)) :
    invalidationComplete p s = (s.invDo p o).invEnd p o := by
  simp only [invalidationComplete, h]

/-! The fill of a relay area (R386). -/

/-- Steps asked for one after another. -/
theorem foldl_push {α : Type} {l : List α} {ev : α → Ev} :
    l.foldl (fun t k => t.push (ev k)) s = { s with agenda := s.agenda ++ l.map ev } := by
  induction l generalizing s with
  | nil => simp
  | cons k l ih =>
    rw [List.foldl_cons, ih]
    simp only [State.push, List.append_assoc, List.singleton_append, List.map_cons]

theorem zeroRange_zero {pa : Nat} : s.zeroRange pa 0 = s := by
  have hnone (a : Nat) : ¬ (pa ≤ a ∧ a < pa + 0) := by omega
  simp only [State.zeroRange, hnone, decide_false, Bool.not_false, List.filter_true]

/-- An area zeroed and ready to take records: the busy bit of its RACTL is clear. -/
def State.areaFilled (s : State) (p : BitVec 6) (d pa n : Nat) : State :=
  ((s.zeroRange pa n).areaMod p d fun a => { a with busy := false }).setPr p (0x5408 + 16 * d) (s.pr p (0x5408 + 16 * d) &&& 0xbfffffff)

theorem areaFilled_busy {pa n : Nat} : ((s.areaFilled p d pa n).pr p (0x5408 + 16 * d)).getLsbD 30 = false := by
  simp [State.areaFilled]

theorem areaFilled_areas {pa n : Nat} :
    (s.areaFilled p d pa n).areas = s.areas.map fun y => if y.part = p ∧ y.die = d then { y with busy := false } else y := by
  simp [State.areaFilled, State.areaMod, State.zeroRange]

/-- An area of at most 1024 slots lies in one piece of 64 KiB. -/
theorem relayAreaFillComplete_of_find {a : RelayArea} {l : Xl × Fill}
    (ha : s.areas.find? (fun a => a.part == p && a.die == d && a.enabled && a.busy) = some a) (hk : a.slots ≤ 1024)
    (hl : s.lookup (.die d) p (s.pr p (0x5400 + 16 * d)).toNat = .ok l) (ho : s.ownerOf l.1.pa = some p) :
    relayAreaFillComplete p d s = { s.areaFilled p d l.1.pa (64 * a.slots) with agenda := s.agenda
      ++ (s.launches.filter fun k => k.part == p && k.paused.any fun x => x.1 == d).map fun k => .recordGenerationResume k.id d } := by
  simp only [relayAreaFillComplete, ha, foldl_push]
  obtain h0 | h1 : a.slots = 0 ∨ (64 * a.slots + 65535) / 65536 = 1 := by omega
  · simp only [h0, State.areaFilled, Nat.mul_zero, zeroRange_zero]
    rfl
  · have hmin : min 65536 (64 * a.slots - 65536 * 0) = 64 * a.slots := by omega
    simp only [h1, List.range_one, List.foldl_cons, List.foldl_nil, Nat.mul_zero, Nat.add_zero, hl, ho, BEq.rfl, if_true, hmin]
    rfl

/-! Writes to the register windows (R7, R396). -/

theorem execRegisterWrite_of_not_lead {o : BitVec 16} (ho : 0x4000 ≤ o.toNat) (ho' : o.toNat < 0x6000) (hp : s.vfPartOf f = some p)
    (hl : s.leadFn p ≠ some (.vf f)) : execRegisterWrite (.vf f) o w s = .next s.tick := by
  have hlead : (s.leadFn p == some (.vf f)) = false := by simpa using hl
  simp only [execRegisterWrite, ho, ho', decide_true, Bool.and_self, if_true, hp, hlead, Bool.false_eq_true, if_false, noWrite]

theorem execRegisterWrite_of_lead {o : BitVec 16} (ho : 0x4000 ≤ o.toNat) (ho' : o.toNat < 0x6000) (hp : s.vfPartOf f = some p)
    (hl : s.leadFn p = some (.vf f)) : execRegisterWrite (.vf f) o w s = partWrite p o.toNat w s := by
  simp only [execRegisterWrite, ho, ho', decide_true, Bool.and_self, if_true, hp, hl, BEq.rfl]

theorem execRegisterWrite_partSel : execRegisterWrite .pf 0x3300 w s = .next (State.tick { s with partSel := w.setWidth 6 }) := rfl
theorem execRegisterWrite_frameSel : execRegisterWrite .pf 0x3200 w s = .next (State.tick { s with frameSel := w &&& 0xffffe00000 }) := rfl
theorem execRegisterWrite_pto : execRegisterWrite (.vf f) 0x10 w s = .next (s.setFr f 0x10 (w &&& 0xffffffff)).tick := rfl
theorem execRegisterWrite_arg : execRegisterWrite (.vf f) 0x108 w s = .next (s.setFr f 0x108 (w &&& 0xffffffffffffffff)).tick := rfl
theorem partWrite_faultBase : partWrite p 0x5100 w s = .next (s.setPr p 0x5100 (w &&& 0xffffffffffffffe0)).tick := rfl

end Sys2Proof.Machine
namespace Sys2Proof
open Machine

variable {s : State} {f q off d : Nat} {p : BitVec 6} {v : Word} {w : DWord}

/-! Doorbells and SQCTL. -/

theorem goes_sqtailWrite_room (ho : s.hostOpen (.sqtailWrite f q v) = false)
    (hen : (s.fr f (sqCtl q)).getLsbD 31 = true) (hv : v.toNat < s.sqSize f q)
    (hr : ((s.fr f (sqTail q)).toNat + s.sqSize f q - (s.fr f (sqHead q)).toNat) % s.sqSize f q
      ≤ (v.toNat + s.sqSize f q - (s.fr f (sqHead q)).toNat) % s.sqSize f q) :
    Goes (.sqtailWrite f q v) s fun t =>
      t = { s with freg := t.freg, hostHeld := s.hostHeld.erase (.sqtailWrite f q v), agenda := s.agenda ++ [.launchPacket f q],
                   cycle := s.cycle + 1 }
        ∧ t.fr f (sqTail q) = v.setWidth 64 := by
  unfold Goes
  rw [exec_sqtailWrite, afterHost_of_not_open ho, sqtailWrite_of_room]
  · exact ⟨_, rfl, by simp only [State.tick, State.push, State.setFr], by simp⟩
  · exact hen
  · exact hv
  · exact hr

theorem goes_sqtailWrite_large (ho : s.hostOpen (.sqtailWrite f q v) = false)
    (hen : (s.fr f (sqCtl q)).getLsbD 31 = true) (hv : s.sqSize f q ≤ v.toNat) :
    Goes (.sqtailWrite f q v) s fun t =>
      t = { s with freg := t.freg, hostHeld := s.hostHeld.erase (.sqtailWrite f q v), cycle := s.cycle + 1 }
        ∧ (t.fr f (sqCtl q)).getLsbD 31 = false ∧ (t.fr f (sqCtl q)).getLsbD 29 = true := by
  unfold Goes
  rw [exec_sqtailWrite, afterHost_of_not_open ho, sqtailWrite_of_large]
  · exact ⟨_, rfl, rfl, sqError_en, sqError_err⟩
  · exact hen
  · exact hv

theorem goes_sqctlWrite_en (hv : v.getLsbD 31 = true)
    (h : (s.fr f (sqCtl q)).getLsbD 31 = false ∨ bitsN v.toNat 4 0 = 0 ∨ 16 < bitsN v.toNat 4 0) :
    Goes (.sqctlWrite f q v) s fun t => t = { s with freg := t.freg, cycle := s.cycle + 1 }
      ∧ (1 ≤ bitsN v.toNat 4 0 → bitsN v.toNat 4 0 ≤ 16 →
          t.fr f (sqHead q) = 0 ∧ t.fr f (sqTail q) = 0 ∧ t.fr f (sqCtl q) = ((v &&& 0xc0ff001f).setWidth 64 : DWord))
      ∧ ((bitsN v.toNat 4 0 = 0 ∨ 16 < bitsN v.toNat 4 0) → t.fr f (sqCtl q) = ((v &&& 0x40ff001f).setWidth 64 : DWord) ||| 0x20000000
          ∧ t.fr f (sqHead q) = s.fr f (sqHead q) ∧ t.fr f (sqTail q) = s.fr f (sqTail q)) := by
  unfold Goes
  by_cases hz : bitsN v.toNat 4 0 = 0 ∨ 16 < bitsN v.toNat 4 0
  · rw [exec_sqctlWrite, sqctlWrite_of_bad_size hv hz]
    exact ⟨_, rfl, rfl, fun _ _ => by omega,
      fun _ => by simp [State.fr_setFr_other (sqCtl_ne_sqHead q), State.fr_setFr_other (sqCtl_ne_sqTail q)]⟩
  · rw [exec_sqctlWrite, sqctlWrite_of_enable hv (by omega) (by omega) (h.resolve_right hz), sqctl_fields_en hv]
    refine ⟨_, rfl, by simp only [State.tick, State.setFr], fun _ _ => ?_, fun hbad => absurd hbad hz⟩
    simp [State.fr_setFr_other (sqTail_ne_sqHead q), State.fr_setFr_other (sqCtl_ne_sqTail q).symm, State.fr_setFr_other (sqCtl_ne_sqHead q).symm]

theorem goes_sqctlWrite_disable (hv : v.getLsbD 31 = false) :
    Goes (.sqctlWrite f q v) s fun t => t = { s with freg := t.freg, cycle := s.cycle + 1 } ∧ (t.fr f (sqCtl q)).getLsbD 31 = false
      ∧ t.fr f (sqHead q) = s.fr f (sqHead q) ∧ t.fr f (sqTail q) = s.fr f (sqTail q) := by
  unfold Goes
  rw [exec_sqctlWrite, sqctlWrite_of_disable hv]
  exact ⟨_, rfl, rfl, by simp [State.fr_setFr_other (sqCtl_ne_sqHead q), State.fr_setFr_other (sqCtl_ne_sqTail q)]⟩

/-! A register write that waits for the host's writes before it. -/

theorem goes_afterHost {i : Instr} {e : Ev} {g : State → State} (hi : exec i s = .next (afterHost e g s).tick) (ho : s.hostOpen e = true) :
    Goes i s fun t =>
      t = { s with hostHeld := if e ∈ s.hostHeld then s.hostHeld else s.hostHeld ++ [e], agenda := s.agenda ++ [e], cycle := s.cycle + 1 } := by
  unfold Goes
  rw [hi, afterHost_of_open ho]
  exact ⟨_, rfl, rfl⟩

/-! Relay areas, the view table, the principal table and invalidations. -/

theorem goes_vtbaseWrite (h : ∀ x ∈ s.launches, x.part ≠ p) :
    Goes (.vtbaseWrite p w) s fun t => t.pr p 0x5500 = w &&& 0xffffff8001 ∧ t.pr p 0x5018 = 0x80000000
      ∧ t = { s with preg := t.preg, invBusy := s.invBusy ++ [(p, .views)], agenda := s.agenda ++ [.viewTableFillComplete p],
                     cycle := s.cycle + 1 } := by
  unfold Goes
  rw [exec_vtbaseWrite, vtbaseWrite_of_free (hasLaunch_eq_false h)]
  exact ⟨_, rfl, by simp [invBegin_pr], by simp, setPr_invBegin_frame⟩

theorem goes_viewTableFillComplete {a : Nat} (hb : (p, InvOp.views) ∈ s.invBusy)
    (ha : a = s.chip.toNat * 2 ^ 42 + bitsN (s.pr p 0x5500).toNat 39 15 * 32768) (ho : s.ownerOf a = some p) :
    Goes (.viewTableFillComplete p) s fun t => (∀ x, a ≤ x → x < a + 32768 → rd t.mem x = 0)
      ∧ (∀ x, (x < a ∨ a + 32768 ≤ x) → rd t.mem x = rd s.mem x) ∧ t.invBusy = s.invBusy.erase (p, .views)
      ∧ ((∀ y ∈ t.invBusy, y.1 ≠ p) → t.pr p 0x5018 = 0) := by
  subst ha
  unfold Goes
  rw [exec_viewTableFillComplete, viewTableFillComplete_of_busy hb ho]
  refine ⟨_, rfl, fun x h1 h2 => ?_, fun x h => ?_, invEnd_invBusy, invEnd_stat⟩
  · rw [State.tick_mem, invEnd_mem, zeroRange_rd_in h1 h2]
  · rw [State.tick_mem, invEnd_mem, zeroRange_rd_out h]

theorem goes_prtbaseWrite_base (h : (s.pr p 0x5018).getLsbD 31 = false) :
    Goes (.prtbaseWrite p false w) s fun t => t.pr p 0x5300 = w &&& 0xfffffff000 ∧ t.pr p 0x5018 = 0x80000000
      ∧ t = { s with preg := t.preg, invBusy := s.invBusy ++ [(p, .table (s.pr p 0x5300) (s.pr p 0x5308))],
                     agenda := s.agenda ++ [.invalidationComplete p], cycle := s.cycle + 1 } := by
  unfold Goes
  rw [exec_prtbaseWrite, prtbaseWrite_base h]
  exact ⟨_, rfl, by simp [invBegin_pr], by simp, setPr_invBegin_frame⟩

theorem goes_prtbaseWrite_ctl (h : (s.pr p 0x5018).getLsbD 31 = false) :
    Goes (.prtbaseWrite p true w) s fun t => t.pr p 0x5308 = w &&& 0xffff ∧ t.pr p 0x5018 = 0x80000000
      ∧ t = { s with preg := t.preg, invBusy := s.invBusy ++ [(p, .table (s.pr p 0x5300) (s.pr p 0x5308))],
                     agenda := s.agenda ++ [.invalidationComplete p], cycle := s.cycle + 1 } := by
  unfold Goes
  rw [exec_prtbaseWrite, prtbaseWrite_ctl h]
  exact ⟨_, rfl, by simp [invBegin_pr], by simp, setPr_invBegin_frame⟩

theorem goes_tlbinv (h : (s.pr p 0x5018).getLsbD 31 = false) (ho : s.hostOpen (.tlbinv p w) = false) (hw : bitsN w.toNat 7 0 ≤ 40) :
    Goes (.tlbinv p w) s fun t => t.pr p 0x5018 = 0x80000000 ∧ Ev.invalidationComplete p ∈ t.agenda ∧ t.tlb = s.tlb
      ∧ t.invBusy = s.invBusy ++ [(p, .tlb (w &&& 0xffffffffff03ff))] := by
  unfold Goes
  rw [exec_tlbinv, afterHost_of_not_open ho, tlbinv_of_span]
  · exact ⟨_, rfl, by simp, List.mem_append_right _ (List.mem_singleton_self _), rfl, rfl⟩
  · exact h
  · exact hw

theorem goes_tlbinv_bad_span (h : (s.pr p 0x5018).getLsbD 31 = false) (ho : s.hostOpen (.tlbinv p w) = false) (hw : 40 < bitsN w.toNat 7 0) :
    Goes (.tlbinv p w) s fun t =>
      t = { s with preg := t.preg, hostHeld := s.hostHeld.erase (.tlbinv p w), cycle := s.cycle + 1 } ∧ t.pr p 0x5018 = 2 := by
  unfold Goes
  rw [exec_tlbinv, afterHost_of_not_open ho, tlbinv_of_bad_span]
  · exact ⟨_, rfl, by simp only [State.tick, State.setPr], by simp⟩
  · exact h
  · exact hw

theorem goes_prinv (h : (s.pr p 0x5018).getLsbD 31 = false) (ho : s.hostOpen (.prinv p v) = false) :
    Goes (.prinv p v) s fun t => t.pr p 0x5018 = 0x80000000
      ∧ t = { s with preg := t.preg, hostHeld := s.hostHeld.erase (.prinv p v), invBusy := s.invBusy ++ [(p, .principal (v.setWidth 16))],
                     agenda := s.agenda ++ [.invalidationComplete p], cycle := s.cycle + 1 } := by
  unfold Goes
  rw [exec_prinv, afterHost_of_not_open ho, prinv_of_free]
  · exact ⟨_, rfl, by simp, setPr_invBegin_frame⟩
  · exact h

theorem exec_tlbinv_of_busy (h : (s.pr p 0x5018).getLsbD 31 = true) (ho : s.hostOpen (.tlbinv p w) = false) :
    exec (.tlbinv p w) s = .next { s with hostHeld := s.hostHeld.erase (.tlbinv p w), cycle := s.cycle + 1 } := by
  rw [exec_tlbinv, afterHost_of_not_open ho, tlbinv_of_busy]
  · rfl
  · exact h

theorem exec_prinv_of_busy (h : (s.pr p 0x5018).getLsbD 31 = true) (ho : s.hostOpen (.prinv p v) = false) :
    exec (.prinv p v) s = .next { s with hostHeld := s.hostHeld.erase (.prinv p v), cycle := s.cycle + 1 } := by
  rw [exec_prinv, afterHost_of_not_open ho, prinv_of_busy]
  · rfl
  · exact h

theorem goes_invalidationComplete {o : InvOp} (hf : s.invBusy.find? (fun x => x.1 == p && !isViews x.2) = some (p, o))
    (hl : ∀ v, o = .tlb v → v.getLsbD 9 = false) : Goes (.invalidationComplete p) s fun t =>
      t = { s with tlb := t.tlb, walks := t.walks, masks := t.masks, preg := t.preg, invBusy := s.invBusy.erase (p, o), cycle := s.cycle + 1 }
        ∧ t.tlb = (match (generalizing := false) o with | .tlb v => s.tlb.filter (fun e => !tlbMeets p v e) | _ => s.tlb)
        ∧ t.masks = (match (generalizing := false) o with
            | .principal q => s.masks.filter (fun m => !(m.part == p && m.principal == q))
            | .table .. => s.masks.filter (fun m => m.part != p)
            | _ => s.masks)
        ∧ ((∀ y ∈ t.invBusy, y.1 ≠ p) → t.pr p 0x5018 = 0) := by
  unfold Goes
  rw [exec_invalidationComplete, invalidationComplete_of_find hf]
  refine ⟨_, rfl, ?_, invEnd_tlb.trans invDo_tlb, invEnd_masks.trans (invDo_masks hl), invEnd_stat⟩
  rw [invEnd_frame, invDo_frame hl]
  rfl

/-- What a TLBINV drops, whether or not cached lines go with it. -/
theorem goes_invalidationComplete_translations (hf : s.invBusy.find? (fun x => x.1 == p && !isViews x.2) = some (p, .tlb w)) :
    Goes (.invalidationComplete p) s fun t =>
      t.tlb = s.tlb.filter (fun e => !tlbMeets p w e) ∧ t.walks = s.walks.filter fun k => !walkMeets p w k := by
  obtain ⟨htlb, hwalks⟩ := Prod.mk.inj (invDo_tlb_translations (s := s) (p := p) (w := w))
  unfold Goes
  rw [exec_invalidationComplete, invalidationComplete_of_find hf]
  exact ⟨_, rfl, invEnd_tlb.trans htlb, invEnd_walks.trans hwalks⟩

theorem goes_ractlWrite_enable (h : ∀ x ∈ s.launches, x.part ≠ p) (hv : v.getLsbD 31 = true)
    (ho : (s.pr p (0x5408 + 16 * d)).getLsbD 31 = false) :
    Goes (.ractlWrite p d v) s fun t => Ev.relayAreaFillComplete p d ∈ t.agenda
      ∧ t.pr p (0x5408 + 16 * d) = ((v &&& 0xfffff).setWidth 64 : DWord) ||| 0xc0000000
      ∧ t.areas = s.areas.filter (fun a => !(a.part == p && a.die == d))
          ++ [{ part := p, die := d, enabled := true, busy := true, slots := (v &&& 0xfffff).toNat + 1, gens := [] }] := by
  unfold Goes
  rw [exec_ractlWrite, ractlWrite_of_enable (hasLaunch_eq_false h) hv ho]
  exact ⟨_, rfl, List.mem_append_right _ (List.mem_singleton_self _), rd_wr_same .., rfl⟩

theorem goes_relayAreaFillComplete {a : RelayArea} {x : Xl} {e : Fill}
    (ha : s.areas.find? (fun a => a.part == p && a.die == d && a.enabled && a.busy) = some a) (hk : a.slots ≤ 1024)
    (hl : s.lookup (.die d) p (s.pr p (0x5400 + 16 * d)).toNat = .ok (x, e)) (ho : s.ownerOf x.pa = some p) :
    Goes (.relayAreaFillComplete p d) s fun t => (∀ k < 64 * a.slots, rd t.mem (x.pa + k) = 0)
      ∧ (∀ y, (y < x.pa ∨ x.pa + 64 * a.slots ≤ y) → rd t.mem y = rd s.mem y)
      ∧ (t.pr p (0x5408 + 16 * d)).getLsbD 30 = false
      ∧ t.areas = s.areas.map (fun y => if y.part = p ∧ y.die = d then { y with busy := false } else y) := by
  unfold Goes
  rw [exec_relayAreaFillComplete, relayAreaFillComplete_of_find ha hk hl ho]
  refine ⟨_, rfl, fun k hk => ?_, fun y hy => ?_, ?_, ?_⟩
  · exact zeroRange_rd_in (Nat.le_add_right ..) (Nat.add_lt_add_left hk _)
  · exact zeroRange_rd_out hy
  · exact areaFilled_busy
  · exact areaFilled_areas

/-! Writes to the windows. -/

theorem goes_registerWrite_partSel : Goes (.registerWrite .pf 0x3300 w) s fun t =>
    t = { s with partSel := w.setWidth 6, cycle := s.cycle + 1 } ∧ t.regRead .pf 0x3300 = w &&& 63 := by
  refine ⟨_, exec_registerWrite.trans execRegisterWrite_partSel, rfl, ?_⟩
  show (w.setWidth 6).setWidth 64 = w &&& 63
  have hlow : w.toNat % 64 < 2 ^ 64 := by omega
  exact BitVec.eq_of_toNat_eq (by simpa [Nat.and_two_pow_sub_one_eq_mod w.toNat 6] using hlow)

theorem goes_registerWrite_frameSel : Goes (.registerWrite .pf 0x3200 w) s fun t =>
    t = { s with frameSel := w &&& 0xffffe00000, cycle := s.cycle + 1 } ∧ t.regRead .pf 0x3200 = w &&& 0xffffe00000 :=
  ⟨_, exec_registerWrite.trans execRegisterWrite_frameSel, rfl, rfl⟩

theorem goes_registerWrite_pto : Goes (.registerWrite (.vf f) 0x10 w) s fun t =>
    t.fr f 0x10 = w &&& 0xffffffff ∧ t = { s with freg := t.freg, cycle := s.cycle + 1 } :=
  ⟨_, exec_registerWrite.trans execRegisterWrite_pto, State.fr_setFr_same, rfl⟩

theorem goes_registerWrite_arg : Goes (.registerWrite (.vf f) 0x108 w) s fun t =>
    t.fr f 0x108 = w ∧ t = { s with freg := t.freg, cycle := s.cycle + 1 } :=
  ⟨_, exec_registerWrite.trans execRegisterWrite_arg, State.fr_setFr_same.trans BitVec.and_allOnes, rfl⟩

theorem goes_registerWrite_not_lead (hp : s.vfPartOf f = some p) (hl : s.leadFn p ≠ some (.vf f)) (h1 : 0x4000 ≤ off) (h2 : off < 0x6000) :
    Goes (.registerWrite (.vf f) (BitVec.ofNat 16 off) w) s fun t => t = { s with cycle := s.cycle + 1 } := by
  have hoff : (BitVec.ofNat 16 off).toNat = off := Nat.mod_eq_of_lt (by omega)
  exact ⟨_, exec_registerWrite.trans (execRegisterWrite_of_not_lead (by omega) (by omega) hp hl), rfl⟩

theorem goes_registerWrite_faultBase (hp : s.vfPartOf f = some p) (hl : s.leadFn p = some (.vf f)) :
    Goes (.registerWrite (.vf f) 0x5100 w) s fun t =>
      t.pr p 0x5100 = w &&& 0xffffffffffffffe0 ∧ t = { s with preg := t.preg, cycle := s.cycle + 1 } :=
  ⟨_, exec_registerWrite.trans ((execRegisterWrite_of_lead (by decide) (by decide) hp hl).trans partWrite_faultBase), State.pr_setPr_same, rfl⟩

/-- Settles O58: each write by the lemma about its own step. -/
theorem registerSteps : Obligations.RegisterSteps := by
  unfold Obligations.RegisterSteps
  refine ⟨?doorbells, ?held, ?partition, ?windows⟩
  case doorbells =>
    rintro f q v s _ rfl
    refine ⟨fun ho => ⟨fun hen => ?_, goes_sqtailWrite_room ho, goes_sqtailWrite_large ho⟩, goes_sqctlWrite_en, goes_sqctlWrite_disable⟩
    rw [exec_sqtailWrite, afterHost_of_not_open ho, sqtailWrite_of_disabled]
    · rfl
    · exact hen
  case held =>
    intro f q p v w s x hx ho
    simp only [List.mem_cons, List.not_mem_nil, or_false] at hx
    obtain rfl | rfl | rfl | rfl := hx
    · exact goes_afterHost exec_sqtailWrite ho
    · exact goes_afterHost exec_prinv ho
    · exact goes_afterHost exec_tlbinv ho
    · exact goes_afterHost exec_faultHeadWrite ho
  case partition =>
    intro p s
    refine ⟨fun h v => goes_vtbaseWrite h, fun x hx hp v d w => ⟨?_, ?_⟩, fun a => goes_viewTableFillComplete,
      fun h => ⟨fun v => ⟨goes_prtbaseWrite_base h, goes_prtbaseWrite_ctl h, goes_tlbinv h, goes_tlbinv_bad_span h⟩, fun v => goes_prinv h⟩,
      fun h v w c => ⟨?_, exec_tlbinv_of_busy h, exec_prinv_of_busy h⟩, fun o => goes_invalidationComplete, fun v e hf he hm => ?_,
      fun v k hf hk hm => ?_, fun d v _ => goes_ractlWrite_enable, fun d a _ ha hk x e => goes_relayAreaFillComplete ha hk⟩
    · rw [exec_vtbaseWrite, vtbaseWrite_of_launch (hasLaunch_of_mem hx hp)]; rfl
    · rw [exec_ractlWrite, ractlWrite_of_launch (hasLaunch_of_mem hx hp)]; rfl
    · rw [exec_prtbaseWrite, prtbaseWrite_of_busy h]; rfl
    · obtain ⟨t, ht, htlb, -⟩ := goes_invalidationComplete_translations hf
      exact ⟨t, ht, by simp [htlb, hm]⟩
    · obtain ⟨t, ht, -, hwalks⟩ := goes_invalidationComplete_translations hf
      exact ⟨t, ht, by simp [hwalks, hm]⟩
  case windows =>
    exact fun v s => ⟨goes_registerWrite_partSel, goes_registerWrite_frameSel, fun f => ⟨goes_registerWrite_pto, goes_registerWrite_arg,
      fun p off => goes_registerWrite_not_lead, fun p => goes_registerWrite_faultBase⟩⟩

end Sys2Proof
end

section
/-! PROOFS. What a word that stops or passes its threads leaves of each of them: the thread, team and string of one name after the shared updates of
the state (R16, R184), a fold over a string's threads read off one of them, and the trap of a register outside the shape (O9). -/

namespace Sys2Proof.Machine

variable {s t : State} {id k : ThreadId} {th : Thread} {c : Str} {rest : List Str} {len : Nat} {i : Instr}

/-! Records by name after the record lists are mapped. -/

theorem find?_map_of_keeps {α : Type} {p : α → Bool} {f : α → α} (h : ∀ a, p (f a) = p a) (l : List α) :
    (l.map f).find? p = (l.find? p).map f := by
  rw [List.find?_map]
  exact congrArg (Option.map f) (congrArg (List.find? · l) (funext h))

theorem thread?_modThread {f : Thread → Thread} (hf : ∀ t, (f t).id = t.id) :
    (s.modThread k f).thread? id = if k = id then (s.thread? id).map f else s.thread? id := by
  have hkey : ∀ t : Thread, ((if t.id == k then f t else t).id == id) = (t.id == id) := by
    intro t; split <;> simp only [hf]
  refine (find?_map_of_keeps hkey s.threads).trans ?_
  change (s.thread? id).map _ = _
  cases ht : s.thread? id with
  | none => simp
  | some th => simp only [Option.map_some, thread_id ht, beq_iff_eq, eq_comm (a := id)]; split <;> rfl

theorem thread?_modThread_same {f : Thread → Thread} (hf : ∀ t, (f t).id = t.id) : (s.modThread id f).thread? id = (s.thread? id).map f := by
  rw [thread?_modThread hf, if_pos rfl]

theorem thread?_modThread_other {f : Thread → Thread} (hf : ∀ t, (f t).id = t.id) (h : k ≠ id) : (s.modThread k f).thread? id = s.thread? id := by
  rw [thread?_modThread hf, if_neg h]

/-- A member of the string passes the word if it is still ready, else it stays at the word (R16). -/
theorem thread?_advance_member (hid : id ∈ c.members) (ht : s.thread? id = some th) :
    (s.advance c rest len).thread? id = some (if th.ready then th.pass len else th.halt c.hdr len) := by
  have hmap := find_map_id (fun t : Thread => if c.members.contains t.id then (if t.ready then t.pass len else t.halt c.hdr len) else t)
    (fun t => by (repeat' split) <;> rfl) ht
  simp only [thread_id ht, List.contains_iff_mem.mpr hid, if_true] at hmap
  exact hmap

/-- A fold over threads that changes each of them by `f` alone, seen at one thread: each thread comes once, or `f` says nothing new twice. `P`: what the
steps need of the state and keep. -/
theorem thread?_foldl {P : State → Prop} {step : State → ThreadId → State} {f : Thread → Thread} (hP : ∀ s k, P s → P (step s k))
    (hsame : ∀ s, P s → (step s id).thread? id = (s.thread? id).map f)
    (hother : ∀ s k, P s → k ≠ id → (step s k).thread? id = s.thread? id) {l : List ThreadId} (hl : l.Nodup ∨ ∀ t, f (f t) = f t) (hs : P s) :
    (l.foldl step s).thread? id = if id ∈ l then (s.thread? id).map f else s.thread? id := by
  induction l generalizing s with
  | nil => simp
  | cons k l ih =>
    have hl' : l.Nodup ∨ ∀ t, f (f t) = f t := hl.imp_left fun h => h.of_cons
    rw [List.foldl_cons, ih hl' (hP s k hs)]
    by_cases hk : k = id
    · subst hk
      rw [hsame s hs, if_pos (List.mem_cons_self ..)]
      split
      · next hmem =>
        obtain hnd | hff := hl
        · exact absurd hmem (List.nodup_cons.mp hnd).1
        · rw [Option.map_map]; exact congrArg (Option.map · _) (funext hff)
      · rfl
    · rw [hother s k hs hk]
      simp only [List.mem_cons, Ne.symm hk, false_or]

/-! Taking a trap (R184, R186). -/

/-- A thread that a trap has stopped. -/
def Thread.parkedBy (trap : TrapInfo) (t : Thread) : Thread := { t with status := .parked trap, granted := false }

/-- Blocks say which threads are of a redundant pair and which registers they have. -/
theorem isRed_congr (h : t.blocks = s.blocks) (blk : Nat) : t.isRed blk = s.isRed blk := by simp only [State.isRed, State.block?, h]
theorem isCont_congr (h : t.blocks = s.blocks) (blk : Nat) : t.isCont blk = s.isCont blk := by simp only [State.isCont, State.block?, h]
theorem regsOk_congr (h : t.blocks = s.blocks) (i : Instr) (id : ThreadId) : t.regsOk i id = s.regsOk i id := by
  simp only [State.regsOk, State.gregs, State.block?, h]
theorem isRed_of_block {b : Block} (h : s.block? id.blk = some b) : s.isRed id.blk = b.shape.red := by simp only [State.isRed, h]
theorem isRed_of_not_cont {blk : Nat} (h : s.isCont blk = false) : s.isRed blk = false := by
  unfold State.isCont at h
  unfold State.isRed
  split at h
  · exact (Bool.or_eq_false_iff.mp h).2
  · rfl

/-- A step that stops thread `k` leaves the blocks, memory and every other thread, and takes back nothing that is to happen. -/
structure KeepsOthers (s t : State) (k : ThreadId) : Prop where
  blocks : t.blocks = s.blocks
  mem : t.mem = s.mem
  agenda : s.agenda ⊆ t.agenda
  others : ∀ id, id ≠ k → t.thread? id = s.thread? id

section
variable {pc : Word} {cause : Cause} {addr : DWord} {sub : BitVec 8} {word : Bool}

theorem sign_keeps {bytes : List Byte} {cells : List LCell} {kind : SigKind} {trap : Option TrapInfo} :
    KeepsOthers s (s.sign k pc bytes cells kind trap) k := by
  unfold State.sign
  split
  · exact ⟨rfl, rfl, List.Subset.refl _, fun id h => thread?_modThread_other (fun _ => rfl) h.symm⟩
  · dsimp only
    split
    · exact ⟨rfl, rfl, List.subset_append_left .., fun id h => thread?_modThread_other (fun _ => rfl) h.symm⟩
    · exact ⟨rfl, rfl, List.subset_append_left .., fun _ _ => rfl⟩

theorem raise_keeps : KeepsOthers s (s.raise k pc cause addr sub word) k := by
  unfold State.raise
  split
  · exact ⟨rfl, rfl, List.Subset.refl _, fun _ _ => rfl⟩
  · dsimp only
    split
    · exact sign_keeps
    · exact ⟨rfl, rfl, List.subset_append_left .., fun id h => thread?_modThread_other (fun _ => rfl) h.symm⟩

/-- Outside a redundant block a trap is taken at once. -/
theorem raise_eq_park (ht : s.thread? id = some th) (hr : s.isRed id.blk = false) :
    s.raise id pc cause addr sub word = s.park id { cause := cause, addr := addr, sub := sub, word := word } := by
  simp only [State.raise, ht, hr, Bool.false_and, Bool.false_eq_true, if_false]

theorem thread?_raise_same (hr : s.isRed id.blk = false) : (s.raise id pc cause addr sub word).thread? id =
    (s.thread? id).map (Thread.parkedBy { cause := cause, addr := addr, sub := sub, word := word }) := by
  cases ht : s.thread? id with
  | none => simp only [State.raise, ht, Option.map_none]
  | some th =>
    rw [raise_eq_park ht hr, ← ht]
    exact thread?_modThread_same (f := Thread.parkedBy _) fun _ => rfl

theorem blockSave_of_raise (ht : s.thread? id = some th) (hr : s.isRed id.blk = false) :
    Ev.blockSave id.blk ∈ (s.raise id pc cause addr sub word).agenda := by
  rw [raise_eq_park ht hr]
  exact List.mem_append_right _ (List.mem_singleton.mpr rfl)

end

/-! A register outside the shape (R49, R221). -/

/-- The trap of a thread that lacks a register of the word. -/
def missingRegister : TrapInfo := { cause := .illegalOp, addr := 0, sub := 0, word := true }

/-- One thread's part of `trapRegs`. -/
def trapReg (i : Instr) (pc : Word) (s : State) (id : ThreadId) : State := if s.regsOk i id then s else s.raise id pc .illegalOp 0 0 true

theorem trapReg_keeps {pc : Word} : KeepsOthers s (trapReg i pc s k) k := by
  unfold trapReg
  split
  · exact ⟨rfl, rfl, List.Subset.refl _, fun _ _ => rfl⟩
  · exact raise_keeps

theorem trapRegs_mem : (s.trapRegs i c).mem = s.mem := foldl_keeps (fun _ _ => trapReg_keeps.mem) _ _

theorem trapRegs_thread? (hid : id ∈ c.members) (hr : s.isRed id.blk = false) (hreg : s.regsOk i id = false) :
    (s.trapRegs i c).thread? id = (s.thread? id).map (Thread.parkedBy missingRegister) := by
  refine (thread?_foldl (P := fun x => x.blocks = s.blocks) (step := trapReg i c.pc) (f := Thread.parkedBy missingRegister) ?_ ?_ ?_ (.inr fun _ => rfl)
    rfl).trans (if_pos hid)
  · exact fun x k hx => trapReg_keeps.blocks.trans hx
  · intro x hx
    rw [trapReg, if_neg (by rw [regsOk_congr hx, hreg]; decide)]
    exact thread?_raise_same ((isRed_congr hx _).trans hr)
  · exact fun x k _ hk => trapReg_keeps.others id hk.symm

theorem agenda_subset_trapReg_foldl {pc : Word} (l : List ThreadId) (s : State) : s.agenda ⊆ (l.foldl (trapReg i pc) s).agenda := by
  induction l generalizing s with
  | nil => exact List.Subset.refl _
  | cons k l ih => exact List.Subset.trans trapReg_keeps.agenda (ih _)

/-- The block of a thread that lacks a register is to be saved: that thread's own part asks for it, and no later part takes it back. -/
theorem blockSave_of_trapReg_foldl {pc : Word} {l : List ThreadId} (hid : id ∈ l) (ht : s.thread? id = some th) (hr : s.isRed id.blk = false)
    (hreg : s.regsOk i id = false) : Ev.blockSave id.blk ∈ (l.foldl (trapReg i pc) s).agenda := by
  induction l generalizing s with
  | nil => cases hid
  | cons k l ih =>
    by_cases hk : id = k
    · subst hk
      refine agenda_subset_trapReg_foldl l _ ?_
      rw [trapReg, if_neg (by rw [hreg]; decide)]
      exact blockSave_of_raise ht hr
    · obtain ⟨hblocks, -, -, hother⟩ := trapReg_keeps (s := s) (k := k) (i := i) (pc := pc)
      exact ih (List.mem_of_ne_of_mem hk hid) ((hother id hk).trans ht) ((isRed_congr hblocks _).trans hr) ((regsOk_congr hblocks i id).trans hreg)

theorem regsOk_of_missing (h : ∃ p ∈ gNamed i, ∃ k < p.2, gExists (s.gregs id) (p.1 + k) = false) : s.regsOk i id = false := by
  obtain ⟨p, hp, k, hk, hmiss⟩ := h
  refine List.all_eq_false.mpr ⟨p, hp, ?_⟩
  rw [List.all_eq_true.not]
  exact fun hall => absurd (hall k (List.mem_range.mpr hk)) (by rw [hmiss]; decide)

/-! A register word leaves alone what is not ready. -/

theorem regThread_id {f : Thread → Sparse 32 → Outs} : (regThread i c s f th).id = th.id := by
  have hput (o : Outs) : (th.put o).id = th.id := by rw [Thread.put_rest]
  unfold regThread
  dsimp only
  split <;> exact hput _

theorem thread?_regEffect_of_not_ready {f : Thread → Sparse 32 → Outs} (ht : s.thread? id = some th) (hr : th.ready = false) :
    (s.regEffect i c f).thread? id = some th := by
  have hna : id ∉ s.actors (guardOf i) c := fun ha => by
    obtain ⟨u, hu, hready, -⟩ := thread_of_actor ha
    obtain rfl := Option.some.inj (hu.symm.trans ht)
    exact absurd (hready.symm.trans hr) (by decide)
  have hmap := find_map_id (fun t => if (s.actors (guardOf i) c).contains t.id then regThread i c s f t else t)
    (fun t => by split <;> simp only [regThread_id]) ht
  have hcontains : (s.actors (guardOf i) c).contains id = false := by simpa using hna
  simp only [thread_id ht, hcontains, Bool.false_eq_true, if_false] at hmap
  exact hmap

theorem execReg_unheld {f : State → Thread → Sparse 32 → Outs} (hs : s.strings = c :: rest) (hb : s.boarded i c = false) :
    execReg i f s = .next (((s.trapRegs i c).regEffect i c (f (s.trapRegs i c))).advance c rest (wordLen i)).tick := by
  simp only [execReg, hs, hb, Bool.false_eq_true, if_false]

/-- A register word that finds a register missing for a member outside redundant blocks: that thread parks and its registers stay. -/
theorem execReg_missing {f : State → Thread → Sparse 32 → Outs} (hs : s.strings = c :: rest) (hb : s.boarded i c = false) (hid : id ∈ c.members)
    (ht : s.thread? id = some th) (hr : s.isRed id.blk = false) (hreg : s.regsOk i id = false) :
    ∃ t, execReg i f s = .next t ∧ t.thread? id = some ((th.parkedBy missingRegister).halt c.hdr (wordLen i)) ∧ t.mem = s.mem
      ∧ Ev.blockSave id.blk ∈ t.agenda := by
  have hpark : (s.trapRegs i c).thread? id = some (th.parkedBy missingRegister) := by rw [trapRegs_thread? hid hr hreg, ht]; rfl
  refine ⟨_, execReg_unheld hs hb, ?_, trapRegs_mem, blockSave_of_trapReg_foldl hid ht hr hreg⟩
  exact thread?_advance_member (rest := rest) hid (thread?_regEffect_of_not_ready hpark rfl)

end Sys2Proof.Machine

namespace Sys2Proof
open Machine

/-- Settles O9: the thread parks before the word's effect, which then passes it by. -/
theorem missingRegisterTraps : Obligations.MissingRegisterTraps := by
  unfold Obligations.MissingRegisterTraps
  intro i s c rest id th ⟨f, hf⟩ hs hb hid ht hr hmiss
  obtain ⟨t, hexec, hth, hmem, hsave⟩ := execReg_missing (f := f) hs hb hid ht hr (regsOk_of_missing hmiss)
  exact ⟨t, _, (hf s).trans hexec, hth, rfl, rfl, rfl, rfl, hmem, hsave⟩

end Sys2Proof
end

section
/-! PROOFS. What translations, write-backs and releases leave of the state (R73, R80, R124): the fields each of them may change are blanked, and
the rest is equal before and after. -/

namespace Sys2Proof.Machine

variable {s : State} {id k : ThreadId} {core n : Nat} {sc : Scope} {cells : List LCell} {after : Option Ev} {va : DWord}

/-! A lookup fills translation caches and may post a fault record. -/

/-- A state but for what a lookup may change. -/
def State.sansLookup (s : State) : State := { s with agenda := [], tlb := [], walks := [], masks := [], walkFaults := [], fqHeld := [] }

theorem postPageFault_sansLookup {part : BitVec 6} {handle : DWord} {f : WalkFault} {w : Bool} :
    (s.postPageFault part handle va f w).sansLookup = s.sansLookup := by
  unfold State.postPageFault
  dsimp only
  split <;> rfl

theorem cacheMask_sansLookup {part : BitVec 6} {pr : BitVec 16} : (s.cacheMask part pr).sansLookup = s.sansLookup := by
  unfold State.cacheMask
  split <;> rfl

theorem globAccess_sansLookup {m : Mmu} {part : BitVec 6} {handle : DWord} {pr : BitVec 16} {g : Nat} {k : AKind} :
    (s.globAccess m part handle pr g k).1.sansLookup = s.sansLookup := by
  unfold State.globAccess
  dsimp only
  split
  · rfl
  · split
    · exact postPageFault_sansLookup
    · repeat' split
      all_goals exact cacheMask_sansLookup

theorem qPlace_sansLookup {k : AKind} : (s.qPlace id va k).1.sansLookup = s.sansLookup := by
  unfold State.qPlace
  split
  · rfl
  · split
    · rfl
    · split
      · rfl
      · next b _ _ =>
        have hglob := globAccess_sansLookup (s := s) (m := .core b.core) (part := b.part) (handle := b.handle) (pr := b.principal) (g := va.toNat) (k := k)
        generalize s.globAccess (.core b.core) b.part b.handle b.principal va.toNat k = r at hglob
        obtain ⟨s', _ | a⟩ := r
        · exact hglob
        · dsimp only
          repeat' split
          all_goals exact hglob

/-! Write-backs (R80, R83). -/

/-- A state but for what sending write-backs and dropping clean lines may change. -/
def State.sansTraffic (s : State) : State := { s with agenda := [], nextId := 0, l1 := [], wbs := [] }

theorem sendWb_sansTraffic {th : Option ThreadId} {cs : List Host.Cell} {nt : Bool} {key : BitVec 9} {cmt : Option Nat} {bad : List Nat} :
    (s.sendWb core th cs nt key cmt bad).sansTraffic = s.sansTraffic := by
  unfold State.sendWb
  split <;> rfl

theorem flush_sansTraffic {p : L1Byte → Bool} : (s.flush core p).sansTraffic = s.sansTraffic :=
  foldl_keeps (fun _ _ => sendWb_sansTraffic) ..

theorem sendUpd_sansTraffic : (s.sendUpd core).sansTraffic = s.sansTraffic :=
  foldl_keeps (g := State.sansTraffic) (step := fun x l => x.push (.updateLineMerge core l)) (fun _ _ => rfl) ..

theorem acquire_sansTraffic : (s.acquire core sc).sansTraffic = s.sansTraffic := by
  unfold State.acquire
  split <;> rfl

theorem sendWb_nextId {th : Option ThreadId} {cs : List Host.Cell} {nt : Bool} {key : BitVec 9} {cmt : Option Nat} {bad : List Nat} :
    s.nextId ≤ (s.sendWb core th cs nt key cmt bad).nextId := by
  unfold State.sendWb
  split
  · exact Nat.le_refl _
  · exact Nat.le_succ _

theorem le_nextId_foldl {α : Type} {step : State → α → State} (h : ∀ s a, s.nextId ≤ (step s a).nextId) (hs : n ≤ s.nextId) (l : List α) :
    n ≤ (l.foldl step s).nextId := by
  induction l generalizing s with
  | nil => exact hs
  | cons a l ih => exact ih (hs.trans (h s a))

theorem flush_nextId {p : L1Byte → Bool} : s.nextId ≤ (s.flush core p).nextId := by
  refine le_nextId_foldl (fun _ _ => sendWb_nextId) ?_ _
  exact Nat.le_refl s.nextId

theorem sendUpd_nextId : (s.sendUpd core).nextId = s.nextId :=
  foldl_keeps (g := State.nextId) (step := fun x l => x.push (.updateLineMerge core l)) (fun _ _ => rfl) ..

/-! Releases (R80). -/

/-- The writes that a release sends on their way before its record is made. -/
def State.relSent (s : State) (id : ThreadId) (sc : Scope) (cells : List LCell) : State :=
  let x := if sc == .blk || s.isCont id.blk then s.bump else s.bump.flush (s.coreOf id) fun b => b.dirty.contains id || cells.any fun c => c.loc == .mem b.pa
  if sc != .blk && sc != .grp then x.sendUpd (s.coreOf id) else x

theorem relSent_sansTraffic : (s.relSent id sc cells).sansTraffic = s.sansTraffic := by
  unfold State.relSent
  dsimp only
  repeat' split
  · exact sendUpd_sansTraffic
  · exact sendUpd_sansTraffic.trans flush_sansTraffic
  · rfl
  · exact flush_sansTraffic

theorem relSent_nextId : s.nextId < (s.relSent id sc cells).nextId := by
  have hbump : s.nextId < s.bump.nextId := Nat.lt_succ_self _
  unfold State.relSent
  dsimp only
  repeat' split
  · rw [sendUpd_nextId]; exact hbump
  · rw [sendUpd_nextId]; exact hbump.trans_le flush_nextId
  · exact hbump
  · exact hbump.trans_le flush_nextId

/-- The record of a release that begins. -/
def State.relOf (s : State) (id : ThreadId) (sc : Scope) (cells : List LCell) (after : Option Ev) : Rel :=
  { id := s.nextId, th := id, core := s.coreOf id, scope := sc
    waits := if sc == .blk || s.isCont id.blk then [] else (s.relSent id sc cells).coreWbs (s.coreOf id)
    upd := if sc != .blk && sc != .grp then ((s.relSent id sc cells).upd.filter (fun u => u.core == s.coreOf id)).map (·.id) else []
    cells := cells, after := after }

theorem beginRelease_eq : s.beginRelease id sc cells after =
    State.push { s.relSent id sc cells with rels := (s.relSent id sc cells).rels ++ [s.relOf id sc cells after] } (.releaseComplete s.nextId) := rfl

/-- A state but for what a release may change. -/
def State.sansRelease (s : State) : State := { s.sansTraffic with rels := [] }

theorem beginRelease_sansRelease : (s.beginRelease id sc cells after).sansRelease = s.sansRelease :=
  congrArg (fun x : State => { x with rels := [] }) (relSent_sansTraffic (s := s) (id := id) (sc := sc) (cells := cells))

theorem beginRelease_rels : (s.beginRelease id sc cells after).rels = s.rels ++ [s.relOf id sc cells after] :=
  congrArg (· ++ [s.relOf id sc cells after])
    (congrArg State.rels (relSent_sansTraffic (s := s) (id := id) (sc := sc) (cells := cells)) :)

theorem beginRelease_nextId : s.nextId < (s.beginRelease id sc cells after).nextId := relSent_nextId

end Sys2Proof.Machine
end

section
/-! PROOFS. A queue request on its way to its slice (R121, R124, R125): the threads it stops or lets go on, its record and the releases before it. -/

namespace Sys2Proof.Machine

variable {s s1 : State} {id l : ThreadId} {th u : Thread} {c : Str} {r : QReq} {ids : List ThreadId} {va : DWord} {a : Acc} {word : Nat}
  {enq : Bool} {x : QueueArgs} {k : AKind}

/-! Outside redundant blocks nothing enters a load-value queue, and no thread is a wheeler. -/

theorem isWheel_of_not_red (h : s.isRed id.blk = false) : s.isWheel id = false := by
  simp only [State.isWheel, h, Bool.and_false]

theorem lvFull_of_not_red (h : s.isRed id.blk = false) : s.lvFull id = false := by
  simp only [State.lvFull, h, Bool.false_and]

theorem lvOpen_of_not_red {pc : Word} {src : Nat} (h : s.isRed id.blk = false) : s.lvOpen id pc src = s := by
  simp only [State.lvOpen, h, Bool.not_false, Bool.true_or, if_true]

theorem foldl_lvOpen_of_not_red {pc : Word} {src : Nat} (h : ∀ id ∈ ids, s.isRed id.blk = false) :
    ids.foldl (fun s id => s.lvOpen id pc src) s = s := by
  induction ids with
  | nil => rfl
  | cons id ids ih =>
    rw [List.foldl_cons, lvOpen_of_not_red (h id (List.mem_cons_self ..))]
    exact ih fun k hk => h k (List.mem_cons_of_mem _ hk)

theorem qOpenStat_of_not_red (h : ∀ id ∈ r.ths, s.isRed id.blk = false) : s.qOpenStat r = s := by
  unfold State.qOpenStat
  split
  · exact foldl_lvOpen_of_not_red h
  · rfl

/-! The threads of a request. -/

/-- A state but for its threads. -/
def State.sansThreads (s : State) : State := { s with threads := [] }

/-- A thread of a request that goes out: its counter is raised; it waits, or in a try form goes on with its destinations held. -/
def QReq.raised (r : QReq) (t : Thread) : Thread :=
  let t := if r.enq then { t with st := t.st + 1 } else { t with ld := t.ld + 1 }
  if r.try_ then t.addHold r.regs else { t with status := .waiting (.queue r.id), granted := false }

theorem QReq.raised_id (t : Thread) : (r.raised t).id = t.id := by
  unfold QReq.raised
  dsimp only
  (repeat' split) <;> rfl

theorem QReq.raised_of_blocking (h : r.try_ = false) (t : Thread) : r.raised t = { t with
    st := t.st + (if r.enq then 1 else 0), ld := t.ld + (if r.enq then 0 else 1), status := .waiting (.queue r.id), granted := false } := by
  simp only [QReq.raised, h, Bool.false_eq_true, if_false]
  cases r.enq <;> rfl

theorem qRaise_sansThreads : (s.qRaise r).sansThreads = s.sansThreads :=
  foldl_keeps (g := State.sansThreads) (step := fun s id => s.modThread id r.raised) (fun _ _ => rfl) ..

theorem thread?_qRaise (hnd : r.ths.Nodup) (hid : id ∈ r.ths) : (s.qRaise r).thread? id = (s.thread? id).map r.raised :=
  (thread?_foldl (P := fun _ => True) (step := fun s id => s.modThread id r.raised) (fun _ _ _ => trivial)
    (fun _ _ => thread?_modThread_same QReq.raised_id) (fun _ _ _ hk => thread?_modThread_other QReq.raised_id hk) (.inl hnd) trivial).trans (if_pos hid)

/-! A blocking request (R121, R124). -/

/-- One thread's release before its enqueue. -/
def releaseFor (r : QReq) (s : State) (id : ThreadId) : State :=
  (s.beginRelease id r.scope [] none).modReq r.id fun x => { x with rels := x.rels ++ [s.nextId] }

/-- A state but for what a release and the record of a request may change. -/
def State.sansQueue (s : State) : State := { s.sansRelease with qreqs := [] }

theorem releaseFor_sansQueue : (releaseFor r s id).sansQueue = s.sansQueue :=
  congrArg (fun x : State => { x with qreqs := [] }) (beginRelease_sansRelease (s := s) (id := id) (sc := r.scope) (cells := []) (after := none))

/-- A request with the releases before it: one of each of some threads, among the releases in flight. -/
def Released (s : State) (r : QReq) (ids : List ThreadId) (rels : List Nat) : Prop :=
  { r with rels := rels } ∈ s.qreqs ∧ ∀ id ∈ ids, ∃ n ∈ rels, ∃ y ∈ s.rels, y.id = n ∧ y.th = id ∧ y.scope = r.scope

theorem Released.recorded : Released { s with qreqs := s.qreqs ++ [r] } r [] r.rels :=
  ⟨List.mem_append_right _ (List.mem_singleton.mpr rfl), fun _ h => nomatch h⟩

theorem Released.releaseFor {rels : List Nat} (h : Released s r ids rels) : Released (releaseFor r s id) r (id :: ids) (rels ++ [s.nextId]) := by
  obtain ⟨hmem, hrels⟩ := h
  have hrel : (Machine.releaseFor r s id).rels = s.rels ++ [s.relOf id r.scope [] none] := beginRelease_rels
  have hqreqs : (s.beginRelease id r.scope [] none).qreqs = s.qreqs :=
    (congrArg State.qreqs (beginRelease_sansRelease (s := s) (id := id) (sc := r.scope) (cells := []) (after := none)) :)
  refine ⟨?_, fun k hk => ?_⟩
  · refine List.mem_map.mpr ⟨_, hqreqs ▸ hmem, ?_⟩
    simp
  · rw [hrel]
    obtain rfl | hk := List.mem_cons.mp hk
    · exact ⟨_, List.mem_append_right _ (List.mem_singleton.mpr rfl), _, List.mem_append_right _ (List.mem_singleton.mpr rfl), rfl, rfl, rfl⟩
    · obtain ⟨n, hn, y, hy, h⟩ := hrels k hk
      exact ⟨n, List.mem_append_left _ hn, y, List.mem_append_left _ hy, h⟩

theorem Released.foldl {rels : List Nat} (h : Released s r ids rels) (l : List ThreadId) :
    ∃ rels', Released (l.foldl (Machine.releaseFor r) s) r (l.reverse ++ ids) rels' := by
  induction l generalizing s ids rels with
  | nil => exact ⟨rels, h⟩
  | cons id l ih =>
    obtain ⟨rels', h'⟩ := ih (h.releaseFor (id := id))
    exact ⟨rels', by simpa using h'⟩

/-- The state in which the threads of a blocking request stop: its record is made, the releases of an enqueue have begun. -/
def State.qRecorded (s : State) (r : QReq) : State :=
  let x := s.bump.flush r.core fun x => r.ths.any x.dirty.contains || decide (r.qcbPa ≤ x.pa ∧ x.pa < r.qcbPa + 64)
  let x := { x with qreqs := x.qreqs ++ [r] }
  if r.enq then r.ths.foldl (releaseFor r) x else x

theorem qRecorded_sansQueue : (s.qRecorded r).sansQueue = s.sansQueue := by
  have hflush (p : L1Byte → Bool) : ({ s.bump.flush r.core p with qreqs := (s.bump.flush r.core p).qreqs ++ [r] } : State).sansQueue = s.sansQueue :=
    congrArg (fun x : State => { x with rels := [], qreqs := [] }) (flush_sansTraffic (s := s.bump) (core := r.core) (p := p))
  unfold State.qRecorded
  dsimp only
  split
  · exact (foldl_keeps (fun _ _ => releaseFor_sansQueue) _ _).trans (hflush _)
  · exact hflush _

theorem qRecorded_released : ∃ rels, Released (s.qRecorded r) r (if r.enq then r.ths else []) rels := by
  unfold State.qRecorded
  dsimp only
  split
  · obtain ⟨rels, hreq, hrels⟩ := (Released.recorded (s := s.bump.flush ..) (r := r)).foldl r.ths
    exact ⟨rels, hreq, fun id hid => hrels id (by simpa using hid)⟩
  · exact ⟨r.rels, Released.recorded⟩

theorem qSend_eq (h : ∀ id ∈ r.ths, s.isRed id.blk = false) : s.qSend r = ((s.qRecorded r).qRaise r).push (.queueRequest r.id) := by
  have hopen : (if r.enq then s.qRecorded r else r.ths.foldl (fun s id => s.lvOpen id r.pc r.id) (s.qRecorded r)) = s.qRecorded r := by
    split
    · rfl
    · refine foldl_lvOpen_of_not_red fun id hid => ?_
      exact (isRed_congr (congrArg State.blocks (qRecorded_sansQueue (s := s) (r := r)) :) _).trans (h id hid)
  rw [← hopen]
  unfold State.qSend State.qRecorded
  cases r.enq <;> rfl

section
variable (h : ∀ id ∈ r.ths, s.isRed id.blk = false)
include h

theorem qSend_rest : (s.qSend r).sansThreads.sansQueue = s.sansThreads.sansQueue := by
  rw [qSend_eq h]
  exact (congrArg State.sansQueue (qRaise_sansThreads (s := s.qRecorded r) (r := r)) :).trans
    (congrArg State.sansThreads (qRecorded_sansQueue (s := s) (r := r)) :)

theorem qSend_blocks : (s.qSend r).blocks = s.blocks := (congrArg State.blocks (qSend_rest h) :)

theorem qSend_mem : (s.qSend r).mem = s.mem := (congrArg State.mem (qSend_rest h) :)

theorem queueRequest_of_qSend : Ev.queueRequest r.id ∈ (s.qSend r).agenda := by
  rw [qSend_eq h]
  exact List.mem_append_right _ (List.mem_singleton.mpr rfl)

theorem thread?_qSend (hnd : r.ths.Nodup) (hid : id ∈ r.ths) : (s.qSend r).thread? id = (s.thread? id).map r.raised := by
  have hrec : (s.qRecorded r).thread? id = s.thread? id := (congrArg (fun x => x.thread? id) (qRecorded_sansQueue (s := s) (r := r)) :)
  rw [qSend_eq h]
  exact (thread?_qRaise hnd hid).trans (congrArg (Option.map r.raised) hrec)

theorem qSend_released : ∃ rels, Released (s.qSend r) r (if r.enq then r.ths else []) rels := by
  have hraise := qRaise_sansThreads (s := s.qRecorded r) (r := r)
  obtain ⟨rels, hreq, hrels⟩ := qRecorded_released (s := s) (r := r)
  rw [qSend_eq h]
  exact ⟨rels, (congrArg State.qreqs hraise :) ▸ hreq, (congrArg State.rels hraise :) ▸ hrels⟩

end

/-! The request of a queue word (R295). -/

theorem qPlace_of_eq {e : Except Cause Acc} (h : s.qPlace id va k = (s1, e)) : s1.sansLookup = s.sansLookup := by
  rw [← qPlace_sansLookup (s := s) (id := id) (va := va) (k := k), h]

theorem queueSend_eq (ht : s.thread? l = some th) (hr : s.isRed l.blk = false) (hids : ∀ id ∈ ids, id.blk = l.blk)
    (hp : s.qPlace l (memVa x.mem th) .atomic = (s1, .ok a)) :
    queueSend enq x word c l ids s = s1.qSend (queueMk enq false x s1 c ids (memVa x.mem th) a word) := by
  have hblocks : s1.blocks = s.blocks := (congrArg State.blocks (qPlace_of_eq hp) :)
  have hred (id) (hid : id ∈ ids) : s1.isRed id.blk = false := by rw [isRed_congr hblocks, hids id hid, hr]
  simp only [queueSend, isWheel_of_not_red hr, Bool.false_eq_true, if_false, ht, hp]
  refine qOpenStat_of_not_red fun id hid => ?_
  exact (isRed_congr (qSend_blocks hred) _).trans (hred id hid)

theorem qcbAt_congr {pa : Nat} {key : BitVec 9} (h : s1.sansLookup = s.sansLookup) : s1.qcbAt pa key = s.qcbAt pa key :=
  (congrArg (fun x => x.qcbAt pa key) h :)

/-- The request that a queue word makes (Table 12.9). -/
theorem queueMk_fields {try_ : Bool} (hr : r = queueMk enq try_ x s c ids va a word) : r.enq = enq ∧ r.try_ = try_ ∧ r.ths = ids ∧ r.team = x.team
    ∧ r.key = a.key ∧ r.qcb = va ∧ r.es = 4 * 2 ^ x.esz.toNat ∧ r.dst = x.b ∧ r.stat = some x.d ∧ r.id = s.nextId ∧ r.waiting = false ∧ r.moving = none
    ∧ r.result = none ∧ r.trap = none := by
  subst hr
  exact ⟨rfl, rfl, rfl, rfl, rfl, rfl, rfl, rfl, rfl, rfl, rfl, rfl, rfl, rfl⟩

/-- Where its control block lies in memory, and its scope (R124). -/
theorem queueMk_spec {try_ : Bool} {pa : Nat} (hp : s.qPlace l va .atomic = (s1, .ok a)) (hl : a.loc = .mem pa)
    (hr : r = queueMk enq try_ x s1 c ids va a word) : r.qcbPa = pa ∧ r.scope = queueScope s x pa a.key := by
  subst hr
  refine ⟨by simp only [queueMk, State.qMake, hl], ?_⟩
  simp only [queueMk, State.qMake, hl, queueScope, qcbAt_congr (qPlace_of_eq hp)]

/-- The elements of an enqueue, thread by thread. -/
theorem queueMk_elems {try_ : Bool} {j : Nat} (hp : s.qPlace l va .atomic = (s1, .ok a)) (hj : j < ids.length) (hu : s.thread? (ids.getD j l) = some u)
    (hr : r = queueMk true try_ x s1 c ids va a word) : r.elems.getD j [] = (List.range (2 ^ x.esz.toNat)).map fun w => u.gr (x.b + BitVec.ofNat 7 w) := by
  have hu1 : s1.thread? ids[j] = some u := by
    rw [List.getD_eq_getElem _ _ hj] at hu
    exact (congrArg (fun x => x.thread? ids[j]) (qPlace_of_eq hp) :).trans hu
  simp [hr, queueMk, State.qMake, elemWords, hj, hu1]

/-- A blocking queue word of one thread or of a team's threads outside redundant blocks (R121, R124, R125). -/
theorem queueSend_spec {pa : Nat} (hnd : ids.Nodup) (ht : s.thread? l = some th) (hr : s.isRed l.blk = false)
    (hids : ∀ id ∈ ids, id.blk = l.blk) (hp : s.qPlace l (memVa x.mem th) .atomic = (s1, .ok a)) (hloc : a.loc = .mem pa) :
    (queueSend enq x word c l ids s).mem = s.mem ∧ ∃ r ∈ (queueSend enq x word c l ids s).qreqs, Ev.queueRequest r.id ∈ (queueSend enq x word c l ids s).agenda
      ∧ r.ths = ids ∧ r.enq = enq ∧ r.try_ = false ∧ r.team = x.team ∧ r.qcbPa = pa ∧ r.key = a.key
      ∧ r.qcb = memVa x.mem th ∧ r.es = 4 * 2 ^ x.esz.toNat ∧ r.scope = queueScope s x pa a.key
      ∧ r.dst = x.b ∧ r.stat = some x.d ∧ r.waiting = false ∧ r.result = none
      ∧ (enq = true → ∀ j < ids.length, ∀ u, s.thread? (ids.getD j l) = some u →
          r.elems.getD j [] = (List.range (2 ^ x.esz.toNat)).map fun w => u.gr (x.b + BitVec.ofNat 7 w))
      ∧ ∀ id ∈ ids, ∀ u, s.thread? id = some u → ∃ u', (queueSend enq x word c l ids s).thread? id = some u' ∧ u'.g = u.g ∧ u'.pc = u.pc
          ∧ u'.st = u.st + (if enq then 1 else 0) ∧ u'.ld = u.ld + (if enq then 0 else 1) ∧ u'.status = .waiting (.queue r.id)
          ∧ (enq = true → ∃ n ∈ r.rels, ∃ y ∈ (queueSend enq x word c l ids s).rels, y.id = n ∧ y.th = id ∧ y.scope = r.scope) := by
  have hlook := qPlace_of_eq hp
  rw [queueSend_eq ht hr hids hp]
  obtain ⟨r, hreq⟩ : ∃ r, r = queueMk enq false x s1 c ids (memVa x.mem th) a word := ⟨_, rfl⟩
  rw [← hreq]
  obtain ⟨hpa, hscope⟩ := queueMk_spec hp hloc hreq
  obtain ⟨henq, htry, hths, hteam, hkey, hqcb, hes, hdst, hstat, -, hwait, -, hres, -⟩ := queueMk_fields hreq
  have hred (id) (hid : id ∈ r.ths) : s1.isRed id.blk = false :=
    (isRed_congr (congrArg State.blocks hlook :) _).trans (hids id (hths ▸ hid) ▸ hr)
  obtain ⟨rels, hmem, hrels⟩ := qSend_released hred
  refine ⟨(qSend_mem hred).trans (congrArg State.mem hlook :), _, hmem, queueRequest_of_qSend hred, hths, henq, htry, hteam, hpa, hkey,
    hqcb, hes, hscope, hdst, hstat, hwait, hres, ?_, fun id hid u hu => ?_⟩
  · rintro rfl j hj u hu
    exact queueMk_elems (r := r) hp hj hu hreq
  · have hu1 : s1.thread? id = some u := (congrArg (fun x => x.thread? id) hlook :).trans hu
    refine ⟨r.raised u, by rw [thread?_qSend hred (hths ▸ hnd) (hths ▸ hid), hu1]; rfl, ?_⟩
    rw [QReq.raised_of_blocking htry, henq]
    exact ⟨rfl, rfl, rfl, rfl, rfl, fun h => hrels id (by rw [henq, if_pos h, hths]; exact hid)⟩

end Sys2Proof.Machine
end

section
/-! PROOFS. How the queue words issue: their guard, irrevocable words (R198), uniform words of one team (R24). -/

namespace Sys2Proof.Machine

variable {s s0 : State} {id l : ThreadId} {c : Str} {rest : List Str} {i : Instr} {more : List ThreadId}
  {stall : State → Str → Thread → Bool} {chk : Check} {sig : State → Thread → List Byte}

/-- The guard stands in the low bits of the first word of a two-word format (R209). -/
theorem guardOf_two {maj d a b : BitVec 7} {yb : Bool} {q : PReg} {xop md : BitVec 8} {low : BitVec 16}
    (h : toEnc i = some (.two maj d a b yb q xop md low)) : guardOf i = q := by
  simp only [guardOf, encode, h, Enc.words]
  exact BitVec.extractLsb'_append_eq_right

/-! Checkpoints behind an irrevocable word (R198). -/

theorem foldl_blocks_of_none {p : ThreadId → Bool} {ids : List ThreadId} (g : State → Nat → State) (h : ∀ id ∈ ids, p id = false) :
    ((ids.filter p).map (·.blk)).eraseDups.foldl g s = s := by
  rw [List.filter_eq_nil_iff.mpr fun id hid => by rw [h id hid]; decide]
  rfl

/-- Where no member was granted an operation of a contained block, no checkpoint follows the word. -/
theorem snapAfter_eq (h : ∀ id ∈ c.members, s.isCont id.blk = false ∨ ∀ t, s0.thread? id = some t → t.granted = false) : s.snapAfter s0 c = s := by
  unfold State.snapAfter
  refine foldl_blocks_of_none _ fun id hid => ?_
  dsimp only
  obtain hcont | hgranted := h id hid
  · rw [hcont, Bool.and_false, Bool.false_and]
  · refine Bool.and_eq_false_iff.mpr (.inr ?_)
    split
    · next _ _ ha _ => rw [hgranted _ ha]; rfl
    · rfl

theorem execIrrev_issues (h : AtWord s c rest i) (hn : NoStall s c i stall) (eff : Str → ThreadId → State → State) :
    execIrrev i stall chk sig eff s = .next (State.snapAfter
      (((s.actors (guardOf i) c).foldl (fun s id => gated chk sig eff c id s) s).advance c rest (wordLen i)).tick s c) := by
  simp only [execIrrev, h.head, execEach_issues h hn]

theorem irrevDoes {chk : State → List ThreadId → Check} {eff : State → List ThreadId → Str → ThreadId → State → State}
    (hx : ∀ s c rest, s.strings = c :: rest → exec i s = execIrrev i stall (chk s (s.actors (guardOf i) c)) sig (eff s (s.actors (guardOf i) c)) s) :
    IrrevDoes i stall chk sig eff := by
  intro s c rest h hn
  have hexec := (hx s c rest h.head).trans (execIrrev_issues h hn _)
  exact ⟨_, _, rfl, rfl, hexec, fun hg => hexec.trans (congrArg _ (snapAfter_eq fun id hid => .inr (hg id hid)))⟩

theorem execIrrevTeams_issues (h : AtWord s c rest i) (hn : NoStall s c i stall) (eff : Str → ThreadId → List ThreadId → State → State) :
    execIrrevTeams i stall chk sig eff s = .next (State.snapAfter
      (((s.teamLeads (s.actors (guardOf i) c)).foldl (fun x l => teamPart chk sig eff c l ((s.actors (guardOf i) c).filter (sameTeam l)) x) s).advance
        c rest (wordLen i)).tick s c) := by
  simp only [execIrrevTeams, h.head, execTeams, execAll_issues h hn]
  rfl

theorem irrevTeamsDo {eff : State → Str → ThreadId → List ThreadId → State → State}
    (hx : ∀ s, exec i s = execIrrevTeams i stall chk sig (eff s) s) : IrrevTeamsDo i stall chk sig eff := by
  intro s c rest h hn
  have hexec := (hx s).trans (execIrrevTeams_issues h hn _)
  exact ⟨_, _, rfl, rfl, hexec, fun hg => hexec.trans (congrArg _ (snapAfter_eq fun id hid => .inr (hg id hid)))⟩

/-! The blocking queue words (R121, R125). -/

section
variable {enq : Bool} {x : QueueArgs} (hexec : ∀ s, exec i s = queueWord i enq x s)
include hexec

theorem queueWord_single (hx : x.team = false) :
    IrrevDoes i (fun s _ t => s.qStall t enq) (fun _ _ => queueChk x) (queueSig enq x) (fun s0 _ c id s => queueSend enq x s0.nextId c id [id] s) :=
  irrevDoes fun s _ _ _ => (hexec s).trans (if_neg (by rw [hx]; decide))

theorem queueWord_teams (hx : x.team = true) :
    IrrevTeamsDo i (fun s _ t => s.qStall t enq) (queueChk x) (queueSig enq x) (fun s0 => queueSend enq x s0.nextId) :=
  irrevTeamsDo fun s => (hexec s).trans (if_pos hx)

end

/-! Uniform words in a string of one team (R24). -/

theorem sameTeam_iff {a b : ThreadId} : sameTeam a b = true ↔ a.blk = b.blk ∧ a.wheel = b.wheel ∧ teamIdx a = teamIdx b := by
  simp only [sameTeam, Bool.and_eq_true, beq_iff_eq, and_assoc]

theorem sameTeam_comm (a b : ThreadId) : sameTeam a b = sameTeam b a :=
  Bool.eq_iff_iff.mpr <| by
    rw [sameTeam_iff, sameTeam_iff, eq_comm (a := a.blk), eq_comm (a := a.wheel), eq_comm (a := teamIdx a)]

theorem sameTeam_refl (a : ThreadId) : sameTeam a a = true := sameTeam_iff.mpr ⟨rfl, rfl, rfl⟩

section
variable (hm : ∀ id ∈ more, sameTeam l id = true)
include hm

theorem teamLeads_of_one : s.teamLeads (l :: more) = [l] := by
  have hlead : (l :: more).foldl (fun acc id => if acc.any (sameTeam id) then acc else acc ++ [id]) [] = [l] := by
    show more.foldl _ [l] = [l]
    induction more with
    | nil => rfl
    | cons id more ih =>
      have hid : [l].any (sameTeam id) = true := by
        rw [List.any_cons, sameTeam_comm, hm id (List.mem_cons_self ..)]; rfl
      rw [List.foldl_cons, if_pos hid]
      exact ih fun k hk => hm k (List.mem_cons_of_mem _ hk)
  rw [State.teamLeads, hlead]
  rfl

theorem filter_sameTeam_of_one : (l :: more).filter (sameTeam l) = l :: more :=
  List.filter_eq_self.mpr fun id hid => (List.mem_cons.mp hid).elim (fun h => h ▸ sameTeam_refl l) (hm id)

theorem execTeams_of_one (h : AtWord s c rest i) (hn : NoStall s c i stall) (ha : s.actors (guardOf i) c = l :: more)
    (eff : Str → ThreadId → List ThreadId → State → State) :
    execTeams i stall eff s = .next ((eff c l (l :: more) s).advance c rest (wordLen i)).tick := by
  rw [execTeams, execAll_issues h hn, ha, teamLeads_of_one hm]
  show _ = _
  rw [List.foldl_cons, List.foldl_nil, filter_sameTeam_of_one hm]

end

theorem NoStall.or {stall' : State → Str → Thread → Bool} (h : NoStall s c i stall) (h' : NoStall s c i stall') :
    NoStall s c i fun s c t => stall s c t || stall' s c t := by
  unfold NoStall at *
  rw [List.any_eq_false] at *
  intro id hid
  have h1 := h id hid
  have h2 := h' id hid
  cases ht : s.thread? id with
  | none => simp
  | some t => simp_all

/-- Outside redundant blocks no load-value queue keeps a word from issuing. -/
theorem noStall_lvFull (h : ∀ id ∈ s.actors (guardOf i) c, s.isRed id.blk = false) : NoStall s c i fun s _ t => s.lvFull t.id := by
  unfold NoStall
  rw [List.any_eq_false]
  intro id hid
  cases ht : s.thread? id with
  | none => simp
  | some t => simp [thread_id ht, lvFull_of_not_red (h id hid)]

end Sys2Proof.Machine
end

section
/-! PROOFS. The try forms of the queue words (R121, R123, R124, R296): the word opens, serves its requests one after the other, and is passed. -/

namespace Sys2Proof.Machine

variable {s s1 : State} {id l : ThreadId} {th u : Thread} {c : Str} {rest : List Str} {i : Instr} {enq : Bool} {x : QueueArgs} {q : PReg}
  {ids : List ThreadId} {word : Nat} {a : Acc} {r : QReq}

/-! A try word outside contained blocks. -/

section
variable (h : AtWord s c rest i) (hcont : ∀ id ∈ c.members, s.isCont id.blk = false)
include h hcont

/-- Every acting thread makes a request of its own or of its team: none is a wheeler, none lacks a register. -/
theorem tryLeads_eq : ((s.actors q c).filter fun id => !s.isWheel id && s.regsOk i id) = s.actors q c :=
  List.filter_eq_self.mpr fun id hid => by
    rw [isWheel_of_not_red (isRed_of_not_cont (hcont id (actor_member hid))), h.regs id (actor_member hid)]; rfl

/-- No thread has to stop for a checkpoint first. -/
theorem tryWord_of_not_cont (hn : c.opened = none → NoStall s c i fun s _ t => s.qStall t enq)
    (hready : c.opened = none → ∀ id ∈ s.actors (guardOf i) c, s.qNotYet .atomic x.mem id = none) :
    tryWord i enq x s = match c.opened with
      | none => if (s.actors (guardOf i) c).isEmpty then .next (tryWord.tryPass i enq x c rest (s.actors (guardOf i) c) s).tick
          else .next (tryOpen enq x c (s.actors (guardOf i) c) s).tick
      | some (word, done) =>
        match (tryRequests s x (s.actors (guardOf i) c)).find? fun u => !done.contains u.1 with
        | some u => .next (tryServe enq x c word u.1 u.2 s).tick
        | none => .next (tryWord.tryPass i enq x c rest (s.actors (guardOf i) c) s).tick := by
  unfold tryWord
  rw [h.head]
  dsimp only
  rw [tryLeads_eq h hcont, h.free]
  refine (if_neg ?_).trans ((if_neg ?_).trans ((if_neg ?_).trans ?_))
  · rw [Bool.not_eq_true, List.any_eq_false]
    intro id hid
    rw [hcont id (actor_member hid), Bool.false_and]
    decide
  · cases hopen : c.opened with
    | none => exact fun hstall => absurd (hstall.symm.trans (hn hopen)) (by decide)
    | some o => simp
  · cases hopen : c.opened with
    | none =>
      have hnone : (s.actors (guardOf i) c).filter (fun id => (none : Option (Nat × List ThreadId)).isNone && (s.qNotYet .atomic x.mem id).isSome) = [] :=
        List.filter_eq_nil_iff.mpr fun id hid => by rw [hready hopen id hid]; decide
      rw [hnone]; decide
    | some o => simp
  · rfl

end

theorem tryPass_of_not_cont (h : AtWord s c rest i) (hcont : ∀ id ∈ c.members, s.isCont id.blk = false) :
    tryWord.tryPass i enq x c rest (s.actors q c) s = s.advance c rest (wordLen i) := by
  have hwheels : (s.actors q c).filter s.isWheel = [] := List.filter_eq_nil_iff.mpr fun id hid => by
    rw [isWheel_of_not_red (isRed_of_not_cont (hcont id (actor_member hid)))]; decide
  unfold tryWord.tryPass
  dsimp only
  rw [State.trapRegs_eq h.regs, hwheels]
  exact snapAfter_eq fun id hid => .inl (hcont id hid)

theorem thread?_advance_ready {len : Nat} (hid : id ∈ c.members) (ht : s.thread? id = some th) (hready : th.ready = true) :
    (s.advance c rest len).thread? id = some (th.pass len) := by
  rw [thread?_advance_member hid ht, if_pos hready]

/-! The word opens: the releases of an enqueue begin (R124). -/

/-- One thread's part of the opening. -/
def openPart (enq : Bool) (x : QueueArgs) (s : State) (id : ThreadId) : State :=
  let s := s.flush (s.coreOf id) fun b => b.dirty.contains id
  match s.thread? id with
  | none => s
  | some t =>
    if enq then
      let own := match (s.qPlace id (memVa x.mem t) .atomic).2 with | .ok a => scopeOf (qScope (s.qcbAt (accPa a) a.key)) | .error _ => .blk
      s.beginRelease id (x.scope.getD own) [] none
    else s

theorem openPart_cases : ((openPart enq x s id).sansTraffic = s.sansTraffic ∧ s.nextId ≤ (openPart enq x s id).nextId ∧ (enq = true → s.thread? id = none))
    ∨ ∃ (sc : Scope) (y : State), openPart enq x s id = y.beginRelease id sc [] none ∧ y.sansTraffic = s.sansTraffic ∧ s.nextId ≤ y.nextId := by
  have hflush := flush_sansTraffic (s := s) (core := s.coreOf id) (p := fun b => b.dirty.contains id)
  have hnext := flush_nextId (s := s) (core := s.coreOf id) (p := fun b => b.dirty.contains id)
  unfold openPart
  generalize s.flush (s.coreOf id) (fun b => b.dirty.contains id) = y at hflush hnext
  dsimp only
  split
  · next hnone => exact .inl ⟨hflush, hnext, fun _ => (congrArg (fun x => x.thread? id) hflush :).symm.trans hnone⟩
  · split
    · exact .inr ⟨_, y, rfl, hflush, hnext⟩
    · next henq => exact .inl ⟨hflush, hnext, fun h => absurd h henq⟩

theorem openPart_sansRelease : (openPart enq x s id).sansRelease = s.sansRelease := by
  obtain ⟨h, -, -⟩ | ⟨sc, y, h, hy, -⟩ := openPart_cases (enq := enq) (x := x) (s := s) (id := id)
  · exact congrArg (fun x : State => { x with rels := [] }) h
  · exact h ▸ beginRelease_sansRelease.trans (congrArg (fun x : State => { x with rels := [] }) hy)

theorem openPart_nextId : s.nextId ≤ (openPart enq x s id).nextId := by
  obtain ⟨-, h, -⟩ | ⟨sc, y, h, -, hy⟩ := openPart_cases (enq := enq) (x := x) (s := s) (id := id)
  · exact h
  · exact h ▸ hy.trans beginRelease_nextId.le

theorem openPart_rels : s.rels ⊆ (openPart enq x s id).rels
    ∧ (enq = true → s.thread? id ≠ none → ∃ r ∈ (openPart enq x s id).rels, r.th = id ∧ s.nextId ≤ r.id) := by
  obtain ⟨h, -, hnone⟩ | ⟨sc, y, h, hy, hnext⟩ := openPart_cases (enq := enq) (x := x) (s := s) (id := id)
  · have hrels : (openPart enq x s id).rels = s.rels := (congrArg State.rels h :)
    exact ⟨hrels.symm ▸ List.Subset.refl _, fun henq hsome => absurd (hnone henq) hsome⟩
  · have hrels : y.rels = s.rels := (congrArg State.rels hy :)
    rw [h, beginRelease_rels, hrels]
    exact ⟨List.subset_append_left .., fun _ _ => ⟨_, List.mem_append_right _ (List.mem_singleton.mpr rfl), rfl, hnext⟩⟩

/-- Each acting thread of an enqueue has a release among the new ones. -/
theorem openPart_foldl_rels (henq : enq = true) {n : Nat} (hn : n ≤ s.nextId) (l : List ThreadId) (hl : ∀ id ∈ l, s.thread? id ≠ none) :
    s.rels ⊆ (l.foldl (openPart enq x) s).rels ∧ ∀ id ∈ l, ∃ r ∈ (l.foldl (openPart enq x) s).rels, r.th = id ∧ n ≤ r.id := by
  induction l generalizing s with
  | nil => exact ⟨List.Subset.refl _, fun _ h => nomatch h⟩
  | cons k l ih =>
    have hth (id : ThreadId) : (openPart enq x s k).thread? id = s.thread? id :=
      (congrArg (fun x => x.thread? id) (openPart_sansRelease (enq := enq) (x := x) (s := s) (id := k)) :)
    obtain ⟨hsub, hnew⟩ := openPart_rels (enq := enq) (x := x) (s := s) (id := k)
    obtain ⟨hsub', hnew'⟩ := ih (hn.trans openPart_nextId) fun id hid => (hth id).symm ▸ hl id (List.mem_cons_of_mem _ hid)
    refine ⟨List.Subset.trans hsub hsub', fun id hid => ?_⟩
    obtain rfl | hid := List.mem_cons.mp hid
    · obtain ⟨r, hr, hrth, hid⟩ := hnew henq (hl id (List.mem_cons_self ..))
      exact ⟨r, hsub' hr, hrth, hn.trans hid⟩
    · exact hnew' id hid

theorem tryOpen_spec (hs : s.strings = c :: rest) (hids : ∀ id ∈ ids, s.thread? id ≠ none) :
    ∃ c', (tryOpen enq x c ids s).mem = s.mem ∧ (tryOpen enq x c ids s).threads = s.threads ∧ (tryOpen enq x c ids s).strings.head? = some c'
      ∧ c'.pc = c.pc ∧ (∃ n, c'.opened = some (n, []))
      ∧ (enq = true → ∀ id ∈ ids, ∃ r ∈ (tryOpen enq x c ids s).rels, r.th = id ∧ r.id ∈ c'.hold) := by
  have hrest : (ids.foldl (openPart enq x) s).sansRelease = s.sansRelease := foldl_keeps (fun _ _ => openPart_sansRelease) _ _
  have hstrings : (ids.foldl (openPart enq x) s).strings = c :: rest := (congrArg State.strings hrest :).trans hs
  refine ⟨{ c with
      hold := ((ids.foldl (openPart enq x) s).rels.filter fun r => decide (s.nextId ≤ r.id) && ids.contains r.th).map (·.id)
      opened := some ((ids.foldl (openPart enq x) s).nextId, []) },
    (congrArg State.mem hrest :), (congrArg State.threads hrest :), ?_, rfl, ⟨_, rfl⟩, fun henq id hid => ?_⟩
  · change (List.map _ (ids.foldl (openPart enq x) s).strings).head? = _
    rw [hstrings, List.map_cons, List.head?_cons, if_pos BEq.rfl]
    rfl
  · obtain ⟨r, hr, hth, hnew⟩ := (openPart_foldl_rels (x := x) henq (Nat.le_refl _) ids hids).2 id hid
    refine ⟨r, hr, hth, List.mem_map.mpr ⟨r, List.mem_filter.mpr ⟨hr, ?_⟩, rfl⟩⟩
    simp [hnew, hth, hid]

theorem tryForms_hold : tryForms := by
  intro q x enq i hi s c rest h hcont
  obtain ⟨hq, hexec⟩ : guardOf i = q ∧ exec i s = tryWord i enq x s := by
    simp only [List.mem_cons, Prod.mk.injEq, List.not_mem_nil, or_false] at hi
    obtain ⟨rfl, rfl⟩ | ⟨rfl, rfl⟩ := hi
    · exact ⟨guardOf_two rfl, rfl⟩
    · exact ⟨guardOf_two rfl, rfl⟩
  subst hq
  refine ⟨fun hopen hne hready hn => ?opens, fun word done u hopen hnext => ?serves, fun hdone => ?passes⟩
  case opens =>
    have hthreads (id) (hid : id ∈ s.actors (guardOf i) c) : s.thread? id ≠ none := by
      obtain ⟨th, ht, -⟩ := thread_of_actor hid
      rw [ht]; exact Option.some_ne_none _
    obtain ⟨c', hmem, hths, hc', hpc, hopened, hrels⟩ := tryOpen_spec (enq := enq) (x := x) h.head hthreads
    have hword := hexec.trans (tryWord_of_not_cont h hcont (fun _ => hn) fun _ => hready)
    rw [hopen] at hword
    exact ⟨_, c', hword.trans (if_neg (by simpa using hne)), hmem, hths, hc', hpc, hopened, hrels⟩
  case serves =>
    have hword := hexec.trans (tryWord_of_not_cont (enq := enq) (x := x) h hcont (fun hnone => nomatch hnone.symm.trans hopen)
      fun hnone => nomatch hnone.symm.trans hopen)
    rw [hopen] at hword
    dsimp only at hword
    rw [hnext] at hword
    exact hword
  case passes =>
    have hpass : exec i s = .next (s.advance c rest (wordLen i)).tick := by
      rw [hexec]
      obtain ⟨hopen, hnone⟩ | ⟨word, done, hopen, hall⟩ := hdone
      · rw [tryWord_of_not_cont h hcont (fun _ => by unfold NoStall; rw [hnone]; rfl) (fun _ => by rw [hnone]; exact fun _ h => nomatch h), hopen]
        exact (if_pos (by rw [hnone]; rfl)).trans (by rw [tryPass_of_not_cont h hcont])
      · have hserved : (tryRequests s x (s.actors (guardOf i) c)).find? (fun u => !done.contains u.1) = none :=
          List.find?_eq_none.mpr fun u hu => by simpa using hall u hu
        rw [tryWord_of_not_cont h hcont (fun hnone => nomatch hnone.symm.trans hopen) (fun hnone => nomatch hnone.symm.trans hopen), hopen]
        dsimp only
        rw [hserved]
        dsimp only
        rw [tryPass_of_not_cont h hcont]
    exact ⟨_, hpass, rfl, fun id hid th ht hready => thread?_advance_ready (rest := rest) hid ht hready⟩

/-! One request of a try form (R121 to R123). -/

section
variable {pc : Word} {e : Cause × DWord}

/-- A failed request traps one of its threads. -/
def failPart (pc : Word) (e : Cause × DWord) (s : State) (id : ThreadId) : State :=
  if (match s.thread? id with | some t => t.granted | none => false) then s.raisePair id pc e.1 e.2 else s.raise id pc e.1 e.2 0 true

/-- Threads that stand at the word as it was issued trap one by one. -/
theorem foldl_failPart (hnd : ids.Nodup) (hg : ∀ id ∈ ids, ∀ u, s.thread? id = some u → u.granted = false) :
    ids.foldl (failPart pc e) s = ids.foldl (fun s id => s.raise id pc e.1 e.2 0 true) s := by
  induction ids generalizing s with
  | nil => rfl
  | cons k ids ih =>
    obtain ⟨hk, hnd⟩ := List.nodup_cons.mp hnd
    have hplain : failPart pc e s k = s.raise k pc e.1 e.2 0 true := by
      refine if_neg ?_
      cases hu : s.thread? k with
      | none => decide
      | some u => exact fun h => absurd (h.symm.trans (hg k (List.mem_cons_self ..) u hu)) (by decide)
    rw [List.foldl_cons, List.foldl_cons, hplain]
    refine ih hnd fun id hid u hu => hg id (List.mem_cons_of_mem _ hid) u ?_
    rwa [raise_keeps.others id fun (h : id = k) => hk (h ▸ hid)] at hu

theorem thread?_foldl_raise {cause : Cause} {addr : DWord} {sub : BitVec 8} {wd : Bool} (hid : id ∈ ids) (hr : s.isRed id.blk = false) :
    (ids.foldl (fun s id => s.raise id pc cause addr sub wd) s).thread? id
      = (s.thread? id).map (Thread.parkedBy { cause := cause, addr := addr, sub := sub, word := wd }) :=
  (thread?_foldl (P := fun x => x.blocks = s.blocks) (step := fun s id => s.raise id pc cause addr sub wd) (fun _ _ h => raise_keeps.blocks.trans h)
    (fun _ h => thread?_raise_same ((isRed_congr h _).trans hr)) (fun _ _ _ hk => raise_keeps.others id hk.symm) (.inr fun _ => rfl) rfl).trans (if_pos hid)

end

/-- The threads `ids` are served: the word of their string goes on with the others. -/
def State.tryServed (s : State) (c : Str) (word : Nat) (ids : List ThreadId) : State :=
  { s with strings := s.strings.map fun d => if d == c then { c with opened := some (word, (match c.opened with | some o => o.2 | none => []) ++ ids) } else d }

/-- A new request is recorded. -/
def State.withReq (s : State) (r : QReq) : State := { s.bump with qreqs := s.qreqs ++ [r] }

/-- The state in which the slice finds a new request of a try form. -/
def State.tryRecorded (s : State) (r : QReq) (ids : List ThreadId) : State :=
  (if r.enq then s.withReq r else ids.foldl (fun s id => s.lvOpen id r.pc r.id) (s.withReq r)).qOpenStat r

/-- What follows when the slice has answered. -/
def State.tryAnswered (s : State) (c : Str) (word : Nat) (ids : List ThreadId) (r : QReq) : State :=
  match (s.qreqs.find? fun y => y.id == r.id).bind (·.trap) with
  | some e => ids.foldl (failPart c.pc e) (State.tryServed { ids.foldl (fun s id => s.lvDrop id r.id) s with qreqs := s.qreqs.filter fun y => y.id != r.id } c word ids)
  | none => (s.qRaise r).tryServed c word ids

theorem tryServe_error {e : Cause} (ht : s.thread? l = some th) (hp : s.qPlace l (memVa x.mem th) .atomic = (s1, .error e)) :
    tryServe enq x c word l ids s = ids.foldl (failPart c.pc (e, memVa x.mem th)) (s1.tryServed c word ids) := by
  unfold tryServe
  rw [ht]
  dsimp only
  rw [hp]
  rfl

theorem tryServe_placed (ht : s.thread? l = some th) (hp : s.qPlace l (memVa x.mem th) .atomic = (s1, .ok a))
    (hr : r = queueMk enq true x s1 c ids (memVa x.mem th) a word) :
    tryServe enq x c word l ids s = if s1.qLater r (s1.qcbAt r.qcbPa r.key) then s1.qAskLater r (s1.qcbAt r.qcbPa r.key)
      else ((s1.tryRecorded r ids).qAccept r (s1.qcbAt r.qcbPa r.key)).tryAnswered c word ids r := by
  subst hr
  unfold tryServe
  rw [ht]
  dsimp only
  rw [hp]
  rfl

theorem tryRecorded_eq (hths : r.ths = ids) (hred : ∀ id ∈ ids, s.isRed id.blk = false) : s.tryRecorded r ids = s.withReq r := by
  have hopen : (if r.enq then s.withReq r else ids.foldl (fun s id => s.lvOpen id r.pc r.id) (s.withReq r)) = s.withReq r := by
    split
    · rfl
    · exact foldl_lvOpen_of_not_red hred
  rw [State.tryRecorded, hopen]
  exact qOpenStat_of_not_red (hths ▸ hred)

/-- A try form that finds no room, or no elements, is answered at once (R123). -/
theorem qAccept_of_no_room {q : Nat} (hb : qBroken q = false) (hok : s.qcbOk r.qcbPa q = true) (hfit : r.fits q = true) (hroom : s.qRoom r q = false)
    (htry : r.try_ = true) : s.qAccept r q = s.qEnd r (if r.enq then 1 else 2) [] := by
  simp only [State.qAccept, hb, hok, hfit, hroom, htry, Bool.not_true, Bool.false_and, Bool.false_eq_true, if_false, if_true]

/-! A new request that does not wait and does not move changes neither the lists of waiters nor the slots that are taken. -/

section
variable {s : State} {pa q : Nat} {y : QReq}

theorem waiters_withReq (h : r.waiting = false) : (s.withReq r).waiters pa enq = s.waiters pa enq := by
  simp [State.withReq, State.waiters, List.filter_append, h]

theorem qcbOk_withReq (h : r.waiting = false) : (s.withReq r).qcbOk pa q = s.qcbOk pa q := by
  simp only [State.qcbOk, waiters_withReq h]

theorem qMoving_withReq (h : r.moving = none) : (s.withReq r).qMoving pa = s.qMoving pa := by
  simp [State.withReq, State.qMoving, List.filter_append, h]

theorem qRoom_withReq (h : r.moving = none) : (s.withReq r).qRoom y q = s.qRoom y q := by
  simp only [State.qRoom, qMoving_withReq h]

end

/-- A request of a new number is found by it. -/
theorem find?_request {l : List QReq} {f : QReq → QReq} (hl : ∀ y ∈ l, y.id ≠ r.id) (hf : ∀ y, (f y).id = y.id) :
    ((l ++ [r]).map fun y => if y.id == r.id then f y else y).find? (fun y => y.id == r.id) = some (f r) := by
  rw [find?_map_of_keeps fun y => by split <;> simp only [hf], List.find?_append,
    List.find?_eq_none.mpr fun y hy => by simpa using hl y hy]
  simp

theorem QReq.raised_of_try (h : r.try_ = true) (t : Thread) (hp : t.pend = []) : r.raised t = { t with
    st := t.st + (if r.enq then 1 else 0), ld := t.ld + (if r.enq then 0 else 1), hold := t.hold ++ r.regs } := by
  obtain ⟨id, pc, hdr, wlen, g, gbad, p, ras, status, waitCount, ld, st, as, tl, hold, pend, lastIssue, done, granted⟩ := t
  cases hp
  simp only [QReq.raised, h, if_true]
  cases r.enq <;> rfl

theorem tryAnswered_of_no_trap (h : (s.qreqs.find? fun y => y.id == r.id).bind (·.trap) = none) :
    s.tryAnswered c word ids r = (s.qRaise r).tryServed c word ids := by
  unfold State.tryAnswered
  rw [h]

section
variable {code : Nat}

theorem find?_qEnd_withReq (hnew : ∀ y ∈ s.qreqs, y.id ≠ r.id) :
    ((s.withReq r).qEnd r code []).qreqs.find? (fun y => y.id == r.id) = some { r with moving := none, result := some (code, []) } :=
  find?_request (f := fun r => { r with moving := none, result := some (code, []) }) hnew fun _ => rfl

/-- The slice's answer to a request that ends where it is made: its status is on its way, and its threads hold what it will write. -/
theorem qEnd_withReq_spec (hnew : ∀ y ∈ s.qreqs, y.id ≠ r.id) (hnd : r.ths.Nodup) (hw : r.waiting = false) :
    (∃ r' ∈ (((s.withReq r).qEnd r code []).qRaise r).qreqs, r'.ths = r.ths ∧ r'.result = some (code, []) ∧ r'.waiting = false
        ∧ Ev.queueRequestComplete r'.id ∈ (((s.withReq r).qEnd r code []).qRaise r).agenda)
      ∧ (((s.withReq r).qEnd r code []).qRaise r).mem = s.mem
      ∧ ∀ id ∈ r.ths, (((s.withReq r).qEnd r code []).qRaise r).thread? id = (s.thread? id).map r.raised := by
  have hraise := qRaise_sansThreads (s := (s.withReq r).qEnd r code []) (r := r)
  have hagenda : (((s.withReq r).qEnd r code []).qRaise r).agenda = s.agenda ++ [.queueRequestComplete r.id] := (congrArg State.agenda hraise :)
  have hqreqs : (((s.withReq r).qEnd r code []).qRaise r).qreqs = ((s.withReq r).qEnd r code []).qreqs := (congrArg State.qreqs hraise :)
  have hreq : ({ r with moving := none, result := some (code, []) } : QReq) ∈ ((s.withReq r).qEnd r code []).qreqs :=
    List.mem_of_find?_eq_some (find?_qEnd_withReq hnew)
  refine ⟨⟨{ r with moving := none, result := some (code, []) }, by rw [hqreqs]; exact hreq, rfl, rfl, hw, ?_⟩, (congrArg State.mem hraise :), fun id hid => ?_⟩
  · rw [hagenda]
    exact List.mem_append_right _ (List.mem_singleton.mpr rfl)
  · exact thread?_qRaise hnd hid

end

/-- The slice finds the request's place. -/
def TryPlaced (enq : Bool) (x : QueueArgs) (c : Str) (word : Nat) (ids : List ThreadId) (s s1 : State) (l : ThreadId) (th : Thread) (a : Acc) (r : QReq) : Prop :=
  s.thread? l = some th ∧ s.qPlace l (memVa x.mem th) .atomic = (s1, .ok a) ∧ r = queueMk enq true x s1 c ids (memVa x.mem th) a word

/-- A check that fails traps each of its threads at the word. -/
theorem tryServe_fails {e : Cause} (ht : s.thread? l = some th) (hp : s.qPlace l (memVa x.mem th) .atomic = (s1, .error e)) (hnd : ids.Nodup)
    (hplain : ∀ id ∈ ids, ∀ u, s.thread? id = some u → u.granted = false) (hid : id ∈ ids) (hr : s.isRed id.blk = false) (hu : s.thread? id = some u) :
    (tryServe enq x c word l ids s).thread? id = some (u.parkedBy { cause := e, addr := memVa x.mem th, sub := 0, word := true }) := by
  have hlook := qPlace_of_eq hp
  have hred : (s1.tryServed c word ids).isRed id.blk = false := (isRed_congr (congrArg State.blocks hlook :) _).trans hr
  have hth (k) : (s1.tryServed c word ids).thread? k = s.thread? k := (congrArg (fun x => x.thread? k) hlook :)
  rw [tryServe_error ht hp, foldl_failPart hnd fun k hk u hu => hplain k hk u ((hth k).symm.trans hu), thread?_foldl_raise hid hred, hth, hu]
  rfl

section
variable (hp : TryPlaced enq x c word ids s s1 l th a r)
include hp

theorem TryPlaced.later (h : s1.qLater r (s1.qcbAt r.qcbPa r.key) = true) :
    tryServe enq x c word l ids s = s1.qAskLater r (s1.qcbAt r.qcbPa r.key) := by
  obtain ⟨ht, hp, hreq⟩ := hp
  exact (tryServe_placed ht hp hreq).trans (if_pos h)

/-- No room, or no elements: the request ends where it is made (R123). -/
theorem TryPlaced.ends (hred : ∀ id ∈ ids, s.isRed id.blk = false) (hnew : ∀ y ∈ s1.qreqs, y.id ≠ r.id)
    (hlater : s1.qLater r (s1.qcbAt r.qcbPa r.key) = false)
    (hb : qBroken (s1.qcbAt r.qcbPa r.key) = false) (hok : s1.qcbOk r.qcbPa (s1.qcbAt r.qcbPa r.key) = true)
    (hfit : r.fits (s1.qcbAt r.qcbPa r.key) = true) (hroom : s1.qRoom r (s1.qcbAt r.qcbPa r.key) = false) :
    tryServe enq x c word l ids s = (((s1.withReq r).qEnd r (if enq then 1 else 2) []).qRaise r).tryServed c word ids := by
  obtain ⟨ht, hp, hreq⟩ := hp
  obtain ⟨henq, htry, hths, -, -, -, -, -, -, -, hwait, hmoving, -, htrap⟩ := queueMk_fields hreq
  have hred1 (id) (hid : id ∈ ids) : s1.isRed id.blk = false := (isRed_congr (congrArg State.blocks (qPlace_of_eq hp) :) _).trans (hred id hid)
  have htrap' (code : Nat) : (((s1.withReq r).qEnd r code []).qreqs.find? fun y => y.id == r.id).bind (·.trap) = none := by
    rw [find?_qEnd_withReq hnew]; exact htrap
  rw [tryServe_placed ht hp hreq, hlater, if_neg (by decide), tryRecorded_eq hths hred1, qAccept_of_no_room hb ((qcbOk_withReq hwait).trans hok) hfit
    ((qRoom_withReq hmoving).trans hroom) htry, henq]
  exact tryAnswered_of_no_trap (htrap' _)

end

theorem tryRequest_holds : tryRequest := by
  intro enq x c word l ids s th ht hr hl hids hnd hplain hnew
  have hred (id) (hid : id ∈ ids) : s.isRed id.blk = false := hids id hid ▸ hr
  refine ⟨fun s1 e hp id hid u hu => ⟨_, tryServe_fails ht hp hnd (fun k hk u hu => (hplain k hk u hu).2) hid (hred id hid) hu, rfl, rfl⟩,
    fun s1 a r hp hreq => ?_⟩
  obtain ⟨henq, htry, hths, hteam, -, -, hes, hdst, hstat, hnum, hwait, -, -, -⟩ := queueMk_fields hreq
  have hlook : s1.sansLookup = s.sansLookup := qPlace_of_eq hp
  have hplaced : TryPlaced enq x c word ids s s1 l th a r := ⟨ht, hp, hreq⟩
  refine ⟨henq, htry, hths, hes, hdst, hstat, hteam, fun pa hloc => queueMk_spec hp hloc hreq, hplaced.later, fun hlater hb hok hfit hroom => ?_⟩
  have hfresh (y) (hy : y ∈ s1.qreqs) : y.id ≠ r.id := by
    have hid : r.id = s.nextId := hnum.trans (congrArg State.nextId hlook :)
    have hqreqs : s1.qreqs = s.qreqs := (congrArg State.qreqs hlook :)
    exact hid ▸ (hnew y (hqreqs ▸ hy)).ne
  have hend := hplaced.ends hred hfresh hlater hb hok hfit hroom
  generalize tryServe enq x c word l ids s = t at hend ⊢
  obtain ⟨⟨r', hr', hths', hres, hwait', hdone⟩, hmem, hthreads⟩ :=
    qEnd_withReq_spec (code := if enq then 1 else 2) hfresh (hths ▸ hnd) hwait
  subst hend
  refine ⟨⟨r', hr', hths'.trans hths, hres, hwait', hdone⟩, hmem.trans (congrArg State.mem hlook :), fun id hid u hu => ?_⟩
  have hu1 : s1.thread? id = some u := (congrArg (fun x => x.thread? id) hlook :).trans hu
  refine (hthreads id (hths ▸ hid)).trans ?_
  rw [hu1, Option.map_some, QReq.raised_of_try htry u (hplain id hid u hu).1, henq]

end Sys2Proof.Machine
end

section
/-! PROOFS. Queue registers of a team (R50, R130, R133): their bindings after a team's update, and the uniform words that end one binding and put another
in its place. -/

namespace Sys2Proof.Machine

variable {s x : State} {id l : ThreadId} {u : Thread} {m : Team} {c : Str} {rest : List Str} {i : Instr} {more ids : List ThreadId} {d e : QReg}
  {b bind : QBind} {len : Nat}

/-! The team of a thread after an update of it. -/

theorem teamOf_modTeamOf {f : Team → Team} (hf : ∀ m, (f m).blk = m.blk ∧ (f m).wheel = m.wheel ∧ (f m).idx = m.idx) :
    (s.modTeamOf l f).teamOf l = (s.teamOf l).map f := by
  have hkey : ∀ m : Team, (fun m : Team => m.blk == l.blk && m.wheel == l.wheel && m.idx == teamIdx l)
      (if m.blk == l.blk && m.wheel == l.wheel && m.idx == teamIdx l then f m else m) = (m.blk == l.blk && m.wheel == l.wheel && m.idx == teamIdx l) := by
    intro m
    obtain ⟨hblk, hwheel, hidx⟩ := hf m
    dsimp only
    split <;> simp only [hblk, hwheel, hidx]
  refine (find?_map_of_keeps hkey s.teams).trans ?_
  change (s.teamOf l).map _ = _
  cases hm : s.teamOf l with
  | none => rfl
  | some m =>
    have hfound := List.find?_some (p := fun m : Team => m.blk == l.blk && m.wheel == l.wheel && m.idx == teamIdx l) hm
    simp only [Option.map_some, hfound, if_true]

theorem teamOf_setQreg : (s.setQreg l d b).teamOf l = (s.teamOf l).map fun m => m.setQ d b := teamOf_modTeamOf fun _ => ⟨rfl, rfl, rfl⟩

theorem teamOf_setY {dst : List Span} {f : Sparse 32 → Sparse 32} : (s.setY l dst f).teamOf l =
    (s.teamOf l).map fun m => { m with y := f m.y, ybad := m.ybad.filter fun r => !spansMeet [r] dst } := teamOf_modTeamOf fun _ => ⟨rfl, rfl, rfl⟩

theorem qregOf_of_team (h : s.teamOf l = some m) : s.qregOf l d = m.qreg d := by simp only [State.qregOf, h]

theorem qregOf_congr (h : x.teams = s.teams) : x.qregOf l d = s.qregOf l d := by simp only [State.qregOf, State.teamOf, State.team?, h]

theorem qreg_setQ (hq : m.q.length = 8) : (m.setQ d b).qreg e = if e = d then b else m.qreg e := by
  have hd : d.toNat < m.q.length := hq ▸ d.isLt
  simp only [Team.qreg, Team.setQ, List.getD_eq_getElem?_getD, List.getElem?_set, BitVec.toNat_inj, eq_comm (a := e), hd, if_true]
  split
  · rfl
  · rfl

theorem qregOf_setQreg (hm : s.teamOf l = some m) (hq : m.q.length = 8) : (s.setQreg l d b).qregOf l e = if e = d then b else s.qregOf l e := by
  rw [qregOf_of_team (teamOf_setQreg.trans (congrArg _ hm)), qreg_setQ hq, qregOf_of_team hm]

/-! A trap leaves the teams of ordinary blocks alone. -/

theorem raise_teams {pc : Word} {cause : Cause} {addr : DWord} {sub : BitVec 8} {word : Bool} (hr : s.isRed id.blk = false) :
    (s.raise id pc cause addr sub word).teams = s.teams := by
  cases ht : s.thread? id with
  | none => simp only [State.raise, ht]
  | some th => rw [raise_eq_park ht hr]; rfl

theorem foldl_raise_teams {pc : Word} {cause : Cause} {addr : DWord} {sub : BitVec 8} {word : Bool} (hr : ∀ id ∈ ids, s.isRed id.blk = false) :
    (ids.foldl (fun s id => s.raise id pc cause addr sub word) s).teams = s.teams := by
  induction ids generalizing s with
  | nil => rfl
  | cons id ids ih =>
    rw [List.foldl_cons]
    refine (ih fun k hk => ?_).trans (raise_teams (hr id (List.mem_cons_self ..)))
    exact (isRed_congr raise_keeps.blocks _).trans (hr k (List.mem_cons_of_mem _ hk))

/-! The end of a binding (R133). -/

/-- A thread that a word makes wait. -/
def Thread.waitFor (w : Wait) (t : Thread) : Thread := { t with status := .waiting w }

/-- A binding that can end, that no request uses, and that no older team of the word waits for: the new one takes its place. -/
theorem rebind_ends (hend : s.canEnd l d = true) (hreqs : s.regReqs l d = []) (hun : s.unbinding c.seq (fun u => !sameTeam u l) = false) :
    rebind d bind c l ids s = (s.setQreg l d .unbound).setQreg l d bind := by
  rw [rebind, if_pos (by rw [hend, hun]; rfl), State.endBind, hreqs]
  rfl

theorem qregOf_rebind (hend : s.canEnd l d = true) (hreqs : s.regReqs l d = []) (hun : s.unbinding c.seq (fun u => !sameTeam u l) = false)
    (hm : s.teamOf l = some m) (hq : m.q.length = 8) : (rebind d bind c l ids s).qregOf l e = if e = d then bind else s.qregOf l e := by
  rw [rebind_ends hend hreqs hun, qregOf_setQreg (teamOf_setQreg.trans (congrArg _ hm)) (by simpa [Team.setQ] using hq), qregOf_setQreg hm hq]
  split <;> rfl

/-- A binding that cannot end yet: its threads wait. -/
theorem rebind_waits (h : s.canEnd l d = false) : rebind d bind c l ids s =
    ids.foldl (fun s id => s.modThread id (Thread.waitFor (.unbind d bind c.seq))) s :=
  if_neg (by rw [h]; exact Bool.false_ne_true)

theorem thread?_rebind_waits (h : s.canEnd l d = false) (hid : id ∈ ids) :
    (rebind d bind c l ids s).thread? id = (s.thread? id).map (Thread.waitFor (.unbind d bind c.seq)) := by
  rw [rebind_waits h]
  exact (thread?_foldl (P := fun _ => True) (step := fun s id => s.modThread id (Thread.waitFor (.unbind d bind c.seq))) (fun _ _ _ => trivial)
    (fun _ _ => thread?_modThread_same fun _ => rfl) (fun _ _ _ hk => thread?_modThread_other (fun _ => rfl) hk) (.inr fun _ => rfl) trivial).trans (if_pos hid)

theorem rebind_waits_sansThreads (h : s.canEnd l d = false) : (rebind d bind c l ids s).sansThreads = s.sansThreads := by
  rw [rebind_waits h]
  exact foldl_keeps (g := State.sansThreads)
    (step := fun s id => s.modThread id (Thread.waitFor (.unbind d bind c.seq))) (fun _ _ => rfl) ..

/-! A uniform word in a string of one team. -/

section
variable (ha : s.actors (guardOf i) c = l :: more)
include ha

/-- An acting thread that a word leaves ready passes it. -/
theorem thread?_advance_actor (hx : x.threads = s.threads) (hid : id ∈ l :: more) (hu : s.thread? id = some u) :
    (x.advance c rest len).thread? id = some (u.pass len) := by
  obtain ⟨v, hv, hready, -⟩ := thread_of_actor (ha ▸ hid : id ∈ s.actors (guardOf i) c)
  obtain rfl := Option.some.inj (hv.symm.trans hu)
  have hxu : x.thread? id = some v := (congrArg (List.find? fun t => t.id == id) hx :).trans hu
  exact thread?_advance_ready (actor_member (ha ▸ hid)) hxu hready

/-- A word that ends the binding it finds, and puts another in its place. -/
theorem rebind_word_ends (hx : x.threads = s.threads) (hend : x.canEnd l d = true) (hreqs : x.regReqs l d = [])
    (hun : x.unbinding c.seq (fun u => !sameTeam u l) = false) (hm : x.teamOf l = some m) (hq : m.q.length = 8)
    (hexec : exec i s = .next ((rebind d bind c l (l :: more) x).advance c rest (wordLen i)).tick) :
    ∃ t, exec i s = .next t ∧ t = { x with threads := t.threads, teams := t.teams, strings := t.strings, cycle := x.cycle + 1 }
      ∧ t.qregOf l d = bind ∧ (∀ e, e ≠ d → t.qregOf l e = x.qregOf l e)
      ∧ ∀ id ∈ l :: more, ∀ u, s.thread? id = some u → t.thread? id = some (u.pass (wordLen i)) := by
  have hq' (e : QReg) := qregOf_rebind (e := e) (ids := l :: more) (bind := bind) hend hreqs hun hm hq
  have hends := rebind_ends (ids := l :: more) (bind := bind) hend hreqs hun
  refine ⟨_, hexec, by rw [hends]; rfl, (hq' d).trans (if_pos rfl), fun e he => (hq' e).trans (if_neg he), fun id hid u hu => ?_⟩
  exact thread?_advance_actor (rest := rest) (x := rebind d bind c l (l :: more) x) ha (by rw [hends]; exact hx) hid hu

/-- A word that has to wait for the end of the binding it finds. -/
theorem rebind_word_waits (hend : s.canEnd l d = false)
    (hexec : exec i s = .next ((rebind d bind c l (l :: more) s).advance c rest (wordLen i)).tick) :
    ∃ t, exec i s = .next t ∧ t.qregOf l d = s.qregOf l d
      ∧ ∀ id ∈ l :: more, ∀ u, s.thread? id = some u → StaysWith t c i u (.waiting (.unbind d bind c.seq)) := by
  refine ⟨_, hexec, qregOf_congr (congrArg State.teams (rebind_waits_sansThreads hend) :), fun id hid u hu => ?_⟩
  obtain rfl := thread_id hu
  exact thread?_advance_member (rest := rest) (actor_member (ha ▸ hid)) ((thread?_rebind_waits hend hid).trans (congrArg _ hu))

/-- A word whose check fails traps its threads and leaves the binding as it was. -/
theorem illegal_word (hx : x.sansLookup = s.sansLookup) (hr : ∀ id ∈ l :: more, s.isRed id.blk = false) (hu : s.thread? l = some u)
    (hexec : exec i s = .next (((l :: more).foldl (fun s id => s.raise id c.pc .illegalOp 0 0 true) x).advance c rest (wordLen i)).tick) :
    ∃ t th, exec i s = .next t ∧ t.thread? l = some th ∧ th.status = .parked { cause := .illegalOp, addr := 0, sub := 0, word := true }
      ∧ t.qregOf l d = s.qregOf l d := by
  have hrx (id) (hid : id ∈ l :: more) : x.isRed id.blk = false := (isRed_congr (congrArg State.blocks hx :) _).trans (hr id hid)
  have hxu : x.thread? l = some u := (congrArg (fun x => x.thread? l) hx :).trans hu
  have hpark := thread?_foldl_raise (ids := l :: more) (pc := c.pc) (cause := .illegalOp) (addr := 0) (sub := 0) (wd := true)
    (List.mem_cons_self ..) (hrx l (List.mem_cons_self ..))
  refine ⟨_, _, hexec, thread?_advance_member (rest := rest) (actor_member (ha ▸ List.mem_cons_self ..)) (hpark.trans (congrArg _ hxu)), rfl, ?_⟩
  exact qregOf_congr ((foldl_raise_teams hrx).trans (congrArg State.teams hx :))

end

end Sys2Proof.Machine
end

section
/-! PROOFS. The words that bind a queue register and read its state (R130 to R133, R297, R298), in a string of one team outside redundant blocks. -/

namespace Sys2Proof.Machine

variable {s s' : State} {id l : ThreadId} {th : Thread} {mm : Team} {c : Str} {rest : List Str} {i : Instr} {more : List ThreadId} {q : PReg} {d : QReg}
  {k : BitVec 4} {y : YReg} {m : MemOp} {bind : QBind} {a : Acc} {pa : Nat}

theorem yOf_of_team (h : s.teamOf l = some mm) : s.yOf l = mm.y := by simp only [State.yOf, h]

/-! `qbind.copy`, `qunbind` and `qbind.gather`. -/

/-- The port that a gather record in `k` describes (R297). -/
def gatherPort (y : Sparse 32) (k : Nat) : GatherPort :=
  { base := rd y (4 * k + 1) ++ rd y (4 * k), stride := rd y (4 * k + 2), rs := (rd y (4 * k + 3)).toNat, pushes := [], cur := [], lines := [],
    gerr := false, seen := [] }

/-- The words that bind a register without a look at memory, and their bindings. -/
def BindsTo (i : Instr) (q : PReg) (d : QReg) (k : BitVec 4) (y : Sparse 32) (bind : QBind) : Prop :=
  (i = .qbindCopy q d ∧ bind = .copy []) ∨ (i = .qunbind q d ∧ bind = .unbound)
    ∨ (i = .qbindGather q d k ∧ (rd y (4 * k.toNat + 1)).toNat < 2 ^ 24 ∧ ((rd y (4 * k.toNat + 3)).toNat ∈ [32, 64, 128])
        ∧ bind = .gather (gatherPort y k.toNat))

theorem BindsTo.guard (h : BindsTo i q d k mm.y bind) : guardOf i = q := by
  obtain ⟨rfl, -⟩ | ⟨rfl, -⟩ | ⟨rfl, -⟩ := h <;> exact guardOf_two rfl

/-- A base address lies outside the address space if its upper half is not below 2^24. -/
theorem le_base_iff (hi lo : Word) : 2 ^ 56 ≤ (hi ++ lo : DWord).toNat ↔ 2 ^ 24 ≤ hi.toNat := by
  rw [BitVec.toNat_append, ← Nat.shiftLeft_add_eq_or_of_lt lo.isLt, Nat.shiftLeft_eq]
  have hlo := lo.isLt
  omega

theorem gatherCheck_iff (y0 y1 y3 : Word) : (decide (2 ^ 56 ≤ (y1 ++ y0 : DWord).toNat) || !(y3.toNat == 32 || y3.toNat == 64 || y3.toNat == 128)) = true
    ↔ 2 ^ 24 ≤ y1.toNat ∨ y3.toNat ∉ [32, 64, 128] := by
  rw [Bool.or_eq_true, decide_eq_true_iff, le_base_iff]
  simp [and_assoc]

section
variable (h : AtWord s c rest i) (ha : s.actors (guardOf i) c = l :: more) (hm : ∀ id ∈ more, sameTeam l id = true) (hteam : s.teamOf l = some mm)
include h ha hm hteam

theorem exec_of_bindsTo (hb : BindsTo i q d k mm.y bind) :
    exec i s = .next ((rebind d bind c l (l :: more) s).advance c rest (wordLen i)).tick := by
  obtain ⟨rfl, rfl⟩ | ⟨rfl, rfl⟩ | ⟨rfl, hbase, hrs, rfl⟩ := hb
  · exact execTeams_of_one hm h (noStall_noStall ..) ha _
  · exact execTeams_of_one hm h (noStall_noStall ..) ha _
  · show execQbindGather q d k s = _
    rw [execQbindGather, execTeams_of_one hm h (noStall_noStall ..) ha, yOf_of_team hteam]
    refine congrArg (fun x : State => Host.Outcome.next (x.advance c rest _).tick) (if_neg fun hbad => ?_)
    exact ((gatherCheck_iff ..).mp hbad).elim (fun hge => absurd hbase (Nat.not_lt.mpr hge)) fun hrs' => hrs' hrs

theorem exec_qbindGather_illegal (hi : i = .qbindGather q d k)
    (hbad : 2 ^ 24 ≤ (rd mm.y (4 * k.toNat + 1)).toNat ∨ (rd mm.y (4 * k.toNat + 3)).toNat ∉ [32, 64, 128]) :
    exec i s = .next (((l :: more).foldl (fun s id => s.raise id c.pc .illegalOp 0 0 true) s).advance c rest (wordLen i)).tick := by
  subst hi
  show execQbindGather q d k s = _
  rw [execQbindGather, execTeams_of_one hm h (noStall_noStall ..) ha, yOf_of_team hteam]
  exact congrArg (fun x : State => Host.Outcome.next (x.advance c rest _).tick) (if_pos ((gatherCheck_iff ..).mpr hbad))

end

/-! `qbind.queue`. -/

/-- What a binding takes of a control block of a legal element size. -/
theorem qbindWord_ok {va : DWord} {n : Nat} (hes : qEs n = 4 ∨ qEs n = 8) :
    qbindWord true n ≠ 0 ∧ qbindOf va (qbindWord true n) = .queue va (qEs n) (scopeOf (qScope n)) := by
  have hscope : qScope n < 8 := Nat.mod_lt _ (by decide)
  have hword : (qbindWord true n).toNat = 256 * qScope n + qEs n := by
    rw [qbindWord, if_pos (by simpa using hes), BitVec.toNat_ofNat]
    omega
  refine ⟨fun hzero => ?_, ?_⟩
  · have hzero' : (qbindWord true n).toNat = 0 := by rw [hzero]; rfl
    omega
  · rw [qbindOf, hword, show bitsN (256 * qScope n + qEs n) 7 0 = qEs n by unfold bitsN; omega,
      show bitsN (256 * qScope n + qEs n) 15 8 = qScope n by unfold bitsN; omega]

theorem qbindWord_bad {ok : Bool} {n : Nat} (h : ok = false ∨ (qEs n ≠ 4 ∧ qEs n ≠ 8)) : qbindWord ok n = 0 := by
  refine if_neg ?_
  rw [Bool.and_eq_true, decide_eq_true_iff]
  rintro ⟨hok, hes⟩
  obtain hok' | ⟨h4, h8⟩ := h
  · exact absurd (hok.symm.trans hok') (by decide)
  · exact hes.elim h4 h8

/-- The bytes of a control block as a thread reads it. -/
def State.qcbRead (s : State) (l : ThreadId) (pa : Nat) (key : BitVec 9) : Nat :=
  natOfBytes ((List.range 64).map fun k => (s.ownByte l (pa + k)).getD (s.homeByte (pa + k) key))

theorem exec_qbindQueue {n : Nat} (h : AtWord s c rest i) (ha : s.actors (guardOf i) c = l :: more) (hm : ∀ id ∈ more, sameTeam l id = true)
    (hi : i = .qbindQueue q d m) (hn : NoStall s c i fun s _ t => s.orderStall t) (hr : ∀ id ∈ l :: more, s.isRed id.blk = false)
    (hready : ∀ id ∈ l :: more, s.qNotYet .read m id = none) (ht : s.thread? l = some th) (hp : s.qPlace l (memVa m th) .read = (s', .ok a))
    (hd : a.denied = false) (hloc : a.loc = .mem pa) (hx : n = s.qcbRead l pa a.key) :
    exec i s = .next (State.advance (if qbindWord (s.qcbOk pa n) n = 0 then (l :: more).foldl (fun s id => s.raise id c.pc .illegalOp 0 0 true) s'
      else rebind d (qbindOf (memVa m th) (qbindWord (s.qcbOk pa n) n)) c l (l :: more) (s'.acquire (s.coreOf l) (scopeOf (qScope n)))) c rest (wordLen i)).tick := by
  subst hi
  have hq : guardOf (.qbindQueue q d m) = q := guardOf_two rfl
  have hearly : (s.actors q c).filter (fun id => !s.isWheel id && (s.qNotYet .read m id).isSome) = [] := by
    rw [← hq, ha]
    exact List.filter_eq_nil_iff.mpr fun id hid => by rw [hready id hid, Option.isSome_none, Bool.and_false]; decide
  have hpa : accPa a = pa := by rw [accPa, hloc]
  have hred := hr l (List.mem_cons_self ..)
  show execQbindQueue q d m s = _
  rw [execQbindQueue, h.head]
  dsimp only
  rw [hearly, if_neg (by decide), execTeams_of_one hm h (hn.or (noStall_lvFull fun id hid => hr id (ha ▸ hid))) ha, ht]
  dsimp only
  rw [hp]
  simp only [isWheel_of_not_red hred, hd, hred, hpa, Bool.false_eq_true, if_false, hx]
  rfl

/-! `qstat`. -/

/-- The state of register `d` is in yoke register `y`; GERR is cleared. -/
def State.qstatRead (s : State) (l : ThreadId) (y : YReg) (d : QReg) : State :=
  let x := s.setY l [(y.toNat, 1)] fun m => wr m y.toNat (qstatWord (s.qregOf l d) ((s.regReqs l d).any fun r => r.waiting || r.result.isNone))
  match s.qregOf l d with
  | .gather g => x.setQreg l d (.gather { g with gerr := false })
  | _ => x

theorem qstatRead_rest : s.qstatRead l y d = { s with teams := (s.qstatRead l y d).teams } := by
  unfold State.qstatRead
  dsimp only
  split <;> rfl

theorem exec_qstat (h : AtWord s c rest i) (ha : s.actors (guardOf i) c = l :: more) (hm : ∀ id ∈ more, sameTeam l id = true)
    (hi : i = .qstat q y d) (hr : ∀ id ∈ l :: more, s.isRed id.blk = false) :
    exec i s = .next ((s.qstatRead l y d).advance c rest (wordLen i)).tick := by
  subst hi
  have hred := hr l (List.mem_cons_self ..)
  have hblocks : (s.qstatRead l y d).blocks = s.blocks := (congrArg State.blocks qstatRead_rest :)
  have hdone : (s.qstatRead l y d).isRed l.blk ≠ true := by
    rw [isRed_congr hblocks, hred]
    decide
  show execQstat q y d s = _
  rw [execQstat, execTeams_of_one hm h (noStall_lvFull fun id hid => hr id (ha ▸ hid)) ha, isWheel_of_not_red hred]
  exact congrArg (fun x : State => Host.Outcome.next (x.advance c rest _).tick) (if_neg hdone)

theorem teamOf_qstatRead (hteam : s.teamOf l = some mm) (hq : mm.q.length = 8) : ∃ m', (s.qstatRead l y d).teamOf l = some m'
    ∧ (∀ r : YReg, rd m'.y r.toNat = if r = y then qstatWord (mm.qreg d) ((s.regReqs l d).any fun r => r.waiting || r.result.isNone) else rd mm.y r.toNat)
    ∧ ∀ g, mm.qreg d = .gather g → m'.qreg d = .gather { g with gerr := false } := by
  have hy (w : Word) (r : YReg) : rd (wr mm.y y.toNat w) r.toNat = if r = y then w else rd mm.y r.toNat := by
    rw [rd_wr]
    simp only [BitVec.toNat_inj, eq_comm]
  have hsetY (w : Word) := (teamOf_setY (s := s) (l := l) (dst := [(y.toNat, 1)]) (f := fun m => wr m y.toNat w)).trans (congrArg _ hteam)
  unfold State.qstatRead
  rw [qregOf_of_team hteam]
  dsimp only
  split
  · next g hg =>
    refine ⟨_, teamOf_setQreg.trans (congrArg _ (hsetY _)), hy _, fun g' hg' => ?_⟩
    obtain rfl : g = g' := QBind.gather.inj (hg.symm.trans hg')
    exact (qreg_setQ hq).trans (if_pos rfl)
  · next hne => exact ⟨_, hsetY _, hy _, fun g hg => absurd hg (hne g)⟩

end Sys2Proof.Machine
end

section
/-! PROOFS. What the words on queue registers complete with (R130 to R133, R297, R298): the binding they leave, the threads that pass or stay. -/

namespace Sys2Proof.Machine

variable {s s' : State} {id l : ThreadId} {th u : Thread} {mm : Team} {c : Str} {rest : List Str} {i : Instr} {more : List ThreadId} {q : PReg} {d : QReg}
  {k : BitVec 4} {y : YReg} {m : MemOp} {bind : QBind} {a : Acc} {pa : Nat}

/-- The acting threads of a string are of one team, outside redundant blocks. -/
structure OneTeam (s : State) (q : PReg) (c : Str) (l : ThreadId) (more : List ThreadId) (mm : Team) : Prop where
  acts : s.actors q c = l :: more
  same : ∀ id ∈ more, sameTeam l id = true
  plain : ∀ id ∈ l :: more, s.isRed id.blk = false
  team : s.teamOf l = some mm
  regs : mm.q.length = 8

theorem oneTeam_of_block {b : Block} (ha : s.actors q c = l :: more) (hm : ∀ id ∈ more, sameTeam l id = true) (hb : s.block? l.blk = some b)
    (hred : b.shape.red = false) (hteam : s.teamOf l = some mm) (hq : mm.q.length = 8) : OneTeam s q c l more mm := by
  refine ⟨ha, hm, fun id hid => ?_, hteam, hq⟩
  have hl : s.isRed l.blk = false := (isRed_of_block hb).trans hred
  obtain rfl | hid := List.mem_cons.mp hid
  · exact hl
  · rw [← (sameTeam_iff.mp (hm id hid)).1, hl]

section
variable (h : AtWord s c rest i) (ho : OneTeam s q c l more mm)
include h ho

theorem bindsTo_word (hb : BindsTo i q d k mm.y bind) :
    (s.canEnd l d = true → s.regReqs l d = [] → s.unbinding c.seq (fun u => !sameTeam u l) = false →
      ∃ t, exec i s = .next t ∧ t = { s with threads := t.threads, teams := t.teams, strings := t.strings, cycle := s.cycle + 1 }
        ∧ t.qregOf l d = bind ∧ (∀ e, e ≠ d → t.qregOf l e = s.qregOf l e)
        ∧ ∀ id ∈ l :: more, ∀ u, s.thread? id = some u → t.thread? id = some (u.pass (wordLen i)))
    ∧ (s.canEnd l d = false →
      ∃ t, exec i s = .next t ∧ t.qregOf l d = s.qregOf l d
        ∧ ∀ id ∈ l :: more, ∀ u, s.thread? id = some u → StaysWith t c i u (.waiting (.unbind d bind c.seq))) := by
  obtain ⟨ha, hm, -, hteam, hq⟩ := ho
  rw [← hb.guard] at ha
  have hexec := exec_of_bindsTo h ha hm hteam hb
  exact ⟨fun hend hreqs hun => rebind_word_ends ha rfl hend hreqs hun hteam hq hexec, fun hend => rebind_word_waits ha hend hexec⟩

theorem qbindGather_word_illegal (hi : i = .qbindGather q d k) (ht : s.thread? l = some th)
    (hbad : 2 ^ 24 ≤ (rd mm.y (4 * k.toNat + 1)).toNat ∨ (rd mm.y (4 * k.toNat + 3)).toNat ∉ [32, 64, 128]) :
    ∃ t th', exec i s = .next t ∧ t.thread? l = some th' ∧ th'.status = .parked { cause := .illegalOp, addr := 0, sub := 0, word := true }
      ∧ t.qregOf l d = s.qregOf l d := by
  obtain ⟨ha, hm, hplain, hteam, -⟩ := ho
  have hguard : guardOf i = q := hi ▸ guardOf_two rfl
  rw [← hguard] at ha
  exact illegal_word ha rfl hplain ht (exec_qbindGather_illegal h ha hm hteam hi hbad)

/-- A control block that passes its checks is bound with its ES and SCOPE; another traps the team's threads (R130). -/
theorem qbindQueue_word {n : Nat} (hi : i = .qbindQueue q d m) (ht : s.thread? l = some th) (hn : NoStall s c i fun s _ t => s.orderStall t)
    (hready : ∀ id ∈ l :: more, s.qNotYet .read m id = none) (hp : s.qPlace l (memVa m th) .read = (s', .ok a)) (hd : a.denied = false)
    (hloc : a.loc = .mem pa) (hx : n = s.qcbRead l pa a.key) :
    (s.qcbOk pa n = true → (qEs n = 4 ∨ qEs n = 8) → s.canEnd l d = true → s.regReqs l d = [] → s.unbinding c.seq (fun u => !sameTeam u l) = false →
      ∃ t, exec i s = .next t ∧ t.mem = s.mem ∧ t.qregOf l d = .queue (memVa m th) (qEs n) (scopeOf (qScope n))
        ∧ ∀ id ∈ l :: more, ∀ u, s.thread? id = some u → t.thread? id = some (u.pass (wordLen i)))
    ∧ ((s.qcbOk pa n = false ∨ (qEs n ≠ 4 ∧ qEs n ≠ 8)) →
      ∃ t th', exec i s = .next t ∧ t.thread? l = some th' ∧ th'.status = .parked { cause := .illegalOp, addr := 0, sub := 0, word := true }
        ∧ t.qregOf l d = s.qregOf l d) := by
  obtain ⟨ha, hm, hplain, hteam, hq⟩ := ho
  have hguard : guardOf i = q := hi ▸ guardOf_two rfl
  rw [← hguard] at ha
  have hexec := exec_qbindQueue h ha hm hi hn hplain hready ht hp hd hloc hx
  have hlook := qPlace_of_eq hp
  refine ⟨fun hok hes hend hreqs hun => ?_, fun hbad => ?_⟩
  · have hacq := acquire_sansTraffic (s := s') (core := s.coreOf l) (sc := scopeOf (qScope n))
    rw [hok] at hexec
    obtain ⟨hword, hbind⟩ := qbindWord_ok (va := memVa m th) hes
    rw [if_neg hword, hbind] at hexec
    generalize s'.acquire (s.coreOf l) (scopeOf (qScope n)) = x at hacq hexec
    have hx : x.sansTraffic.sansLookup = s.sansTraffic.sansLookup := (congrArg State.sansLookup hacq).trans (congrArg State.sansTraffic hlook)
    obtain ⟨t, hnext, ht, hqreg, -, hths⟩ := rebind_word_ends (x := x) ha (congrArg State.threads hx :) ((congrArg (fun x => x.canEnd l d) hx :).trans hend)
      ((congrArg (fun x => x.regReqs l d) hx :).trans hreqs) ((congrArg (fun x => x.unbinding c.seq fun u => !sameTeam u l) hx :).trans hun)
      ((congrArg (fun x => x.teamOf l) hx :).trans hteam) hq hexec
    exact ⟨t, hnext, (congrArg State.mem ht :).trans (congrArg State.mem hx :), hqreg, hths⟩
  · rw [if_pos (qbindWord_bad hbad)] at hexec
    exact illegal_word ha hlook hplain ht hexec

theorem qstat_word (hi : i = .qstat q y d) :
    ∃ t m', exec i s = .next t ∧ t = { s with threads := t.threads, teams := t.teams, strings := t.strings, cycle := s.cycle + 1 } ∧ t.teamOf l = some m'
      ∧ (∀ r : YReg, rd m'.y r.toNat = if r = y then qstatWord (mm.qreg d) ((s.regReqs l d).any fun r => r.waiting || r.result.isNone) else rd mm.y r.toNat)
      ∧ (∀ g, mm.qreg d = .gather g → m'.qreg d = .gather { g with gerr := false })
      ∧ ∀ id ∈ l :: more, ∀ u, s.thread? id = some u → t.thread? id = some (u.pass (wordLen i)) := by
  obtain ⟨ha, hm, hplain, hteam, hq⟩ := ho
  have hguard : guardOf i = q := hi ▸ guardOf_two rfl
  rw [← hguard] at ha
  obtain ⟨m', hm', hy, hgerr⟩ := teamOf_qstatRead (y := y) (d := d) hteam hq
  have hrest := qstatRead_rest (s := s) (l := l) (y := y) (d := d)
  refine ⟨_, m', exec_qstat h ha hm hi hplain, by rw [hrest]; rfl, hm', hy, hgerr, fun id hid u hu => ?_⟩
  exact thread?_advance_actor (rest := rest) (x := s.qstatRead l y d) ha (congrArg State.threads hrest :) hid hu

end

end Sys2Proof.Machine
end

section
/-! PROOFS. Loads and stores through a queue register, thread by thread (R130 to R132, R281): what each binding gives or takes outside redundant blocks. -/

namespace Sys2Proof.Machine

variable {s s1 x : State} {id : ThreadId} {th : Thread} {c : Str} {rest : List Str} {i : Instr} {q : PReg} {d : GReg} {k : QReg}
  {sz : BitVec 3} {src : Src} {word pa es : Nat} {va : DWord} {sc : Scope} {a : Acc} {enq read : Bool} {elem : List Word} {g : GatherPort}
  {stall : State → Str → Thread → Bool} {eff : Str → ThreadId → State → State} {subs : List CopySub}

/-- A word through a queue register issues for its acting threads one after the other, each gated where its binding makes the access irrevocable. -/
theorem qregWord_issues {sig : State → Thread → List Byte} (h : AtWord s c rest i) (hn : NoStall s c i stall) :
    qregWord i read sz k stall sig eff s = .next (State.snapAfter
      (((s.actors (guardOf i) c).foldl (fun x id => qregPart read sz k sig eff c id x) s).advance c rest (wordLen i)).tick s c) := by
  simp only [qregWord, h.head, execEach_issues h hn]
  rfl

theorem ldQ_word (h : AtWord s c rest (.ldQ q sz d k)) (hn : NoStall s c (.ldQ q sz d k) fun s _ t => s.qStall t false) :
    exec (.ldQ q sz d k) s = .next (State.snapAfter
      (((s.actors q c).foldl (fun x id => qregPart true sz k (fun _ _ => []) (ldQOne sz d k s.nextId (s.actors q c)) c id x) s).advance c rest
        (wordLen (.ldQ q sz d k))).tick s c) := by
  have hguard : guardOf (.ldQ q sz d k) = q := guardOf_two rfl
  have hexec : exec (.ldQ q sz d k) s = qregWord (.ldQ q sz d k) true sz k (fun s _ t => s.qStall t false) (fun _ _ => [])
      (ldQOne sz d k s.nextId (s.actors q c)) s := by
    show execLdQ q sz d k s = _
    rw [execLdQ, h.head, hguard]
  rw [hexec, qregWord_issues h hn, hguard]

/-- What a write through a register signs in a redundant block. -/
def stQSig (sz : BitVec 3) (src : Src) (s : State) (t : Thread) : List Byte :=
  (pairWords (s.yOf t.id) t src (szRegs sz)).flatMap fun w => bytesOfNat 4 w.toNat

theorem stQ_word (h : AtWord s c rest (.stQ q sz k src)) (hn : NoStall s c (.stQ q sz k src) fun s _ t => s.qStall t true || ctrFull t.as) :
    exec (.stQ q sz k src) s = .next (State.snapAfter
      (((s.actors q c).foldl (fun x id => qregPart false sz k (stQSig sz src) (stQOne sz k src s.nextId) c id x) s).advance c rest
        (wordLen (.stQ q sz k src))).tick s c) := by
  have hguard : guardOf (.stQ q sz k src) = q := guardOf_two rfl
  have hexec : exec (.stQ q sz k src) s = qregWord (.stQ q sz k src) false sz k (fun s _ t => s.qStall t true || ctrFull t.as) (stQSig sz src)
      (stQOne sz k src s.nextId) s := rfl
  rw [hexec, qregWord_issues h hn, hguard]

/-! Bindings that serve an access of their own. -/

theorem qregChk_unbound (h : s.qregOf id k = .unbound) : qregChk read sz k c id s = (s, some (.illegalOp, 0)) := by
  simp only [qregChk, h, qTypeOk, Bool.not_false, if_true]

theorem qregChk_copy_read (h : s.qregOf id k = .copy subs) : qregChk true 2 k c id s = (s, none) := by
  simp only [qregChk, h, qTypeOk]
  rfl

/-- The row of a push that is no fill is asked for behind the thread's release (R91). -/
theorem gPush_row {idx : Word} (hfill : idx ≠ 0xffffffff) : ∃ (x : State) (n : Nat),
    s.gPush word id k g idx c = x.beginRelease id .dev [] (some (.gatherRowReturn n))
    ∧ x.threads = s.threads := by
  have hb : (idx == 0xffffffff) = false := beq_false_of_ne hfill
  unfold State.gPush
  dsimp only
  rw [hb]
  exact ⟨_, _, rfl, rfl⟩

/-- A thread alone in its word is the first of its team. -/
theorem first_of_one : [id].any (fun x => sameTeam x id && decide (x.tid < id.tid)) = false := by simp

section
variable (hr : s.isRed id.blk = false)
include hr

/-- The oldest submission of a COPY binding has its status: the thread takes it (R131). -/
theorem ldQOne_copy_done {n : Nat} {st : Word} {more : List CopySub} {ids : List ThreadId}
    (h : s.qregOf id k = .copy ({ id := n, status := some st, scope := sc } :: more)) :
    ldQOne sz d k word ids c id s = ((s.setQreg id k (.copy more)).acquire (s.coreOf id) sc).modThread id fun t => t.setG d st := by
  have hacq := acquire_sansTraffic (s := s.setQreg id k (.copy more)) (core := s.coreOf id) (sc := sc)
  have hblocks : ((s.setQreg id k (.copy more)).acquire (s.coreOf id) sc).blocks = s.blocks := (congrArg State.blocks hacq :)
  unfold ldQOne
  rw [h]
  dsimp only
  rw [isWheel_of_not_red hr, if_neg (by decide)]
  refine if_neg ?_
  rw [isRed_congr (t := State.modThread _ _ _) hblocks, hr]
  decide

/-- No submission, or the oldest without its status: the thread waits. -/
theorem ldQOne_copy_waits {ids : List ThreadId}
    (h : (∃ n sc more, s.qregOf id k = .copy ({ id := n, status := none, scope := sc } :: more)) ∨ s.qregOf id k = .copy []) :
    ldQOne sz d k word ids c id s = s.modThread id (Thread.waitFor (.qreg k true)) := by
  obtain ⟨n, sc, more, h⟩ | h := h <;>
  · unfold ldQOne
    rw [h]
    dsimp only
    rw [isWheel_of_not_red hr]
    rfl

/-- A thread alone in its word waits for a line of the port (R132). -/
theorem ldQOne_gather_waits (h : s.qregOf id k = .gather g) (hl : g.lines = []) :
    ldQOne sz d k word [id] c id s = s.modThread id (Thread.waitFor (.qreg k true)) := by
  unfold ldQOne
  rw [h]
  dsimp only
  rw [isWheel_of_not_red hr, first_of_one, if_neg (by decide), if_neg (by decide), hl]
  rfl

/-- A thread that takes a line: its destination is held until the value returns. -/
def Thread.takesLine (d : GReg) (t : Thread) : Thread := { t.addHold [d] with ld := t.ld + 1 }

/-- A thread alone in its word takes the line at the head of the port (R132). -/
theorem ldQOne_gather_line {line : List Byte} {lines : List (List Byte)} (h : s.qregOf id k = .gather g) (hl : g.lines = line :: lines) :
    ldQOne sz d k word [id] c id s = ((s.setQreg id k (.gather (gPack 257 { g with lines := lines }))).modThread id (Thread.takesLine d)).sendRet id s.nextId
      [(d, lineWord line (laneSlot id))] [] true false (word := some s.nextId) := by
  have hopen (b : QBind) (n : Nat) : (s.setQreg id k b).lvOpen id c.pc n = s.setQreg id k b :=
    lvOpen_of_not_red ((isRed_congr (t := s.setQreg id k b) rfl _).trans hr)
  unfold ldQOne
  rw [h]
  dsimp only
  rw [isWheel_of_not_red hr, first_of_one, if_neg (by decide), if_neg (by decide), hl]
  dsimp only
  rw [List.filter_eq_self.mpr fun x hx => List.mem_singleton.mp hx ▸ sameTeam_refl id, List.foldl_cons, List.foldl_nil, hopen]
  rfl

/-- Outside redundant blocks a value returns to its thread alone. -/
theorem sendRet_plain {n : Nat} {outs : List (GReg × Word)} {w : Option Nat} :
    ∃ r, (s.sendRet id n outs [] true false (word := w)).rets = s.rets ++ [r] ∧ r.th = id ∧ r.outs = outs
      ∧ (s.sendRet id n outs [] true false (word := w)).threads = s.threads := by
  unfold State.sendRet
  rw [hr]
  exact ⟨_, rfl, rfl, rfl, rfl⟩

/-! A request through a QUEUE binding (R130). -/

theorem qregSend_spec (ht : s.thread? id = some th) (hp : s.qPlace id va .atomic = (s1, .ok a)) (hloc : a.loc = .mem pa) :
    ∃ r ∈ (s.qregSend word enq k c id va es sc d elem).qreqs, r.ths = [id] ∧ r.enq = enq ∧ r.try_ = false ∧ r.qreg = some k ∧ r.stat = none ∧ r.dst = d
      ∧ r.elems = (if enq then [elem] else []) ∧ r.es = es ∧ r.scope = sc ∧ r.qcbPa = pa
      ∧ Ev.queueRequest r.id ∈ (s.qregSend word enq k c id va es sc d elem).agenda
      ∧ ∃ th', (s.qregSend word enq k c id va es sc d elem).thread? id = some th' ∧ th'.status = .waiting (.queue r.id)
        ∧ th'.st = th.st + (if enq then 1 else 0) ∧ th'.ld = th.ld + (if enq then 0 else 1) := by
  have hlook := qPlace_of_eq hp
  obtain ⟨r, hreq⟩ : ∃ r, r = s1.qMake enq false c va a es (some sc) d none (some k) false (if enq then [elem] else []) word [id] := ⟨_, rfl⟩
  have hsend : s.qregSend word enq k c id va es sc d elem = s1.qSend r := by rw [State.qregSend, hp, hreq]
  obtain ⟨hths, henq, htry, hpa⟩ : r.ths = [id] ∧ r.enq = enq ∧ r.try_ = false ∧ r.qcbPa = pa := by
    subst hreq
    exact ⟨rfl, rfl, rfl, by simp only [State.qMake, hloc]⟩
  have hred (j) (hj : j ∈ r.ths) : s1.isRed j.blk = false := by
    obtain rfl := List.mem_singleton.mp (hths ▸ hj)
    exact (isRed_congr (congrArg State.blocks hlook :) _).trans hr
  have hu1 : s1.thread? id = some th := (congrArg (fun x => x.thread? id) hlook :).trans ht
  obtain ⟨rels, hmem, -⟩ := qSend_released hred
  have hth : (s1.qSend r).thread? id = some (r.raised th) := by
    rw [thread?_qSend hred (hths ▸ List.nodup_singleton id) (hths ▸ List.mem_singleton.mpr rfl), hu1]
    rfl
  rw [QReq.raised_of_blocking htry, henq] at hth
  rw [hsend]
  have hevent := queueRequest_of_qSend hred
  refine ⟨_, hmem, hths, henq, htry, ?_, ?_, ?_, ?_, ?_, ?_, hpa, hevent, _, hth, rfl, rfl, rfl⟩ <;>
  · subst hreq
    rfl

/-! The writes. -/

theorem stQOne_queue (ht : s.thread? id = some th) (h : s.qregOf id k = .queue va es sc) :
    stQOne sz k src word c id s = s.qregSend word true k c id va es sc 0 (pairWords (s.yOf id) th src (szRegs sz)) := by
  unfold stQOne
  rw [ht]
  dsimp only
  rw [h]
  dsimp only
  rw [isWheel_of_not_red hr]
  rfl

theorem ldQOne_queue {ids : List ThreadId} (h : s.qregOf id k = .queue va es sc) :
    ldQOne sz d k word ids c id s = s.qregSend word false k c id va es sc d [] := by
  unfold ldQOne
  rw [h]
  dsimp only
  rw [isWheel_of_not_red hr]
  rfl

/-- A full port stalls the thread (R132). -/
theorem stQOne_gather_waits (ht : s.thread? id = some th) (h : s.qregOf id k = .gather g) (hfull : 256 ≤ g.pushes.length) :
    stQOne sz k src word c id s = s.modThread id (Thread.waitFor (.qreg k false)) := by
  unfold stQOne
  rw [ht]
  dsimp only
  rw [h]
  dsimp only
  rw [isWheel_of_not_red hr, if_neg (by decide), if_pos hfull]
  rfl

theorem stQOne_gather (ht : s.thread? id = some th) (h : s.qregOf id k = .gather g) (hroom : g.pushes.length < 256) :
    stQOne sz k src word c id s = (s.gPush word id k g ((pairWords (s.yOf id) th src (szRegs sz)).headD 0) c).stRaise id := by
  unfold stQOne
  rw [ht]
  dsimp only
  rw [h]
  dsimp only
  rw [isWheel_of_not_red hr, if_neg (by decide), if_neg (Nat.not_le.mpr hroom)]

/-- A submission to a copy engine (R131): its command is read behind the thread's release. -/
theorem stQOne_copy (ht : s.thread? id = some th) (h : s.qregOf id k = .copy subs) : ∃ x : CopyCmd, x.th = id
    ∧ x.cmd = ((pairWords (s.yOf id) th src (szRegs sz)).getD 1 0 ++ (pairWords (s.yOf id) th src (szRegs sz)).getD 0 0 : DWord) ∧ x.unread = true
    ∧ stQOne sz k src word c id s = ((State.setQreg { s.bump with copies := s.copies ++ [x] } id k
        (.copy (subs ++ [{ id := x.id, status := none, scope := .sys }]))).modThread id fun t => { t with as := t.as + 1 }).beginRelease
          id .sys [] (some (.copyCommandRead x.id)) := by
  unfold stQOne
  rw [ht]
  dsimp only
  rw [h]
  dsimp only
  rw [isWheel_of_not_red hr, if_neg (by decide)]
  exact ⟨_, rfl, rfl, rfl, rfl⟩

end

end Sys2Proof.Machine
end

section
/-! PROOFS. What one access through a COPY or GATHER binding leaves of the state (R131, R132), and queue words and queue registers as a whole (O47). -/

namespace Sys2Proof.Machine

variable {s : State} {id : ThreadId} {th : Thread} {mm : Team} {c : Str} {d : GReg} {k : QReg} {sz : BitVec 3} {src : Src} {word : Nat} {g : GatherPort}
  {subs : List CopySub}

theorem takesLine_of_no_pend (h : th.pend = []) : th.takesLine d = { th with hold := th.hold ++ [d], ld := th.ld + 1 } := by
  cases th
  cases h
  rfl

section
variable (ht : s.thread? id = some th) (hr : s.isRed id.blk = false)
include ht hr

theorem ldQOne_copy_spec {n : Nat} {st : Word} {sc : Scope} {more : List CopySub} {ids : List ThreadId} (hteam : s.teamOf id = some mm) (hq : mm.q.length = 8)
    (h : s.qregOf id k = .copy ({ id := n, status := some st, scope := sc } :: more)) : (ldQOne sz d k word ids c id s).qregOf id k = .copy more
    ∧ ∃ th', (ldQOne sz d k word ids c id s).thread? id = some th' ∧ th'.gr d = st ∧ (∀ r, r ≠ d → th'.gr r = th.gr r) ∧ th'.status = th.status := by
  have hacq := acquire_sansTraffic (s := s.setQreg id k (.copy more)) (core := s.coreOf id) (sc := sc)
  have hth : ((s.setQreg id k (.copy more)).acquire (s.coreOf id) sc).thread? id = some th := (congrArg (fun x => x.thread? id) hacq :).trans ht
  rw [ldQOne_copy_done hr h]
  refine ⟨?_, th.setG d st, ?_, ?_, fun r hne => ?_, rfl⟩
  · exact (congrArg (fun x => x.qregOf id k) hacq :).trans ((qregOf_setQreg hteam hq).trans (if_pos rfl))
  · exact (thread?_modThread_same (f := fun t => t.setG d st) fun _ => rfl).trans (congrArg _ hth)
  · rw [Thread.gr_setG, if_pos rfl]
  · rw [Thread.gr_setG, if_neg hne.symm]

theorem ldQOne_line_spec {line : List Byte} {lines : List (List Byte)} (hpend : th.pend = []) (h : s.qregOf id k = .gather g) (hl : g.lines = line :: lines) :
    ∃ r, (ldQOne sz d k word [id] c id s).rets = s.rets ++ [r] ∧ r.th = id
      ∧ r.outs = [(d, BitVec.ofNat 32 (natOfBytes ((line.drop (4 * (id.tid % 128 % 32))).take 4)))]
      ∧ (ldQOne sz d k word [id] c id s).thread? id = some { th with hold := th.hold ++ [d], ld := th.ld + 1 } := by
  rw [ldQOne_gather_line hr h hl, ← takesLine_of_no_pend hpend]
  have hth := (thread?_modThread_same (s := s.setQreg id k (.gather (gPack 257 { g with lines := lines }))) (id := id) (f := Thread.takesLine d) fun _ => rfl).trans
    (congrArg _ ht)
  generalize hx : (s.setQreg id k (.gather (gPack 257 { g with lines := lines }))).modThread id (Thread.takesLine d) = x at hth
  have hrx : x.isRed id.blk = false := hx ▸ (isRed_congr rfl _).trans hr
  obtain ⟨r, hrets, hrth, houts, hths⟩ := sendRet_plain (n := s.nextId) (outs := [(d, lineWord line (laneSlot id))]) (w := some s.nextId) hrx
  exact ⟨r, hrets.trans (hx ▸ rfl), hrth, houts, (congrArg (List.find? fun t => t.id == id) hths :).trans hth⟩

/-- A push raises the store counter and asks for its row behind a release at .dev scope (R132). -/
theorem stQOne_push_spec (h : s.qregOf id k = .gather g) (hroom : g.pushes.length < 256) (hfill : (pairWords (s.yOf id) th src (szRegs sz)).headD 0 ≠ 0xffffffff) :
    ∃ r ∈ (stQOne sz k src word c id s).rels, ∃ n, r.th = id ∧ r.scope = .dev ∧ r.after = some (.gatherRowReturn n)
      ∧ (stQOne sz k src word c id s).thread? id = some { th with st := th.st + 1 } := by
  obtain ⟨x, n, hpush, hths⟩ := gPush_row (s := s) (word := word) (id := id) (k := k) (g := g) (c := c) hfill
  have hrel := beginRelease_rels (s := x) (id := id) (sc := .dev) (cells := []) (after := some (.gatherRowReturn n))
  have hrest := beginRelease_sansRelease (s := x) (id := id) (sc := .dev) (cells := []) (after := some (.gatherRowReturn n))
  rw [stQOne_gather hr ht h hroom, hpush]
  generalize x.beginRelease id .dev [] (some (.gatherRowReturn n)) = y at hrel hrest
  have hth : y.thread? id = some th := (congrArg (fun x => x.thread? id) hrest :).trans ((congrArg (List.find? fun t => t.id == id) hths :).trans ht)
  refine ⟨x.relOf id .dev [] (some (.gatherRowReturn n)), ?_, n, rfl, rfl, rfl, ?_⟩
  · exact hrel ▸ List.mem_append_right _ (List.mem_singleton.mpr rfl)
  · exact (thread?_modThread_same (f := fun t => { t with st := t.st + 1 }) fun _ => rfl).trans (congrArg _ hth)

/-- A submission raises the copy counter and has its command read behind a release at .sys scope (R131). -/
theorem stQOne_copy_spec (hteam : s.teamOf id = some mm) (hq : mm.q.length = 8) (h : s.qregOf id k = .copy subs) :
    ∃ x, (stQOne sz k src word c id s).copies = s.copies ++ [x] ∧ x.th = id
      ∧ x.cmd = ((pairWords (s.yOf id) th src (szRegs sz)).getD 1 0 ++ (pairWords (s.yOf id) th src (szRegs sz)).getD 0 0 : DWord)
      ∧ x.unread = true ∧ (stQOne sz k src word c id s).qregOf id k = .copy (subs ++ [{ id := x.id, status := none, scope := .sys }])
      ∧ (∃ th', (stQOne sz k src word c id s).thread? id = some th' ∧ th'.as = th.as + 1 ∧ th'.status = th.status)
      ∧ ∃ r ∈ (stQOne sz k src word c id s).rels, r.th = id ∧ r.scope = .sys ∧ r.after = some (.copyCommandRead x.id) := by
  obtain ⟨x, hxth, hxcmd, hxunread, hst⟩ := stQOne_copy (sz := sz) (src := src) (word := word) (c := c) hr ht h
  generalize hy : (State.setQreg { s.bump with copies := s.copies ++ [x] } id k (.copy (subs ++ [{ id := x.id, status := none, scope := .sys }]))).modThread id
    (fun t => { t with as := t.as + 1 }) = y at hst
  have hth : y.thread? id = some { th with as := th.as + 1 } :=
    hy ▸ (thread?_modThread_same (f := fun t => { t with as := t.as + 1 }) fun _ => rfl).trans (congrArg _ ht)
  have hqreg : y.qregOf id k = .copy (subs ++ [{ id := x.id, status := none, scope := .sys }]) :=
    hy ▸ (qregOf_setQreg (s := { s.bump with copies := s.copies ++ [x] }) hteam hq).trans (if_pos rfl)
  have hrel := beginRelease_rels (s := y) (id := id) (sc := .sys) (cells := []) (after := some (.copyCommandRead x.id))
  have hrest := beginRelease_sansRelease (s := y) (id := id) (sc := .sys) (cells := []) (after := some (.copyCommandRead x.id))
  rw [hst]
  refine ⟨x, (congrArg State.copies hrest :).trans (hy ▸ rfl), hxth, hxcmd, hxunread, (congrArg (fun x => x.qregOf id k) hrest :).trans hqreg,
    ⟨_, (congrArg (fun x => x.thread? id) hrest :).trans hth, rfl, rfl⟩, y.relOf id .sys [] (some (.copyCommandRead x.id)), ?_, rfl, rfl, rfl⟩
  exact hrel ▸ List.mem_append_right _ (List.mem_singleton.mpr rfl)

end

end Sys2Proof.Machine

namespace Sys2Proof
open Machine

/-- Settles O47: the words issue as irrevocable operations, requests of a try form or uniform words; each of those and each access of a thread is taken
binding by binding. -/
theorem queueWords : Obligations.QueueWords := by
  unfold Obligations.QueueWords
  refine ⟨fun q x enq i hi => ?words, tryForms_hold, tryRequest_holds, ?sends, ?binds, fun q sz d k b s c rest => ?registers, ?accesses⟩
  case words =>
    simp only [List.mem_cons, Prod.mk.injEq, List.not_mem_nil, or_false] at hi
    have hexec (s : State) : exec i s = queueWord i enq x s := by
      obtain ⟨rfl, rfl⟩ | ⟨rfl, rfl⟩ := hi <;> rfl
    exact ⟨queueWord_single hexec, queueWord_teams hexec⟩
  case sends =>
    rintro x enq word c l ids s s1 t th a pa - - hnd ht hr hids hp hloc rfl
    obtain ⟨hmem, r, hreq, hev, hths, henq, htry, hteam, hpa, hkey, hqcb, hes, hscope, hdst, hstat, hwait, hres, helems, hwaits⟩ :=
      queueSend_spec (word := word) (c := c) (enq := enq) hnd ht hr hids hp hloc
    exact ⟨hmem, r, hreq, hev, hths, henq, htry, hteam, hpa, hkey, hqcb, hes, hscope, hdst, hstat, hwait, hres, helems,
      fun id hid u hu _ => hwaits id hid u hu⟩
  case binds =>
    intro q d k y m i s c rest l more th b mm h ha hm ht hb hred hteam hq _
    have ho := oneTeam_of_block ha hm hb hred hteam hq
    exact ⟨fun bind hbind => bindsTo_word h ho hbind, fun hi hbad => qbindGather_word_illegal h ho hi ht hbad,
      fun s' a pa x hi hn hready hp hd hloc hx => qbindQueue_word h ho hi ht hn hready hp hd hloc hx, qstat_word h ho⟩
  case registers => exact ⟨fun h hn => ⟨_, _, rfl, ldQ_word h hn⟩, fun h hn => ⟨_, _, rfl, stQ_word h hn⟩⟩
  case accesses =>
    intro sz d k src word c id s th mm ht hteam hq hr hpend
    refine ⟨fun read hb => qregChk_unbound hb, ?copyDone, fun n sc more hb => ldQOne_copy_waits hr (hb.imp_left fun hb => ⟨n, sc, more, hb⟩), ?line,
      fun g hb hl => ldQOne_gather_waits hr hb hl, fun va es sc s1 a pa hb hp hloc => ⟨?takes, ?gives⟩,
      fun g hb hroom hfill => stQOne_push_spec ht hr hb hroom hfill,
      fun g hb hfull => stQOne_gather_waits hr ht hb hfull, fun subs hb => stQOne_copy_spec ht hr hteam hq hb⟩
    case copyDone =>
      rintro n st sc more hb rfl
      exact ⟨qregChk_copy_read hb, ldQOne_copy_spec ht hr hteam hq hb⟩
    case line => exact fun g line more hb hl _ => ldQOne_line_spec ht hr hpend hb hl
    case takes =>
      rw [ldQOne_queue hr hb]
      obtain ⟨r, hreq, hths, henq, htry, hqreg, hstat, hdst, -, hes, hscope, hpa, hev, th', hth, hwait, -, hld⟩ := qregSend_spec hr ht hp hloc
      exact ⟨r, hreq, hths, henq, htry, hqreg, hstat, hdst, hes, hscope, hpa, hev, th', hth, hwait, hld⟩
    case gives =>
      rw [stQOne_queue hr ht hb]
      obtain ⟨r, hreq, hths, henq, htry, hqreg, hstat, -, helems, hes, hscope, hpa, hev, th', hth, hwait, hst, -⟩ := qregSend_spec hr ht hp hloc
      exact ⟨r, hreq, hths, henq, htry, hqreg, hstat, helems, hes, hscope, hpa, hev, th', hth, hwait, hst⟩

end Sys2Proof
end
